-- ==== Sys2Proof/Word.lean ====
section
/-!
DEFINITION. The word types of the PV12 model and their plainest forms: bytes, 64-bit words, words that may
arrive poisoned, and the numbers of the module's parts (R16).
-/
namespace Sys2Proof

/-- A byte. -/
abbrev Byte := BitVec 8

/-- A 64-bit word, the unit the 72/64 code protects (R372). -/
abbrev Word := BitVec 64

/-- Core numbers: core `n` lies in hedge `n / 6` (R16). -/
abbrev CoreId := Fin 72

/-- Hedge, stack, update-engine and warden numbers (R16). -/
abbrev HedgeId := Fin 12

/-- Channel numbers: channel `64 * stack + channel-in-stack` (R16). -/
abbrev ChanId := Fin 768

/-- PCIe function numbers: 0 the physical function, 1 to 31 the virtual functions (R513). -/
abbrev FnId := Fin 32

/-- Mailbox slot numbers (R478). -/
abbrev SlotId := Fin 4

/-- A 64-bit word as it travels or arrives: its data, and whether it is poison (R374, R379). -/
structure PWord where
  data   : Word
  poison : Bool
deriving DecidableEq, Repr, Inhabited

/-- A word that is not poisoned. -/
def PWord.good (w : Word) : PWord := ⟨w, false⟩

/-- The canonical poison word: all data bits 0 (R374). -/
def PWord.bad : PWord := ⟨0, true⟩

/-- A finite table keyed by numbers: (key, value) pairs with strictly rising keys, none holding the
value an unlisted key reads as.  `Machine/Tables.lean` reads and writes it. -/
abbrev Tbl (α : Type) := List (Nat × α)

end Sys2Proof
end

