-- ==== Sys2Proof/Syntax.lean ====
section
/-!
DEFINITION. The commands of the PV12 block: one constructor of `Instr` for each row of
spec/opcode_table.json, in the table's order, with the operands the row needs from outside.
What a command reads from outside the module (host memory, a sensor, a peer's message) is an operand.
-/
namespace Sys2Proof

/-- What came of a command/address parity error on an access (R77): there was none, the retry passed, or
the retry failed too. -/
inductive CaParity where
  | clean | retried | failed
deriving DecidableEq, Repr

/-- A sum that a unit's arithmetic got wrong: the lane (the element's number), and the value it formed in place of the
right one (R227, R397 to R399). -/
structure WrongSum where
  lane  : Nat
  value : Int
deriving DecidableEq, Repr

/-- What the matrix array may get wrong (R204, R227, R397): an integer column sum as it arrives, the exact sum of an
accumulator add, the aligned sum of an FP unit, an exponent, the parity of a stored CB16 code, the output scaler. -/
inductive ArrCheck where
  | sum | store | unit | exponent | parity | scaler
deriving DecidableEq, Repr

/-- A wrong value in a pass: the vector, the row of the unit (in an other-axis read, the element of the row's 32 results), the
lane (column, or row in an other-axis read), and the value that stands in place of the right one. -/
structure ArrFault where
  check : ArrCheck
  vec   : Nat
  row   : Nat
  lane  : Nat
  value : Int
deriving DecidableEq, Repr

/-- The bytes a DMA read of host memory returned, and whether every request of it succeeded (R492). -/
structure HostRd where
  bytes : List Byte
  ok    : Bool
deriving DecidableEq, Repr

/-- How a host's completion for a device read arrived (R379, R643). -/
inductive CplKind where
  | good | ep | unsupported | aborted
deriving DecidableEq, Repr

/-- One Snowplough window's readings (R617): average input power over 100 microseconds, 1 ms and 10 ms in 0.1 W,
the input voltage in 0.01 V, and each hedge's four junction sensors and twelve stack sensors (0.1 degrees C, R608) and its
rail (mV). -/
structure PowerReading where
  inputCv  : Nat
  dw1ms    : Nat
  dw10ms   : Nat
  energyJ  : Nat
  tj       : List (List Int)
  tstack   : List (List Int)
  vcoreMv  : List Nat
deriving DecidableEq, Repr

/-- One Lanea message as it arrives with its frame checks passed (R540): the four header words, the
payload, and the poison map applied to it (R546). -/
structure LaneaMsg where
  w0      : Word
  w1      : Word
  w2      : Word
  w3      : Word
  payload : List PWord
deriving DecidableEq, Repr

/-- A Hedgerow flit as it is sent: its tag and at most 16 words, each with the syndrome it is read with (R18, R372). -/
structure Flit where
  tag    : Word
  tagSyn : BitVec 8
  words  : List (Word × BitVec 8)
deriving DecidableEq, Repr

/-- The two SPDM responders (R581). -/
inductive SpdmPort where
  | doe | mctp
deriving DecidableEq, Repr

/-- Which unit translates (R346), with its number. -/
inductive XlUnit where
  | slalom (n : Fin 24) | mover (n : Fin 24) | scatter (n : CoreId)
  | update (n : HedgeId) | hostEdge | fabricEdge
deriving DecidableEq, Repr

/-- Why a BAR0 request is refused (R516, R517). -/
inductive BadAccess where
  | size | alignment | outsideIde
deriving DecidableEq, Repr

/-- What changes a function's DMA block (R521), or what the link has counted of its own errors (R518). -/
inductive DmaCause where
  | bme (on : Bool) | d3hot (on : Bool) | ideRekeyed (stream : Fin 5) | linkErrors (replays correctable : Nat)
deriving DecidableEq, Repr

/-- Which link-wide reset arrives (R528). -/
inductive LinkReset where
  | hotReset | linkDown | perst
deriving DecidableEq, Repr

/-- Link width (Table — host-link status page). -/
inductive LinkWidth where
  | down | x1 | x2 | x4 | x8
deriving DecidableEq, Repr

/-- What the link trains as (R510, R518): RATE's code, 0 while it stays down. -/
structure LinkUp where
  rate     : Fin 8
  width    : LinkWidth
  flit     : Bool
  reversed : Bool
deriving DecidableEq, Repr

/-- What is wrong with a received frame (R532, R539, R540), or what the port's FEC found in codewords (R567). -/
inductive FrameFault where
  | fcs | tooLong | icrc | malformed | fec (corrected uncorrected : Nat)
deriving DecidableEq, Repr

/-- Which core the Groomer's arbiter agrees with (R403). -/
inductive Arbiter where
  | agreesA | agreesB | neither
deriving DecidableEq, Repr

/-- How an NVMe command ends (R565). -/
inductive NvmeEnd where
  | ok (data : List PWord) | error
deriving DecidableEq, Repr

/-- One canary sample (R588): the cycles' drift and whether supply, temperature and grid allow it are
worked out from these readings. -/
structure CanaryReading where
  cycles   : Nat
  mvBefore : Nat
  mvAfter  : Nat
  tBefore  : Int
  tAfter   : Int
deriving DecidableEq, Repr

/-- The readings an hourly point needs from outside (R594): mean supply (mV) and mean junction
(0.1 degrees C) of each hedge, smallest eye of each port that was up (port, lane, height), efficiency loss and phase
imbalance. -/
structure HourReading where
  meanMv    : List Nat
  meanTj    : List Int
  eye       : List (Nat × Nat × Nat)
  effLoss   : Option Nat
  imbalance : Option Nat
deriving DecidableEq, Repr

/-- The commands. -/
inductive Instr where
  -- Power (R610 to R616)
  | pwrEnRise (inputCv lowMs : Nat)
  | powerGood
  | pwrEnFall
  | inputUnderVoltage
  | inputOverVoltage
  | junctionTrip
  | stackTrip
  | railFault
  -- Boot and bring-up
  | bootRomRun
  | recoveryImage (image : List Byte)
  | bringupRecords
  | laneRepair (failing : List (Nat × Nat))
  | retentionProbe (clean : List (Nat × Nat)) (tstack : List Int)
  | dramZero
  | bringupStructures
  | ready
  | bringupReportRead
  | fabricConfigWrite (record : List Byte)
  | firmwareDataPieceRead (piece : Nat)
  -- Time, power and temperature
  | referenceLoss
  | poweredTimeRecord
  | stepRateWindow (steps : List Nat)
  | snowploughWindow (r : PowerReading)
  | powerStageLimit
  | powerStageThermalHold (tstack tj : List (List Int))
  | junctionThermalEvent (h : HedgeId) (temp : Int)
  | stackTempSample (temps : List (List Int))
  | stackThermalEvent (stack : HedgeId) (temp : Int)
  -- Channels, adders, Hedgerow
  | refreshWindow (c : ChanId)
  | scrubLine (c : ChanId) (ca : CaParity)
  | channelRead (c : ChanId) (ca : CaParity)
  | channelWrite (c : ChanId) (ca : CaParity)
  | adderAdd (c : ChanId) (ca : CaParity) (bad : Option WrongSum)
  | adderAddFx (c : ChanId) (ca : CaParity) (bad : Option WrongSum)
  | adderFetchAdd (c : ChanId) (ca : CaParity) (bad : Option WrongSum)
  | adderSwap (c : ChanId) (ca : CaParity)
  | adderCas (c : ChanId) (ca : CaParity) (bad : Bool)
  | adderZero (c : ChanId) (ca : CaParity)
  | adderPool (c : ChanId) (ca : CaParity) (bad : Option WrongSum)
  | hedgerowPacket (flits : List Flit)
  | wardenConfigApply (h : HedgeId)
  -- Registers
  | sqTailWrite (f : FnId) (q : Fin 256) (v : Word)
  | cqHeadWrite (f : FnId) (c : Fin 128) (v : Word)
  | eqHeadWrite (f : FnId) (v : Word)
  | hqHeadWrite (f : FnId) (v : Word)
  | fqHeadWrite (f : FnId) (v : Word)
  | dbStatusRead (f : FnId)
  | mbStatusRead (f : FnId)
  | fqStatusRead (f : FnId)
  | hlErrRead
  | hlResetsRead
  | hlHwinWrite (v : Word)
  | tbLowHalfRead (f : FnId) (offset : Nat)
  | fqResolveRelease (f : FnId) (tag : BitVec 16)
  | fqResolveFail (f : FnId) (tag : BitVec 16)
  | mbRelease (f : FnId) (k : SlotId)
  | bar0BadAccess (f : FnId) (isRead : Bool) (why : BadAccess)
  | registerWriteOther (f : FnId) (offset : Nat) (eight : Bool) (v : Word)
  -- Admin commands: each acts on the request posted in slot k of function f
  | negotiate (f : FnId) (k : SlotId)
  | getCaps (f : FnId) (k : SlotId)
  | modelLoad (f : FnId) (k : SlotId) (image : HostRd)
  | modelUnload (f : FnId) (k : SlotId)
  | tableMap (f : FnId) (k : SlotId) (runs : HostRd) (tier : List (Nat × List PWord))
  | tableSwap (f : FnId) (k : SlotId)
  | tableSwapApply
  | retirement (table : Fin 4096) (vslot : SlotId)
  | routineLoad (f : FnId) (k : SlotId) (piece : HostRd)
  | routineLoadApply (piece : HostRd)
  | routineCommit (f : FnId) (k : SlotId)
  | queueCreate (f : FnId) (k : SlotId)
  | queueDestroy (f : FnId) (k : SlotId)
  | fenceCore (f : FnId) (k : SlotId)
  | unfence (f : FnId) (k : SlotId)
  | resetJobs (f : FnId) (k : SlotId)
  | verificationSweep
  | setModeDeterminism (f : FnId) (k : SlotId)
  | setModeChannelLock (f : FnId) (k : SlotId)
  | setModeScrub (f : FnId) (k : SlotId)
  | setModeCounterPolicy (f : FnId) (k : SlotId)
  | setModeFreezeMask (f : FnId) (k : SlotId)
  | setPowerCap (f : FnId) (k : SlotId)
  | setGroomPolicy (f : FnId) (k : SlotId)
  | migrate (f : FnId) (k : SlotId)
  | migratePage (source : List PWord)
  | timeSync (f : FnId) (k : SlotId)
  | telemetryRead (f : FnId) (k : SlotId)
  | attest (f : FnId) (k : SlotId)
  | fwStage (f : FnId) (k : SlotId) (piece : HostRd)
  | fwActivate (f : FnId) (k : SlotId)
  -- SPDM and IDE
  | spdmGetVersion (p : SpdmPort) (msg : List Byte)
  | spdmGetCapabilities (p : SpdmPort) (msg : List Byte)
  | spdmNegotiateAlgorithms (p : SpdmPort) (msg : List Byte)
  | spdmGetDigests (p : SpdmPort) (msg : List Byte)
  | spdmGetCertificate (p : SpdmPort) (msg : List Byte)
  | spdmChallenge (p : SpdmPort) (msg : List Byte)
  | spdmGetMeasurements (p : SpdmPort) (index : Nat) (signed : Bool) (msg : List Byte)
  | spdmKeyExchange (p : SpdmPort) (msg : List Byte)
  | spdmFinish (p : SpdmPort) (msg : List Byte)
  | spdmEndSession (p : SpdmPort) (msg : List Byte)
  | spdmHeartbeat (p : SpdmPort) (msg : List Byte)
  | spdmChunkSend (p : SpdmPort) (last : Bool) (chunk : List Byte)
  | spdmChunkGet (p : SpdmPort) (index : Nat)
  | ideKm (p : SpdmPort) (stream : Fin 5) (enable : Bool) (msg : List Byte)
  -- Submissions and jobs
  | gondolaBurst
  | gondolaBurstDone (burst : Nat) (data : List PWord) (failed : List Nat)
  | submissionParse
  | call (job idx : Nat)
  | sequencerCallStart (c : CoreId)
  | invocationComplete (c : CoreId)
  | barrier (job idx : Nat)
  | schuss (job idx : Nat)
  | copy (job idx : Nat) (ext : List PWord)
  | rowWrite (job idx : Nat) (ext : List PWord)
  | stepClose (job idx : Nat)
  | stepCloseArrivalsMet (job : Nat)
  | updateEngineSlot (h : HedgeId) (bad : Option Nat)
  | stepCloseFinish (job : Nat)
  | jobCompletion (job : Nat)
  -- Sequencer ops: each acts on the op at the core's sequencer
  | seqNop (c : CoreId)
  | seqRet (c : CoreId)
  | seqLoop (c : CoreId)
  | seqLoopr (c : CoreId)
  | seqWait (c : CoreId)
  | waitConditionMet (c : CoreId)
  | seqMovi (c : CoreId)
  | seqMovhi (c : CoreId)
  | seqMov (c : CoreId)
  | seqAdd (c : CoreId) (bad : Bool)
  | seqSub (c : CoreId) (bad : Bool)
  | seqMul (c : CoreId) (bad : Bool)
  | seqAnd (c : CoreId) (bad : Bool)
  | seqOr (c : CoreId) (bad : Bool)
  | seqXor (c : CoreId) (bad : Bool)
  | seqShl (c : CoreId) (bad : Bool)
  | seqShr (c : CoreId) (bad : Bool)
  | seqSra (c : CoreId) (bad : Bool)
  | seqMin (c : CoreId)
  | seqMax (c : CoreId)
  | seqAddi (c : CoreId) (bad : Bool)
  | seqMuli (c : CoreId) (bad : Bool)
  | seqMadi (c : CoreId) (bad : Bool)
  | seqShli (c : CoreId) (bad : Bool)
  | seqShri (c : CoreId) (bad : Bool)
  | seqAndi (c : CoreId) (bad : Bool)
  | seqStore (c : CoreId)
  | seqPatch (c : CoreId)
  | seqCopyd (c : CoreId)
  | seqZero (c : CoreId)
  | issueArray (c : CoreId)
  | issueVector (c : CoreId)
  | issueLookup (c : CoreId)
  | issueMove (c : CoreId)
  | issueScatter (c : CoreId)
  | issueCapture (c : CoreId)
  | cbFetch (c : CoreId)
  | clipRc (c : CoreId)
  -- Matrix array: acts on the head of the core's ARRAY queue
  | arrayDescriptor (c : CoreId) (bad : Option ArrFault)
  | arrayOtherAxisRead (c : CoreId) (bad : Option ArrFault)
  -- Vector engine: each acts on the head of the core's VECTOR queue; `bad` is the row and lane of a residue mismatch (R258)
  | vecAdd (c : CoreId) (bad : Option (Nat × Nat))
  | vecSub (c : CoreId) (bad : Option (Nat × Nat))
  | vecMul (c : CoreId) (bad : Option (Nat × Nat))
  | vecAxpy (c : CoreId) (bad : Option (Nat × Nat))
  | vecMax (c : CoreId)
  | vecMin (c : CoreId)
  | vecAbs (c : CoreId) (bad : Option (Nat × Nat))
  | vecNeg (c : CoreId) (bad : Option (Nat × Nat))
  | vecRelu (c : CoreId)
  | vecClamp (c : CoreId)
  | vecRecip (c : CoreId) (bad : Option (Nat × Nat))
  | vecCmpEq (c : CoreId)
  | vecCmpNe (c : CoreId)
  | vecCmpLt (c : CoreId)
  | vecCmpLe (c : CoreId)
  | vecSelect (c : CoreId)
  | vecExp (c : CoreId) (bad : Option (Nat × Nat))
  | vecLog (c : CoreId) (bad : Option (Nat × Nat))
  | vecSigmoid (c : CoreId) (bad : Option (Nat × Nat))
  | vecTanh (c : CoreId) (bad : Option (Nat × Nat))
  | vecRsqrt (c : CoreId) (bad : Option (Nat × Nat))
  | vecRsum (c : CoreId) (bad : Option (Nat × Nat))
  | vecRmax (c : CoreId)
  | vecRmin (c : CoreId)
  | vecConvert (c : CoreId) (bad : Option (Nat × Nat))
  | vecQuant (c : CoreId) (bad : Option (Nat × Nat))
  | vecCompress (c : CoreId)
  | vecExpand (c : CoreId)
  | vecTopk (c : CoreId)
  -- Lookups
  | lookupDescriptor (c : CoreId) (ext : List PWord)
  | gatherPiece (piece : Nat)
  | hedgePartial (piece : Nat) (bad : Option Nat)
  | bagFinish (bag : Nat) (bad : Option Nat)
  | runAheadRead (e : Fin 24) (bag row : Nat)
  | thicketFill (h : HedgeId) (fill : Nat)
  | tailRowFetch (bag : Nat)
  | tailRowArrival (bag pos : Nat)
  -- Moves and scatters
  | moveDescriptor (c : CoreId) (ext : List PWord)
  | moveComplete (c : CoreId)
  | scatterDescriptor (c : CoreId)
  | scatterComplete (c : CoreId)
  -- Translation
  | pageWalk (u : XlUnit) (cid : BitVec 12) (va : BitVec 52) (bad : Bool)
  | faultEntryPost
  | tileResume (tile : Nat)
  -- Counters, live regions, Groomer (the item whose outputs differ, and, for other-axis read-back, whether core a or (true)
  -- core b differs from the tile written), events, health
  | counterEpoch
  | liveRegionSave (c : CoreId)
  | liveRegionRestore (c : CoreId)
  | groomerTest (diff : Option (Fin 6)) (named : Option Bool) (bad : Option (Bool × Fin 6 × Nat))
  | groomerArbitrate (c : CoreId) (verdict : Arbiter) (bad : Option Nat)
  | groomerArbiterTimeout
  | eventPost
  | canarySample (canary : Fin 144) (r : CanaryReading)
  | hourlyPoint (r : HourReading)
  -- Fabric
  | portDown (p : Fin 32)
  | portUp (p : Fin 32)
  | laneaRead (port : Fin 32) (m : LaneaMsg)
  | laneaWrite (port : Fin 32) (m : LaneaMsg)
  | laneaAddAddress (port : Fin 32) (m : LaneaMsg)
  | laneaAddGradient (port : Fin 32) (m : LaneaMsg)
  | gatherReq (port : Fin 32) (m : LaneaMsg)
  | laneaResponse (port : Fin 32) (m : LaneaMsg)
  | laneaCredit (port : Fin 32) (m : LaneaMsg)
  | laneaAck (port : Fin 32) (m : LaneaMsg)
  | census (port : Fin 32) (m : LaneaMsg)
  | censusSend (peer : Fin 64)
  | censusAudit (peer : Fin 64) (lc : Bool)
  | laneaRetransmit (peer : Fin 64) (lc : Bool) (psn : BitVec 32)
  | peerUnreachable (peer : Fin 64)
  | ptpSyncSend
  | ptpSync (offset : Int) (trim : Int)
  | ptpHoldover
  | nvmeRead (entry : Fin 16)
  | nvmeWrite (entry : Fin 16)
  | nvmeCompletion (entry : Fin 16) (tag : Nat) (r : NvmeEnd)
  | nvmeCommandTimeout (entry : Fin 16) (tag : Nat)
  | nvmeConnectionLost (entry : Fin 16)
  | nvmeReconnect (entry : Fin 16) (up usable : Bool)
  | nvmeKeepAlive (entry : Fin 16)
  -- Host link
  | vfFlr (f : FnId)
  | pfFlr
  | hotReset (r : LinkReset) (up : LinkUp)
  | perstRelease (up : LinkUp)
  | dmaBlockChange (f : FnId) (cause : DmaCause)
  | ideIntegrityFail (stream : Fin 5)
  | atsInvalidation (f : FnId) (tag : Nat)
  | msixUnmask (f : FnId) (vector : Nat)
  | hostReadCompletion (read request offset : Nat) (kind : CplKind) (data : List Byte)
  | hostReadTimeout (read request : Nat)
  -- The table's last rows
  | pauseFrame (p : Fin 32)
  | frameCheckFailure (p : Fin 32) (why : FrameFault)
  | ptpDelayReq (slave : Nat) (rxTime : Nat)
  | reservedAdminOpcode (f : FnId) (k : SlotId)
  | ulizorSramUncorrectable (u : SlotId)
  | doeDiscovery (index : Nat)
deriving DecidableEq, Repr

end Sys2Proof
end

