-- ==== Sys2Proof/Decode.lean ====
section
/-!
DEFINITION. Words of the command table.  spec/opcode_table.json gives no row any bits, so no word spells a
command.
-/
namespace Sys2Proof

/-- The command a word spells: none, because no row of the table has bits. -/
def decodeTableWord (_nbits _w : Nat) : Option Instr := none

end Sys2Proof
end

