-- ==== Sys2Proof/Config.lean ====
section
/-!
DEFINITION. What the spec leaves open: the free values (log entry 5) and the functions whose values it
does not state (log entries 6, 8, 10, 13).  None has a body, so nothing can be proved of a value.
-/
namespace Sys2Proof

/-- A fresh value, taken by `State.freeCtr` (log entry 5). -/
opaque Config.freeValue : Nat → Nat

/-- What a counter register of the given width reads once its count has passed its range and the spec
states neither a wrap nor a saturation (log entry 6). -/
opaque Config.counterOverflow : Nat → Nat → Nat

/-- The integer value of an FP element on POOL's integer path, by format and bits (R86 allows it, R90 gives no value;
log entry 98). -/
opaque Config.fpAsInt : Nat → Nat → Int

/-- Whether the trimmed 10 ns increment is rounded up in this cycle (R45; log entry 13). -/
opaque Config.trimRoundsUp : Nat → Bool

/-- SHAKE256 with a 64-byte output (chapter 19; log entry 10). -/
opaque Config.shake256 : List Byte → List Byte

/-- SLH-DSA-SHAKE-256s verification of data under the firmware public key (R569, R574; log entry 10). -/
opaque Config.firmwareVerifies : List Byte → List Byte → Bool

/-- A signature with the identity key (R571; log entry 10). -/
opaque Config.identitySign : List Byte → List Byte

/-- PK.seed and PK.root of the identity key, 64 bytes (R582). -/
opaque Config.identityPk : List Byte

/-- The identity certificate and its chain to the maker's root, as module flash holds them (R571). -/
opaque Config.identityChain : List Byte

/-- SHA3-512, the hash of SPDM (Table — SPDM support; log entry 10). -/
opaque Config.sha3 : List Byte → List Byte

/-- The straps ADDR_SEL0 and ADDR_SEL1 (R606). -/
opaque Config.addrSel : Fin 4

/-- The boot ROM's 256 KiB (R574). -/
opaque Config.bootRom : List Byte

/-- The SPDM responder's answer to a message, given the transcript before it (R581; log entry 10). -/
opaque Config.spdmReply : List Byte → List Byte → List Byte

/-- The DOE Discovery answer for an index (R510). -/
opaque Config.doeReply : Nat → List Byte

/-- Whether a message carries a well-formed request of an SPDM or IDE_KM exchange (R581, R527). -/
opaque Config.spdmValid : List Byte → Bool

/-- A canary's calibrated cycle time in femtoseconds at grid supply i and temperature j (R589). -/
opaque Config.canaryC0 : Nat → Nat → Nat → Nat

/-- The stress hours, in millionths, of one hour at a supply in mV and a junction in 0.1 degrees C (R595). -/
opaque Config.stressMicro : Nat → Int → Nat

/-- A retention interval in ms normalised from a stack temperature to 95 degrees C (R593). -/
opaque Config.retentionMs : Nat → Int → Nat

/-- R596's fit: the indicator kind, the (stress, value) points and the end limit give the stress hours at
which the central, low and high projections reach it, or none for a fit that moves away (log entry 10). -/
opaque Config.predictFit : Nat → List (Nat × Int) → Int → Option (Nat × Nat × Nat)

/-- The Vendor ID that PCI-SIG has assigned (R511). -/
opaque Config.pciVendor : BitVec 16

/-- The checksum word at an index of the side table that nothing has written (R384, R386; log entry 39). -/
opaque Config.checksumInit : Nat → BitVec 32

/-- Which of E5M2's NaN codes a NaN converts to (R246 does not say; log entry 44). -/
opaque Config.e5m2NanIndex : Nat

/-- The local offset of the arrival word of a parity, in DRAM that firmware reserves (R323, R326 do not give it). -/
opaque Config.arrivalOffset : Nat → Nat

/-- The contents of a memory that has lost them: the byte at an address, and the syndrome a word reads with
(R40, R613; log entry 18). -/
opaque Config.lostByte : Nat → Nat → Byte
opaque Config.lostSyn : Nat → Nat → BitVec 8

/-- A byte of a line that is not on this module, by a number and its address (R436; log entry 34). -/
opaque Config.outsideByte : Nat → Nat → Byte

/-- A word of staging that an unfinished step close left undefined, by generation and place (R331; log entry 58). -/
opaque Config.looseWord : Nat → Nat → PWord

end Sys2Proof
end

