-- ==== Sys2Proof/Machine/State.lean ====
section
/-!
DEFINITION. The state of the PV12 block: everything the spec gives the machine, as plain data, with the
queue of waiting commands; its faults and refusals; and the state right after reset.
Fields keep the spec's names.  A default written on a field is its value at reset.
Counters are numbers; a register that shows one takes its low bits under `Machine/Flags.lean`.
-/
namespace Sys2Proof.Machine

/-- Why the machine stops. -/
inductive Fault where
  /-- A command whose operands no sender can form (WellFormed.lean), raised by the guard of the meanings
  that take such operands.  Safe: the spec gives no such command. -/
  | illFormed (mnemonic : String)
deriving DecidableEq, Repr

/-- Why a command has no meaning here. -/
inductive Refusal where
  /-- Raised by the dispatcher alone, for a command without a meaning.  Safe: nothing can be proved of it. -/
  | notModelled (mnemonic : String)
deriving DecidableEq, Repr

/-! ### Power (chapter 21) -/

/-- The power states of R614, with the ramp of R610. -/
inductive PwrPhase where
  | off | ramping | powered
deriving DecidableEq, Repr

/-- The power stage, its pins and the module power record (R606, R610 to R626). -/
structure Power where
  phase         : PwrPhase := .off
  pwrEn         : Bool := false
  pwrgd         : Bool := false
  thermtripLow  : Bool := false
  tripLatched   : Bool := false
  lastOff       : BitVec 8 := 0
  offRecord     : BitVec 8 := 0
  perst         : Bool := true
  capW          : Nat := 1200
  capNext       : Nat := 1200
  capMissMs     : Nat := 0
  thermalEvents : Nat := 0
  inputCv       : Nat := 0
  inputDw       : Nat := 0
  peakDw        : Nat := 0
  energyJ       : Nat := 0
  loweredAt     : Nat := 0
deriving DecidableEq, Repr

/-! ### Time base (chapter 02) -/

/-- The time-base registers (R47) and the latches of R48. -/
structure TimeBase where
  acc           : BitVec 96 := 0
  refcyc        : Word := 0
  ptpState      : BitVec 2 := 0
  wallValid     : Bool := false
  persistOk     : Bool := false
  refLoss       : Bool := false
  wallOffset    : Word := 0
  domainOffset  : Word := 0
  rateTrim      : BitVec 32 := 0
  persistedS    : Word := 0
  persistedHere : Nat := 0
  powerUps      : BitVec 32 := 0
  latch         : Tbl (BitVec 32) := []
deriving DecidableEq, Repr

/-! ### Module flash and fuses: what survives power-off -/

/-- A powered-seconds record (R53). -/
structure PoweredRec where
  poweredS : Word := 0
  powerUps : BitVec 32 := 0
  seq      : Nat := 0
  valid    : Bool := false
deriving DecidableEq, Repr

/-- One copy of the boot record (R573). -/
structure BootRec where
  seq    : Nat := 0
  active : Bool := false
  valid  : Bool := false
deriving DecidableEq, Repr

/-- A point of the ageing log (R594, R595): POWERED_S, the valid indicators, each hedge's mean supply (mV) and junction
(0.1 degrees C), the stress up to it in millionths of an hour, and how many hourly points it stands for.  A 168-hour point
holds sums, with how many values each sum has. -/
structure AgePoint where
  poweredS : Word := 0
  values   : Tbl Int := []
  counts   : Tbl Nat := []
  meanMv   : List Nat := []
  meanTj   : List Int := []
  stress   : Nat := 0
  hours    : Nat := 1
deriving DecidableEq, Repr

/-- Module flash and the fuses (R53, R78, R536, R570, R573, R594, R595), with the grade as GET_CAPS codes it,
the fuse pattern of the cores (R2 to R5) and the serial number (R510). -/
structure Flash where
  powered0  : PoweredRec := { valid := true }
  powered1  : PoweredRec := {}
  repair    : Tbl (List Nat) := []
  fabric    : List Byte := []
  fabricPending : Bool := false
  boot0     : BootRec := { valid := true }
  boot1     : BootRec := {}
  regionA   : List Byte := []
  regionB   : List Byte := []
  svn       : Nat := 0
  grade     : Nat := 1
  fused     : List Nat := []
  serial    : Word := 0
  ageing    : List AgePoint := []
  ageing168 : List AgePoint := []
  historyH  : Nat := 0
deriving DecidableEq, Repr

/-! ### Boot, firmware and attestation (chapter 19) -/

/-- What the Ulizor complex runs. -/
inductive FwStage where
  | none | recovery | running
deriving DecidableEq, Repr

/-- One entry of the measurement log (R578). -/
structure LogEntry where
  seq       : Nat
  type      : BitVec 16
  ticker    : Word
  wallValid : Bool
  powerUps  : BitVec 32
  detail    : Word
  digest    : List Byte
deriving DecidableEq, Repr

/-- How far an SPDM exchange has come (R581). -/
inductive SpdmStage where
  | none | version | capabilities | negotiated
deriving DecidableEq, Repr

/-- A secured SPDM session. -/
inductive SpdmSession where
  | none | handshake | established
deriving DecidableEq, Repr

/-- One SPDM responder: its negotiation, its session, and the messages being chunked. -/
structure Spdm where
  stage    : SpdmStage := .none
  session  : SpdmSession := .none
  chunkIn  : List Byte := []
  chunkOut : List Byte := []
  transcript : List Byte := []
deriving DecidableEq, Repr

/-- The measurement registers and log, and the running firmware (R577 to R585). -/
structure Security where
  stage    : FwStage := .none
  mr       : List (List Byte) := List.replicate 6 (List.replicate 64 0)
  log      : List LogEntry := []
  logLost  : Nat := 0
  regionB  : Bool := false
  fallback : Bool := false
  imageSvn : Nat := 0
  fwMajor  : BitVec 16 := 0
  fwMinor  : BitVec 16 := 0
  reload   : List Nat := []
  spdmDoe  : Spdm := {}
  spdmMctp : Spdm := {}
deriving DecidableEq, Repr

/-! ### Bring-up (chapter 22) -/

/-- The bring-up report's fields (R632), and the log of the lanes that changed, as (channel, lane) (R78). -/
structure BringUp where
  phase        : BitVec 8 := 0
  stopCause    : BitVec 8 := 0
  stopChannel  : BitVec 16 := 0xFFFF
  lanesChanged : Nat := 0
  laneLog      : List (Nat × Nat) := []
  phaseTicker  : Word := 0
  readyTicker  : Word := 0
  banksCleared : Bool := false
deriving DecidableEq, Repr

/-! ### Memories and channels (chapters 03, 12) -/

/-- A memory of protected words: its bytes, and for each word the syndrome it reads with (R372).  Unlisted bytes
and syndromes read 0, or, below `lostTo` in a memory whose contents were lost (R40, R60, R613), open values. -/
structure Mem where
  bytes  : List Host.Cell := []
  syn    : Tbl (BitVec 8) := []
  lost   : Option Nat := none
  lostTo : Nat := 2 ^ 52
deriving DecidableEq, Repr

/-- An entry of the interleave map (R58). -/
structure ImapEntry where
  blocks   : Nat
  base64K  : Nat
  stride32 : Nat
  grain    : Nat
deriving DecidableEq, Repr

/-- What a channel request asks for. -/
inductive ReqKind where
  | read | write | adder
deriving DecidableEq, Repr

/-- Where the response of a channel request goes. -/
inductive ReplyTo where
  | packet (src txn : Nat)
  | pool (piece seq : Nat)
  | nobody
deriving DecidableEq, Repr

/-- A request in a channel controller's queue (R64 to R67).  `hdr0` and `hdr1` are the adder packet
header (R85). -/
structure ChReq where
  kind   : ReqKind
  lc     : Bool
  raised : Bool := false
  cid    : BitVec 12
  job    : Option Nat := none
  pa     : Nat
  len    : Nat
  data   : List PWord := []
  hdr0   : Word := 0
  hdr1   : Word := 0
  reply  : ReplyTo := .nobody
deriving DecidableEq, Repr

/-- One channel controller: its queue, windows, scrubber, lanes and record (R64 to R92).  `half` says that its last window
lay between two points of its own 390-cycle grid (R71). -/
structure Chan where
  queue       : List ChReq := []
  ueCount     : Nat := 0
  ceCount     : Nat := 0
  yewCe       : Nat := 0
  laneCe      : Tbl Nat := []
  aligned     : Bool := false
  lockWanted  : Bool := false
  windowDone  : Bool := false
  refreshOn   : Bool := false
  refreshRow  : Nat := 0
  doubled     : Bool := false
  half        : Bool := false
  scrubPos    : Nat := 0
  scrubPasses : Nat := 0
  spareDq     : Nat := 0
  spareCa     : Nat := 0
  fxSat       : Nat := 0
  beHwm       : Nat := 0
  lcHwm       : Nat := 0
  retention   : Nat := 0
deriving DecidableEq, Repr

/-! ### Hedgerow (chapter 01) -/

/-- A flit on its way (R18, R21): its tag, its words as the routers forward them, and how many routers it has entered. -/
structure HFlit where
  tag   : Word
  words : List PWord
  hops  : Nat
deriving DecidableEq, Repr

/-- The flits in router buffers, oldest first, with those of unfinished packets at their nodes; the steps that the routers
have made, and for each output port the last one that it granted to a control flit (R22, R23). -/
structure Hedgerow where
  flits   : List HFlit := []
  steps   : Nat := 0
  control : Tbl Nat := []
deriving DecidableEq, Repr

/-! ### Hedges: warden, Thicket, update engine, walker, supply -/

/-- A Thicket line (Table of R150): `tag` is the table id and version slot of a table line; each word is held with the
syndrome that it reads with (R155, R373). -/
structure TLine where
  tag  : Option (Nat × Nat)
  pa   : Nat
  data : List (Word × BitVec 8)
deriving DecidableEq, Repr

/-- A run-ahead fill in flight (R150, R156). -/
structure TFill where
  id        : Nat
  table     : Nat
  vslot     : Nat
  pa        : Nat
  lines     : Nat
  data      : List PWord
  cancelled : Bool
deriving DecidableEq, Repr

/-- A configuration change a warden has still to apply (R29). -/
inductive WardenCfg where
  | map (m : List ImapEntry) | privet (t : Tbl (BitVec 16)) | lock (on : Bool) | scrub (hours : Nat)
deriving DecidableEq, Repr

/-- The update record (R334). -/
structure UpdRec where
  rowsUpdated   : Nat := 0
  frozenSkipped : Nat := 0
  poisonedRows  : Nat := 0
  nonfinite     : Nat := 0
  remoteStale   : Nat := 0
  lastCloseRows : Nat := 0
  closes        : Nat := 0
deriving DecidableEq, Repr

/-- The translation record (R369). -/
structure TransRec where
  tlbMisses     : Nat := 0
  walks         : Nat := 0
  walkCacheHits : Nat := 0
  resolvable    : Nat := 0
  coalesced     : Nat := 0
  privetRefused : Nat := 0
  specDrops     : Nat := 0
deriving DecidableEq, Repr

/-- A TLB entry (R346): its base and size in 64 KiB pages, and the leaf it caches. -/
structure TlbEntry where
  cid    : BitVec 12
  vbase  : Nat
  pages  : Nat
  oa     : Nat
  write  : Bool
  fw     : Bool
deriving DecidableEq, Repr

/-- A codebook record (R174). -/
structure Codebook where
  cb256    : Bool := false
  constant : Bool := false
  padded   : Bool := false
  scale    : BitVec 32 := 0
  entries  : List (BitVec 8) := []
deriving DecidableEq, Repr

/-- One hedge: supply and temperatures (R617, R625), warden's copies (R61, R352), Thicket slice (R150),
Slalom codebook cache (R178), walk cache (R349), records. -/
structure Hedge where
  vsetMv           : Nat := 780
  vcoreMv          : Nat := 0
  tj               : Int := 0
  tstack           : Int := 0
  limit            : BitVec 3 := 0
  capLimited       : Nat := 0
  thermalLimited   : Nat := 0
  scrubH           : Nat := 24
  beHeld           : Bool := false
  rate             : Nat := 0
  coolSince        : Nat := 0
  doubledWanted    : Bool := false
  imap             : List ImapEntry := [⟨196608, 0, 0, 1⟩]
  privet           : Tbl (BitVec 16) := []
  wardenQ          : List WardenCfg := []
  thicket          : List TLine := []
  fills            : List TFill := []
  cbCache          : List (Nat × Codebook) := []
  entryCache       : List Nat := []
  walkCache        : List (Nat × Word) := []
  up               : UpdRec := {}
  tr               : TransRec := {}
deriving DecidableEq, Repr

/-! ### Tables and codebooks (chapters 04, 05, 06, 10) -/

/-- Version slot states (R126). -/
inductive VState where
  | free | shadow | current | retiring
deriving DecidableEq, Repr

/-- A table entry (R100). -/
structure TableEntry where
  valid      : Bool := false
  format     : Nat := 0
  elems      : Nat := 8
  rowScaled  : Bool := false
  codebookId : Nat := 0
  rowCount   : Nat := 0
  baseVa     : Nat := 0
  defaultRow : Nat := 0
  tableScale : BitVec 32 := 0
deriving DecidableEq, Repr

/-- An update entry (R314). -/
structure UpdEntry where
  group    : Nat := 0
  stageFmt : Nat := 0
  exp      : Int := 0
  slotsLog : Nat := 10
  stageVa  : Nat := 0
  keysVa   : Nat := 0
  listVa   : Nat := 0
  countVa  : Nat := 0
  stateVa  : Nat := 0
  masterVa : Nat := 0
deriving DecidableEq, Repr

/-- One page of a version: virtual page (64 KiB), size in pages, physical address. -/
structure PageRange where
  vpage : Nat
  pages : Nat
  pa    : Nat
deriving DecidableEq, Repr

/-- A version slot with its record (R126, R140). -/
structure VSlot where
  state       : VState := .free
  tv          : BitVec 16 := 0
  entry       : TableEntry := {}
  upd         : Option UpdEntry := none
  writerCid   : BitVec 12 := 0
  pages       : List PageRange := []
  rowsWritten : Nat := 0
  migrating   : Nat := 0
  hotPosted   : Nat := 0
  hotDropped  : Nat := 0
  flipTicker  : Word := 0
deriving DecidableEq, Repr

/-- The lookup record of a table (R124). -/
structure LookRec where
  indices      : Nat := 0
  invalid      : Nat := 0
  pad          : Nat := 0
  mismatched   : Nat := 0
  emptyBags    : Nat := 0
  tailDef      : Nat := 0
  flashFetches : Nat := 0
  hostFetches  : Nat := 0
  poisonedBags : Nat := 0
deriving DecidableEq, Repr

/-- A TABLE_SWAP held under R134, or waiting for retirement under R136.  `left` names the slots placed in
RETIRING that have not retired. -/
structure HeldSwap where
  fn      : Nat
  slot    : Nat
  entries : List (Nat × Nat)
  wait    : Bool
  applied : Bool
  ticker  : Word
  left    : List Nat
deriving DecidableEq, Repr

/-- The counter policy (R160). -/
structure CounterPolicy where
  epochMs      : Nat := 1000
  sampleShift  : Nat := 6
  hotThreshold : Nat := 128
  hotScope     : Nat := 0
deriving DecidableEq, Repr

/-- An access counter of one page (R157), and whether it posted in this epoch (R161). -/
structure PageCtr where
  count  : Nat := 0
  posted : Bool := false
deriving DecidableEq, Repr

/-- A MIGRATE in progress (R165); `faulted` says that the device has entered FAULTED since (R169); `got` holds the page that was read from flash, `put` the page to be written to flash. -/
structure Migration where
  fn        : Nat
  slot      : Nat
  key       : Nat
  firstPage : Nat
  count     : Nat
  moved     : Nat
  space     : Nat
  offset    : Nat
  faulted   : Bool := false
  got       : Option (List PWord) := none
  put       : Option (List PWord) := none
deriving DecidableEq, Repr

/-! ### Lookups in flight (chapter 04) -/

/-- The sums a lookup summary and a completion carry (R106, R433). -/
structure LookSum where
  invalid    : Nat := 0
  pad        : Nat := 0
  mismatched : Nat := 0
  empty      : Nat := 0
  tailDef    : Nat := 0
  tailWait   : Nat := 0
  poisoned   : Nat := 0
deriving DecidableEq, Repr

/-- On whose behalf a unit acts: the job and descriptor index, its CID, class and mode. -/
structure Owner where
  job   : Nat
  idx   : Nat
  cid   : BitVec 12
  lc    : Bool
  repro : Bool
deriving DecidableEq, Repr

/-- A pooled partial: exact integers, or FP32 patterns (R90). -/
inductive Partial where
  | ints (l : List Int) | fps (l : List (BitVec 32))
deriving DecidableEq, Repr

/-- One contribution to a sum, with the key that R112 orders it by. -/
structure Contrib where
  order  : Nat × Nat × Nat
  part   : Partial
  pooled : Nat
  mismatched : Nat
  poison : Bool
deriving DecidableEq, Repr

/-- How far the fetch of a tail row has come (R117, R564): to be fetched, asked of the NVMe initiator, under way, or
here. -/
inductive TailState where
  | wanted | asked | issued | here (data : List PWord)
deriving DecidableEq, Repr

/-- A row of a bag that its owner fetches itself: its position, address space and offset. -/
structure TailRow where
  pos   : Nat
  space : Nat
  off   : Nat
  state : TailState := .wanted
deriving DecidableEq, Repr

/-- A bag at its owner engine (R107), or at the home of a GATHER_REQ (peer, transaction, class).  `indices` are those still to
be classified and `next` the position of the first of them, its progress point (R359); `near` and `far` are the rows delivered
that no piece (position, local offset) or request (module, index) carries yet, and `runs` how many of these have gone to each
stack and module; then what it waits for, its tail rows and its contributions so far. -/
structure Bag where
  id       : Nat
  home     : Option (Nat × BitVec 16 × Bool)
  lookup   : Nat
  core     : Nat
  bagNo    : Nat
  engine   : Nat
  owner    : Owner
  key      : Nat
  idx64    : Bool
  indices  : Option (List Nat)
  next     : Nat := 0
  near     : List (Nat × Nat) := []
  far      : List (Nat × Nat) := []
  runs     : Tbl Nat := []
  intPath  : Bool
  wide     : Bool
  ordered  : Bool
  dflt     : Bool
  left     : Nat := 0
  remote   : List (BitVec 16) := []
  tails    : List TailRow := []
  got      : List Contrib := []
  invalid  : Nat := 0
  pad      : Nat := 0
deriving DecidableEq, Repr

/-- A piece at a hedge combiner (R107): its owner engine (none for a bag of a GATHER_REQ) and class, whether it has been sent
(R109), and (position, local offset) pairs; once cut, the POOLs still to be sent as (sequence, channel, offsets), how many
contributions it has in all, and those received. -/
structure Piece where
  id    : Nat
  bag   : Nat
  stack : Nat
  owner : Option Nat
  lc    : Bool
  sent  : Bool
  seqNo : Nat
  rows  : List (Nat × Nat)
  cut   : Bool := false
  pools : List (Nat × Nat × List Nat) := []
  total : Nat := 0
  got   : List (Nat × Contrib) := []
deriving DecidableEq, Repr

/-- A lookup that an owner engine runs (R106): the next bag to open, that bag's offsets once read, and the bags open. -/
structure Lookup where
  id       : Nat
  core     : Nat
  engine   : Nat
  owner    : Owner
  desc     : List Word
  key      : Nat
  nextBag  : Nat := 0
  cur      : Option (Nat × Nat) := none
  bagsOpen : Nat := 0
  sum      : LookSum := {}
deriving DecidableEq, Repr

/-! ### Cores (chapters 07, 08, 09) -/

/-- A captured descriptor in an engine queue (R265, R286). -/
structure QEntry where
  desc  : List PWord
  addr  : Nat
  owner : Owner
  begun : Bool := false
  tilesDone : Nat := 0
deriving DecidableEq, Repr

/-- An open loop (R283): its level's index and count, and its body's first and last op word. -/
structure LoopLv where
  index : Nat
  count : Nat
  first : Nat
  last  : Nat
deriving DecidableEq, Repr

/-- What an invocation waits for (R279, R286). -/
inductive SeqWait where
  | running | issue (queue addr : Nat) | wait (mask n : Nat) | ret
deriving DecidableEq, Repr

/-- A CALL relayed to a sequencer (R291); `delayed` once its start has been counted in BE_HOLDS (R456). -/
structure PendCall where
  owner   : Owner
  bank    : Nat
  routine : Nat
  args    : List Word
  delayed : Bool := false
deriving DecidableEq, Repr

/-- The running invocation (R278, R290). -/
structure Invocation where
  owner : Owner
  bank  : Nat
  routine : Nat
  pc    : Nat
  args  : List Word
  sregs : Tbl Word
  loops : List LoopLv
  wait  : SeqWait
deriving DecidableEq, Repr

/-- The open accumulation chain (R210), with the job that opened it. -/
structure Chain where
  mM1   : Nat
  base  : Nat
  colsM1 : Nat
  isInt : Bool
  job   : Nat
deriving DecidableEq, Repr

/-- A loaded tile: the words of its active records, and beside each weight its residue modulo 7 and, for CB16, the parity bit
of its stored code (R200, R204, R226). -/
structure ArrTile where
  words    : List Word
  residues : List Nat
  parity   : List Bool
deriving DecidableEq, Repr

/-- The array record (R232). -/
structure ArrayRec where
  vectors     : Nat := 0
  loads       : Nat := 0
  descriptors : Nat := 0
  accSat      : Nat := 0
  residue     : Nat := 0
  lastColumn  : BitVec 8 := 0xFF
  fpNonfinite : Nat := 0
deriving DecidableEq, Repr

/-- The vector record (R262). -/
structure VectorRec where
  elements    : Nat := 0
  topkRows    : Nat := 0
  descriptors : Nat := 0
  convSat     : Nat := 0
  residue     : Nat := 0
  nanIn       : Nat := 0
  fpNonfinite : Nat := 0
deriving DecidableEq, Repr

/-- The sequencer record (R303). -/
structure SeqRec where
  ops     : Nat := 0
  calls   : Nat := 0
  aborted : Nat := 0
  stall   : Nat := 0
  rsCe    : Nat := 0
  rsUe    : Nat := 0
  spCe    : Nat := 0
  spUe    : Nat := 0
deriving DecidableEq, Repr

/-- One core (R264): scratchpad, sequencer and queues, accumulator store, codebook unit, clip slots, live region, canaries and
records.  `resident` is the job whose live region the core holds; `liveKept` lists the jobs whose regions lie in its save area,
with the place of each there in blocks of 64 KiB (R450). -/
structure Core where
  scratch    : Mem := {}
  acc        : Tbl (BitVec 32) := []
  accRes     : Tbl Nat := []
  chain      : Option Chain := none
  tile       : Option ArrTile := none
  seq        : Option Invocation := none
  callsLc    : List PendCall := []
  callsBe    : List PendCall := []
  qArray     : List QEntry := []
  qVector    : List QEntry := []
  qLookup    : List QEntry := []
  qMove      : List QEntry := []
  qScatter   : List QEntry := []
  storeSyn   : Tbl (BitVec 8) := []
  cbUnit     : List (Nat × Codebook) := []
  clipped    : Tbl Nat := []
  clipTotal  : Tbl Nat := []
  clipSat    : BitVec 8 := 0
  degenerate : Nat := 0
  nonfinite  : Nat := 0
  requantSat : Nat := 0
  mx         : ArrayRec := {}
  vx         : VectorRec := {}
  sq         : SeqRec := {}
  fenced     : Bool := false
  resident   : Option Nat := none
  liveKept   : List (Nat × Nat) := []
  samples    : Nat := 0
  hourA      : List Int := []
  hourB      : List Int := []
  groomLast  : Option Nat := none
deriving DecidableEq, Repr

/-- The routine store's common contents and the cost tables (R274, R295, R299): word n of bank b at key
32,768 b + n; a held ROUTINE_LOAD, as its function, slot, OFFSET and LENGTH. -/
structure Routines where
  words  : Tbl Word := []
  cost   : Tbl Word := []
  active : Nat := 0
  valid0 : Bool := false
  valid1 : Bool := false
  held   : Option (Nat × Nat × Nat × Nat) := none
deriving DecidableEq, Repr

/-! ### Updates (chapter 10) -/

/-- A coefficient entry (R307). -/
structure Coef where
  c        : List (BitVec 32) := []
  eps      : BitVec 32 := 0
  gclip    : BitVec 32 := 0
  gscale   : BitVec 32 := 0
  biasCorr : Bool := false
  s2Mode   : Nat := 0
  etaIndex : Bool := false
  nsegM1   : Nat := 0
deriving DecidableEq, Repr

/-- A curve segment (R308). -/
structure Seg where
  expo  : Bool := false
  start : Nat := 0
  eta0  : BitVec 32 := 0
  p     : BitVec 32 := 0
deriving DecidableEq, Repr

/-- How far a step close has come (R326). -/
inductive ClosePhase where
  | arriving | walking
deriving DecidableEq, Repr

/-- A step close in progress (R325, R326): the versions it closes, the G it uses and the groups it found frozen; for each
hedge the (version, list position) reached, and the rows, encoded values and clipped values so far; and the engines that
have finished. -/
structure Close where
  job      : Nat
  idx      : Nat
  versions : List Nat
  parity   : Nat
  peers    : Nat
  stamp    : BitVec 16
  clipCore : Nat
  clipSlot : Nat
  phase    : ClosePhase
  g        : Word
  freeze   : BitVec 16
  doneAt   : Tbl (Nat × Nat)
  engines  : List Nat
  rows     : Tbl Nat
  clips    : Tbl Nat
  totals   : Tbl Nat
deriving DecidableEq, Repr

/-- A gradient ADD from a peer that has not executed (R323, R326): its sender, transaction and CID, the version it names, the
row and the vector. -/
structure HeldGrad where
  peer : Nat
  txn  : BitVec 16
  cid  : BitVec 12
  table : Nat
  tv   : BitVec 16
  row  : Nat
  vec  : List PWord
deriving DecidableEq, Repr

/-- The update state of the module (R307, R308, R312, R323, R328, R331). -/
structure Updates where
  coef     : Tbl Coef := []
  curve    : Tbl Seg := []
  g        : Word := 0
  arrive0  : Word := 0
  arrive1  : Word := 0
  freeze   : BitVec 16 := 0
  closes   : List Close := []
  dirty    : List Nat := []
  heldGrads : List HeldGrad := []
deriving DecidableEq, Repr

/-! ### Translation and protection (chapter 11) -/

/-- A pending-fault entry (R360 to R366): keyed by the place of its leaf.  `tag` is none before it is posted and once it is
retired; `waiters` are the tiles that wait on it. -/
structure Pend where
  leaf    : Nat
  tag     : Option (BitVec 16)
  cid     : BitVec 12
  page    : Nat
  waiters : Nat
deriving DecidableEq, Repr

/-- A tile that waits on a resolvable fault (R358, R359); `core` is its core, or the number of another unit, `hedge` the hedge
in whose record it counts; `held` says that it waits for a pending-fault entry to free (R360). -/
structure WaitTile where
  id    : Nat
  hedge : Nat
  leaf  : Nat
  owner : Owner
  core  : Option Nat
  bag   : Option (Nat × Nat)
  page  : Nat
  held  : Bool
deriving DecidableEq, Repr

/-- A fault-queue entry not yet written (R363, R364); it takes its tag as it is posted. -/
structure FaultEntry where
  cid     : BitVec 12
  page    : Nat
  leaf    : Nat
deriving DecidableEq, Repr

/-- What firmware knows of contexts and page tables, which lie in local DRAM themselves (the root of each valid context; the
nodes made so far), Privet tables, TLBs and pending faults. -/
structure Xlate where
  contexts    : Tbl (Option Nat) := []
  nextNode    : Nat := 0
  fnCid       : Tbl (BitVec 12) := []
  privet      : Tbl (BitVec 16) := []
  hostPrivet  : Tbl (BitVec 16) := []
  flashPrivet : Tbl (BitVec 16) := []
  tlbs        : Tbl (List TlbEntry) := []
  pend        : List Pend := []
  faultTag    : BitVec 16 := 0
  faultHeld   : List FaultEntry := []
  stale       : Nat := 0
  heldFull    : Nat := 0
  waiting     : List WaitTile := []
  nextTile    : Nat := 0
  edgeTurn    : Nat := 0
deriving DecidableEq, Repr

/-! ### Integrity (chapter 12) -/

/-- A tensor record (R384), with the virtual base it was made for. -/
structure TensorRec where
  tensorId : BitVec 32
  version  : BitVec 16
  blocks   : Nat
  ckBase   : Nat
  slotKey  : Option Nat
deriving DecidableEq, Repr

/-- A page-map entry (R385). -/
structure PageMap where
  ck     : Bool := false
  lock   : Bool := false
  trec   : Nat := 0
  block0 : Nat := 0
  seq    : Nat := 0
deriving DecidableEq, Repr

/-- A mismatch that waits for a third core (R403): cores a and b, the item, and the Ticker since when. -/
structure GroomOpen where
  a     : Nat
  b     : Nat
  item  : Nat
  depth : Nat
  since : Nat
deriving DecidableEq, Repr

/-- The Groomer's policy and progress (R400 to R403). -/
structure Groom where
  enable    : Bool := false
  periodS   : Nat := 3600
  depth     : Nat := 16
  suite     : BitVec 6 := 0b111111
  arbitrate : Bool := true
  pass      : Nat := 0
  held      : Bool := false
  open_     : Option GroomOpen := none
deriving DecidableEq, Repr

/-- The side table (R381 to R387), the integrity record (R408) and the Groomer. -/
structure Integrity where
  trecs        : Tbl (Option TensorRec) := []
  cks          : Tbl (BitVec 32) := []
  pages        : Tbl PageMap := []
  checksumEnds : Nat := 0
  poisonEnds   : Nat := 0
  skewEnds     : Nat := 0
  jobFaults    : Nat := 0
  hedgerowCe   : Nat := 0
  thicketCe    : Nat := 0
  hedgerowUe   : Nat := 0
  thicketUe    : Nat := 0
  verifyFailed : Nat := 0
  verifySkipped : Nat := 0
  sweepBlocks  : Nat := 0
  sweepFailed  : Nat := 0
  groomTests   : Nat := 0
  groomMismatch : Nat := 0
  lastSuspect  : BitVec 8 := 0xFF
  groom        : Groom := {}
deriving DecidableEq, Repr

/-! ### Queues, submissions and jobs (chapters 13, 14) -/

/-- A submission queue (R410, R412). -/
structure SubQ where
  fn    : Nat
  qid   : Nat
  ring  : Word
  log2  : Nat
  lc    : Bool
  cq    : Nat
  head  : Nat := 0
  tail  : Nat := 0
  fetch : Nat := 0
  dying : Option Nat := none
deriving DecidableEq, Repr

/-- A completion queue (R410, R434). -/
structure CplQ where
  fn       : Nat
  cid      : Nat
  ring     : Word
  log2     : Nat
  vector   : Nat
  head     : Nat := 0
  tail     : Nat := 0
  phase    : Bool := true
  reserved : Nat := 0
deriving DecidableEq, Repr

/-- The event, hot-page or fault queue (R482). -/
structure PfQ where
  ring   : Word
  log2   : Nat
  vector : Nat
  head   : Nat := 0
  tail   : Nat := 0
deriving DecidableEq, Repr

/-- A burst fetch in flight (R414). -/
structure Burst where
  id    : Nat
  fn    : Nat
  qid   : Nat
  first : Nat
  count : Nat
deriving DecidableEq, Repr

/-- A fetched entry in the descriptor buffer (R415): 16 words, or none where its fetch failed (R522).  An entry of an admitted
SCHUSS stays, as its job's and index's, until a mover has carried its payload (R26). -/
structure DEntry where
  fn    : Nat
  qid   : Nat
  index : Nat
  words : Option (List Word)
  kept  : Option (Nat × Nat) := none
deriving DecidableEq, Repr

/-- How far a command of a job has come. -/
inductive CmdState where
  | waiting | relayed | running | done
deriving DecidableEq, Repr

/-- A command of a job (R416): its descriptor index, TYPE, words and segment; what has been done of it; and for a ROW_WRITE its
target. -/
structure JobCmd where
  idx     : Nat
  type    : Nat
  words   : List Word
  seg     : Nat
  state   : CmdState := .waiting
  tilesDone : Nat := 0
  target  : Option Nat := none
deriving DecidableEq, Repr

/-- An admitted job (R431).  `endSeq` is the order in which jobs ended (R434); `rateSum` adds up the steps and the windows
of each of its hedges (R459). -/
structure Job where
  id         : Nat
  fn         : Nat
  sq         : Nat
  cq         : Nat
  cid        : BitVec 12
  lc         : Bool
  tag        : BitVec 32
  ndesc      : Nat
  cores      : List Nat
  cmds       : List JobCmd
  tailDef    : Bool
  usesUpdate : Bool
  digest     : Bool
  digestAddr : Word
  stopAfter  : Nat
  liveK      : Nat
  binds      : List (Nat × Nat)
  holds      : List (Nat × Nat) := []
  repro      : Bool
  bank       : Nat
  soloSteps  : Nat
  boundSteps : Nat
  admitted   : Nat
  sqHead     : Nat
  sig        : BitVec 32
  rateSum    : List (Nat × Nat × Nat) := []
  hostWin   : Bool := false
  digests    : Tbl Word := []
  sums       : LookSum := {}
  preempted  : Bool := false
  status     : Option (BitVec 16) := none
  failIdx    : BitVec 16 := 0xFFFF
  silent     : Bool := false
  endSeq     : Nat := 0
deriving DecidableEq, Repr

/-- Device scheduling states (R462). -/
inductive DevState where
  | admitting | faulted | resetting | stopped
deriving DecidableEq, Repr

/-- The scheduling record (R466), the placement points (R446), the turns of parse and fetch (R415, R444), and the numbers
of jobs admitted and ended. -/
structure Sched where
  state       : DevState := .admitting
  faultTicker : Word := 0
  preemptions : Nat := 0
  liveSaves   : Nat := 0
  beHolds     : Nat := 0
  lcShared    : Nat := 0
  nextLc      : Nat := 0
  nextBe      : Nat := 0
  turnLc      : Nat := 0
  turnBe      : Nat := 0
  burstLc     : Nat := 0
  burstBe     : Nat := 0
  nextJob     : Nat := 0
  ends        : Nat := 0
deriving DecidableEq, Repr

/-- A context record (R461). -/
structure CtxRec where
  submitted : Nat := 0
  completed : Nat := 0
  failed    : Nat := 0
  lost      : Nat := 0
  preempted : Nat := 0
deriving DecidableEq, Repr

/-! ### Flahus (chapter 16) -/

/-- A mailbox slot (R478).  `order` is its place among posts (R483); `applied` the SET_MODE bits done. -/
structure Mbox where
  state     : BitVec 2 := 0
  opcode    : BitVec 8 := 0
  seq       : BitVec 16 := 0
  verMajor  : BitVec 8 := 0
  verMinor  : BitVec 8 := 0
  status    : BitVec 16 := 0
  respLen   : BitVec 12 := 0
  reqLen    : BitVec 12 := 0
  ticker    : Word := 0
  wallValid : Bool := false
  powerUps  : BitVec 32 := 0
  payload   : Tbl (BitVec 8) := []
  order     : Nat := 0
  applied   : BitVec 5 := 0
  started   : Bool := false
deriving DecidableEq, Repr

/-- An event raised (R502). -/
structure Event where
  code      : BitVec 16
  seq       : BitVec 16
  cid       : BitVec 12
  ticker    : Word
  wallValid : Bool
  powerUps  : BitVec 32
  w3        : Word
  w4        : Word
  w5        : Word
deriving DecidableEq, Repr

/-- The modes SET_MODE sets (R74, R76, R468). -/
structure Modes where
  repro   : Bool := false
  chlock  : Bool := false
  scrubH  : Nat := 24
deriving DecidableEq, Repr

/-- A RESET_JOBS in progress (R464): its slot, and the step it has reached. -/
structure ResetRun where
  fn     : Nat
  slot   : Nat
  verify : Bool
  zeroed : Bool := false
deriving DecidableEq, Repr

/-- An image as it is read: its bytes, IMAGE_LEN of the request, and whether every read succeeds; where some read fails,
the bytes are those delivered before it (R492). -/
structure Image where
  bytes : List Byte
  len   : Nat
  ok    : Bool
deriving DecidableEq, Repr

/-- What follows once all 12 wardens have reported a change (R29): a bit of SET_MODE is done; the Privet entries have been
narrowed and the command is answered; an image goes on, after its interleave map or after its Privet entries (R61, R356). -/
inductive AfterWardens where
  | mode (bit : Nat)
  | narrowed (st : BitVec 16) (resp : List Word)
  | mapped (m : Image)
  | widened (m : Image)
deriving DecidableEq, Repr

/-- A command that waits (R29, R432, R494): what it waits for.  A command that waits for wardens names the hedges still to
report and what follows; function 32 stands for a function whose reset discarded the response (R485). -/
inductive AdminWait where
  | wardens (fn slot : Nat) (left : List Nat) (after : AfterWardens)
  | fence (fn slot core : Nat) (jobs : List Nat)
  | destroy (fn slot : Nat) (sqFn sq : Nat)
deriving DecidableEq, Repr

/-! ### Host link (chapter 17) -/

/-- The headers below Lanea's (R532, R537): VLAN id and priority, Ethernet and IPv6 addresses, DSCP and hop limit, UDP port
and checksum. -/
structure NetHdr where
  vid    : Nat
  pcp    : Nat
  srcMac : List Byte
  dstMac : List Byte
  srcIp  : List Byte
  dstIp  : List Byte
  dscp   : Nat
  hops   : Nat := 64
  udp    : Nat
  check  : Nat := 0
deriving DecidableEq, Repr

/-- What the module sends out, oldest first in `State.out`. -/
inductive Output where
  /-- A DMA write: requester function, bus address, bytes, Relaxed Ordering, EP. -/
  | dma (fn : Nat) (addr : Nat) (bytes : List Byte) (relaxed ep : Bool)
  /-- A DMA read request: requester function, bus address, length. -/
  | dmaRead (fn : Nat) (addr len : Nat)
  /-- An MSI-X message: function, vector. -/
  | msix (fn vector : Nat)
  /-- The answer to a BAR0 read: function, offset, value; none is Unsupported Request. -/
  | regRead (fn offset : Nat) (value : Option Word)
  /-- An MCTP or DOE answer. -/
  | mctp (bytes : List Byte)
  | doe (bytes : List Byte)
  /-- A Lanea frame: peer, port, the headers below Lanea's, header words, payload, ICRC. -/
  | lanea (peer port : Nat) (net : NetHdr) (w0 w1 w2 w3 : Word) (payload : List PWord) (icrc : BitVec 32)
  /-- The response of a STEP_CLOSE (R332): function, G, rows updated, Ticker, time word. -/
  | stepClosed (fn : Nat) (g : Word) (rows : Nat) (ticker time : Word)
  /-- A Hedgerow response packet: its flits, each with its tag and words (R18, R19). -/
  | response (flits : List (Word × List PWord))
  /-- PTP frames on a port, in a domain: Sync (its time), Delay_Resp (slave, receive time). -/
  | ptpSync (port domain : Nat) (time : Word)
  | ptpDelayResp (port domain slave : Nat) (time : Word)
  /-- An NVMe command: FLASH entry, tag, write, LBA, LBAs, data. -/
  | nvme (entry tag : Nat) (isWrite : Bool) (lba count : Nat) (data : List PWord)
  | nvmeKeepAlive (entry : Nat)
  /-- A connection attempt: FLASH entry, and its TARGET_IP, TARGET_PORT and NQN (R562). -/
  | nvmeConnect (entry : Nat) (ip : List Byte) (port : Nat) (nqn : List Byte)
  /-- The answer to an ATS invalidation. -/
  | atsDone (fn tag : Nat)
deriving DecidableEq, Repr

/-- A read of host memory (R643): its requests as (first byte, length, ended), and the bytes delivered so far by
place: `some` good, `none` poisoned. -/
structure HostRead where
  id    : Nat
  fn    : Nat
  owner : Option Owner
  addr  : Nat
  len   : Nat
  reqs  : List (Nat × Nat × Bool)
  got   : Tbl (Option Byte)
deriving DecidableEq, Repr

/-- The host link: status page (R518), configuration space state, MSI-X (R526), blocked traffic (R521). -/
structure Link where
  rate        : BitVec 4 := 0
  width       : BitVec 4 := 0
  flit        : Bool := false
  reversed    : Bool := false
  ideEnabled  : BitVec 5 := 0
  ideInsecure : BitVec 5 := 0
  replays     : Nat := 0
  correctable : Nat := 0
  rxFailed    : Nat := 0
  badAccess   : Nat := 0
  hwin        : BitVec 48 := 0
  flrs        : Nat := 0
  linkResets  : Nat := 0
  configReady : Bool := false
  bme         : BitVec 32 := 0
  d3hot       : BitVec 32 := 0
  msixOff     : BitVec 32 := 0xFFFFFFFF
  fnMask      : BitVec 32 := 0
  vfEnable    : Bool := false
  ariHier     : Bool := false
  numVfs      : Nat := 0
  mrrs        : Nat := 512
  mps         : Fin 3 := 0
  msixTable   : Tbl (BitVec 8) := []
  vecOpen     : Tbl Bool := []
  vecPending  : Tbl Bool := []
  held        : List (Nat × Output) := []
  reads       : List HostRead := []
  nextRead    : Nat := 0
  ats         : List (Nat × Nat) := []
deriving DecidableEq, Repr

/-! ### Fabric (chapter 18) -/

/-- A frame that waits at a port (R555): the peer it goes to, its header and its payload. -/
structure TxFrame where
  peer    : Nat
  w0      : Word
  w1      : Word
  w2      : Word
  w3      : Word
  payload : List PWord
deriving DecidableEq, Repr

/-- One fabric port and its record (R533, R567): the frames that wait there, oldest first, whether one has left in this
reference cycle, and for how many cycles no link control may leave (R555). -/
structure Port where
  up             : Bool := false
  tx             : List TxFrame := []
  sent           : Bool := false
  ctlGap         : Nat := 0
  fecCorrected   : Nat := 0
  fecUncorrected : Nat := 0
  txFrames       : Nat := 0
  rxFrames       : Nat := 0
  fcsErrors      : Nat := 0
  icrcErrors     : Nat := 0
  pauseDropped   : Nat := 0
  linkDowns      : Nat := 0
  retransmits    : Nat := 0
  overruns       : Nat := 0
  dupDrops       : Nat := 0
  eyeLane        : BitVec 8 := 0
  eyeMargin      : BitVec 16 := 0
deriving DecidableEq, Repr

/-- A message sent and not acknowledged (R543): its interval is 25 microseconds doubled `tries` times. -/
structure Unacked where
  psn   : BitVec 32
  w0    : Word
  w1    : Word
  w2    : Word
  w3    : Word
  payload : List PWord
  sentAt : Nat
  tries : Nat
deriving DecidableEq, Repr

/-- One Lanea channel pair with a peer, in one class (R541 to R549): both directions.  `slots` are the receive slots
occupied, by PSN and transaction. -/
structure LChan where
  psnTx    : BitVec 32 := 0
  psnRx    : BitVec 32 := 0
  held     : Nat := 0
  returned : BitVec 32 := 0
  freed    : BitVec 32 := 0
  slots    : List (BitVec 32 × BitVec 16) := []
  unacked  : List Unacked := []
  waiting  : List Unacked := []
  early    : List (BitVec 32 × LaneaMsg) := []
  started  : Bool := false
deriving DecidableEq, Repr

/-- A credit audit still to be made (R551): the sender's LAST_PSN, HELD and RETURNED; then, from the moment every message up
to LAST_PSN is here, OCC and FREED_rx. -/
structure Audit where
  last     : BitVec 32
  held     : BitVec 32
  returned : BitVec 32
  snap     : Option (BitVec 32 × BitVec 32) := none
deriving DecidableEq, Repr

/-- A peer module (R538, R550, R551). -/
structure Peer where
  reachable   : Bool := false
  nextPort    : Nat := 0
  lastCensus  : Nat := 0
  powerUps    : Option (BitVec 32) := none
  censusSeq   : BitVec 32 := 0
  auditLc     : Option Audit := none
  auditBe     : Option Audit := none
deriving DecidableEq, Repr

/-- A request to a peer, kept until its response or acknowledgement (R544, R545), with the physical address it names. -/
structure LReq where
  txn   : BitVec 16
  peer  : Nat
  lc    : Bool
  kind  : Nat
  psn   : BitVec 32
  owner : Option Owner
  bag   : Option Nat
  core  : Option Nat
  dst   : Nat
  pa    : Option Nat
  got   : List PWord
deriving DecidableEq, Repr

/-- A command outstanding at a flash controller (R564). -/
structure NvmeCmd where
  tag     : Nat
  isWrite : Bool
  offset  : Nat
  bag     : Option (Nat × Nat)
  sentAt  : Nat
deriving DecidableEq, Repr

/-- One FLASH entry's controller (R562, R565, R566). -/
structure NvmeCtl where
  up      : Bool := false
  lost    : Bool := false
  usable  : Bool := false
  cmds    : List NvmeCmd := []
deriving DecidableEq, Repr

/-- The fabric edge. -/
structure Fabric where
  applied     : List Byte := []
  ports       : Tbl Port := []
  chans       : Tbl LChan := []
  peers       : Tbl Peer := []
  reqs        : List LReq := []
  nextTxn     : BitVec 16 := 0
  censusChecked : Nat := 0
  auditMismatch : Nat := 0
  nvmeReads   : Nat := 0
  nvmeErrors  : Nat := 0
  nvmeWrites  : Nat := 0
  nvmeTimeouts : Nat := 0
  lastOffset  : Word := 0
  ptpGood     : Nat := 0
  ptpLastSync : Nat := 0
  nvme        : Tbl NvmeCtl := []
  nextNvme    : Nat := 0
deriving DecidableEq, Repr

/-! ### Health (chapter 20) -/

/-- A component's prediction (R596, R597, R601). -/
structure Predict where
  status  : BitVec 2 := 1
  remainH : Nat := 0
  bandLoH : Nat := 0
  bandHiH : Nat := 0
  value   : Int := 0
  points  : Nat := 0
  alerts  : Nat := 0
  low     : Bool := false
deriving DecidableEq, Repr

/-- Yew: the predictions by component, the module's, and the usage means (R596, R601). -/
structure Health where
  recs        : Tbl Predict := []
  module      : Predict := {}
  limitKind   : Nat := 0
  limitIndex  : Nat := 0
  atPoweredS  : Word := 0
  afX1000     : Nat := 0
  meanMv      : Nat := 0
  meanTj      : Nat := 0
  stressH     : Nat := 0
  imbalance   : Nat := 0
deriving DecidableEq, Repr

/-! ### The whole state -/

/-- The state of the block.  `loose` lists the parts of local DRAM that R331 leaves undefined: first byte, end, generation. -/
structure State where
  pending    : List Instr := []
  freeCtr    : Nat := 0
  out        : List Output := []
  marks      : Tbl Nat := []
  pwr        : Power := {}
  time       : TimeBase := {}
  flash      : Flash := {}
  sec        : Security := {}
  bring      : BringUp := {}
  dram       : Mem := {}
  loose      : List (Nat × Nat × Nat) := []
  imap       : List ImapEntry := [⟨196608, 0, 0, 1⟩]
  mapRaw     : List Nat := [196608 * 2 ^ 96 + 2 ^ 53 + 2 ^ 52]
  chans      : Tbl Chan := []
  hedges     : Tbl Hedge := []
  cores      : Tbl Core := []
  scrubOn    : Bool := false
  hrow       : Hedgerow := {}
  arrived    : List (Nat × Word × List PWord) := []
  slots      : Tbl VSlot := []
  lookRec    : Tbl LookRec := []
  heldSwaps  : List HeldSwap := []
  counters   : Tbl PageCtr := []
  policy     : CounterPolicy := {}
  policyNext : CounterPolicy := {}
  hotPosted  : Bool := false
  migrates   : List Migration := []
  codebooks  : Tbl (Option Bool) := []
  bags       : List Bag := []
  pieces     : List Piece := []
  lookups    : List Lookup := []
  moverTurn  : Tbl Nat := []
  nextBag    : Nat := 0
  nextPiece  : Nat := 0
  routines   : Routines := {}
  upd        : Updates := {}
  xl         : Xlate := {}
  ig         : Integrity := {}
  sqs        : List SubQ := []
  cqs        : List CplQ := []
  dbIgnored  : Tbl Nat := []
  bursts     : List Burst := []
  nextBurst  : Nat := 0
  dbuf       : List DEntry := []
  jobs       : List Job := []
  sched      : Sched := {}
  ctxRec     : Tbl CtxRec := []
  resetRun   : Option ResetRun := none
  mbox       : Tbl Mbox := []
  mbOrder    : Nat := 0
  nego       : Tbl (Option (Nat × Nat)) := []
  adminWaits : List AdminWait := []
  eq         : Option PfQ := none
  hq         : Option PfQ := none
  fq         : Option PfQ := none
  evSeq      : BitVec 16 := 0
  evHeld     : List Event := []
  eqDropped  : Nat := 0
  mbIgnored  : Nat := 0
  modes      : Modes := {}
  model      : Bool := false
  fwReserve  : Nat := 0
  link       : Link := {}
  fab        : Fabric := {}
  health     : Health := {}
deriving DecidableEq, Repr

/-- The machine right after reset: off, as it leaves manufacture (log entry 3). -/
def State.reset : State := {}

end Sys2Proof.Machine
end

