-- ==== Sys2Proof/Machine/Tables.lean ====
section
/-!
DEFINITION. Reading and writing the finite tables of the state, in their canonical form: keys strictly rising, no
entry equal to what an unlisted key reads as.  `d` is always that value.
-/
namespace Sys2Proof.Machine

/-- The value at key `k`; `d` where no entry lists it. -/
def Tbl.get {α : Type} (d : α) : Tbl α → Nat → α
  | [], _ => d
  | (j, v) :: t, k => if k = j then v else Tbl.get d t k

/-- Remove key `k`. -/
def Tbl.erase {α : Type} : Tbl α → Nat → Tbl α
  | [], _ => []
  | (j, v) :: t, k => if k = j then Tbl.erase t k else (j, v) :: Tbl.erase t k

/-- Put `v` at key `k`, whatever `v` is. -/
def Tbl.put {α : Type} : Tbl α → Nat → α → Tbl α
  | [], k, v => [(k, v)]
  | (j, w) :: t, k, v =>
    if k = j then (k, v) :: t else if k < j then (k, v) :: (j, w) :: t else (j, w) :: Tbl.put t k v

/-- Write `v` at key `k`, keeping the canonical form: writing `d` removes the entry. -/
def Tbl.set {α : Type} [DecidableEq α] (d : α) (t : Tbl α) (k : Nat) (v : α) : Tbl α :=
  if v = d then Tbl.erase t k else Tbl.put t k v

/-- Change the value at key `k`. -/
def Tbl.upd {α : Type} [DecidableEq α] (d : α) (t : Tbl α) (k : Nat) (f : α → α) : Tbl α :=
  Tbl.set d t k (f (Tbl.get d t k))

/-- The keys of a list of entries rise strictly, the first lying above `lo` where there is one. -/
def Tbl.rising {α : Type} : Option Nat → Tbl α → Bool
  | _, [] => true
  | lo, (j, _) :: t =>
    (match lo with
     | none => true
     | some l => decide (l < j)) && Tbl.rising (some j) t

/-- The canonical form. -/
def Tbl.wf {α : Type} [DecidableEq α] (d : α) (t : Tbl α) : Bool :=
  Tbl.rising none t && t.all (fun e => decide (e.2 ≠ d))

/-- Replace the element at position `i` of a list. -/
def updAt {α : Type} : List α → Nat → (α → α) → List α
  | [], _, _ => []
  | x :: l, 0, f => f x :: l
  | x :: l, i + 1, f => x :: updAt l i f

/-- Change the first element that satisfies `p`. -/
def updFirst {α : Type} (p : α → Bool) (f : α → α) : List α → List α
  | [] => []
  | x :: l => if p x then f x :: l else x :: updFirst p f l

/-- Remove the first element that satisfies `p`. -/
def dropFirst {α : Type} (p : α → Bool) : List α → List α
  | [] => []
  | x :: l => if p x then l else x :: dropFirst p l

/-- Put an element before the first that it may precede. -/
def insertBy {α : Type} (le : α → α → Bool) (x : α) : List α → List α
  | [] => [x]
  | y :: l => if le x y then x :: y :: l else y :: insertBy le x l

/-- Sort a list; elements that may precede each other keep their order. -/
def sortBy {α : Type} (le : α → α → Bool) : List α → List α
  | [] => []
  | x :: l => insertBy le x (sortBy le l)

end Sys2Proof.Machine
end

