-- ==== Sys2Proof/Machine/Bits.lean ====
section
/-!
DEFINITION. Bit fields, byte order, CRC-32C (R383) and saturation.
-/
namespace Sys2Proof.Machine

/-- Bits [hi:lo] of a number. -/
def nbits (w hi lo : Nat) : Nat := (w >>> lo) % 2 ^ (hi + 1 - lo)

/-- Field [hi:lo] of a word, as a number. -/
def fld (w : Word) (hi lo : Nat) : Nat := nbits w.toNat hi lo

/-- Bit `i` of a word. -/
def bit (w : Word) (i : Nat) : Bool := w.getLsbD i

/-- A word with the low `hi + 1 - lo` bits of `v` placed at [hi:lo], to be joined with others by `|||`. -/
def at_ (hi lo v : Nat) : Word := BitVec.ofNat 64 ((v % 2 ^ (hi + 1 - lo)) <<< lo)

/-- A Bool as one bit. -/
def b2n (b : Bool) : Nat := if b then 1 else 0

/-- The `i`-th word of a list; 0 past its end. -/
def wd (l : List Word) (i : Nat) : Word := l.getD i 0

/-- A number read as two's complement of `w` bits. -/
def signed (w n : Nat) : Int := if 2 ^ (w - 1) ≤ n % 2 ^ w then (n % 2 ^ w : Int) - 2 ^ w else (n % 2 ^ w : Int)

/-- An integer as two's complement in `w` bits. -/
def wrapNat (w : Nat) (i : Int) : Nat := (i % (2 ^ w : Int)).toNat

/-- Saturation at 2^w - 1. -/
def satNat (w n : Nat) : Nat := min n (2 ^ w - 1)

/-- Little-endian bytes to a number (R172, R411). -/
def leNat : List Byte → Nat
  | [] => 0
  | b :: l => b.toNat + 256 * leNat l

/-- The low `k` bytes of a number, little-endian. -/
def leBytes : Nat → Nat → List Byte
  | 0, _ => []
  | k + 1, n => BitVec.ofNat 8 n :: leBytes k (n / 256)

/-- Most-significant-first bytes to a number. -/
def beNat (l : List Byte) : Nat := l.foldl (fun a b => a * 256 + b.toNat) 0

/-- The eight bytes of a word. -/
def wordBytes (w : Word) : List Byte := leBytes 8 w.toNat

/-- The bytes of a list of words. -/
def wordsBytes (l : List Word) : List Byte := l.flatMap wordBytes

/-- `n` bytes from position `p`; zeros past the end. -/
def slice (l : List Byte) (p n : Nat) : List Byte :=
  let x := (l.drop p).take n
  x ++ List.replicate (n - x.length) 0

/-- A list of bytes as `n` words, zeros past its end. -/
def bytesWords (l : List Byte) : Nat → List Word
  | 0 => []
  | n + 1 => BitVec.ofNat 64 (leNat (l.take 8)) :: bytesWords (l.drop 8) n

/-- A little-endian number of `n` bytes at position `p`. -/
def leAt (l : List Byte) (p n : Nat) : Nat := leNat (slice l p n)

/-- One bit of CRC-32C with the reflected polynomial of R383. -/
def crcBit (c : BitVec 32) : BitVec 32 :=
  if c.getLsbD 0 then (c >>> 1) ^^^ 0x82F63B78 else c >>> 1

/-- One byte of CRC-32C. -/
def crcByte (c : BitVec 32) (b : Byte) : BitVec 32 :=
  let x := c ^^^ b.zeroExtend 32
  crcBit (crcBit (crcBit (crcBit (crcBit (crcBit (crcBit (crcBit x)))))))

/-- CRC-32C over bytes, initial value and final exclusive OR as R383 gives. -/
def crc32c (l : List Byte) : BitVec 32 := l.foldl crcByte 0xFFFFFFFF ^^^ 0xFFFFFFFF

/-- The seed prefix of a tensor block (R383). -/
def blockSeed (tensor block version : Nat) : List Byte :=
  leBytes 4 tensor ++ leBytes 4 block ++ leBytes 2 version ++ [0, 0]

/-- The checksum of a tensor block (R383). -/
def blockCrc (tensor block version : Nat) (data : List Byte) : BitVec 32 :=
  crc32c (blockSeed tensor block version ++ data)

/-- ⌈a / b⌉. -/
def ceilDiv (a b : Nat) : Nat := (a + b - 1) / b

end Sys2Proof.Machine
end

