-- ==== Sys2Proof/Machine/Memory.lean ====
section
/-!
DEFINITION. The 72/64 code (R372 to R374) and memories of protected words.
A memory keeps, for each word, its data and the syndrome it reads with; reading corrects (R373) and writing
gives fresh check bits.
-/
namespace Sys2Proof.Machine

/-- The columns of d0 to d63 (Table — H-matrix columns). -/
def dataColumns : List (BitVec 8) :=
  [0x07, 0x0B, 0x0D, 0x0E, 0x13, 0x15, 0x16, 0x19, 0x1A, 0x1C, 0x23, 0x25, 0x26, 0x29, 0x2A, 0x2C,
   0x31, 0x32, 0x34, 0x38, 0x43, 0x45, 0x46, 0x49, 0x4A, 0x4C, 0x51, 0x52, 0x54, 0x58, 0x61, 0x62,
   0x64, 0x68, 0x70, 0x83, 0x85, 0x86, 0x89, 0x8A, 0x8C, 0x91, 0x92, 0x94, 0x98, 0xA1, 0xA2, 0xA4,
   0xA8, 0xB0, 0xC1, 0xC2, 0xC4, 0xC8, 0xD0, 0xE0, 0x1F, 0x3E, 0x7C, 0xF8, 0xF1, 0xE3, 0xC7, 0x8F]

/-- The columns of c0 to c7. -/
def checkColumns : List (BitVec 8) := [0x01, 0x02, 0x04, 0x08, 0x10, 0x20, 0x40, 0x80]

/-- The check byte of a data word (R372): the exclusive OR of the columns of its set bits. -/
def checkByte (w : Word) : BitVec 8 :=
  (dataColumns.zipIdx).foldl (fun a p => if w.getLsbD p.2 then a ^^^ p.1 else a) 0

/-- What a syndrome says (Table — syndrome outcomes). -/
inductive SynKind where
  | ok | fixData (i : Nat) | fixCheck (i : Nat) | poison | bad
deriving DecidableEq, Repr

/-- Position of a value in a list. -/
def posOf (l : List (BitVec 8)) (v : BitVec 8) : Option Nat := l.findIdx? (· == v)

/-- R373. -/
def synKind (y : BitVec 8) : SynKind :=
  if y = 0 then .ok
  else if y = 0xFE then .poison
  else
    match posOf dataColumns y with
    | some i => .fixData i
    | none =>
      match posOf checkColumns y with
      | some i => .fixCheck i
      | none => .bad

/-- A word read with its syndrome: corrected, or the canonical poison word (R373, R374). -/
def readCode (w : Word) (y : BitVec 8) : PWord :=
  match synKind y with
  | .ok => .good w
  | .fixData i => .good (w ^^^ (1#64 <<< i))
  | .fixCheck _ => .good w
  | .poison => .bad
  | .bad => .bad

/-- A syndrome that is corrected. -/
def synFixes (y : BitVec 8) : Bool :=
  match synKind y with
  | .fixData _ => true
  | .fixCheck _ => true
  | _ => false

/-- The lane of a corrected bit: data bit i on lane i, check bit i on lane 64 + i. -/
def synLane (y : BitVec 8) : Option Nat :=
  match synKind y with
  | .fixData i => some i
  | .fixCheck i => some (64 + i)
  | _ => none

/-- A word that is uncorrectable without being poison. -/
def synBad (y : BitVec 8) : Bool := synKind y == .bad

/-- The poison word with one of its bits flipped: it turns back into poison and nothing is posted
(the worked example of chapter 12; log entry 15). -/
def wasPoison (w : Word) (y : BitVec 8) : Bool :=
  (w == 0 && (posOf checkColumns (y ^^^ 0xFE)).isSome) ||
  (match posOf dataColumns (y ^^^ 0xFE) with
   | some i => w == 1#64 <<< i
   | none => false)

/-- What an unlisted byte reads as. -/
def Mem.dfltByte (m : Mem) (a : Nat) : Byte :=
  match m.lost with
  | none => 0
  | some n => if a < m.lostTo then Config.lostByte n a else 0

/-- The syndrome that an unlisted word reads with. -/
def Mem.dfltSyn (m : Mem) (i : Nat) : BitVec 8 :=
  match m.lost with
  | none => 0
  | some n => if 8 * i < m.lostTo then Config.lostSyn n i else 0

/-- Every word reads with syndrome 0. -/
def Mem.clean (m : Mem) : Bool := m.syn.isEmpty && m.lost.isNone

/-- The raw data of word `i`. -/
def Mem.raw (m : Mem) (i : Nat) : Word :=
  BitVec.ofNat 64 (leNat ((List.range 8).map (fun j => Tbl.get (m.dfltByte (8 * i + j)) m.bytes (8 * i + j))))

/-- The syndrome of word `i`. -/
def Mem.syndrome (m : Mem) (i : Nat) : BitVec 8 := Tbl.get (m.dfltSyn i) m.syn i

/-- Word `i` as a reader gets it. -/
def Mem.word (m : Mem) (i : Nat) : PWord :=
  if m.clean then .good (m.raw i) else readCode (m.raw i) (m.syndrome i)

/-- `n` words from word `i`. -/
def Mem.words (m : Mem) (i n : Nat) : List PWord := (List.range n).map (fun j => m.word (i + j))

/-- One byte as a reader gets it; 0 in a poisoned word. -/
def Mem.byte (m : Mem) (a : Nat) : Byte :=
  if m.clean then Tbl.get 0 m.bytes a
  else BitVec.ofNat 8 (((m.word (a / 8)).data.toNat >>> (8 * (a % 8))) % 256)

/-- `n` bytes from address `a`. -/
def Mem.read (m : Mem) (a n : Nat) : List Byte := (List.range n).map (fun j => m.byte (a + j))

/-- The words of a byte range that may read with a syndrome other than 0, with that syndrome. -/
def Mem.listed (m : Mem) (a n : Nat) : List (Nat × BitVec 8) :=
  if m.lost.isNone then m.syn.filter (fun e => decide (0 < n ∧ a / 8 ≤ e.1 ∧ e.1 ≤ (a + n - 1) / 8))
  else if n = 0 then []
  else (List.range ((a + n - 1) / 8 + 1 - a / 8)).map (fun i => (a / 8 + i, m.syndrome (a / 8 + i)))

/-- Whether a word of the byte range reads as poison. -/
def Mem.poisoned (m : Mem) (a n : Nat) : Bool := (m.listed a n).any (fun e => (readCode 0 e.2).poison)

/-- Write one raw byte. -/
def Mem.putByte (m : Mem) (a : Nat) (b : Byte) : Mem := { m with bytes := Tbl.set (m.dfltByte a) m.bytes a b }

/-- Write the bytes of a list from address `a`. -/
def Mem.putBytes (m : Mem) : Nat → List Byte → Mem
  | _, [] => m
  | a, b :: l => (m.putByte a b).putBytes (a + 1) l

/-- Write word `i` whole, with a valid code or as canonical poison (R374). -/
def Mem.putWord (m : Mem) (i : Nat) (p : PWord) : Mem :=
  let m := m.putBytes (8 * i) (wordBytes (if p.poison then 0 else p.data))
  { m with syn := Tbl.set (m.dfltSyn i) m.syn i (if p.poison then 0xFE else 0) }

/-- Write words from word `i`. -/
def Mem.putWords (m : Mem) : Nat → List PWord → Mem
  | _, [] => m
  | i, p :: l => (m.putWord i p).putWords (i + 1) l

/-- Settle word `i` before a part of it is written: a corrected word is written back, and a poisoned or
uncorrectable word becomes canonical poison (R271, R374). -/
def Mem.settle (m : Mem) (i : Nat) : Mem :=
  if m.syndrome i = 0 then m else m.putWord i (m.word i)

/-- Write bytes: a whole word gets a fresh code; a part is a read-modify-write, and a poisoned word stays
poison (R271, R374; log entry 16). -/
def Mem.writeBytes (m : Mem) : Nat → List Byte → Mem
  | _, [] => m
  | a, b :: l =>
    let w := a / 8
    let m := if m.clean then m else m.settle w
    let m := if m.syndrome w = 0xFE then m else m.putByte a b
    m.writeBytes (a + 1) l

/-- The bytes of a list before the first word that lies in it whole, and how many whole words follow. -/
def headBytes (a n : Nat) : Nat := min n ((8 - a % 8) % 8)
def wholeWords (a n : Nat) : Nat := (n - headBytes a n) / 8

/-- Write bytes: the words they cover whole get a fresh code, a part of a word is a read-modify-write. -/
def Mem.write (m : Mem) (a : Nat) (l : List Byte) : Mem :=
  let h := headBytes a l.length
  let n := wholeWords a l.length
  let m := m.writeBytes a (l.take h)
  let m := m.putWords ((a + h) / 8) ((bytesWords ((l.drop h).take (8 * n)) n).map .good)
  m.writeBytes (a + h + 8 * n) (l.drop (h + 8 * n))

/-- Give every word of a range a valid code of 0. -/
def Mem.zero (m : Mem) (a n : Nat) : Mem :=
  if m.lost.isNone ∨ m.lostTo ≤ a then
    { m with
      bytes := m.bytes.filter (fun e => decide (e.1 < a ∨ a + n ≤ e.1))
      syn := m.syn.filter (fun e => decide (8 * e.1 + 8 ≤ a ∨ a + n ≤ 8 * e.1)) }
  else m.putWords (a / 8) (List.replicate (n / 8) (.good 0))

/-- The words of a range, counted from its first, that a list of bytes and syndromes leaves other than a good 0: all of them
where the memory has lost its contents. -/
def Mem.occupied (m : Mem) (a n : Nat) : List Nat :=
  if m.lost.isNone then
    (((m.bytes.map (fun e : Nat × Byte => e.1 / 8) ++ m.syn.map (fun e : Nat × BitVec 8 => e.1)).filter
      (fun w => decide (a / 8 ≤ w ∧ w < a / 8 + n / 8))).map (fun w => w - a / 8)).dedup
  else List.range (n / 8)

/-- Copy a range of words as they read, poison as poison (R374). -/
def Mem.copyRange (src : Mem) (a n : Nat) (dst : Mem) (b : Nat) : Mem :=
  (src.occupied a n).foldl (fun d i => d.putWord (b / 8 + i) (src.word (a / 8 + i))) (dst.zero b n)

/-- The canonical form: addresses strictly rising, no entry equal to what an unlisted address reads as. -/
def Mem.wf (m : Mem) : Bool :=
  Tbl.rising none m.bytes && m.bytes.all (fun e => decide (e.2 ≠ m.dfltByte e.1)) &&
  (Tbl.rising none m.syn && m.syn.all (fun e => decide (e.2 ≠ m.dfltSyn e.1)))

/-- The bytes of a list of words as they arrive, poisoned words as zeros. -/
def pbytes (l : List PWord) : List Byte := l.flatMap (fun p => wordBytes (if p.poison then 0 else p.data))

/-- A list of words holds poison. -/
def anyPoison (l : List PWord) : Bool := l.any (·.poison)

/-- The data of a list of words. -/
def pdata (l : List PWord) : List Word := l.map (fun p => if p.poison then 0 else p.data)

end Sys2Proof.Machine
end

