-- ==== Sys2Proof/Machine/Flags.lean ====
section
/-!
DEFINITION. Status codes (Table — status codes), event codes, causes and units (R503), and how a counter shows
in its register.
-/
namespace Sys2Proof.Machine

abbrev Status := BitVec 16

def stOk : Status := 0x0000
def stAbsentUnit : Status := 0x0101
def stBadDescriptor : Status := 0x0102
def stReservedNonzero : Status := 0x0103
def stVersion : Status := 0x0104
def stPoisoned : Status := 0x0201
def stChecksum : Status := 0x0202
def stSkew : Status := 0x0203
def stJobFault : Status := 0x0301
def stLost : Status := 0x0302
def stFenced : Status := 0x0303
def stProtection : Status := 0x0304
def stUnmapped : Status := 0x0305
def stIndexInvalid : Status := 0x0306
def stArith : Status := 0x0307
def stPreempted : Status := 0x0401
def stTailDefaulted : Status := 0x0402

/-- The statuses that are contained failures (R405, R440): the job ends alone. -/
def contained (st : Status) : Bool :=
  st == stPoisoned || st == stChecksum || st == stSkew || st == stFenced || st == stLost

/-- A status with which a job ends without a failure (R435). -/
def endsWell (st : Status) : Bool := st == stOk || st == stPreempted || st == stTailDefaulted

/-- Event codes (Table — event codes). -/
def evJobFault : BitVec 16 := 0x0001
def evArithMismatch : BitVec 16 := 0x0002
def evCoreSuspect : BitVec 16 := 0x0003
def evUePoison : BitVec 16 := 0x0004
def evGroomMismatch : BitVec 16 := 0x0005
def evHotPages : BitVec 16 := 0x0006
def evThermal : BitVec 16 := 0x0007
def evYewAlert : BitVec 16 := 0x0008
def evCreditAudit : BitVec 16 := 0x0009
def evFabricLink : BitVec 16 := 0x000A

/-- Causes of EV_JOB_FAULT (R503). -/
def causeKnown : Nat := 0
def causeRefLoss : Nat := 1
def causeMgmtMemory : Nat := 2
def causeStaging : Nat := 3
def causeTag : Nat := 4

/-- Unit codes of EV_ARITH_MISMATCH and EV_UE_POISON (R503). -/
def unitArray : Nat := 0
def unitVector : Nat := 1
def unitScaler : Nat := 2
def unitAdder : Nat := 3
def unitSlalom : Nat := 4
def unitUpdate : Nat := 5
def unitSequencer : Nat := 6
def unitHash : Nat := 7
def unitChannel : Nat := 8
def unitScratch : Nat := 9
def unitStore : Nat := 10
def unitThicket : Nat := 11
def unitRouter : Nat := 13

/-- Kinds of periodic events, the keys of `State.marks` (log entry 12). -/
def mkStepRate : Nat := 1
def mkSnowplough : Nat := 2
def mkStageLimit : Nat := 3
def mkStageHold : Nat := 4
def mkStackTemp : Nat := 5
def mkPoweredTime : Nat := 6
def mkEpoch : Nat := 7
def mkHour : Nat := 8
def mkMilli : Nat := 9
def mkJunction (h : Nat) : Nat := 16 + h
def mkStack (h : Nat) : Nat := 32 + h
def mkPeer (m : Nat) : Nat := 64 + m
def mkCanary (c : Nat) : Nat := 128 + c
def mkRefresh (c : Nat) : Nat := 512 + c
def mkScrub (c : Nat) : Nat := 2048 + c
def mkPtp : Nat := 4096
def mkKeepAlive (e : Nat) : Nat := 4100 + e
def mkConnect (e : Nat) : Nat := 4132 + e

/-- Causes of EV_FABRIC_LINK (R568). -/
def flPortDown : Nat := 0
def flPortUp : Nat := 1
def flPeerUnreachable : Nat := 2
def flPeerReachable : Nat := 3
def flRestart : Nat := 4
def flApplied : Nat := 5
def flFlashDown : Nat := 6
def flFlashUp : Nat := 7

/-- What a register field of `w` bits shows of a count whose overflow the spec does not state
(log entry 6). -/
def reg (w n : Nat) : Nat := if n < 2 ^ w then n else Config.counterOverflow w n

/-- A count in field [hi:lo] of a record word. -/
def regAt (hi lo n : Nat) : Word := at_ hi lo (reg (hi + 1 - lo) n)

end Sys2Proof.Machine
end

