-- ==== Sys2Proof/Machine/Reserve.lean ====
section
/-!
DEFINITION. Where the structures that firmware keeps in local DRAM lie (log entry 105): local offsets of the context table,
the page-table nodes, the codebook store, the checksum side table and the save areas, all within the smallest firmware
reserve (R499), in regions that admit CID 0 only.
-/
namespace Sys2Proof.Machine

/-- 576 GiB. -/
def dramBytes : Nat := 576 * 2 ^ 30

/-- First byte of the smallest firmware reserve: 16 regions of 256 MiB. -/
def reserveAt : Nat := dramBytes - 16 * 2 ^ 28

/-- The context entry of a CID (R341). -/
def contextAt (cid : Nat) : Nat := reserveAt + 16 * cid

/-- The codebook record of an id (R173). -/
def codebookAt (id : Nat) : Nat := reserveAt + 2 ^ 20 + 288 * id

/-- Bytes of the codebook store. -/
def storeBytes : Nat := 4096 * 288

/-- The checksum word of an index of the side table (R384). -/
def checksumAt (i : Nat) : Nat := reserveAt + 2 ^ 24 + 4 * i

/-- The page-map entry of a 64 KiB page of local DRAM (R385), and the tensor record of an index (R384). -/
def pageMapAt (i : Nat) : Nat := reserveAt + 528 * 2 ^ 20 + 8 * i
def tensorRecAt (i : Nat) : Nat := reserveAt + 608 * 2 ^ 20 + 16 * i

/-- The save area of a core, 20 MiB (R450). -/
def saveAt (core : Nat) : Nat := reserveAt + 640 * 2 ^ 20 + core * (20 * 2 ^ 20)

/-- Page-table node n: in the last region, as in the worked example of chapter 11, then in the six regions below it.  What
firmware does once these are full no rule says; the model places further nodes past the end of local DRAM. -/
def nodeAt (n : Nat) : Nat :=
  if n < 458752 then dramBytes - 2 ^ 28 * (n / 65536 + 1) + 4096 * (n % 65536) else dramBytes + 4096 * (n - 458752)

end Sys2Proof.Machine
end

