-- ==== Sys2Proof/WellFormed.lean ====
section
/-!
DEFINITION. Commands whose operands a sender can form.  A command that carries one reading per hedge carries
twelve, a lane is one of the 84 working lanes of R78, a flit holds at most 16 words (R18), and a Lanea payload has at most 4,160 bytes (R540).
-/
namespace Sys2Proof

/-- Twelve readings, one per hedge or stack. -/
def twelve {α : Type} (l : List α) : Bool := l.length == 12

/-- A channel and one of its lanes: 0 to 71 data, 72 to 83 command/address (R78). -/
def laneOk (p : Nat × Nat) : Bool := decide (p.1 < 768) && decide (p.2 < 84)

/-- A Lanea payload of at most 4,160 bytes (R540). -/
def LaneaMsg.fits (m : LaneaMsg) : Bool := decide (m.payload.length ≤ 520)

/-- The command's operands can be formed. -/
def Instr.wf : Instr → Bool
  | .laneRepair failing => failing.all laneOk
  | .retentionProbe clean tstack => clean.all (fun p => decide (p.1 < 768)) && twelve tstack
  | .stepRateWindow steps => twelve steps
  | .snowploughWindow r => twelve r.tj && r.tj.all (·.length == 4) && twelve r.tstack && r.tstack.all twelve && twelve r.vcoreMv
  | .powerStageThermalHold tstack tj => twelve tstack && tstack.all twelve && twelve tj && tj.all (·.length == 4)
  | .stackTempSample temps => twelve temps && temps.all twelve
  | .hourlyPoint r => twelve r.meanMv && twelve r.meanTj
  | .msixUnmask _ vector => decide (vector < 2048)
  | .hedgerowPacket flits => flits.all (fun x => decide (x.words.length ≤ 16))
  | .laneaRead _ m => m.fits
  | .laneaWrite _ m => m.fits
  | .laneaAddAddress _ m => m.fits
  | .laneaAddGradient _ m => m.fits
  | .gatherReq _ m => m.fits
  | .laneaResponse _ m => m.fits
  | .laneaCredit _ m => m.fits
  | .laneaAck _ m => m.fits
  | .census _ m => m.fits
  | _ => true

end Sys2Proof
end

