-- ==== Sys2Proof/Machine/Ops.lean ====
section
/-!
DEFINITION. The shared operations: access to the parts of the state, time, events, DMA and interrupts, jobs and how
they end, the interleave hash, the Privet check, memory accesses with their error reports.
-/
namespace Sys2Proof.Machine

/-- The answer of every meaning. -/
abbrev Out := Host.Outcome State Fault Refusal

/-- A meaning that acts only where its operands can be formed (WellFormed.lean). -/
def guardWf (i : Instr) (mnemonic : String) (s : State) : Out :=
  if i.wf then .next s else .fault (.illFormed mnemonic)

/-! ### Parts of the state -/

def State.hedge (s : State) (h : Nat) : Hedge := Tbl.get {} s.hedges h
def State.core (s : State) (c : Nat) : Core := Tbl.get {} s.cores c
def State.chan (s : State) (c : Nat) : Chan := Tbl.get {} s.chans c
def State.slot (s : State) (k : Nat) : VSlot := Tbl.get {} s.slots k
def State.port (s : State) (p : Nat) : Port := Tbl.get {} s.fab.ports p
def State.mail (s : State) (k : Nat) : Mbox := Tbl.get {} s.mbox k

def upHedge (s : State) (h : Nat) (f : Hedge → Hedge) : State := { s with hedges := Tbl.upd {} s.hedges h f }
def upCore (s : State) (c : Nat) (f : Core → Core) : State := { s with cores := Tbl.upd {} s.cores c f }
def upChan (s : State) (c : Nat) (f : Chan → Chan) : State := { s with chans := Tbl.upd {} s.chans c f }
def upSlot (s : State) (k : Nat) (f : VSlot → VSlot) : State := { s with slots := Tbl.upd {} s.slots k f }
def upPort (s : State) (p : Nat) (f : Port → Port) : State :=
  { s with fab := { s.fab with ports := Tbl.upd {} s.fab.ports p f } }
def upMail (s : State) (k : Nat) (f : Mbox → Mbox) : State := { s with mbox := Tbl.upd {} s.mbox k f }
def upIg (s : State) (f : Integrity → Integrity) : State := { s with ig := f s.ig }
def upLook (s : State) (t : Nat) (f : LookRec → LookRec) : State :=
  { s with lookRec := Tbl.upd {} s.lookRec t f }
def upCtx (s : State) (cid : Nat) (f : CtxRec → CtxRec) : State := { s with ctxRec := Tbl.upd {} s.ctxRec cid f }

/-- The module is powered (R614). -/
def State.powered (s : State) : Bool := s.pwr.phase == .powered

/-- Firmware runs: the module is powered and the boot chain has started it (R574). -/
def State.fwRuns (s : State) : Bool := s.powered && s.sec.stage == .running

/-- Act only while powered (log entry 2). -/
def whenPowered (s : State) (f : State → State) : State := if s.powered then f s else s

/-- The module is powered and the endpoint presents its functions: firmware has started (R576, R634). -/
def State.present (s : State) : Bool := s.powered && s.link.configReady

/-- Act only while the endpoint presents its functions (log entry 2). -/
def whenPresent (s : State) (f : State → State) : State := if s.present then f s else s

/-- Act only while firmware runs (log entry 2). -/
def whenFw (s : State) (f : State → State) : State := if s.fwRuns then f s else s

/-- Apply `f` to each number below `n`. -/
def forN (n : Nat) (f : Nat → State → State) (s : State) : State := (List.range n).foldl (fun s i => f i s) s

/-- Apply `f` to each element of a list. -/
def forL {α : Type} (l : List α) (f : α → State → State) (s : State) : State := l.foldl (fun s x => f x s) s

/-- A free value and the state that has taken it (log entry 5). -/
def takeFree (s : State) : Nat × State := (Config.freeValue s.freeCtr, { s with freeCtr := s.freeCtr + 1 })

/-- The highest of the sensors of a stack or of a hedge (R71, R608). -/
def hottestDie (l : List Int) : Int := l.foldl max (l.headD 0)

/-- The module's address on the management sideband under SMBus (R606). -/
def smbusAddress : Nat := 0x30 + Config.addrSel.val

/-! ### Grades and cores (R2 to R6) -/

/-- The module is of an F grade. -/
def State.fGrade (s : State) : Bool := s.flash.grade ≤ 2

/-- Fitted cores of a grade (Table — PV12 grades). -/
def gradeCores (grade : Nat) : Nat := if grade = 1 then 72 else if grade = 4 then 60 else 66

/-- The cores that a fuse list takes away. -/
def Flash.fusedSet (f : Flash) : List Nat := (List.range 72).filter f.fused.contains

/-- A pattern that manufacture can leave: the grade's number of cores, at least four of them in each hedge (R2, R3). -/
def Flash.fuseOk (f : Flash) : Bool :=
  decide ((Flash.fusedSet f).length + gradeCores f.grade = 72) &&
  (List.range 12).all (fun h => decide ((Flash.fusedSet f).countP (fun c => c / 6 == h) ≤ 2))

/-- The cores fused off.  No module carries a pattern that R2 and R3 exclude; one reads as the first core of each of the
first hedges, as many as the grade lacks (log entry 97). -/
def Flash.fusedCores (f : Flash) : List Nat :=
  if f.grade = 1 then [] else if f.fuseOk then Flash.fusedSet f else (List.range (72 - gradeCores f.grade)).map (6 * ·)

def State.fitted (s : State) (c : Nat) : Bool := decide (c < 72) && !s.flash.fusedCores.contains c

/-- Fitted and unfenced. -/
def State.active (s : State) (c : Nat) : Bool := s.fitted c && !(s.core c).fenced

def State.fittedCores (s : State) : List Nat := (List.range 72).filter s.fitted
def State.activeCores (s : State) : List Nat := (List.range 72).filter s.active
def State.activeCount (s : State) : Nat := s.activeCores.length

/-- Fabric lanes fitted (R2). -/
def State.lanes (s : State) : Nat := if s.fGrade then 64 else 32

/-! ### Time (R45, R55) -/

def State.ticker (s : State) : Nat := (s.time.acc.toNat >>> 32) % 2 ^ 64
def State.tickerW (s : State) : Word := BitVec.ofNat 64 s.ticker

/-- The time word that carries TIME_BASIS 0b00, WALL_VALID and POWER_UPS (R55). -/
def State.timeWord (s : State) : Word := at_ 61 61 (b2n s.time.wallValid) ||| s.time.powerUps.zeroExtend 64

/-- Lifetime powered seconds (R47). -/
def State.poweredS (s : State) : Word :=
  s.time.persistedS + BitVec.ofNat 64 (s.ticker / 1000000000 - s.time.persistedHere)

/-- The trimmed 10 ns of one reference cycle, in units of 2^−32 ns (R45, R46; log entry 13). -/
def State.increment (s : State) : BitVec 96 :=
  let n : Int := 42949672960 * (1000000000 + s.time.rateTrim.toInt)
  let up := decide (n % 1000000000 ≠ 0) && Config.trimRoundsUp s.time.refcyc.toNat
  BitVec.ofInt 96 (n / 1000000000 + b2n up)

/-- One cycle of the module reference: REFCYC and the Ticker advance (R45, R47); both hold while the module is off
or the reference is lost (R40, R614). -/
def tick (s : State) : State :=
  if s.powered && !s.time.refLoss then
    { s with time := { s.time with refcyc := s.time.refcyc + 1, acc := s.time.acc + s.increment } }
  else s

/-- A periodic event of kind `k` falls due: a multiple of its period has passed since it was last served
(log entry 12). -/
def due (s : State) (k period : Nat) : Bool := decide (Tbl.get 0 s.marks k < s.ticker / period)

/-- The event of kind `k` has been served up to now. -/
def mark (s : State) (k period : Nat) : State := { s with marks := Tbl.set 0 s.marks k (s.ticker / period) }

/-! ### DMA and interrupts (R519, R521, R526) -/

/-- The function's DMA is blocked (R521); an enabled stream in Insecure state is taken to carry every
function's traffic (log entry 17). -/
def State.blocked (s : State) (f : Nat) : Bool :=
  !s.link.bme.getLsbD f || s.link.d3hot.getLsbD f || (s.link.ideEnabled &&& s.link.ideInsecure) != 0

/-- Send something out of the module. -/
def emit (s : State) (o : Output) : State := { s with out := s.out ++ [o] }

/-- Send a function's DMA or message, or hold it while the function is blocked (R521). -/
def sendAs (s : State) (f : Nat) (o : Output) : State :=
  if s.blocked f then { s with link := { s.link with held := s.link.held ++ [(f, o)] } } else emit s o

/-- Max_Payload_Size (R510). -/
def State.maxPayload (s : State) : Nat := 128 * 2 ^ s.link.mps.val

/-- The TLPs of a write, Max_Payload_Size bytes each (R510; log entry 122). -/
def tlps (m addr : Nat) (l : List Byte) : List (Nat × List Byte) :=
  (List.range (ceilDiv l.length m)).map (fun i => (addr + m * i, (l.drop (m * i)).take m))

/-- A DMA write. -/
def dmaSend (s : State) (f addr : Nat) (relaxed ep : Bool) (l : List Byte) : State :=
  forL (tlps s.maxPayload addr l) (fun x s => sendAs s f (.dma f x.1 x.2 relaxed ep)) s

/-- A DMA write of good bytes. -/
def dmaBytes (s : State) (f addr : Nat) (relaxed : Bool) (l : List Byte) : State := dmaSend s f addr relaxed false l

/-- Words in runs of good and of poisoned ones. -/
def poisonRuns : List PWord → List (Bool × List Byte)
  | [] => []
  | p :: l =>
    let b := wordBytes (if p.poison then 0 else p.data)
    match poisonRuns l with
    | [] => [(p.poison, b)]
    | r :: t => if r.1 = p.poison then (r.1, b ++ r.2) :: t else (p.poison, b) :: r :: t

/-- Send runs of words, one after another. -/
def dmaRuns (s : State) (f : Nat) (relaxed : Bool) : Nat → List (Bool × List Byte) → State
  | _, [] => s
  | a, r :: t => dmaRuns (dmaSend s f a relaxed r.1 r.2) f relaxed (a + r.2.length) t

/-- A DMA write of words: the poisoned ones go with EP set and their bytes 0 (R379). -/
def dmaWords (s : State) (f : Nat) (relaxed : Bool) (a : Nat) (l : List PWord) : State :=
  dmaRuns s f relaxed a (poisonRuns l)

/-- An MSI-X message (R526). -/
def msix (s : State) (f v : Nat) : State :=
  if s.link.msixOff.getLsbD f then s
  else if s.link.fnMask.getLsbD f || !(Tbl.get false s.link.vecOpen (2048 * f + v)) then
    { s with link := { s.link with vecPending := Tbl.set false s.link.vecPending (2048 * f + v) true } }
  else sendAs s f (.msix f v)

/-! ### Posted queues of the physical function (R482) -/

/-- Entries posted and not consumed. -/
def PfQ.used (q : PfQ) : Nat := (q.tail + 2 ^ q.log2 - q.head) % 2 ^ q.log2

/-- The queue holds 2^n − 1 entries (R482). -/
def PfQ.full (q : PfQ) : Bool := q.used == 2 ^ q.log2 - 1

def PfQ.advance (q : PfQ) : PfQ := { q with tail := (q.tail + 1) % 2 ^ q.log2 }

/-! ### Events (R502 to R507) -/

def Event.words (e : Event) : List Word :=
  [(e.code.zeroExtend 64 <<< 48) ||| (e.seq.zeroExtend 64 <<< 32) ||| (e.cid.zeroExtend 64 <<< 20), e.ticker,
   at_ 61 61 (b2n e.wallValid) ||| e.powerUps.zeroExtend 64, e.w3, e.w4, e.w5, 0, 0]

/-- An event can be posted now: a queue with room, and its function's DMA not blocked (R506, R521). -/
def canPostEvent (s : State) : Bool :=
  match s.eq with
  | none => false
  | some q => !q.full && !s.blocked 0

/-- Post the oldest event held (R502): the entry, then TAIL, then the queue's vector. -/
def postEvent (s : State) : State :=
  match s.eq, s.evHeld with
  | some q, e :: rest =>
    if canPostEvent s then
      let s := dmaBytes s 0 (q.ring.toNat + 64 * q.tail) false (wordsBytes e.words)
      let s := { s with evHeld := rest, eq := some q.advance }
      msix s 0 q.vector
    else s
  | _, _ => s

/-- Raise an event (R502, R505 to R507). -/
def raiseEvent (s : State) (code : BitVec 16) (cid : BitVec 12) (w3 w4 w5 : Word) : State :=
  let e : Event := ⟨code, s.evSeq, cid, s.tickerW, s.time.wallValid, s.time.powerUps, w3, w4, w5⟩
  let s := { s with evSeq := s.evSeq + 1 }
  match s.eq with
  | none => s
  | some _ =>
    let s := if s.evHeld.length < 256 then s else postEvent s
    if s.evHeld.length < 256 then { s with evHeld := s.evHeld ++ [e] }
    else { s with eqDropped := s.eqDropped + 1 }

/-- EV_UE_POISON (R377, R503). -/
def uePoison (s : State) (unit corehedge channel : Nat) (w4 : Word) : State :=
  raiseEvent s evUePoison 0 (at_ 63 56 unit ||| at_ 55 48 corehedge ||| at_ 47 32 channel) w4 0

/-! ### Physical addresses (R337), and what lies where -/

def paModule (pa : Nat) : Nat := nbits pa 51 46
def paSpace (pa : Nat) : Nat := nbits pa 45 44
def paOff (pa : Nat) : Nat := pa % 2 ^ 44
def mkPa (module space off : Nat) : Nat := module * 2 ^ 46 + space * 2 ^ 44 + off

/-- This module's number (R338). -/
def State.moduleNo (s : State) : Nat := leAt s.fab.applied 4 1 % 64

/-- The parts of a virtual range by the runs of pages that hold them: (physical address, bytes). -/
def VSlot.parts (v : VSlot) (va n : Nat) : List (Nat × Nat) :=
  v.pages.filterMap (fun r =>
    let lo := max va (65536 * r.vpage)
    let hi := min (va + n) (65536 * (r.vpage + r.pages))
    if lo < hi then some (r.pa + (lo - 65536 * r.vpage), hi - lo) else none)

/-! ### Staging (R314, R317, R331) -/

def UpdEntry.nslots (u : UpdEntry) : Nat := 2 ^ u.slotsLog

/-- STAGE_STRIDE for rows of `e` elements. -/
def UpdEntry.stageStride (u : UpdEntry) (e : Nat) : Nat := 32 * ceilDiv (e * (if u.stageFmt = 0 then 4 else 8)) 32

/-- The staging structures of rows of `e` elements, as virtual ranges: keys, staging rows, lists and counts. -/
def UpdEntry.structures (u : UpdEntry) (e : Nat) : List (Nat × Nat) :=
  [(u.keysVa, 8 * u.nslots), (u.stageVa, u.nslots * u.stageStride e), (u.listVa, 96 * u.nslots), (u.countVa, 96)]

/-- The parts of local DRAM, first byte and end, that hold a version's staging structures. -/
def State.stagingParts (s : State) (key : Nat) : List (Nat × Nat) :=
  let v := s.slot key
  match v.upd with
  | none => []
  | some u => ((u.structures v.entry.elems).flatMap (fun x => v.parts x.1 x.2)).filterMap (fun e =>
      if paModule e.1 = s.moduleNo ∧ paSpace e.1 = 0 then some (paOff e.1, paOff e.1 + e.2) else none)

/-- The generation of an undefined word of local DRAM; none for a word that is defined (R331). -/
def State.looseAt (s : State) (i : Nat) : Option Nat :=
  (s.loose.find? (fun e => decide (e.1 ≤ 8 * i ∧ 8 * i < e.2.1))).map (fun e => e.2.2)

/-- Word `i` of local DRAM as a reader gets it: a free value where R331 leaves it undefined (log entry 58). -/
def State.dramWord (s : State) (i : Nat) : PWord :=
  match s.looseAt i with
  | none => s.dram.word i
  | some g => Config.looseWord g i

/-- `n` words from word `i`. -/
def State.dramWords (s : State) (i n : Nat) : List PWord :=
  if s.loose = [] then s.dram.words i n else (List.range n).map (fun j => s.dramWord (i + j))

/-- `n` bytes from address `a`, 0 in a poisoned word. -/
def State.dramRead (s : State) (a n : Nat) : List Byte :=
  if s.loose = [] then s.dram.read a n
  else (List.range n).map (fun j => BitVec.ofNat 8 ((s.dramWord ((a + j) / 8)).data.toNat >>> (8 * ((a + j) % 8))))

/-- Words written whole are defined from then on. -/
def settleLoose (a n : Nat) (s : State) : State :=
  let keep := fun (e : Nat × Nat × Nat) =>
    [(e.1, min e.2.1 ((a + 7) / 8 * 8), e.2.2), (max e.1 ((a + n) / 8 * 8), e.2.1, e.2.2)]
  { s with loose := (s.loose.flatMap keep).filter (fun x => decide (x.1 < x.2.1)) }

/-! ### Jobs -/

def State.job (s : State) (id : Nat) : Option Job := s.jobs.find? (fun j => j.id == id)
def upJob (s : State) (id : Nat) (f : Job → Job) : State :=
  { s with jobs := updFirst (fun j => j.id == id) f s.jobs }

/-- A job that is admitted and has not ended. -/
def State.lives (s : State) (id : Nat) : Bool :=
  match s.job id with
  | none => false
  | some j => j.status.isNone

/-- The job owns a waiting tile, a bag, a queue entry and so on. -/
def Owner.of (o : Owner) (id : Nat) : Bool := o.job == id

/-- A step close that ends before it completes leaves its versions' staging undefined (R331). -/
def abandonCloses (s : State) (id : Nat) : State :=
  let mine := s.upd.closes.filter (fun c => c.job == id)
  let keys := mine.flatMap (·.versions)
  let parts := keys.flatMap s.stagingParts
  { s with
    loose := parts.map (fun e => (e.1, e.2, s.sched.ends)) ++ s.loose
    upd := { s.upd with closes := s.upd.closes.filter (fun c => c.job != id), dirty := s.upd.dirty ++ keys } }

/-- The engines of core `c` drop what they hold for a job (R212, R261, R293). -/
def stopCore (id : Nat) (k : Core) : Core :=
  let drop := fun (l : List QEntry) => l.filter (fun e => !e.owner.of id)
  let mine := match k.seq with
    | some v => v.owner.of id
    | none => false
  let held := (k.qArray.any (fun e => e.owner.of id)) || mine || k.chain.any (fun x => x.job == id)
  { k with
    seq := if mine then none else k.seq,
    sq := if mine then { k.sq with aborted := k.sq.aborted + 1 } else k.sq,
    callsLc := k.callsLc.filter (fun p => !p.owner.of id),
    callsBe := k.callsBe.filter (fun p => !p.owner.of id),
    qArray := drop k.qArray, qVector := drop k.qVector, qLookup := drop k.qLookup,
    qMove := drop k.qMove, qScatter := drop k.qScatter,
    chain := if k.chain.any (fun x => x.job == id) then none else k.chain,
    acc := if held then [] else k.acc,
    accRes := if held then [] else k.accRes,
    resident := if k.resident = some id then none else k.resident,
    liveKept := k.liveKept.filter (fun e => e.1 != id) }

/-- Every unit stops work for a job that has ended (R156, R212, R261, R293, R331, R367, R453). -/
def stopUnits (s : State) (id : Nat) : State :=
  let bagIds : List Nat := (s.bags.filter (fun b => b.owner.of id)).map (fun b => b.id)
  abandonCloses { s with
    cores := s.cores.map (fun e => (e.1, stopCore id e.2)),
    bags := s.bags.filter (fun b => !b.owner.of id),
    pieces := s.pieces.filter (fun p => !bagIds.contains p.bag),
    lookups := s.lookups.filter (fun l => !l.owner.of id),
    dbuf := s.dbuf.filter (fun e => e.kept.all (fun k => k.1 != id)),
    xl := { s.xl with
      waiting := s.xl.waiting.filter (fun t => !t.owner.of id)
      pend := s.xl.pend.map (fun p => { p with
        waiters := s.xl.waiting.countP (fun t => t.leaf == p.leaf && !t.held && !t.owner.of id) }) } } id

/-- A core table with no entry equal to the core of reset (the canonical form after a change of all). -/
def tidyCores (s : State) : State := { s with cores := s.cores.filter (fun e => e.2 != {}) }

/-- R460: the counts of a context after a job of it has ended. -/
def countEnd (st : Status) (c : CtxRec) : CtxRec :=
  if endsWell st then { c with completed := c.completed + 1, preempted := c.preempted + b2n (st == stPreempted) }
  else if st = stLost then { c with lost := c.lost + 1 }
  else { c with failed := c.failed + 1 }

/-- The end of a job, in the counts of its context. -/
def countJob (s : State) (id : Nat) (st : Status) : State :=
  { s with
    ctxRec := match s.job id with
      | none => s.ctxRec
      | some j => Tbl.upd {} s.ctxRec j.cid.toNat (countEnd st) }

/-- Record how a job ended: the first status stays (R406). -/
def endJob (s : State) (id : Nat) (st : Status) (idx : BitVec 16) : State :=
  if s.lives id then
    let n := s.sched.ends + 1
    let s := countJob s id st
    let s := { s with sched := { s.sched with ends := n } }
    let s := upJob s id (fun j => { j with status := some st, failIdx := idx, endSeq := n })
    let s := upIg s (fun g => { g with
      poisonEnds := g.poisonEnds + b2n (st == stPoisoned),
      checksumEnds := g.checksumEnds + b2n (st == stChecksum),
      skewEnds := g.skewEnds + b2n (st == stSkew) })
    tidyCores (stopUnits s id)
  else s

/-- End every live job with one status. -/
def endAll (s : State) (st : Status) : State :=
  forL (s.jobs.map (·.id)) (fun id s => endJob s id st 0xFFFF) s

/-- The device enters FAULTED, unless it is STOPPED; a MIGRATE in progress will stop at its page (R169). -/
def enterFaulted (s : State) : State :=
  let stop := decide (s.sched.state = .stopped)
  { s with
    sched := { s.sched with state := if stop then .stopped else .faulted, faultTicker := s.tickerW }
    migrates := s.migrates.map (fun m => { m with faulted := m.faulted || !stop }) }

/-- A job fault whose owner is known (R405 to R407), with its cause as R503 codes it: the owner's status, ST_LOST for the
others, the event and FAULTED. -/
def jobFaultWith (s : State) (o : Owner) (st : Status) (cause : Nat) (pa : Word) (channel : Nat) : State :=
  let tag : BitVec 32 := match s.job o.job with
    | some j => j.tag
    | none => 0
  let s := endJob s o.job st (BitVec.ofNat 16 o.idx)
  let s := enterFaulted (endAll s stLost)
  let s := upIg s (fun g => { g with jobFaults := g.jobFaults + 1 })
  raiseEvent s evJobFault o.cid ((st.zeroExtend 64 <<< 48) ||| at_ 47 32 cause ||| tag.zeroExtend 64) pa (at_ 15 0 channel)

def jobFault (s : State) (o : Owner) (st : Status) (pa : Word) (channel : Nat) : State :=
  jobFaultWith s o st causeKnown pa channel

/-- A job fault whose owner is not known (R25, R40, R380, R405): every job ends with ST_JOB_FAULT. -/
def jobFaultAll (s : State) (cause : Nat) : State :=
  let s := enterFaulted (endAll s stJobFault)
  let s := upIg s (fun g => { g with jobFaults := g.jobFaults + 1 })
  raiseEvent s evJobFault 0 ((stJobFault.zeroExtend 64 <<< 48) ||| at_ 47 32 cause) 0 0xFFFF

/-- End a job as its failure says: contained, or a job fault (R405). -/
def failJob (s : State) (o : Owner) (st : Status) : State :=
  if contained st then endJob s o.job st (BitVec.ofNat 16 o.idx) else jobFault s o st 0 0xFFFF

/-- EV_CORE_SUSPECT (R399, R404): `source` 0 is residue, 1 the Groomer; a core that is named shows in LAST_SUSPECT. -/
def nameSuspect (s : State) (cid : BitVec 12) (unit corehedge source : Nat) : State :=
  let s := if unit ≤ 2 ∨ unit = unitSequencer then upIg s (fun g => { g with lastSuspect := BitVec.ofNat 8 corehedge }) else s
  raiseEvent s evCoreSuspect cid (at_ 63 56 unit ||| at_ 55 48 corehedge ||| at_ 47 40 source) 0 0

/-- A residue mismatch, or a duplicated operation that differs (R228, R397, R399): ST_ARITH and the events. -/
def arithFault (s : State) (o : Owner) (unit corehedge lane : Nat) (addr : Word) : State :=
  let s := jobFault s o stArith 0 0xFFFF
  let s := raiseEvent s evArithMismatch o.cid (at_ 63 56 unit ||| at_ 55 48 corehedge ||| at_ 47 40 lane) addr 0
  nameSuspect s o.cid unit corehedge 0

/-! ### Digests (R436) -/

/-- H(tag, data). -/
def digestH (tag : Word) (data : List Byte) : Word :=
  let t := wordBytes tag
  ((crc32c (t ++ data)).zeroExtend 64 <<< 32) ||| (crc32c (data ++ t)).zeroExtend 64

/-- Add one write to the digest of the command that makes it. -/
def digestAdd (s : State) (o : Owner) (tag : Word) (data : List Byte) : State :=
  match s.job o.job with
  | none => s
  | some j =>
    if j.digest then
      upJob s o.job (fun j => { j with digests := Tbl.upd 0 j.digests o.idx (fun d => d + digestH tag data) })
    else s

/-- The job keeps digests. -/
def State.digests (s : State) (o : Owner) : Bool :=
  match s.job o.job with
  | none => false
  | some j => j.digest

/-- The aligned 64-byte lines that a byte range touches. -/
def linesOf (a n : Nat) : List Nat :=
  if n = 0 then [] else (List.range ((a + n - 1) / 64 + 1 - a / 64)).map (fun i => 64 * (a / 64 + i))

/-- The slot of a job that a core serves. -/
def slotOf (s : State) (o : Owner) (c : Nat) : Nat :=
  match s.job o.job with
  | none => 0
  | some j => (j.cores.findIdx? (· == c)).getD 0

/-! ### The interleave (R58 to R63) -/

def ImapEntry.unit (e : ImapEntry) : Nat :=
  match e.grain with
  | 0 => 64
  | 1 => 256
  | 2 => 1024
  | 3 => 4096
  | _ => 32 * e.stride32

def ImapEntry.base (e : ImapEntry) : Nat := e.base64K * 65536
def ImapEntry.len (e : ImapEntry) : Nat := e.blocks * 12288 * e.unit

/-- The region that contains a local offset. -/
def regionOf (m : List ImapEntry) (off : Nat) : Option ImapEntry :=
  m.find? (fun e => decide (e.base ≤ off ∧ off < e.base + e.len))

def rotl32 (x k : Nat) : Nat := ((x <<< k) ||| (x >>> (32 - k))) % 2 ^ 32

/-- Where a unit lies: its stack, channel in stack, bank select and column byte (R62). -/
structure Loc where
  stack : Nat
  chan  : Nat
  bgs   : Nat
  p     : Nat
deriving DecidableEq, Repr

/-- The hash of R62. -/
def locate (e : ImapEntry) (off : Nat) : Loc :=
  let rel := off - e.base
  let u := e.unit
  let unit := rel / u
  let r := unit % 12
  let v := unit / 12
  let w := nbits v 41 10
  let g := w ^^^ rotl32 w 11 ^^^ rotl32 w 17 ^^^ rotl32 w 25
  let h := g ^^^ (v % 1024)
  let rot := (nbits h 31 16 * 12) >>> 16
  ⟨(r + rot) % 12, nbits h 5 0, nbits h 9 6, e.base / 12288 + w * u + rel % u⟩

/-- The DRAM location inside the channel (R57, R62). -/
def Loc.bankGroup (l : Loc) : Nat := nbits l.bgs 1 0
def Loc.bank (l : Loc) : Nat := nbits l.bgs 3 2
def Loc.sid (l : Loc) : Nat := l.p / 2 ^ 24
def Loc.dramRow (l : Loc) : Nat := l.p % 2 ^ 24 / 1024
def Loc.column (l : Loc) : Nat := l.p % 1024

/-- The channel of a local offset; channel 0 where no region contains it. -/
def channelOf (m : List ImapEntry) (off : Nat) : Nat :=
  match regionOf m off with
  | none => 0
  | some e => let l := locate e off; 64 * l.stack + l.chan

def State.channel (s : State) (off : Nat) : Nat := channelOf s.imap off
def State.stack (s : State) (off : Nat) : Nat := s.channel off / 64

/-- The unit size of the region of an offset. -/
def State.unitAt (s : State) (off : Nat) : Nat :=
  match regionOf s.imap off with
  | none => 64
  | some e => e.unit

/-- The pieces of a local extent, one for each unit it meets: (first byte, bytes) (R63). -/
def unitPieces (s : State) : Nat → Nat → Nat → List (Nat × Nat)
  | 0, _, _ => []
  | fuel + 1, off, n =>
    if n = 0 then []
    else
      let u := s.unitAt off
      let base := match regionOf s.imap off with
        | none => 0
        | some e => e.base
      let m := min n (u - (off - base) % u)
      (off, m) :: unitPieces s fuel (off + m) (n - m)

/-- The pieces of an extent; a unit is at least 32 bytes long. -/
def State.extentUnits (s : State) (off n : Nat) : List (Nat × Nat) := unitPieces s (n / 32 + 2) off n

/-- The extent lies within one unit (R63, R67). -/
def State.oneUnit (s : State) (off n : Nat) : Bool := decide ((s.extentUnits off n).length ≤ 1)

/-! ### The Privet check (R352 to R354) -/

/-- R353. -/
def privetAllows (e : BitVec 16) (cid : BitVec 12) (write : Bool) : Bool :=
  cid == 0 || (if write then e.getLsbD 14 else e.getLsbD 15) || e.extractLsb' 0 12 == cid

/-- The entry that guards an offset of a space: the copy of the hedge whose channel holds it, or an edge's. -/
def State.privetEntry (s : State) (space off : Nat) : BitVec 16 :=
  match space with
  | 0 => Tbl.get 0 (s.hedge (s.stack off)).privet (off / 2 ^ 28)
  | 1 => Tbl.get 0 s.xl.hostPrivet (off / 2 ^ 28)
  | 2 => Tbl.get 0 s.xl.flashPrivet (off / 2 ^ 28)
  | _ => 0

def State.privetOk (s : State) (cid : BitVec 12) (space off : Nat) (write : Bool) : Bool :=
  privetAllows (s.privetEntry space off) cid write

/-- A request refused under R353 or R354: counted, and its job ends with ST_PROTECTION. -/
def privetFail (s : State) (o : Owner) (pa : Nat) : State :=
  let h := if paSpace pa = 0 then s.stack (paOff pa) else 0
  let ch := if paSpace pa = 0 then s.channel (paOff pa) else 0xFFFF
  let s := upHedge s h (fun x => { x with tr := { x.tr with privetRefused := x.tr.privetRefused + 1 } })
  jobFault s o stProtection (BitVec.ofNat 64 pa) ch

/-- The domain mask; bit 0 alone for a module outside any domain (R474). -/
def State.domainMask (s : State) : Nat := if s.fab.applied = [] then 1 else leAt s.fab.applied 6 8

/-! ### Local DRAM -/

/-- What the channel controllers count and report as a range is read (R75, R92, R377, R592). -/
def dramTouch (s : State) (a n : Nat) : State :=
  forL (s.dram.listed a n) (fun e s =>
    let ch := s.channel (8 * e.1)
    if synFixes e.2 then
      upChan s ch (fun c => { c with
        ceCount := c.ceCount + 1
        yewCe := c.yewCe + 1
        laneCe := match synLane e.2 with
          | some l => Tbl.upd 0 c.laneCe l (· + 1)
          | none => c.laneCe })
    else if synBad e.2 then
      let s := upChan s ch (fun c => { c with ueCount := c.ueCount + 1 })
      if wasPoison (s.dram.raw e.1) e.2 then s
      else uePoison s unitChannel (ch / 64) ch (BitVec.ofNat 64 (mkPa s.moduleNo 0 (8 * e.1)))
    else s) s

/-- A write passes the home slice: lines go, pending fills are cancelled (R150). -/
def thicketInvalidate (s : State) (a n : Nat) : State :=
  let hit := fun (pa len : Nat) => decide (pa < a + n ∧ a < pa + len)
  let one := fun (h : Hedge) => { h with
    thicket := h.thicket.filter (fun l => !hit l.pa 64)
    fills := h.fills.map (fun f => if hit f.pa (64 * f.lines) then { f with cancelled := true } else f) }
  let all := s.hedges.map (fun e => (e.1, one e.2))
  { s with hedges := all.filter (fun e => e.2 != {}) }

/-- Write words of local DRAM.  The spec does not say what an address that is not a multiple of 8 does to an operation on whole
words: it is rounded down to one (log entry 101). -/
def dramPut (s : State) (a : Nat) (l : List PWord) : State :=
  thicketInvalidate (settleLoose a (8 * l.length) { s with dram := s.dram.putWords (a / 8) l }) a (8 * l.length)

/-- Write bytes of local DRAM. -/
def dramWrite (s : State) (a : Nat) (l : List Byte) : State :=
  thicketInvalidate (settleLoose a l.length { s with dram := s.dram.write a l }) a l.length

/-- Firmware or a mover copies words into local DRAM. -/
def dramCopy (s : State) (src : Mem) (a n b : Nat) : State :=
  thicketInvalidate (settleLoose b n { s with dram := src.copyRange a n s.dram b }) b n

/-! ### Checksums of local pages (R383 to R388) -/

/-- The page-map entry of a local offset. -/
def State.pageMap (s : State) (off : Nat) : PageMap := Tbl.get {} s.ig.pages (off / 65536)

/-- The bytes of the 4 KiB block at a local offset. -/
def State.blockBytes (s : State) (off : Nat) : List Byte := s.dramRead (off / 4096 * 4096) 4096

/-- The block of a tensor record at place i of a page: none before its first block or past its last (log entry 40). -/
def PageMap.block (p : PageMap) (t : TensorRec) (i : Nat) : Option Nat :=
  let b := (p.block0 + i) % 2 ^ 32
  if b < t.blocks then some b else none

/-- The tensor record of a page. -/
def State.pageRec (s : State) (p : PageMap) : Option TensorRec := if p.ck then Tbl.get none s.ig.trecs p.trec else none

/-- A tensor record, and the block index of a local offset in it. -/
def State.blockOf (s : State) (off : Nat) : Option (TensorRec × Nat) :=
  let p := s.pageMap off
  match s.pageRec p with
  | none => none
  | some t => (p.block t (off % 65536 / 4096)).map (fun b => (t, b))

/-- The checksum word at an index of the side table (R384). -/
def State.ck (s : State) (i : Nat) : BitVec 32 := Tbl.get (Config.checksumInit i) s.ig.cks i
def putCk (s : State) (i : Nat) (v : BitVec 32) : State := upIg s (fun g => { g with cks := Tbl.put g.cks i v })

/-- The checksum of a block as it stands. -/
def blockSum (t : TensorRec) (b : Nat) (data : List Byte) : BitVec 32 :=
  blockCrc t.tensorId.toNat (b % 2 ^ 32) t.version.toNat data

/-- Steps 3 and 4 of R387 for one block of a checksummed page. -/
def resum (s : State) (off : Nat) : State :=
  match s.blockOf off with
  | none => s
  | some (t, b) => putCk s (t.ckBase + b) (blockSum t b (s.blockBytes off))

/-- The units that follow R387 write through this: data, then the checksum of each changed block, then SEQ. -/
def afterWrite (s : State) (a n : Nat) : State :=
  if n = 0 then s
  else
    let s := forN ((a + n - 1) / 4096 + 1 - a / 4096) (fun i s => resum s (4096 * (a / 4096 + i))) s
    forN ((a + n - 1) / 65536 + 1 - a / 65536) (fun i s =>
      let k := a / 65536 + i
      if (Tbl.get {} s.ig.pages k).ck then
        upIg s (fun g => { g with pages := Tbl.upd {} g.pages k (fun p => { p with seq := (p.seq + 1) % 2 ^ 14 }) })
      else s) s

/-- The outcome of verifying a whole block (R391): not kept, held by a writer, good, or failing. -/
inductive Verify where
  | none | skipped | good | bad
deriving DecidableEq, Repr

def verifyBlock (s : State) (off : Nat) : Verify :=
  match s.blockOf off with
  | Option.none => .none
  | some (t, b) =>
    if (s.pageMap off).lock then .skipped
    else if s.dram.poisoned (off / 4096 * 4096) 4096 then .good
    else if s.ck (t.ckBase + b) = blockSum t b (s.blockBytes off) then .good
    else .bad

/-! ### Scratchpads (R269 to R273) -/

/-- 20 MiB. -/
def scratchBytes : Nat := 20 * 2 ^ 20

/-- A read of the range corrects and writes back, or turns a word into poison once (R271). -/
def spTouch (s : State) (c a n : Nat) : State :=
  forL ((s.core c).scratch.listed a n) (fun e s =>
    if synFixes e.2 then
      upCore s c (fun k => { k with scratch := k.scratch.settle e.1, sq := { k.sq with spCe := k.sq.spCe + 1 } })
    else if synBad e.2 then
      let s := upCore s c (fun k =>
        { k with scratch := k.scratch.settle e.1, sq := { k.sq with spUe := k.sq.spUe + 1 } })
      uePoison s unitScratch c 0xFFFF (at_ 24 0 (8 * e.1))
    else s) s

/-- Bytes of a core's scratchpad. -/
def State.sp (s : State) (c a n : Nat) : List Byte := (s.core c).scratch.read a n

/-- Words of a core's scratchpad. -/
def State.spW (s : State) (c a n : Nat) : List PWord := (s.core c).scratch.words (a / 8) n

def State.spPoison (s : State) (c a n : Nat) : Bool := (s.core c).scratch.poisoned a n

/-- The digest of a scratchpad write: every line it touches, as it stands after the write (R436). -/
def spDigest (s : State) (c : Nat) (o : Owner) (a n : Nat) : State :=
  if s.digests o then
    forL (linesOf a n) (fun l s => digestAdd s o (at_ 61 55 (slotOf s o c) ||| at_ 24 0 l) (s.sp c l 64)) s
  else s

/-- Write bytes into a scratchpad for a job; a word written in part is read first (R271). -/
def spWrite (s : State) (c : Nat) (o : Owner) (a : Nat) (l : List Byte) : State :=
  let h := headBytes a l.length
  let n := h + 8 * wholeWords a l.length
  let s := spTouch (spTouch s c a h) c (a + n) (l.length - n)
  spDigest (upCore s c (fun k => { k with scratch := k.scratch.write a l })) c o a l.length

/-- Write words into a scratchpad for a job. -/
def spPut (s : State) (c : Nat) (o : Owner) (a : Nat) (l : List PWord) : State :=
  spDigest (upCore s c (fun k => { k with scratch := k.scratch.putWords (a / 8) l })) c o a (8 * l.length)

/-- Zero a scratchpad (R273). -/
def spZero (s : State) (c : Nat) : State := upCore s c (fun k => { k with scratch := {} })

/-- The start of a core's next BE CALL is delayed (R456): it counts once. -/
def delayStart (s : State) (c : Nat) : State :=
  match (s.core c).callsBe with
  | [] => s
  | p :: rest =>
    if p.delayed then s
    else
      { upCore s c (fun k => { k with callsBe := { p with delayed := true } :: rest }) with
        sched := { s.sched with beHolds := s.sched.beHolds + 1 } }

/-! ### Access counters and hot pages (R157 to R162) -/

/-- The key of the counter of a page (VA[51:16]) of a version slot. -/
def ctrKey (slot page : Nat) : Nat := slot * 2 ^ 36 + page

/-- One hot-page entry (R161, R162). -/
def hotEntry (s : State) (slot page pa count : Nat) : State :=
  match s.hq with
  | none =>
    if s.link.flrs + s.link.linkResets = 0 then s
    else upSlot s slot (fun v => { v with hotDropped := v.hotDropped + 1 })
  | some q =>
    if q.full then upSlot s slot (fun v => { v with hotDropped := v.hotDropped + 1 })
    else
      let v := s.slot slot
      let w0 := at_ 63 52 (slot / 4) ||| (v.tv.zeroExtend 64 <<< 36) ||| at_ 35 0 page
      let w1 := at_ 63 56 count ||| at_ 55 54 (paSpace pa) ||| at_ 53 48 (paModule pa)
      let s := dmaBytes s 0 (q.ring.toNat + 16 * q.tail) false (wordsBytes [w0, w1])
      let s := { s with hq := some q.advance }
      let s := upSlot s slot (fun v => { v with hotPosted := v.hotPosted + 1 })
      let s := if s.hotPosted then s
        else raiseEvent { s with hotPosted := true } evHotPages 0 (at_ 15 0 q.advance.tail) 0 0
      msix s 0 q.vector

/-- A counted translation (R157): it increments with probability 2^−SAMPLE_SHIFT. -/
def countAccess (s : State) (slot page pa : Nat) : State :=
  let (x, s) := takeFree s
  if x % 2 ^ s.policy.sampleShift ≠ 0 then s
  else
    let k := ctrKey slot page
    let c := Tbl.get {} s.counters k
    let n := min (c.count + 1) 255
    let scope := s.policy.hotScope = 1 ∨ paSpace pa = 1 ∨ paSpace pa = 2
    let hot := c.count + 1 = s.policy.hotThreshold ∧ scope ∧ !c.posted
    let s := { s with counters := Tbl.set {} s.counters k { count := n, posted := c.posted || decide hot } }
    if hot then hotEntry s slot page pa n else s

end Sys2Proof.Machine
end

