-- ==== Sys2Proof/Machine/AdminOps.lean ====
section
/-!
DEFINITION. Mailboxes (chapter 16): requests, responses, the order in which commands start, the refusals common to
every command, and what a hedge warden does for a command that waits (R29).
-/
namespace Sys2Proof.Machine

/-! ### Slots -/

/-- The key of slot k of function f. -/
def mailKey (f k : Nat) : Nat := 4 * f + k

/-- Payload word n of the request in a slot; bytes past REQ_LEN are no part of it and read as 0 (log entry 26). -/
def State.req (s : State) (key n : Nat) : Word :=
  let m := s.mail key
  BitVec.ofNat 64 (leNat ((List.range 8).map (fun i =>
    if 8 * n + i < m.reqLen.toNat then Tbl.get 0 m.payload (8 * n + i) else 0)))

/-- The request's bytes from word n on are 0; a layout names no field there (R492). -/
def State.tailZero (s : State) (key n : Nat) : Bool :=
  !(s.mail key).payload.any (fun e => decide (8 * n ≤ e.1 ∧ e.1 < (s.mail key).reqLen.toNat))

/-- Field [hi:lo] of payload word n. -/
def State.reqF (s : State) (key n hi lo : Nat) : Nat := fld (s.req key n) hi lo

/-- Write bytes into a payload. -/
def putPayload : Tbl (BitVec 8) → Nat → List Byte → Tbl (BitVec 8)
  | t, _, [] => t
  | t, a, b :: l => putPayload (Tbl.set 0 t a b) (a + 1) l

/-- R480: the response, in order: payload, MB_LEN, MB_TICKER and MB_TIME, MB_HDR, MSI-X vector 0.  A discarded
response is not written (R485). -/
def respond (s : State) (f k : Nat) (st : Status) (l : List Word) : State :=
  if f < 32 ∧ (s.mail (mailKey f k)).state = 2 then
    let s := upMail s (mailKey f k) (fun m => { m with
      payload := putPayload m.payload 0 (wordsBytes l), respLen := BitVec.ofNat 12 (8 * l.length),
      ticker := s.tickerW, wallValid := s.time.wallValid, powerUps := s.time.powerUps,
      state := 3, status := st, started := false, applied := 0 })
    msix s f 0
  else s

/-- The functions' negotiated versions (R486, R487). -/
def State.version (s : State) (f : Nat) : Option (Nat × Nat) := Tbl.get none s.nego f

/-! ### Order (R483, R484, R629) -/

/-- Opcodes served as soon as firmware starts (R629). -/
def earlyOps : List Nat :=
  [0x01, 0x02, 0x41, 0x48, 0x20, 0x21, 0x40, 0x31, 0x32, 0x28, 0x29, 0x18, 0x19, 0x50, 0x51]

/-- Opcodes that only the physical function may send (Table — admin commands). -/
def pfOps : List Nat :=
  [0x10, 0x11, 0x12, 0x13, 0x18, 0x19, 0x28, 0x29, 0x2A, 0x30, 0x31, 0x32, 0x38, 0x40, 0x50, 0x51]

/-- Opcodes refused in FAULTED: they change model, table, routine or queue state (R463; log entry 27). -/
def faultedOps : List Nat := [0x10, 0x11, 0x12, 0x13, 0x18, 0x19, 0x20, 0x21, 0x38, 0x51]

/-- Opcodes that start only when no other command executes (R484). -/
def aloneOps : List Nat := [0x10, 0x11, 0x51]

def knownOps : List Nat := earlyOps ++ [0x10, 0x11, 0x12, 0x13, 0x2A, 0x30, 0x38]

/-- The table ids that the command in a slot names. -/
def State.tablesOf (s : State) (key : Nat) : List Nat :=
  match (s.mail key).opcode.toNat with
  | 0x12 => [s.reqF key 0 63 52]
  | 0x38 => [s.reqF key 0 63 52]
  | 0x13 => (List.range (s.reqF key 0 61 56 + 1)).map (fun i => s.reqF key (1 + i) 63 52)
  | _ => []

/-- The core that the command names. -/
def State.coresOf (s : State) (key : Nat) : List Nat :=
  if (s.mail key).opcode = 0x28 ∨ (s.mail key).opcode = 0x29 then [s.reqF key 0 6 0] else []

/-- The command names the inactive routine bank. -/
def Mbox.namesBank (m : Mbox) : Bool := m.opcode == 0x18 || m.opcode == 0x19

/-- Two commands name the same table id, routine bank or core; a MIGRATE and a TABLE_SWAP never conflict. -/
def State.conflict (s : State) (a b : Nat) : Bool :=
  let x := (s.mail a).opcode.toNat
  let y := (s.mail b).opcode.toNat
  let pair := (x == 0x38 && y == 0x13) || (x == 0x13 && y == 0x38)
  (!pair && (s.tablesOf a).any (fun t => (s.tablesOf b).contains t)) ||
  (s.coresOf a).any (fun c => (s.coresOf b).contains c) || ((s.mail a).namesBank && (s.mail b).namesBank)

/-- A posted command waits for READY (R629). -/
def State.waitsReady (s : State) (m : Mbox) : Bool :=
  s.bring.phase != 6 && s.sched.state != .stopped && !earlyOps.contains m.opcode.toNat &&
    knownOps.contains m.opcode.toNat

/-- A posted command that has not been answered. -/
def Mbox.open_ (m : Mbox) : Bool := m.state == 1 || m.state == 2

/-- An image is being installed (R499). -/
def State.installing (s : State) : Bool :=
  s.adminWaits.any (fun w => match w with
    | .wardens _ _ _ (.mapped _) => true
    | .wardens _ _ _ (.widened _) => true
    | _ => false)

/-- It is the slot's turn to start; MODEL_LOAD runs alone to its end, also where its function was reset (R483, R485). -/
def State.turn (s : State) (key : Nat) : Bool :=
  let me := s.mail key
  let alone := aloneOps.contains me.opcode.toNat
  !s.installing && (List.range 128).all (fun j =>
    let m := s.mail j
    if j = key ∨ !m.open_ then true
    else if m.started then
      !alone && !aloneOps.contains m.opcode.toNat && !(decide (m.order < me.order) && s.conflict j key)
    else if m.order < me.order then s.waitsReady m && !s.conflict j key && !alone
    else true)

/-! ### Starting a command -/

/-- The refusal that a command meets before its own checks, in the order of R640: reserved fields, version (R487),
sender (R491), STOPPED (R631), FAULTED (R463). -/
def State.refusal (s : State) (f : Nat) (m : Mbox) (reserved : Bool) : Option Status :=
  let op := m.opcode.toNat
  if reserved then some stReservedNonzero
  else if 4064 < m.reqLen.toNat then some stBadDescriptor
  else if op ≠ 1 ∧ s.version f ≠ some (m.verMajor.toNat, m.verMinor.toNat) then some stVersion
  else if pfOps.contains op ∧ f ≠ 0 then some stBadDescriptor
  else if s.sched.state = .stopped ∧ !earlyOps.contains op then some stAbsentUnit
  else if s.sched.state = .faulted ∧ faultedOps.contains op then some stBadDescriptor
  else none

/-- Take the command posted in slot k of function f, where it is the one named (R480), and run it where it may start. -/
def admin (s : State) (f : FnId) (k : SlotId) (op : Nat) (reserved : Bool) (body : State → State) : State :=
  whenFw s fun s =>
    let key := mailKey f k
    let m := s.mail key
    if m.open_ && !m.started && m.opcode.toNat == op then
      let mine := s.turn key
      let s := upMail s key (fun m => { m with state := 2 })
      if mine then
        match s.refusal f m reserved with
        | some st => respond s f k st []
        | none => if s.waitsReady m then s else body (upMail s key (fun m => { m with started := true }))
      else s
    else s

/-- The physical function's or any command's refusal from its own checks. -/
def refuse (s : State) (f : FnId) (k : SlotId) (st : Status) : State := respond s f k st []

/-! ### SET_MODE and the wardens (R29, R494) -/

/-- Every current mode value, as SET_MODE's response carries them. -/
def State.modeWords (s : State) (apply : Nat) : List Word :=
  [at_ 4 0 apply,
   at_ 63 63 (b2n s.modes.chlock) ||| at_ 62 62 (b2n s.modes.repro) ||| at_ 61 54 s.modes.scrubH |||
     (s.upd.freeze.zeroExtend 64 <<< 38),
   at_ 63 48 s.policyNext.epochMs ||| at_ 47 44 s.policyNext.sampleShift ||| at_ 43 36 s.policyNext.hotThreshold |||
     at_ 35 35 s.policyNext.hotScope]

/-- One APPLY bit of a SET_MODE is done; with the last of them the response goes. -/
def modeDone (s : State) (f k b : Nat) : State :=
  let key := mailKey f k
  let apply := s.reqF key 0 4 0
  let s := upMail s key (fun m => { m with applied := m.applied ||| (1 <<< b) })
  if (s.mail key).applied.toNat &&& apply = apply then respond s f k stOk (s.modeWords apply) else s

/-- A change takes effect in the 64 channel controllers and the hedge. -/
def applyCfg (s : State) (h : Nat) (c : WardenCfg) : State :=
  match c with
  | .map m => upHedge s h (fun x => { x with imap := m })
  | .privet t => upHedge s h (fun x => { x with privet := t })
  | .lock on => forN 64 (fun i s => upChan s (64 * h + i) (fun x => { x with
      lockWanted := on, windowDone := x.windowDone && on, aligned := x.aligned && on })) s
  | .scrub n => upHedge s h (fun x => { x with scrubH := n })

/-- Give every hedge's warden a change to apply. -/
def tellWardens (s : State) (c : Nat → WardenCfg) : State :=
  forN 12 (fun h s => upHedge s h (fun x => { x with wardenQ := x.wardenQ ++ [c h] })) s

/-- What APPLY bit b of the SET_MODE in a slot changes: the determinism mode (R469), the channel lock (R74) and the scrub
interval (R76) through the wardens, the counter policy from the next epoch on (R160), and the freeze mask from the next
close's snapshot on (R328). -/
def modeApply (s : State) (key b : Nat) : State :=
  match b with
  | 0 => { s with modes := { s.modes with repro := bit (s.req key 1) 62 } }
  | 1 =>
    let on := bit (s.req key 1) 63
    tellWardens { s with modes := { s.modes with chlock := on } } (fun _ => .lock on)
  | 2 =>
    let h := s.reqF key 1 61 54
    tellWardens { s with modes := { s.modes with scrubH := h } } (fun _ => .scrub h)
  | 3 =>
    let r := fun hi lo => s.reqF key 2 hi lo
    { s with policyNext := { epochMs := r 63 48, sampleShift := r 47 44, hotThreshold := r 43 36, hotScope := r 35 35 } }
  | _ => { s with upd := { s.upd with freeze := (s.req key 1).extractLsb' 38 16 } }

/-- APPLY bit b of the SET_MODE in slot k of function f waits for the wardens. -/
def State.modeWaits (s : State) (f k b : Nat) : Bool :=
  s.adminWaits.any (fun w => match w with
    | .wardens g j _ (.mode x) => g == f && j == k && x == b
    | _ => false)

/-- APPLY bit b of the SET_MODE in slot k of function f is still to be applied. -/
def State.modeDue (s : State) (f k b : Nat) : Bool :=
  bit (s.req (mailKey f k) 0) b && !(s.mail (mailKey f k)).applied.getLsbD b && !s.modeWaits f k b

/-- Apply the rest of a SET_MODE that has started (R485). -/
def modeRest (s : State) (f k : Nat) : State :=
  let m := s.mail (mailKey f k)
  if m.open_ && m.started && m.opcode == 0x30 then
    forN 5 (fun b s => if s.modeDue f k b then modeApply s (mailKey f k) b else s) s
  else s

/-- The command waits until all 12 wardens have reported the change (R29). -/
def awaitWardens (s : State) (f k : Nat) (after : AfterWardens) : State :=
  { s with adminWaits := s.adminWaits ++ [.wardens f k (List.range 12) after] }

/-- Hedge h still owes the command a report. -/
def AdminWait.owes (w : AdminWait) (h : Nat) : Bool :=
  match w with
  | .wardens _ _ left _ => left.contains h
  | _ => false

/-- The command has had hedge h's report. -/
def AdminWait.reported (w : AdminWait) (h : Nat) : AdminWait :=
  match w with
  | .wardens f k left a => .wardens f k (dropFirst (· == h) left) a
  | w => w

end Sys2Proof.Machine
end

