-- ==== Sys2Proof/Machine/Fp.lean ====
section
/-!
DEFINITION. The arithmetic of the FP formats of R171: exact values, one rounding to nearest even (R87, R206,
R242, R311), and the correctly rounded functions of R244.
-/
namespace Sys2Proof.Machine

/-- A value before rounding: NaN, an infinity, or ±m·2^e, and whether its magnitude is a little more
than that (what a quotient, a root or a function leaves below its last computed bit). -/
inductive Ev where
  | nan
  | inf (neg : Bool)
  | num (neg : Bool) (m : Nat) (e : Int) (more : Bool)
deriving DecidableEq, Repr

/-- A binary FP format: exponent and fraction widths. -/
structure FpFmt where
  eb : Nat
  mb : Nat
deriving DecidableEq, Repr

def fp32 : FpFmt := ⟨8, 23⟩
def bf16 : FpFmt := ⟨8, 7⟩
def fp16 : FpFmt := ⟨5, 10⟩
def e5m2 : FpFmt := ⟨5, 2⟩

/-- An IEEE pattern of the format as a value. -/
def FpFmt.decode (f : FpFmt) (p : Nat) : Ev :=
  let neg := p.testBit (f.eb + f.mb)
  let ex := nbits p (f.eb + f.mb - 1) f.mb
  let fr := p % 2 ^ f.mb
  let bias : Int := 2 ^ (f.eb - 1) - 1
  if ex = 2 ^ f.eb - 1 then (if fr = 0 then .inf neg else .nan)
  else if ex = 0 then .num neg fr (1 - bias - f.mb) false
  else .num neg (2 ^ f.mb + fr) (ex - bias - f.mb) false

/-- OFP8 E4M3 (R171): bias 7, no infinities, NaN S.1111.111. -/
def e4m3Decode (p : Nat) : Ev :=
  let neg := p.testBit 7
  let ex := nbits p 6 3
  let fr := p % 8
  if ex = 15 ∧ fr = 7 then .nan
  else if ex = 0 then .num neg fr (-9) false
  else .num neg (8 + fr) (ex - 10) false

/-- The canonical NaN of a format (R242): 0x7FC0_0000, 0x7FC0, 0x7E00. -/
def FpFmt.nan (f : FpFmt) : Nat := (2 ^ f.eb - 1) * 2 ^ f.mb + 2 ^ (f.mb - 1)

def FpFmt.infp (f : FpFmt) (neg : Bool) : Nat := (b2n neg) * 2 ^ (f.eb + f.mb) + (2 ^ f.eb - 1) * 2 ^ f.mb

/-- The magnitude ±m·2^e rounded to nearest even on the grid 2^q: the integer multiple. -/
def rneShift (m : Nat) (e q : Int) (more : Bool) : Nat :=
  if q ≤ e then m <<< (e - q).toNat
  else
    let s := (q - e).toNat
    let n := m >>> s
    let r := m % 2 ^ s
    let half := 2 ^ (s - 1)
    if r > half ∨ (r = half ∧ (more ∨ n % 2 = 1)) then n + 1 else n

/-- Round to the format; the second part says that a finite value overflowed to infinity. -/
def FpFmt.round (f : FpFmt) : Ev → Nat × Bool
  | .nan => (f.nan, false)
  | .inf neg => (f.infp neg, false)
  | .num neg m e more =>
    let sign := b2n neg * 2 ^ (f.eb + f.mb)
    if m = 0 then (sign, false)
    else
      let bias : Int := 2 ^ (f.eb - 1) - 1
      let top : Int := e + Nat.log2 m
      let q : Int := max top (1 - bias) - f.mb
      let n := rneShift m e q more
      let p := ((q + f.mb + bias - 1).toNat) * 2 ^ f.mb + n
      if (2 ^ f.eb - 1) * 2 ^ f.mb ≤ p then (f.infp neg, true) else (sign + p, false)

/-- Round to E4M3 with its saturation (R246): the pattern, and whether a finite value was clamped to ±448. -/
def e4m3Round : Ev → Nat × Bool
  | .nan => (0x7F, false)
  | .inf _ => (0x7F, false)
  | .num neg m e more =>
    let sign := b2n neg * 128
    if m = 0 then (sign, false)
    else
      let q : Int := max (e + Nat.log2 m) (-6) - 3
      let p := ((q + 9).toNat) * 8 + rneShift m e q more
      if 0x7F ≤ p then (sign + 0x7E, true) else (sign + p, false)

/-- Round to binary32. -/
def r32 (x : Ev) : BitVec 32 := BitVec.ofNat 32 (fp32.round x).1

/-- A binary32 pattern as a value. -/
def d32 (p : BitVec 32) : Ev := fp32.decode p.toNat

/-- An integer as a value. -/
def Ev.ofInt (i : Int) : Ev := .num (i < 0) i.natAbs 0 false

def Ev.neg : Ev → Ev
  | .nan => .nan
  | .inf s => .inf (!s)
  | .num s m e b => .num (!s) m e b

def Ev.abs : Ev → Ev
  | .nan => .nan
  | .inf _ => .inf false
  | .num _ m e b => .num false m e b

def Ev.isNan : Ev → Bool
  | .nan => true
  | _ => false

def Ev.isFinite : Ev → Bool
  | .num _ _ _ _ => true
  | _ => false

def Ev.isZero : Ev → Bool
  | .num _ 0 _ _ => true
  | _ => false

def Ev.isNeg : Ev → Bool
  | .nan => false
  | .inf s => s
  | .num s _ _ _ => s

/-- A finite value as an integer multiple of 2^q, for q at most its exponent. -/
def scaled (neg : Bool) (m : Nat) (e q : Int) : Int :=
  let v : Int := m <<< (e - q).toNat
  if neg then -v else v

/-- The exact sum; an exact zero is +0 unless both terms are −0 (R206). -/
def Ev.add : Ev → Ev → Ev
  | .nan, _ => .nan
  | _, .nan => .nan
  | .inf s, .inf t => if s = t then .inf s else .nan
  | .inf s, _ => .inf s
  | _, .inf t => .inf t
  | .num s m e b, .num t n f c =>
    let q := min e f
    let v := scaled s m e q + scaled t n f q
    if v = 0 then .num (s && t) 0 0 (b || c) else .num (decide (v < 0)) v.natAbs q (b || c)

def Ev.sub (x y : Ev) : Ev := x.add y.neg

/-- The exact product. -/
def Ev.mul : Ev → Ev → Ev
  | .nan, _ => .nan
  | _, .nan => .nan
  | .inf s, .inf t => .inf (s != t)
  | .inf s, .num t n _ _ => if n = 0 then .nan else .inf (s != t)
  | .num s m _ _, .inf t => if m = 0 then .nan else .inf (s != t)
  | .num s m e b, .num t n f c => .num (s != t) (m * n) (e + f) (b || c)

/-- The quotient to enough bits for one rounding. -/
def Ev.div : Ev → Ev → Ev
  | .nan, _ => .nan
  | _, .nan => .nan
  | .inf _, .inf _ => .nan
  | .inf s, .num t _ _ _ => .inf (s != t)
  | .num s _ _ _, .inf t => .num (s != t) 0 0 false
  | .num s m e _, .num t n f _ =>
    if n = 0 then (if m = 0 then .nan else .inf (s != t))
    else
      let k := 96 + Nat.log2 n
      let a := m <<< k
      .num (s != t) (a / n) (e - f - k) (a % n != 0)

/-- ⌊√n⌋ by binary digits, the last one of weight 2^i first fixed last. -/
def isqrtGo (n : Nat) : Nat → Nat → Nat
  | 0, r => r
  | i + 1, r => isqrtGo n i (if (r + 2 ^ i) * (r + 2 ^ i) ≤ n then r + 2 ^ i else r)

def isqrt (n : Nat) : Nat := isqrtGo n (Nat.log2 n / 2 + 1) 0

/-- The square root (R311): −0 stays −0, a negative value gives NaN. -/
def Ev.sqrt : Ev → Ev
  | .nan => .nan
  | .inf s => if s then .nan else .inf false
  | .num s m e _ =>
    if m = 0 then .num s 0 0 false
    else if s then .nan
    else
      let k : Nat := 128 + (if e % 2 = 0 then 0 else 1)
      let a := m <<< k
      let r := isqrt a
      .num false r ((e - k) / 2) (r * r != a)

/-- 1 / √x with the fixed values of R244. -/
def Ev.rsqrt : Ev → Ev
  | .nan => .nan
  | .inf s => if s then .nan else .num false 0 0 false
  | .num s m e _ =>
    if m = 0 then .inf s
    else if s then .nan
    else
      let j : Nat := if e % 2 = 0 then 0 else 1
      let n := m <<< j
      let k := 160 + Nat.log2 n
      let r := isqrt (2 ^ (2 * k) / n)
      .num false r (-(k : Int) - (e - j) / 2) (r * r * n != 2 ^ (2 * k))

/-- Order of two non-NaN values: −1, 0 or 1, with +0 and −0 equal (R242). -/
def Ev.cmp : Ev → Ev → Int
  | .nan, _ => 0
  | _, .nan => 0
  | .inf s, .inf t => if s = t then 0 else if s then -1 else 1
  | .inf s, _ => if s then -1 else 1
  | _, .inf t => if t then 1 else -1
  | .num s m e _, .num t n f _ =>
    let q := min e f
    let v := scaled s m e q - scaled t n f q
    if v < 0 then -1 else if v = 0 then 0 else 1

def Ev.lt (x y : Ev) : Bool := !x.isNan && !y.isNan && x.cmp y == -1
def Ev.eqv (x y : Ev) : Bool := !x.isNan && !y.isNan && x.cmp y == 0

/-- The nearest integer, ties to even, of a finite value. -/
def Ev.rne : Ev → Int
  | .num s m e more =>
    let n : Int := rneShift m e 0 more
    if s then -n else n
  | _ => 0

/-! ### The functions of R244

Fixed point with `fxN` fraction bits; the values computed lie below the true ones by less than a few units
of 2^−fxN, and every case whose true value is itself a short binary number is answered apart, so one rounding of
what is computed, taken as a little too small, is the correctly rounded value (log entry 11, DEDUCED). -/

def fxN : Nat := 400
def fxOne : Nat := 2 ^ fxN

/-- x − x³/3 + …: 2·atanh(1/3) = ln 2, term by term. -/
def ln2Go : Nat → Nat → Nat → Nat → Nat
  | 0, _, _, acc => acc
  | k + 1, p, i, acc => ln2Go k (p / 9) (i + 2) (acc + p / i)

/-- ln 2 in fixed point. -/
def fxLn2 : Nat := 2 * ln2Go 140 (fxOne / 3) 1 0

/-- Σ rⁱ/i! of a fixed-point r in [0, 1). -/
def expGo (r : Nat) : Nat → Nat → Nat → Nat → Nat
  | 0, _, _, acc => acc
  | k + 1, i, t, acc => expGo r k (i + 1) (t * r / fxOne / i) (acc + t)

/-- e^x for a fixed-point x of either sign, as mantissa and exponent. -/
def fxExp (x : Int) : Nat × Int :=
  let k := x / (fxLn2 : Int)
  let r := (x - k * fxLn2).toNat
  (expGo r 120 1 fxOne 0, k - fxN)

/-- A finite value in fixed point. -/
def toFx (s : Bool) (m : Nat) (e : Int) : Int :=
  let v : Int := if e + fxN ≥ 0 then (m <<< (e + fxN).toNat : Nat) else (m >>> (-(e + fxN)).toNat : Nat)
  if s then -v else v

/-- Whether a magnitude is at least 2^10, where e^x lies far outside binary32. -/
def big (m : Nat) (e : Int) : Bool := decide (10 ≤ e + Nat.log2 m)

def Ev.exp : Ev → Ev
  | .nan => .nan
  | .inf s => if s then .num false 0 0 false else .inf false
  | .num s m e _ =>
    if m = 0 then .num false 1 0 false
    else if big m e then (if s then .num false 1 (-400) true else .num false 1 400 true)
    else let y := fxExp (toFx s m e); .num false y.1 y.2 true

/-- Σ z^(2i+1)/(2i+1) of a fixed-point z. -/
def atanhGo (z2 : Nat) : Nat → Nat → Nat → Nat → Nat
  | 0, _, _, acc => acc
  | k + 1, p, i, acc => atanhGo z2 k (p * z2 / fxOne) (i + 2) (acc + p / i)

/-- ln x: with x = y·2^k, y in [2/3, 4/3), ln x = 2·atanh((y−1)/(y+1)) + k·ln 2. -/
def Ev.log : Ev → Ev
  | .nan => .nan
  | .inf s => if s then .nan else .inf false
  | .num s m e _ =>
    if m = 0 then .inf true
    else if s then .nan
    else
      let l := Nat.log2 m
      let y0 : Nat := if l ≤ fxN then m <<< (fxN - l) else m >>> (l - fxN)
      let up := decide (4 * fxOne ≤ 3 * y0)
      let k : Int := e + l + (if up then 1 else 0)
      let num : Int := if up then (y0 : Int) - 2 * fxOne else (y0 : Int) - fxOne
      let den : Nat := if up then y0 + 2 * fxOne else y0 + fxOne
      if num = 0 ∧ k = 0 then .num false 0 0 false
      else
        let z := num.natAbs * fxOne / den
        let a : Int := 2 * (atanhGo (z * z / fxOne) 140 z 1 0 : Nat)
        let v : Int := (if num < 0 then -a else a) + k * fxLn2
        .num (decide (v < 0)) v.natAbs (-fxN) true

/-- e^(−a) in fixed point, for a fixed-point a ≥ 0. -/
def fxExpNeg (a : Nat) : Nat :=
  let y := fxExp (-(a : Int))
  if 0 ≤ y.2 + fxN then y.1 <<< (y.2 + fxN).toNat else y.1 >>> (-(y.2 + fxN)).toNat

def Ev.sigmoid : Ev → Ev
  | .nan => .nan
  | .inf s => if s then .num false 0 0 false else .num false 1 0 false
  | .num s m e _ =>
    if m = 0 then .num false 1 (-1) false
    else if big m e then (if s then .num false 1 (-400) true else .num false (2 ^ 200 - 1) (-200) true)
    else
      let t := fxExpNeg (toFx false m e).toNat
      let num := if s then t else fxOne
      .num false (num * fxOne / (fxOne + t)) (-fxN) true

def Ev.tanh : Ev → Ev
  | .nan => .nan
  | .inf s => .num s 1 0 false
  | .num s m e _ =>
    if m = 0 then .num s 0 0 false
    else if big m e then .num s (2 ^ 200 - 1) (-200) true
    else
      let t := fxExpNeg (2 * (toFx false m e).toNat)
      .num s ((fxOne - t) * fxOne / (fxOne + t)) (-fxN) true

/-! ### Exact integers -/

/-- A finite FP32 value as a multiple of 2^−149. -/
def units149 (x : BitVec 32) : Int :=
  match d32 x with
  | .num s m e _ => scaled s m e (-149)
  | _ => 0

/-- The nearest integer to n / d, ties to even. -/
def rneDiv (n : Int) (d : Nat) : Int :=
  let q := n / (d : Int)
  let r := 2 * (n % (d : Int))
  if r > d ∨ (r = d ∧ q % 2 = 1) then q + 1 else q

/-! ### Binary32 operations, each rounding once -/

def f32add (a b : BitVec 32) : BitVec 32 := r32 ((d32 a).add (d32 b))
def f32sub (a b : BitVec 32) : BitVec 32 := r32 ((d32 a).sub (d32 b))
def f32mul (a b : BitVec 32) : BitVec 32 := r32 ((d32 a).mul (d32 b))
def f32div (a b : BitVec 32) : BitVec 32 := r32 ((d32 a).div (d32 b))
def f32sqrt (a : BitVec 32) : BitVec 32 := r32 (d32 a).sqrt
/-- a × b + c × d, formed exactly and rounded once (R311). -/
def f32dot2 (a b c d : BitVec 32) : BitVec 32 :=
  r32 (((d32 a).mul (d32 b)).add ((d32 c).mul (d32 d)))
def f32ofInt (i : Int) : BitVec 32 := r32 (Ev.ofInt i)
def f32one : BitVec 32 := 0x3F800000

end Sys2Proof.Machine
end

