-- ==== Sys2Proof/Machine/Residue.lean ====
section
/-!
DEFINITION. Residues modulo 7 (R225, R226, R398): what a unit predicts for a sum, and whether a wrong sum is caught.
A wrong sum whose residue is the predicted one goes on in place of the right one.
-/
namespace Sys2Proof.Machine

/-- The residue of an integer (R225). -/
def res7 (i : Int) : Nat := (i % 7).toNat

/-- The residue of a sum or a product from the residues of its parts (R225). -/
def res7Sum (l : List Nat) : Nat := l.foldl (fun a r => (a + r) % 7) 0
def res7Mul (a b : Nat) : Nat := a * b % 7

/-- The correction of one wrap (R398): 4 for INT32, 2 for INT64. -/
def wrapUnit (w : Nat) : Nat := 2 ^ w % 7

/-- The residue that a wrapping add of `w`-bit numbers predicts for its stored result (R398). -/
def addResidue (w : Nat) (a b : Int) : Nat :=
  let r := res7Sum [res7 a, res7 b]
  if (2 : Int) ^ (w - 1) ≤ a + b then (r + 7 - wrapUnit w) % 7
  else if a + b < -(2 : Int) ^ (w - 1) then (r + wrapUnit w) % 7
  else r

/-- A wrong integer sum in place of `a + b`: none where its residue shows it, else the value that is stored. -/
def wrongInt (w : Nat) (a b v : Int) : Option (BitVec w) :=
  let x := BitVec.ofInt w v
  if res7 x.toInt = addResidue w a b then some x else none

/-- The signed significand of a value. -/
def Ev.significand : Ev → Int
  | .num s m _ _ => if s then -(m : Int) else m
  | _ => 0

/-- The value with another significand; NaN and infinities have none to go wrong. -/
def Ev.withSignificand (x : Ev) (v : Int) : Ev :=
  match x with
  | .num _ _ e b => .num (decide (v < 0)) v.natAbs e b
  | x => x

/-- A wrong significand of an exact sum (R227, R397): none where its residue shows it, else the value that is rounded. -/
def wrongSig (x : Ev) (v : Int) : Option Ev :=
  if res7 x.significand = res7 v then some (x.withSignificand v) else none

end Sys2Proof.Machine
end

