-- ==== Sys2Proof/Machine/Operands.lean ====
section
/-!
DEFINITION. Operand forms: elements of every format (R171, R172), row headers (R94), codebooks (R174, R179) and adder
packets (R85 to R91) with the arithmetic of the channel adder.
-/
namespace Sys2Proof.Machine

/-! ### Elements -/

/-- Width in bits of a format; 0 for a reserved code. -/
def fmtBits : Nat → Nat
  | 0x0 => 32
  | 0x1 => 16
  | 0x2 => 16
  | 0x3 => 8
  | 0x4 => 8
  | 0x5 => 32
  | 0x6 => 16
  | 0x7 => 8
  | 0x8 => 8
  | 0x9 => 4
  | 0xA => 4
  | 0xB => 8
  | 0xC => 64
  | _ => 0

def isFp (f : Nat) : Bool := f ≤ 4
def isCb (f : Nat) : Bool := f == 0xA || f == 0xB

/-- Bytes of `n` elements of a format. -/
def fmtBytes (f n : Nat) : Nat := ceilDiv (n * fmtBits f) 8

/-- The bits of element x of a byte string (R172). -/
def elemRaw (l : List Byte) (f x : Nat) : Nat :=
  let b := fmtBits f
  if b = 4 then nbits (leAt l (x / 2) 1) (4 * (x % 2) + 3) (4 * (x % 2)) else leAt l (x * b / 8) (b / 8)

/-- An FP element as a value. -/
def fpDecode (f raw : Nat) : Ev :=
  match f with
  | 0x0 => fp32.decode raw
  | 0x1 => bf16.decode raw
  | 0x2 => fp16.decode raw
  | 0x3 => e4m3Decode raw
  | _ => e5m2.decode raw

/-- An integer element. -/
def intDecode (f raw : Nat) : Int := if f = 0x8 then raw else signed (fmtBits f) raw

/-- A codebook as its readers use it: entries and scale. -/
structure CbView where
  entries : List (BitVec 8)
  scale   : BitVec 32
deriving DecidableEq, Repr

/-- Entry of a code. -/
def CbView.entry (c : CbView) (code : Nat) : Int := (c.entries.getD code 0).toInt

/-! ### The codebook store and its cached copies (R173, R174, R178, R282) -/

/-- A record as its 36 words say (R174). -/
def cbParse (l : List Word) : Codebook :=
  let w := wd l 32
  { cb256 := bit w 63, constant := bit w 62, padded := bit w 61, scale := w.extractLsb' 0 32,
    entries := (wordsBytes l).take (if bit w 63 then 256 else 16) }

/-- Word 32 of a codebook record. -/
def Codebook.word32 (c : Codebook) (id : Nat) : Word :=
  at_ 63 63 (b2n c.cb256) ||| at_ 62 62 (b2n c.constant) ||| at_ 61 61 (b2n c.padded) ||| at_ 43 32 id |||
    c.scale.zeroExtend 64

/-- A record's 36 words. -/
def Codebook.words (c : Codebook) (id : Nat) : List Word := bytesWords c.entries 32 ++ [c.word32 id, 0, 0, 0]

/-- A codebook is installed under an id. -/
def State.cbInstalled (s : State) (id : Nat) : Bool := (Tbl.get none s.codebooks id).isSome

/-- And it has the size of a format. -/
def State.cbFits (s : State) (id fmt : Nat) : Bool := Tbl.get none s.codebooks id == some (fmt == 0xB)

/-- The record of an id as the store in local DRAM holds it: none where a word of it is poison. -/
def State.cbStored (s : State) (id : Nat) : Option Codebook :=
  let w := s.dramWords (codebookAt id / 8) 36
  if anyPoison w then none else some (cbParse (pdata w))

/-- A record is the most recent of a cache of n. -/
def cacheCb (n : Nat) (l : List (Nat × Codebook)) (e : Nat × Codebook) : List (Nat × Codebook) :=
  let r := l.filter (fun x => x.1 != e.1)
  (if r.length < n then r else r.drop (r.length + 1 - n)) ++ [e]

/-- A copy that a cache holds. -/
def cbHeld (l : List (Nat × Codebook)) (id : Nat) : Option Codebook := (l.find? (fun e => e.1 == id)).map (·.2)

/-- A core's codebook unit takes up an installed record: the copy it holds, else the store's; false where that is poison
(R376). -/
def coreCb (c id : Nat) (s : State) : State × Bool :=
  let keep := fun (b : Codebook) (s : State) => upCore s c (fun k => { k with cbUnit := cacheCb 64 k.cbUnit (id, b) })
  match cbHeld (s.core c).cbUnit id with
  | some b => (keep b s, true)
  | none =>
    if s.cbInstalled id then
      let t := dramTouch s (codebookAt id) 288
      match s.cbStored id with
      | some b => (keep b t, true)
      | none => (t, false)
    else (s, true)

/-- And several; false where one of them is poison. -/
def coreCbs (c : Nat) (l : List Nat) (s : State) : State × Bool :=
  l.foldl (fun (x : State × Bool) id => let r := coreCb c id x.1; (r.1, x.2 && r.2)) (s, true)

/-- The record that a core's codebook unit holds. -/
def State.cbOn (s : State) (c id : Nat) : Codebook := (cbHeld (s.core c).cbUnit id).getD {}

/-- The Slalom engines of a hedge take up an installed record in the same way. -/
def hedgeCb (h id : Nat) (s : State) : State × Bool :=
  match cbHeld (s.hedge h).cbCache id with
  | some _ => (s, true)
  | none =>
    let t := dramTouch s (codebookAt id) 288
    match s.cbStored id with
    | some b => (upHedge t h (fun x => { x with cbCache := x.cbCache ++ [(id, b)] }), true)
    | none => (t, false)

/-- The record that a hedge's engines hold. -/
def State.cbIn (s : State) (h id : Nat) : Codebook := (cbHeld (s.hedge h).cbCache id).getD {}

def Codebook.view (c : Codebook) : CbView := ⟨c.entries, c.scale⟩

/-- The decoded integer value of an element of the integer path (R90).  R90 names INT8, UINT8, INT4 and the codebook
formats; INT16 and INT32 are taken as the element itself, and an FP element has an open value (log entry 98). -/
def elemInt (cb : CbView) (f raw : Nat) : Int :=
  if isCb f then cb.entry raw else if isFp f then Config.fpAsInt f raw else intDecode f raw

/-- The FP32 value of an element of the FP32 path, scaled (R90): each product rounded once. -/
def elemF32 (cb : CbView) (rowScale f raw : Nat) : BitVec 32 :=
  let v := if isFp f then r32 (fpDecode f raw) else f32ofInt (elemInt cb f raw)
  let v := if isCb f then f32mul v cb.scale else v
  if rowScale = 0 then v else f32mul v (r32 (fp16.decode rowScale))

/-! ### Row headers (Table — row header) -/

def hdrVersion (h : Word) : Nat := fld h 63 48
def hdrCodebook (h : Word) : Nat := fld h 47 36
def hdrFormat (h : Word) : Nat := fld h 35 32
def hdrScale (h : Word) : Nat := fld h 31 16

/-- The words of a row that hold its header and elements. -/
def rowWords (f elems : Nat) : Nat := 1 + ceilDiv (elems * fmtBits f) 64

/-! ### Adder packets -/

/-- A parsed adder packet header (Table — adder packet header); `len` and `elems` in bytes and elements. -/
structure AdderPkt where
  target  : Nat
  op      : Nat
  acc     : Nat
  src     : Nat
  exp     : Int
  len     : Nat
  ordered : Bool
  count   : Nat
  elems   : Nat
deriving DecidableEq, Repr

def parseAdder (h0 h1 : Word) : AdderPkt :=
  { target := fld h0 55 0, op := fld h1 63 56, acc := fld h1 55 52, src := fld h1 51 48,
    exp := signed 8 (fld h1 47 40), len := 32 * (fld h1 39 33 + 1), ordered := bit h1 32, count := fld h1 31 24,
    elems := 8 * (fld h1 22 16 + 1) }

def opAdd : Nat := 1
def opAddFx : Nat := 2
def opFetchAdd : Nat := 3
def opSwap : Nat := 4
def opCas : Nat := 5
def opZero : Nat := 6
def opPool : Nat := 7

/-- Words of the codebook block of a POOL operand (R90). -/
def cbBlockWords (src : Nat) : Nat := if src = 0xA then 3 else if src = 0xB then 33 else 0

/-- Operand words that an operation takes. -/
def AdderPkt.operandWords (p : AdderPkt) : Nat :=
  match p.op with
  | 1 => p.len / 8
  | 2 => p.len / 16
  | 3 => 1
  | 4 => 1
  | 5 => 2
  | 7 => cbBlockWords p.src + p.count
  | _ => 0

/-- One element's extent. -/
def AdderPkt.single (p : AdderPkt) : Bool := p.op == 3 || p.op == 4 || p.op == 5

/-- The formats that an operation allows (Table — adder operations). -/
def AdderPkt.formatsOk (p : AdderPkt) : Bool :=
  let a := p.acc == 0x0 || p.acc == 0x5 || p.acc == 0xC
  match p.op with
  | 1 => a && p.src == p.acc
  | 2 => p.acc == 0xC && p.src == 0x0
  | 3 => a && p.src == p.acc
  | 4 => p.acc == 0xC && p.src == 0xC
  | 5 => p.acc == 0xC && p.src == 0xC
  | 6 => a && p.src == 0x0
  | _ => a && decide (p.src ≤ 0xB)

/-- The status a packet is refused with (R86, R639, R640). -/
def adderRefusal (h0 h1 : Word) (operand : Nat) : Option Status :=
  let p := parseAdder h0 h1
  if fld h0 63 56 ≠ 0 ∨ bit h1 23 ∨ fld h1 15 0 ≠ 0 ∨ p.op = 0 ∨ 8 ≤ p.op ∨ 0xD ≤ p.acc ∨ 0xD ≤ p.src then
    some stReservedNonzero
  else if !p.formatsOk || decide (operand ≠ p.operandWords) || decide (p.op ≠ opAddFx ∧ fld h1 47 40 ≠ 0) ||
      decide (p.op ≠ opPool ∧ (p.ordered ∨ p.count ≠ 0 ∨ fld h1 22 16 ≠ 0)) ||
      decide (p.op = opPool ∧ (p.count = 0 ∨ 64 < p.count ∨ p.target ≠ 0)) ||
      (p.single && decide (fld h1 39 33 ≠ 0 ∨ p.target % (fmtBits p.acc / 8) ≠ 0)) then
    some stBadDescriptor
  else none

/-! ### Adder arithmetic (R87) -/

/-- Apply a 32-bit operation to both halves of a word. -/
def word32 (f : BitVec 32 → BitVec 32 → BitVec 32) (a b : Word) : Word :=
  ((f (a.extractLsb' 32 32) (b.extractLsb' 32 32)).zeroExtend 64 <<< 32) |||
    (f (a.extractLsb' 0 32) (b.extractLsb' 0 32)).zeroExtend 64

/-- The sum of two words as elements of a format. -/
def addWord (acc : Nat) (a b : Word) : Word :=
  match acc with
  | 0x0 => word32 f32add a b
  | 0x5 => word32 (· + ·) a b
  | _ => a + b

/-- The fixed-point form of an FP32 element (R87), and whether it saturated or was NaN. -/
def toFixed (exp : Int) (p : BitVec 32) : Int × Bool :=
  match d32 p with
  | .nan => (0, true)
  | .inf s => (if s then -(2 ^ 63 - 1) else 2 ^ 63 - 1, true)
  | .num s m e b =>
    let v := (Ev.num s m (e + exp) b).rne
    if 2 ^ 63 - 1 < v then (2 ^ 63 - 1, true)
    else if v < -(2 ^ 63 - 1) then (-(2 ^ 63 - 1), true)
    else (v, false)

/-- The FP32 elements of a list of words, in order. -/
def f32s (l : List Word) : List (BitVec 32) := l.flatMap (fun w => [w.extractLsb' 0 32, w.extractLsb' 32 32])

/-- Two 32-bit elements packed into each word. -/
def pack32 : List (BitVec 32) → List Word
  | [] => []
  | [a] => [a.zeroExtend 64]
  | a :: b :: l => ((b.zeroExtend 64 <<< 32) ||| a.zeroExtend 64) :: pack32 l

/-- The result of an ADD_FX over good words: new words and saturations. -/
def addFixed (exp : Int) (old operand : List Word) : List Word × Nat :=
  let v := (f32s operand).map (toFixed exp)
  (List.zipWith (fun a x => a + BitVec.ofInt 64 x.1) old v, v.countP (·.2))

/-! ### POOL (R90) -/

/-- The partial of no rows. -/
def emptyPartial (acc elems : Nat) : Partial :=
  if acc = 0 then .fps (List.replicate elems 0) else .ints (List.replicate elems 0)

/-- Element-wise sum of partials. -/
def Partial.add : Partial → Partial → Partial
  | .ints a, .ints b => .ints (List.zipWith (· + ·) a b)
  | .fps a, .fps b => .fps (List.zipWith f32add a b)
  | p, _ => p

/-- A row's contribution to a partial. -/
def rowPartial (cb : CbView) (acc src elems : Nat) (h : Word) (payload : List Byte) : Partial :=
  if acc = 0 then .fps ((List.range elems).map (fun x => elemF32 cb (hdrScale h) src (elemRaw payload src x)))
  else .ints ((List.range elems).map (fun x => elemInt cb src (elemRaw payload src x)))

/-- R90: the row is excluded and counted as mismatched. -/
def rowMismatch (acc src cbId : Nat) (h : Word) : Bool :=
  hdrFormat h != src || (isCb src && hdrCodebook h != cbId) || (acc != 0 && hdrScale h != 0)

/-- What a POOL has summed so far. -/
structure PoolSum where
  part       : Partial
  pooled     : Nat
  mismatched : Nat
  poison     : Bool
deriving DecidableEq, Repr

/-- Add a row, as its words arrive; a poisoned row is pooled whatever its header (R101, R113). -/
def PoolSum.row (a : PoolSum) (cb : CbView) (cbId acc src elems : Nat) (l : List PWord) : PoolSum :=
  let a := { a with poison := a.poison || anyPoison l }
  let h := wd (pdata l) 0
  if !anyPoison l && rowMismatch acc src cbId h then { a with mismatched := a.mismatched + 1 }
  else
    let r := rowPartial cb acc src elems h (pbytes (l.drop 1))
    { a with pooled := a.pooled + 1, part := if a.pooled = 0 then r else a.part.add r }

/-- A permutation of a list chosen by a number: the order in which reads complete where none is given (R90). -/
def permute {α : Type} : Nat → Nat → List α → List α
  | 0, _, l => l
  | fuel + 1, n, l =>
    match l[n % max l.length 1]? with
    | none => l
    | some x => x :: permute fuel (n / max l.length 1) (l.eraseIdx (n % max l.length 1))

/-- The words of a partial (R91): the low bits of integers, or FP32 patterns; all poison where a row was. -/
def partialWords (acc : Nat) (p : Partial) (poison : Bool) : List PWord :=
  let l := match p with
    | .fps l => pack32 l
    | .ints l => if acc = 0x5 then pack32 (l.map (BitVec.ofInt 32)) else l.map (BitVec.ofInt 64)
  l.map (fun w => if poison then PWord.bad else PWord.good w)

/-- The trailer word of a POOL response (R91). -/
def poolTrailer (a : PoolSum) : Word := at_ 63 48 a.pooled ||| at_ 47 32 a.mismatched ||| at_ 31 31 (b2n a.poison)

/-! ### Lines in channel queues (R66) -/

/-- The local offsets of the rows that a POOL lists. -/
def poolRows (p : AdderPkt) (operand : List PWord) : List Nat :=
  ((pdata operand).drop (cbBlockWords p.src)).map (fun w => paOff (fld w 55 0))

/-- The 64-byte lines of a request. -/
def ChReq.lines (r : ChReq) : List Nat :=
  let p := parseAdder r.hdr0 r.hdr1
  if r.kind = .adder ∧ p.op = opPool then (poolRows p r.data).flatMap (fun a => linesOf a p.len)
  else linesOf r.pa r.len

/-- Two requests share a line. -/
def ChReq.shares (a b : ChReq) : Bool := a.lines.any (fun l => b.lines.contains l)

/-- Some of these lines of local DRAM belong to requests that wait in a channel's queue. -/
def State.busyLines (s : State) (l : List Nat) : Bool :=
  l.any (fun a => (s.chan (s.channel a)).queue.any (fun r => r.lines.contains a))

/-- An LC access that must wait behind such requests raises the BE ones among them (R66). -/
def raiseLines (s : State) (lc : Bool) (l : List Nat) : State :=
  if lc then
    let up := fun (r : ChReq) => if l.any r.lines.contains && !r.lc then { r with raised := true } else r
    forL ((l.map s.channel).dedup) (fun c s => upChan s c (fun x => { x with queue := x.queue.map up })) s
  else s

/-- Integers of a partial as two's complement of the accumulator's width (R87). -/
def wrapPartial (acc : Nat) : Partial → Partial
  | .ints l => .ints (l.map (fun i => if acc = 0x5 then (BitVec.ofInt 32 i).toInt else (BitVec.ofInt 64 i).toInt))
  | p => p

end Sys2Proof.Machine
end

