-- ==== Sys2Proof/Machine/Adder.lean ====
section
/-!
DEFINITION. Channel controllers (chapter 03): their queues, the requests they serve, the channel adders, refresh,
scrub and what their hedge wardens apply; and Hedgerow packets (chapter 01).
-/
namespace Sys2Proof.Machine

/-! ### The queue of a channel controller (R64 to R66) -/

/-- Entries of a class. -/
def Chan.count (c : Chan) (lc : Bool) : Nat := c.queue.countP (fun r => r.lc == lc)

/-- An entry is free for the class: 48 for either, 16 more for LC (R64). -/
def Chan.room (c : Chan) (lc : Bool) : Bool :=
  decide (c.count false + (c.count true - 16) < 48) || (lc && decide (c.count true < 16))

/-- Put a request into the queue; an LC request raises the BE requests it must wait behind (R66).  LC requests are taken to
fill the reserved entries first, so that LC_Q_HWM is at most 16 (R92; log entry 99). -/
def enqueue (s : State) (c : Nat) (r : ChReq) : State :=
  upChan s c (fun x =>
    let q := if r.lc then x.queue.map (fun e => if e.shares r && !e.lc then { e with raised := true } else e)
      else x.queue
    let x := { x with queue := q ++ [r] }
    { x with beHwm := max x.beHwm (x.count false), lcHwm := max x.lcHwm (min 16 (x.count true)) })

/-- The requests that no earlier request on the same line holds up (R66), with their places. -/
def servable (q : List ChReq) : List (ChReq × Nat) :=
  q.zipIdx.filter (fun e => !(q.take e.2).any (fun d => d.shares e.1))

/-- The request has LC priority (R65, R66). -/
def ChReq.urgent (r : ChReq) : Bool := r.lc || r.raised

/-- The channel owes service to an LC request, or to one raised to it. -/
def Chan.urgent (c : Chan) : Bool := (servable c.queue).any (fun e => e.1.urgent)

/-- The request of a kind to serve, in order: while an LC or raised one of any kind can be served, only such a one
(R65, R66; log entry 21). -/
def Chan.pick (c : Chan) (p : ChReq → Bool) : Option (ChReq × Nat) :=
  (servable c.queue).find? (fun e => p e.1 && (!c.urgent || e.1.urgent))

/-- The job a request belongs to: the one it names, or the one whose CID it carries (R399). -/
def reqOwner (s : State) (r : ChReq) : Option Owner :=
  let mine := fun (j : Job) => j.status.isNone && (match r.job with
    | some id => j.id == id
    | none => r.cid != 0 && j.cid == r.cid)
  (s.jobs.find? mine).map (fun j => ⟨j.id, 0xFFFF, j.cid, j.lc, j.repro⟩)

/-- The owner, or firmware. -/
def reqOwnerD (s : State) (r : ChReq) : Owner := (reqOwner s r).getD ⟨0, 0xFFFF, r.cid, r.lc, false⟩

/-- A request fails with a job fault of its owner (R86, R353); one of a job that has ended is discarded (R69). -/
def reqFail (s : State) (r : ChReq) (st : Status) : State :=
  match reqOwner s r with
  | none => s
  | some o => jobFault s o st (BitVec.ofNat 64 (mkPa s.moduleNo 0 r.pa)) (s.channel r.pa)

/-- A request that the Privet check refuses (R353). -/
def reqPrivet (s : State) (r : ChReq) (off : Nat) : State :=
  match reqOwner s r with
  | none => s
  | some o => privetFail s o (mkPa s.moduleNo 0 off)

/-- The flits of a packet with these words: 16 words a flit, SEQ from 0, LAST on the final one (R18, R19). -/
def packetFlits (tag : Word) (seq : Nat) : Nat → List PWord → List (Word × List PWord)
  | 0, _ => []
  | fuel + 1, l =>
    if l.length ≤ 16 then [(tag ||| at_ 15 10 seq ||| at_ 9 9 1, l)]
    else (tag ||| at_ 15 10 seq, l.take 16) :: packetFlits tag (seq + 1) fuel (l.drop 16)

/-- The tag of a response of channel c: from its hedge node, of KIND 0x4 with data and 0x5 without, on the class's VC, with
the request's CID and transaction (R18). -/
def responseTag (c : Nat) (r : ChReq) (dest txn : Nat) (data : Bool) : Word :=
  at_ 63 57 dest ||| at_ 56 50 (72 + c / 64) ||| at_ 49 48 (b2n r.lc) ||| at_ 47 36 r.cid.toNat |||
    at_ 35 32 (if data then 4 else 5) ||| at_ 31 16 txn

/-- A response packet of channel c. -/
def responsePacket (c : Nat) (r : ChReq) (dest txn : Nat) (data : List PWord) : Output :=
  .response (packetFlits (responseTag c r dest txn (data != [])) 0 33 data)

/-- Send the response to whoever asked by packet. -/
def reply (s : State) (c : Nat) (r : ChReq) (data : List PWord) : State :=
  match r.reply with
  | .packet src txn => emit s (responsePacket c r src txn data)
  | _ => s

/-- Serve the request that `p` admits: it leaves the queue, and `f` performs it. -/
def serve (s : State) (c : Nat) (p : ChReq → Bool) (f : ChReq → State → State) : State :=
  whenPowered s fun s =>
    match (s.chan c).pick p with
    | none => s
    | some (r, i) => f r (upChan s c (fun x => { x with queue := x.queue.eraseIdx i }))

/-! ### Reads and writes (R67, R75, R77) -/

/-- A command/address retry that failed is counted (R77). -/
def countUe (s : State) (c : Nat) : State := upChan s c (fun x => { x with ueCount := x.ueCount + 1 })

/-- Lines become poison (R77). -/
def spoilLines (s : State) (l : List Nat) : State := forL l (fun a s => dramPut s a (List.replicate 8 PWord.bad)) s

/-- R67: a read. -/
def readReq (c : Nat) (ca : CaParity) (r : ChReq) (s : State) : State :=
  if !s.privetOk r.cid 0 r.pa false then reqPrivet s r r.pa
  else if ca = .failed then
    reply (countUe s c) c r (List.replicate (r.len / 8) PWord.bad)
  else reply (dramTouch s r.pa r.len) c r (s.dramWords (r.pa / 8) (r.len / 8))

/-- R67: a write; where its retry fails too, its target lines become poison (R77). -/
def writeReq (c : Nat) (ca : CaParity) (r : ChReq) (s : State) : State :=
  if !s.privetOk r.cid 0 r.pa true then reqPrivet s r r.pa
  else if ca = .failed then
    reply (spoilLines (countUe s c) r.lines) c r []
  else reply (dramPut s r.pa r.data) c r []

/-! ### The adder (R86 to R91) -/

/-- One element of a word at byte 0 or 4: read, and replaced. -/
def half (hi : Bool) (w : Word) : BitVec 32 := if hi then w.extractLsb' 32 32 else w.extractLsb' 0 32
def setHalf (hi : Bool) (w : Word) (v : BitVec 32) : Word :=
  if hi then (v.zeroExtend 64 <<< 32) ||| (w.extractLsb' 0 32).zeroExtend 64
  else (w.extractLsb' 32 32).zeroExtend 64 <<< 32 ||| v.zeroExtend 64

/-- Element i of the target of an operation, and the words with it replaced. -/
def laneElem (acc : Nat) (l : List Word) (i : Nat) : Word :=
  if acc = 0xC then wd l i else (half (i % 2 == 1) (wd l (i / 2))).zeroExtend 64
def setLane (acc : Nat) (l : List Word) (i : Nat) (v : Word) : List Word :=
  if acc = 0xC then updAt l i (fun _ => v)
  else updAt l (i / 2) (fun w => setHalf (i % 2 == 1) w (v.extractLsb' 0 32))

/-- What a wrong sum leaves of one addition: none where the residue shows it (R397, R398). -/
def wrongAdd (acc : Nat) (a b : Word) (v : Int) : Option Word :=
  match acc with
  | 0x0 => (wrongSig ((d32 (a.extractLsb' 0 32)).add (d32 (b.extractLsb' 0 32))) v).map (fun x => (r32 x).zeroExtend 64)
  | 0x5 => (wrongInt 32 (a.extractLsb' 0 32).toInt (b.extractLsb' 0 32).toInt v).map (·.zeroExtend 64)
  | _ => wrongInt 64 a.toInt b.toInt v

/-- FETCH_ADD on one word: the new word and the old element.  The spec does not place a 4-byte element in its operand word or
in the data response: it is taken from the low half, and returned there with zeros above (log entry 100). -/
def fetchAdd (acc : Nat) (hi : Bool) (w x : Word) : Word × Word :=
  if acc = 0xC then (w + x, w)
  else
    let v := half hi w
    let n := if acc = 0 then f32add v (x.extractLsb' 0 32) else v + x.extractLsb' 0 32
    (setHalf hi w n, v.zeroExtend 64)

/-- Perform an adder operation other than POOL on local DRAM: the state, and the response's data. -/
def adderDo (s : State) (p : AdderPkt) (off : Nat) (operand : List PWord) : State × List PWord :=
  let n := p.len / 8
  let old := s.dramWords (off / 8) n
  let one := s.dramWord (off / 8)
  let x := wd (pdata operand) 0
  let spoil := anyPoison operand
  let bads := List.replicate n PWord.bad
  match p.op with
  | 1 =>
    let s := dramTouch s off p.len
    if spoil || anyPoison old then (dramPut s off bads, [])
    else (dramPut s off ((List.zipWith (addWord p.acc) (pdata old) (pdata operand)).map .good), [])
  | 2 =>
    let s := dramTouch s off p.len
    let v := addFixed p.exp (pdata old) (pdata operand)
    let s := upChan s (s.channel off) (fun c => { c with fxSat := c.fxSat + v.2 })
    if spoil || anyPoison old then (dramPut s off bads, []) else (dramPut s off (v.1.map .good), [])
  | 3 =>
    let s := dramTouch s off 8
    if one.poison then (dramPut s (off / 8 * 8) [PWord.bad], [PWord.bad])
    else
      let v := fetchAdd p.acc (off % 8 == 4) one.data x
      (dramPut s (off / 8 * 8) [if spoil then PWord.bad else .good v.1], [.good v.2])
  | 4 => (dramPut (dramTouch s off 8) off (operand.take 1), [one])
  | 5 =>
    let s := dramTouch s off 8
    let hit := !one.poison && !((operand.getD 0 PWord.bad).poison) && one.data == x
    (if hit then dramPut s off [operand.getD 1 PWord.bad] else s, [one])
  | 6 => (dramPut s off (List.replicate n (.good 0)), [])
  | _ => (s, [])

/-- An adder operation on an extent that may meet several units: one operation in each (R63). -/
def adderSplit (s : State) (p : AdderPkt) (off : Nat) (operand : List PWord) : State :=
  ((s.extentUnits off p.len).foldl (fun (x : State × List PWord) e =>
    let k := if p.op = opAddFx then e.2 / 16 else e.2 / 8
    ((adderDo x.1 { p with len := e.2 } e.1 (x.2.take k)).1, x.2.drop k)) (s, operand)).1

/-- The operands of the addition that an operation makes in an element: its old value, and what is added. -/
def addOperands (s : State) (p : AdderPkt) (off : Nat) (operand : List PWord) (lane : Nat) : Word × Word :=
  let old := pdata (s.dramWords (off / 8) (p.len / 8))
  let x := pdata operand
  if p.op = opAddFx then (wd old lane, BitVec.ofInt 64 (toFixed p.exp ((f32s x).getD lane 0)).1)
  else if p.op = opFetchAdd then
    (if p.acc = 0xC then wd old 0 else (half (off % 8 == 4) (wd old 0)).zeroExtend 64, laneElem p.acc x 0)
  else (laneElem p.acc old lane, laneElem p.acc x lane)

/-- A sum that the adder gets wrong (R397): none where its residue shows it, else the words of the extent with that sum. -/
def adderWrong (s : State) (p : AdderPkt) (off : Nat) (operand : List PWord) (b : WrongSum) :
    Option (List Word → List Word) :=
  let lane := if p.op = opFetchAdd then (if p.acc ≠ 0xC ∧ off % 8 = 4 then 1 else 0) else b.lane
  let x := addOperands s p off operand lane
  (wrongAdd p.acc x.1 x.2 b.value).map (fun v l => setLane p.acc l lane v)

/-- Write a wrong sum that no residue shows over the right one, in words that are not poison. -/
def patchWords (f : List Word → List Word) (off n : Nat) (s : State) : State :=
  let l := s.dramWords (off / 8) n
  if anyPoison l then s else dramPut s off ((f (pdata l)).map .good)

/-- Serve an adder operation with a target; one whose command/address retry fails leaves its lines poison (R77). -/
def adderReq (c : Nat) (ca : CaParity) (bad : Option WrongSum) (r : ChReq) (s : State) : State :=
  let p := parseAdder r.hdr0 r.hdr1
  if !s.privetOk r.cid 0 r.pa true then reqPrivet s r r.pa
  else if ca = .failed then
    reply (spoilLines (countUe s c) r.lines) c r (if p.single then [PWord.bad] else [])
  else
    let done := fun (f : State → State) =>
      let (t, data) := adderDo s p r.pa r.data
      reply (f t) c r data
    match bad with
    | none => done id
    | some b =>
      match adderWrong s p r.pa r.data b with
      | none => arithFault s (reqOwnerD s r) unitAdder (c / 64) b.lane (BitVec.ofNat 64 (mkPa s.moduleNo 0 r.pa))
      | some f => done (patchWords f r.pa (if p.single then 1 else p.len / 8))

/-- Serve a CAS: its compare is made twice, and two outcomes that differ are a mismatch (R397). -/
def casReq (c : Nat) (ca : CaParity) (bad : Bool) (r : ChReq) (s : State) : State :=
  if bad && ca != .failed && s.privetOk r.cid 0 r.pa true then
    arithFault s (reqOwnerD s r) unitAdder (c / 64) 0 (BitVec.ofNat 64 (mkPa s.moduleNo 0 r.pa))
  else adderReq c ca none r s

/-- The codebook block of a POOL operand: id and view (R90). -/
def poolCb (p : AdderPkt) (operand : List PWord) : Nat × CbView :=
  let n := cbBlockWords p.src
  let l := pdata (operand.take n)
  let last := wd l (n - 1)
  (fld last 43 32, { entries := wordsBytes (l.take (n - 1)), scale := last.extractLsb' 0 32 })

/-- Read and sum the rows of a POOL (R90). -/
def poolDo (s : State) (p : AdderPkt) (operand : List PWord) (order : Nat) : State × PoolSum :=
  let rows := poolRows p operand
  let rows := if p.ordered then rows else permute rows.length order rows
  let (id, cb) := poolCb p operand
  let n := rowWords p.src p.elems
  let z : PoolSum := { part := emptyPartial p.acc p.elems, pooled := 0, mismatched := 0, poison := false }
  let a := rows.foldl (fun a off => a.row cb id p.acc p.src p.elems (s.dramWords (off / 8) n)) z
  (forL rows (fun off s => dramTouch s off (8 * n)) s, { a with part := wrapPartial p.acc a.part })

/-- Split a response into packets of at most 4 KiB (R91). -/
def packets : Nat → List PWord → List (List PWord)
  | 0, _ => []
  | n + 1, l => if l.length ≤ 512 then [l] else l.take 512 :: packets n (l.drop 512)

/-- The first row of a POOL that reaches into a region closed to the requester (R353). -/
def State.poolStop (s : State) (cid : BitVec 12) (n : Nat) (rows : List Nat) : Option Nat :=
  rows.findSome? (fun off => ([off, off + n - 1]).find? (fun a => !s.privetOk cid 0 a false))

/-- A wrong sum in element `lane` of a partial (R397): none where its residue shows it. -/
def Partial.wrong (p : Partial) (b : WrongSum) : Option Partial :=
  match p with
  | .ints l => if res7 (l.getD b.lane 0) = res7 b.value then some (.ints (updAt l b.lane (fun _ => b.value))) else none
  | .fps l => (wrongSig (d32 (l.getD b.lane 0)) b.value).map (fun x => .fps (updAt l b.lane (fun _ => r32 x)))

/-- A POOL whose reads all come as poison (R77, R91). -/
def poolSpoiled (p : AdderPkt) (rows : Nat) : PoolSum :=
  { part := emptyPartial p.acc p.elems, pooled := rows, mismatched := 0, poison := true }

/-- Deliver the partial of a POOL: to a hedge combiner, or by packets with its trailer (R91). -/
def poolAnswer (c : Nat) (r : ChReq) (p : AdderPkt) (a : PoolSum) (s : State) : State :=
  match r.reply with
  | .packet src txn =>
    let l := partialWords p.acc a.part a.poison ++ [.good (poolTrailer a)]
    forL (packets 4 l) (fun d s => emit s (responsePacket c r src txn d)) s
  | .pool piece seq =>
    let k : Contrib := { order := (c, seq, 0), part := a.part, pooled := a.pooled, mismatched := a.mismatched,
                         poison := a.poison }
    { s with pieces := updFirst (fun q => q.id == piece) (fun q => { q with got := q.got ++ [(seq, k)] }) s.pieces }
  | .nobody => s

/-- Serve a POOL: its partial goes back to a hedge combiner, or by packet with its trailer. -/
def poolReq (c : Nat) (ca : CaParity) (bad : Option WrongSum) (r : ChReq) (s : State) : State :=
  let p := parseAdder r.hdr0 r.hdr1
  let rows := poolRows p r.data
  match s.poolStop r.cid (8 * rowWords p.src p.elems) rows with
  | some off => reqPrivet s r off
  | none =>
    if ca = .failed then poolAnswer c r p (poolSpoiled p rows.length) (countUe s c)
    else
      let (order, s) := if p.ordered then (0, s) else takeFree s
      let (s, a) := poolDo s p r.data order
      match bad with
      | none => poolAnswer c r p a s
      | some b =>
        match a.part.wrong b with
        | none => arithFault s (reqOwnerD s r) unitAdder (c / 64) b.lane
            (BitVec.ofNat 64 (mkPa s.moduleNo 0 (rows.headD 0)))
        | some part => poolAnswer c r p { a with part := part } s

/-- A request is the adder operation `op`. -/
def isOp (op : Nat) (r : ChReq) : Bool := r.kind == .adder && (parseAdder r.hdr0 r.hdr1).op == op

end Sys2Proof.Machine
end

