-- ==== Sys2Proof/Machine/FabricOps.lean ====
section
/-!
DEFINITION. The fabric configuration record and the sending side of Lanea (chapter 18): fields, checks, credits,
channel restart and transmission.
-/
namespace Sys2Proof.Machine

/-! ### The fabric configuration record (R530, R534, R535) -/

def recMode (r : List Byte) (o : Nat) : Nat := nbits (leAt r 2 2) (2 * o + 1) (2 * o)
def recMask (r : List Byte) : Nat := leAt r 6 8
def recPtp (r : List Byte) : Nat := leAt r 24 8
def recPortMask (r : List Byte) (m : Nat) : Nat := leAt r (800 + 32 * m) 4
def recFlash (k : Nat) : Nat := 2848 + 288 * k
def recFlashValid (r : List Byte) (k : Nat) : Bool := leAt r (recFlash k) 1 == 1
def recCrc (r : List Byte) : Nat := leAt r 7456 4

/-- The ports that the octet modes create (Table — octet modes). -/
def portExists (r : List Byte) (p : Nat) : Bool :=
  match recMode r (p / 4) with
  | 0 => false
  | 1 => p % 4 == 0
  | 2 => p % 2 == 0
  | _ => true

/-- Every port that a mask names exists. -/
def maskExists (r : List Byte) (mask : Nat) : Bool :=
  (List.range 32).all (fun p => !mask.testBit p || portExists r p)

/-- The bytes of a range are all 0. -/
def zeros (r : List Byte) (p n : Nat) : Bool := leAt r p n == 0

/-- R535: the record is accepted. -/
def recordOk (s : State) (r : List Byte) : Bool :=
  let ptp := recPtp r
  let role := nbits ptp 1 0
  let sync := signed 8 (nbits ptp 39 32)
  decide (r.length = 7460) && decide ((crc32c (r.take 7456)).toNat = recCrc r) && decide (leAt r 0 2 = 1) &&
  (List.range 8).all (fun o => decide (8 * o < s.lanes) || recMode r o == 0) &&
  decide (leAt r 4 1 < 64) && decide (leAt r 5 1 < 2) && (recMask r).testBit (leAt r 4 1) &&
  decide (leAt r 16 2 ≤ 4094) && decide (leAt r 18 2 < 512) &&
  (List.range 4).all (fun i => decide (leAt r (20 + i) 1 < 64)) &&
  (role != 3 && nbits ptp 7 2 == 0 && nbits ptp 23 21 == 0 && nbits ptp 31 29 == 0 && nbits ptp 63 40 == 0) &&
  decide (-7 ≤ sync ∧ sync ≤ 0) &&
  (role == 0 || (portExists r (nbits ptp 20 16) &&
    (nbits ptp 28 24 == 31 || portExists r (nbits ptp 28 24)))) &&
  (List.range 32).all (fun i => zeros r (32 + 24 * i + 22) 2) &&
  (List.range 64).all (fun m =>
    zeros r (800 + 32 * m + 26) 6 && maskExists r (recPortMask r m) &&
    (!(recMask r).testBit m || m == leAt r 4 1 || recPortMask r m != 0)) &&
  (List.range 16).all (fun k =>
    decide (leAt r (recFlash k) 1 < 2) && maskExists r (leAt r (recFlash k + 1) 4) &&
    zeros r (recFlash k + 258) 30 && (s.fGrade || !recFlashValid r k))

/-! ### Peers, channels and credits (R538, R541, R547, R553) -/

def State.peer (s : State) (m : Nat) : Peer := Tbl.get {} s.fab.peers m
def upPeer (s : State) (m : Nat) (f : Peer → Peer) : State :=
  { s with fab := { s.fab with peers := Tbl.upd {} s.fab.peers m f } }

/-- The key of the channel pair with a peer in a class. -/
def chanKey (m : Nat) (lc : Bool) : Nat := 2 * m + b2n lc
def State.lchan (s : State) (m : Nat) (lc : Bool) : LChan := Tbl.get {} s.fab.chans (chanKey m lc)
def upLchan (s : State) (m : Nat) (lc : Bool) (f : LChan → LChan) : State :=
  { s with fab := { s.fab with chans := Tbl.upd {} s.fab.chans (chanKey m lc) f } }

/-- The number of modules of the domain. -/
def State.domainSize (s : State) : Nat := (List.range 64).countP (fun m => s.domainMask.testBit m)

/-- The other modules of the domain. -/
def State.peerList (s : State) : List Nat :=
  (List.range 64).filter (fun m => s.domainMask.testBit m && m != s.moduleNo)

/-- The grant G0 of a class (R547). -/
def State.grant (s : State) (lc : Bool) : Nat :=
  if s.domainSize ≤ 1 then 0 else if lc then 16 else min 1024 (3584 / (s.domainSize - 1) - 16)

/-- The up ports of a peer's PORT_MASK (R537, R538). -/
def State.upPorts (s : State) (m : Nat) : List Nat :=
  (List.range 32).filter (fun p => (recPortMask s.fab.applied m).testBit p && (s.port p).up)

/-- The fabric edge has a path to a module (R538). -/
def State.hasPath (s : State) (m : Nat) : Bool :=
  s.domainMask.testBit m && m != s.moduleNo && (s.peer m).reachable && !(s.upPorts m).isEmpty

/-- EV_FABRIC_LINK (R568). -/
def fabricEvent (s : State) (cause port peer : Nat) : State :=
  raiseEvent s evFabricLink 0 (at_ 63 56 cause ||| at_ 55 48 port ||| at_ 47 40 peer) 0 0

/-- A channel pair of one class as it starts (R548, R553). -/
def State.freshChan (s : State) (lc : Bool) : LChan := { held := s.grant lc, started := true }

/-- What this module does for a peer's requests is dropped with their slots (R553). -/
def dropPeerWork (s : State) (m : Nat) : State :=
  let mine := fun (b : Bag) => match b.home with
    | some (p, _, _) => p == m
    | none => false
  let ids := (s.bags.filter mine).map (·.id)
  { s with
    bags := s.bags.filter (fun b => !mine b)
    pieces := s.pieces.filter (fun p => !ids.contains p.bag)
    upd := { s.upd with heldGrads := s.upd.heldGrads.filter (fun g => g.peer != m) }
    xl := { s.xl with waiting := s.xl.waiting.filter (fun t =>
      !((match t.bag with
         | some (id, _) => ids.contains id
         | none => false) || (t.owner.job == 0 && t.bag.isNone && t.owner.idx / 65536 == m))) } }

/-- Restart the channel pairs with a peer (R553); a job whose request is discarded has ended (R538, R340), or ends now. -/
def restartPeer (s : State) (m : Nat) : State :=
  let s := forL ((s.fab.reqs.filter (fun r => r.peer == m)).filterMap (·.owner)) (fun o s =>
    if s.lives o.job then failJob s o stUnmapped else s) s
  let s := upLchan s m true (fun _ => s.freshChan true)
  let s := upLchan s m false (fun _ => s.freshChan false)
  let s := upPeer s m (fun p => { p with censusSeq := 0, auditLc := none, auditBe := none })
  let s := { s with fab := { s.fab with
    reqs := s.fab.reqs.filter (fun r => r.peer != m)
    ports := s.fab.ports.map (fun e => (e.1, { e.2 with tx := e.2.tx.filter (fun f => f.peer != m) })) } }
  fabricEvent (dropPeerWork s m) flRestart 0xFF m

/-! ### Measurements (R577 to R580) -/

/-- Extend MRn with an entry. -/
def extendMr (s : State) (n : Nat) (type : BitVec 16) (detail : Word) (digest : List Byte) : State :=
  let v := Config.shake256 (s.sec.mr.getD n [] ++ leBytes 2 type.toNat ++ digest)
  let e : LogEntry := ⟨s.sec.log.length, type, s.tickerW, s.time.wallValid, s.time.powerUps, detail, digest⟩
  let full := decide (4096 ≤ s.sec.log.length)
  { s with sec := { s.sec with
    mr := updAt s.sec.mr n (fun _ => v)
    log := if full then s.sec.log else s.sec.log ++ [e]
    logLost := s.sec.logLost + b2n full } }

/-- Apply the stored fabric record (R536): measure it, restart every channel, post the event; a PTP master's state holds from
here, and without a slave's role DOMAIN_OFFSET and RATE_TRIM are 0 (R561). -/
def applyFabric (s : State) : State :=
  let r := s.flash.fabric
  if r = [] then s
  else
    let role := nbits (recPtp r) 1 0
    let time := if role = 2 then { s.time with ptpState := 0 }
      else { s.time with ptpState := if role = 1 then 2 else 0, domainOffset := 0, rateTrim := 0 }
    let s := { s with
      fab := { s.fab with
        applied := r
        ports := s.fab.ports.filter (fun e => portExists r e.1)
        ptpGood := 0, ptpLastSync := 0 }
      flash := { s.flash with fabricPending := false }
      time := time }
    let s := extendMr s 5 0x0006 (BitVec.ofNat 64 (recCrc r)) (Config.shake256 r)
    let s := forL s.peerList (fun m s => restartPeer s m) s
    fabricEvent s flApplied 0xFF 0xFF

/-! ### Sending -/

/-- The next up port in turn for a peer (R543), and the state after the turn passes on. -/
def pickPort (s : State) (m : Nat) : Nat × State :=
  let l := s.upPorts m
  let p := l.getD ((s.peer m).nextPort % max l.length 1) 0
  (p, upPeer s m (fun q => { q with nextPort := q.nextPort + 1 }))

/-! ### Frames at a port (R555) -/

/-- A frame's place in the strict priority: link control, then LC, then BE. -/
def TxFrame.rank (f : TxFrame) : Nat := if fld f.w0 55 54 = 2 then 0 else if fld f.w0 55 54 = 1 then 1 else 2

/-- The frame that leaves a port next: link control, unless one has left in the last 15 frame times (log entry 120), then the
oldest LC frame, then the oldest BE frame. -/
def Port.next (q : Port) : Option TxFrame :=
  match if q.ctlGap = 0 then q.tx.find? (fun f => f.rank == 0) else none with
  | some f => some f
  | none =>
    match q.tx.find? (fun f => f.rank == 1) with
    | some f => some f
    | none => q.tx.find? (fun f => f.rank == 2)

/-- The headers of a frame to its peer on a port (R532, R537), by its class. -/
def State.netHdr (s : State) (p : Nat) (f : TxFrame) : NetHdr :=
  let r := s.fab.applied
  let cls := f.rank
  { vid := leAt r 16 2, pcp := if cls = 0 then nbits (leAt r 18 2) 8 6 else if cls = 1 then nbits (leAt r 18 2) 5 3
      else nbits (leAt r 18 2) 2 0
    srcMac := slice r (32 + 24 * p + 16) 6, dstMac := slice r (800 + 32 * f.peer + 20) 6
    srcIp := slice r (32 + 24 * p) 16, dstIp := slice r (800 + 32 * f.peer + 4) 16
    dscp := leAt r (if cls = 0 then 22 else if cls = 1 then 21 else 20) 1, udp := leAt r 14 2 }

/-- The poison map of a payload: bit i for word i (R546). -/
def poisonMap (l : List PWord) : List Byte :=
  leBytes 64 (((List.range 512).map (fun i => b2n (l.getD i (.good 0)).poison * 2 ^ i)).sum)

/-- The ICRC: over the header, most significant byte first, the payload and the poison map (R539, R540). -/
def TxFrame.icrc (f : TxFrame) : BitVec 32 :=
  crc32c ([f.w0, f.w1, f.w2, f.w3].flatMap (fun w => (wordBytes w).reverse) ++ wordsBytes (pdata f.payload) ++
    if bit f.w0 52 then poisonMap f.payload else [])

/-- A frame as it leaves a port. -/
def State.laneaFrame (s : State) (p : Nat) (f : TxFrame) : Output :=
  .lanea f.peer p (s.netHdr p f) f.w0 f.w1 f.w2 f.w3 f.payload f.icrc

/-- At a frame boundary, a port sends the frame that comes next. -/
def portGo (s : State) (p : Nat) : State :=
  let q := s.port p
  match if q.sent then none else q.next with
  | none => s
  | some f =>
    emit (upPort s p (fun q => { q with
      tx := dropFirst (· == f) q.tx
      sent := true
      ctlGap := if f.rank = 0 then 15 else q.ctlGap
      txFrames := q.txFrames + 1 })) (s.laneaFrame p f)

/-- A frame joins those that wait at a port; an ACK or a CREDIT takes the place of one to the same peer that still waits, since
each is cumulative (R542). -/
def joinTx (f : TxFrame) (l : List TxFrame) : List TxFrame :=
  let same := fun (x : TxFrame) => x.w0 == f.w0 && (fld f.w0 59 56 == 6 || fld f.w0 59 56 == 8)
  if l.any same then updFirst same (fun _ => f) l else l ++ [f]

/-- Give a port a frame to send. -/
def portPut (s : State) (p : Nat) (f : TxFrame) : State :=
  portGo (upPort s p (fun q => { q with tx := joinTx f q.tx })) p

/-- The next frame time of a port. -/
def portSlot (p : Nat) (s : State) : State :=
  portGo (upPort s p (fun q => { q with sent := false, ctlGap := q.ctlGap - 1 })) p

/-- What passes with no command waiting: one reference cycle, in which each port has time for one frame (log entries 1, 120). -/
def idle (s : State) : State :=
  if s.powered then forL (s.fab.ports.map (·.1)) portSlot (tick s) else tick s

/-- Put a frame on the wire; while every port of the peer is down, nothing leaves. -/
def wire (s : State) (m : Nat) (w0 w1 w2 w3 : Word) (payload : List PWord) : State :=
  if (s.upPorts m).isEmpty then s
  else
    let (p, s) := pickPort s m
    portPut s p ⟨m, w0, w1, w2, w3, payload⟩

/-- Word 0 of a Lanea header (Table — Lanea header). -/
def laneaW0 (s : State) (m kind cls : Nat) (resp : Bool) (cid : BitVec 12) (payload : List PWord) : Word :=
  at_ 63 60 1 ||| at_ 59 56 kind ||| at_ 55 54 cls ||| at_ 53 53 (b2n resp) ||| at_ 52 52 (b2n (anyPoison payload)) |||
  at_ 51 46 s.moduleNo ||| at_ 45 40 m ||| at_ 39 28 cid.toNat ||| at_ 12 0 (8 * payload.length)

/-- The payload on the wire: poisoned words as 0, marked in the poison map (R546). -/
def wirePayload (l : List PWord) : List PWord := l.map (fun p => if p.poison then PWord.bad else p)

/-- Send a message of a channel: the next PSN, kept until acknowledged (R541, R543). -/
def transmit (s : State) (m : Nat) (lc : Bool) (u : Unacked) : State :=
  let psn := (s.lchan m lc).psnTx + 1
  let w1 := (psn.zeroExtend 64 <<< 32) ||| (u.w1 &&& 0xFFFFFFFF)
  let u := { u with psn := psn, w1 := w1, sentAt := s.ticker }
  let s := upLchan s m lc (fun c => { c with psnTx := psn, unacked := c.unacked ++ [u] })
  wire s m u.w0 u.w1 u.w2 u.w3 u.payload

/-- Send a request where its channel holds a credit (R548); else it waits for one. -/
def sendReq (s : State) (m : Nat) (lc : Bool) (kind : Nat) (cid : BitVec 12) (txn : BitVec 16) (w2 w3 : Word)
    (payload : List PWord) : State :=
  let u : Unacked := ⟨0, laneaW0 s m kind (b2n lc) false cid payload, txn.zeroExtend 64 <<< 16, w2, w3,
    wirePayload payload, 0, 0⟩
  if (s.lchan m lc).held = 0 then upLchan s m lc (fun c => { c with waiting := c.waiting ++ [u] })
  else transmit (upLchan s m lc (fun c => { c with held := c.held - 1 })) m lc u

/-- Send a response (R541, R545). -/
def sendResp (s : State) (m : Nat) (lc : Bool) (kind : Nat) (cid : BitVec 12) (txn : BitVec 16) (st : Status)
    (payload : List PWord) : State :=
  transmit s m lc ⟨0, laneaW0 s m kind (b2n lc) true cid payload,
    (txn.zeroExtend 64 <<< 16) ||| st.zeroExtend 64, 0, 0, wirePayload payload, 0, 0⟩

/-- Send ACK: the PSNs received in order, of both classes (R542). -/
def sendAck (s : State) (m : Nat) : State :=
  wire s m (laneaW0 s m 8 2 false 0 []) 0
    (((s.lchan m true).psnRx.zeroExtend 64 <<< 32) ||| (s.lchan m false).psnRx.zeroExtend 64) 0 []

/-- Send CREDIT: the slots emptied, of both classes (R548). -/
def sendCredit (s : State) (m : Nat) : State :=
  wire s m (laneaW0 s m 6 2 false 0 []) 0
    (((s.lchan m true).freed.zeroExtend 64 <<< 32) ||| (s.lchan m false).freed.zeroExtend 64) 0 []

/-- One PSN or count follows or equals another, modulo 2^32. -/
def seqLe (a b : BitVec 32) : Bool := decide ((b - a).toNat < 2 ^ 31)

/-- Drop the messages that a cumulative acknowledgement covers (R542), and complete the requests that an
acknowledgement completes (R544): WRITE (2), ADD in address form without data (3) and in gradient form (4). -/
def ackChan (s : State) (m : Nat) (lc : Bool) (ack : BitVec 32) : State :=
  let done := (s.lchan m lc).unacked.filter (fun u => seqLe u.psn ack)
  let covered := fun (txn : BitVec 16) =>
    done.any (fun u => !bit u.w0 53 && decide (fld u.w1 31 16 = txn.toNat))
  let s := upLchan s m lc (fun c => { c with unacked := c.unacked.filter (fun u => !seqLe u.psn ack) })
  { s with fab := { s.fab with reqs := s.fab.reqs.filter (fun r =>
      !(r.peer == m && r.lc == lc && covered r.txn && (r.kind == 2 || r.kind == 3 || r.kind == 4))) } }

/-- Take in a FREED value: RETURNED becomes it, the difference comes back as credits, and requests that waited for
a credit go (R548). -/
def creditChan (s : State) (m : Nat) (lc : Bool) (freed : BitVec 32) : State :=
  let c := s.lchan m lc
  if seqLe c.returned freed then
    let back := (freed - c.returned).toNat
    let go := c.waiting.take (c.held + back)
    let s := upLchan s m lc (fun c => { c with
      returned := freed, held := c.held + back - go.length, waiting := c.waiting.drop go.length })
    forL go (fun u s => transmit s m lc u) s
  else s

/-- A request has executed: its slot is emptied, and the credit goes back (R548). -/
def slotFreed (s : State) (m : Nat) (lc : Bool) (txn : BitVec 16) : State :=
  sendCredit (upLchan s m lc (fun c => { c with
    freed := c.freed + 1, slots := dropFirst (fun e => e.2 == txn) c.slots })) m

/-- An ADD to this module's arrival word of a parity (R323, R326). -/
def State.addArrival (s : State) (parity : Nat) (x : Word) : State :=
  if parity = 0 then { s with upd := { s.upd with arrive0 := s.upd.arrive0 + x } }
  else { s with upd := { s.upd with arrive1 := s.upd.arrive1 + x } }

/-- The physical address that a request names: READ and WRITE in word 2, ADD in address form in its packet. -/
def requestPa (kind : Nat) (w2 : Word) (payload : List PWord) : Option Nat :=
  match kind with
  | 1 => some w2.toNat
  | 2 => some w2.toNat
  | 3 => some (fld (payload.getD 0 PWord.bad).data 55 0)
  | _ => none

/-- A fresh request to a peer, recorded until it completes. -/
def request (s : State) (m : Nat) (lc : Bool) (kind : Nat) (cid : BitVec 12) (w2 w3 : Word) (payload : List PWord)
    (owner : Option Owner) (bag core : Option Nat) (dst : Nat) : State :=
  let txn := s.fab.nextTxn
  let r : LReq := { txn := txn, peer := m, lc := lc, kind := kind, psn := 0, owner := owner, bag := bag, core := core,
                    dst := dst, pa := requestPa kind w2 payload, got := [] }
  let s := { s with fab := { s.fab with nextTxn := txn + 1, reqs := s.fab.reqs ++ [r] } }
  sendReq s m lc kind cid txn w2 w3 payload

end Sys2Proof.Machine
end

