-- ==== Sys2Proof/Machine/HostLink.lean ====
section
/-!
DEFINITION. The PCIe host link (chapter 17): resets, blocked DMA, IDE streams, MSI-X, ATS and reads of host memory.
-/
namespace Sys2Proof.Machine

/-! ### Reads of host memory (R519, R643) -/

/-- The requests of a read: cut at every multiple of B = min(Max_Read_Request_Size, 4,096) (R643). -/
def cutReads (b : Nat) : Nat → Nat → Nat → List (Nat × Nat × Bool)
  | 0, _, _ => []
  | fuel + 1, a, n =>
    if n = 0 then []
    else
      let k := min n (b - a % b)
      (a, k, false) :: cutReads b fuel (a + k) (n - k)

/-- Start a read of host memory. -/
def startRead (s : State) (fn : Nat) (o : Option Owner) (addr len : Nat) : Nat × State :=
  let b := max 1 (min s.link.mrrs 4096)
  let reqs := cutReads b (len / b + 2) addr len
  let id := s.link.nextRead
  let r : HostRead := { id := id, fn := fn, owner := o, addr := addr, len := len, reqs := reqs, got := [] }
  let s := { s with link := { s.link with reads := s.link.reads ++ [r], nextRead := id + 1 } }
  (id, forL reqs (fun q s => sendAs s fn (.dmaRead fn q.1 q.2.1)) s)

/-- The byte delivered at an address: nothing yet, poison, or a good byte. -/
def HostRead.at (r : HostRead) (a : Nat) : Option (Option Byte) := (r.got.find? (fun e => e.1 == a)).map (·.2)

/-- Every byte of the read has been delivered. -/
def HostRead.done (r : HostRead) : Bool := r.reqs.all (fun q => q.2.2)

/-- The words that a finished read delivers: a word with a poisoned byte is poisoned whole. -/
def HostRead.words (r : HostRead) : List PWord :=
  (List.range (ceilDiv r.len 8)).map (fun i =>
    let l := (List.range (min 8 (r.len - 8 * i))).map (fun j => (r.at (r.addr + 8 * i + j)).getD none)
    if l.contains none then PWord.bad else .good (BitVec.ofNat 64 (leNat (l.filterMap (fun b => b)))))

/-- Deliver bytes at addresses that have none yet. -/
def HostRead.give (r : HostRead) (a : Nat) (l : List (Option Byte)) : HostRead :=
  { r with got := (l.zipIdx).foldl (fun t e =>
      if t.any (fun x => x.1 == a + e.2) then t else t ++ [(a + e.2, e.1)]) r.got }

/-- A request of the read ends once all its bytes are delivered. -/
def HostRead.close (r : HostRead) (i : Nat) : HostRead :=
  { r with reqs := updAt r.reqs i (fun q =>
      (q.1, q.2.1, (List.range q.2.1).all (fun j => (r.at (q.1 + j)).isSome))) }

/-- Request i of the read fails: what it has not delivered is poison (R643). -/
def HostRead.fail (r : HostRead) (i : Nat) : HostRead :=
  match r.reqs[i]? with
  | none => r
  | some q => (r.give q.1 (List.replicate q.2.1 none)).close i

/-- A finished read of a job that has ended is forgotten. -/
def tidyReads (s : State) : State :=
  let gone := fun (r : HostRead) => r.done && (match r.owner with
    | some o => decide (o.job ≠ 0) && !s.lives o.job
    | none => false)
  { s with link := { s.link with reads := s.link.reads.filter (fun r => !gone r) } }

/-- Answer the ATS invalidations whose function has no read outstanding (R523). -/
def answerAts (s : State) : State :=
  let free := fun (e : Nat × Nat) => !s.link.reads.any (fun r => r.fn == e.1 && !r.done)
  let go := s.link.ats.filter free
  let s := { s with link := { s.link with ats := s.link.ats.filter (fun e => !free e) } }
  forL go (fun e s => sendAs s e.1 (.atsDone e.1 e.2)) s

/-- Change one read. -/
def upRead (s : State) (id : Nat) (f : HostRead → HostRead) : State :=
  { s with link := { s.link with reads := updFirst (fun r => r.id == id) f s.link.reads } }

/-- RX_FAILED (Table — host-link status page). -/
def rxFailed (s : State) : State := { s with link := { s.link with rxFailed := s.link.rxFailed + 1 } }

/-- What an admin command does with what it reads of host memory: it waits while its function's DMA is blocked (R521), and a
read that fails counts once in RX_FAILED (log entry 122). -/
def withHost (s : State) (f : FnId) (k : SlotId) (ok : Bool) (go : State → State) : State :=
  if s.blocked f then upMail s (mailKey f k) (fun m => { m with started := false })
  else go (if ok then s else rxFailed s)

/-- R643: a completion for a read of host memory, for its request from byte `offset` on. -/
def execHostReadCompletion (read request offset : Nat) (kind : CplKind) (data : List Byte) (s : State) : Out :=
  .next (whenPowered s fun s =>
    match s.link.reads.find? (fun r => r.id == read) with
    | none => s
    | some r =>
      match r.reqs[request]? with
      | none => s
      | some q =>
        if q.2.2 then s
        else
          let l := data.take (q.2.1 - offset)
          let s := match kind with
            | .good => upRead s read (fun r => (r.give (q.1 + offset) (l.map some)).close request)
            | .ep => rxFailed (upRead s read (fun r => (r.give (q.1 + offset) (l.map (fun _ => none))).close request))
            | .unsupported => rxFailed (upRead s read (fun r => r.fail request))
            | .aborted => rxFailed (upRead s read (fun r => r.fail request))
          tidyReads (answerAts s))

/-- R520, R643: a request of a read times out. -/
def execHostReadTimeout (read request : Nat) (s : State) : Out :=
  .next (whenPowered s fun s =>
    match s.link.reads.find? (fun r => r.id == read) with
    | none => s
    | some r =>
      match r.reqs[request]? with
      | none => s
      | some q => if q.2.2 then s else tidyReads (answerAts (rxFailed (upRead s read (fun r => r.fail request)))))

/-! ### Blocked DMA (R521) -/

/-- Send, in its order, the traffic that waited for functions no longer blocked. -/
def flushHeld (s : State) : State :=
  let go := s.link.held.filter (fun e => !s.blocked e.1)
  let s := { s with link := { s.link with held := s.link.held.filter (fun e => s.blocked e.1) } }
  forL go (fun e s => emit s e.2) s

/-- Set or clear bit f of a mask. -/
def setBit32 (m : BitVec 32) (f : Nat) (on : Bool) : BitVec 32 :=
  if on then m ||| (1#32 <<< f) else m &&& ~~~(1#32 <<< f)

/-- R521: Bus Master Enable, D3hot or new IDE keys; R518: the link's own errors (log entry 123). -/
def execDmaBlockChange (f : FnId) (cause : DmaCause) (s : State) : Out :=
  .next (whenPowered s fun s =>
    let l := s.link
    let l := match cause with
      | .bme on => if !s.present then l else { l with bme := setBit32 l.bme f on }
      | .d3hot on => if !s.present then l else { l with d3hot := setBit32 l.d3hot f on }
      | .ideRekeyed k => { l with ideInsecure := l.ideInsecure &&& ~~~(1#5 <<< k.val) }
      | .linkErrors r c => { l with replays := l.replays + r, correctable := l.correctable + c }
    flushHeld { s with link := l })

/-- R527: a received TLP fails its IDE check; its stream, if enabled, becomes Insecure. -/
def execIdeIntegrityFail (stream : Fin 5) (s : State) : Out :=
  .next (whenPowered s fun s =>
    if s.link.ideEnabled.getLsbD stream then
      { s with link := { s.link with ideInsecure := s.link.ideInsecure ||| (1#5 <<< stream.val) } }
    else s)

/-- R523. -/
def execAtsInvalidation (f : FnId) (tag : Nat) (s : State) : Out :=
  .next (whenPowered s fun s => answerAts { s with link := { s.link with ats := s.link.ats ++ [(f.val, tag)] } })

/-! ### MSI-X (R526) -/

/-- Send the pending message of a vector that may now be sent. -/
def sendPending (s : State) (f v : Nat) : State :=
  let k := 2048 * f + v
  if Tbl.get false s.link.vecPending k && Tbl.get false s.link.vecOpen k && !s.link.fnMask.getLsbD f &&
      !s.link.msixOff.getLsbD f then
    sendAs { s with link := { s.link with vecPending := Tbl.set false s.link.vecPending k false } } f (.msix f v)
  else s

/-- Open or mask a vector. -/
def setVector (s : State) (f v : Nat) (open_ : Bool) : State :=
  sendPending { s with link := { s.link with vecOpen := Tbl.set false s.link.vecOpen (2048 * f + v) open_ } } f v

/-- Send every pending message of a function that may now be sent. -/
def sendAllPending (s : State) (f : Nat) : State :=
  forL ((s.link.vecPending.filter (fun e => e.1 / 2048 == f)).map (·.1)) (fun k s => sendPending s f (k % 2048)) s

/-- R526: a vector is unmasked. -/
def execMsixUnmask (f : FnId) (vector : Nat) (s : State) : Out :=
  guardWf (.msixUnmask f vector) "MSIX_UNMASK" (whenPresent s fun s => setVector s f vector true)

/-! ### Resets (R485, R528, R529) -/

/-- A reset of function f discards the responses of its commands (R485): they answer function 32, which is none. -/
def orphan (f : Nat) (w : AdminWait) : AdminWait :=
  match w with
  | .wardens g k l a => if g = f then .wardens 32 k l a else w
  | .fence g k c j => if g = f then .fence 32 k c j else w
  | .destroy g k a b => if g = f then .destroy 32 k a b else w

/-- The mailboxes of a function return to STATE 0b00 and it is unnegotiated; a SET_MODE under way applies all the same (R485). -/
def resetMail (s : State) (f : Nat) : State :=
  let gone := fun (g : Nat) => if g = f then 32 else g
  let s := forN 4 (fun k s => modeRest s f k) s
  let s := forN 4 (fun k s => upMail s (mailKey f k) (fun m => { m with state := 0, started := false, applied := 0 })) s
  { s with
    nego := Tbl.set none s.nego f none
    adminWaits := s.adminWaits.map (orphan f)
    heldSwaps := s.heldSwaps.map (fun h => { h with fn := gone h.fn })
    migrates := s.migrates.map (fun m => { m with fn := gone m.fn })
    routines := { s.routines with held := s.routines.held.map (fun p => (gone p.1, p.2)) }
    resetRun := s.resetRun.map (fun r => { r with fn := gone r.fn }) }

/-- End a function's jobs with ST_LOST; they post no completion (R528). -/
def loseJobs (s : State) (f : Nat) : State :=
  forL (s.jobs.filter (fun j => j.fn == f)) (fun j s =>
    upJob (endJob s j.id stLost 0xFFFF) j.id (fun j => { j with silent := true })) s

/-- The reset of one function (Table — resets at the link). -/
def resetFn (s : State) (f : Nat) : State :=
  let s := loseJobs (resetMail s f) f
  let mine := fun (k : Nat) => k / 2048 == f
  { s with
    sqs := s.sqs.filter (fun q => q.fn != f)
    cqs := s.cqs.filter (fun q => q.fn != f)
    bursts := s.bursts.filter (fun b => b.fn != f)
    dbuf := s.dbuf.filter (fun e => e.fn != f)
    link := { s.link with
      vecOpen := s.link.vecOpen.filter (fun e => !mine e.1)
      vecPending := s.link.vecPending.filter (fun e => !mine e.1) } }

/-- The queues of the physical function go; events held for them are lost (R505, R529). -/
def dropPfQueues (s : State) : State := { s with eq := none, hq := none, fq := none, evHeld := [] }

/-- R528: a virtual function's FLR. -/
def execVfFlr (f : FnId) (s : State) : Out :=
  .next (whenPresent s fun s =>
    if f.val = 0 then s else resetFn { s with link := { s.link with flrs := s.link.flrs + 1 } } f)

/-- Every function is reset, and VF Enable cleared. -/
def resetAll (s : State) : State :=
  dropPfQueues (forN 32 (fun f s => resetFn s f) { s with link := { s.link with vfEnable := false } })

/-- R528: the physical function's FLR. -/
def execPfFlr (s : State) : Out :=
  .next (whenPresent s fun s => resetAll { s with link := { s.link with flrs := s.link.flrs + 1 } })

/-- The code of a width in HL_LINK. -/
def LinkWidth.code : LinkWidth → BitVec 4
  | .down => 0
  | .x1 => 1
  | .x2 => 2
  | .x4 => 4
  | .x8 => 8

/-- RATE, WIDTH, FLIT and REVERSED follow the link (R518); it has FLIT mode at 64 and 128 GT/s (R510). -/
def Link.trained (l : Link) (up : LinkUp) : Link :=
  if up.rate = 0 ∨ up.width = .down then { l with rate := 0, width := 0 }
  else { l with
    rate := BitVec.ofNat 4 up.rate, width := LinkWidth.code up.width, flit := up.flit || decide (6 ≤ up.rate.val)
    reversed := up.reversed }

/-- R528: hot reset, link down or PERST#: configuration space returns to its reset values; the link trains again, as `up`
says, unless PERST# is asserted. -/
def execHotReset (r : LinkReset) (up : LinkUp) (s : State) : Out :=
  .next (whenPowered s fun s =>
    let l := s.link
    let s := resetAll { s with
      link := { l with
        linkResets := l.linkResets + 1, rate := 0, width := 0, bme := 0, d3hot := 0, msixOff := 0xFFFFFFFF, fnMask := 0,
        ariHier := false, numVfs := 0, mrrs := 512, mps := 0 }
      pwr := { s.pwr with perst := s.pwr.perst || r == .perst } }
    if s.pwr.perst then s else { s with link := Link.trained s.link up })

/-- R528, R612, R634: PERST# is released, and the link trains. -/
def execPerstRelease (up : LinkUp) (s : State) : Out :=
  .next (whenPowered s fun s =>
    if s.pwr.perst then { s with pwr := { s.pwr with perst := false }, link := Link.trained s.link up } else s)

end Sys2Proof.Machine
end

