-- ==== Sys2Proof/Machine/Xlate.lean ====
section
/-!
DEFINITION. Address translation (chapter 11): page tables and walks, TLBs and walk caches, pending faults and the fault
queue, and the commands PAGE_WALK, FAULT_ENTRY_POST and TILE_RESUME.
The context table and the nodes lie in local DRAM (Reserve.lean); an entry is known by its local offset.
-/
namespace Sys2Proof.Machine

/-! ### Page-table entries (R343, R344) -/

def pteState (w : Word) : Nat := fld w 63 62
def pteLeaf (w : Word) : Bool := bit w 61
def pteContig (w : Word) : Bool := bit w 60
def pteWrite (w : Word) : Bool := bit w 59
def pteFw (w : Word) : Bool := bit w 58
def pteOa (w : Word) : Nat := fld w 55 0

def stInvalid : Nat := 0
def stValid : Nat := 1
def stDemand : Nat := 2
def stMigrating : Nat := 3

/-- An entry with another STATE. -/
def pteSetState (w : Word) (st : Nat) : Word := at_ 63 62 st ||| at_ 61 0 (fld w 61 0)

/-- A leaf. -/
def mkLeaf (st : Nat) (contig write fw : Bool) (pa : Nat) : Word :=
  at_ 63 62 st ||| at_ 61 61 1 ||| at_ 60 60 (b2n contig) ||| at_ 59 59 (b2n write) ||| at_ 58 58 (b2n fw) |||
    at_ 55 0 pa

/-- A pointer to a node, by its physical address. -/
def mkPointer (pa : Nat) : Word := at_ 63 62 1 ||| at_ 55 0 pa

/-- Bytes of a page that a leaf of a level maps. -/
def pageBytes (level : Nat) : Nat :=
  match level with
  | 1 => 65536
  | 2 => 2 ^ 25
  | _ => 2 ^ 34

/-- The index of a virtual address at a level (R336). -/
def vaIndex (va level : Nat) : Nat := nbits va (15 + 9 * level) (7 + 9 * level)

/-- The entry is a pointer that the level allows. -/
def goodPointer (w : Word) (level : Nat) : Bool :=
  !pteLeaf w && decide (2 ≤ level) && pteState w == stValid && fld w 60 56 == 0 && fld w 11 0 == 0

/-- The entry is a leaf that the level allows and that maps something. -/
def goodLeaf (w : Word) (level : Nat) : Bool :=
  pteLeaf w && decide (level ≤ 3) && fld w 57 56 == 0 && pteState w != stInvalid &&
    (level == 1 || (pteState w == stValid && !pteContig w)) && pteOa w % pageBytes level == 0

/-! ### Units (R346) -/

def uSlalom (n : Nat) : Nat := n
def uMover (n : Nat) : Nat := 100 + n
def uScatter (c : Nat) : Nat := 200 + c
def uUpdate (h : Nat) : Nat := 300 + h
def uHost : Nat := 400
def uFabric : Nat := 401

/-- Firmware reaches tables and structures by the same page tables, without TLB. -/
def fwUnit : Nat := 999

def unitKey : XlUnit → Nat
  | .slalom n => uSlalom n
  | .mover n => uMover n
  | .scatter n => uScatter n
  | .update h => uUpdate h
  | .hostEdge => uHost
  | .fabricEdge => uFabric

/-- TLB entries of a unit (Table — TLBs). -/
def tlbSize (u : Nat) : Nat :=
  if u < 24 then 1024 else if u < 200 then 256 else if u < 300 then 128 else if u < 400 then 256
  else if u = 400 then 256 else 1024

/-- The hedge whose walker and record serve a unit; edges count in hedge 0's record (R369). -/
def unitHedge (u : Nat) : Nat :=
  if u < 24 then u / 2 else if u < 200 then (u - 100) / 2 else if u < 300 then (u - 200) / 6
  else if u < 400 then u - 300 else 0

/-- The hedge whose walker a unit uses: the fabric edge takes hedges 2 to 9 in turn (Table — TLBs). -/
def State.walker (s : State) (u : Nat) : Nat := if u = uFabric then 2 + s.xl.edgeTurn % 8 else unitHedge u

def upTr (s : State) (h : Nat) (f : TransRec → TransRec) : State := upHedge s h (fun x => { x with tr := f x.tr })

/-! ### Walks (R341, R342, R349, R357) -/

/-- What a walk finds; a leaf by its place in local DRAM. -/
inductive Walk where
  | leaf (key level : Nat) (entry : Word)
  | invalid | noContext | poisoned
deriving DecidableEq, Repr

/-- What a walk reads: the words of local DRAM, and the pointers with the places they came from, in order. -/
structure WalkReads where
  words    : List Nat := []
  pointers : List (Nat × Word) := []
  hits     : Nat := 0
deriving DecidableEq, Repr

/-- Walk from the node at a local offset, of a level.  A pointer that the walk cache holds is not read. -/
def walkFrom (s : State) (cache : List (Nat × Word)) (va : Nat) : Nat → Nat → WalkReads → Walk × WalkReads
  | 0, _, r => (.invalid, r)
  | level + 1, node, r =>
    let key := node + 8 * vaIndex va (level + 1)
    match cache.find? (fun e => e.1 == key) with
    | some e =>
      walkFrom s cache va level (paOff (pteOa e.2)) { r with pointers := r.pointers ++ [e], hits := r.hits + 1 }
    | none =>
      let w := s.dramWord (key / 8)
      let r := { r with words := r.words ++ [key] }
      if w.poison then (.poisoned, r)
      else if goodLeaf w.data (level + 1) then (.leaf key (level + 1) w.data, r)
      else if goodPointer w.data (level + 1) then
        walkFrom s cache va level (paOff (pteOa w.data)) { r with pointers := r.pointers ++ [(key, w.data)] }
      else (.invalid, r)

/-- Walk under a CID: its context entry, then up to four nodes. -/
def walk (s : State) (h : Nat) (cid : BitVec 12) (va : Nat) : Walk × WalkReads :=
  let a := contextAt cid.toNat
  let w := s.dramWord (a / 8)
  let r : WalkReads := { words := [a] }
  if w.poison then (.poisoned, r)
  else if !bit w.data 63 then (.noContext, r)
  else walkFrom s (s.hedge h).walkCache va 4 (paOff (fld w.data 55 0)) r

/-! ### Translation (R340, R345, R357) -/

/-- The outcome of translating one page (Table — translation outcomes). -/
inductive Xl where
  | ok (pa : Nat)
  | bad (st : Status)
  | wait (leaf : Nat)
deriving DecidableEq, Repr

/-- The valid offsets of a space class (Table — space classes). -/
def spaceBytes (space : Nat) : Nat := if space = 0 then dramBytes else 2 ^ 44

/-- R340: the issuing unit may use a translated address. -/
def paUsable (s : State) (cid : BitVec 12) (pa : Nat) : Bool :=
  (paModule pa == s.moduleNo || paSpace pa == 0) && (paSpace pa != 3 || cid == 0) &&
    decide (paOff pa < spaceBytes (paSpace pa))

/-- Check permissions and the address (R340, R345). -/
def permit (s : State) (cid : BitVec 12) (write wOk fw : Bool) (pa : Nat) : Xl :=
  if (write && !wOk) || (fw && cid != 0) || !paUsable s cid pa then .bad stProtection else .ok pa

/-- The TLB entry that translates an address. -/
def tlbHit (l : List TlbEntry) (cid : BitVec 12) (va : Nat) : Option TlbEntry :=
  l.find? (fun e => e.cid == cid && decide (e.vbase ≤ va / 65536 ∧ va / 65536 < e.vbase + e.pages))

/-- Translate one address for a unit: its TLB, else a walk. -/
def translate (s : State) (u : Nat) (cid : BitVec 12) (va52 : Nat) (write : Bool) : Xl :=
  let va := va52 % 2 ^ 52
  match tlbHit (Tbl.get [] s.xl.tlbs u) cid va with
  | some e => permit s cid write e.write e.fw (e.oa + (va - 65536 * e.vbase))
  | none =>
    match (walk s (s.walker u) cid va).1 with
    | .leaf key level w =>
      if pteState w = stValid then permit s cid write (pteWrite w) (pteFw w) (pteOa w + va % pageBytes level)
      else .wait key
    | .invalid => .bad stUnmapped
    | .noContext => .bad stProtection
    | .poisoned => .bad stPoisoned

/-- The small pages of a byte range. -/
def pagesOf (va n : Nat) : List Nat :=
  if n = 0 then [] else (List.range ((va + n - 1) / 65536 + 1 - va / 65536)).map (fun i => va / 65536 + i)

/-! ### TLBs and walk caches in use (R346, R347, R349) -/

/-- Least recently used first: an entry goes to the end, and the oldest leaves a full list. -/
def lruPush {α : Type} (n : Nat) (l : List α) (x : α) : List α := if l.length < n then l ++ [x] else l.drop 1 ++ [x]

/-- The TLB entry that a VALID leaf gives: a whole run where CONTIG is 1 (R348). -/
def tlbOf (cid : BitVec 12) (va level : Nat) (w : Word) : TlbEntry :=
  let small := pageBytes level / 65536
  let e : TlbEntry := ⟨cid, va / 65536 / small * small, small, pteOa w, pteWrite w, pteFw w⟩
  if pteContig w then
    { e with vbase := e.vbase / 32 * 32, pages := 32, oa := e.oa - 65536 * (e.vbase % 32) }
  else e

/-- Fill a unit's TLB and its walker's cache from a walk that ended in a VALID leaf. -/
def fillTlb (s : State) (u : Nat) (e : TlbEntry) (r : WalkReads) : State :=
  let s := upHedge s (s.walker u) (fun x => { x with
    walkCache := r.pointers.foldl (fun l k => lruPush 64 (l.filter (fun y => y.1 != k.1)) k) x.walkCache })
  { s with xl := { s.xl with tlbs := Tbl.upd [] s.xl.tlbs u (fun l => lruPush (tlbSize u) l e) } }

/-- A TLB miss of a unit: the walk, its reads of local DRAM, and what it leaves in TLB and walk cache (R347, R369). -/
def walkUnit (s : State) (u : Nat) (cid : BitVec 12) (va : Nat) : State :=
  let (x, r) := walk s (s.walker u) cid va
  let s := upTr s (unitHedge u) (fun t => { t with
    tlbMisses := t.tlbMisses + 1, walks := t.walks + 1, walkCacheHits := t.walkCacheHits + r.hits })
  let s := forL r.words (fun a s => dramTouch s a 8) s
  let s := match x with
    | .leaf _ level w => if pteState w = stValid then fillTlb s u (tlbOf cid va level w) r else s
    | _ => s
  { s with xl := { s.xl with edgeTurn := s.xl.edgeTurn + b2n (u == uFabric) } }

/-- A unit looks up a small page: a hit becomes the most recent entry, a miss walks. -/
def useTlb (u : Nat) (cid : BitVec 12) (page : Nat) (s : State) : State :=
  match tlbHit (Tbl.get [] s.xl.tlbs u) cid (65536 * page) with
  | some e => { s with xl := { s.xl with tlbs := Tbl.upd [] s.xl.tlbs u (fun l => l.filter (· != e) ++ [e]) } }
  | none => walkUnit s u cid (65536 * page)

/-- A unit looks up every page of byte ranges; firmware has no TLB. -/
def walkPages (s : State) (u : Nat) (cid : BitVec 12) (l : List (Nat × Nat × Bool)) : State :=
  if u = fwUnit then s else forL ((l.flatMap (fun e => pagesOf e.1 e.2.1)).dedup) (useTlb u cid) s

/-! ### Removing translations (R350) -/

/-- Drop the TLB entries of every unit that `p` selects. -/
def dropTlb (s : State) (p : TlbEntry → Bool) : State :=
  let all := s.xl.tlbs.map (fun e => (e.1, e.2.filter (fun t => !p t)))
  { s with xl := { s.xl with tlbs := all.filter (fun e => e.2 != []) } }

/-- Drop what translates a small page under any context. -/
def dropPage (s : State) (page : Nat) : State :=
  dropTlb s (fun t => decide (t.vbase ≤ page ∧ page < t.vbase + t.pages))

/-- Empty every TLB and walk cache (R351). -/
def dropAllTlbs (s : State) : State :=
  let s := { s with xl := { s.xl with tlbs := [] } }
  forN 12 (fun h s => upHedge s h (fun x => { x with walkCache := [] })) s

/-- Write a page-table entry, given by its place in local DRAM. -/
def setNode (s : State) (key : Nat) (w : Word) : State := { s with dram := s.dram.putWord (key / 8) (.good w) }

/-- A page-table entry as firmware reads it. -/
def State.node (s : State) (key : Nat) : Word :=
  let w := s.dramWord (key / 8)
  if w.poison then 0 else w.data

/-- The entries of the node at a local offset that hold anything, by their places. -/
def State.entriesOf (s : State) (node : Nat) : List Nat :=
  ((s.dram.bytes.filter (fun e => decide (node ≤ e.1 ∧ e.1 < node + 4096))).map (fun e => e.1 / 8 * 8)).dedup

/-- A leaf of some page table is DEMAND (R362). -/
def State.anyDemand (s : State) : Bool :=
  (List.range s.xl.nextNode).any (fun n => (s.entriesOf (nodeAt n)).any (fun k =>
    pteLeaf (s.node k) && pteState (s.node k) == stDemand))

/-! ### Building tables (R341, R342, R497) -/

/-- A node of zeros, at the next place. -/
def newNode (s : State) : Nat × State :=
  let a := nodeAt s.xl.nextNode
  (a, { s with dram := s.dram.zero a 4096, xl := { s.xl with nextNode := s.xl.nextNode + 1 } })

/-- The node below an entry, made where there is none. -/
def childNode (s : State) (node idx : Nat) : Nat × State :=
  let key := node + 8 * idx
  if pteState (s.node key) = stValid ∧ !pteLeaf (s.node key) then (paOff (pteOa (s.node key)), s)
  else
    let (a, s) := newNode s
    (a, setNode s key (mkPointer (mkPa s.moduleNo 0 a)))

/-- Write the leaf of a virtual address at a level of the tree whose root is at a local offset. -/
def mapLeaf (s : State) (root va level : Nat) (w : Word) : State :=
  let (n3, s) := childNode s root (vaIndex va 4)
  if level = 3 then setNode s (n3 + 8 * vaIndex va 3) w
  else
    let (n2, s) := childNode s n3 (vaIndex va 3)
    if level = 2 then setNode s (n2 + 8 * vaIndex va 2) w
    else
      let (n1, s) := childNode s n2 (vaIndex va 2)
      setNode s (n1 + 8 * vaIndex va 1) w

/-- Make a CID's context entry VALID over a fresh tree. -/
def makeContext (s : State) (cid : Nat) : State :=
  let (a, s) := newNode s
  let s := { s with xl := { s.xl with contexts := Tbl.set none s.xl.contexts cid (some a) } }
  { s with dram := s.dram.putWords (contextAt cid / 8) [.good (at_ 63 63 1 ||| at_ 55 0 (mkPa s.moduleNo 0 a)), .good 0] }

/-- Every context entry is invalid. -/
def clearContexts (s : State) : State :=
  { s with dram := s.dram.zero (contextAt 0) 65536, xl := { s.xl with contexts := [] } }

/-! ### Pending faults (R358 to R364) -/

/-- The words of a fault entry (Table — fault entry). -/
def faultWords (s : State) (e : FaultEntry) (tag : BitVec 16) (waiters : Nat) : List Word :=
  [(tag.zeroExtend 64 <<< 48) ||| (e.cid.zeroExtend 64 <<< 36) ||| at_ 35 0 e.page,
   at_ 63 58 (min waiters 63) ||| at_ 55 0 (mkPa s.moduleNo 0 e.leaf), s.tickerW, s.timeWord]

/-- The tiles that wait on a leaf. -/
def State.waitersOn (s : State) (leaf : Nat) : Nat := s.xl.waiting.countP (fun t => t.leaf == leaf && !t.held)

/-- Post the oldest fault entry held, where the fault queue has room (R364): it takes the next tag (R363). -/
def postFault (s : State) : State :=
  match s.fq, s.xl.faultHeld with
  | some q, e :: rest =>
    if q.full || s.blocked 0 then s
    else
      let tag := s.xl.faultTag
      let s := dmaBytes s 0 (q.ring.toNat + 32 * q.tail) false (wordsBytes (faultWords s e tag (s.waitersOn e.leaf)))
      let named := updFirst (fun p => p.leaf == e.leaf) (fun p => { p with tag := some tag }) s.xl.pend
      let s := { s with xl := { s.xl with faultHeld := rest, faultTag := tag + 1, pend := named }, fq := some q.advance }
      msix s 0 q.vector
  | _, _ => s

/-- The tile that waits last takes its place in the pending-fault table: it joins the entry of its leaf, or makes one, and a
DEMAND fault is posted (R360, R361); or it is held until an entry frees. -/
def joinFault (s : State) (t : WaitTile) : State :=
  let put := fun (held : Bool) (s : State) =>
    { s with xl := { s.xl with waiting := s.xl.waiting.filter (fun x => x.id != t.id) ++ [{ t with held := held }] } }
  if s.xl.pend.any (fun p => p.leaf == t.leaf) then
    let s := upTr s t.hedge (fun r => { r with coalesced := r.coalesced + 1 })
    let more := fun (p : Pend) => { p with waiters := p.waiters + 1 }
    put false { s with xl := { s.xl with pend := updFirst (fun p => p.leaf == t.leaf) more s.xl.pend } }
  else if 256 ≤ s.xl.pend.length then put true s
  else
    let p : Pend := { leaf := t.leaf, tag := none, cid := t.owner.cid, page := t.page, waiters := 1 }
    let s := put false { s with xl := { s.xl with pend := s.xl.pend ++ [p] } }
    if pteState (s.node t.leaf) = stDemand then
      let s := { s with xl := { s.xl with faultHeld := s.xl.faultHeld ++ [⟨t.owner.cid, t.page, t.leaf⟩] } }
      if s.xl.faultHeld.length = 1 then postFault s else s
    else s

/-- A unit's tile meets a resolvable fault and waits (R358 to R360). -/
def waitTile (s : State) (o : Owner) (core : Option Nat) (bag : Option (Nat × Nat)) (h leaf page : Nat) : State :=
  let s := upTr s h (fun r => { r with resolvable := r.resolvable + 1 })
  let t : WaitTile := { id := s.xl.nextTile, hedge := h, leaf := leaf, owner := o, core := core, bag := bag, page := page,
                        held := false }
  let s := joinFault { s with xl := { s.xl with nextTile := s.xl.nextTile + 1 } } t
  if s.xl.waiting.any (fun x => x.id == t.id && x.held) then
    { s with xl := { s.xl with heldFull := s.xl.heldFull + 1 } }
  else s

/-- A transfer has a tile waiting (R359). -/
def State.tileWaits (s : State) (o : Owner) (core : Option Nat) (bag : Option (Nat × Nat)) : Bool :=
  s.xl.waiting.any (fun t => t.owner == o && t.core == core && t.bag == bag)

/-- The pending entry of a leaf is done with. -/
def retirePend (s : State) (leaf : Nat) : State :=
  { s with xl := { s.xl with
    pend := s.xl.pend.filter (fun p => p.leaf != leaf)
    faultHeld := s.xl.faultHeld.filter (fun e => e.leaf != leaf) } }

/-! ### Commands -/

/-- The job whose tile a unit translates for: that of the CID (R399). -/
def State.cidOwner (s : State) (cid : BitVec 12) : Owner :=
  ((s.jobs.find? (fun j => j.status.isNone && j.cid == cid)).map (fun j => (⟨j.id, 0xFFFF, j.cid, j.lc, j.repro⟩ : Owner))).getD
    ⟨0, 0xFFFF, cid, false, false⟩

/-- R349: a TLB miss of a unit and the walk it starts.  A resolvable fault that the walk finds is taken by the tile for which
the unit translates (R358), when the unit comes to it.  `bad` says that the two executions of the walk differ (R397): then
it fills nothing. -/
def execPageWalk (u : XlUnit) (cid : BitVec 12) (va : BitVec 52) (bad : Bool) (s : State) : Out :=
  .next (whenPowered s fun s =>
    let k := unitKey u
    if (tlbHit (Tbl.get [] s.xl.tlbs k) cid va.toNat).isSome then s
    else if bad then arithFault s (s.cidOwner cid) unitHash (s.walker k) 0 0
    else walkUnit s k cid va.toNat)

/-- R364: the next fault entry held is posted. -/
def execFaultEntryPost (s : State) : Out := .next (whenFw s postFault)

/-- R365: a waiting tile walks again.  Its leaf no longer holds it, or its job ends, or it waits on; a tile of a peer's
request goes on, and its home answers for what it finds.  A tile that is held takes its place in the table as soon as it
can (R360). -/
def resumeTile (s : State) (t : WaitTile) : State :=
  let free := { s with xl := { s.xl with waiting := dropFirst (fun x => x.id == t.id) s.xl.waiting } }
  let st := pteState (s.node t.leaf)
  if st = stValid then free
  else if st = stInvalid then (if t.owner.job = 0 then free else failJob free t.owner stUnmapped)
  else if t.held then joinFault s t
  else s

end Sys2Proof.Machine
end

