-- ==== Sys2Proof/Machine/Transfer.lean ====
section
/-!
DEFINITION. Reading and writing bytes at virtual addresses and host addresses for a job: footprints (R358), the routes of
a translated address (R338, R354, R520), tile waits, and the digests of what is written (R436).
-/
namespace Sys2Proof.Machine

/-! ### Footprints (R357, R358) -/

/-- What a tile's footprint gives. -/
inductive Foot where
  | ok | bad (st : Status) | wait (leaf page : Nat) | busy (lines : List Nat)
deriving DecidableEq, Repr

/-- The pages of byte ranges (address, length, write), in order, with their outcomes. -/
def pageOutcomes (s : State) (u : Nat) (cid : BitVec 12) (l : List (Nat × Nat × Bool)) : List (Nat × Xl) :=
  l.flatMap (fun e => (pagesOf e.1 e.2.1).map (fun p => (p, translate s u cid (max e.1 (65536 * p)) e.2.2)))

def firstBad : List (Nat × Xl) → Option Status
  | [] => none
  | (_, .bad st) :: _ => some st
  | _ :: l => firstBad l

def firstWait : List (Nat × Xl) → Option (Nat × Nat)
  | [] => none
  | (p, .wait k) :: _ => some (k, p)
  | _ :: l => firstWait l

/-- R358: a failing source page decides, then a failing destination page; else the tile waits, or is delivered. -/
def footprint (s : State) (u : Nat) (cid : BitVec 12) (src dst : List (Nat × Nat × Bool)) : Foot :=
  let a := pageOutcomes s u cid src
  let b := pageOutcomes s u cid dst
  match firstBad a, firstBad b, firstWait (a ++ b) with
  | some st, _, _ => .bad st
  | none, some st, _ => .bad st
  | none, none, some (k, p) => .wait k p
  | none, none, none => .ok

/-! ### Spans: the physical pieces of a virtual range -/

structure Span where
  va : Nat
  pa : Nat
  n  : Nat
deriving DecidableEq, Repr

/-- The pieces of a range that translates whole. -/
def spans (s : State) (u : Nat) (cid : BitVec 12) (va n : Nat) (write : Bool) : List Span :=
  (pagesOf va n).filterMap (fun p =>
    let a := max va (65536 * p)
    match translate s u cid a write with
    | .ok pa => some ⟨a, pa, min (va + n) (65536 * (p + 1)) - a⟩
    | _ => none)

/-- The route of a piece: local DRAM, the host window, the flash window, or another module. -/
inductive Route where
  | dram | host | flash | remote
deriving DecidableEq, Repr

def State.route (s : State) (pa : Nat) : Route :=
  if paModule pa ≠ s.moduleNo then .remote
  else if paSpace pa = 0 then .dram
  else if paSpace pa = 1 then .host
  else .flash

/-- Host bus address of a host-window offset (R520). -/
def State.hwinAddr (s : State) (off : Nat) : Nat := s.link.hwin.toNat * 65536 + off

/-- The lines of local DRAM that virtual ranges cover. -/
def localLines (s : State) (u : Nat) (cid : BitVec 12) (l : List (Nat × Nat × Bool)) : List Nat :=
  ((l.flatMap (fun e => spans s u cid e.1 e.2.1 e.2.2)).filter (fun x => s.route x.pa == .dram)).flatMap
    (fun x => linesOf (paOff x.pa) x.n)

/-- The footprint of a tile whose unit reads and writes memory itself: its accesses follow the requests that already wait for
their lines (R66), so the tile is held while there are any. -/
def tileReady (s : State) (u : Nat) (cid : BitVec 12) (src dst : List (Nat × Nat × Bool)) : Foot :=
  match footprint s u cid src dst with
  | .ok =>
    let l := localLines s u cid (src ++ dst)
    if s.busyLines l then .busy l else .ok
  | x => x

/-- A unit translates a tile's footprint: the pages looked up, and what the tile may do. -/
def tileWalk (s : State) (u : Nat) (cid : BitVec 12) (src dst : List (Nat × Nat × Bool)) : State × Foot :=
  let s := walkPages s u cid (src ++ dst)
  (s, tileReady s u cid src dst)

/-- A Lanea READ of this piece (R338). -/
def State.laneaRead (s : State) (o : Owner) (x : Span) : Option LReq :=
  s.fab.reqs.find? (fun r => r.owner == some o && r.kind == 1 && r.dst == x.va && r.peer == paModule x.pa)

/-- A read of host memory for an owner. -/
def State.hostReadOf (s : State) (fn : Nat) (o : Owner) (addr n : Nat) : Option HostRead :=
  s.link.reads.find? (fun r => r.owner == some o && r.fn == fn && r.addr == addr && r.len == n)

/-- The bytes of a piece are at hand. -/
def State.spanReady (s : State) (o : Owner) (x : Span) : Bool :=
  match s.route x.pa with
  | .remote =>
    match s.laneaRead o x with
    | some r => !r.got.isEmpty
    | none => false
  | .host =>
    match s.hostReadOf 0 o (s.hwinAddr (paOff x.pa)) x.n with
    | some r => r.done
    | none => false
  | _ => true

/-- Ask for the bytes of a piece that comes from elsewhere, once. -/
def askSpan (x : Span) (o : Owner) (s : State) : State :=
  match s.route x.pa with
  | .remote =>
    if (s.laneaRead o x).isSome then s
    else request s (paModule x.pa) o.lc 1 o.cid (BitVec.ofNat 64 x.pa) (BitVec.ofNat 64 x.n) [] (some o) none none x.va
  | .host =>
    let a := s.hwinAddr (paOff x.pa)
    if (s.hostReadOf 0 o a x.n).isSome then s else (startRead s 0 (some o) a x.n).2
  | _ => s

/-- The words of a piece; `ext` is what the flash window delivers (log entry 33). -/
def State.spanWords (s : State) (o : Owner) (ext : List PWord) (x : Span) : List PWord :=
  match s.route x.pa with
  | .dram => s.dramWords (paOff x.pa / 8) (x.n / 8)
  | .host =>
    match s.hostReadOf 0 o (s.hwinAddr (paOff x.pa)) x.n with
    | some r => r.words
    | none => []
  | .remote =>
    match s.laneaRead o x with
    | some r => r.got
    | none => []
  | .flash => ext.take (x.n / 8)

/-- A piece has been read: what brought it is done with, and a local read counts its errors. -/
def doneSpan (x : Span) (o : Owner) (s : State) : State :=
  match s.route x.pa with
  | .dram => dramTouch s (paOff x.pa) x.n
  | .host =>
    let a := s.hwinAddr (paOff x.pa)
    { s with link := { s.link with
      reads := dropFirst (fun r => r.owner == some o && r.fn == 0 && r.addr == a && r.len == x.n) s.link.reads } }
  | .remote =>
    { s with fab := { s.fab with
      reqs := dropFirst (fun r => r.owner == some o && r.kind == 1 && r.dst == x.va && r.peer == paModule x.pa)
        s.fab.reqs } }
  | .flash => s

/-- The first piece that the Privet check of this module refuses (R353, R354). -/
def State.privetStop (s : State) (cid : BitVec 12) (write : Bool) (l : List Span) : Option Span :=
  l.find? (fun x => s.route x.pa != .remote && !s.privetOk cid (paSpace x.pa) (paOff x.pa) write)

/-- The first piece on a module without a path (R340). -/
def State.pathStop (s : State) (l : List Span) : Bool :=
  l.any (fun x => s.route x.pa == .remote && !s.hasPath (paModule x.pa))

/-- Read pieces for a job: their words; or none, where something has still to arrive or the job has ended. -/
def gather (s : State) (o : Owner) (ext : List PWord) (l : List Span) : State × Option (List PWord) :=
  match s.privetStop o.cid false l with
  | some x => (privetFail s o x.pa, none)
  | none =>
    if l.all (s.spanReady o) then
      let w := l.flatMap (s.spanWords o ext)
      (forL l (fun x s => doneSpan x o s) s, some w)
    else if s.pathStop l then (failJob s o stUnmapped, none)
    else (forL l (fun x s => askSpan x o s) s, none)

/-! ### Writing -/

/-- The digest of words written at a virtual address (R436): each line as it stands; the bytes of a line that this module
neither holds nor writes are free values (log entry 34). -/
def digestVa (s : State) (o : Owner) (va : Nat) (l : List PWord) (pa : Nat) : State :=
  if s.digests o then
    forL (linesOf va (8 * l.length)) (fun a s =>
      let tag := at_ 63 62 1 ||| at_ 51 0 a
      if s.route pa = .dram then digestAdd s o tag (s.dramRead (paOff pa + a - va) 64)
      else if va ≤ a ∧ a + 64 ≤ va + 8 * l.length then digestAdd s o tag (pbytes ((l.drop ((a - va) / 8)).take 8))
      else
        let (x, s) := takeFree s
        let new := pbytes l
        digestAdd s o tag ((List.range 64).map (fun i =>
          if va ≤ a + i ∧ a + i < va + new.length then new.getD (a + i - va) 0 else Config.outsideByte x (a + i)))) s
  else s

/-- Write a piece: local DRAM under R387, the host window by DMA (R379), another module by Lanea WRITE; the flash window
takes Writes of a MIGRATE alone (R564; log entry 33). -/
def writeSpan (o : Owner) (x : Span) (l : List PWord) (s : State) : State :=
  let s := match s.route x.pa with
    | .dram => afterWrite (dramPut s (paOff x.pa) l) (paOff x.pa) x.n
    | .host => upJob (dmaWords s 0 true (s.hwinAddr (paOff x.pa)) l) o.job (fun j => { j with hostWin := true })
    | .remote => request s (paModule x.pa) o.lc 2 o.cid (BitVec.ofNat 64 x.pa) 0 l (some o) none none x.va
    | .flash => s
  let s := digestVa s o x.va l x.pa
  if s.route x.pa = .host ∧ anyPoison l then failJob s o stPoisoned else s

/-- Write words over pieces that cover a range, in order. -/
def writeSpans (s : State) (o : Owner) : List Span → List PWord → State
  | [], _ => s
  | x :: t, l => writeSpans (writeSpan o x (l.take (x.n / 8)) s) o t (l.drop (x.n / 8))

/-- Write words at a virtual range that translates whole. -/
def writeVa (s : State) (u : Nat) (o : Owner) (va : Nat) (l : List PWord) : State :=
  let xs := spans s u o.cid va (8 * l.length) true
  match s.privetStop o.cid true xs with
  | some x => privetFail s o x.pa
  | none => if s.pathStop xs then failJob s o stUnmapped else writeSpans s o xs l

/-- The digest of a write to host memory: what falls within each 64-byte block (R436). -/
def digestHost (s : State) (o : Owner) (addr : Nat) (l : List Byte) : State :=
  if s.digests o then
    forL (linesOf addr l.length) (fun a s =>
      let lo := max a addr
      digestAdd s o (at_ 63 62 2 ||| at_ 61 0 lo) ((l.drop (lo - addr)).take (a + 64 - lo))) s
  else s

/-- Write words of job data to host memory (R379, R512): poison ends the job. -/
def writeHost (s : State) (fn : Nat) (o : Owner) (addr : Nat) (l : List PWord) : State :=
  let s := digestHost (dmaWords s fn true addr l) o addr (pbytes l)
  if anyPoison l then failJob s o stPoisoned else s

/-- Every request sent to a peer for an owner has been acknowledged or answered. -/
def State.quiet (s : State) (o : Owner) : Bool := !s.fab.reqs.any (fun r => r.owner == some o)

/-- The CID, class and mode of a job's command. -/
def ownerOf (j : Job) (idx : Nat) : Owner := ⟨j.id, idx, j.cid, j.lc, j.repro⟩

/-- The mover that serves a core (Table — engine queues). -/
def moverOf (c : Nat) : Nat := 2 * (c / 6) + b2n (decide (3 ≤ c % 6))

end Sys2Proof.Machine
end

