-- ==== Sys2Proof/Machine/Versions.lean ====
section
/-!
DEFINITION. Table versions as the engines use them (chapters 04, 05, 10): the geometry of rows and of staging, the pages
of a version, what a job is bound to, and the zeroing of staging structures.
-/
namespace Sys2Proof.Machine

/-! ### Rows (R93, R98, R110) -/

/-- The stride of a row of `e` elements of a format (R93). -/
def rowStride (f e : Nat) : Nat := 32 * ceilDiv (64 + e * fmtBits f) 256

def TableEntry.stride (t : TableEntry) : Nat := rowStride t.format t.elems

/-- Virtual address of row i. -/
def TableEntry.rowVa (t : TableEntry) (i : Nat) : Nat := t.baseVa + i * t.stride

/-- The table can use the integer path. -/
def TableEntry.intTable (t : TableEntry) : Bool :=
  (t.format == 0xA || t.format == 0xB || t.format == 0x7 || t.format == 0x8 || t.format == 0x9) && !t.rowScaled

/-- M of R110. -/
def intMax (f : Nat) : Nat := if f = 0x8 then 255 else if f = 0x9 then 8 else 128

/-! ### The pages of a version -/

/-- The physical address of a virtual address in the pages of a version. -/
def VSlot.paOf (v : VSlot) (va : Nat) : Option Nat :=
  (v.pages.find? (fun r => decide (r.vpage ≤ va / 65536 ∧ va / 65536 < r.vpage + r.pages))).map
    (fun r => r.pa + (va - 65536 * r.vpage))

/-- Zero a virtual range of a version, as far as it lies in local DRAM. -/
def zeroVa (s : State) (v : VSlot) (va n : Nat) : State :=
  forL (v.parts va n) (fun e s =>
    if s.route e.1 = .dram then
      let a := paOff e.1
      afterWrite (thicketInvalidate (settleLoose a e.2 { s with dram := s.dram.zero a e.2 }) a e.2) a e.2
    else s) s

/-! ### Where a row lies (R113, R116, R319) -/

/-- Where an index leads. -/
inductive RowAt where
  | pad | invalid
  | dram (off : Nat)
  | tail (space off : Nat)
  | remote (peer : Nat)
  | wait (leaf page : Nat)
  | bad (st : Status)
deriving DecidableEq, Repr

/-- The local offset of a row in local DRAM. -/
def RowAt.local? : RowAt → Option Nat
  | .dram off => some off
  | _ => none

/-- Translate row i of a version: the row is one tile (R358). -/
def rowAt (s : State) (u : Nat) (cid : BitVec 12) (t : TableEntry) (home : Bool) (i : Nat) : RowAt :=
  let va := t.rowVa i
  match footprint s u cid [(va, t.stride, false)] [] with
  | .bad st => .bad st
  | .wait k p => .wait k p
  | _ =>
    match translate s u cid va false with
    | .ok pa =>
      match s.route pa with
      | .dram => .dram (paOff pa)
      | .remote => if home then .bad stUnmapped else .remote (paModule pa)
      | _ => .tail (paSpace pa) (paOff pa)
    | .bad st => .bad st
    | .wait k => .wait k (va / 65536)

/-! ### Binding (R129, R130) -/

/-- The slot key of a table's version to which a job is bound. -/
def State.bound (s : State) (job table : Nat) : Option Nat :=
  match s.job job with
  | none => none
  | some j => (j.binds.find? (fun e => e.1 == table)).map (·.2)

/-- Admitted jobs bound to a version or holding it (R137, R138). -/
def State.users (s : State) (key : Nat) : Nat :=
  s.jobs.countP (fun j => j.status.isNone && ((j.binds ++ j.holds).any (fun e => e.2 == key)))

/-! ### TABLE_SWAP and admission (R131, R134) -/

/-- Slots of a table. -/
def slotKeys (table : Nat) : List Nat := (List.range 4).map (fun i => 4 * table + i)

def actFlip : Nat := 0
def actDrop : Nat := 1

/-- The slot of a table that is in a state. -/
def State.slotIn (s : State) (table : Nat) (st : VState) : Option Nat :=
  (slotKeys table).find? (fun k => (s.slot k).state == st)

/-- The slot that an entry places in RETIRING. -/
def placedBy (s : State) (e : Nat × Nat) : Option Nat := s.slotIn e.1 (if e.2 = actDrop then .shadow else .current)

/-- R134: no table would have a third RETIRING slot. -/
def swapFits (s : State) (l : List (Nat × Nat)) : Bool :=
  l.all (fun e => decide ((slotKeys e.1).countP (fun k => (s.slot k).state == .retiring) +
    b2n (placedBy s e).isSome ≤ 2))

/-- A TABLE_SWAP that is held can be applied: it is, before the next admission. -/
def State.swapDue (s : State) : Bool := s.heldSwaps.any (fun h => !h.applied && swapFits s h.entries)

/-! ### Staging (R314 to R317) -/

/-- A group keeps state (R315). -/
def Coef.keeps (c : Coef) : Bool := !((c.c.getD 0 0).toNat % 2 ^ 31 == 0) || c.s2Mode != 0 || c.biasCorr || c.etaIndex

/-- s1 is stored. -/
def Coef.hasS1 (c : Coef) : Bool := !((c.c.getD 0 0).toNat % 2 ^ 31 == 0)

/-- The stride of a state record of `e` elements. -/
def Coef.stateStride (c : Coef) (e : Nat) : Nat := 8 + 4 * e * (b2n c.hasS1 + b2n (c.s2Mode == 1))

def State.coef (s : State) (g : Nat) : Coef := Tbl.get {} s.upd.coef g

/-- Zero the staging structures of a version: keys, staging rows, lists and counts (R331). -/
def zeroStaging (s : State) (key : Nat) : State :=
  let v := s.slot key
  match v.upd with
  | none => s
  | some u =>
    let s := forL (u.structures v.entry.elems) (fun x s => zeroVa s v x.1 x.2) s
    { s with upd := { s.upd with dirty := s.upd.dirty.filter (· != key) } }

/-- Zero the staging of a version left undefined, before it is used again (R331). -/
def cleanStaging (s : State) (key : Nat) : State := if s.upd.dirty.contains key then zeroStaging s key else s

/-- The trainable versions. -/
def State.trainables (s : State) : List Nat := (s.slots.filter (fun e => e.2.upd.isSome)).map (·.1)

end Sys2Proof.Machine
end

