-- ==== Sys2Proof/Machine/Grads.lean ====
section
/-!
DEFINITION. One gradient entry (R319), as the scatter port and the fabric edge of a home module process it (R323): the slot
of its row, the claim of a free one, and the sum into its staging row; and the gradient ADDs that a home module holds.
-/
namespace Sys2Proof.Machine

/-- What becomes of a gradient entry. -/
inductive GradEnd where
  | done | overflow
  | wait (leaf page : Nat)
  | fail (st : Status)
  | privet (pa : Nat)
  | busy (lines : List Nat)
deriving DecidableEq, Repr

/-- What stops a tile of several ranges (R358): of the pages that fail, the lowest decides; else one that waits; else a piece
that is not local, a region that is closed to the CID, or lines that requests wait for. -/
def tileStop (s : State) (u : Nat) (cid : BitVec 12) (pages parts : List (Nat × Nat × Bool)) : Option GradEnd :=
  let outs := pageOutcomes s u cid (sortBy (fun a b => decide (a.1 ≤ b.1)) pages)
  match firstBad outs, firstWait outs with
  | some st, _ => some (.fail st)
  | none, some (k, p) => some (.wait k p)
  | none, none =>
    let l := parts.flatMap (fun e => (spans s u cid e.1 e.2.1 e.2.2).map (fun x => (x, e.2.2)))
    if l.any (fun x => s.route x.1.pa != .dram) then some (.fail stBadDescriptor)
    else
      match l.find? (fun x => (s.privetStop cid x.2 [x.1]).isSome) with
      | some x => some (.privet x.1.pa)
      | none =>
        let lines := localLines s u cid parts
        if s.busyLines lines then some (.busy lines) else none

/-- What stops one tile whose every range is read or written. -/
def partsStop (s : State) (u : Nat) (cid : BitVec 12) (l : List (Nat × Nat)) : Option GradEnd :=
  let w := l.map (fun e => (e.1, e.2, true))
  tileStop s u cid w w

/-- The local offset of a word that translates; none where it does not, or lies elsewhere. -/
def wordOff (s : State) (u : Nat) (cid : BitVec 12) (va : Nat) : Option Nat :=
  match translate s u cid va true with
  | .ok pa => if s.route pa = .dram then some (paOff pa) else none
  | _ => none

/-- The local offset of one word that is a tile of its own, or what stops it. -/
def localWord (s : State) (u : Nat) (cid : BitVec 12) (va : Nat) : Except GradEnd Nat :=
  match partsStop s u cid [(va, 8)], wordOff s u cid va with
  | some z, _ => .error z
  | none, none => .error (.fail stBadDescriptor)
  | none, some off => .ok off

/-! ### Adder operations of a unit -/

/-- The packet of an operation on `n` bytes. -/
def adderOp (op acc src n off : Nat) (exp : Int) : AdderPkt :=
  { target := off, op := op, acc := acc, src := src, exp := exp, len := n, ordered := false, count := 0, elems := 8 }

/-- An adder operation at a virtual address, with its share of the digest (R436). -/
def adderAt (o : Owner) (va : Nat) (p : AdderPkt) (operand : List PWord) (s : State) : State × List PWord :=
  let s := digestAdd s o (at_ 63 62 1 ||| at_ 51 0 va) (pbytes operand)
  if p.single then adderDo s p p.target operand else (adderSplit s p p.target operand, [])

/-! ### Finding the slot (R319) -/

/-- The first slot that the probe visits. -/
def probeStart (slotsLog i : Nat) : Nat := (i * 0x9E3779B97F4A7C15 % 2 ^ 64) >>> (64 - slotsLog)

/-- Where a probe ends: a slot, free or the row's own; no slot; a word whose page stops it; or a poisoned word. -/
inductive ProbeEnd where
  | slot (h : Nat) (free : Bool)
  | none | page | poisoned
deriving DecidableEq, Repr

/-- Probe the key array for row i from slot h on: the end, and the key words visited, by virtual address. -/
def probe (s : State) (u : Nat) (cid : BitVec 12) (e : UpdEntry) (i : Nat) : Nat → Nat → List Nat → ProbeEnd × List Nat
  | 0, _, seen => (.none, seen)
  | n + 1, h, seen =>
    let va := e.keysVa + 8 * h
    let seen := seen ++ [va]
    match wordOff s u cid va with
    | none => (.page, seen)
    | some off =>
      let w := s.dramWord (off / 8)
      if w.poison then (.poisoned, seen)
      else if w.data = 0 then (.slot h true, seen)
      else if w.data.toNat = i + 1 then (.slot h false, seen)
      else probe s u cid e i n ((h + 1) % e.nslots) seen

/-! ### One entry -/

/-- The sum of a vector into a staging row, in operations of at most 4,096 bytes. -/
def stageAdd (o : Owner) (e : UpdEntry) : List Span → List PWord → State → State
  | [], _, s => s
  | x :: l, vec, s =>
    let words := if e.stageFmt = 0 then x.n / 8 else x.n / 16
    let op := fun (a n : Nat) => if e.stageFmt = 0 then adderOp opAdd 0x0 0x0 n (paOff x.pa + a) 0
      else adderOp opAddFx 0xC 0x0 n (paOff x.pa + a) e.exp
    let per := if e.stageFmt = 0 then 512 else 256
    let s := forN (ceilDiv x.n 4096) (fun k s =>
      (adderAt o (x.va + 4096 * k) (op (4096 * k) (min 4096 (x.n - 4096 * k))) (((vec.take words).drop (per * k)).take per) s).1) s
    stageAdd o e l (vec.drop words) s

/-- The place in a stack's list that a claim takes: the count's value, where it can be read. -/
def listPlace (s : State) (u : Nat) (cid : BitVec 12) (e : UpdEntry) (st : Nat) : Option Nat :=
  (wordOff s u cid (e.countVa + 8 * st)).bind (fun off =>
    let n := s.dramWord (off / 8)
    if n.poison then none else some (e.listVa + 8 * (st * e.nslots + n.data.toNat)))

/-- The parts of one entry's tile besides its row, for a row of stack `st` where that is known (Table — tiles). -/
def entryParts (s : State) (u : Nat) (cid : BitVec 12) (e : UpdEntry) (elems : Nat) (st : Option Nat) (x : ProbeEnd)
    (seen : List Nat) : List (Nat × Nat) :=
  let keys := seen.map (fun va => (va, 8))
  match x with
  | .slot h free =>
    let stage := (e.stageVa + h * e.stageStride elems, e.stageStride elems)
    match free, st with
    | true, some st => keys ++ [stage, (e.countVa + 8 * st, 8)] ++ (listPlace s u cid e st).toList.map (fun va => (va, 8))
    | _, _ => keys ++ [stage]
  | _ => keys

/-- A word of the update structures that the tile has translated. -/
def partOff (s : State) (u : Nat) (cid : BitVec 12) (va : Nat) : Nat := (wordOff s u cid va).getD 0

/-- Claim a free slot for a row of stack `st`: the count, and the row's place in the stack's list. -/
def claimSlot (o : Owner) (u : Nat) (e : UpdEntry) (st h : Nat) (s : State) : State :=
  let cnt := e.countVa + 8 * st
  let off := partOff s u o.cid cnt
  let va := e.listVa + 8 * (st * e.nslots + (s.dramWord (off / 8)).data.toNat)
  let list := partOff s u o.cid va
  let s := (adderAt o cnt (adderOp opFetchAdd 0xC 0xC 32 off 0) [.good 1] s).1
  let w := [PWord.good (BitVec.ofNat 64 h)]
  digestVa (dramPut s list w) o va w list

/-- R319 for row i of a version; `row` is where it lies in local DRAM, none where its page has stopped it. -/
def gradLocal (s : State) (o : Owner) (u key i : Nat) (row : Option Nat) (vec : List PWord) : State × GradEnd :=
  let v := s.slot key
  match v.upd with
  | none => (s, .fail stBadDescriptor)
  | some e =>
    let st := row.map s.stack
    let (x, seen) := probe s u o.cid e i 64 (probeStart e.slotsLog i) []
    let parts := (entryParts s u o.cid e v.entry.elems st x seen).map (fun p => (p.1, p.2, true))
    let pages := (v.entry.rowVa i, v.entry.stride, false) :: parts
    let s := walkPages s u o.cid pages
    match tileStop s u o.cid pages parts, row with
    | some z, _ => (s, z)
    | none, none => (s, .fail stUnmapped)
    | none, some _ =>
      let cas := fun (s : State) => forL seen (fun va s =>
        (adderAt o va (adderOp opCas 0xC 0xC 32 (partOff s u o.cid va) 0) [.good 0, .good (BitVec.ofNat 64 (i + 1))] s).1) s
      let stage := fun (h : Nat) (s : State) =>
        stageAdd o e (spans s u o.cid (e.stageVa + h * e.stageStride v.entry.elems) (e.stageStride v.entry.elems) true) vec s
      match x with
      | .page => (s, .fail stBadDescriptor)
      | .poisoned => (s, .fail stPoisoned)
      | .none => (cas s, .overflow)
      | .slot h false => (stage h (cas s), .done)
      | .slot h true =>
        let n := st.getD 0
        if (listPlace s u o.cid e n).isNone then (s, .fail stPoisoned)
        else (stage h (claimSlot o u e n h (cas s)), .done)

/-! ### The home module (R323, R326, R557) -/

/-- A version that a step close is closing. -/
def State.closing (s : State) (key : Nat) : Bool := s.upd.closes.any (fun c => c.versions.contains key)

/-- On whose behalf a home module acts: no job of its own, told apart by sender and transaction. -/
def HeldGrad.owner (g : HeldGrad) : Owner := ⟨0, 65536 * g.peer + g.txn.toNat, g.cid, false, false⟩

/-- A gradient ADD is dropped and counted in REMOTE_STALE; the rules do not say in which hedge's record. -/
def staleGrad (s : State) : State :=
  let (x, s) := takeFree s
  upHedge s (x % 12) (fun h => { h with up := { h.up with remoteStale := h.up.remoteStale + 1 } })

/-- The version that a gradient ADD names, where it is not free and trainable and the CID has a job that may update (R323,
R557). -/
def HeldGrad.target (g : HeldGrad) (s : State) : Option Nat :=
  if s.jobs.any (fun j => j.status.isNone && j.cid == g.cid && j.usesUpdate) then
    ((List.range 4).map (fun i => 4 * g.table + i)).find? (fun k =>
      (s.slot k).state != .free && (s.slot k).tv == g.tv && (s.slot k).upd.isSome)
  else none

/-- The entry of a held gradient ADD. -/
def HeldGrad.entry (g : HeldGrad) (key : Nat) (s : State) : State × GradEnd :=
  let t := (s.slot key).entry
  if t.rowCount ≤ g.row then (s, .fail stIndexInvalid)
  else if 2 * g.vec.length ≠ t.elems then (s, .fail stBadDescriptor)
  else
    match rowAt s uFabric g.cid t true g.row with
    | .dram off => gradLocal s g.owner uFabric key g.row (some off) g.vec
    | .wait _ _ => gradLocal s g.owner uFabric key g.row none g.vec
    | .bad _ => gradLocal s g.owner uFabric key g.row none g.vec
    | _ => (s, .fail stBadDescriptor)

/-- One held ADD: it executes and its slot is emptied, or it is dropped, or answered with what stops it, or it waits on. -/
def runGrad (g : HeldGrad) (s : State) : State :=
  let o := g.owner
  let drop := fun (s : State) => { s with upd := { s.upd with heldGrads := dropFirst (· == g) s.upd.heldGrads } }
  let stop := fun (s : State) (st : Status) => slotFreed (sendResp (drop s) g.peer false 4 g.cid g.txn st []) g.peer false g.txn
  match g.target s with
  | none => slotFreed (staleGrad (drop s)) g.peer false g.txn
  | some key =>
    if s.closing key || s.tileWaits o (some uFabric) none then s
    else
      match g.entry key (cleanStaging s key) with
      | (s, .done) => slotFreed (drop s) g.peer false g.txn
      | (s, .overflow) => stop s stJobFault
      | (s, .fail st) => stop s st
      | (s, .privet pa) =>
        let h := if paSpace pa = 0 then s.stack (paOff pa) else 0
        stop (upTr s h (fun r => { r with privetRefused := r.privetRefused + 1 })) stProtection
      | (s, .wait k p) => waitTile s o (some uFabric) none 0 k p
      | (s, .busy l) => raiseLines s false l

/-- Every held ADD that need not wait goes. -/
def runGrads (s : State) : State := forL s.upd.heldGrads runGrad s

end Sys2Proof.Machine
end

