-- ==== Sys2Proof/Machine/Sequencer.lean ====
section
/-!
DEFINITION. The core sequencer (chapter 09): fetching and predicating ops, scalar ops, scratchpad ops, issue and
waiting, and the start and end of invocations.
-/
namespace Sys2Proof.Machine

/-! ### Op words and registers (R277, R278, R285) -/

def opCode (w : Word) : Nat := fld w 63 56

/-- The open loop of a level; the innermost loop stands first. -/
def Invocation.level (v : Invocation) (d : Nat) : Option LoopLv := v.loops.reverse[d]?

/-- A register's value (Table — register codes). -/
def Invocation.reg (v : Invocation) (code : Nat) : Word :=
  if code < 12 then v.args.getD code 0
  else if code < 16 then
    match v.level (code - 12) with
    | none => 0
    | some l => BitVec.ofNat 64 l.index
  else if code < 31 then Tbl.get 0 v.sregs code
  else 0

/-- Write a destination register: an S register. -/
def Invocation.setReg (v : Invocation) (code : Nat) (x : Word) : Invocation :=
  if 16 ≤ code ∧ code < 31 then { v with sregs := Tbl.set 0 v.sregs code x } else v

def Invocation.dst (w : Word) : Nat := fld w 49 45
def Invocation.src1 (v : Invocation) (w : Word) : Word := v.reg (fld w 44 40)
def Invocation.src2 (v : Invocation) (w : Word) : Word := v.reg (fld w 39 35)

/-- IMM, sign-extended (R279). -/
def immS (w : Word) : Word := (w.extractLsb' 0 32).signExtend 64

/-- The condition of an op (Table — predicate conditions). -/
def Invocation.holds (v : Invocation) (w : Word) : Bool :=
  if !bit w 55 then true
  else
    match v.level (fld w 54 53) with
    | none => false
    | some l =>
      match fld w 52 50 with
      | 0 => l.index == 0
      | 1 => l.index + 1 == l.count
      | 2 => l.index != 0
      | 3 => l.index + 1 != l.count
      | 4 => l.index % 2 == 0
      | 5 => l.index % 2 == 1
      | _ => false

/-- The loops and the next op once the op at `p` is done (R283). -/
def closeLoops : List LoopLv → Nat → List LoopLv × Nat
  | [], p => ([], p + 1)
  | l :: t, p =>
    if l.last = p then
      if l.index + 1 < l.count then ({ l with index := l.index + 1 } :: t, l.first) else closeLoops t p
    else (l :: t, p + 1)

/-- Go on after the op at `p`. -/
def Invocation.after (v : Invocation) (p : Nat) : Invocation :=
  let r := closeLoops v.loops p
  { v with loops := r.1, pc := r.2, wait := .running }

/-- Last op of the body of the LOOP or LOOPR at the pc. -/
def Invocation.bodyEnd (v : Invocation) (w : Word) : Nat := v.pc + 1 + fld w 49 35

/-- Change the running invocation of a core. -/
def upSeq (s : State) (c : Nat) (f : Invocation → Invocation) : State :=
  upCore s c (fun k => { k with seq := k.seq.map f })

/-- The sequencer goes on to the next op. -/
def seqNext (s : State) (c : Nat) : State := upSeq s c (fun v => v.after v.pc)

/-! ### Fetch (R276) -/

/-- Fetch word `n` of a bank for a job: a corrected word is written back; an uncorrectable one becomes poison, is
counted and posted once, and ends the job. -/
def fetchStore (s : State) (c bank n : Nat) (o : Owner) : State × Option Word :=
  let k := 32768 * bank + n
  let y := Tbl.get 0 (s.core c).storeSyn k
  if synFixes y then
    (upCore s c (fun x => { x with storeSyn := Tbl.set 0 x.storeSyn k 0, sq := { x.sq with rsCe := x.sq.rsCe + 1 } }),
     some (Tbl.get 0 s.routines.words k))
  else if synBad y then
    let s := upCore s c (fun x =>
      { x with storeSyn := Tbl.set 0 x.storeSyn k 0xFE, sq := { x.sq with rsUe := x.sq.rsUe + 1 } })
    let s := uePoison s unitStore c 0xFFFF (at_ 63 63 bank ||| at_ 14 0 n)
    (failJob s o stPoisoned, none)
  else if y = 0xFE then (failJob s o stPoisoned, none)
  else (s, some (Tbl.get 0 s.routines.words k))

/-- The running invocation of a core that waits for nothing. -/
def State.running (s : State) (c : Nat) : Option Invocation :=
  match (s.core c).seq with
  | none => none
  | some v => if v.wait = .running then some v else none

/-- The op that a core's sequencer stands at, as its store holds it. -/
def State.opAt (s : State) (c : Nat) (v : Invocation) : Nat × BitVec 8 :=
  (opCode (Tbl.get 0 s.routines.words (32768 * v.bank + v.pc)), Tbl.get 0 (s.core c).storeSyn (32768 * v.bank + v.pc))

/-- An op whose condition fails takes a step and does nothing; a LOOP skips its body (R285). -/
def skipOp (s : State) (c : Nat) (v : Invocation) (w : Word) : State :=
  if opCode w = 0x02 ∨ opCode w = 0x03 then upSeq s c (fun x => x.after (v.bodyEnd w)) else seqNext s c

/-- Run the op at a core's sequencer where it has the opcode `code`: `f` performs it (R279, R303). -/
def seqOp (s : State) (c code : Nat) (f : Invocation → Word → State → State) : State :=
  whenPowered s fun s =>
    match s.running c with
    | none => s
    | some v =>
      let a := s.opAt c v
      if a.1 = code ∨ synBad a.2 ∨ a.2 = 0xFE then
        match fetchStore s c v.bank v.pc v.owner with
        | (s, none) => s
        | (s, some w) =>
          let s := upCore s c (fun k => { k with sq := { k.sq with ops := k.sq.ops + 1 } })
          if v.holds w then f v w s else skipOp s c v w
      else s

/-! ### Scalar ops -/

/-- A scalar op: its result goes to DST; a failed residue check ends the job and writes nothing (log entry 23). -/
def scalar (s : State) (c code : Nat) (bad : Bool) (g : Invocation → Word → Word) : State :=
  seqOp s c code fun v w s =>
    if bad then arithFault s v.owner unitSequencer c 0 0
    else seqNext (upSeq s c (fun x => x.setReg (Invocation.dst w) (g v w))) c

/-- A shift amount in a register. -/
def shamt (x : Word) : Nat := x.toNat % 64

/-- The signed smaller and larger. -/
def sminW (a b : Word) : Word := if a.toInt ≤ b.toInt then a else b
def smaxW (a b : Word) : Word := if a.toInt ≤ b.toInt then b else a

/-- R279: NOP. -/
def execSeqNop (c : CoreId) (s : State) : Out := .next (seqOp s c 0x00 fun _ _ s => seqNext s c)

def execSeqMovi (c : CoreId) (s : State) : Out := .next (scalar s c 0x10 false fun _ w => immS w)

def execSeqMovhi (c : CoreId) (s : State) : Out :=
  .next (scalar s c 0x11 false fun v w =>
    (w.extractLsb' 0 32).zeroExtend 64 <<< 32 ||| ((v.reg (Invocation.dst w)).extractLsb' 0 32).zeroExtend 64)

def execSeqMov (c : CoreId) (s : State) : Out := .next (scalar s c 0x12 false fun v w => v.src1 w)

def execSeqAdd (c : CoreId) (bad : Bool) (s : State) : Out :=
  .next (scalar s c 0x13 bad fun v w => v.src1 w + v.src2 w)

def execSeqSub (c : CoreId) (bad : Bool) (s : State) : Out :=
  .next (scalar s c 0x14 bad fun v w => v.src1 w - v.src2 w)

def execSeqMul (c : CoreId) (bad : Bool) (s : State) : Out :=
  .next (scalar s c 0x15 bad fun v w => v.src1 w * v.src2 w)

def execSeqAnd (c : CoreId) (bad : Bool) (s : State) : Out :=
  .next (scalar s c 0x16 bad fun v w => v.src1 w &&& v.src2 w)

def execSeqOr (c : CoreId) (bad : Bool) (s : State) : Out :=
  .next (scalar s c 0x17 bad fun v w => v.src1 w ||| v.src2 w)

def execSeqXor (c : CoreId) (bad : Bool) (s : State) : Out :=
  .next (scalar s c 0x18 bad fun v w => v.src1 w ^^^ v.src2 w)

def execSeqShl (c : CoreId) (bad : Bool) (s : State) : Out :=
  .next (scalar s c 0x19 bad fun v w => v.src1 w <<< shamt (v.src2 w))

def execSeqShr (c : CoreId) (bad : Bool) (s : State) : Out :=
  .next (scalar s c 0x1A bad fun v w => v.src1 w >>> shamt (v.src2 w))

def execSeqSra (c : CoreId) (bad : Bool) (s : State) : Out :=
  .next (scalar s c 0x1B bad fun v w => (v.src1 w).sshiftRight (shamt (v.src2 w)))

def execSeqMin (c : CoreId) (s : State) : Out := .next (scalar s c 0x1C false fun v w => sminW (v.src1 w) (v.src2 w))

def execSeqMax (c : CoreId) (s : State) : Out := .next (scalar s c 0x1D false fun v w => smaxW (v.src1 w) (v.src2 w))

def execSeqAddi (c : CoreId) (bad : Bool) (s : State) : Out :=
  .next (scalar s c 0x1E bad fun v w => v.src1 w + immS w)

def execSeqMuli (c : CoreId) (bad : Bool) (s : State) : Out :=
  .next (scalar s c 0x1F bad fun v w => v.src1 w * immS w)

def execSeqMadi (c : CoreId) (bad : Bool) (s : State) : Out :=
  .next (scalar s c 0x20 bad fun v w => v.src1 w + v.src2 w * immS w)

def execSeqShli (c : CoreId) (bad : Bool) (s : State) : Out :=
  .next (scalar s c 0x21 bad fun v w => v.src1 w <<< shamt (immS w))

def execSeqShri (c : CoreId) (bad : Bool) (s : State) : Out :=
  .next (scalar s c 0x22 bad fun v w => v.src1 w >>> shamt (immS w))

def execSeqAndi (c : CoreId) (bad : Bool) (s : State) : Out :=
  .next (scalar s c 0x23 bad fun v w => v.src1 w &&& (w.extractLsb' 0 32).zeroExtend 64)

/-! ### Loops (R283, R284) -/

/-- Open a loop at the op `w`, or skip its body where the count is 0. -/
def openLoop (s : State) (c : Nat) (v : Invocation) (w : Word) (count : Nat) : State :=
  if count = 0 then upSeq s c (fun x => x.after (v.bodyEnd w))
  else
    upSeq s c (fun x => { x with
      loops := { index := 0, count := count, first := v.pc + 1, last := v.bodyEnd w } :: x.loops
      pc := v.pc + 1 })

def execSeqLoop (c : CoreId) (s : State) : Out :=
  .next (seqOp s c 0x02 fun v w s => openLoop s c v w (fld w 31 0))

def execSeqLoopr (c : CoreId) (s : State) : Out :=
  .next (seqOp s c 0x03 fun v w s =>
    let n := (v.reg (fld w 31 27)).toNat
    if 2 ^ 32 ≤ n then failJob s v.owner stBadDescriptor else openLoop s c v w n)

/-! ### Scratchpad ops (R280, R281) -/

/-- ADR + OFFSET, wrapped at 64 bits as every register is (log entry 31). -/
def Invocation.addr (v : Invocation) (w : Word) : Nat := (v.reg (fld w 49 45) + BitVec.ofNat 64 (fld w 24 0)).toNat

/-- An aligned range of the scratchpad. -/
def spRange (a align n : Nat) : Bool := decide (a % align = 0 ∧ a < scratchBytes ∧ a + n ≤ scratchBytes)

/-- R279: STORE. -/
def execSeqStore (c : CoreId) (s : State) : Out :=
  .next (seqOp s c 0x30 fun v w s =>
    let a := v.addr w
    if spRange a 8 8 then seqNext (spPut s c v.owner a [.good (v.src1 w)]) c else failJob s v.owner stBadDescriptor)

/-- A word with W bits of `x` placed at LSB. -/
def patchWord (old x : Word) (lsb width : Nat) : Word :=
  let m : Word := at_ (width - 1) 0 (2 ^ width - 1) <<< lsb
  (old &&& ~~~m) ||| ((x <<< lsb) &&& m)

/-- R279: PATCH; a poisoned word stays poison unless all of it is written (R271, log entry 16). -/
def execSeqPatch (c : CoreId) (s : State) : Out :=
  .next (seqOp s c 0x31 fun v w s =>
    let a := v.addr w
    if spRange a 64 64 then
      let p := a + 8 * fld w 39 37
      let n := fld w 30 25 + 1
      let s := spTouch s c p 8
      let old := (s.core c).scratch.word (p / 8)
      let new : PWord := if old.poison ∧ n < 64 then PWord.bad else .good (patchWord old.data (v.src1 w) (fld w 36 31) n)
      seqNext (spPut s c v.owner p [new]) c
    else failJob s v.owner stBadDescriptor)

/-- R279: COPYD; poison is carried (R376). -/
def execSeqCopyd (c : CoreId) (s : State) : Out :=
  .next (seqOp s c 0x32 fun v w s =>
    let a := v.addr w
    let b := (v.src1 w).toNat
    if spRange a 64 64 && spRange b 64 64 then
      let s := spTouch s c b 64
      seqNext (spPut s c v.owner a (s.spW c b 8)) c
    else failJob s v.owner stBadDescriptor)

/-- R279: ZERO. -/
def execSeqZero (c : CoreId) (s : State) : Out :=
  .next (seqOp s c 0x33 fun v w s =>
    let a := v.addr w
    let n := (v.src1 w).toNat
    if decide (n ≤ 327680) && spRange a 64 (64 * n) then
      seqNext (spPut s c v.owner a (List.replicate (8 * n) (.good 0))) c
    else failJob s v.owner stBadDescriptor)

/-- R282: the codebook unit fetches what it does not hold; an op that names a codebook not installed does
nothing, and a record that is poison is not kept. -/
def execCbFetch (c : CoreId) (s : State) : Out :=
  .next (seqOp s c 0x50 fun _ w s =>
    let ids := (List.range (fld w 49 44 + 1)).map (fun i => fld w 43 32 + i)
    let s := if ids.all s.cbInstalled then (coreCbs c ids s).1 else s
    seqNext s c)

/-- A clip slot as one word (R183). -/
def Core.clipWord (k : Core) (n : Nat) : Word := regAt 63 32 (Tbl.get 0 k.clipped n) ||| regAt 31 0 (Tbl.get 0 k.clipTotal n)

/-- R184: CLIP_RC. -/
def execClipRc (c : CoreId) (s : State) : Out :=
  .next (seqOp s c 0x51 fun v w s =>
    let a := v.addr w
    let n := fld w 39 37
    if spRange a 8 8 then
      let x := (s.core c).clipWord n
      let s := upCore s c (fun k => { k with clipped := Tbl.set 0 k.clipped n 0, clipTotal := Tbl.set 0 k.clipTotal n 0 })
      seqNext (spPut s c v.owner a [.good x]) c
    else failJob s v.owner stBadDescriptor)

/-! ### Queues (R264, R265, R286) -/

/-- A core's queue by its code (Table — engine queues). -/
def Core.queue (k : Core) (q : Nat) : List QEntry :=
  match q with
  | 0 => k.qArray
  | 1 => k.qVector
  | 2 => k.qLookup
  | 3 => k.qMove
  | _ => k.qScatter

def Core.setQueue (k : Core) (q : Nat) (l : List QEntry) : Core :=
  match q with
  | 0 => { k with qArray := l }
  | 1 => { k with qVector := l }
  | 2 => { k with qLookup := l }
  | 3 => { k with qMove := l }
  | _ => { k with qScatter := l }

/-- Depth of a queue. -/
def queueDepth (q : Nat) : Nat := if q = 2 then 16 else 8

/-- Descriptors of an invocation outstanding in a queue. -/
def Core.outstanding (k : Core) (o : Owner) (q : Nat) : Nat := (k.queue q).countP (fun e => e.owner == o)

/-- The queue takes a copy of the descriptor (R286). -/
def capture (s : State) (c q a : Nat) (v : Invocation) : State :=
  let s := spTouch s c a 64
  let e : QEntry := { desc := s.spW c a 8, addr := a, owner := v.owner }
  seqNext (upCore s c (fun k => k.setQueue q (k.queue q ++ [e]))) c

/-- R286: an ISSUE op; where its queue is full, it waits. -/
def issueOp (s : State) (c code q : Nat) : State :=
  seqOp s c code fun v w s =>
    let a := v.addr w
    if !spRange a 64 64 then failJob s v.owner stBadDescriptor
    else if ((s.core c).queue q).length < queueDepth q then capture s c q a v
    else upSeq s c (fun x => { x with wait := .issue q a })

def execIssueArray (c : CoreId) (s : State) : Out := .next (issueOp s c 0x40 0)
def execIssueVector (c : CoreId) (s : State) : Out := .next (issueOp s c 0x41 1)
def execIssueLookup (c : CoreId) (s : State) : Out := .next (issueOp s c 0x42 2)
def execIssueMove (c : CoreId) (s : State) : Out := .next (issueOp s c 0x43 3)
def execIssueScatter (c : CoreId) (s : State) : Out := .next (issueOp s c 0x44 4)

/-- The steps waited, which the model does not count, are a free value (R303, log entry 5). -/
def stalled (s : State) (c : Nat) : State :=
  let (n, s) := takeFree s
  upCore s c (fun k => { k with sq := { k.sq with stall := k.sq.stall + n } })

/-- R286: an ISSUE that waited finds a free entry. -/
def execIssueCapture (c : CoreId) (s : State) : Out :=
  .next (whenPowered s fun s =>
    match (s.core c).seq with
    | none => s
    | some v =>
      match v.wait with
      | .issue q a =>
        if ((s.core c).queue q).length < queueDepth q then capture (stalled s c) c q a v else s
      | _ => s)

/-! ### Waiting (R279, R287) -/

/-- Each selected queue holds at most n outstanding descriptors of the invocation. -/
def Core.waitHolds (k : Core) (o : Owner) (mask n : Nat) : Bool :=
  (List.range 5).all (fun q => !mask.testBit q || decide (k.outstanding o q ≤ n))

/-- R279: WAIT. -/
def execSeqWait (c : CoreId) (s : State) : Out :=
  .next (seqOp s c 0x04 fun v w s =>
    let mask := fld w 49 45
    let n := fld w 44 41
    if (s.core c).waitHolds v.owner mask n then seqNext s c
    else upSeq s c (fun x => { x with wait := .wait mask n }))

/-- R287: the condition of a waiting WAIT holds. -/
def execWaitConditionMet (c : CoreId) (s : State) : Out :=
  .next (whenPowered s fun s =>
    match (s.core c).seq with
    | none => s
    | some v =>
      match v.wait with
      | .wait mask n => if (s.core c).waitHolds v.owner mask n then seqNext (stalled s c) c else s
      | _ => s)

/-- R279: RET waits for what the routine issued. -/
def execSeqRet (c : CoreId) (s : State) : Out :=
  .next (seqOp s c 0x01 fun _ _ s => upSeq s c (fun x => { x with wait := .ret }))

/-! ### Invocations (R290 to R294, R451 to R456) -/

/-- The commands of a job: one has completed. -/
def Job.mark (j : Job) (idx : Nat) (st : CmdState) : Job :=
  { j with cmds := updFirst (fun k => k.idx == idx) (fun k => { k with state := st }) j.cmds }

def cmdMark (s : State) (o : Owner) (st : CmdState) : State := upJob s o.job (fun j => j.mark o.idx st)

/-- R291: RET completes. -/
def execInvocationComplete (c : CoreId) (s : State) : Out :=
  .next (whenPowered s fun s =>
    match (s.core c).seq with
    | none => s
    | some v =>
      if v.wait = .ret ∧ (s.core c).waitHolds v.owner 31 0 then
        let s := stalled s c
        let s := upCore s c (fun k => { k with seq := none, sq := { k.sq with calls := k.sq.calls + 1 } })
        cmdMark s v.owner .done
      else s)

/-- A job may begin on a core: no other job's live region is resident there, and its own has been restored
(R451, R452). -/
def State.mayBegin (s : State) (c id : Nat) : Bool :=
  let k := s.core c
  (k.resident.isNone || k.resident == some id) && k.liveKept.all (fun e => e.1 != id)

/-- Blocks of 64 KiB of a job's live region. -/
def State.liveK (s : State) (id : Nat) : Nat :=
  match s.job id with
  | none => 0
  | some j => j.liveK

/-- A job that has begun on a core and declares live state is resident there. -/
def settleOn (s : State) (c id : Nat) : State :=
  if s.liveK id = 0 then s else upCore s c (fun k => { k with resident := some id })

/-- A job is pre-empted once (R454). -/
def preempt (s : State) (id : Nat) : State :=
  upJob { s with sched := { s.sched with preemptions := s.sched.preemptions + 1 } } id
    (fun j => { j with preempted := true })

/-- The BE jobs with a CALL waiting on a core. -/
def Core.waitingJobs (k : Core) : List Nat := (k.callsBe.map (fun p => p.owner.job)).dedup

/-- Begin a CALL (R290). -/
def beginCall (s : State) (c : Nat) (p : PendCall) : State :=
  match fetchStore s c p.bank p.routine p.owner with
  | (s, none) => s
  | (s, some w) =>
    let v : Invocation := { owner := p.owner, bank := p.bank, routine := p.routine, pc := fld w 62 48,
                            args := p.args, sregs := [], loops := [], wait := .running }
    cmdMark (settleOn (upCore s c (fun k => { k with seq := some v })) c p.owner.job) p.owner .running

/-- R290, R291: the next pending CALL starts, LC before BE. -/
def execSequencerCallStart (c : CoreId) (s : State) : Out :=
  .next (whenPowered s fun s =>
    let k := s.core c
    if k.seq.isSome then s
    else
      match k.callsLc, k.callsBe with
      | p :: rest, _ =>
        if s.mayBegin c p.owner.job then
          let s := upCore s c (fun k => { k with callsLc := rest })
          beginCall (forL k.waitingJobs (fun id s => preempt s id) s) c p
        else s
      | [], p :: rest =>
        if (s.hedge (c / 6)).beHeld then delayStart s c
        else if s.mayBegin c p.owner.job then beginCall (upCore s c (fun k => { k with callsBe := rest })) c p
        else s
      | [], [] => s)

/-! ### Live regions (R449 to R454) -/

/-- The live region of L × 64 KiB: its first byte. -/
def liveBase (l : Nat) : Nat := scratchBytes - 65536 * l

/-- Where a saved region of l blocks of 64 KiB lies, from block p of a core's save area on: past the end of local DRAM where the
regions saved of one core do not fit in the area together (log entry 119). -/
def saveByte (c p l : Nat) : Nat :=
  if p + l ≤ 320 then saveAt c + 65536 * p else dramBytes + 2 ^ 40 * (c + 1) + 65536 * p

/-- The place of a region of l blocks beside those saved of the core: the first of 0 and the ends of the others where it meets
none of them. -/
def State.savePlace (s : State) (c l : Nat) : Nat :=
  let used := (s.core c).liveKept.map (fun e => (e.2, e.2 + s.liveK e.1))
  ((0 :: used.map (·.2)).find? (fun p => used.all (fun e => decide (p + l ≤ e.1 ∨ e.2 ≤ p)))).getD 0

/-- A command of a job that writes the scratchpad of a core and has still to write there. -/
def Job.wantsCore (j : Job) (c : Nat) : Bool :=
  j.cmds.any (fun k => (k.state == .waiting || k.state == .running) &&
    ((k.type == 4 && j.cores.getD (fld (wd k.words 0) 55 49) 72 == c) ||
     (k.type == 5 && fld (wd k.words 0) 53 52 == 2 && j.cores.getD (fld (wd k.words 0) 44 38) 72 == c)))

/-- The class of work that waits to begin on a core whose region is resident for job `id`: LC, else BE or the
Groomer, else nothing. -/
def State.beginner (s : State) (c id : Nat) : Option Bool :=
  let k := s.core c
  let calls := (k.callsLc ++ k.callsBe).filter (fun p => p.owner.job != id)
  let jobs := s.jobs.filter (fun j => j.id != id && j.status.isNone && j.wantsCore c)
  if calls.any (fun p => p.owner.lc) || jobs.any (fun j => j.lc) then some true
  else if calls.isEmpty && jobs.isEmpty && !s.ig.groom.enable then none
  else some false

/-- R451, R454: at the resident job's boundary its live region goes to the save area. -/
def execLiveRegionSave (c : CoreId) (s : State) : Out :=
  .next (whenPowered s fun s =>
    let k := s.core c
    match k.resident with
    | none => s
    | some id =>
      let mine := match k.seq with
        | some v => v.owner.of id
        | none => false
      match s.beginner c id with
      | none => s
      | some lc =>
        if mine then s
        else
          let l := s.liveK id
          let p := s.savePlace c l
          let s := spTouch s c (liveBase l) (65536 * l)
          let s := dramCopy s (s.core c).scratch (liveBase l) (65536 * l) (saveByte c p l)
          let s := upCore s c (fun k => { k with resident := none, liveKept := k.liveKept ++ [(id, p)] })
          let s := { s with sched := { s.sched with liveSaves := s.sched.liveSaves + 1 } }
          if lc then preempt s id else s)

/-- The job whose saved region a core restores next: the one that waits to begin there. -/
def State.toRestore (s : State) (c : Nat) : Option Nat :=
  let k := s.core c
  let kept := k.liveKept.map (·.1)
  match (k.callsLc ++ k.callsBe).find? (fun p => kept.contains p.owner.job) with
  | some p => some p.owner.job
  | none => (s.jobs.find? (fun j => j.status.isNone && kept.contains j.id && j.wantsCore c)).map (·.id)

/-- R452: a saved live region comes back before its job goes on there. -/
def execLiveRegionRestore (c : CoreId) (s : State) : Out :=
  .next (whenPowered s fun s =>
    let k := s.core c
    match k.resident, k.seq, s.toRestore c with
    | none, none, some id =>
      let l := s.liveK id
      let a := saveByte c (Tbl.get 0 k.liveKept id) l
      let s := dramTouch s a (65536 * l)
      upCore s c (fun k => { k with
        scratch := s.dram.copyRange a (65536 * l) k.scratch (liveBase l)
        resident := some id, liveKept := k.liveKept.filter (fun e => e.1 != id) })
    | _, _, _ => s)

end Sys2Proof.Machine
end

