-- ==== Sys2Proof/Machine/Moves.lean ====
section
/-!
DEFINITION. The movers: move descriptors, plain and transposed (chapters 03 and 09), with the verification of checksummed
blocks (R390 to R392).
-/
namespace Sys2Proof.Machine

/-! ### The move descriptor (Table — move descriptor) -/

structure MoveD where
  srcSp  : Bool
  dstSp  : Bool
  transp : Bool
  esize  : Nat
  len    : Nat
  src    : Nat
  dst    : Nat
  rows   : Nat
  cols   : Nat
  sp     : Nat
  dp     : Nat
deriving DecidableEq, Repr

def parseMove (d : List Word) : MoveD :=
  { srcSp := fld (wd d 0) 63 60 == 0, dstSp := fld (wd d 0) 59 56 == 0, transp := bit (wd d 0) 55,
    esize := 4 * 2 ^ fld (wd d 0) 54 53, len := fld (wd d 0) 39 0, src := fld (wd d 1) 51 0, dst := fld (wd d 2) 51 0,
    rows := 32 * (fld (wd d 3) 63 48 + 1), cols := 32 * (fld (wd d 3) 47 32 + 1), sp := fld (wd d 4) 63 32,
    dp := fld (wd d 4) 31 0 }

/-- A range of `rows` rows of `n` bytes at a pitch: its extent. -/
def pitched (rows n pitch : Nat) : Nat := (rows - 1) * pitch + n

/-- The refusal of a move descriptor (R268, R639, R640). -/
def moveRefusal (d : List Word) : Option Status :=
  let m := parseMove d
  let w := wd d 0
  if 1 < fld w 63 60 ∨ 1 < fld w 59 56 ∨ fld w 52 40 ≠ 0 ∨ fld (wd d 1) 63 52 ≠ 0 ∨ fld (wd d 2) 63 52 ≠ 0 ∨
      fld (wd d 3) 31 0 ≠ 0 ∨ wd d 5 ≠ 0 ∨ wd d 6 ≠ 0 ∨ wd d 7 ≠ 0 then some stReservedNonzero
  else if m.srcSp && m.dstSp then some stBadDescriptor
  else if m.transp then
    let rs := m.cols * m.esize / 8
    let rd := m.rows * m.esize / 8
    if m.len ≠ 0 ∨ m.src % 16 ≠ 0 ∨ m.dst % 16 ≠ 0 ∨ m.sp % 16 ≠ 0 ∨ m.dp % 16 ≠ 0 ∨ m.sp < rs ∨ m.dp < rd ∨
        (m.srcSp ∧ scratchBytes < m.src + pitched m.rows rs m.sp) ∨
        (m.dstSp ∧ scratchBytes < m.dst + pitched m.cols rd m.dp) then some stBadDescriptor
    else none
  else if fld w 54 53 ≠ 0 ∨ fld (wd d 3) 63 32 ≠ 0 ∨ wd d 4 ≠ 0 ∨ m.len % 64 ≠ 0 ∨ m.src % 64 ≠ 0 ∨ m.dst % 64 ≠ 0 ∨
      (m.srcSp ∧ scratchBytes < m.src + m.len) ∨ (m.dstSp ∧ scratchBytes < m.dst + m.len) then some stBadDescriptor
  else none

/-! ### Transposition (R82, R83) -/

/-- Element x of a row of words, with the poison of its word. -/
def rowElem (esize : Nat) (row : List PWord) (x : Nat) : PWord :=
  let w := row.getD (x * esize / 64) PWord.bad
  ⟨at_ (esize - 1) 0 (w.data.toNat >>> (x * esize % 64)), w.poison⟩

/-- Elements packed into one word: poison where any of them is. -/
def packRow (esize : Nat) (l : List PWord) : PWord :=
  if anyPoison l then PWord.bad
  else .good ((l.zipIdx).foldl (fun (a : Word) (e : PWord × Nat) => a ||| BitVec.shiftLeft e.1.data (e.2 * esize)) 0)

/-- A 32 × 32 tile transposed. -/
def transposeTile (esize : Nat) (rows : List (List PWord)) : List (List PWord) :=
  let per := 64 / esize
  (List.range 32).map (fun c => (List.range (esize / 2)).map (fun w =>
    packRow esize ((List.range per).map (fun k => rowElem esize (rows.getD (w * per + k) []) c))))

/-- The row segments of tile t: (source addresses, destination addresses, bytes of a segment). -/
def MoveD.segments (m : MoveD) (t : Nat) : List Nat × List Nat × Nat :=
  let i := t / (m.cols / 32)
  let j := t % (m.cols / 32)
  let n := 4 * m.esize
  ((List.range 32).map (fun r => m.src + (32 * i + r) * m.sp + j * n),
   (List.range 32).map (fun c => m.dst + (32 * j + c) * m.dp + i * n), n)

/-- How many tiles a move has. -/
def MoveD.tiles (m : MoveD) : Nat := if m.transp then m.rows / 32 * (m.cols / 32) else ceilDiv m.len 4096

/-! ### Verification (R390 to R392) -/

/-- The local offset of the block that holds a virtual address, where it is local. -/
def blockOff (s : State) (u : Nat) (cid : BitVec 12) (va : Nat) : Option Nat :=
  match translate s u cid (va / 4096 * 4096) false with
  | .ok pa => if s.route pa = .dram then some (paOff pa) else none
  | _ => none

/-- Verify the whole blocks of a move's source that a tile meets: the first byte of the first failing block, and the
state with skipped and failed blocks counted once. -/
def verifyTile (s : State) (u : Nat) (cid : BitVec 12) (src len a n : Nat) : State × Option Nat :=
  let blocks := (List.range ((a + n - 1) / 4096 + 1 - a / 4096)).map (fun i => 4096 * (a / 4096 + i))
  let whole := blocks.filter (fun b => decide (src ≤ b ∧ b + 4096 ≤ src + len))
  let results := whole.map (fun b => (b, match blockOff s u cid b with
    | some off => verifyBlock s off
    | none => Verify.none))
  let mine := results.filter (fun r => decide (a ≤ r.1))
  let s := upIg s (fun g => { g with verifySkipped := g.verifySkipped + mine.countP (fun r => r.2 == .skipped) })
  match results.find? (fun r => r.2 == .bad) with
  | none => (s, none)
  | some r => (upIg s (fun g => { g with verifyFailed := g.verifyFailed + 1 }), some r.1)

/-! ### Running a move -/

/-- Read words of the source of a move: the scratchpad, or a virtual range. -/
def moveRead (s : State) (c u : Nat) (o : Owner) (sp : Bool) (ext : List PWord) (l : List (Nat × Nat)) :
    State × Option (List (List PWord)) :=
  if sp then
    let s := forL l (fun e s => spTouch s c e.1 e.2) s
    (s, some (l.map (fun e => s.spW c e.1 (e.2 / 8))))
  else
    let r := gather s o ext (l.flatMap (fun e => spans s u o.cid e.1 e.2 false))
    (r.1, r.2.map (fun w => (l.zipIdx).map (fun e => (w.drop (e.2 * (e.1.2 / 8))).take (e.1.2 / 8))))

/-- Write words at the destination of a move. -/
def moveWrite (s : State) (c u : Nat) (o : Owner) (sp : Bool) (a : Nat) (l : List PWord) : State :=
  if sp then spPut s c o a l else writeVa s u o a l

/-- What the source and destination of a tile are: segments of equal length. -/
def MoveD.tile (m : MoveD) (t : Nat) : List (Nat × Nat) × List (Nat × Nat) :=
  if m.transp then
    let g := m.segments t
    (g.1.map (fun a => (a, g.2.2)), g.2.1.map (fun a => (a, g.2.2)))
  else
    let n := min 4096 (m.len - 4096 * t)
    ([(m.src + 4096 * t, n)], [(m.dst + 4096 * t, n)])

/-- Change the head of a core's MOVE queue. -/
def upMoveHead (s : State) (c : Nat) (f : QEntry → QEntry) : State :=
  upCore s c (fun k => { k with qMove := match k.qMove with
    | [] => []
    | e :: l => f e :: l })

/-- One tile of a move: the state, and whether the next tile may follow. -/
def moveTile (c : Nat) (o : Owner) (m : MoveD) (ext : List PWord) (t : Nat) (s : State) : State × Bool :=
  let u := uMover (moverOf c)
  let (src, dst) := m.tile t
  let vs := if m.srcSp then [] else src.map (fun e => (e.1, e.2, false))
  let vd := if m.dstSp then [] else dst.map (fun e => (e.1, e.2, true))
  match tileWalk s u o.cid vs vd with
  | (s, .bad st) => (failJob s o st, false)
  | (s, .wait k p) => (waitTile s o (some c) none (c / 6) k p, false)
  | (s, .busy l) => (raiseLines s o.lc l, false)
  | (s, .ok) =>
    match moveRead s c u o m.srcSp ext src with
    | (s, none) => (s, false)
    | (s, some rows) =>
      let next := fun (s : State) => (upMoveHead s c (fun e => { e with tilesDone := t + 1 }), s.lives o.job)
      if m.transp then
        next (forL (dst.zip (transposeTile m.esize rows)) (fun e s => moveWrite s c u o m.dstSp e.1.1 e.2) s)
      else
        let a := (src.getD 0 (0, 0)).1
        let n := (src.getD 0 (0, 0)).2
        let b := (dst.getD 0 (0, 0)).1
        let words := rows.flatten
        let (s, stop) := if m.srcSp then (s, none) else verifyTile s u o.cid m.src m.len a n
        match stop with
        | none => next (moveWrite s c u o m.dstSp b words)
        | some x =>
          let good := if a < x then (x - a) / 8 else 0
          let s := if good = 0 then s else moveWrite s c u o m.dstSp b (words.take good)
          (failJob s o stChecksum, false)

/-- Tiles from t on, until one cannot follow. -/
def moveTiles (c : Nat) (o : Owner) (m : MoveD) (ext : List PWord) : Nat → Nat → State → State
  | 0, _, s => s
  | n + 1, t, s =>
    match moveTile c o m ext t s with
    | (s, true) => moveTiles c o m ext n (t + 1) s
    | (s, false) => s

/-- A class of moves that a mover has not yet taken from the head of a core's queue. -/
def State.moveWaits (s : State) (c : Nat) (lc : Bool) : Bool :=
  match (s.core c).qMove with
  | [] => false
  | e :: _ => !e.begun && e.owner.lc == lc

/-- The key of a mover's turn within a class. -/
def turnKey (c : Nat) (lc : Bool) : Nat := 2 * moverOf c + b2n lc

/-- R266: a mover takes LC descriptors first, and within a class one of each of its cores in turn; a descriptor it has taken
goes on (log entry 113). -/
def State.moveTurn (s : State) (c : Nat) (e : QEntry) : Bool :=
  let core := fun i => 3 * moverOf c + i % 3
  let first := Tbl.get 0 s.moverTurn (turnKey c e.owner.lc)
  e.begun ||
    ((e.owner.lc || !(List.range 3).any (fun i => s.moveWaits (core i) true)) &&
      ((List.range 3).map (fun i => core (first + i))).find? (fun k => s.moveWaits k e.owner.lc) == some c)

/-- The mover takes the head of a core's queue: the next core's turn comes. -/
def takeMove (s : State) (c : Nat) (e : QEntry) : State :=
  if e.begun then s
  else
    upMoveHead { s with moverTurn := Tbl.set 0 s.moverTurn (turnKey c e.owner.lc) ((c + 1) % 3) } c (fun e => { e with begun := true })

/-- R81, R268: the move at the head of a core's MOVE queue is taken in its turn, checked, then copied tile by tile. -/
def execMoveDescriptor (c : CoreId) (ext : List PWord) (s : State) : Out :=
  .next (whenPowered s fun s =>
    match (s.core c).qMove with
    | [] => s
    | e :: _ =>
      let o := e.owner
      let d := pdata e.desc
      if s.tileWaits o (some c) none ∨ s.moveTurn c e = false then s
      else
        let s := takeMove s c e
        if anyPoison e.desc then failJob s o stPoisoned
        else
          match moveRefusal d with
          | some st => failJob s o st
          | none =>
            let m := parseMove d
            moveTiles c o m ext (m.tiles - e.tilesDone) e.tilesDone s)

/-- R84: the move at the head has been copied and every write acknowledged. -/
def execMoveComplete (c : CoreId) (s : State) : Out :=
  .next (whenPowered s fun s =>
    match (s.core c).qMove with
    | [] => s
    | e :: l =>
      if e.begun ∧ (parseMove (pdata e.desc)).tiles ≤ e.tilesDone ∧ s.quiet e.owner then
        upCore s c (fun k => { k with qMove := l })
      else s)

end Sys2Proof.Machine
end

