-- ==== Sys2Proof/Machine/Health.lean ====
section
/-!
DEFINITION. Yew (chapter 20): canary samples (R588, R589), the hourly point and the ageing log (R591 to R595), the
predictions (R596, R597) and alerts (R598).
-/
namespace Sys2Proof.Machine

/-! ### Canaries (R587 to R589) -/

def gridMv : List Nat := [620, 700, 780, 860, 900]
def gridT : List Int := [250, 550, 850, 1000]

/-- The cell of a grid that holds a value: its lower line, and the value above it and the cell's width; values are taken
doubled. -/
def cellOf : List Int → Nat → Int → Option (Nat × Int × Int)
  | a :: b :: l, i, x => if 2 * a ≤ x ∧ x ≤ 2 * b then some (i, x - 2 * a, 2 * (b - a)) else cellOf (b :: l) (i + 1) x
  | _, _, _ => none

/-- c0 interpolated bilinearly at a doubled supply and temperature: a numerator and a denominator. -/
def canaryRef (n : Nat) (v2 t2 : Int) : Option (Int × Int) :=
  match cellOf (gridMv.map (fun (x : Nat) => (x : Int))) 0 v2, cellOf gridT 0 t2 with
  | some (i, a, p), some (j, b, q) =>
    let c := fun (i j : Nat) => ((Config.canaryC0 n i j : Nat) : Int)
    some ((p - a) * ((q - b) * c i j + b * c i (j + 1)) + a * ((q - b) * c (i + 1) j + b * c (i + 1) (j + 1)), p * q)
  | _, _ => none

/-- The drift of an accepted sample in 0.01 %, at the mean of its two readings (log entry 53); none where R588 does not
accept it. -/
def canaryDrift (n : Nat) (r : CanaryReading) : Option Int :=
  let near := fun (a b w : Int) => decide (a - b < w ∧ b - a < w)
  let mvIn := fun (x : Int) => decide (620 ≤ x ∧ x ≤ 900)
  let tIn := fun (x : Int) => decide (250 ≤ x ∧ x ≤ 1000)
  if !near r.mvBefore r.mvAfter 5 || !near r.tBefore r.tAfter 5 || r.cycles == 0 then none
  else if !mvIn r.mvBefore || !mvIn r.mvAfter || !tIn r.tBefore || !tIn r.tAfter then none
  else
    match canaryRef n (r.mvBefore + r.mvAfter) (r.tBefore + r.tAfter) with
    | none => none
    | some (num, den) =>
      let ref : Int := r.cycles * num
      if ref ≤ 0 then none else some (rneDiv (10000 * (100000000000 * den - ref)) ref.toNat)

/-- R588: a canary is sampled, once in 10 ms; the canaries of a fused core never are. -/
def execCanarySample (canary : Fin 144) (r : CanaryReading) (s : State) : Out :=
  .next (whenFw s fun s =>
    let n := canary.val
    if s.fitted (n / 2) ∧ due s (mkCanary n) 10000000 then
      let s := mark s (mkCanary n) 10000000
      match canaryDrift n r with
      | none => s
      | some d => upCore s (n / 2) (fun k =>
          let k := { k with samples := k.samples + 1 }
          if n % 2 = 0 then { k with hourA := k.hourA ++ [d] } else { k with hourB := k.hourB ++ [d] })
    else s)

/-! ### Indicators (Table — health indicators) -/

/-- Keys of the indicators in a point: those of the records for canary drift, retention margin, efficiency loss and eye
margin; then corrected errors by stack and phase imbalance. -/
def ixCe (h : Nat) : Nat := 128 + h
def ixImbalance : Nat := 140

/-- The middle of a list of samples; of two middles, their mean to the nearest integer (log entry 53). -/
def median (l : List Int) : Int :=
  let s := sortBy (fun a b => decide (a ≤ b)) l
  let n := s.length
  if n % 2 = 1 then s.getD (n / 2) 0
  else
    let x := s.getD (n / 2 - 1) 0 + s.getD (n / 2) 0
    if x % 2 = 0 then x / 2 else if x / 2 % 2 = 0 then x / 2 else x / 2 + 1

/-- A core's drift for the hour: valid where at least 3,600 samples of its canaries were accepted. -/
def Core.drift (k : Core) : Option Int :=
  if k.hourA.length + k.hourB.length < 3600 then none
  else if k.hourA.isEmpty then some (median k.hourB)
  else if k.hourB.isEmpty then some (median k.hourA)
  else some (max (median k.hourA) (median k.hourB))

/-- The channels of a stack. -/
def stackChans (s : State) (h : Nat) : List Chan := (List.range 64).map (fun i => s.chan (64 * h + i))

/-- A stack's retention margin: its worst channel. -/
def State.margin (s : State) (h : Nat) : Nat :=
  ((stackChans s h).map (·.retention)).foldl min ((s.chan (64 * h)).retention)

/-- The valid indicators of the hour just ended. -/
def State.indicators (s : State) (r : HourReading) : Tbl Int :=
  let opt : Nat → Option Int → List (Nat × Int) := fun k x => (x.map (fun v => (k, v))).toList
  let all := s.fittedCores.flatMap (fun c => opt (1 + c) (s.core c).drift) ++
    (List.range 12).map (fun h => (73 + h, (s.margin h : Int))) ++
    opt 85 (r.effLoss.map (fun (x : Nat) => (x : Int))) ++
    (List.range 32).flatMap (fun p => opt (86 + p) ((r.eye.find? (fun e => e.1 == p)).map (fun e => (e.2.2 : Int)))) ++
    (List.range 12).map (fun h => (ixCe h, (((stackChans s h).map (·.yewCe)).sum : Int))) ++
    opt ixImbalance (r.imbalance.map (fun (x : Nat) => (x : Int)))
  all

/-! ### The ageing log (R594, R595) -/

/-- An hourly point merged into a 168-hour point. -/
def AgePoint.merge (a p : AgePoint) : AgePoint :=
  { a with
    poweredS := p.poweredS
    values := p.values.foldl (fun t e => Tbl.put t e.1 (e.2 + ((t.find? (fun x => x.1 == e.1)).map (·.2)).getD 0)) a.values
    counts := p.values.foldl (fun t e => Tbl.upd 0 t e.1 (· + 1)) a.counts
    meanMv := (List.range 12).map (fun h => a.meanMv.getD h 0 + p.meanMv.getD h 0)
    meanTj := (List.range 12).map (fun h => a.meanTj.getD h 0 + p.meanTj.getD h 0)
    stress := p.stress, hours := a.hours + 1 }

/-- The oldest hourly point goes into the last 168-hour point, or begins a new one. -/
def mergeOld (l : List AgePoint) (p : AgePoint) : List AgePoint :=
  match l.getLast? with
  | none => [({ hours := 0 } : AgePoint).merge p]
  | some a =>
    if a.hours < 168 then l.dropLast ++ [a.merge p]
    else
      let l := l ++ [({ hours := 0 } : AgePoint).merge p]
      if 4096 < l.length then l.drop 1 else l

/-- Write an hourly point. -/
def Flash.addPoint (f : Flash) (p : AgePoint) : Flash :=
  let f := { f with historyH := f.historyH + 1 }
  match f.ageing with
  | [] => { f with ageing := [p] }
  | a :: l =>
    if (a :: l).length < 8192 then { f with ageing := a :: l ++ [p] }
    else { f with ageing := l ++ [p], ageing168 := mergeOld f.ageing168 a }

/-! ### Predictions (R596, R597) -/

/-- The valid values of an indicator, oldest first: how many points each stands for, the stress up to it, the value. -/
def Flash.series (f : Flash) (key : Nat) : List (Nat × Nat × Int) :=
  let get : AgePoint → Option Int := fun p => (p.values.find? (fun e => e.1 == key)).map (·.2)
  f.ageing168.filterMap (fun p => (get p).map (fun v =>
    let n := max 1 (Tbl.get 0 p.counts key)
    (n, p.stress, rneDiv v n))) ++
  f.ageing.filterMap (fun p => (get p).map (fun v => (1, p.stress, v)))

/-- An indicator: its key, its kind for the fit, and its end limit with the side on which it ends. -/
structure Indicator where
  key   : Nat
  kind  : Nat
  limit : Int
  below : Bool
deriving DecidableEq, Repr

/-- The indicators of a component (its record's index). -/
def indicatorsOf (i : Nat) : List Indicator :=
  if i ≤ 72 then [⟨i, 0, 400, false⟩]
  else if i ≤ 84 then [⟨i, 1, 64, true⟩, ⟨ixCe (i - 73), 2, 5000, false⟩]
  else if i = 85 then [⟨85, 4, 30, false⟩, ⟨ixImbalance, 5, 20, false⟩]
  else [⟨i, 3, 150, true⟩]

/-- At or past the end limit. -/
def Indicator.past (x : Indicator) (v : Int) : Bool := if x.below then decide (v ≤ x.limit) else decide (x.limit ≤ v)

/-- Mean stress of the last 168 points, in millionths (R596). -/
def Flash.usage (f : Flash) : Nat :=
  let l := f.ageing.drop (f.ageing.length - 168)
  match l.head?, l.getLast? with
  | some a, some b =>
    let before := match f.ageing[f.ageing.length - 169]? with
      | some p => if 168 < f.ageing.length then p.stress else 0
      | none => 0
    let base := if 168 < f.ageing.length then before else match f.ageing168.getLast? with
      | some p => p.stress
      | none => 0
    (b.stress - min base a.stress) / l.length
  | _, _ => 0

/-- Hours until a projection in stress hours is reached, rounded down and saturated. -/
def remainOf (af now at_ : Nat) : Nat := if af = 0 then 0xFFFFFFFE else min ((at_ - now) / af) 0xFFFFFFFE

/-- The prediction of one indicator: status, central, low, high, last valid value and how many points are valid. -/
structure Forecast where
  status : BitVec 2
  mid    : Nat
  lo     : Nat
  hi     : Nat
  value  : Int
  points : Nat
deriving DecidableEq, Repr

def forecast (f : Flash) (stress : Nat) (x : Indicator) : Forecast :=
  let l := f.series x.key
  let n := (l.map (·.1)).sum
  let v := ((l.getLast?).map (·.2.2)).getD 0
  if f.historyH < 72 ∨ n < 72 then ⟨1, 0, 0, 0, v, n⟩
  else if x.past v then ⟨2, 0, 0, 0, v, n⟩
  else
    let pts := (if x.kind = 0 then l else l.drop (l.length - 720)).map (·.2)
    match Config.predictFit x.kind pts x.limit with
    | none => ⟨3, 0xFFFFFFFF, 0xFFFFFFFF, 0xFFFFFFFF, v, n⟩
    | some (m, a, b) =>
      let r := remainOf f.usage stress
      ⟨0, r m, min (r a) (r b), max (r a) (r b), v, n⟩

/-- Of two indicators of one component, the one that limits it (log entry 54): past its limit, else short of history, else
with the smaller band. -/
def Forecast.worse (a b : Forecast) : Forecast :=
  if a.status = 2 then a else if b.status = 2 then b
  else if a.status = 1 then a else if b.status = 1 then b
  else if b.lo < a.lo then b else a

/-- The forecast of a component. -/
def componentForecast (f : Flash) (stress i : Nat) : Forecast :=
  match (indicatorsOf i).map (forecast f stress) with
  | [a, b] => { a.worse b with value := if i = 85 then a.value else (a.worse b).value }
  | a :: _ => a
  | [] => ⟨1, 0, 0, 0, 0, 0⟩

/-- KIND and index of a component, as alerts and the module's record name it (R599). -/
def kindOf (i : Nat) : Nat × Nat :=
  if i = 0 then (0, 0) else if i ≤ 72 then (1, i - 1) else if i ≤ 84 then (2, i - 73) else if i = 85 then (3, 0)
  else (4, i - 86)

/-- EV_YEW_ALERT (R599), counted in its record. -/
def yewAlert (s : State) (i cause : Nat) (status : BitVec 2) (lo : Nat) : State :=
  let (k, n) := kindOf i
  let w := at_ 63 56 k ||| at_ 55 48 n ||| at_ 47 40 cause ||| at_ 39 38 status.toNat ||| at_ 31 0 lo
  let s := raiseEvent s evYewAlert 0 w s.poweredS 0
  let more := fun (p : Predict) => { p with alerts := p.alerts + 1 }
  if i = 0 then { s with health := { s.health with module := more s.health.module } }
  else { s with health := { s.health with recs := Tbl.upd {} s.health.recs i more } }

def State.predict (s : State) (i : Nat) : Predict := if i = 0 then s.health.module else Tbl.get {} s.health.recs i
def putPredict (s : State) (i : Nat) (p : Predict) : State :=
  if i = 0 then { s with health := { s.health with module := p } }
  else { s with health := { s.health with recs := Tbl.set {} s.health.recs i p } }

/-- A new prediction takes its place, with the alerts of its changes (R598); only a predicted band warns or clears. -/
def setPredict (i : Nat) (f : Forecast) (s : State) : State :=
  let old := s.predict i
  let banded := f.status = 0 ∨ f.status = 3
  let warn := decide (banded ∧ f.lo < 8760) && !old.low
  let clear := decide (banded ∧ 9760 ≤ f.lo) && old.low
  let s := putPredict s i { old with
    status := f.status, remainH := f.mid, bandLoH := f.lo, bandHiH := f.hi, value := f.value, points := f.points,
    low := (old.low || warn) && !clear }
  let s := if warn then yewAlert s i 0 f.status f.lo else if clear then yewAlert s i 2 f.status f.lo else s
  if i ≠ 0 ∧ f.status = 2 ∧ old.status ≠ 2 then yewAlert s i 1 f.status f.lo
  else if i = 0 ∧ f.status ≠ old.status then yewAlert s i 3 f.status f.lo
  else s

/-- The components that decide the module's prediction (R597). -/
def State.limiting (s : State) : List Nat :=
  s.activeCores.map (· + 1) ++ (List.range 12).map (73 + ·) ++ [85] ++
    ((List.range 32).filter (fun p => (s.port p).up)).map (86 + ·)

/-- The components that have a record (R601). -/
def State.components (s : State) : List Nat :=
  s.fittedCores.map (· + 1) ++ (List.range 12).map (73 + ·) ++ [85] ++
    ((List.range 32).filter (portExists s.fab.applied)).map (86 + ·)

/-- R596 to R598: every prediction anew, then the module's. -/
def recompute (s : State) : State :=
  let s := forL s.components (fun i s => setPredict i (componentForecast s.flash s.health.stressH i) s) s
  let best := s.limiting.foldl (fun a i => if (s.predict i).bandLoH < (s.predict a).bandLoH then i else a)
    (s.limiting.headD 85)
  let p := s.predict best
  let (k, n) := kindOf best
  let l := s.flash.ageing.drop (s.flash.ageing.length - 168)
  let mvs := l.flatMap (·.meanMv)
  let tjs := l.flatMap (·.meanTj)
  let s := { s with health := { s.health with
    limitKind := k, limitIndex := n, atPoweredS := s.poweredS, afX1000 := s.flash.usage / 1000
    meanMv := mvs.sum / max 1 mvs.length
    meanTj := (tjs.sum / (max 1 tjs.length : Nat)).toNat
    imbalance := (((s.flash.series ixImbalance).getLast?).map (·.2.2.toNat)).getD 0 } }
  setPredict 0 ⟨p.status, p.remainH, p.bandLoH, p.bandHiH, p.value, p.points⟩ s

/-- R602: a stack's record whose last point shows the retention margin shows the new probe's. -/
def showMargin (h : Nat) (s : State) : State :=
  match (indicatorsOf (73 + h)).map (forecast s.flash s.health.stressH) with
  | [a, b] =>
    if a.points ≠ 0 ∧ a.worse b = a then putPredict s (73 + h) { s.predict (73 + h) with value := s.margin h } else s
  | _ => s

/-! ### The hourly point (R594) -/

/-- The stress of an hour at its worst hedge, in millionths (R595). -/
def hourStress (r : HourReading) : Nat :=
  ((List.range 12).map (fun h => Config.stressMicro (r.meanMv.getD h 0) (r.meanTj.getD h 0))).foldl max 0

/-- R594, R595: a history point is written at each whole hour of Ticker, after the powered-seconds record due with it, and none
after REF_LOSS; every prediction follows. -/
def execHourlyPoint (r : HourReading) (s : State) : Out :=
  guardWf (.hourlyPoint r) "HOURLY_POINT" (whenFw s fun s =>
    let first := due s mkPoweredTime 600000000000 && s.time.persistOk
    if due s mkHour 3600000000000 ∧ !s.time.refLoss ∧ !first then
      let s := mark s mkHour 3600000000000
      let stress := s.health.stressH + hourStress r
      let p : AgePoint :=
        { poweredS := s.poweredS, values := s.indicators r, meanMv := (List.range 12).map (r.meanMv.getD · 0)
          meanTj := (List.range 12).map (r.meanTj.getD · 0), stress := stress }
      let s := { s with flash := s.flash.addPoint p, health := { s.health with stressH := stress } }
      let s := forL r.eye (fun (e : Nat × Nat × Nat) s => upPort s e.1 (fun q => { q with
        eyeLane := BitVec.ofNat 8 e.2.1, eyeMargin := BitVec.ofNat 16 e.2.2 })) s
      let cores := s.cores.map (fun (e : Nat × Core) => (e.1, { e.2 with hourA := [], hourB := [] }))
      let chans := s.chans.map (fun (e : Nat × Chan) => (e.1, { e.2 with yewCe := 0 }))
      recompute (tidyCores { s with cores := cores, chans := chans.filter (fun e => e.2 != ({} : Chan)) })
    else s)

end Sys2Proof.Machine
end

