-- ==== Sys2Proof/Machine/Power.lean ====
section
/-!
DEFINITION. Power, the clocked periods of the power stage and the Snowplough (chapter 21), measured step rates and the
reference (chapter 02).
-/
namespace Sys2Proof.Machine

/-! ### Power-up and power-down -/

/-- The valid powered-seconds record with the higher sequence number (R53). -/
def Flash.bestPowered (f : Flash) : Option PoweredRec :=
  match f.powered0.valid, f.powered1.valid with
  | true, true => some (if f.powered0.seq < f.powered1.seq then f.powered1 else f.powered0)
  | true, false => some f.powered0
  | false, true => some f.powered1
  | false, false => none

/-- The record that the time-base registers show at power-up; a blank one where neither is valid (log entry 19). -/
def Flash.shownPowered (f : Flash) : PoweredRec := f.bestPowered.getD {}

/-- Write a powered-seconds record over the other one (R53). -/
def Flash.writePowered (f : Flash) (poweredS : Word) (powerUps : BitVec 32) : Flash :=
  let r : PoweredRec := { poweredS := poweredS, powerUps := powerUps, seq := f.shownPowered.seq + 1, valid := true }
  if f.bestPowered = some f.powered0 then { f with powered1 := r } else { f with powered0 := r }

/-- The module after a power-down: what flash, the power stage and the outside keep (R613, R614, R616). -/
def powerDown (cause : BitVec 8) (trip : Bool) (s : State) : State :=
  { pending := s.pending, freeCtr := s.freeCtr, out := s.out, flash := s.flash, health := s.health,
    pwr := { pwrEn := s.pwr.pwrEn, offRecord := cause, thermtripLow := trip, tripLatched := trip } }

/-- An input fault or a trip ends a power-up or the powered state (R615). -/
def powerFault (cause : BitVec 8) (trip : Bool) (s : State) : State :=
  if s.pwr.phase = .off then s else powerDown cause trip s

/-- R610, R615: PWR_EN is high with the input in range and no trip in force. -/
def execPwrEnRise (inputCv lowMs : Nat) (s : State) : Out :=
  let release := !s.pwr.pwrEn && decide (10 ≤ lowMs)
  let trip := s.pwr.tripLatched && !release
  let up := s.pwr.phase = .off ∧ !trip ∧ 4000 ≤ inputCv ∧ inputCv ≤ 5000
  .next { s with pwr := { s.pwr with
    pwrEn := true, tripLatched := trip, thermtripLow := s.pwr.thermtripLow && trip,
    phase := if up then .ramping else s.pwr.phase } }

/-- The health records as a power-up finds them (R602): the last point's, with their RC counts cleared. -/
def Health.wake (y : Health) : Health :=
  { y with
    recs := (y.recs.map (fun e => (e.1, { e.2 with alerts := 0 }))).filter (fun e => e.2 != {})
    module := { y.module with alerts := 0 } }

/-- R611, R45: power-good; every register takes its reset value, and DRAM holds nothing known. -/
def execPowerGood (s : State) : Out :=
  .next (if s.pwr.phase = .ramping then
    let r := s.flash.shownPowered
    { pending := s.pending, freeCtr := s.freeCtr + 1, out := s.out, flash := s.flash, health := s.health.wake,
      dram := { lost := some s.freeCtr },
      pwr := { phase := .powered, pwrEn := true, pwrgd := true, lastOff := s.pwr.offRecord,
               offRecord := s.pwr.offRecord },
      time := { persistedS := r.poweredS, powerUps := r.powerUps + 1 } }
  else s)

/-- R613: PWR_EN falls. -/
def execPwrEnFall (s : State) : Out :=
  .next (if s.pwr.pwrEn then
    let s := { s with pwr := { s.pwr with pwrEn := false } }
    if s.pwr.phase = .off then s else powerDown 0x01 false s
  else s)

/-- R615, cause 0x02. -/
def execInputUnderVoltage (s : State) : Out := .next (powerFault 0x02 false s)

/-- R615, cause 0x03. -/
def execInputOverVoltage (s : State) : Out := .next (powerFault 0x03 false s)

/-- R615, cause 0x04, a trip. -/
def execJunctionTrip (s : State) : Out := .next (powerFault 0x04 true s)

/-- R615, cause 0x05, a trip. -/
def execStackTrip (s : State) : Out := .next (powerFault 0x05 true s)

/-- R615, cause 0x06, a trip. -/
def execRailFault (s : State) : Out := .next (powerFault 0x06 true s)

/-! ### The reference, powered time and step rates -/

/-- R40: loss of the module reference; what local DRAM held is lost. -/
def execReferenceLoss (s : State) : Out :=
  .next (whenPowered s fun s =>
    if s.time.refLoss then s
    else
      let s := { s with
        time := { s.time with refLoss := true }
        chans := (s.chans.map (fun e => (e.1, { e.2 with
          aligned := false, lockWanted := false, windowDone := false, refreshOn := false }))).filter (fun e => e.2 != {})
        dram := { lost := some s.freeCtr }
        loose := []
        freeCtr := s.freeCtr + 1 }
      jobFaultAll s causeRefLoss)

/-- R53: the record due at each Ticker multiple of 600 s, with the seconds of that multiple. -/
def execPoweredTimeRecord (s : State) : Out :=
  .next (whenFw s fun s =>
    if due s mkPoweredTime 600000000000 && s.time.persistOk && !s.time.refLoss then
      let here := 600 * (s.ticker / 600000000000)
      let total := s.time.persistedS + BitVec.ofNat 64 (here - s.time.persistedHere)
      mark { s with
        flash := s.flash.writePowered total s.time.powerUps
        time := { s.time with persistedS := total, persistedHere := here } } mkPoweredTime 600000000000
    else s)

/-- A job that runs through a window adds the hedges' steps to the sums that SOLO_NS divides by (R459). -/
def addRates (rate : Nat → Nat) (j : Job) : Job :=
  let hs := (j.cores.map (· / 6)).dedup
  let old := fun (h : Nat) => (j.rateSum.find? (fun e => e.1 == h)).getD (h, 0, 0)
  if j.status.isSome then j else { j with rateSum := hs.map (fun h => (h, (old h).2.1 + rate h, (old h).2.2 + 1)) }

/-- R38: the steps that each hedge's reference stage counted in a 10 µs window, as M steps/s. -/
def execStepRateWindow (steps : List Nat) (s : State) : Out :=
  guardWf (.stepRateWindow steps) "STEP_RATE_WINDOW" (whenPowered s fun s =>
    if due s mkStepRate 10000 then
      let s := forN 12 (fun h s => upHedge s h (fun x => { x with rate := steps.getD h 0 / 10 })) s
      mark { s with jobs := s.jobs.map (addRates (fun h => steps.getD h 0)) } mkStepRate 10000
    else s)

/-! ### The Snowplough -/

/-- An LC submission queue exists (R455). -/
def State.lcFloor (s : State) : Bool := s.sqs.any (fun q => q.lc)

/-- No LC submission queue exists and no job is admitted on the hedge's cores (R620). -/
def State.idleHedge (s : State) (h : Nat) : Bool :=
  !s.lcFloor && !s.jobs.any (fun j => j.status.isNone && j.cores.any (fun c => c / 6 == h))

/-- The lower limit of constraints 1 and 2 (R617). -/
def State.floorMv (s : State) : Nat := if s.lcFloor then 700 else 620

/-- The stack or the junction of a hedge is over the limit at which constraint 3 lowers it (R617). -/
def Hedge.hot (x : Hedge) : Bool := decide (940 < x.tstack) || decide (990 < x.tj)

/-- The power cap lowers every hedge (R617). -/
def Power.overCap (p : Power) : Bool := decide (10 * p.capW < p.inputDw)

/-- Nothing stops a rise (R617, R618, R622). -/
def State.mayRise (s : State) : Bool :=
  (List.range 12).all (fun h => decide ((s.hedge h).tstack < 930) && decide ((s.hedge h).tj < 980)) &&
  decide (100 * s.pwr.inputDw < 980 * s.pwr.capW) &&
  decide (s.pwr.loweredAt = 0 ∨ s.pwr.loweredAt + 1000000 ≤ s.ticker) &&
  decide (Tbl.get 0 s.marks mkStageLimit = 0 ∨ Tbl.get 0 s.marks mkStageLimit < s.ticker / 100000)

/-- What a hedge's setpoint and LIMIT become in one window (R617 to R620, R626): `drop` is how far a binding
constraint lowers it, `pick` which limit shows where stack and junction both bind (log entry 20). -/
def ploughHedge (s : State) (drop pick h : Nat) (x : Hedge) : Hedge :=
  let low := s.floorMv
  let v := max x.vsetMv (if s.lcFloor then min 700 (x.vsetMv + 5) else 0)
  if x.hot || s.pwr.overCap then
    let held := decide (v < low + drop)
    let thermal : BitVec 3 :=
      if decide (940 < x.tstack) && (decide (x.tj ≤ 990) || pick % 2 == 0) then 3 else 2
    { x with
      vsetMv := max (v - drop) (min low v)
      limit := if held && s.lcFloor then 4 else if x.hot then thermal else 1
      beHeld := held && s.lcFloor }
  else if s.idleHedge h then { x with vsetMv := max (v - 40) 620, limit := 5, beHeld := false }
  else if s.mayRise then { x with vsetMv := max v (min 900 (x.vsetMv + 5)), limit := 0, beHeld := false }
  else { x with vsetMv := v, beHeld := false }

/-- Each millisecond adds to the time a hedge is limited (R625). -/
def countLimited (x : Hedge) : Hedge :=
  { x with
    capLimited := x.capLimited + b2n (x.limit == 1)
    thermalLimited := x.thermalLimited + b2n (x.limit == 2 || x.limit == 3 || x.limit == 4) }

/-- The counts that a millisecond boundary brings (R621, R625). -/
def milliCounts (dw10ms : Nat) (s : State) : State :=
  if due s mkMilli 1000000 then
    let atFloor := (List.range 12).all (fun h => decide ((s.hedge h).vsetMv ≤ s.floorMv))
    let miss := decide (10 * s.pwr.capW < dw10ms) && atFloor
    let s := forN 12 (fun h s => upHedge s h countLimited) s
    mark { s with pwr := { s.pwr with capMissMs := s.pwr.capMissMs + b2n miss } } mkMilli 1000000
  else s

/-- A core's next BE CALL stands at a granule boundary while its hedge holds BE starts (R456). -/
def holdStarts (s : State) (c : Nat) : State :=
  let k := s.core c
  if (s.hedge (c / 6)).beHeld && k.seq.isNone && k.callsLc.isEmpty then delayStart s c else s

/-- R617: one 10 µs window of the governor, which takes none while Ulizor core 2 restarts (R623). -/
def execSnowploughWindow (r : PowerReading) (s : State) : Out :=
  guardWf (.snowploughWindow r) "SNOWPLOUGH_WINDOW" (whenFw s fun s =>
    if due s mkSnowplough 10000 && decide (1 ≤ s.bring.phase.toNat) && !s.sec.reload.contains 2 then
      let s := { s with pwr := { s.pwr with
        capW := s.pwr.capNext, inputCv := r.inputCv, inputDw := r.dw1ms, peakDw := max s.pwr.peakDw r.dw1ms,
        energyJ := r.energyJ } }
      let s := forN 12 (fun h s => upHedge s h (fun x => { x with
        tj := hottestDie (r.tj.getD h []), tstack := hottestDie (r.tstack.getD h []), vcoreMv := r.vcoreMv.getD h 0 })) s
      let (f, s) := takeFree s
      let (pick, s) := takeFree s
      let s0 := s
      let s := forN 12 (fun h s => upHedge s h (ploughHedge s0 (5 * (1 + f % 8)) pick h)) s
      let lowered := s0.pwr.overCap || (List.range 12).any (fun h => (s0.hedge h).hot)
      let s := { s with pwr := { s.pwr with loweredAt := if lowered then s.ticker else s.pwr.loweredAt } }
      mark (forN 72 (fun c s => holdStarts s c) (milliCounts r.dw10ms s)) mkSnowplough 10000
    else s)

/-- The power stage lowers every setpoint by 10 mV, to 0.70 V at the lowest (R622, R623). -/
def stageLower (s : State) : State :=
  forN 12 (fun h s => upHedge s h (fun x => { x with
    vsetMv := if 700 < x.vsetMv then max 700 (x.vsetMv - 10) else x.vsetMv })) s

/-- R622: 100 µs over 1,150 W. -/
def execPowerStageLimit (s : State) : Out :=
  .next (whenPowered s fun s =>
    if due s mkStageLimit 100000 then mark (stageLower s) mkStageLimit 100000 else s)

/-- R623: 100 µs of a restart of Ulizor core 2, with these temperatures. -/
def execPowerStageThermalHold (tstack tj : List (List Int)) (s : State) : Out :=
  guardWf (.powerStageThermalHold tstack tj) "POWER_STAGE_THERMAL_HOLD" (whenPowered s fun s =>
    if due s mkStageHold 100000 then
      let above := tstack.any (fun l => decide (950 < hottestDie l)) || tj.any (fun l => decide (1000 < hottestDie l))
      mark (if above then stageLower s else s) mkStageHold 100000
    else s)

/-- EV_THERMAL (R503), counted in THERMAL_EVENTS. -/
def thermalEvent (s : State) (stack hedge : Nat) (temp : Int) : State :=
  raiseEvent { s with pwr := { s.pwr with thermalEvents := s.pwr.thermalEvents + 1 } } evThermal 0
    (at_ 63 56 stack ||| at_ 55 48 hedge ||| at_ 15 0 (wrapNat 16 temp)) 0 0

/-- R624: once per 10 ms for a hedge whose junction is above 100 °C. -/
def execJunctionThermalEvent (h : HedgeId) (temp : Int) (s : State) : Out :=
  .next (whenFw s fun s =>
    if due s (mkJunction h) 10000000 && decide (1000 < temp) then
      mark (thermalEvent (upHedge s h (fun x => { x with tj := temp })) 0xFF h temp) (mkJunction h) 10000000
    else s)

end Sys2Proof.Machine
end

