-- ==== Sys2Proof/Machine/Boot.lean ====
section
/-!
DEFINITION. The boot chain and the bring-up sequence (chapters 19 and 22), lane repair (R78, R79), the retention probe
(R593), and the baseboard's MCTP messages.
-/
namespace Sys2Proof.Machine

/-! ### Images and the boot record (R572 to R574) -/

def imgLoad (r : List Byte) : Nat := leAt r 8 4
def imgBody (r : List Byte) : Nat := leAt r 16 8
def imgSvn (r : List Byte) : Nat := leAt r 1 1
def imgPieces (r : List Byte) : Nat := ceilDiv (imgBody r - imgLoad r) 65536

/-- Header and body: what the signature covers. -/
def imgSigned (r : List Byte) : List Byte := r.take (64 + imgBody r)
def imgSignature (r : List Byte) : List Byte := (r.drop (64 + imgBody r)).take 29792

/-- The header checks of R574, with the fuses' security version. -/
def headerOk (r : List Byte) (fuse : Nat) : Bool :=
  decide (leAt r 4 4 = 0x50564657) && decide (leAt r 2 2 = 1) && decide (leAt r 0 1 = 1) &&
  decide (imgLoad r ≤ 3 * 2 ^ 20 ∧ imgLoad r ≤ imgBody r ∧ 64 * imgPieces r ≤ imgLoad r) &&
  decide (64 + imgBody r + 29792 ≤ 64 * 2 ^ 20 ∧ 64 + imgBody r + 29792 ≤ r.length) && zeros r 24 40 &&
  decide (fuse ≤ imgSvn r ∧ imgSvn r ≤ 64)

/-- The image verifies (R574). -/
def imageOk (r : List Byte) (fuse : Nat) : Bool :=
  headerOk r fuse && Config.firmwareVerifies (imgSigned r) (imgSignature r)

/-- The valid boot-record copy with the higher sequence number (R573). -/
def Flash.boot (f : Flash) : BootRec :=
  if f.boot0.valid && (!f.boot1.valid || decide (f.boot1.seq < f.boot0.seq)) then f.boot0
  else if f.boot1.valid then f.boot1
  else {}

/-- Write the boot record over the other copy (R573). -/
def Flash.writeBoot (f : Flash) (active : Bool) : Flash :=
  let r : BootRec := { seq := f.boot.seq + 1, active := active, valid := true }
  if f.boot = f.boot0 then { f with boot1 := r } else { f with boot0 := r }

/-- A flash region: A, or B. -/
def Flash.region (f : Flash) (b : Bool) : List Byte := if b then f.regionB else f.regionA

/-! ### The boot ROM (R574) -/

/-- Start firmware from a region that has verified. -/
def startFirmware (s : State) (b : Bool) : State :=
  let r := s.flash.region b
  let fallback := b != s.flash.boot.active
  let detail := at_ 63 48 (leAt r 14 2) ||| at_ 47 32 (leAt r 12 2) ||| at_ 15 8 (imgSvn r) ||| at_ 0 0 (b2n b)
  let s := extendMr s 1 0x0002 detail (Config.shake256 (imgSigned r))
  let sec := leBytes 4 s.flash.boot.seq ++ leBytes 1 (b2n s.flash.boot.active) ++ leBytes 1 s.flash.svn ++
    leBytes 1 (b2n b) ++ leBytes 1 (b2n fallback)
  let s := extendMr s 2 0x0003 (at_ 15 8 s.flash.svn ||| at_ 1 1 (b2n fallback) ||| at_ 0 0 (b2n b))
    (Config.shake256 sec)
  { s with
    sec := { s.sec with
      stage := .running, regionB := b, fallback := fallback, imageSvn := imgSvn r,
      fwMajor := BitVec.ofNat 16 (leAt r 14 2), fwMinor := BitVec.ofNat 16 (leAt r 12 2) }
    link := { s.link with configReady := true } }

/-- The ROM runs: registers and log start afresh, then the first region in order that verifies starts. -/
def romRun (s : State) : State :=
  let s := { s with sec := {} }
  let s := extendMr s 0 0x0001 0 (Config.shake256 Config.bootRom)
  let a := s.flash.boot.active
  if imageOk (s.flash.region a) s.flash.svn then startFirmware s a
  else if imageOk (s.flash.region !a) s.flash.svn then startFirmware s !a
  else { s with sec := { s.sec with stage := .recovery } }

/-- R574: the ROM at power-good. -/
def execBootRomRun (s : State) : Out :=
  .next (whenPowered s fun s => if s.sec.stage = .none then romRun s else s)

/-- R576: the recovery message. -/
def execRecoveryImage (image : List Byte) (s : State) : Out :=
  .next (whenPowered s fun s =>
    if s.sec.stage = .recovery then
      let s := { s with flash := { s.flash with regionA := image } }
      if imageOk image s.flash.svn then romRun { s with flash := s.flash.writeBoot false } else s
    else s)

/-- Blow fuses up to the running image's version and extend FUSE_RAISE (R585 step 5, R586). -/
def fuseRaise (s : State) : State :=
  if s.flash.svn < s.sec.imageSvn then
    let s := { s with flash := { s.flash with svn := s.sec.imageSvn } }
    extendMr s 2 0x0007 (at_ 15 8 s.flash.svn) (Config.shake256 (leBytes 8 (2 ^ s.flash.svn - 1)))
  else s

/-- The 288 KiB image of a routine bank: its words, then its cost table (R295). -/
def State.bankImage (s : State) (b : Nat) : List Byte :=
  wordsBytes ((List.range 32768).map (fun n => Tbl.get 0 s.routines.words (32768 * b + n))) ++
  wordsBytes ((List.range 4096).map (fun n => Tbl.get 0 s.routines.cost (4096 * b + n)))

/-- The active bank is valid. -/
def State.bankValid (s : State) (b : Nat) : Bool := if b = 0 then s.routines.valid0 else s.routines.valid1

/-- Measure a routine bank (R298, R579). -/
def measureBank (s : State) (b : Nat) : State :=
  extendMr s 3 0x0004 (at_ 0 0 b) (Config.shake256 (s.bankImage b))

/-! ### Bring-up (R627 to R631) -/

/-- The phases of Table — bring-up phases that firmware and channels run. -/
def State.phase (s : State) : Nat := s.bring.phase.toNat

/-- Enter a phase. -/
def enterPhase (s : State) (p : BitVec 8) : State :=
  { s with bring := { s.bring with phase := p, phaseTicker := s.tickerW } }

/-- Bring-up stops (R631). -/
def stopBringUp (s : State) (cause : BitVec 8) (channel : BitVec 16) : State :=
  let s := enterPhase s 0xFF
  { s with
    bring := { s.bring with stopCause := cause, stopChannel := channel }
    sched := { s.sched with state := .stopped } }

/-- Phase 3 (R627); after a reference loss no powered-time record is written (R40). -/
def execBringupRecords (s : State) : Out :=
  .next (whenFw s fun s =>
    if s.bring.phase = 0 then
      let s := enterPhase { s with routines := {} } 1
      match s.flash.bestPowered with
      | none => stopBringUp s 0x03 0xFFFF
      | some r =>
        let s := { s with time := { s.time with persistedS := r.poweredS, powerUps := r.powerUps + 1 } }
        let s :=
          if s.time.refLoss then s
          else { s with
            flash := s.flash.writePowered r.poweredS (r.powerUps + 1)
            time := { s.time with persistOk := true } }
        applyFabric (fuseRaise { s with bring := { s.bring with banksCleared := true } })
    else s)

/-- The failing lanes of a channel in a test result, each once, in lane order. -/
def failingOf (l : List (Nat × Nat)) (c : Nat) : List Nat :=
  (List.range 84).filter (fun i => l.any (fun p => p.1 == c && p.2 == i))

/-- Failing lanes of a channel, data and command/address. -/
def dqFails (l : List (Nat × Nat)) (c : Nat) : Nat := (failingOf l c).countP (fun i => i < 72)
def caFails (l : List (Nat × Nat)) (c : Nat) : Nat := (failingOf l c).countP (fun i => 72 ≤ i)

/-- The spares of a channel suffice (R79). -/
def sparesOk (l : List (Nat × Nat)) (c : Nat) : Bool := decide (dqFails l c ≤ 4) && decide (caFails l c ≤ 1)

/-- Every lane whose place in the repair map changed, as (channel, lane) (R78). -/
def changedLanes (old map : Tbl (List Nat)) : List (Nat × Nat) :=
  (List.range 768).flatMap (fun c => ((List.range 84).filter (fun i =>
    (Tbl.get [] old c).contains i != (Tbl.get [] map c).contains i)).map (fun i => (c, i)))

/-- Each channel whose spares suffice is repaired, and refreshes from then on (R73, R78). -/
def steerLanes (l : List (Nat × Nat)) (s : State) : State :=
  let one := fun (c : Nat) =>
    if sparesOk l c then { s.chan c with spareDq := dqFails l c, spareCa := caFails l c, refreshOn := true } else s.chan c
  let all := (List.range 768).map (fun c => (c, one c))
  { s with chans := all.filter (fun e => e.2 != {}) }

/-- R78, R79: every channel repaired, the changes logged and the new map stored; or the first channel whose spares run out. -/
def repairLanes (l : List (Nat × Nat)) (s : State) : State :=
  let s := steerLanes l s
  match (List.range 768).find? (fun c => !sparesOk l c) with
  | some c => stopBringUp s (if 4 < dqFails l c then 0x01 else 0x02) (BitVec.ofNat 16 c)
  | none =>
    let map : Tbl (List Nat) := ((List.range 768).map (fun c => (c, failingOf l c))).filter (fun e => e.2 != [])
    let changed := changedLanes s.flash.repair map
    { s with
      flash := { s.flash with repair := map }
      bring := { s.bring with lanesChanged := changed.length, laneLog := changed } }

/-- Phase 4. -/
def execLaneRepair (failing : List (Nat × Nat)) (s : State) : Out :=
  guardWf (.laneRepair failing) "LANE_REPAIR" (whenFw s fun s =>
    if s.bring.phase = 1 then repairLanes failing (enterPhase s 2) else s)

/-- Phase 5 (R593, R602): each channel's longest clean interval, as normalised margins, which the health records show. -/
def execRetentionProbe (clean : List (Nat × Nat)) (tstack : List Int) (s : State) : Out :=
  guardWf (.retentionProbe clean tstack) "RETENTION_PROBE" (whenFw s fun s =>
    if s.bring.phase = 2 then
      let longest := fun c => match clean.find? (fun p => p.1 == c) with
        | some p => p.2
        | none => 0
      let s := enterPhase s 3
      forN 12 showMargin { s with chans := (List.range 768).map (fun c => (c, { s.chan c with
          retention := Config.retentionMs (longest c) (tstack.getD (c / 64) 0) })) }
    else s)

/-- Phase 6 (R630, R59). -/
def execDramZero (s : State) : Out :=
  .next (whenFw s fun s =>
    if s.bring.phase = 3 then { enterPhase s 4 with dram := {}, loose := [], imap := [⟨196608, 0, 0, 1⟩] } else s)

/-- Phase 7 (R273, R356): each hedge's warden clears its Privet entries (R28). -/
def execBringupStructures (s : State) : Out :=
  .next (whenFw s fun s =>
    if s.bring.phase = 4 then
      let s := enterPhase s 5
      let s := tidyCores { s with cores := s.cores.map (fun e => (e.1, { e.2 with scratch := {} })) }
      let s := forN 12 (fun h s => applyCfg s h (.privet [])) s
      let s := clearContexts s
      { s with scrubOn := true, xl := { s.xl with nextNode := 0, privet := [], hostPrivet := [], flashPrivet := [] } }
    else s)

/-- Phase 8 (R628, R629): the commands that wait may now start. -/
def execReady (s : State) : Out :=
  .next (whenFw s fun s =>
    if s.bring.phase = 5 then
      let s := enterPhase s 6
      { s with bring := { s.bring with readyTicker := s.tickerW } }
    else s)

/-- The bring-up report (Table — bring-up report). -/
def State.report (s : State) : List Word :=
  [(s.bring.phase.zeroExtend 64 <<< 56) ||| (s.bring.stopCause.zeroExtend 64 <<< 48) |||
     (s.bring.stopChannel.zeroExtend 64 <<< 32) ||| regAt 31 16 s.bring.lanesChanged,
   s.bring.phaseTicker, s.timeWord, s.bring.readyTicker]

/-- R632: the report, available from the start of phase 3. -/
def execBringupReportRead (s : State) : Out :=
  .next (whenFw s fun s => if s.bring.phase = 0 then s else emit s (.mctp (wordsBytes s.report)))

/-- R535, R536: the record is refused, or stored, and applied or marked PENDING. -/
def execFabricConfigWrite (record : List Byte) (s : State) : Out :=
  .next (whenFw s fun s =>
    if recordOk s record then
      let s := { s with flash := { s.flash with fabric := record } }
      if s.model then { s with flash := { s.flash with fabricPending := true } } else applyFabric s
    else s)

/-- R575: one piece of the data part is checked against its digest in the loaded code part. -/
def execFirmwareDataPieceRead (piece : Nat) (s : State) : Out :=
  .next (whenFw s fun s =>
    let r := s.flash.region s.sec.regionB
    if piece < imgPieces r then
      let first := imgLoad r + 65536 * piece
      let data := (r.drop (64 + first)).take (min 65536 (imgBody r - first))
      let want := slice r (64 + imgLoad r - 64 * imgPieces r + 64 * piece) 64
      if Config.shake256 data = want then s else jobFaultAll s causeMgmtMemory
    else s)

end Sys2Proof.Machine
end

