-- ==== Sys2Proof/Machine/Submit.lean ====
section
/-!
DEFINITION. Submissions (chapter 13): Gondola's fetches, the admission checks, admission with placement and binding
(chapters 14 and 15), and completion entries.
-/
namespace Sys2Proof.Machine

/-! ### Queues -/

/-- A submission queue, and its key in turns. -/
def State.sq? (s : State) (fn qid : Nat) : Option SubQ := s.sqs.find? (fun q => q.fn == fn && q.qid == qid)
def SubQ.key (q : SubQ) : Nat := 256 * q.fn + q.qid
def upSq (s : State) (fn qid : Nat) (f : SubQ → SubQ) : State :=
  { s with sqs := updFirst (fun q => q.fn == fn && q.qid == qid) f s.sqs }

def State.cq? (s : State) (fn cid : Nat) : Option CplQ := s.cqs.find? (fun q => q.fn == fn && q.cid == cid)
def upCq (s : State) (fn cid : Nat) (f : CplQ → CplQ) : State :=
  { s with cqs := updFirst (fun q => q.fn == fn && q.cid == cid) f s.cqs }

/-- Entries posted and unconsumed, or reserved (R428, R434). -/
def CplQ.used (q : CplQ) : Nat := (q.tail + 2 ^ q.log2 - q.head) % 2 ^ q.log2 + q.reserved

/-- A completion queue has a free entry. -/
def CplQ.free (q : CplQ) : Bool := decide (q.used < 2 ^ q.log2 - 1)

/-- The elements of a list served in turn: those whose key lies above the last one served, then the others. -/
def inTurn {α : Type} (key : α → Nat) (last : Nat) (l : List α) : List α :=
  let s := sortBy (fun a b => decide (key a ≤ key b)) l
  s.filter (fun x => decide (last < key x)) ++ s.filter (fun x => decide (key x ≤ last))

/-! ### Gondola (R414, R415, R522) -/

/-- Entries of the descriptor buffer that the queues of a class hold or have in flight. -/
def State.buffered (s : State) (lc : Bool) : Nat :=
  let mine := fun (fn qid : Nat) => match s.sq? fn qid with
    | some q => q.lc == lc
    | none => false
  s.dbuf.countP (fun e => mine e.fn e.qid) + ((s.bursts.filter (fun b => mine b.fn b.qid)).map (·.count)).sum

/-- Bursts in flight of a class. -/
def State.flying (s : State) (lc : Bool) : Nat :=
  s.bursts.countP (fun b => match s.sq? b.fn b.qid with
    | some q => q.lc == lc
    | none => false)

/-- Buffer entries free for a class. -/
def State.bufferRoom (s : State) (lc : Bool) : Nat :=
  let all := 8192 - (s.buffered true + s.buffered false)
  if lc then all else min all (6144 - s.buffered false)

/-- A burst slot is free for a class. -/
def State.burstRoom (s : State) (lc : Bool) : Bool :=
  decide (s.bursts.length < 8) && (lc || decide (s.flying false < 6))

/-- Length of the next burst of a queue. -/
def SubQ.burst (q : SubQ) (room : Nat) : Nat :=
  min (min 32 room) (min ((q.tail + 2 ^ q.log2 - q.fetch) % 2 ^ q.log2) (2 ^ q.log2 - q.fetch))

/-- The queue whose burst goes next in a class. -/
def State.nextBurstOf (s : State) (lc : Bool) : Option SubQ :=
  if s.burstRoom lc then
    (inTurn SubQ.key (if lc then s.sched.burstLc else s.sched.burstBe)
      (s.sqs.filter (fun q => q.lc == lc && q.dying.isNone && !s.blocked q.fn))).find?
        (fun q => decide (0 < q.burst (s.bufferRoom lc)))
  else none

/-- Issue a burst. -/
def issueBurst (s : State) (q : SubQ) : State :=
  let n := q.burst (s.bufferRoom q.lc)
  let addr := q.ring.toNat + 128 * q.fetch
  let b := max 1 (min s.link.mrrs 4096)
  let s := upSq s q.fn q.qid (fun q => { q with fetch := (q.fetch + n) % 2 ^ q.log2 })
  let s := { s with
    bursts := s.bursts ++ [⟨s.nextBurst, q.fn, q.qid, q.fetch, n⟩]
    nextBurst := s.nextBurst + 1
    sched := if q.lc then { s.sched with burstLc := q.key } else { s.sched with burstBe := q.key } }
  forL (cutReads b (128 * n / b + 2) addr (128 * n)) (fun r s => emit s (.dmaRead q.fn r.1 r.2.1)) s

/-- R414, R415: Gondola's next burst, LC before BE, queues in turn. -/
def execGondolaBurst (s : State) : Out :=
  .next (whenPowered s fun s =>
    match s.nextBurstOf true with
    | some q => issueBurst s q
    | none =>
      match s.nextBurstOf false with
      | some q => issueBurst s q
      | none => s)

/-- Entry i of a burst as it arrived. -/
def arrivedEntry (data : List PWord) (failed : List Nat) (i : Nat) : Option (List Word) :=
  let l := (data.drop (16 * i)).take 16
  if l.length = 16 ∧ !anyPoison l ∧ !failed.contains i then some (pdata l) else none

/-- R415, R522: a burst arrives; a fetch that failed is counted once (log entry 35). -/
def execGondolaBurstDone (burst : Nat) (data : List PWord) (failed : List Nat) (s : State) : Out :=
  .next (whenPowered s fun s =>
    match s.bursts.find? (fun b => b.id == burst) with
    | none => s
    | some b =>
      let es := (List.range b.count).map (fun i => (DEntry.mk b.fn b.qid (b.first + i) (arrivedEntry data failed i) none))
      let s := { s with bursts := s.bursts.filter (fun x => x.id != burst), dbuf := s.dbuf ++ es }
      if es.any (fun e => e.words.isNone) then rxFailed s else s)

/-! ### Posting completions (R433, R434) -/

/-- Post an entry of a completion queue, then its message. -/
def postCpl (s : State) (fn cid : Nat) (words : Bool → List Word) : State :=
  match s.cq? fn cid with
  | none => s
  | some q =>
    let s := dmaBytes s fn (q.ring.toNat + 64 * q.tail) false (wordsBytes (words q.phase))
    let s := upCq s fn cid (fun q => { q with
      tail := (q.tail + 1) % 2 ^ q.log2
      phase := if q.tail + 1 = 2 ^ q.log2 then !q.phase else q.phase })
    msix s fn q.vector

/-- A refusal's entry (R430). -/
def refusalWords (s : State) (tag : Nat) (st : Status) (qid head idx : Nat) (phase : Bool) : List Word :=
  [at_ 63 32 tag ||| (st.zeroExtend 64 <<< 16) ||| at_ 15 8 qid ||| at_ 0 0 (b2n phase),
   at_ 63 48 head ||| at_ 47 32 idx, s.tickerW, s.timeWord, 0, 0, 0, 0]

/-! ### The routine bank (R275, R289, R299) -/

/-- A directory entry. -/
def State.dirEntry (s : State) (bank rid : Nat) : Word := Tbl.get 0 s.routines.words (32768 * bank + rid)

/-- The routine exists in the bank. -/
def State.routineValid (s : State) (bank rid : Nat) : Bool := s.bankValid bank && bit (s.dirEntry bank rid) 63

/-- v(i) of R299. -/
def argValue (args : List Word) (i : Nat) : Nat := if i = 15 then 1 else (args.getD i 0).toNat

/-- The bound and solo cost of an invocation, each saturated at 2^64 − 1 (R299). -/
def State.cost (s : State) (bank rid : Nat) (args : List Word) : Nat × Nat :=
  let w := fun (i : Nat) => Tbl.get 0 s.routines.cost (4096 * bank + 4 * rid + i)
  let f := fun (i : Nat) => argValue args (fld (w i) 15 12) * argValue args (fld (w i) 11 8)
  (satNat 64 (fld (w 0) 63 32 + fld (w 1) 63 40 * f 1 + fld (w 2) 63 40 * f 2 + fld (w 3) 63 40 * f 3),
   satNat 64 (fld (w 0) 31 0 + fld (w 1) 39 16 * f 1 + fld (w 2) 39 16 * f 2 + fld (w 3) 39 16 * f 3))

/-! ### Descriptors (R417 to R424) -/

def descType (d : List Word) : Nat := fld (wd d 0) 63 56

/-- Words i to j of a descriptor are 0. -/
def zeroWords (d : List Word) (i j : Nat) : Bool := (List.range (j + 1 - i)).all (fun k => wd d (i + k) == 0)

/-- What the checks of one submission know. -/
structure SubEnv where
  descs  : List (List Word)
  lc     : Bool
  nslots : Nat
  bank   : Nat
  uses   : Bool
deriving DecidableEq, Repr

def SubEnv.d (e : SubEnv) (i : Nat) : List Word := e.descs.getD i []

/-- The payload bytes in a SCHUSS and its continuations (R419). -/
def payloadOf (descs : List (List Word)) : List Byte := (descs.flatMap wordsBytes).drop 32

/-- The descriptors of a SCHUSS with its continuations. -/
def SubEnv.schuss (e : SubEnv) (i cont : Nat) : List (List Word) := (List.range (1 + cont)).map (fun k => e.d (i + k))

/-- Descriptor that holds payload byte p. -/
def payloadAt (i p : Nat) : Nat := if p < 96 then i else i + 1 + (p - 96) / 128

/-- The command at index i: how many descriptors it takes, and the (check, index) pairs that fail there
(Table — admission checks). -/
def cmdFails (s : State) (e : SubEnv) (i : Nat) (afterBarrier : Bool) : Nat × List (Nat × Nat) :=
  let d := e.d i
  let w := wd d 0
  let chk : Nat → Bool → List (Nat × Nat) := fun c b => if b then [(c, i)] else []
  let slotBad := fun (x : Nat) => decide (e.nslots ≤ x)
  match descType d with
  | 0x01 => (1, (3, i) :: chk 2 (fld w 14 0 != 0 || fld (wd d 1) 31 0 != 0 || fld (wd d 4) 63 8 != 0 ||
      !zeroWords d 5 15))
  | 0x02 =>
    let n := fld w 38 35
    let rid := fld w 48 39
    let args := (d.drop 2).take n
    let dir := s.dirEntry e.bank rid
    (1, chk 2 (fld w 34 0 != 0 || wd d 1 != 0 || !zeroWords d 14 15 || (decide (n < 12) && !zeroWords d (2 + n) 13)) ++
      chk 3 (slotBad (fld w 55 49)) ++
      chk 6 (!s.routineValid e.bank rid || fld dir 32 29 != n || (!e.lc && decide (32500 < (s.cost e.bank rid args).1))))
  | 0x03 => (1, chk 2 (fld w 55 0 != 0 || !zeroWords d 1 15))
  | 0x04 =>
    let cont := fld w 48 43
    let len := fld w 42 30
    let pay := payloadOf (e.schuss i cont)
    let stray := (pay.drop len).findIdx? (· != 0)
    (1 + cont,
      chk 2 (fld w 29 25 != 0 || !zeroWords d 1 3) ++
      (match stray with
       | some p => [(2, payloadAt i (len + p))]
       | none => []) ++
      chk 3 (slotBad (fld w 55 49) || cont != ceilDiv (len - 96) 128 || decide (e.descs.length ≤ i + cont) ||
        decide (len = 0 ∨ 8160 < len) || fld w 24 0 % 64 != 0 || decide (scratchBytes < fld w 24 0 + len)))
  | 0x05 =>
    let sk := fld w 55 54
    let dk := fld w 53 52
    let len := fld (wd d 3) 31 0
    let al := if sk = 1 ∨ dk = 1 then 64 else 8
    let side := fun (k slot a : Nat) => if k = 2 then slotBad slot || decide (scratchBytes < a + len) else slot != 0
    (1, chk 2 (sk == 3 || dk == 3 || fld w 37 0 != 0 || fld (wd d 3) 63 32 != 0 || !zeroWords d 4 15) ++
      chk 3 (sk == dk || decide (len < 8) || len % al != 0 || (wd d 1).toNat % al != 0 || (wd d 2).toNat % al != 0 ||
        side sk (fld w 51 45) (wd d 1).toNat || side dk (fld w 44 38) (wd d 2).toNat))
  | 0x06 =>
    let n := fld w 16 0
    (1, chk 2 (fld w 40 17 != 0 || fld (wd d 1) 47 0 != 0 || !zeroWords d 4 15) ++
      chk 3 (decide (n = 0 ∨ 65536 < n) || (wd d 2).toNat % (if bit w 42 then 8 else 4) != 0 || (wd d 3).toNat % 32 != 0))
  | 0x07 =>
    (1, chk 2 (fld w 21 0 != 0 || !zeroWords d 2 15) ++ chk 3 (!afterBarrier || decide (64 < fld w 55 49)) ++
      chk 4 (!s.active (fld w 31 25) || !s.fGrade) ++ chk 5 (!e.uses))
  | _ => (1, [(2, i)])

/-- Walk the descriptors after the JOB: the commands with their segments, and what fails. -/
def walkCmds (s : State) (e : SubEnv) : Nat → Nat → Nat → Bool → List JobCmd × List (Nat × Nat)
  | 0, _, _, _ => ([], [])
  | fuel + 1, i, seg, afterBarrier =>
    if e.descs.length ≤ i then ([], [])
    else
      let (n, fails) := cmdFails s e i afterBarrier
      let t := descType (e.d i)
      let c : JobCmd := { idx := i, type := t, words := e.d i, seg := seg }
      let next := if t = 3 then true else if t = 2 then false else afterBarrier
      let r := walkCmds s e fuel (i + n) (if t = 3 then seg + 1 else seg) next
      (c :: r.1, fails ++ r.2)

/-- The cores that a JOB's mask names, in ascending order. -/
def maskCores (d : List Word) : List Nat :=
  let m := (wd d 3).toNat + 2 ^ 64 * fld (wd d 4) 7 0
  (List.range 72).filter (fun c => m.testBit c)

/-- What fails in the JOB descriptor (R417, R429, R443). -/
def jobFails (s : State) (d : List Word) (lc : Bool) (cmds : List JobCmd) : List (Nat × Nat) :=
  let w := wd d 0
  let n := fld w 44 38
  let mask := maskCores d
  let live := fld w 23 15
  let stop := fld w 33 24
  let digest := bit w 34
  let chk : Nat → Bool → List (Nat × Nat) := fun c b => if b then [(c, 0)] else []
  chk 2 (fld w 14 0 != 0 || fld (wd d 1) 31 0 != 0 || fld (wd d 4) 63 8 != 0 || !zeroWords d 5 15) ++
  chk 3 (decide (72 < n) || (if bit w 37 then mask.length != n else !mask.isEmpty) ||
    digest == (wd d 2 == 0) || (wd d 2).toNat % 8 != 0 || decide (320 < live) ||
    (if lc then live != 0 else bit w 36) || (stop != 0 && !cmds.any (fun c => c.idx == stop))) ++
  chk 4 (mask.any (fun c => !s.active c) || decide (s.activeCount < n) || (bit w 35 && !s.fGrade)) ++
  chk 5 (bit w 35 && lc)

/-- The first check that fails, at its lowest descriptor. -/
def firstFail (l : List (Nat × Nat)) : Option (Nat × Nat) :=
  l.foldl (fun a x => match a with
    | none => some x
    | some y => if x.1 < y.1 ∨ (x.1 = y.1 ∧ x.2 < y.2) then some x else some y) none

def checkStatus (c : Nat) : Status := if c = 2 then stReservedNonzero else if c = 4 then stAbsentUnit else stBadDescriptor

/-! ### Placement (R446) -/

/-- Admitted jobs with a slot on a core, of a class. -/
def State.slotsOn (s : State) (c : Nat) (lc : Bool) : Nat :=
  s.jobs.countP (fun j => j.status.isNone && j.lc == lc && j.cores.contains c)

/-- How a core ranks for a class: lower comes first. -/
def State.rank (s : State) (lc : Bool) (c : Nat) : Nat :=
  let l := s.slotsOn c true
  let b := s.slotsOn c false
  if l + b = 0 then 0 else if lc then (if l = 0 then 1 else 2) else 1 + b

/-- The best core in the order from `start` on, wrapping at 71. -/
def State.bestCore (s : State) (lc : Bool) (start : Nat) (taken : List Nat) : Option Nat :=
  let order := ((List.range 72).map (fun i => (start + i) % 72)).filter (fun c => s.active c && !taken.contains c)
  let best := order.foldl (fun a c => min a (s.rank lc c)) 1000000
  order.find? (fun c => s.rank lc c == best)

/-- Map n slots, each from the core after the one chosen last: the cores, and where the next choice starts. -/
def State.place (s : State) (lc : Bool) : Nat → Nat → List Nat → List Nat × Nat
  | 0, start, taken => (taken, start)
  | n + 1, start, taken =>
    match s.bestCore lc start taken with
    | none => (taken, start)
    | some c => State.place s lc n ((c + 1) % 72) (taken ++ [c])

/-! ### Admission (R129, R297, R301, R431, R474) -/

/-- CRC-32C of the 64 map entries as stored. -/
def State.mapCrc (s : State) : Nat := (crc32c ((List.range 64).flatMap (fun i => leBytes 16 (s.mapRaw.getD i 0)))).toNat

/-- The partition signature (R474). -/
def State.partitionSig (s : State) : BitVec 32 :=
  crc32c (leBytes 1 (b2n s.modes.repro) ++ leBytes 1 s.activeCount ++ leBytes 2 s.sec.fwMajor.toNat ++
    leBytes 4 s.mapCrc ++ leBytes 8 s.domainMask)

/-- The versions that are CURRENT: (table, key of its slot). -/
def State.currentVersions (s : State) : List (Nat × Nat) :=
  (s.slots.filter (fun e => e.2.state == .current)).map (fun e => (e.1 / 4, e.1))

/-- The SHADOW slot of a table. -/
def State.shadowOf (s : State) (table : Nat) : Option Nat :=
  ((List.range 4).map (fun i => 4 * table + i)).find? (fun k => (s.slot k).state == .shadow)

/-- Admit a submission that passed every check. -/
def admitJob (s : State) (q : SubQ) (cid : BitVec 12) (d : List Word) (ndesc head : Nat) (cmds : List JobCmd) : State :=
  let w := wd d 0
  let start := if q.lc then s.sched.nextLc else s.sched.nextBe
  let chosen := if bit w 37 then (maskCores d, start) else s.place q.lc (fld w 44 38) start []
  let bank := s.routines.active
  let costs := (cmds.filter (fun c => c.type == 2)).map (fun c =>
    s.cost bank (fld (wd c.words 0) 48 39) ((c.words.drop 2).take (fld (wd c.words 0) 38 35)))
  let holds := (cmds.filter (fun c => c.type == 6 && bit (wd c.words 0) 43)).filterMap (fun c =>
    let t := fld (wd c.words 0) 55 44
    (s.shadowOf t).map (fun k => (t, k)))
  let shared := q.lc && chosen.1.any (fun c => decide (0 < s.slotsOn c true))
  let id := s.sched.nextJob + 1
  let j : Job := {
    id := id, fn := q.fn, sq := q.qid, cq := q.cq, cid := cid, lc := q.lc, tag := BitVec.ofNat 32 (fld (wd d 1) 63 32)
    ndesc := ndesc, cores := chosen.1, cmds := cmds, tailDef := bit w 36, usesUpdate := bit w 35, digest := bit w 34
    digestAddr := wd d 2, stopAfter := fld w 33 24, liveK := fld w 23 15, binds := s.currentVersions
    holds := holds.dedup, repro := s.modes.repro, bank := bank, soloSteps := (costs.map (·.2)).sum
    boundSteps := (costs.map (·.1)).sum, admitted := s.ticker, sqHead := head, sig := s.partitionSig }
  let s := upCq s q.fn q.cq (fun x => { x with reserved := x.reserved + 1 })
  { s with
    jobs := s.jobs ++ [j]
    sched := { s.sched with
      nextJob := id
      lcShared := s.sched.lcShared + b2n shared
      nextLc := if q.lc then chosen.2 else s.sched.nextLc
      nextBe := if q.lc then s.sched.nextBe else chosen.2 } }

/-! ### Parsing (R428 to R430, R444, R445) -/

/-- The entry of the descriptor buffer at a ring position of a queue. -/
def State.dentry (s : State) (q : SubQ) (i : Nat) : Option DEntry :=
  s.dbuf.find? (fun e => e.kept.isNone && e.fn == q.fn && e.qid == q.qid && e.index == (q.head + i) % 2 ^ q.log2)

/-- How a queue's first submission stands. -/
inductive Ready where
  | no | one | full (n : Nat)
deriving DecidableEq, Repr

/-- R428: ready whole, or refused from its descriptor 0 alone. -/
def State.ready (s : State) (q : SubQ) : Ready :=
  match s.dentry q 0 with
  | none => .no
  | some e =>
    match e.words with
    | none => .one
    | some d =>
      let n := fld (wd d 0) 55 45
      if descType d ≠ 1 ∨ n < 2 ∨ 1024 < n ∨ 2 ^ q.log2 - 1 < n then .one
      else if (List.range n).all (fun i => (s.dentry q i).isSome) then .full n
      else .no

/-- A job entry of the class is free: a job holds its entry until its completion is posted (R445, R464). -/
def State.jobRoom (s : State) (lc : Bool) : Bool :=
  let n := fun (b : Bool) => s.jobs.countP (fun j => j.lc == b)
  decide (n true + n false < 1024) && (lc || decide (n false < 768))

/-- A submission of the LC class waits for admission (R401, R428). -/
def State.lcWaits (s : State) : Bool := s.sqs.any (fun q => q.lc && q.dying.isNone && s.ready q != .no)

/-- Every setpoint has reached the floor that R36 asks for while LC jobs are admitted (log entry 115). -/
def State.atLcFloor (s : State) : Bool := (List.range 12).all (fun h => decide (700 ≤ (s.hedge h).vsetMv))

/-- The next queue to parse in a class. -/
def State.nextParse (s : State) (lc : Bool) : Option SubQ :=
  if s.jobRoom lc && (!lc || s.atLcFloor) then
    (inTurn SubQ.key (if lc then s.sched.turnLc else s.sched.turnBe)
      (s.sqs.filter (fun q => q.lc == lc && q.dying.isNone))).find? (fun q =>
        s.ready q != .no && (match s.cq? q.fn q.cq with
          | some c => c.free
          | none => false))
  else none

/-- Consume n entries of a queue: HEAD passes them, and they leave the buffer. -/
def consume (s : State) (q : SubQ) (n : Nat) : State :=
  let gone := fun (e : DEntry) => e.kept.isNone && e.fn == q.fn && e.qid == q.qid &&
    decide ((e.index + 2 ^ q.log2 - q.head) % 2 ^ q.log2 < n)
  upSq { s with dbuf := s.dbuf.filter (fun e => !gone e) } q.fn q.qid
    (fun x => { x with head := (x.head + n) % 2 ^ x.log2 })

/-- R26: the entries that hold the payloads of the job admitted next stay in the buffer for its SCHUSS commands. -/
def keepPayloads (s : State) (q : SubQ) (e : SubEnv) (cmds : List JobCmd) : State :=
  let entry := fun (c : JobCmd) (k : Nat) =>
    DEntry.mk q.fn q.qid ((q.head + c.idx + k) % 2 ^ q.log2) (some (e.d (c.idx + k))) (some (s.sched.nextJob + 1, c.idx))
  { s with
    dbuf := s.dbuf ++ (cmds.filter (fun c => c.type == 4)).flatMap (fun c =>
      (List.range (1 + fld (wd c.words 0) 48 43)).map (entry c)) }

/-- Refuse a submission (R430). -/
def refuseSub (s : State) (q : SubQ) (n tag : Nat) (cid : BitVec 12) (st : Status) (idx : Nat) : State :=
  let s := upCtx (consume s q n) cid.toNat (fun c => { c with failed := c.failed + 1 })
  postCpl s q.fn q.cq (refusalWords s tag st q.qid ((q.head + n) % 2 ^ q.log2) idx)

/-- Parse a whole submission: refused by its first failing check, or admitted. -/
def parseFull (s : State) (q : SubQ) (cid : BitVec 12) (n : Nat) : State :=
  let got := (List.range n).map (fun i => (s.dentry q i).bind (·.words))
  let tag := fld (wd ((got.getD 0 none).getD []) 1) 63 32
  match got.findIdx? (·.isNone) with
  | some i => refuseSub s q n tag cid stBadDescriptor i
  | none =>
    let descs := got.filterMap id
    let d := descs.getD 0 []
    let e : SubEnv := ⟨descs, q.lc, fld (wd d 0) 44 38, s.routines.active, bit (wd d 0) 35⟩
    let (cmds, fails) := walkCmds s e n 1 0 false
    match firstFail (jobFails s d q.lc cmds ++ fails) with
    | some (c, i) => refuseSub s q n tag cid (checkStatus c) i
    | none => admitJob (keepPayloads (consume s q n) q e cmds) q cid d n ((q.head + n) % 2 ^ q.log2) cmds

/-- Parse the first submission of a queue (R460). -/
def parseQueue (s : State) (q : SubQ) : State :=
  let s := { s with sched := if q.lc then { s.sched with turnLc := q.key } else { s.sched with turnBe := q.key } }
  let cid := Tbl.get 0 s.xl.fnCid q.fn
  let s := upCtx s cid.toNat (fun c => { c with submitted := c.submitted + 1 })
  match s.ready q with
  | .no => s
  | .one => refuseSub s q 1 0 cid stBadDescriptor 0
  | .full n => parseFull s q cid n

/-- R429, R444: firmware parses the next ready submission, LC before BE; a held TABLE_SWAP that fits comes first (R134). -/
def execSubmissionParse (s : State) : Out :=
  .next (whenFw s fun s =>
    if s.sched.state = .admitting ∧ s.model ∧ !s.swapDue then
      match s.nextParse true with
      | some q => parseQueue s q
      | none =>
        match s.nextParse false with
        | some q => parseQueue s q
        | none => s
    else s)

end Sys2Proof.Machine
end

