-- ==== Sys2Proof/Machine/Jobs.lean ====
section
/-!
DEFINITION. The commands of a job that firmware, movers and the host edge run (chapter 13): CALL, BARRIER, SCHUSS and
COPY; the end of jobs and their completions; and the admin commands that wait for completions (RESET_JOBS, FENCE_CORE,
QUEUE_DESTROY).
-/
namespace Sys2Proof.Machine

/-! ### Order within a job (R425, R426, R438) -/

def Job.cmd? (j : Job) (idx : Nat) : Option JobCmd := j.cmds.find? (fun k => k.idx == idx)

/-- STOP_AFTER lets the command start. -/
def Job.allows (j : Job) (idx : Nat) : Bool := j.stopAfter == 0 || decide (idx ≤ j.stopAfter)

/-- Every command of the earlier segments has completed. -/
def Job.segOpen (j : Job) (seg : Nat) : Bool := j.cmds.all (fun k => decide (seg ≤ k.seg) || k.state == .done)

/-- A waiting command of a live job whose turn has come. -/
def Job.mayStart (j : Job) (k : JobCmd) : Bool :=
  j.status.isNone && k.state == .waiting && j.allows k.idx && j.segOpen k.seg

/-- The slot of a CALL or SCHUSS. -/
def JobCmd.slot (k : JobCmd) : Nat := fld (wd k.words 0) 55 49

/-- The core of a job's slot. -/
def Job.coreOf (j : Job) (slot : Nat) : Nat := j.cores.getD slot 72

/-- Run `f` on a live job's command of a type. -/
def onCmd (s : State) (job idx type : Nat) (f : Job → JobCmd → State → State) : State :=
  whenPowered s fun s =>
    match s.job job with
    | none => s
    | some j =>
      match j.cmd? idx with
      | none => s
      | some k => if k.type = type ∧ j.status.isNone then f j k s else s

/-! ### CALL (R31, R291, R448) -/

/-- A CALL that its core's warden can relay now. -/
def State.relayable (s : State) (j : Job) (k : JobCmd) : Bool :=
  let x := s.core (j.coreOf k.slot)
  k.type == 2 && j.mayStart k &&
  j.cmds.all (fun e => !(decide (e.idx < k.idx) && e.slot == k.slot) ||
    ((e.type != 4 || e.seg != k.seg || e.state == .done) && (e.type != 2 || e.state == .done))) &&
  decide ((if j.lc then x.callsLc else x.callsBe).length < 4) && !x.fenced

/-- The CALL relayed next: LC first, then in the order of admission and of index. -/
def State.nextRelay (s : State) : Option (Nat × Nat) :=
  let jobs := s.jobs.filter (fun j => j.lc) ++ s.jobs.filter (fun j => !j.lc)
  (jobs.flatMap (fun j => (j.cmds.filter (fun k => s.relayable j k)).map (fun k => (j.id, k.idx)))).head?

/-- R448: firmware relays a CALL to its core's sequencer. -/
def execCall (job idx : Nat) (s : State) : Out :=
  .next (onCmd s job idx 2 fun j k s =>
    if s.fwRuns ∧ s.sched.state ≠ .faulted ∧ s.nextRelay = some (job, idx) then
      let o := ownerOf j idx
      let p : PendCall := { owner := o, bank := j.bank, routine := fld (wd k.words 0) 48 39,
                            args := (k.words.drop 2).take (fld (wd k.words 0) 38 35) }
      let s := upCore s (j.coreOf k.slot) (fun x =>
        if j.lc then { x with callsLc := x.callsLc ++ [p] } else { x with callsBe := x.callsBe ++ [p] })
      cmdMark s o .relayed
    else s)

/-! ### BARRIER and SCHUSS (R419, R420, R425) -/

/-- R425: a BARRIER completes once every command before it has. -/
def execBarrier (job idx : Nat) (s : State) : Out :=
  .next (onCmd s job idx 3 fun j k s =>
    if j.mayStart k ∧ j.cmds.all (fun e => decide (idx ≤ e.idx) || e.state == .done) then
      cmdMark s (ownerOf j idx) .done
    else s)

/-- The payload of a job's SCHUSS, in the descriptor buffer (R26, R419). -/
def State.payload (s : State) (job : Nat) (k : JobCmd) : List Byte :=
  (payloadOf ((s.dbuf.filter (fun e => e.kept == some (job, k.idx))).filterMap (·.words))).take (fld (wd k.words 0) 42 30)

/-- The entries that held it are free. -/
def freePayload (s : State) (job idx : Nat) : State :=
  { s with dbuf := s.dbuf.filter (fun e => e.kept != some (job, idx)) }

/-- R26, R419: a mover carries an inline payload from the descriptor buffer to a slot's scratchpad. -/
def execSchuss (job idx : Nat) (s : State) : Out :=
  .next (onCmd s job idx 4 fun j k s =>
    let c := j.coreOf k.slot
    let o := ownerOf j idx
    if j.mayStart k ∧ s.mayBegin c job then
      cmdMark (freePayload (spWrite (settleOn s c job) c o (fld (wd k.words 0) 24 0) (s.payload job k)) job idx) o .done
    else s)

/-! ### COPY (R421, R422) -/

/-- A COPY's fields. -/
structure CopyD where
  sk  : Nat
  dk  : Nat
  ss  : Nat
  ds  : Nat
  src : Nat
  dst : Nat
  len : Nat
deriving DecidableEq, Repr

def parseCopy (d : List Word) : CopyD :=
  { sk := fld (wd d 0) 55 54, dk := fld (wd d 0) 53 52, ss := fld (wd d 0) 51 45, ds := fld (wd d 0) 44 38,
    src := (wd d 1).toNat, dst := (wd d 2).toNat, len := fld (wd d 3) 31 0 }

/-- The unit that translates for a COPY: the host edge where an end is the host, else the mover of the slot's core. -/
def CopyD.unit (m : CopyD) (c : Nat) : Nat := if m.sk = 0 ∨ m.dk = 0 then uHost else uMover (moverOf c)

/-- Read n bytes of a COPY's source: the words, or none where something has still to arrive. -/
def copyRead (s : State) (j : Job) (o : Owner) (u kind c a n : Nat) (ext : List PWord) : State × Option (List PWord) :=
  match kind with
  | 0 =>
    match s.hostReadOf j.fn o a n with
    | none => ((startRead s j.fn (some o) a n).2, none)
    | some r =>
      if r.done then
        ({ s with link := { s.link with reads := s.link.reads.filter (fun x => x.id != r.id) } }, some r.words)
      else (s, none)
  | 1 => gather s o ext (spans s u o.cid a n false)
  | _ =>
    let s := spTouch s c a n
    (s, some (s.spW c a (n / 8)))

/-- Write words at a COPY's destination. -/
def copyWrite (s : State) (j : Job) (o : Owner) (u kind c a : Nat) (l : List PWord) : State :=
  match kind with
  | 0 => writeHost s j.fn o a l
  | 1 => writeVa s u o a l
  | _ => spPut s c o a l

/-- Count the tiles of a COPY that have been delivered. -/
def copyTiles (s : State) (o : Owner) (t : Nat) : State :=
  upJob s o.job (fun j => { j with
    cmds := updFirst (fun k => k.idx == o.idx) (fun k => { k with tilesDone := t }) j.cmds })

/-- One tile of a COPY: the state, and whether the next tile may follow. -/
def copyTile (j : Job) (o : Owner) (m : CopyD) (ext : List PWord) (t : Nat) (s : State) : State × Bool :=
  let c := j.coreOf (if m.sk = 2 then m.ss else m.ds)
  let u := m.unit c
  let n := min 4096 (m.len - 4096 * t)
  let vs := if m.sk = 1 then [(m.src + 4096 * t, n, false)] else []
  let vd := if m.dk = 1 then [(m.dst + 4096 * t, n, true)] else []
  match tileWalk s u o.cid vs vd with
  | (s, .bad st) => (failJob s o st, false)
  | (s, .wait k p) => (waitTile s o none none (unitHedge u) k p, false)
  | (s, .busy l) => (raiseLines s o.lc l, false)
  | (s, .ok) =>
    match copyRead s j o u m.sk c (m.src + 4096 * t) n ext with
    | (s, none) => (s, false)
    | (s, some l) =>
      let s := copyTiles (copyWrite s j o u m.dk c (m.dst + 4096 * t) l) o (t + 1)
      (s, s.lives o.job)

/-- Tiles from t on, until one cannot follow. -/
def copyGo (j : Job) (o : Owner) (m : CopyD) (ext : List PWord) : Nat → Nat → State → State
  | 0, _, s => s
  | n + 1, t, s =>
    match copyTile j o m ext t s with
    | (s, true) => copyGo j o m ext n (t + 1) s
    | (s, false) => s

/-- Tiles of a command that have been delivered. -/
def State.tilesOf (s : State) (o : Owner) : Nat :=
  match s.job o.job with
  | none => 0
  | some j => ((j.cmd? o.idx).map (·.tilesDone)).getD 0

/-- R421, R422: the tiles of a COPY; its last write acknowledged, it completes. -/
def copyRun (j : Job) (k : JobCmd) (ext : List PWord) (s : State) : State :=
  let o := ownerOf j k.idx
  let m := parseCopy k.words
  let tiles := ceilDiv m.len 4096
  if s.tileWaits o none none then s
  else
    let s := copyGo j o m ext (tiles - k.tilesDone) k.tilesDone s
    if tiles ≤ s.tilesOf o ∧ s.quiet o then cmdMark s o .done else s

def execCopy (job idx : Nat) (ext : List PWord) (s : State) : Out :=
  .next (onCmd s job idx 5 fun j k s =>
    let m := parseCopy k.words
    let c := j.coreOf m.ds
    if k.state ≠ .running ∧ !j.mayStart k then s
    else if m.dk ≠ 2 then copyRun j k ext (cmdMark s (ownerOf j idx) .running)
    else if s.mayBegin c job then copyRun j k ext (settleOn (cmdMark s (ownerOf j idx) .running) c job)
    else s)

/-! ### RESET_JOBS (R464) -/

/-- The last step: admissions resume and the response goes. -/
def finishReset (s : State) (r : ResetRun) (resp : List Word) : State :=
  respond { s with sched := { s.sched with state := .admitting }, resetRun := none } r.fn r.slot stOk resp

/-- A core after steps 3 and 4 (R233, R263, R304, R453). -/
def Core.clear (k : Core) : Core :=
  { k with seq := none, callsLc := [], callsBe := [], qArray := [], qVector := [], qLookup := [], qMove := [],
           qScatter := [], chain := none, tile := none, acc := [], accRes := [], resident := none, liveKept := [] }

/-- Steps 3 to 6, once every job has posted its completion. -/
def resetGo (s : State) : State :=
  match s.resetRun with
  | none => s
  | some r =>
    if s.jobs.isEmpty ∧ !r.zeroed then
      let s := tidyCores { s with cores := s.cores.map (fun e => (e.1, e.2.clear)) }
      let s := forL s.activeCores (fun c s => spZero s c) s
      let s := forL s.trainables (fun k s => zeroStaging s k) s
      if r.verify then { s with resetRun := some { r with zeroed := true } }
      else finishReset s r (List.replicate 34 0)
    else s

/-! ### Commands that wait for completions (R432, R494) -/

/-- FENCE_MAP, words 0 and 1. -/
def State.fenceMap (s : State) : List Word :=
  let b := fun (lo hi : Nat) => ((List.range 72).filter (fun c => decide (lo ≤ c ∧ c < hi) && (s.core c).fenced)).foldl
    (fun a c => a + 2 ^ (c - lo)) 0
  [BitVec.ofNat 64 (b 0 64), BitVec.ofNat 64 (b 64 72)]

/-- A queue and what was fetched of it go. -/
def dropSq (s : State) (fn qid : Nat) : State :=
  { s with
    sqs := s.sqs.filter (fun q => !(q.fn == fn && q.qid == qid))
    dbuf := s.dbuf.filter (fun e => !(e.fn == fn && e.qid == qid))
    bursts := s.bursts.filter (fun b => !(b.fn == fn && b.qid == qid)) }

/-- What the command waits for has come. -/
def State.met (s : State) (w : AdminWait) : Bool :=
  match w with
  | .wardens _ _ _ _ => false
  | .fence _ _ _ jobs => !s.jobs.any (fun j => jobs.contains j.id)
  | .destroy _ _ fn sq => !s.jobs.any (fun j => j.fn == fn && j.sq == sq && j.status.isNone)

/-- The command completes. -/
def meetWait (w : AdminWait) (s : State) : State :=
  match w with
  | .wardens _ _ _ _ => s
  | .fence f k _ _ => respond s f k stOk s.fenceMap
  | .destroy f k fn sq => respond (dropSq s fn sq) f k stOk []

/-- Settle every command that waits for jobs. -/
def settleWaits (s : State) : State :=
  let go := s.adminWaits.filter s.met
  let left := s.adminWaits.filter (fun w => !s.met w)
  resetGo (forL go meetWait { s with adminWaits := left })

/-! ### Completions (R433 to R438, R459, R460) -/

/-- Every command that may run has completed. -/
def Job.allDone (j : Job) : Bool := j.cmds.all (fun k => !j.allows k.idx || k.state == .done)

/-- How a job that has run its commands ends (R435). -/
def Job.endStatus (j : Job) : Status :=
  if j.sums.tailDef ≠ 0 then stTailDefaulted else if j.preempted ∧ !j.lc then stPreempted else stOk

/-- SOLO_NS of one hedge: its mean rate is over the windows that have ended during the run and the one in progress, whose steps
are a free value (R459, log entry 5). -/
def soloHedge (j : Job) (h : Nat) (a : Nat × State) : Nat × State :=
  let (x, s) := takeFree a.2
  let e := (j.rateSum.find? (fun e => e.1 == h)).getD (h, 0, 0)
  let steps := e.2.1 + x
  (max a.1 (if steps = 0 then 2 ^ 32 - 1 else satNat 32 (ceilDiv (j.soloSteps * 10000 * (e.2.2 + 1)) steps)), s)

/-- SOLO_NS (R459): the longest over the hedges that hold the job's cores. -/
def soloNs (s : State) (j : Job) : Nat × State :=
  if j.soloSteps = 0 then (0, s) else (j.cores.map (· / 6)).dedup.foldl (fun a h => soloHedge j h a) (0, s)

/-- The words of a job's entry. -/
def Job.entry (s : State) (j : Job) (solo : Nat) (phase : Bool) : List Word :=
  let st := j.status.getD stOk
  let stopped := endsWell st && j.stopAfter != 0 && j.cmds.any (fun k => decide (j.stopAfter < k.idx))
  let pair := fun (a b : Nat) => at_ 63 32 (satNat 32 a) ||| at_ 31 0 (satNat 32 b)
  [(j.tag.zeroExtend 64 <<< 32) ||| (st.zeroExtend 64 <<< 16) ||| at_ 15 8 j.sq ||| at_ 1 1 (b2n stopped) |||
     at_ 0 0 (b2n phase),
   at_ 63 48 j.sqHead ||| (j.failIdx.zeroExtend 64 <<< 32) ||| j.sig.zeroExtend 64, s.tickerW,
   s.timeWord ||| at_ 60 32 (satNat 29 j.sums.poisoned), pair solo (s.ticker - j.admitted),
   pair j.sums.invalid j.sums.pad, pair j.sums.mismatched j.sums.empty, pair j.sums.tailDef j.sums.tailWait]

/-- R437: the digests go out. -/
def writeDigests (s : State) (j : Job) : State :=
  if j.digest then
    dmaBytes s j.fn j.digestAddr.toNat true
      (wordsBytes ((List.range j.ndesc).map (fun i => Tbl.get 0 j.digests i)))
  else s

/-- A job that has ended posts its digests and its entry, and leaves. -/
def postJob (s : State) (j : Job) : State :=
  let s :=
    if j.silent then s
    else
      let (solo, s) := soloNs (writeDigests s j) j
      let s := upCq s j.fn j.cq (fun q => { q with reserved := q.reserved - 1 })
      postCpl s j.fn j.cq (j.entry s solo)
  settleWaits { s with jobs := s.jobs.filter (fun x => x.id != j.id) }

/-- An earlier job of the same completion queue has still to post. -/
def State.behind (s : State) (j : Job) : Bool :=
  s.jobs.any (fun x => x.id != j.id && x.fn == j.fn && x.cq == j.cq && x.status.isSome && !x.silent &&
    decide (x.endSeq < j.endSeq))

/-- A write of the job to the host window, which the physical function makes, has not been issued (R434, R519, R521). -/
def State.unissued (s : State) (j : Job) : Bool :=
  j.hostWin && s.link.held.any (fun e => e.1 == 0 && (match e.2 with
    | .dma _ _ _ relaxed _ => relaxed
    | _ => false))

/-- R434, R435: a job whose commands have completed ends, and one that has ended posts in its turn.  Traffic that a close of
the job held goes on (R326, R331). -/
def execJobCompletion (job : Nat) (s : State) : Out :=
  .next (whenFw s fun s =>
    let s := match s.job job with
      | none => s
      | some j => if j.status.isNone && j.allDone then endJob s job j.endStatus 0xFFFF else s
    match s.job job with
    | none => s
    | some j => if j.status.isSome && !s.behind j && (j.silent || !s.unissued j) then runGrads (postJob s j) else s)

end Sys2Proof.Machine
end

