-- ==== Sys2Proof/Machine/Admin.lean ====
section
/-!
DEFINITION. Admin commands of chapter 16 that touch no table and no routine: NEGOTIATE, GET_CAPS, queues, fences, RESET_JOBS
and its sweep, SET_MODE, power cap, Groomer policy, TIME_SYNC, ATTEST and the firmware update.
-/
namespace Sys2Proof.Machine

/-! ### NEGOTIATE and GET_CAPS (R486, R487, R490) -/

/-- The function owns a queue. -/
def State.ownsQueue (s : State) (f : Nat) : Bool :=
  s.sqs.any (fun q => q.fn == f) || s.cqs.any (fun q => q.fn == f) ||
    (f == 0 && (s.eq.isSome || s.hq.isSome || s.fq.isSome))

/-- The versions that firmware lists: (major, maximum minor). -/
def deviceVersions : List (Nat × Nat) := [(1, 0)]

/-- The (major, maximum minor) pairs of HOST_VERS. -/
def hostPairs (w : Word) : List (Nat × Nat) :=
  ((List.range 4).map (fun k => (fld w (16 * k + 7) (16 * k), fld w (16 * k + 15) (16 * k + 8)))).filter (fun p => p.1 != 0)

/-- R486: the highest common major, with the smaller maximum minor. -/
def chooseVersion (host device : List (Nat × Nat)) : Option (Nat × Nat) :=
  host.foldl (fun a h => device.foldl (fun a d =>
    if h.1 ≠ d.1 then a
    else match a with
      | none => some (h.1, min h.2 d.2)
      | some b => if b.1 < h.1 then some (h.1, min h.2 d.2) else some b) a) none

/-- The NEGOTIATE of a function. -/
def negotiateRun (f : FnId) (k : SlotId) (s : State) : State :=
  match chooseVersion (hostPairs (s.req (mailKey f k) 0)) deviceVersions with
  | none => refuse s f k stVersion
  | some v =>
    if (s.version f).isSome && s.ownsQueue f then refuse s f k stBadDescriptor
    else respond { s with nego := Tbl.set none s.nego f (some v) } f k stOk
      [at_ 63 56 v.1 ||| at_ 55 48 v.2, at_ 7 0 1]

/-- R486. -/
def execNegotiate (f : FnId) (k : SlotId) (s : State) : Out :=
  .next (admin s f k 0x01 (!s.tailZero (mailKey f k) 1) (negotiateRun f k))

/-- A mask of cores as two words. -/
def coreMask (p : Nat → Bool) : List Word :=
  let b := fun (lo hi : Nat) => ((List.range 72).filter (fun c => decide (lo ≤ c ∧ c < hi) && p c)).foldl
    (fun a c => a + 2 ^ (c - lo)) 0
  [BitVec.ofNat 64 (b 0 64), BitVec.ofNat 64 (b 64 72)]

/-- The GET_CAPS response (Table — GET_CAPS response). -/
def State.caps (s : State) (f : Nat) : List Word :=
  let v := (s.version f).getD (0, 0)
  [at_ 63 56 1 ||| at_ 55 48 1 ||| at_ 47 40 v.1 ||| at_ 39 32 v.2 ||| (s.sec.fwMajor.zeroExtend 64 <<< 16) |||
     s.sec.fwMinor.zeroExtend 64,
   at_ 63 56 0x41 ||| at_ 55 48 0x31 ||| at_ 47 40 s.flash.grade ||| at_ 39 32 s.fittedCores.length |||
     at_ 31 24 s.activeCount ||| at_ 23 18 s.moduleNo ||| at_ 17 12 f ||| (Tbl.get 0 s.xl.fnCid f).zeroExtend 64] ++
  coreMask s.fitted ++ s.fenceMap ++
  [at_ 20 14 s.lanes ||| at_ 13 13 (b2n s.fGrade) ||| at_ 11 0 (if s.fGrade then 0xFFF else 0),
   at_ 63 48 64 ||| at_ 47 40 12 ||| at_ 39 32 16 ||| at_ 31 16 256 ||| at_ 15 0 128, at_ 63 32 576]

/-- R490. -/
def execGetCaps (f : FnId) (k : SlotId) (s : State) : Out :=
  .next (admin s f k 0x02 (!s.tailZero (mailKey f k) 0) (fun s => respond s f k stOk (s.caps f)))

/-! ### Queues (R410, R482, R493, R494) -/

/-- The queue of kinds 0x2 to 0x4. -/
def State.pfq (s : State) (kind : Nat) : Option PfQ :=
  match kind with
  | 2 => s.eq
  | 3 => s.hq
  | 4 => s.fq
  | _ => none

/-- A QUEUE_CREATE that R493 and R494 allow; `ring` is its RING_ADDR. -/
def createOk (s : State) (f kind log2 cls qid cqid vector : Nat) (ring : Word) : Bool :=
  decide (6 ≤ log2 ∧ log2 ≤ 16) && ring.toNat % 4096 == 0 &&
  match kind with
  | 0 => vector == 0 && (s.sq? f qid).isNone && Tbl.get 0 s.xl.fnCid f != 0 && (s.cq? f cqid).isSome
  | 1 => cls == 0 && cqid == 0 && decide (qid < 128) && vector != 0 && (s.cq? f qid).isNone &&
      !s.cqs.any (fun q => q.fn == f && q.vector == vector) &&
      !(f == 0 && ([s.eq, s.hq, s.fq].any (fun q => (q.map (·.vector)) == some vector)))
  | _ => cls == 0 && cqid == 0 && qid == 0 && vector != 0 && f == 0 && (s.pfq kind).isNone

/-- Create the queue. -/
def createQueue (s : State) (f kind log2 cls qid cqid vector : Nat) (ring : Word) : State :=
  let p : PfQ := { ring := ring, log2 := log2, vector := vector }
  match kind with
  | 0 => { s with sqs := s.sqs ++ [{ fn := f, qid := qid, ring := ring, log2 := log2, lc := cls == 1, cq := cqid }] }
  | 1 => { s with cqs := s.cqs ++ [{ fn := f, cid := qid, ring := ring, log2 := log2, vector := vector }] }
  | 2 => { s with eq := some p }
  | 3 => { s with hq := some p }
  | _ => { s with fq := some p }

def createRun (f : FnId) (k : SlotId) (s : State) : State :=
  let r := fun hi lo => s.reqF (mailKey f k) 0 hi lo
  let ring := s.req (mailKey f k) 1
  if createOk s f (r 63 60) (r 59 55) (r 54 54) (r 53 46) (r 45 39) (r 38 28) ring then
    respond (createQueue s f (r 63 60) (r 59 55) (r 54 54) (r 53 46) (r 45 39) (r 38 28) ring) f k stOk []
  else refuse s f k stBadDescriptor

/-- QUEUE_CREATE. -/
def execQueueCreate (f : FnId) (k : SlotId) (s : State) : Out :=
  let key := mailKey f k
  .next (admin s f k 0x20 (decide (5 ≤ s.reqF key 0 63 60 ∨ s.reqF key 0 27 0 ≠ 0) || !s.tailZero key 2) (createRun f k))

/-- A submission queue stops taking work, and its unparsed entries go (R494). -/
def closeSq (s : State) (f qid : Nat) : State :=
  upSq { s with
    dbuf := s.dbuf.filter (fun e => !(e.fn == f && e.qid == qid))
    bursts := s.bursts.filter (fun b => !(b.fn == f && b.qid == qid)) } f qid (fun q => { q with dying := some 0 })

/-- The submission queue of a function that is not being destroyed (log entry 36). -/
def State.openSq (s : State) (f qid : Nat) : Bool := s.sqs.any (fun q => q.fn == f && q.qid == qid && q.dying.isNone)

def destroyRun (f : FnId) (k : SlotId) (s : State) : State :=
  let kind := s.reqF (mailKey f k) 0 63 60
  let qid := s.reqF (mailKey f k) 0 53 46
  let no := refuse s f k stBadDescriptor
  match kind with
  | 0 =>
    if s.openSq f qid then
      let s := closeSq s f qid
      settleWaits { s with adminWaits := s.adminWaits ++ [.destroy f k f qid] }
    else no
  | 1 =>
    if (s.cq? f qid).isSome && !s.sqs.any (fun q => q.fn == f && q.cq == qid) then
      respond { s with cqs := s.cqs.filter (fun q => !(q.fn == f && q.cid == qid)) } f k stOk []
    else no
  | _ =>
    if f.val ≠ 0 ∨ qid ≠ 0 ∨ (s.pfq kind).isNone ∨ (kind = 4 ∧ s.anyDemand) then no
    else
      match kind with
      | 2 => respond { s with eq := none, evHeld := [] } f k stOk []
      | 3 => respond { s with hq := none } f k stOk []
      | _ => respond { s with fq := none } f k stOk []

/-- QUEUE_DESTROY. -/
def execQueueDestroy (f : FnId) (k : SlotId) (s : State) : Out :=
  let key := mailKey f k
  .next (admin s f k 0x21
    (decide (5 ≤ s.reqF key 0 63 60 ∨ s.reqF key 0 59 54 ≠ 0 ∨ s.reqF key 0 45 0 ≠ 0) || !s.tailZero key 1) (destroyRun f k))

/-! ### Fences and RESET_JOBS (R294, R432, R464) -/

/-- The reserved fields of FENCE_CORE and UNFENCE. -/
def coreReserved (s : State) (key : Nat) : Bool := decide (s.reqF key 0 63 7 ≠ 0) || !s.tailZero key 1

def fenceRun (f : FnId) (k : SlotId) (s : State) : State :=
  let c := s.reqF (mailKey f k) 0 6 0
  if !s.fitted c then refuse s f k stBadDescriptor
  else if (s.core c).fenced then respond s f k stOk s.fenceMap
  else
    let ids := (s.jobs.filter (fun j => j.status.isNone && j.cores.contains c)).map (·.id)
    let s := upCore s c (fun x => { x with fenced := true })
    let s := forL ids (fun id s => endJob s id stFenced 0xFFFF) s
    settleWaits { s with adminWaits := s.adminWaits ++ [.fence f k c ids] }

/-- FENCE_CORE. -/
def execFenceCore (f : FnId) (k : SlotId) (s : State) : Out :=
  .next (admin s f k 0x28 (coreReserved s (mailKey f k)) (fenceRun f k))

def unfenceRun (f : FnId) (k : SlotId) (s : State) : State :=
  let c := s.reqF (mailKey f k) 0 6 0
  if !s.fitted c then refuse s f k stBadDescriptor
  else
    let s := if (s.core c).fenced then upCore (spZero s c) c (fun x => { x with fenced := false }) else s
    respond s f k stOk s.fenceMap

/-- UNFENCE. -/
def execUnfence (f : FnId) (k : SlotId) (s : State) : Out :=
  .next (admin s f k 0x29 (coreReserved s (mailKey f k)) (unfenceRun f k))

/-- Firmware has reloaded every Ulizor core that was hit (R380). -/
def reloadUlizor (s : State) : State := { s with sec := { s.sec with reload := [] } }

/-- Step 1 of R464, with every Ulizor core that was hit reloaded first; a RESET_JOBS posted while another runs waits for it (log entry 37). -/
def resetRunStart (f : FnId) (k : SlotId) (s : State) : State :=
  let key := mailKey f k
  match s.resetRun with
  | some _ => upMail s key (fun m => { m with started := false })
  | none =>
    let s := reloadUlizor s
    let s := if s.sched.state = .admitting then endAll s stLost else s
    resetGo { s with
      sched := { s.sched with state := .resetting }
      resetRun := some { fn := f, slot := k, verify := bit (s.req key 0) 0 } }

/-- RESET_JOBS. -/
def execResetJobs (f : FnId) (k : SlotId) (s : State) : Out :=
  let key := mailKey f k
  .next (admin s f k 0x2A (decide (s.reqF key 0 63 1 ≠ 0) || !s.tailZero key 1) (resetRunStart f k))

/-- The local pages, by page-map index, that a MIGRATE is moving (R165). -/
def State.movingPages (s : State) : List Nat :=
  s.migrates.filterMap (fun m => match (s.slot m.key).paOf (65536 * (m.firstPage + m.moved)) with
    | some pa => if s.route pa = .dram then some (paOff pa / 65536) else none
    | none => none)

/-- What the sweep finds in one block: skipped, good, failing or poisoned. -/
inductive Swept where
  | skipped | good | failed | poisoned
deriving DecidableEq, Repr

/-- The blocks of the checksummed local pages, the codebook store's among them, in address order: tensor record, block index,
finding. -/
def State.sweep (s : State) : List (TensorRec × Nat × Swept) :=
  s.ig.pages.flatMap (fun e =>
    match s.pageRec e.2 with
    | none => []
    | some t => (List.range 16).filterMap (fun i => (e.2.block t i).map (fun b =>
        let off := 65536 * e.1 + 4096 * i
        (t, b,
          if e.2.lock || s.movingPages.contains e.1 then Swept.skipped
          else if s.dram.poisoned off 4096 then .poisoned
          else if verifyBlock s off = .bad then .failed
          else .good))))

/-- The sweep report (R395): RESET_JOBS response words. -/
def sweepReport (l : List (TensorRec × Nat × Swept)) : List Word :=
  let n := fun (x : Swept) => l.countP (fun e => e.2.2 == x)
  let bad := (l.filter (fun e => e.2.2 == .failed || e.2.2 == .poisoned)).take 16
  let pairs := bad.flatMap (fun e =>
    [at_ 63 32 e.1.tensorId.toNat ||| at_ 31 16 e.1.version.toNat ||| at_ 0 0 (b2n (e.2.2 == .poisoned)),
     at_ 31 0 e.2.1])
  [at_ 63 32 (l.length - n .skipped) ||| at_ 31 0 (n .failed), at_ 63 32 (n .poisoned) ||| at_ 31 0 (n .skipped)] ++
    pairs ++ List.replicate (32 - pairs.length) 0

/-- R393 to R395: the sweep, and the end of the RESET_JOBS that asked for it. -/
def execVerificationSweep (s : State) : Out :=
  .next (whenFw s fun s =>
    match s.resetRun with
    | none => s
    | some r =>
      if r.zeroed then
        let l := s.sweep
        let bad := l.countP (fun e => e.2.2 == .failed || e.2.2 == .poisoned)
        let s := upIg s (fun g => { g with sweepBlocks := l.countP (fun e => e.2.2 != .skipped), sweepFailed := bad })
        finishReset s r (sweepReport l)
      else s)

/-! ### SET_MODE (R74, R76, R160, R328, R468, R494) -/

/-- The reserved fields of SET_MODE. -/
def modeReserved (s : State) (key : Nat) : Bool :=
  decide (s.reqF key 0 63 5 ≠ 0 ∨ s.reqF key 1 37 0 ≠ 0 ∨ s.reqF key 2 34 0 ≠ 0) || !s.tailZero key 3

/-- The values that APPLY selects lie in their ranges. -/
def modeOk (s : State) (key : Nat) : Bool :=
  let apply := s.req key 0
  let h := s.reqF key 1 61 54
  let e := s.reqF key 2 63 48
  (!bit apply 2 || decide (1 ≤ h ∧ h ≤ 168)) &&
  (!bit apply 3 || decide (10 ≤ e ∧ e ≤ 60000 ∧ 1 ≤ s.reqF key 2 43 36))

/-- Apply bit b of the SET_MODE posted in a slot, once, and go on with `act`; the first such row checks the whole request, and a
request that applies nothing is answered at once by the determinism row. -/
def setMode (s : State) (f : FnId) (k : SlotId) (b : Nat) (act : State → State) : State :=
  whenFw s fun s =>
    let key := mailKey f k
    let go := fun (s : State) =>
      if b = 0 ∧ s.reqF key 0 4 0 = 0 then respond s f k stOk (s.modeWords 0)
      else if s.modeDue f k b then act (modeApply s key b)
      else s
    let m := s.mail key
    if m.open_ && m.opcode == 0x30 then
      if m.started then go s
      else
        let mine := s.turn key
        let s := upMail s key (fun m => { m with state := 2 })
        if mine then
          match s.refusal f m (modeReserved s key) with
          | some st => respond s f k st []
          | none =>
            if s.waitsReady m then s
            else if modeOk s key then go (upMail s key (fun m => { m with started := true }))
            else refuse s f k stBadDescriptor
        else s
    else s

/-- R469: the determinism mode, between two admissions. -/
def execSetModeDeterminism (f : FnId) (k : SlotId) (s : State) : Out :=
  .next (setMode s f k 0 fun s => modeDone s f k 0)

/-- R74: the channel lock, through the wardens. -/
def execSetModeChannelLock (f : FnId) (k : SlotId) (s : State) : Out :=
  .next (setMode s f k 1 fun s => awaitWardens s f k (.mode 1))

/-- R76: the scrub interval, through the wardens. -/
def execSetModeScrub (f : FnId) (k : SlotId) (s : State) : Out :=
  .next (setMode s f k 2 fun s => awaitWardens s f k (.mode 2))

/-- R160: the counter policy, from the next epoch on. -/
def execSetModeCounterPolicy (f : FnId) (k : SlotId) (s : State) : Out :=
  .next (setMode s f k 3 fun s => modeDone s f k 3)

/-- R328: the freeze mask, from the next close's snapshot on. -/
def execSetModeFreezeMask (f : FnId) (k : SlotId) (s : State) : Out :=
  .next (setMode s f k 4 fun s => modeDone s f k 4)

/-! ### Power cap, Groomer policy, time -/

/-- SET_POWER_CAP; the next Snowplough window takes it up (R617). -/
def execSetPowerCap (f : FnId) (k : SlotId) (s : State) : Out :=
  let key := mailKey f k
  .next (admin s f k 0x31 (decide (s.reqF key 0 63 16 ≠ 0) || !s.tailZero key 1) fun s =>
    let w := s.reqF key 0 15 0
    if 400 ≤ w ∧ w ≤ 1200 then respond { s with pwr := { s.pwr with capNext := w } } f k stOk [at_ 15 0 w]
    else refuse s f k stBadDescriptor)

/-- R400: SET_GROOM_POLICY. -/
def execSetGroomPolicy (f : FnId) (k : SlotId) (s : State) : Out :=
  let key := mailKey f k
  .next (admin s f k 0x32 (decide (s.reqF key 0 31 0 ≠ 0) || !s.tailZero key 1) fun s =>
    let period := s.reqF key 0 48 32
    let depth := s.reqF key 0 55 49
    if 60 ≤ period ∧ period ≤ 86400 ∧ 1 ≤ depth ∧ depth ≤ 64 then
      let w := s.req key 0
      respond (upIg s (fun g => { g with groom := { g.groom with
        enable := bit w 63, arbitrate := bit w 62, suite := w.extractLsb' 56 6, depth := depth, periodS := period } }))
        f k stOk []
    else refuse s f k stBadDescriptor)

/-- R50: TIME_SYNC. -/
def execTimeSync (f : FnId) (k : SlotId) (s : State) : Out :=
  let key := mailKey f k
  .next (admin s f k 0x40 (!s.tailZero key 2) fun s =>
    let t := s.req key 0
    if t.toNat ≤ s.ticker then
      respond { s with time := { s.time with wallOffset := s.req key 1 - t, wallValid := true } } f k stOk []
    else refuse s f k stBadDescriptor)

/-! ### Attestation (R578, R582) -/

/-- A log entry as 96 bytes (Table — log entry). -/
def LogEntry.bytes (e : LogEntry) : List Byte :=
  wordsBytes [at_ 63 32 e.seq ||| (e.type.zeroExtend 64 <<< 16), e.ticker,
    at_ 61 61 (b2n e.wallValid) ||| e.powerUps.zeroExtend 64, e.detail] ++ slice e.digest 0 64

/-- The evidence before its signature (Table — evidence). -/
def State.evidence (s : State) (nonce : List Byte) : List Byte :=
  let c := s.sec
  wordsBytes [at_ 63 32 0x50564556 ||| at_ 31 16 1 ||| at_ 15 0 c.log.length,
    regAt 63 32 c.logLost ||| at_ 31 24 s.flash.svn ||| at_ 23 16 c.imageSvn ||| at_ 1 1 (b2n c.fallback) |||
      at_ 0 0 (b2n c.regionB),
    (c.fwMajor.zeroExtend 64 <<< 48) ||| (c.fwMinor.zeroExtend 64 <<< 32) ||| s.time.powerUps.zeroExtend 64,
    s.tickerW, at_ 61 61 (b2n s.time.wallValid), 0, 0, 0] ++
  nonce ++ (List.range 6).flatMap (fun i => slice (c.mr.getD i []) 0 64) ++ c.log.flatMap LogEntry.bytes ++
  slice Config.identityPk 0 64

/-- R582: ATTEST. -/
def execAttest (f : FnId) (k : SlotId) (s : State) : Out :=
  let key := mailKey f k
  .next (admin s f k 0x48 (decide (s.reqF key 5 63 32 ≠ 0) || !s.tailZero key 6) fun s =>
    let addr := (s.req key 4).toNat
    let n := 30336 + 96 * s.sec.log.length
    if addr % 64 = 0 ∧ n ≤ s.reqF key 5 31 0 then
      let e := s.evidence (wordsBytes ((List.range 4).map (s.req key)))
      let s := dmaBytes s f addr true (e ++ slice (Config.identitySign e) 0 29792)
      respond s f k stOk [at_ 31 0 n]
    else refuse s f k stBadDescriptor)

/-! ### Firmware update (R495, R584, R585) -/

/-- A region with its bytes from `p` on replaced. -/
def overlay (r : List Byte) (p : Nat) (l : List Byte) : List Byte := slice r 0 p ++ l ++ r.drop (p + l.length)

/-- Write the inactive region. -/
def Flash.stage (fl : Flash) (first : Bool) (p : Nat) (l : List Byte) : Flash :=
  let put := fun (r : List Byte) => overlay (if first then [] else r) p l
  if fl.boot.active then { fl with regionA := put fl.regionA } else { fl with regionB := put fl.regionB }

/-- R584: FW_STAGE. -/
def execFwStage (f : FnId) (k : SlotId) (piece : HostRd) (s : State) : Out :=
  let key := mailKey f k
  .next (admin s f k 0x50 (decide (s.reqF key 2 63 1 ≠ 0) || !s.tailZero key 3) fun s =>
    let off := s.reqF key 1 63 32
    let len := s.reqF key 1 31 0
    if off % 8 = 0 ∧ len % 8 = 0 ∧ off + len ≤ 64 * 2 ^ 20 then
      withHost s f k piece.ok fun s =>
        if piece.ok then
          respond { s with flash := s.flash.stage (bit (s.req key 2) 0) off (slice piece.bytes 0 len) } f k stOk []
        else refuse s f k stBadDescriptor
    else refuse s f k stBadDescriptor)

/-- The state that new firmware starts from (R495, R508): no event queue, every function unnegotiated, every slot free but
the one that waits for this response. -/
def restartFirmware (key : Nat) (s : State) : State :=
  { s with
    eq := none, evSeq := 0, evHeld := [], eqDropped := 0, mbIgnored := 0, nego := []
    mbox := Tbl.set {} [] key (s.mail key), adminWaits := [], sec := { s.sec with reload := [] } }

def fwActivateRun (f : FnId) (k : SlotId) (s : State) : State :=
  let key := mailKey f k
  let b := !s.flash.boot.active
  let image := slice (s.flash.region b) 0 (s.reqF key 0 31 0)
  let idle := !s.model && s.sqs.isEmpty && s.cqs.isEmpty && s.hq.isNone && s.fq.isNone
  if idle && imageOk image s.flash.svn then
    let s := romRun { s with flash := s.flash.writeBoot b }
    let s := applyFabric (fuseRaise (restartFirmware key s))
    let s := if s.bankValid s.routines.active then measureBank s s.routines.active else s
    respond s f k stOk []
  else refuse s f k stBadDescriptor

/-- R585: FW_ACTIVATE. -/
def execFwActivate (f : FnId) (k : SlotId) (s : State) : Out :=
  let key := mailKey f k
  .next (admin s f k 0x51 (decide (s.reqF key 0 63 32 ≠ 0) || !s.tailZero key 1) (fwActivateRun f k))

/-! ### Reserved opcodes -/

/-- R14, R491: a posted command whose opcode is reserved. -/
def execReservedAdminOpcode (f : FnId) (k : SlotId) (s : State) : Out :=
  .next (
    let op := (s.mail (mailKey f k)).opcode.toNat
    if knownOps.contains op then s else admin s f k op true (fun s => s))

end Sys2Proof.Machine
end

