-- ==== Sys2Proof/Machine/Quant.lean ====
section
/-!
DEFINITION. Quantisation (chapter 06): codebook decode and encode (R179, R180), the clip statistic (R181 to R183),
symmetric INT8 (R188 to R190), and scale blocks: how they are written (R193) and walked (R195, R638).
-/
namespace Sys2Proof.Machine

/-! ### Codebooks -/

/-- A code decoded (R179). -/
def CbView.decode (c : CbView) (code : Nat) : BitVec 32 := f32mul (f32ofInt (c.entry code)) c.scale

/-- The decoded values, exactly, in units of 2^−149. -/
def Codebook.values (c : Codebook) : List Int :=
  (c.entries.take (if c.cb256 then 256 else 16)).zipIdx.map (fun e => units149 (c.view.decode e.2))

/-- The lowest index of the least element, from a first element and its index on. -/
def argminFrom : Int → Nat → Nat → List Int → Nat
  | _, i, _, [] => i
  | m, i, n, x :: l => if x < m then argminFrom x n (n + 1) l else argminFrom m i (n + 1) l

def argmin : List Int → Nat
  | [] => 0
  | x :: l => argminFrom x 0 1 l

/-- R180. -/
def Codebook.encode (c : Codebook) (x : BitVec 32) : Nat :=
  argmin (c.values.map (fun d => match d32 x with
    | .nan => d.natAbs
    | .inf neg => if neg then d else -d
    | .num .. => (units149 x - d).natAbs))

def listMax (l : List Int) : Int := l.foldl max (l.headD 0)
def listMin (l : List Int) : Int := l.foldl min (l.headD 0)

/-- R181: outside [d_lo − g_lo/2, d_hi + g_hi/2]. -/
def Codebook.clips (c : Codebook) (x : BitVec 32) : Bool :=
  let l := c.values
  let lo := listMin l
  let hi := listMax l
  let next := (l.filter (· != lo))
  let prev := (l.filter (· != hi))
  let below := if next.isEmpty then 2 * lo else 3 * lo - listMin next
  let above := if prev.isEmpty then 2 * hi else 3 * hi - listMax prev
  match d32 x with
  | .num .. => decide (2 * units149 x < below ∨ above < 2 * units149 x)
  | _ => true

/-- An encode of n values, m of them clipped, counts in a slot (R182, R183). -/
def Core.clipAdd (k : Core) (slot n m : Nat) : Core :=
  if 2 ^ 32 ≤ Tbl.get 0 k.clipTotal slot + n then { k with clipSat := k.clipSat ||| BitVec.ofNat 8 (2 ^ slot) }
  else
    { k with clipTotal := Tbl.upd 0 k.clipTotal slot (· + n)
             clipped := Tbl.upd 0 k.clipped slot (· + m) }

/-! ### Symmetric INT8 (R188 to R190) -/

/-- What a vector turned out to be. -/
inductive QuantKind where
  | plain | degenerate | nonfinite
deriving DecidableEq, Repr

/-- Scale and codes of a vector. -/
def quantise (l : List (BitVec 32)) : BitVec 32 × List Int × QuantKind :=
  if l.any (fun x => !(d32 x).isFinite) then (0x7FC00000, l.map (fun _ => 0), .nonfinite)
  else
    let x := l.map units149
    let m := x.foldl (fun a i => max a i.natAbs) 0
    if m = 0 then (f32one, l.map (fun _ => 0), .degenerate)
    else (r32 ((Ev.num false m (-149) false).div (Ev.ofInt 127)), x.map (fun i => rneDiv (i * 127) m), .plain)

/-! ### Scale blocks (R193, R194) -/

/-- Size of a scale block of n scales. -/
def scaleSize (n : Nat) : Nat := 64 * ceilDiv (16 + 4 * n) 64

/-- A scale block header (Table — scale block header). -/
structure ScaleHdr where
  block    : Nat
  tensor   : Nat
  crc      : BitVec 32
  count    : Nat
  fmt      : Nat
  kind     : Nat
  reserved : Nat
deriving DecidableEq, Repr

/-- A header as its words say; the table gives COUNT_M1 0 to 127, and a greater one is taken as it stands (log entry 111). -/
def parseScale (w0 w1 : Word) : ScaleHdr :=
  { block := fld w0 63 32, tensor := fld w0 31 0, crc := w1.extractLsb' 32 32, count := fld w1 31 24 + 1,
    fmt := fld w1 23 20, kind := fld w1 19 18, reserved := fld w1 17 0 }

/-- The CRC of a scale block with its CRC field taken as 0, seeded with version 0. -/
def scaleCrc (tensor block : Nat) (l : List Byte) : BitVec 32 :=
  blockCrc (tensor % 2 ^ 32) (block % 2 ^ 32) 0 (l.take 12 ++ [0, 0, 0, 0] ++ l.drop 16)

/-- A scale block as it is written. -/
def scaleBlock (tensor block kind : Nat) (scales : List (BitVec 32)) : List Byte :=
  let w0 := at_ 63 32 block ||| at_ 31 0 tensor
  let w1 := at_ 31 24 (scales.length - 1) ||| at_ 19 18 kind
  let data := scales.flatMap (fun x => leBytes 4 x.toNat)
  let l := slice (wordsBytes [w0, w1] ++ data) 0 (scaleSize scales.length)
  l.take 12 ++ leBytes 4 (scaleCrc tensor block l).toNat ++ l.drop 16

/-! ### Data blocks (R193, R213, R642) -/

/-- The offset of an address in its tensor, where the block of `base` has index `blk`. -/
def tensorOff (base blk a : Nat) : Nat := a + 4096 * blk - base / 4096 * 4096

/-- The data blocks of n bytes at an address. -/
def tensorBlocks (base blk a n : Nat) : List Nat :=
  let x := tensorOff base blk a
  (List.range ((x + n - 1) / 4096 + 1 - x / 4096)).map (fun i => x / 4096 + i)

/-- The scratchpad address of a data block. -/
def blockAddr (base blk b : Nat) : Nat := base / 4096 * 4096 + 4096 * (b - blk)

/-! ### Walking a scale stream (R195, R638) -/

/-- A scale block that has been reached and checked. -/
structure ScaleBlk where
  block  : Nat
  kind   : Nat
  scales : List (BitVec 32)
deriving DecidableEq, Repr

/-- How far a walk has come: the next data block's index and the address of its scale block. -/
structure ScaleWalk where
  next : Nat
  addr : Nat
  got  : List ScaleBlk := []
deriving DecidableEq, Repr

/-- What a walk is for: the core, the tensor, the data blocks its descriptor reads, where a data block lies, and the ranges
the descriptor writes. -/
structure ScaleUse where
  core    : Nat
  tensor  : Nat
  reads   : Nat → Bool
  block   : Nat → Nat
  written : List (Nat × Nat)

/-- How data ends the job of its consumer: a failing pair of blocks, which is contained whatever its status (R196), or a
failure of another kind. -/
inductive DataEnd where
  | pair (st : Status)
  | job (st : Status)
deriving DecidableEq, Repr

/-- End a job so. -/
def endData (s : State) (o : Owner) : DataEnd → State
  | .pair st => endJob s o.job st (BitVec.ofNat 16 o.idx)
  | .job st => failJob s o st

/-- Two ranges (address, bytes) share a byte. -/
def meet (a b : Nat × Nat) : Bool := decide (a.1 < b.1 + b.2 ∧ b.1 < a.1 + a.2 ∧ 0 < a.2 ∧ 0 < b.2)

/-- Steps 1 to 5 of R195 for a scale block of `n` bytes at `a` whose data block, which has been read, the descriptor reads;
scratchpad data carries no checksum of its own (R223, R247). -/
def scaleCheck (u : ScaleUse) (block a n : Nat) (h : ScaleHdr) (s : State) : Option Status :=
  let l := s.sp u.core a n
  if s.spPoison u.core (u.block block) 4096 || s.spPoison u.core a n then some stPoisoned
  else if h.crc != scaleCrc h.tensor h.block l then some stChecksum
  else if h.reserved != 0 || (l.drop (16 + 4 * h.count)).any (· != 0) || h.kind == 3 || decide (0xD ≤ h.fmt) then
    some stReservedNonzero
  else if h.fmt != 0 then some stBadDescriptor
  else if h.tensor != u.tensor || h.block != block % 2 ^ 32 then some stSkew
  else none

/-- The walk reaches the scale block at its address. -/
def scaleStep (u : ScaleUse) (w : ScaleWalk) (s : State) : State × Option DataEnd × ScaleWalk :=
  if scratchBytes < w.addr + 64 then (s, some (.job stBadDescriptor), w)
  else
    let s := spTouch s u.core w.addr 16
    if s.spPoison u.core w.addr 16 then (s, some (.job stPoisoned), w)
    else
      let d := pdata (s.spW u.core w.addr 2)
      let h := parseScale (wd d 0) (wd d 1)
      let n := scaleSize h.count
      let w1 : ScaleWalk := { w with next := w.next + 1, addr := w.addr + n }
      if decide (scratchBytes < w.addr + n) || u.written.any (meet (w.addr, n)) then (s, some (.job stBadDescriptor), w)
      else if u.reads w.next then
        let s := spTouch (spTouch s u.core w.addr n) u.core (u.block w.next) 4096
        match scaleCheck u w.next w.addr n h s with
        | some st => (s, some (.pair st), w)
        | none =>
          let l := s.sp u.core w.addr n
          let x := (List.range h.count).map (fun i => BitVec.ofNat 32 (leAt l (16 + 4 * i) 4))
          (s, none, { w1 with got := w.got ++ [⟨w.next, h.kind, x⟩] })
      else (s, none, w1)

/-- Walk up to and with the scale block of a data block, in at most `fuel` steps. -/
def scaleWalk (u : ScaleUse) (block : Nat) : Nat → ScaleWalk → State → State × Option DataEnd × ScaleWalk
  | 0, w, s => (s, none, w)
  | fuel + 1, w, s =>
    if block < w.next then (s, none, w)
    else
      match scaleStep u w s with
      | (s, some st, w) => (s, some st, w)
      | (s, none, w) => scaleWalk u block fuel w s

/-- Walk far enough for each of a list of data blocks. -/
def scaleWalks (u : ScaleUse) (l : List Nat) (w : ScaleWalk) (s : State) : State × Option DataEnd × ScaleWalk :=
  scaleWalk u (l.foldl max 0) (l.foldl max 0 + 1 - w.next) w s

/-- The scale of the vector of a data block that begins at tensor offset `off`, under pitch p (R642, step 6 of R195); where
the pitch is 0 the rules name no vector, and the scale is a free value (log entry 43). -/
def ScaleWalk.scaleOf (w : ScaleWalk) (p off : Nat) (s : State) : State × Except DataEnd (BitVec 32) :=
  match w.got.find? (fun b => b.block == off / 4096) with
  | none => (s, .error (.pair stBadDescriptor))
  | some b =>
    match b.kind, b.scales with
    | 2, [x] => (s, .ok x)
    | 0, l =>
      if p = 0 then
        let (x, s) := takeFree s
        (s, .ok (BitVec.ofNat 32 x))
      else
        match l[off / p - 4096 * b.block / p]? with
        | some x => (s, .ok x)
        | none => (s, .error (.pair stBadDescriptor))
    | _, _ => (s, .error (.pair stBadDescriptor))

end Sys2Proof.Machine
end

