-- ==== Sys2Proof/Machine/Array.lean ====
section
/-!
DEFINITION. The matrix array (chapter 07): descriptor checks (R214, R231), weight load, passes and chains (R199 to R212),
the output scaler (R191, R192, R220 to R223) and the other-axis read (R230).
-/
namespace Sys2Proof.Machine

/-! ### The array descriptor (Table — array descriptor) -/

structure ArrD where
  wf       : Nat
  af       : Nat
  ofmt     : Nat
  first    : Bool
  last     : Bool
  axis     : Bool
  aScaled  : Bool
  wScaled  : Bool
  oScales  : Bool
  rows     : Nat
  cols     : Nat
  m        : Nat
  base     : Nat
  cb       : Nat
  aStride  : Nat
  aBlk     : Nat
  aAddr    : Nat
  aTens    : Nat
  aScale   : Nat
  wTens    : Nat
  wAddr    : Nat
  wBlk     : Nat
  wScale   : Nat
  oStride  : Nat
  oAddr    : Nat
  oTens    : Nat
  oScaleAt : Nat
  oBlk     : Nat
  sOut     : BitVec 32
deriving DecidableEq, Repr

def parseArr (d : List Word) : ArrD :=
  let w := wd d 0
  { wf := fld w 63 60, af := fld w 59 56, ofmt := fld w 55 52, first := bit w 51, last := bit w 50, axis := bit w 49,
    aScaled := bit w 48, wScaled := bit w 47, oScales := bit w 46, rows := fld w 45 41 + 1, cols := fld w 40 36 + 1,
    m := fld w 35 27 + 1, base := fld w 26 18, cb := fld w 17 6, aStride := 64 * fld (wd d 1) 63 48,
    aBlk := fld (wd d 1) 47 25, aAddr := fld (wd d 1) 24 0, aTens := fld (wd d 2) 63 32, aScale := fld (wd d 2) 24 0,
    wTens := fld (wd d 3) 63 32, wAddr := fld (wd d 3) 24 0, wBlk := fld (wd d 4) 63 32, wScale := fld (wd d 4) 24 0,
    oStride := 64 * fld (wd d 5) 63 48, oAddr := fld (wd d 5) 24 0, oTens := fld (wd d 6) 63 32,
    oScaleAt := fld (wd d 6) 24 0, oBlk := fld (wd d 7) 63 32, sOut := (wd d 7).extractLsb' 0 32 }

/-- An integer pair. -/
def ArrD.isInt (d : ArrD) : Bool := d.wf == 0x7 || isCb d.wf

/-- Table — array operand pairs. -/
def ArrD.pairOk (d : ArrD) : Bool :=
  (d.isInt && d.af == 7 && (d.ofmt == 0 || d.ofmt == 1 || d.ofmt == 5 || d.ofmt == 7)) ||
  ((d.wf == 3 || d.wf == 4) && (d.af == 3 || d.af == 4) && (d.ofmt == 0 || d.ofmt == 1 || d.ofmt == 7)) ||
  (d.wf == 1 && d.af == 1 && (d.ofmt == 0 || d.ofmt == 1 || d.ofmt == 7))

/-- Bytes of a unit record (R200), of an activation vector and of an output vector (R201, R230). -/
def ArrD.recBytes (d : ArrD) : Nat := 4 * fmtBits d.wf
def ArrD.aSize (d : ArrD) : Nat := if d.axis then d.cols else 32 * d.rows * (fmtBits d.af / 8)
def ArrD.oSize (d : ArrD) : Nat := if d.axis then 128 * d.rows else d.cols * (fmtBits d.ofmt / 8)

/-- Address of activation and output vector m. -/
def ArrD.aVec (d : ArrD) (m : Nat) : Nat := d.aAddr + m * d.aStride
def ArrD.oVec (d : ArrD) (m : Nat) : Nat := d.oAddr + m * d.oStride

/-- The records read of row r of the tile: (address, bytes). -/
def ArrD.tileRow (d : ArrD) (r : Nat) : Nat × Nat := (d.wAddr + 32 * r * d.recBytes, d.cols * d.recBytes)

/-- The data blocks read of the tile, and of activation vector m. -/
def ArrD.wBlocks (d : ArrD) : List Nat :=
  ((List.range d.rows).flatMap (fun r => tensorBlocks d.wAddr d.wBlk (d.tileRow r).1 (d.tileRow r).2)).dedup
def ArrD.aBlocks (d : ArrD) (m : Nat) : List Nat := tensorBlocks d.aAddr d.aBlk (d.aVec m) d.aSize
def ArrD.allA (d : ArrD) : List Nat := ((List.range d.m).flatMap d.aBlocks).dedup

/-- The data blocks written by output vector m. -/
def ArrD.oBlocks (d : ArrD) (m : Nat) : List Nat := tensorBlocks d.oAddr d.oBlk (d.oVec m) d.oSize

/-- What the descriptor writes: the output range and the output scale range (R222). -/
def ArrD.written (d : ArrD) : List (Nat × Nat) :=
  [(d.oAddr, (d.m - 1) * d.oStride + d.oSize),
   (d.oScaleAt, if d.oScales then 64 * ((d.oBlocks (d.m - 1)).getLastD 0 + 1 - d.oBlk) else 0)]

/-- What it reads; each scale stream at its least extent (R638). -/
def ArrD.read (d : ArrD) : List (Nat × Nat) :=
  [(d.wAddr, 32 * (d.rows - 1) * d.recBytes + d.cols * d.recBytes), (d.aAddr, (d.m - 1) * d.aStride + d.aSize),
   (d.aScale, if d.aScaled then 64 * d.allA.length else 0), (d.wScale, if d.wScaled then 64 * d.wBlocks.length else 0)]

/-- The tile with its inactive records (R200). -/
def ArrD.tileRange (d : ArrD) : Nat × Nat := (d.wAddr, 1024 * d.recBytes)

/-- The chain that a descriptor of a job belongs to (R210). -/
def ArrD.chain (d : ArrD) (job : Nat) : Chain := ⟨d.m - 1, d.base, d.cols - 1, d.isInt, job⟩

/-- The codebook of column j. -/
def ArrD.cbAt (d : ArrD) (j : Nat) : Nat := if d.wf = 0xB then d.cb + j else d.cb

/-- The scales are applied (R220). -/
def ArrD.scales (d : ArrD) : Bool := d.last && d.ofmt != 5

/-- The refusal of a descriptor (R214, R231, R639, R640). -/
def arrRefusal (s : State) (c : Nat) (o : Owner) (w : List Word) : Option Status :=
  let d := parseArr w
  if 0xD ≤ d.wf ∨ 0xD ≤ d.af ∨ 0xD ≤ d.ofmt ∨ fld (wd w 0) 5 0 ≠ 0 ∨ fld (wd w 2) 31 25 ≠ 0 ∨ fld (wd w 3) 31 25 ≠ 0 ∨
      fld (wd w 4) 31 25 ≠ 0 ∨ fld (wd w 5) 47 25 ≠ 0 ∨ fld (wd w 6) 31 25 ≠ 0 then some stReservedNonzero
  else if !d.pairOk || (d.af == 7 && d.ofmt != 5 && !d.aScaled) || (d.oScales && d.ofmt != 7) ||
      decide (d.aAddr % 64 ≠ 0 ∨ d.wAddr % 4096 ≠ 0 ∨ d.oAddr % 64 ≠ 0 ∨ d.aScale % 64 ≠ 0 ∨ d.wScale % 64 ≠ 0 ∨
        d.oScaleAt % 64 ≠ 0) || (!d.oScales && d.oTens != 0) ||
      decide (d.aStride < d.aSize ∨ d.oStride < d.oSize) ||
      (d.written ++ d.read).any (fun r => decide (0 < r.2 ∧ scratchBytes < r.1 + r.2)) ||
      d.written.any (fun x => (d.tileRange :: d.read).any (meet x)) || decide (512 < d.base + d.m) ||
      (match (s.core c).chain with
       | none => !d.first
       | some k => d.first || { k with job := 0 } != d.chain 0) ||
      (d.wf == 0xA && !s.cbFits d.cb 0xA) ||
      (d.wf == 0xB && (decide (4096 < d.cb + d.cols) || (List.range d.cols).any (fun j => !s.cbFits (d.cb + j) 0xB))) ||
      (!isCb d.wf && d.cb != 0) || (d.ofmt != 7 && d.sOut != 0) ||
      (d.axis && (o.cid != 0 || !d.isInt || d.af != 7 || d.ofmt != 5 || !d.first || !d.last || d.aScaled || d.wScaled ||
        d.oScales)) then some stBadDescriptor
  else none

/-! ### Arithmetic (R203 to R209) -/

/-- The weights W[32r + e, j] of a unit record as exact values. -/
def unitVals (s : State) (c : Nat) (d : ArrD) (j : Nat) (l : List Byte) : List Ev :=
  (List.range 32).map (fun e =>
    let raw := elemRaw l d.wf e
    if isFp d.wf then fpDecode d.wf raw
    else if isCb d.wf then Ev.ofInt ((s.cbOn c (d.cbAt j)).view.entry raw)
    else Ev.ofInt (intDecode d.wf raw))

/-- The exact sum that a unit of an FP pass forms: its products and the partial from above (R206). -/
def unitExact (w x : List Ev) (above : Option (BitVec 32)) : Ev :=
  let p := List.zipWith Ev.mul w x
  match above with
  | some a => p.foldl Ev.add (d32 a)
  | none => (p.drop 1).foldl Ev.add (p.headD .nan)

/-- And its one rounding. -/
def fpUnit (w x : List Ev) (above : Option (BitVec 32)) : BitVec 32 := r32 (unitExact w x above)

/-- The FP column sum, from the top row down. -/
def fpColumn : List (List Ev) → List Ev → Option (BitVec 32) → BitVec 32
  | [], _, a => a.getD 0
  | w :: t, x, a => fpColumn t (x.drop 32) (some (fpUnit w (x.take 32) a))

/-- The exact integer column sum (R203). -/
def intColumn (col : List (List Ev)) (x : List Ev) : Int :=
  ((List.zipWith (fun (a b : Ev) => a.rne * b.rne) col.flatten x)).sum

/-! ### Residues (R225 to R227) -/

/-- The residue of a weight or an activation: of the integer, or of an FP value's significand. -/
def evResidue (isInt : Bool) (x : Ev) : Nat := res7 (if isInt then x.rne else x.significand)

/-- The residue that a unit sends down beside its integer sum: that of its products and of the incoming partial. -/
def unitResidue (w x : List Nat) (above : Nat) : Nat := res7Sum (above :: List.zipWith res7Mul w x)

/-- The residue that arrives with a column's sum, from the residues of its weights and of the vector. -/
def columnResidue : List (List Nat) → List Nat → Nat → Nat
  | [], _, r => r
  | w :: t, x, r => columnResidue t (x.drop 32) (unitResidue w (x.take 32) r)

/-- The parity bit of a stored code (R204). -/
def codeParity (raw : Nat) : Bool := (List.range 4).foldl (fun p i => p != raw.testBit i) false

/-- An exact sum clamped to the range of an entry, and whether it was. -/
def clampAcc (v : Int) : BitVec 32 × Bool :=
  if 2 ^ 31 - 1 < v then (BitVec.ofInt 32 (2 ^ 31 - 1), true)
  else if v < -(2 ^ 31 - 1) then (BitVec.ofInt 32 (-(2 ^ 31 - 1)), true)
  else (BitVec.ofInt 32 v, false)

/-- What an accumulator add makes of an entry and a sum (R209), and whether it clamped. -/
def accAdd (isInt : Bool) (old sum : BitVec 32) : BitVec 32 × Bool :=
  if isInt then clampAcc (old.toInt + sum.toInt) else (f32add old sum, false)

/-- R192: the INT8 code of y over s_out; the counts of REQUANT_SAT and NONFINITE. -/
def requant (y so : BitVec 32) : Int × Nat × Nat :=
  let a := d32 y
  let b := d32 so
  let sign : Int := if a.isNeg != b.isNeg then -127 else 127
  if a.isNan || b.isNan || (a.isZero && b.isZero) || (!a.isFinite && !b.isFinite) then (0, 0, 1)
  else if !a.isFinite || b.isZero then (sign, 1, 0)
  else if !b.isFinite then (0, 0, 0)
  else
    let n := units149 y * (if units149 so < 0 then -1 else 1)
    let q := rneDiv n (units149 so).natAbs
    if 127 < q then (127, 1, 0) else if q < -127 then (-127, 1, 0) else (q, 0, 0)

/-! ### Running a descriptor -/

def upMx (s : State) (c : Nat) (f : ArrayRec → ArrayRec) : State := upCore s c (fun k => { k with mx := f k.mx })

/-- The key of an accumulator entry of a column. -/
def accKey (j e : Nat) : Nat := 512 * j + e

/-- The words of a range read, with their errors counted; none where one is poisoned. -/
def arrRead (s : State) (c a n : Nat) : State × Option (List Byte) :=
  let s := spTouch s c a n
  if s.spPoison c a n then (s, none) else (s, some (s.sp c a n))

/-- The use of the weight scale stream. -/
def ArrD.wUse (d : ArrD) (c : Nat) : ScaleUse :=
  { core := c, tensor := d.wTens, reads := d.wBlocks.contains, block := blockAddr d.wAddr d.wBlk, written := d.written }

/-- The use of the activation scale stream. -/
def ArrD.aUse (d : ArrD) (c : Nat) : ScaleUse :=
  { core := c, tensor := d.aTens, reads := d.allA.contains, block := blockAddr d.aAddr d.aBlk, written := d.written }

/-- The column scales: those of W_BLOCK0 where they are used, else 1.0 (R220, R223). -/
def columnScales (d : ArrD) (w : ScaleWalk) : Option (List (BitVec 32)) :=
  if d.scales then
    match w.got.find? (fun b => b.block == d.wBlk) with
    | some b => if b.kind = 1 ∧ d.cols ≤ b.scales.length then some (b.scales.take d.cols) else none
    | none => none
  else some (List.replicate d.cols f32one)

/-- R223: the weight scale stream, and the column scales. -/
def weightScales (s : State) (c : Nat) (d : ArrD) : State × Except DataEnd (List (BitVec 32)) :=
  if d.wScaled then
    match scaleWalks (d.wUse c) [d.wBlk] { next := d.wBlk, addr := d.wScale } s with
    | (s, some st, _) => (s, .error st)
    | (s, none, w) =>
      match columnScales d w with
      | none => (s, .error (.pair stBadDescriptor))
      | some l =>
        match scaleWalks (d.wUse c) d.wBlocks w s with
        | (s, some st, _) => (s, .error st)
        | (s, none, _) => (s, .ok l)
  else (s, .ok (List.replicate d.cols f32one))

/-- The rows of the tile, as the bytes of their records; none where a word is poisoned (R200, R224). -/
def tileRows (c : Nat) (d : ArrD) : List Nat → State → State × Option (List (List Byte))
  | [], s => (s, some [])
  | r :: t, s =>
    match arrRead s c (d.tileRow r).1 (d.tileRow r).2 with
    | (s, none) => (s, none)
    | (s, some l) =>
      match tileRows c d t s with
      | (s, none) => (s, none)
      | (s, some rest) => (s, some (l :: rest))

/-- An activation vector as it enters: its bytes and s_act. -/
abbrev ArrVec := List Byte × BitVec 32

/-- Activation vector m: its scale blocks are checked, then its words. -/
def enterVector (s : State) (c : Nat) (d : ArrD) (m : Nat) (w : ScaleWalk) : State × Except DataEnd (ScaleWalk × ArrVec) :=
  let read := fun (s : State) (w : ScaleWalk) (sc : BitVec 32) =>
    match arrRead s c (d.aVec m) d.aSize with
    | (s, none) => (s, (.error (.job stPoisoned) : Except DataEnd (ScaleWalk × ArrVec)))
    | (s, some l) => (s, .ok (w, (l, sc)))
  if d.aScaled then
    let off := tensorOff d.aAddr d.aBlk (d.aVec m)
    match scaleWalks (d.aUse c) [off / 4096] w s with
    | (s, some st, _) => (s, .error st)
    | (s, none, w) =>
      match (if d.scales then w.scaleOf d.aStride off s else (s, .ok f32one)) with
      | (s, .error st) => (s, .error st)
      | (s, .ok sc) =>
        match scaleWalks (d.aUse c) (d.aBlocks m) w s with
        | (s, some st, _) => (s, .error st)
        | (s, none, w) => read s w sc
  else read s w f32one

/-- The vectors from m on, up to the first that fails. -/
def enterVectors (c : Nat) (d : ArrD) : Nat → Nat → ScaleWalk → State → State × List ArrVec × Option DataEnd
  | 0, _, _, s => (s, [], none)
  | n + 1, m, w, s =>
    match enterVector s c d m w with
    | (s, .error st) => (s, [], some st)
    | (s, .ok (w, v)) =>
      let r := enterVectors c d n (m + 1) w s
      (r.1, v :: r.2.1, r.2.2)

/-- Entry slots of a vector (R207, R230). -/
def ArrD.slots (d : ArrD) : Nat := if d.wf = 1 ∨ d.axis then 4 else 1

/-- The steps of vector m: its first slot, its last slot, and where its output is written (R215 to R218, R230). -/
def ArrD.firstSlot (d : ArrD) (m : Nat) : Nat := 32 + d.slots * m
def ArrD.entry (d : ArrD) (m : Nat) : Nat := d.firstSlot m + d.slots - 1
def ArrD.writeStep (d : ArrD) (m : Nat) : Nat := d.entry m + (if d.axis then 66 else 34 + d.cols)

/-- Column j of vector m reaches the bottom stage, before step f where the descriptor stops there. -/
def ArrD.reaches (d : ArrD) (stop : Option Nat) (m j : Nat) : Bool :=
  match stop with
  | none => true
  | some f => decide (d.entry m + 33 + j < f)

def ArrD.writes (d : ArrD) (stop : Option Nat) (m : Nat) : Bool :=
  match stop with
  | none => true
  | some f => decide (d.writeStep m < f)

/-- The activation elements of a vector. -/
def vectorVals (d : ArrD) (n : Nat) (l : List Byte) : List Ev :=
  (List.range n).map (fun x =>
    let raw := elemRaw l d.af x
    if isFp d.af then fpDecode d.af raw else Ev.ofInt (intDecode d.af raw))

/-- A loaded tile: the values of its active units by row and column, with the residues that stand beside them. -/
abbrev TileVals := List (List (List Ev))

/-- Column j of a tile. -/
def tileCol (tile : TileVals) (j : Nat) : List (List Ev) := tile.map (fun r => r.getD j [])

/-! ### Wrong values (R227, R228) -/

/-- The fault strikes something that the descriptor does. -/
def ArrFault.strikes (f : ArrFault) (d : ArrD) (vecs : Nat) : Bool :=
  decide (f.vec < vecs ∧ f.lane < (if d.axis then d.rows else d.cols) ∧ f.row < (if d.axis then 32 else d.rows)) &&
  match f.check with
  | .sum => d.isInt
  | .store => d.isInt && !d.first && !d.axis
  | .unit => !d.isInt
  | .exponent => !d.isInt
  | .parity => d.wf == 0xA
  | .scaler => d.last && d.scales && !d.axis

/-- The step of its check: in unit (r, j) at e + r + j, at the bottom stage or the right edge 33 steps and the lane's number
after entry (for the right edge log entry 112), in the scaler at the write. -/
def ArrFault.step (f : ArrFault) (d : ArrD) : Nat :=
  match f.check with
  | .sum => d.entry f.vec + 33 + f.lane
  | .store => d.entry f.vec + 33 + f.lane
  | .scaler => d.writeStep f.vec
  | _ => d.entry f.vec + f.row + f.lane

/-- The exact sum of the FP unit it strikes. -/
def ArrFault.exact (f : ArrFault) (tile : TileVals) (x : List Ev) : Ev :=
  let col := tileCol tile f.lane
  unitExact (col.getD f.row []) ((x.drop (32 * f.row)).take 32)
    (if f.row = 0 then none else some (fpColumn (col.take f.row) x none))

/-- The residue that stands beside the integer sum it strikes (R226). -/
def ArrFault.residue (f : ArrFault) (d : ArrD) (tile : TileVals) (x : List Ev) : Nat :=
  let res := fun (l : List Ev) => l.map (evResidue true)
  if d.axis then
    res7Sum (List.zipWith res7Mul (res ((tile.getD f.lane []).map (fun u => u.getD f.row .nan))) (res x))
  else columnResidue ((tileCol tile f.lane).map res) (res x) 0

/-- The check shows it: the residue of the value is not the one carried, or the parity fails; `entry` is the residue stored
with the accumulator entry of an add. -/
def ArrFault.caught (f : ArrFault) (d : ArrD) (tile : TileVals) (x : List Ev) (entry : Nat) : Bool :=
  match f.check with
  | .sum => res7 f.value != ArrFault.residue f d tile x
  | .store => res7 f.value != res7Sum [entry, ArrFault.residue f d tile x]
  | .unit => (wrongSig (ArrFault.exact f tile x) f.value).isNone
  | _ => true

/-! ### A pass -/

/-- The column sum of vector x; where a wrong value that no check shows strikes it, with that. -/
def columnSum (d : ArrD) (tile : TileVals) (j : Nat) (x : List Ev) (f : Option ArrFault) : BitVec 32 :=
  let col := tileCol tile j
  let right := if d.isInt then BitVec.ofInt 32 (intColumn col x) else fpColumn col x none
  match f with
  | none => right
  | some f =>
    if f.lane ≠ j then right
    else
      match f.check with
      | .sum => BitVec.ofInt 32 f.value
      | .unit =>
        fpColumn (col.drop (f.row + 1)) (x.drop (32 * (f.row + 1)))
          (some (r32 ((wrongSig (ArrFault.exact f tile x) f.value).getD .nan)))
      | _ => right

/-- Put a value into an accumulator entry, with its residue (R227). -/
def putAcc (c k : Nat) (isInt : Bool) (v : BitVec 32) (s : State) : State :=
  let r := if isInt then res7 v.toInt else res7 (d32 v).significand
  upCore s c (fun x => { x with acc := Tbl.set 0 x.acc k v, accRes := Tbl.set 0 x.accRes k r })

/-- One column sum arrives at the bottom stage and goes into its accumulator entry (R208, R209). -/
def arrive (c : Nat) (d : ArrD) (m j : Nat) (sum : BitVec 32) (f : Option ArrFault) (s : State) : State :=
  let k := accKey j (d.base + m)
  let s := if !d.isInt && !(d32 sum).isFinite then upMx s c (fun x => { x with fpNonfinite := x.fpNonfinite + 1 }) else s
  if d.first then putAcc c k d.isInt sum s
  else
    let old := Tbl.get 0 (s.core c).acc k
    let r := match f with
      | some f => if f.check = ArrCheck.store ∧ f.lane = j then clampAcc f.value else accAdd d.isInt old sum
      | none => accAdd d.isInt old sum
    upMx (putAcc c k d.isInt r.1 s) c (fun x => { x with accSat := x.accSat + b2n r.2 })

/-- The scaled value of a final sum (R191, R220, R221). -/
def scaledSum (s : State) (c : Nat) (d : ArrD) (j : Nat) (sact scol sum : BitVec 32) : BitVec 32 :=
  let f := f32mul sact scol
  if d.isInt then
    let g := f32mul f (if isCb d.wf then (s.cbOn c (d.cbAt j)).scale else f32one)
    r32 ((Ev.ofInt sum.toInt).mul (d32 g))
  else f32mul sum f

/-- The bytes of one output, with its counts of REQUANT_SAT and NONFINITE. -/
def outBytes (s : State) (c : Nat) (d : ArrD) (j : Nat) (sact scol sum : BitVec 32) : List Byte × Nat × Nat :=
  let y := scaledSum s c d j sact scol sum
  match d.ofmt with
  | 5 => (leBytes 4 sum.toNat, 0, 0)
  | 0 => (leBytes 4 y.toNat, 0, 0)
  | 1 => (leBytes 2 (bf16.round (d32 y)).1, 0, 0)
  | _ => let q := requant y d.sOut; (leBytes 1 (wrapNat 8 q.1), q.2)

/-- R217, R222: output vector m is written, then the scale block of each data block it is the last to write. -/
def writeOutput (s : State) (c : Nat) (o : Owner) (d : ArrD) (m : Nat) (l : List Byte) : State :=
  let s := spWrite s c o (d.oVec m) l
  if d.oScales then
    let later := (List.range d.m).filter (fun i => decide (m < i))
    forL ((d.oBlocks m).filter (fun b => !later.any (fun i => (d.oBlocks i).contains b))) (fun b s =>
      spWrite s c o (d.oScaleAt + 64 * (b - d.oBlk)) (scaleBlock d.oTens b 2 [d.sOut])) s
  else s

/-- A vector streams through the tile: its sums arrive and, on LAST, its output is written. -/
def passVector (c : Nat) (o : Owner) (d : ArrD) (tile : TileVals) (scol : List (BitVec 32)) (stop : Option Nat)
    (wrong : Option ArrFault) (e : ArrVec × Nat) (s : State) : State :=
  let m := e.2
  let x := vectorVals d (32 * d.rows) e.1.1
  let f := wrong.filter (fun f => f.vec == m)
  let s := forN d.cols (fun j s => if d.reaches stop m j then arrive c d m j (columnSum d tile j x f) f s else s) s
  if d.last && d.writes stop m then
    let outs := (List.range d.cols).map (fun j =>
      outBytes s c d j e.1.2 (scol.getD j f32one) (Tbl.get 0 (s.core c).acc (accKey j (d.base + m))))
    let s := upCore s c (fun k => { k with
      requantSat := k.requantSat + (outs.map (fun r => r.2.1)).sum
      nonfinite := k.nonfinite + (outs.map (fun r => r.2.2)).sum })
    writeOutput s c o d m (outs.flatMap (·.1))
  else s

/-- A vector of the other-axis read (R230). -/
def axisVector (c : Nat) (o : Owner) (d : ArrD) (tile : TileVals) (stop : Option Nat) (wrong : Option ArrFault)
    (e : ArrVec × Nat) (s : State) : State :=
  let x := vectorVals d d.cols e.1.1
  let at0 := fun (row : List (List Ev)) (i : Nat) =>
    ((row.zip x).map (fun (p : List Ev × Ev) => (p.1.getD i .nan).rne * p.2.rne)).sum
  let right := tile.flatMap (fun row => (List.range 32).map (fun i => BitVec.ofInt 32 (at0 row i)))
  let out := match wrong with
    | some f => if f.vec = e.2 then updAt right (32 * f.lane + f.row) (fun _ => BitVec.ofInt 32 f.value) else right
    | none => right
  if d.writes stop e.2 then spWrite s c o (d.oVec e.2) (out.flatMap (fun v => leBytes 4 v.toNat)) else s

/-- A mismatch ends the job (R228); one of the output scaler is reported as that unit's (R399). -/
def arrMismatch (s : State) (c : Nat) (e : QEntry) (f : ArrFault) : State :=
  arithFault (upMx s c (fun x => { x with residue := x.residue + 1, lastColumn := BitVec.ofNat 8 f.lane })) e.owner
    (if f.check = .scaler then unitScaler else unitArray) c f.lane (BitVec.ofNat 64 e.addr)

/-- Stream the vectors of a loaded tile.  A failing vector stops the descriptor at its first slot; a mismatch stops it where
its value is checked, and then decides the status (R212, R227 to R229; log entry 47). -/
def streamTile (s : State) (c : Nat) (e : QEntry) (l : List QEntry) (d : ArrD) (tile : TileVals)
    (scol : List (BitVec 32)) (bad : Option ArrFault) : State :=
  let o := e.owner
  let (s, vecs, fail) := enterVectors c d d.m 0 { next := d.aBlk, addr := d.aScale } s
  let failAt := fail.map (fun _ => d.firstSlot vecs.length)
  let struck := bad.filter (fun f => ArrFault.strikes f d vecs.length)
  let shows := fun (f : ArrFault) =>
    let x := vectorVals d (if d.axis then d.cols else 32 * d.rows) (vecs.getD f.vec ([], f32one)).1
    ArrFault.caught f d tile x (Tbl.get 0 (s.core c).accRes (accKey f.lane (d.base + f.vec)))
  let hit := struck.filter shows
  let wrong := struck.filter (fun f => !shows f)
  let stop := match failAt, hit.map (fun f => ArrFault.step f d) with
    | some a, some b => some (min a b)
    | some a, none => some a
    | none, x => x
  let seen := match stop with
    | none => d.m
    | some f => (List.range d.m).countP (fun m => decide (d.firstSlot m ≤ f))
  let s := upMx s c (fun x => { x with vectors := x.vectors + seen })
  let s := forL vecs.zipIdx (fun v s =>
    if d.axis then axisVector c o d tile stop wrong v s else passVector c o d tile scol stop wrong v s) s
  match hit, fail with
  | some f, _ => arrMismatch s c e f
  | none, some x => endData s o x
  | none, none =>
    upCore s c (fun k => { k with
      qArray := l
      mx := { k.mx with descriptors := k.mx.descriptors + 1 }
      chain := if d.last then none else some (d.chain o.job) })

/-- What the units hold of a tile: the words of its records, and beside each weight its residue and, for CB16, the parity of
its stored code (R204, R226). -/
def loadedTile (d : ArrD) (rows : List (List Byte)) (tile : TileVals) : ArrTile :=
  { words := bytesWords rows.flatten (ceilDiv rows.flatten.length 8)
    residues := tile.flatMap (fun r => r.flatMap (fun u => u.map (evResidue d.isInt)))
    parity := if d.wf = 0xA then
        rows.flatMap (fun r => (List.range (32 * d.cols)).map (fun e => codeParity (elemRaw r d.wf e)))
      else [] }

/-- The descriptor at the head of a core's ARRAY queue, where its AXIS is `axis`. -/
def arrRun (c : Nat) (axis : Bool) (bad : Option ArrFault) (s : State) : State :=
  whenPowered s fun s =>
    match (s.core c).qArray with
    | [] => s
    | e :: l =>
      let o := e.owner
      let w := pdata e.desc
      let d := parseArr w
      if anyPoison e.desc then failJob s o stPoisoned
      else if d.axis != axis then s
      else
        match arrRefusal s c o w with
        | some st => failJob s o st
        | none =>
          match (if isCb d.wf then coreCbs c ((List.range d.cols).map d.cbAt).dedup s else (s, true)) with
          | (s, false) => failJob s o stPoisoned
          | (s, true) =>
            match weightScales s c d with
            | (s, .error x) => endData s o x
            | (s, .ok scol) =>
              match tileRows c d (List.range d.rows) s with
              | (s, none) => failJob s o stPoisoned
              | (s, some rows) =>
                let tile := rows.map (fun r => (List.range d.cols).map (fun j =>
                  unitVals s c d j (slice r (j * d.recBytes) d.recBytes)))
                let s := upCore s c (fun k => { k with
                  tile := some (loadedTile d rows tile)
                  mx := { k.mx with loads := k.mx.loads + 1 } })
                streamTile s c e l d tile scol bad

/-- R199 to R223. -/
def execArrayDescriptor (c : CoreId) (bad : Option ArrFault) (s : State) : Out := .next (arrRun c false bad s)

/-- R230, R231. -/
def execArrayOtherAxisRead (c : CoreId) (bad : Option ArrFault) (s : State) : Out := .next (arrRun c true bad s)

end Sys2Proof.Machine
end

