-- ==== Sys2Proof/Machine/Background.lean ====
section
/-!
DEFINITION. What runs beside the jobs: the epochs of the access counters (R158, R160), the Groomer (R400 to R404), the posting
of events (R502), and an uncorrectable word in Ulizor SRAM (R380).
-/
namespace Sys2Proof.Machine

/-! ### Access counters -/

/-- R158, R160, R161: at an epoch's end every counter is halved, and the counter policy set last takes effect. -/
def execCounterEpoch (s : State) : Out :=
  .next (whenPowered s fun s =>
    if due s mkEpoch (s.policy.epochMs * 1000000) then
      let half := s.counters.map (fun e => (e.1, ({ count := e.2.count / 2 } : PageCtr)))
      let s := { s with counters := half.filter (fun e => e.2 != {}), policy := s.policyNext, hotPosted := false }
      mark s mkEpoch (s.policy.epochMs * 1000000)
    else s)

/-! ### The Groomer -/

/-- The Groomer may use a core: active, idle, and no LC submission waits for admission (R401). -/
def State.groomable (s : State) (c : Nat) : Bool :=
  let k := s.core c
  s.active c && k.seq.isNone && k.callsLc.isEmpty && k.callsBe.isEmpty && k.resident.isNone && !s.lcWaits

/-- How old a core's last test is: those never tested come first, then the oldest, then the lowest number. -/
def State.groomKey (s : State) (c : Nat) : Nat :=
  match (s.core c).groomLast with
  | none => c
  | some t => 72 * (t + 1) + c

/-- The cores of the next test (R402). -/
def State.groomPair (s : State) : Option (Nat × Nat) :=
  let l := sortBy (fun a b => decide (s.groomKey a ≤ s.groomKey b)) ((List.range 72).filter s.groomable)
  match l with
  | [] => none
  | a :: t => (t.find? (fun b => b / 6 != a / 6)).map (fun b => (a, b))

/-- A core's last test lies at least PERIOD_S back. -/
def State.groomDue (s : State) (c : Nat) : Bool :=
  match (s.core c).groomLast with
  | none => true
  | some t => decide (t + s.ig.groom.periodS * 1000000000 ≤ s.ticker)

/-- The items that a test runs: those of SUITE in bit order, up to the one that differs. -/
def groomItems (suite : BitVec 6) (diff : Option (Fin 6)) : List Nat :=
  (List.range 6).filter (fun i => suite.getLsbD i && (match diff with
    | some d => decide (i ≤ d.val)
    | none => true))

/-- DEPTH descriptors of an item run on a core: they count in its records; how many vectors, loads and elements they have
the rules do not say (free values). -/
def groomRun (depth c item : Nat) (s : State) : State :=
  let (x, s) := takeFree s
  let (y, s) := takeFree s
  if item = 4 then
    upCore s c (fun k => { k with vx := { k.vx with descriptors := k.vx.descriptors + depth, elements := k.vx.elements + x } })
  else
    upCore s c (fun k => { k with mx := { k.mx with
      descriptors := k.mx.descriptors + depth, vectors := k.mx.vectors + x, loads := k.mx.loads + y } })

/-- The bytes a test used are written as 0 (R401). -/
def groomClean (s : State) (c : Nat) : State := upCore s c (fun k => { k with scratch := k.scratch.zero 0 (2 ^ 20) })

/-- The seed of the test under way. -/
def State.groomSeed (s : State) : Word := (s.time.powerUps.zeroExtend 64 <<< 40) ^^^ BitVec.ofNat 64 s.ig.groom.pass

/-- A test of cores a and b ends. -/
def groomEnd (s : State) (a b : Nat) : State :=
  let last := fun (s : State) (c : Nat) => upCore s c (fun k => { k with groomLast := some s.ticker })
  upIg (last (last s a) b) (fun g => { g with
    groomTests := g.groomTests + 1, groom := { g.groom with pass := g.groom.pass + 1, open_ := none } })

/-- R404: the events of a mismatch. -/
def groomEvents (s : State) (a b arbiter item : Nat) (suspect : Option Nat) : State :=
  let w := at_ 63 56 a ||| at_ 55 48 b ||| at_ 47 40 arbiter ||| at_ 39 32 (suspect.getD 0xFF) ||| at_ 31 24 item
  let s := raiseEvent s evGroomMismatch 0 w s.groomSeed 0
  match suspect with
  | none => s
  | some c => nameSuspect s 0 (if item = 4 then unitVector else unitArray) c 1

/-- A residue mismatch while an item runs on a core is one of R228 under CID 0 (R404); where the rules give the Groomer's
descriptors no address, the event has a free value. -/
def groomResidue (s : State) (c item lane : Nat) : State :=
  let (x, s) := takeFree s
  let o : Owner := ⟨0, 0, 0, false, false⟩
  let s := upCore s c (fun k => { k with mx := { k.mx with residue := k.mx.residue + 1 } })
  if item = 4 then
    arithFault (upCore s c (fun k => { k with vx := { k.vx with residue := k.vx.residue + 1 } })) o unitVector c lane
      (BitVec.ofNat 64 x)
  else
    arithFault (upCore s c (fun k => { k with mx := { k.mx with lastColumn := BitVec.ofNat 8 lane } })) o unitArray c lane
      (BitVec.ofNat 64 x)

/-- A start of Groomer work is delayed (R456): it counts once. -/
def delayGroom (s : State) : State :=
  if s.ig.groom.held then s
  else { upIg s (fun g => { g with groom := { g.groom with held := true } }) with sched := { s.sched with beHolds := s.sched.beHolds + 1 } }

/-- Groomer work starts on some cores, or its start is delayed. -/
def groomStart (l : List Nat) (work : State → State) (s : State) : State :=
  if l.any (fun c => (s.hedge (c / 6)).beHeld) then delayGroom s
  else work (upIg s (fun g => { g with groom := { g.groom with held := false } }))

/-- The comparison of a test of cores a and b, which have written their bytes as 0 (log entry 116). -/
def groomCompare (diff : Option (Fin 6)) (named : Option Bool) (a b : Nat) (s : State) : State :=
  match diff with
  | none => groomEnd s a b
  | some d =>
    let s := upIg s (fun g => { g with groomMismatch := g.groomMismatch + 1 })
    match named, decide (d.val = 5) with
    | some x, true => groomEnd (groomEvents s a b 0xFF d.val (some (if x then b else a))) a b
    | _, _ =>
      let p := s.ig.groom
      if p.arbitrate then upIg s (fun g => { g with groom := { p with open_ := some ⟨a, b, d.val, p.depth, s.ticker⟩ } })
      else groomEnd (groomEvents s a b 0xFF d.val none) a b

/-- R402, R403: one test of two idle cores.  `diff` is the item whose comparison failed; `named` the core whose read-back
differs from the tile written; `bad` a residue mismatch: on the second core, the item and its lane or column. -/
def execGroomerTest (diff : Option (Fin 6)) (named : Option Bool) (bad : Option (Bool × Fin 6 × Nat)) (s : State) : Out :=
  .next (whenFw s fun s =>
    let p := s.ig.groom
    match s.groomPair with
    | none => s
    | some (a, b) =>
      if p.enable ∧ p.open_.isNone ∧ (s.groomDue a ∨ s.groomDue b) then
        groomStart [a, b] (fun s =>
          let bad := bad.filter (fun x => p.suite.getLsbD x.2.1.val)
          let diff := diff.filter (fun d => p.suite.getLsbD d.val &&
            (match bad with
             | some x => decide (d.val < x.2.1.val)
             | none => true))
          let run := fun (d : Option (Fin 6)) (s : State) =>
            groomClean (groomClean (forL (groomItems p.suite d) (fun i s => groomRun p.depth b i (groomRun p.depth a i s)) s) a) b
          match diff, bad with
          | none, some x => groomEnd (groomResidue (run (some x.2.1) s) (if x.1 then b else a) x.2.1.val x.2.2) a b
          | d, _ => groomCompare d named a b (run d s)) s
      else s)

/-- R403: a third idle core in a third hedge reruns the item, to the depth of its test (R400). -/
def execGroomerArbitrate (c : CoreId) (verdict : Arbiter) (bad : Option Nat) (s : State) : Out :=
  .next (whenFw s fun s =>
    match s.ig.groom.open_ with
    | none => s
    | some g =>
      if s.groomable c.val ∧ c.val / 6 ≠ g.a / 6 ∧ c.val / 6 ≠ g.b / 6 then
        groomStart [c.val] (fun s =>
          let s := groomClean (groomRun g.depth c.val g.item s) c.val
          match bad with
          | some lane => groomEnd (groomEvents (groomResidue s c.val g.item lane) g.a g.b c.val g.item none) g.a g.b
          | none =>
            let suspect := match verdict with
              | .agreesA => some g.b
              | .agreesB => some g.a
              | .neither => none
            groomEnd (groomEvents s g.a g.b c.val g.item suspect) g.a g.b) s
      else s)

/-- R403: no third core has become idle within 1 s. -/
def execGroomerArbiterTimeout (s : State) : Out :=
  .next (whenFw s fun s =>
    match s.ig.groom.open_ with
    | none => s
    | some g =>
      if g.since + 1000000000 ≤ s.ticker then groomEnd (groomEvents s g.a g.b 0xFF g.item none) g.a g.b else s)

/-! ### Events and management memory -/

/-- R502: the oldest event held is posted, where the event queue has room. -/
def execEventPost (s : State) : Out := .next (whenFw s postEvent)

/-- R380: every job ends; the Ulizor core is reloaded from the active image before RESET_JOBS is accepted. -/
def execUlizorSramUncorrectable (u : SlotId) (s : State) : Out :=
  .next (whenFw s fun s =>
    let s := jobFaultAll s causeMgmtMemory
    { s with sec := { s.sec with reload := if s.sec.reload.contains u.val then s.sec.reload else s.sec.reload ++ [u.val] } })

end Sys2Proof.Machine
end

