-- ==== Sys2Proof/Machine/Hedgerow.lean ====
section
/-!
DEFINITION. Hedgerow (R17 to R25): nodes and routes, packets and their flits, router buffers with their credits, the grants of
an output port, and the delivery of a packet to its node.  A packet that its node cannot take stays in the routers.
-/
namespace Sys2Proof.Machine

/-! ### Nodes and routes (R16, R17, R21) -/

/-- The columns whose row-0 routers an edge node attaches to (Table — Hedgerow nodes). -/
def attachCols (n : Nat) : List Nat :=
  match n with
  | 84 => [0, 1]
  | 85 => [2, 3, 4, 5, 6, 7, 8, 9]
  | 86 => [10]
  | 87 => [11]
  | _ => []

/-- Column and row of a core's or a hedge's node. -/
def nodePlace (n : Nat) : Nat × Nat :=
  if n < 72 then (n / 6, if n % 6 < 3 then n % 6 else n % 6 + 1) else (n - 72, 3)

/-- How far far apart two columns are. -/
def colsApart (a b : Nat) : Nat := (a - b) + (b - a)

/-- Of some columns the nearest to one of others; of two equally near the lower (R21). -/
def nearestCol (l far : List Nat) : Nat :=
  let d := fun (c : Nat) => (far.map (colsApart c)).foldl min 12
  l.foldl (fun a c => if d c < d a then c else a) (l.headD 0)

/-- The columns at which a node may meet the mesh. -/
def nodeCols (n : Nat) : List Nat := if n < 84 then [(nodePlace n).1] else attachCols n

/-- Where a node that talks to another meets the mesh: its router, or the row-0 router of the attach column nearest to the
other end's column (R21; log entry 102). -/
def meshPlace (n other : Nat) : Nat × Nat := if n < 84 then nodePlace n else (nearestCol (nodeCols n) (nodeCols other), 0)

/-- The numbers from a to b, both included, in order. -/
def between (a b : Nat) : List Nat :=
  if a ≤ b then (List.range (b + 1 - a)).map (a + ·) else ((List.range (a + 1 - b)).map (b + ·)).reverse

/-- The routers of a path as (column, row): along the row to the destination's column, then along that column (R21). -/
def route (src dst : Nat) : List (Nat × Nat) :=
  let a := meshPlace src dst
  let b := meshPlace dst src
  (between a.1 b.1).map (fun c => (c, a.2)) ++ ((between a.2 b.2).drop 1).map (fun r => (b.1, r))

/-- The node that sits at a router. -/
def routerNode (p : Nat × Nat) : Nat :=
  if p.2 < 3 then 6 * p.1 + p.2 else if p.2 = 3 then 72 + p.1 else 6 * p.1 + p.2 - 1

/-! ### Tags and packets (R18 to R20) -/

def tagDest (t : Word) : Nat := fld t 63 57
def tagSrc (t : Word) : Nat := fld t 56 50
def tagVc (t : Word) : Nat := fld t 49 48
def tagKind (t : Word) : Nat := fld t 35 32
def tagTxn (t : Word) : Nat := fld t 31 16
def tagSeq (t : Word) : Nat := fld t 15 10
def tagLast (t : Word) : Bool := bit t 9

/-- The tag without SEQ and LAST, which all flits of a packet share. -/
def tagCommon (t : Word) : Word := at_ 63 16 (fld t 63 16)

/-- A tag that a router forwards: known nodes, kind and VC, control kinds on VC 0b10 alone (R17, R18, R20). -/
def tagOk (t : Word) : Bool :=
  decide (tagDest t < 88) && decide (tagSrc t < 88) && decide (tagKind t < 8) && fld t 8 0 == 0 && tagVc t != 3 &&
    ((tagVc t == 2) == (tagKind t == 6 || tagKind t == 7))

/-- The plane of a kind: the response plane carries data, acknowledgements and control responses (Table — flit kinds). -/
def respPlane (t : Word) : Bool := tagKind t == 4 || tagKind t == 5 || tagKind t == 7

/-- Words of the request header of a kind (R19). -/
def headerWords (kind : Nat) : Nat := if kind < 2 then 1 else if kind = 2 then 2 else 0

/-- The words of a packet meet R19: a whole request header, an address with zeros above it, and at most 4 KiB of data. -/
def wordsOk (kind : Nat) (l : List PWord) : Bool :=
  decide (headerWords kind ≤ l.length) && decide (l.length ≤ headerWords kind + 512) &&
    (decide (2 ≤ kind) || fld ((l.headD PWord.bad).data) 63 56 == 0) && (kind != 0 || l.length == 1)

/-- Flits that a source sends as one packet: 1 to 33 of one tag, SEQ from 0 in order, LAST on the final one alone (R18, R19).
No source forms anything else; such flits go nowhere (log entry 102). -/
def packetOk (l : List HFlit) : Bool :=
  match l with
  | [] => false
  | f :: _ =>
    tagOk f.tag && decide (l.length ≤ 33) && wordsOk (tagKind f.tag) (l.flatMap (·.words)) &&
      l.zipIdx.all (fun e => tagCommon e.1.tag == tagCommon f.tag && tagSeq e.1.tag == e.2 && fld e.1.tag 8 0 == 0 &&
        (tagLast e.1.tag == (e.2 + 1 == l.length)))

/-! ### Memory packets -/

/-- The channel request that a packet carries; a read asks for one 64-byte line (log entry 24). -/
def packetReq (t : Word) (payload : List PWord) : ChReq :=
  let w := wd (pdata payload) 0
  let p := parseAdder w (wd (pdata payload) 1)
  let back := ReplyTo.packet (tagSrc t) (tagTxn t)
  let r : ChReq := { kind := .read, lc := tagVc t == 1, cid := t.extractLsb' 36 12, pa := paOff (fld w 55 0),
                     len := 64, reply := back }
  match tagKind t with
  | 0 => r
  | 1 => { r with kind := .write, len := 8 * (payload.length - 1), data := payload.drop 1 }
  | _ =>
    let d := payload.drop 2
    let a := if p.op = opPool then (poolRows p d).getD 0 0 else r.pa
    { r with kind := .adder, pa := a, len := p.len, data := d, hdr0 := w, hdr1 := wd (pdata payload) 1 }

/-- A packet for memory: a read, a write or an adder operation, at a hedge node. -/
def isMemory (t : Word) : Bool := decide (72 ≤ tagDest t ∧ tagDest t < 84 ∧ tagKind t < 3)

/-- The words of a packet whose values decide what it does (R375): the request header, and a POOL's whole operand. -/
def consumedWords (t : Word) (l : List PWord) : List PWord :=
  if tagKind t = 2 ∧ (parseAdder (wd (pdata l) 0) (wd (pdata l) 1)).op = opPool then l else l.take (headerWords (tagKind t))

/-- The request meets the rules of its sender: its extent lies within one unit (R63), in a channel of the stack under the
hedge node it is sent to.  The spec gives no other request; such a one is not performed (log entry 102). -/
def placeOk (s : State) (t : Word) (r : ChReq) : Bool :=
  decide (tagDest t = 72 + s.stack r.pa) && (isOp opPool r || s.oneUnit r.pa r.len)

/-- The node can take the packet: a channel request needs an entry of its class (R22, R64). -/
def accepts (s : State) (t : Word) (l : List PWord) : Bool :=
  let r := packetReq t l
  !isMemory t || anyPoison (consumedWords t l) || !placeOk s t r || (s.chan (s.channel r.pa)).room r.lc

/-- Deliver a packet to its node: one whose header is poison ends its job (R376), an adder packet that R86 refuses ends its
job, another memory request enters its channel's queue, and every other packet arrives at its node. -/
def deliver (s : State) (t : Word) (l : List PWord) : State :=
  if isMemory t then
    let r := packetReq t l
    if anyPoison (consumedWords t l) then
      match reqOwner s r with
      | none => s
      | some o => failJob s o stPoisoned
    else
      let refused := if tagKind t = 2 then adderRefusal r.hdr0 r.hdr1 r.data.length else none
      match refused with
      | some st => reqFail s r st
      | none => if placeOk s t r then enqueue s (s.channel r.pa) r else s
  else { s with arrived := s.arrived ++ [(tagDest t, t, l)] }

/-! ### Routers (R22, R23) -/

/-- Ports are numbered by router, 16·column + row, or 1000 + node. -/
def portNo (p : Nat × Nat) : Nat := 16 * p.1 + p.2

/-- The places a flit passes: its source, the routers of its path, its destination. -/
def HFlit.places (f : HFlit) : List Nat :=
  (1000 + tagSrc f.tag) :: ((route (tagSrc f.tag) (tagDest f.tag)).map portNo ++ [1000 + tagDest f.tag])

/-- A link of a plane, from one place to the next. -/
def linkKey (f : HFlit) (i : Nat) : Nat :=
  (2048 * f.places.getD i 0 + f.places.getD (i + 1) 0) * 2 + b2n (respPlane f.tag)

/-- The flit has left the routers. -/
def HFlit.ejected (f : HFlit) : Bool := decide (f.places.length ≤ f.hops + 1)

/-- The next link leads to the destination. -/
def HFlit.lastLink (f : HFlit) : Bool := decide (f.places.length = f.hops + 2)

/-- Buffer slots of an input port for a VC, on each plane (R22): 16 for BE, 8 for LC, 2 for control. -/
def vcSlots (vc : Nat) : Nat := if vc = 0 then 16 else if vc = 1 then 8 else 2

/-- Flits in the buffer that a link feeds, of a VC. -/
def Hedgerow.held (n : Hedgerow) (link vc : Nat) : Nat :=
  n.flits.countP (fun f => decide (0 < f.hops) && !f.ejected && tagVc f.tag == vc && linkKey f (f.hops - 1) == link)

/-- The words of the packet that a flit belongs to. -/
def Hedgerow.packet (n : Hedgerow) (f : HFlit) : List HFlit := n.flits.filter (fun g => tagCommon g.tag == tagCommon f.tag)

/-- A flit may move: against a credit of its VC at the next hop, or into a node that can take its packet (R22). -/
def mayMove (s : State) (f : HFlit) : Bool :=
  if f.ejected then false
  else if f.lastLink then accepts s f.tag ((s.hrow.packet f).flatMap (·.words))
  else decide (s.hrow.held (linkKey f f.hops) (tagVc f.tag) < vcSlots (tagVc f.tag))

/-- An output port may grant a control flit: 1 in any 32 steps (R23; log entry 102). -/
def Hedgerow.controlOk (n : Hedgerow) (link : Nat) : Bool :=
  let last := Tbl.get 0 n.control link
  last == 0 || decide (last + 32 ≤ n.steps + 1)

/-- The flit competes for its output port in this step. -/
def competes (s : State) (f : HFlit) : Bool := mayMove s f && (tagVc f.tag != 2 || s.hrow.controlOk (linkKey f f.hops))

/-- The flits that are granted: on each output port the one of the highest priority, control, then LC, then BE (R23); of
equals the oldest. -/
def granted (s : State) : List Bool :=
  let l := s.hrow.flits.map (fun f => (competes s f, linkKey f f.hops, tagVc f.tag))
  l.zipIdx.map (fun e => e.1.1 && !l.zipIdx.any (fun d => d.1.1 && d.1.2.1 == e.1.2.1 &&
    (decide (e.1.2.2 < d.1.2.2) || (decide (d.1.2.2 = e.1.2.2) && decide (d.2 < e.2)))))

/-- Deliver the packets whose every flit has left the routers, in order. -/
def completePackets (s : State) : State :=
  forL (s.hrow.flits.filter (fun f => f.ejected && tagLast f.tag)) (fun f s =>
    let l := s.hrow.packet f
    if l.all (·.ejected) then
      deliver { s with hrow := { s.hrow with flits := s.hrow.flits.filter (fun g => tagCommon g.tag != tagCommon f.tag) } }
        (tagCommon f.tag) (l.flatMap (·.words))
    else s) s

/-- One step of every router: each output port grants one flit. -/
def routerStep (s : State) : State :=
  let l := s.hrow.flits.zip (granted s)
  let marks := (l.filter (fun e => e.2 && tagVc e.1.tag == 2)).map (fun e => linkKey e.1 e.1.hops)
  completePackets { s with hrow := {
    flits := l.map (fun e => if e.2 then { e.1 with hops := e.1.hops + 1 } else e.1)
    steps := s.hrow.steps + 1
    control := marks.foldl (fun t k => Tbl.set 0 t k (s.hrow.steps + 1)) s.hrow.control } }

/-- Router steps until no flit can move. -/
def routerSteps : Nat → State → State
  | 0, s => s
  | fuel + 1, s => if s.hrow.flits.any (mayMove s) then routerSteps fuel (routerStep s) else s

/-- Let what waits in the routers go as far as it can. -/
def runRouters (s : State) : State :=
  if s.hrow.flits.isEmpty then s
  else routerSteps (33 * (1 + (s.hrow.flits.map (fun f => f.places.length - f.hops)).sum)) s

/-- A packet enters the mesh.  One that meets no other, and whose node can take it, is delivered; any other moves as the
routers let it. -/
def sendPacket (l : List HFlit) (s : State) : State :=
  let t := tagCommon (l.headD ⟨0, [], 0⟩).tag
  let w := l.flatMap (·.words)
  if s.hrow.flits.isEmpty && accepts s t w then deliver s t w
  else runRouters { s with hrow := { s.hrow with flits := s.hrow.flits ++ l } }

/-! ### What the first router finds (R373, R377, R408) -/

/-- The words of a flit as a router forwards them. -/
def Flit.forward (f : Flit) : HFlit := ⟨f.tag, f.words.map (fun w => readCode w.1 w.2), 0⟩

/-- Words of flits and tags that are corrected, and that are uncorrectable without being poison. -/
def Flit.corrected (f : Flit) : Nat := b2n (synFixes f.tagSyn) + f.words.countP (fun w => synFixes w.2)
def Flit.broken (f : Flit) : Nat := b2n (synBad f.tagSyn) + f.words.countP (fun w => synBad w.2)

/-- The tag is uncorrectable (R25). -/
def Flit.tagLost (f : Flit) : Bool := (readCode f.tag f.tagSyn).poison

/-- A flit with its tag corrected. -/
def Flit.fixed (f : Flit) : Flit := { f with tag := (readCode f.tag f.tagSyn).data }

/-- What the first router counts and posts: EV_UE_POISON for each word that turns into poison there. -/
def routerFinds (l : List Flit) (s : State) : State :=
  let s := upIg s (fun g => { g with
    hedgerowCe := g.hedgerowCe + (l.map Flit.corrected).sum, hedgerowUe := g.hedgerowUe + (l.map Flit.broken).sum })
  forL l (fun f s =>
    let node := routerNode ((route (tagSrc f.tag) (tagDest f.tag)).headD (0, 0))
    forN (f.words.countP (fun w => synBad w.2)) (fun _ s => uePoison s unitRouter 0xFF 0xFFFF (at_ 6 0 node)) s) s

end Sys2Proof.Machine
end

