-- ==== Sys2Proof/Machine/Channels.lean ====
section
/-!
DEFINITION. The commands of the channel controllers, adders and Hedgerow (chapters 01 and 03).
-/
namespace Sys2Proof.Machine

/-! ### Temperature and refresh (R70 to R72) -/

/-- What a stack's temperature sample does to its hedge (R71). -/
def sampleStack (ticker : Nat) (t : Int) (x : Hedge) : Hedge :=
  let x := { x with tstack := t }
  if 850 < t then { x with doubledWanted := true, coolSince := 0 }
  else if 830 < t then { x with coolSince := 0 }
  else if x.coolSince = 0 then { x with coolSince := ticker }
  else if x.coolSince + 1000000 ≤ ticker then { x with doubledWanted := false }
  else x

/-- R71: the temperatures of the 12 dies of each stack, every 10 µs. -/
def execStackTempSample (temps : List (List Int)) (s : State) : Out :=
  guardWf (.stackTempSample temps) "STACK_TEMP_SAMPLE" (whenPowered s fun s =>
    if due s mkStackTemp 10000 then
      let t := s.ticker
      mark (forN 12 (fun h s => upHedge s h (sampleStack t (hottestDie (temps.getD h [])))) s) mkStackTemp 10000
    else s)

/-- R72: once per 10 ms for a stack above 95 °C. -/
def execStackThermalEvent (stack : HedgeId) (temp : Int) (s : State) : Out :=
  .next (whenFw s fun s =>
    if due s (mkStack stack) 10000000 && decide (950 < temp) then
      mark (thermalEvent (upHedge s stack (fun x => { x with tstack := temp })) stack 0xFF temp) (mkStack stack)
        10000000
    else s)

/-- The window period of a channel in reference cycles (R70). -/
def Chan.period (c : Chan) : Nat := if c.doubled then 195 else 390

/-- A channel that is locked, or is about to align, opens its windows on the count of R41. -/
def Chan.onGrid (c : Chan) : Bool := c.aligned || (c.lockWanted && c.windowDone)

/-- A window may begin: once the last one has completed, on the grid for a locked channel or one that is to align, a period
after the last one otherwise (R42, R70; log entry 25). -/
def windowOpens (s : State) (c : Nat) : Bool :=
  let x := s.chan c
  let last := Tbl.get 0 s.marks (mkRefresh c)
  let now := s.time.refcyc.toNat
  x.refreshOn && !s.time.refLoss && decide (last = 0 ∨ last + 25 ≤ now) &&
    (if x.onGrid then decide (now % x.period = 0) else decide (last = 0 ∨ last + x.period ≤ now + 1))

/-- A window of the channel falls on the 390-cycle grid: the grid of R41 for a channel that is locked or aligns, its own
phase for another, on which every second window of doubled refresh lies (R71; log entry 25). -/
def Chan.gridWindow (x : Chan) (now : Nat) : Bool := if x.onGrid then now % 390 == 0 else !x.half

/-- What a window does to its channel (R42, R70, R71). -/
def window (now : Nat) (wanted : Bool) (x : Chan) : Chan :=
  let doubled := if x.gridWindow now then wanted else x.doubled
  { x with
    refreshRow := (x.refreshRow + 2) % 16384
    doubled := doubled
    half := doubled && x.gridWindow now
    aligned := x.onGrid
    windowDone := x.lockWanted }

/-- R70: a refresh window. -/
def execRefreshWindow (c : ChanId) (s : State) : Out :=
  .next (whenPowered s fun s =>
    if windowOpens s c then
      let now := s.time.refcyc.toNat
      let s := upChan s c (window now (s.hedge (c / 64)).doubledWanted)
      { s with marks := Tbl.set 0 s.marks (mkRefresh c) (now + 1) }
    else s)

/-! ### Scrub (R76) -/

/-- Lines of a channel. -/
def channelLines : Nat := 12582912

/-- Lines of a bank column of 48 MiB. -/
def columnLines : Nat := 786432

/-- The local offset held at byte p of bank column `bgs` of a channel: R62 run backwards. -/
def offsetAt (e : ImapEntry) (c bgs p : Nat) : Nat :=
  let q := p - e.base / 12288
  let u := e.unit
  let w := q / u
  let g := w ^^^ rotl32 w 11 ^^^ rotl32 w 17 ^^^ rotl32 w 25
  let lo := ((c % 64) + 64 * bgs) ^^^ (g % 1024)
  let h := g ^^^ lo
  let rot := (nbits h 31 16 * 12) >>> 16
  let r := (c / 64 + 12 - rot) % 12
  e.base + (12 * (1024 * w + lo) + r) * u + q % u

/-- The local offset of 32 bytes of a channel, under the map. -/
def chanOffset (m : List ImapEntry) (c bgs p : Nat) : Option Nat :=
  (m.find? (fun e => decide (e.base / 12288 ≤ p ∧ p < e.base / 12288 + e.blocks * e.unit))).map
    (fun e => offsetAt e c bgs p)

/-- Scrub 32 bytes: count, correct and write back, or write back as poison with EV_UE_POISON (R76); a write-back passes the
home slice (R150). -/
def scrubHalf (a : Nat) (s : State) : State :=
  let l := s.dram.listed a 32
  let s := dramTouch s a 32
  if l.isEmpty then s
  else thicketInvalidate { s with dram := l.foldl (fun m e => m.settle e.1) s.dram } a 32

/-- The two halves of the line at the scrubber's place, in local DRAM. -/
def State.scrubHalves (s : State) (c pos : Nat) : List Nat :=
  let p := 64 * (pos % columnLines)
  [p, p + 32].filterMap (chanOffset s.imap c (pos / columnLines))

/-- The time between two lines of a scrubber that reads every line of its channel once per interval, in ns (R76). -/
def State.scrubPeriod (s : State) (c : Nat) : Nat := (s.hedge (c / 64)).scrubH * 3600000000000 / channelLines

/-- R76: the scrubber's next line, once in each such time.  It reads as BE, so it waits while the channel owes an LC request
service (R65).  A read whose retry fails is counted, and there is nothing to write back (R77). -/
def execScrubLine (c : ChanId) (ca : CaParity) (s : State) : Out :=
  .next (whenPowered s fun s =>
    if s.scrubOn && !s.time.refLoss && !(s.chan c).urgent && due s (mkScrub c) (s.scrubPeriod c) then
      let s := mark s (mkScrub c) (s.scrubPeriod c)
      let s := if ca = .failed then countUe s c else forL (s.scrubHalves c (s.chan c).scrubPos) scrubHalf s
      upChan s c (fun x => { x with
        scrubPos := (x.scrubPos + 1) % channelLines
        scrubPasses := x.scrubPasses + b2n (x.scrubPos + 1 == channelLines) })
    else s)

/-! ### Requests -/

/-- Serve a request of a kind; the entry it leaves may let a packet in (R64). -/
def serveNext (c : Nat) (p : ChReq → Bool) (f : ChReq → State → State) (s : State) : Out := .next (runRouters (serve s c p f))

/-- R67, R75, R77: a queued read. -/
def execChannelRead (c : ChanId) (ca : CaParity) (s : State) : Out := serveNext c (fun r => r.kind == .read) (readReq c ca) s

/-- R67, R77: a queued write. -/
def execChannelWrite (c : ChanId) (ca : CaParity) (s : State) : Out :=
  serveNext c (fun r => r.kind == .write) (writeReq c ca) s

/-- R86: ADD. -/
def execAdderAdd (c : ChanId) (ca : CaParity) (bad : Option WrongSum) (s : State) : Out :=
  serveNext c (isOp opAdd) (adderReq c ca bad) s

/-- R87: ADD_FX. -/
def execAdderAddFx (c : ChanId) (ca : CaParity) (bad : Option WrongSum) (s : State) : Out :=
  serveNext c (isOp opAddFx) (adderReq c ca bad) s

/-- R86: FETCH_ADD. -/
def execAdderFetchAdd (c : ChanId) (ca : CaParity) (bad : Option WrongSum) (s : State) : Out :=
  serveNext c (isOp opFetchAdd) (adderReq c ca bad) s

/-- R86: SWAP. -/
def execAdderSwap (c : ChanId) (ca : CaParity) (s : State) : Out := serveNext c (isOp opSwap) (adderReq c ca none) s

/-- R86: CAS. -/
def execAdderCas (c : ChanId) (ca : CaParity) (bad : Bool) (s : State) : Out :=
  serveNext c (isOp opCas) (casReq c ca bad) s

/-- R86: ZERO. -/
def execAdderZero (c : ChanId) (ca : CaParity) (s : State) : Out := serveNext c (isOp opZero) (adderReq c ca none) s

/-- R90: POOL. -/
def execAdderPool (c : ChanId) (ca : CaParity) (bad : Option WrongSum) (s : State) : Out :=
  serveNext c (isOp opPool) (poolReq c ca bad) s

/-! ### Hedgerow (R18 to R25) -/

/-- R19 to R25: a packet is routed and delivered to its destination; one of whose tags is uncorrectable is discarded, a job
fault of unknown owner. -/
def execHedgerowPacket (flits : List Flit) (s : State) : Out :=
  guardWf (.hedgerowPacket flits) "HEDGEROW_PACKET" (whenPowered s fun s =>
    let l := flits.map Flit.fixed
    let s := routerFinds (flits.zip l |>.map (fun e => { e.1 with tag := e.2.tag })) s
    if flits.any Flit.tagLost then jobFaultAll s causeTag
    else if packetOk (l.map Flit.forward) then sendPacket (l.map Flit.forward) s
    else s)

end Sys2Proof.Machine
end

