-- ==== Sys2Proof/Machine/Lookups.lean ====
section
/-!
DEFINITION. The Slalom engines (chapter 04): lookup descriptors, bags and their classification, pieces and POOLs, Thicket
lines and run-ahead (R150 to R156), tail rows, and the finishing of bags at their owner or at the home of a GATHER_REQ.
-/
namespace Sys2Proof.Machine

/-! ### Parts of the state -/

def State.bag (s : State) (id : Nat) : Option Bag := s.bags.find? (fun b => b.id == id)
def upBag (s : State) (id : Nat) (f : Bag → Bag) : State := { s with bags := updFirst (fun b => b.id == id) f s.bags }
def dropBag (s : State) (id : Nat) : State := { s with bags := dropFirst (fun b => b.id == id) s.bags }
def upPiece (s : State) (id : Nat) (f : Piece → Piece) : State :=
  { s with pieces := updFirst (fun p => p.id == id) f s.pieces }
def upLookup (s : State) (id : Nat) (f : Lookup → Lookup) : State :=
  { s with lookups := updFirst (fun l => l.id == id) f s.lookups }

/-- The Slalom engine that a core's lookups run on (R107). -/
def slalomOf (c : Nat) : Nat := 2 * (c / 6) + b2n (decide (3 ≤ c % 6))

/-! ### The lookup descriptor (Table — lookup descriptor) -/

structure LookD where
  table   : Nat
  ofmt    : Nat
  mean    : Bool
  acc     : Nat
  idx64   : Bool
  idxVa   : Bool
  ordered : Bool
  nbags   : Nat
  index   : Nat
  offsets : Nat
  stride  : Nat
  out     : Nat
  counts  : Bool
  countAt : Nat
  sumAt   : Nat
deriving DecidableEq, Repr

def parseLook (d : List Word) : LookD :=
  let w := wd d 0
  { table := fld w 63 52, ofmt := fld w 51 48, mean := fld w 47 46 == 1, acc := fld w 45 44, idx64 := bit w 43,
    idxVa := bit w 42, ordered := bit w 41, nbags := fld w 23 0, index := fld (wd d 1) 51 0, offsets := fld (wd d 2) 51 0,
    stride := 64 * fld (wd d 3) 63 48, out := fld (wd d 3) 24 0, counts := bit (wd d 4) 31, countAt := fld (wd d 4) 24 0,
    sumAt := fld (wd d 5) 24 0 }

/-- Bytes of an index. -/
def LookD.isize (d : LookD) : Nat := if d.idx64 then 8 else 4

/-- Bytes of an output element; 0 for a code that is no output format. -/
def outElem (f : Nat) : Nat :=
  match f with
  | 0x0 => 4
  | 0x1 => 2
  | 0x5 => 4
  | 0xC => 8
  | _ => 0

/-- The integer path (R110). -/
def LookD.intPath (d : LookD) (t : TableEntry) : Bool := t.intTable && d.acc != 2

/-- The refusal of a lookup descriptor (R103, R639, R640); `key` is the version the job is bound to. -/
def lookRefusal (s : State) (key : Option Nat) (w : List Word) : Option Status :=
  let d := parseLook w
  if 2 ≤ fld (wd w 0) 47 46 ∨ d.acc = 3 ∨ 0xD ≤ d.ofmt ∨ fld (wd w 0) 40 24 ≠ 0 ∨ fld (wd w 1) 63 52 ≠ 0 ∨
      fld (wd w 2) 63 52 ≠ 0 ∨ fld (wd w 3) 47 25 ≠ 0 ∨ fld (wd w 4) 63 32 ≠ 0 ∨ fld (wd w 4) 30 25 ≠ 0 ∨
      fld (wd w 5) 63 25 ≠ 0 ∨ wd w 6 ≠ 0 ∨ wd w 7 ≠ 0 then some stReservedNonzero
  else
    match key with
    | none => some stBadDescriptor
    | some k =>
      let t := (s.slot k).entry
      let size := t.elems * outElem d.ofmt
      let whole := d.ofmt == 5 || d.ofmt == 0xC
      if !t.valid || outElem d.ofmt == 0 || (whole && (!d.intPath t || d.mean)) || (d.acc == 1 && !t.intTable) ||
          decide (d.index % d.isize ≠ 0 ∨ d.offsets % 4 ≠ 0 ∨ d.out % 64 ≠ 0 ∨ d.sumAt % 32 ≠ 0 ∨ d.countAt % 4 ≠ 0 ∨
            scratchBytes ≤ d.countAt) ||
          (!d.idxVa && decide (scratchBytes < d.offsets + 4 * (d.nbags + 1) ∨ scratchBytes ≤ d.index)) ||
          decide (d.nbags = 0 ∨ d.stride < size ∨ scratchBytes < d.out + (d.nbags - 1) * d.stride + size ∨
            scratchBytes < d.sumAt + 32) ||
          (d.counts && decide (scratchBytes < d.countAt + 4 * d.nbags)) then some stBadDescriptor
      else none

/-! ### Reading offsets and indices (R104, R122) -/

/-- Bytes of the index list or the offsets; none where they have still to arrive or the job has ended, with what is
left of the flash window's data. -/
def lookRead (s : State) (l : Lookup) (va : Bool) (ext : List PWord) (a n : Nat) : State × List PWord × Option (List Byte) :=
  let o := l.owner
  if n = 0 then (s, ext, some [])
  else if va then
    let u := uSlalom l.engine
    let b := a / 8 * 8
    let m := (a + n + 7) / 8 * 8 - b
    match tileWalk s u o.cid [(b, m, false)] [] with
    | (s, .bad st) => (failJob s o st, ext, none)
    | (s, .wait k p) => (waitTile s o (some l.core) none (l.engine / 2) k p, ext, none)
    | (s, .busy x) => (raiseLines s o.lc x, ext, none)
    | (s, .ok) =>
      let xs := spans s u o.cid b m false
      let used := ((xs.filter (fun x => s.route x.pa == .flash)).map (fun x => x.n / 8)).sum
      match gather s o ext xs with
      | (s, none) => (s, ext, none)
      | (s, some w) =>
        if anyPoison w then (failJob s o stPoisoned, ext, none) else (s, ext.drop used, some (slice (pbytes w) (a - b) n))
  else if scratchBytes < a + n then (failJob s o stBadDescriptor, ext, none)
  else
    let s := spTouch s l.core a n
    if s.spPoison l.core a n then (failJob s o stPoisoned, ext, none) else (s, ext, some (s.sp l.core a n))

/-- The indices of a byte string. -/
def indexList (isize : Nat) (l : List Byte) : List Nat := (List.range (l.length / isize)).map (fun i => leAt l (i * isize) isize)

/-! ### Placing a row (R113, R116 to R119) -/

/-- The unit that translates for a bag. -/
def Bag.unit (b : Bag) : Nat := if b.home.isSome then uFabric else uSlalom b.engine

/-- An index of a bag, and whether the default row takes its place (R113, R119). -/
def Bag.place (b : Bag) (s : State) (i : Nat) : RowAt × Bool :=
  let t := (s.slot b.key).entry
  if i = 2 ^ (if b.idx64 then 64 else 32) - 1 then (.pad, false)
  else if t.rowCount ≤ i then (.invalid, false)
  else
    let dflt := (rowAt s b.unit b.owner.cid t b.home.isSome t.defaultRow, true)
    match rowAt s b.unit b.owner.cid t b.home.isSome i with
    | .tail space off => if b.dflt then dflt else (.tail space off, false)
    | .wait k p => if b.dflt then dflt else (.wait k p, false)
    | x => (x, false)

/-- The physical address of a translated page, or of one whose leaf does not allow it yet. -/
def pagePa (s : State) (u : Nat) (cid : BitVec 12) (va : Nat) : Nat :=
  match translate s u cid va false with
  | .ok pa => pa
  | .wait k => pteOa (s.node k)
  | .bad _ => 0

/-- The translation of a row is counted, page by page (R157). -/
def countRow (key u : Nat) (cid : BitVec 12) (t : TableEntry) (i : Nat) (s : State) : State :=
  forL (pagesOf (t.rowVa i) t.stride) (fun p s =>
    countAccess s key p (pagePa s u cid (max (t.rowVa i) (65536 * p)))) s

/-! ### Pieces (R107, R109, R112) -/

/-- Cut a list into runs of at most n. -/
def cutRuns {α : Type} (n : Nat) : Nat → List α → List (List α)
  | 0, _ => []
  | fuel + 1, l => if l.isEmpty then [] else l.take n :: cutRuns n fuel (l.drop n)

/-- The engine that serves a piece: of its stack's two, the one of its owner's parity (R107); a bag of a GATHER_REQ has no
owner engine, and the even one serves its pieces (log entry 106). -/
def Piece.server (p : Piece) : Nat := 2 * p.stack + p.owner.getD 0 % 2

/-- POOLs of a piece that its channels have still to answer. -/
def Piece.poolsOut (p : Piece) : Nat := p.total - p.pools.length - p.got.length

/-- Operations of a class that engine e has outstanding in one of its roles: the pieces it has sent as their owner. -/
def State.piecesOut (s : State) (e : Nat) (lc : Bool) : Nat :=
  s.pieces.countP (fun p => p.lc == lc && p.sent && p.owner == some e)

/-- And the POOLs of the pieces it serves as combiner. -/
def State.poolsOut (s : State) (e : Nat) (lc : Bool) : Nat :=
  ((s.pieces.filter (fun p => p.lc == lc && p.cut && p.server == e)).map Piece.poolsOut).sum

/-- One more operation of a class may be issued beside those outstanding: 256 in all, 192 for BE (R109; log entry 107). -/
def opRoom (out : Bool → Nat) (lc : Bool) : Bool :=
  decide (out true + out false < 256) && (lc || decide (out false < 192))

/-- Send the pieces of engine e that wait, LC before BE, as far as it has room for them. -/
def issuePieces (e : Nat) : Nat → State → State
  | 0, s => s
  | fuel + 1, s =>
    let ready := fun (lc : Bool) (p : Piece) => p.owner == some e && !p.sent && p.lc == lc && opRoom (s.piecesOut e) lc
    match (s.pieces.find? (ready true)).or (s.pieces.find? (ready false)) with
    | none => s
    | some p => issuePieces e fuel (upPiece s p.id (fun q => { q with sent := true }))

/-- Send what waits at engine e, and at a home nothing. -/
def issueFor (b : Bag) (s : State) : State := if b.home.isSome then s else issuePieces b.engine s.pieces.length s

/-- Make a piece of rows of stack h. -/
def addPiece (id h : Nat) (rows : List (Nat × Nat)) (s : State) : State :=
  match s.bag id with
  | none => s
  | some b =>
    let p : Piece := { id := s.nextPiece, bag := id, stack := h, owner := if b.home.isSome then none else some b.engine,
                       lc := b.owner.lc, sent := b.home.isSome, seqNo := Tbl.get 0 b.runs h, rows := rows }
    upBag { s with pieces := s.pieces ++ [p], nextPiece := s.nextPiece + 1 } id
      (fun x => { x with left := x.left + 1, runs := Tbl.upd 0 x.runs h (· + 1) })

/-- Operand word 2 of a GATHER_REQ. -/
def gatherW2 (b : Bag) (tv : BitVec 16) (n : Nat) : Word :=
  at_ 63 52 (b.key / 4) ||| (tv.zeroExtend 64 <<< 36) ||| at_ 35 34 (if b.intPath then (if b.wide then 2 else 1) else 0) |||
    at_ 33 33 (b2n b.ordered) ||| at_ 32 32 (b2n b.idx64) ||| at_ 12 0 n

/-- Bytes of an index of a bag. -/
def Bag.isize (b : Bag) : Nat := if b.idx64 then 8 else 4

/-- Send one peer the indices of some rows; the last word of a list is filled up with zeros (log entry 48). -/
def addGather (id m : Nat) (l : List Nat) (s : State) : State :=
  match s.bag id with
  | none => s
  | some b =>
    let bytes := l.flatMap (fun i => leBytes b.isize i)
    let words := (bytesWords bytes (ceilDiv bytes.length 8)).map PWord.good
    let txn := s.fab.nextTxn
    let s := request s m b.owner.lc 5 b.owner.cid (gatherW2 b (s.slot b.key).tv l.length) 0 words (some b.owner) (some b.id)
      (some b.core) (Tbl.get 0 b.runs (100 + m))
    upBag s id (fun x => { x with remote := x.remote ++ [txn], runs := Tbl.upd 0 x.runs (100 + m) (· + 1) })

/-- Send rows that have been delivered: pieces of 448 rows of one stack, requests of 4,096 bytes of indices of one module; and
where `all` says so, what is left of them. -/
def flushRows (id : Nat) (all : Bool) (s : State) : State :=
  match s.bag id with
  | none => s
  | some b =>
    let per := 4096 / b.isize
    let send := fun (n : Nat) (l : List (List Nat)) => l.filter (fun x => all || decide (x.length = n))
    let near := fun (h : Nat) => b.near.filter (fun r => s.stack r.2 == h)
    let far := fun (m : Nat) => (b.far.filter (fun r => r.1 == m)).map (·.2)
    let keepN := fun (n : Nat) (k : Nat) => if all then 0 else k % n
    let t := forN 12 (fun h s =>
      forL ((cutRuns 448 (near h).length (near h)).filter (fun x => all || decide (x.length = 448))) (fun x s => addPiece id h x s) s) s
    let t := forN 64 (fun m s => forL (send per (cutRuns per (far m).length (far m))) (fun x s => addGather id m x s) s) t
    let rest := (List.range 12).flatMap (fun h => (near h).drop ((near h).length - keepN 448 (near h).length))
    let left := (List.range 64).flatMap (fun m => ((far m).drop ((far m).length - keepN per (far m).length)).map (fun i => (m, i)))
    issueFor b (upBag t id (fun x => { x with near := rest, far := left }))

/-! ### Classifying a bag (R113, R125, R358, R359) -/

/-- The home answers a GATHER_REQ that fails with its status (R544), and the bag is gone. -/
def homeFail (s : State) (b : Bag) (st : Status) : State :=
  match b.home with
  | none => failJob s b.owner st
  | some (m, txn, lc) =>
    let s := dropBag { s with pieces := s.pieces.filter (fun p => p.bag != b.id) } b.id
    slotFreed (sendResp s m lc 5 b.owner.cid txn st []) m lc txn

/-- A row of a bag that the Privet check refuses (R353, R354): counted, and the job or the request ends. -/
def bagPrivet (s : State) (b : Bag) (pa : Nat) : State :=
  if b.home.isSome then
    let h := if paSpace pa = 0 then s.stack (paOff pa) else 0
    homeFail (upTr s h (fun r => { r with privetRefused := r.privetRefused + 1 })) b stProtection
  else privetFail s b.owner pa

/-- Count one index as it is classified (R113, R119, R124, R125). -/
def countIndex (s : State) (b : Bag) (x : RowAt) (dflt : Bool) : State :=
  let inv := b2n (x == .invalid)
  let pad := b2n (x == .pad)
  match b.home with
  | some _ => upBag s b.id (fun y => { y with invalid := y.invalid + inv, pad := y.pad + pad })
  | none =>
    let s := upLook s (b.key / 4) (fun r => { r with
      indices := r.indices + 1, invalid := r.invalid + inv, pad := r.pad + pad, tailDef := r.tailDef + b2n dflt })
    upLookup s b.lookup (fun y => { y with sum := { y.sum with
      invalid := y.sum.invalid + inv, pad := y.sum.pad + pad, tailDef := y.sum.tailDef + b2n dflt } })

/-- Deliver the row of index i at a position to where it is pooled. -/
def deliverRow (s : State) (b : Bag) (pos i : Nat) (x : RowAt) (dflt : Bool) : State :=
  let s := countIndex s b x dflt
  let counted := fun (s : State) => countRow b.key b.unit b.owner.cid (s.slot b.key).entry i s
  match x with
  | .dram off => upBag (counted s) b.id (fun y => { y with near := y.near ++ [(pos, off)] })
  | .tail space off => upBag (counted s) b.id (fun y => { y with tails := y.tails ++ [{ pos := pos, space := space, off := off }] })
  | .remote m => upBag s b.id (fun y => { y with far := y.far ++ [(m, i)] })
  | _ => s

/-- Rows that have been delivered go on their way although a later row waits; on the FP32 path in fixed order they stay
until their pieces are full, so that the wait does not change how the list is cut (R112). -/
def Bag.mayCut (b : Bag) : Bool := b.intPath || !b.ordered

/-- Classify indices from a position on, row by row: each row is one tile (R358).  A row that fails ends the job or the
GATHER_REQ; one that waits holds the rows after it (R118, R359). -/
def classifyFrom (id : Nat) : Nat → List Nat → State → State
  | _, [], s => flushRows id true (upBag s id (fun x => { x with indices := none }))
  | pos, i :: l, s =>
    match s.bag id with
    | none => s
    | some b =>
      let t := (s.slot b.key).entry
      let s := if i < t.rowCount then walkPages s b.unit b.owner.cid [(t.rowVa i, t.stride, false)] else s
      match b.place s i with
      | (.bad st, _) => homeFail s b st
      | (.wait k p, _) =>
        let s := flushRows id b.mayCut (upBag s id (fun x => { x with indices := some (i :: l), next := pos }))
        waitTile s b.owner none (some (id, pos)) (unitHedge b.unit) k p
      | (.remote m, d) =>
        if s.hasPath m then classifyFrom id (pos + 1) l (deliverRow s b pos i (.remote m) d) else homeFail s b stUnmapped
      | (x, d) => classifyFrom id (pos + 1) l (deliverRow s b pos i x d)

/-- Classify a bag from its progress point on. -/
def classify (s : State) (id : Nat) : State :=
  match s.bag id with
  | none => s
  | some b =>
    match b.indices with
    | none => s
    | some l => classifyFrom id b.next l s

/-! ### LOOKUP_DESCRIPTOR -/

/-- A bag may be opened on an engine: 64 in all, 48 for BE (R109). -/
def State.bagRoom (s : State) (engine : Nat) (lc : Bool) : Bool :=
  let mine := s.bags.filter (fun b => b.engine == engine && b.home.isNone)
  decide (mine.length < 64) && (lc || decide (mine.countP (fun b => !b.owner.lc) < 48))

/-- The lookup of a core that has bags to open. -/
def State.opening (s : State) (c : Nat) : Option Lookup :=
  s.lookups.find? (fun l => l.core == c && decide (l.nextBag < (parseLook l.desc).nbags))

/-- The tail policy that holds for a lookup of a job (R119, R120). -/
def State.defaults (s : State) (job : Nat) : Bool :=
  match s.job job with
  | none => false
  | some j => j.tailDef && j.lc

/-- Open bag `nextBag` of a lookup over its indices. -/
def openBag (s : State) (l : Lookup) (idx : List Nat) : State :=
  let d := parseLook l.desc
  let t := (s.slot l.key).entry
  let int := d.intPath t
  let b : Bag :=
    { id := s.nextBag, home := none, lookup := l.id, core := l.core, bagNo := l.nextBag, engine := l.engine, owner := l.owner,
      key := l.key, idx64 := d.idx64, indices := some idx, intPath := int,
      wide := int && (d.acc == 1 || decide (2 ^ 31 - 1 < idx.length * intMax t.format)),
      ordered := d.ordered || l.owner.repro, dflt := s.defaults l.owner.job }
  let s := { s with bags := s.bags ++ [b], nextBag := s.nextBag + 1 }
  let s := upLookup s l.id (fun x => { x with nextBag := x.nextBag + 1, cur := none, bagsOpen := x.bagsOpen + 1 })
  classify s b.id

/-- Open bags of a core's lookups in turn, while there is room and what they need is at hand. -/
def openBags (c : Nat) : Nat → List PWord → State → State
  | 0, _, s => s
  | fuel + 1, ext, s =>
    match s.opening c with
    | none => s
    | some l =>
      let d := parseLook l.desc
      let o := l.owner
      if s.tileWaits o (some c) none || !s.bagRoom l.engine o.lc then s
      else
        match l.cur with
        | none =>
          match lookRead s l d.idxVa ext (d.offsets + 4 * l.nextBag) 8 with
          | (s, _, none) => s
          | (s, ext, some w) =>
            let lo := leAt w 0 4
            let hi := leAt w 4 4
            let t := (s.slot l.key).entry
            if hi < lo ∨ (d.ofmt = 5 ∧ 2 ^ 31 - 1 < (hi - lo) * intMax t.format) then failJob s o stBadDescriptor
            else openBags c fuel ext (upLookup s l.id (fun x => { x with cur := some (lo, hi) }))
        | some (lo, hi) =>
          match lookRead s l d.idxVa ext (d.index + d.isize * lo) (d.isize * (hi - lo)) with
          | (s, _, none) => s
          | (s, ext, some w) => openBags c fuel ext (openBag s l (indexList d.isize w))

/-- Check the next descriptor of a core's LOOKUP queue that has not begun. -/
def beginLookup (c : Nat) (s : State) : State :=
  match (s.core c).qLookup.find? (fun e => !e.begun) with
  | none => s
  | some e =>
    let o := e.owner
    let d := pdata e.desc
    if anyPoison e.desc then failJob s o stPoisoned
    else
      let key := s.bound o.job (fld (wd d 0) 63 52)
      match lookRefusal s key d, key with
      | some st, _ => failJob s o st
      | none, none => s
      | none, some k =>
        let l : Lookup := { id := s.nextBag, core := c, engine := slalomOf c, owner := o, desc := d, key := k }
        let s := upCore s c (fun x => { x with qLookup := updFirst (fun e => !e.begun) (fun e => { e with begun := true }) x.qLookup })
        let s := upHedge s (l.engine / 2) (fun h => { h with entryCache := k :: h.entryCache.filter (· != k) })
        { s with lookups := s.lookups ++ [l], nextBag := s.nextBag + 1 }

/-- R103 to R107: the owner checks a descriptor, then opens, classifies and sends out bags while it has room for them; `ext`
is what the flash window delivers of an index list there (log entry 33). -/
def execLookupDescriptor (c : CoreId) (ext : List PWord) (s : State) : Out :=
  .next (whenPowered s fun s =>
    let s := if (s.opening c).isNone then beginLookup c s else s
    match s.opening c with
    | none => s
    | some l => openBags c (2 * (parseLook l.desc).nbags) ext s)

/-! ### Thicket lines (R150 to R153) -/

/-- Sets of a slice of 24 MiB in 16 ways; a line's set is the remainder of its number (log entry 50). -/
def thicketSets : Nat := 24576
def thicketSet (pa : Nat) : Nat := pa / 64 % thicketSets

/-- The lines of a row in a slice, under a tag; none where one of them is missing (R151, R153). -/
def Hedge.lines (h : Hedge) (tag : Nat × Nat) (off n : Nat) : Option (List TLine) :=
  let l := (linesOf off n).filterMap (fun a => h.thicket.find? (fun x => x.tag == some tag && x.pa == a))
  if l.length = (linesOf off n).length then some l else none

/-- The words of a row from its lines, as a reader gets them (R373). -/
def lineWords (l : List TLine) (off n : Nat) : List PWord :=
  ((l.flatMap (fun x => x.data.map (fun e => readCode e.1 e.2))).drop (off % 64 / 8)).take n

/-- A word held with a valid code, or as canonical poison (R374). -/
def codeWord (p : PWord) : Word × BitVec 8 := if p.poison then (0, 0xFE) else (p.data, 0)

/-- A line once it has been read: corrected words and poison go back into it (log entry 117). -/
def TLine.settled (x : TLine) : TLine := { x with data := x.data.map (fun e => codeWord (readCode e.1 e.2)) }

/-- Lines of a slice are read: their words are corrected and counted, or become poison, which is told once (R377, R408). -/
def thicketRead (h : Nat) (l : List TLine) (s : State) : State :=
  let s := upIg s (fun g => { g with
    thicketCe := g.thicketCe + (l.map (fun x => x.data.countP (fun e => synFixes e.2))).sum
    thicketUe := g.thicketUe + (l.map (fun x => x.data.countP (fun e => synBad e.2))).sum })
  let bad := l.flatMap (fun x => (x.data.zipIdx.filter (fun e => synBad e.1.2)).map (fun e => x.pa + 8 * e.2))
  let s := forL bad (fun a s => uePoison s unitThicket h 0xFFFF (BitVec.ofNat 64 (mkPa s.moduleNo 0 a))) s
  upHedge s h (fun x => { x with thicket := x.thicket.map (fun y => if l.contains y then TLine.settled y else y) })

/-- Lines that were used become the most recent. -/
def Hedge.used (h : Hedge) (l : List TLine) : Hedge :=
  { h with thicket := h.thicket.filter (fun x => !l.contains x) ++ l }

/-- Fill one line: in a full set the least recent goes. -/
def Hedge.fill (h : Hedge) (x : TLine) : Hedge :=
  let rest := h.thicket.filter (fun y => !(y.pa == x.pa && y.tag == x.tag))
  let same := rest.filter (fun y => thicketSet y.pa == thicketSet x.pa)
  let rest := if same.length < 16 then rest else dropFirst (fun y => thicketSet y.pa == thicketSet x.pa) rest
  { h with thicket := rest ++ [x] }

/-! ### GATHER_PIECE and HEDGE_PARTIAL (R107, R112, R153) -/

/-- The accumulator format of a bag. -/
def Bag.acc (b : Bag) : Nat := if b.intPath then (if b.wide then 0xC else 0x5) else 0x0

/-- Go on with the codebook of a bag's table in the engines of a hedge; a record that is poison ends the job or the request. -/
def withCb (s : State) (h : Nat) (b : Bag) (f : State → State) : State :=
  let t := (s.slot b.key).entry
  if isCb t.format then
    match hedgeCb h t.codebookId s with
    | (s, true) => f s
    | (s, false) => homeFail s b stPoisoned
  else f s

/-- The codebook block of a POOL operand, from the copy that a hedge's engines hold (R90). -/
def cbBlock (s : State) (h : Nat) (t : TableEntry) : List PWord :=
  if isCb t.format then
    let c := s.cbIn h t.codebookId
    let n := if t.format = 0xA then 2 else 32
    (bytesWords c.entries n ++ [at_ 43 32 t.codebookId ||| c.scale.zeroExtend 64]).map PWord.good
  else []

/-- The POOL of one channel of a piece. -/
def poolReqOf (s : State) (b : Bag) (h piece seq : Nat) (offs : List Nat) : ChReq :=
  let t := (s.slot b.key).entry
  let h1 := at_ 63 56 opPool ||| at_ 55 52 b.acc ||| at_ 51 48 t.format ||| at_ 39 33 (t.stride / 32 - 1) |||
    at_ 32 32 (b2n b.ordered) ||| at_ 31 24 offs.length ||| at_ 22 16 (t.elems / 8 - 1)
  { kind := .adder, lc := b.owner.lc, cid := b.owner.cid, job := some b.owner.job, pa := offs.headD 0, len := t.stride,
    data := cbBlock s h t ++ offs.map (fun a => PWord.good (BitVec.ofNat 64 (mkPa s.moduleNo 0 a))), hdr0 := 0, hdr1 := h1,
    reply := .pool piece seq }

/-- The POOLs of a piece's rows: by channel, at most 64 rows each, in list order. -/
def poolsOf (s : State) (offs : List Nat) : List (Nat × Nat × List Nat) :=
  ((List.range 768).flatMap (fun c =>
    let mine := offs.filter (fun a => s.channel a == c)
    (cutRuns 64 mine.length mine).map (fun l => (c, l)))).zipIdx.map (fun e => (e.2, e.1.1, e.1.2))

/-- Cut a piece: its Thicket hits are pooled here, and the rest is listed in POOLs (R153). -/
def cutPiece (s : State) (b : Bag) (p : Piece) : State :=
  let t := (s.slot b.key).entry
  let h := s.hedge p.stack
  let n := rowWords t.format t.elems
  let tag := (b.key / 4, b.key % 4)
  let may := b.intPath || !b.ordered
  let hit := fun (off : Nat) => if may then h.lines tag off (8 * n) else none
  let offs := p.rows.map (·.2)
  let found := offs.filterMap (fun a => (hit a).map (fun l => (a, l)))
  let z : PoolSum := { part := emptyPartial b.acc t.elems, pooled := 0, mismatched := 0, poison := false }
  let cb := (s.cbIn p.stack t.codebookId).view
  let sum := found.foldl (fun a e => a.row cb t.codebookId b.acc t.format t.elems (lineWords e.2 e.1 n)) z
  let pools := poolsOf s (offs.filter (fun a => (hit a).isNone))
  let k : Contrib := { order := (pools.length, 0, 0), part := sum.part, pooled := sum.pooled, mismatched := sum.mismatched,
                       poison := sum.poison }
  let s := thicketRead p.stack (found.flatMap (·.2)).dedup (upHedge s p.stack (fun h => found.foldl (fun h e => h.used e.2) h))
  upPiece s p.id (fun q => { q with
    cut := true
    pools := pools
    total := pools.length + b2n (!found.isEmpty)
    got := if found.isEmpty then q.got else q.got ++ [(pools.length, k)] })

/-- A POOL of a piece can be issued: the piece has come to its combiner, which has room, and the channel has too. -/
def State.poolReady (s : State) (p : Piece) : Bool :=
  p.sent && opRoom (s.poolsOut p.server) p.lc && (!p.cut || p.pools.any (fun e => (s.chan e.2.1).room p.lc))

/-- A combiner issues POOLs of a piece: none of BE while one of LC is ready (R109). -/
def State.mayPool (s : State) (p : Piece) : Bool :=
  p.sent && (p.lc || !s.pieces.any (fun q => q.lc && q.server == p.server && s.poolReady q))

/-- Send the POOLs of a piece whose channels have room, as far as its combiner has room for them (R109). -/
def sendPools (s : State) (b : Bag) (p : Piece) : State :=
  forL p.pools (fun e s =>
    if (s.chan e.2.1).room b.owner.lc && opRoom (s.poolsOut p.server) p.lc then
      upPiece (enqueue s e.2.1 (poolReqOf s b p.stack p.id e.1 e.2.2)) p.id
        (fun q => { q with pools := q.pools.filter (fun x => x.1 != e.1) })
    else s) s

/-- The first byte of a piece's rows that the Privet check refuses (R353). -/
def State.pieceStop (s : State) (b : Bag) (p : Piece) : Option Nat :=
  let t := (s.slot b.key).entry
  s.poolStop b.owner.cid (8 * rowWords t.format t.elems) (p.rows.map (·.2))

/-- R107: the combiner cuts a piece and sends its POOLs, as far as it and their channels have room. -/
def execGatherPiece (piece : Nat) (s : State) : Out :=
  .next (whenPowered s fun s =>
    match s.pieces.find? (fun p => p.id == piece) with
    | none => s
    | some p =>
      match s.bag p.bag with
      | none => s
      | some b =>
        if s.mayPool p then
          match s.pieceStop b p with
          | some off => bagPrivet s b (mkPa s.moduleNo 0 off)
          | none => withCb s p.stack b fun s =>
            let s := if p.cut then s else cutPiece s b p
            match s.pieces.find? (fun p => p.id == piece) with
            | none => s
            | some p => sendPools s b p
        else s)

/-- Sum partials from left to right. -/
def sumParts : List Partial → Option Partial
  | [] => none
  | p :: l => some (l.foldl Partial.add p)

/-- Contributions joined into one, with its place in R112's order. -/
def joinContribs (order : Nat × Nat × Nat) (z : Partial) (l : List Contrib) : Contrib :=
  { order := order, part := (sumParts (l.map (·.part))).getD z, pooled := (l.map (·.pooled)).sum,
    mismatched := (l.map (·.mismatched)).sum, poison := l.any (·.poison) }

/-- A piece's partials in fixed order (R112): the channels in ascending order, each summed by itself first. -/
def Piece.byChannel (p : Piece) : List Contrib :=
  let got := (sortBy (fun x y => decide (x.1 ≤ y.1)) p.got).map (·.2)
  ((got.map (·.order.1)).dedup).map (fun c =>
    let mine := got.filter (fun k => k.order.1 == c)
    joinContribs (c, 0, 0) (.fps []) mine)

/-- R107, R112: every partial of a piece is in; their sum goes to the owner. -/
def execHedgePartial (piece : Nat) (bad : Option Nat) (s : State) : Out :=
  .next (whenPowered s fun s =>
    match s.pieces.find? (fun p => p.id == piece) with
    | none => s
    | some p =>
      match s.bag p.bag with
      | none => s
      | some b =>
        if p.cut ∧ p.pools.isEmpty ∧ p.got.length = p.total then
          match bad with
          | some lane => arithFault s b.owner unitSlalom p.stack lane 0
          | none =>
            let t := (s.slot b.key).entry
            let got := if b.ordered then p.byChannel else p.got.map (·.2)
            let k := joinContribs (0, p.stack, p.seqNo) (emptyPartial b.acc t.elems) got
            let s := { s with pieces := dropFirst (fun q => q.id == piece) s.pieces }
            issueFor b (upBag s b.id (fun x => { x with left := x.left - 1, got := x.got ++ [k] }))
        else s)

/-! ### Tail rows (R117, R119, R564) -/

/-- Issue the fetch of one tail row: a host-window row is read by DMA, a flash row waits for the NVMe initiator. -/
def fetchTail (id : Nat) (b : Bag) (n : Nat) (r : TailRow) (s : State) : State :=
  let set := fun (st : TailState) (s : State) => upBag s id (fun x => { x with
    tails := updFirst (fun q => q.pos == r.pos) (fun q => { q with state := st }) x.tails })
  let flash := r.space == 2
  let s := upLook s (b.key / 4) (fun x => { x with
    flashFetches := x.flashFetches + b2n flash, hostFetches := x.hostFetches + b2n (!flash) })
  let s := if b.home.isSome then s
    else upLookup s b.lookup (fun x => { x with sum := { x.sum with tailWait := x.sum.tailWait + 1 } })
  if flash then set .asked s else set .issued (startRead s 0 (some b.owner) (s.hwinAddr r.off) n).2

/-- R117, R119: the owner fetches the tail rows of a bag. -/
def execTailRowFetch (bag : Nat) (s : State) : Out :=
  .next (whenPowered s fun s =>
    match s.bag bag with
    | none => s
    | some b =>
      let t := (s.slot b.key).entry
      let rows := b.tails.filter (fun r => r.state == .wanted)
      let n := 8 * rowWords t.format t.elems
      let shut := fun (r : TailRow) => ([r.off, r.off + n - 1]).find? (fun a => !s.privetOk b.owner.cid r.space a false)
      match rows.findSome? (fun r => (shut r).map (fun a => mkPa s.moduleNo r.space a)) with
      | some pa => bagPrivet s b pa
      | none => forL rows (fetchTail bag b n) s)

/-- The words of a tail row that has arrived. -/
def tailWords (s : State) (b : Bag) (r : TailRow) (n : Nat) : Option (List PWord) :=
  match r.state with
  | .here d => some d
  | .issued =>
    if r.space = 1 then
      match s.hostReadOf 0 b.owner (s.hwinAddr r.off) n with
      | some h => if h.done then some h.words else none
      | none => none
    else none
  | _ => none

/-- R117: a tail row arrives; its header is checked and it is pooled. -/
def execTailRowArrival (bag pos : Nat) (s : State) : Out :=
  .next (whenPowered s fun s =>
    match s.bag bag with
    | none => s
    | some b =>
      let t := (s.slot b.key).entry
      let n := rowWords t.format t.elems
      match b.tails.find? (fun r => r.pos == pos) with
      | none => s
      | some r =>
        match tailWords s b r (8 * n) with
        | none => s
        | some w =>
          withCb s (b.engine / 2) b fun s =>
          let z : PoolSum := { part := emptyPartial b.acc t.elems, pooled := 0, mismatched := 0, poison := false }
          let a := z.row (s.cbIn (b.engine / 2) t.codebookId).view t.codebookId b.acc t.format t.elems w
          let k : Contrib := { order := (2, pos, 0), part := a.part, pooled := a.pooled, mismatched := a.mismatched,
                               poison := a.poison }
          let s := if r.space = 1 then
              { s with link := { s.link with reads := dropFirst (fun h =>
                  h.owner == some b.owner && h.fn == 0 && h.addr == s.hwinAddr r.off && h.len == 8 * n && h.done) s.link.reads } }
            else s
          upBag s bag (fun x => { x with tails := dropFirst (fun q => q.pos == pos) x.tails, got := x.got ++ [k] }))

/-! ### Run-ahead (R154 to R156) -/

/-- The index of a bag not yet opened, where its offsets and indices lie in the scratchpad or in local DRAM. -/
def peekIndex (s : State) (l : Lookup) (bag row : Nat) : Option Nat :=
  let d := parseLook l.desc
  let read := fun (a n : Nat) =>
    if d.idxVa then
      match translate s (uSlalom l.engine) l.owner.cid a false with
      | .ok pa => if s.route pa = .dram then some (s.dramRead (paOff pa) n) else none
      | _ => none
    else if a + n ≤ scratchBytes then some (s.sp l.core a n)
    else none
  match read (d.offsets + 4 * bag) 4, read (d.offsets + 4 * bag + 4) 4 with
  | some a, some b =>
    if leNat a + row < leNat b then (read (d.index + d.isize * (leNat a + row)) d.isize).map leNat else none
  | _, _ => none

/-- R154, R155: engine e reads a row ahead; what would fault, wait or find no room is dropped. -/
def execRunAheadRead (e : Fin 24) (bag row : Nat) (s : State) : Out :=
  .next (whenPowered s fun s =>
    match s.lookups.find? (fun l => l.engine == e.val && decide (l.nextBag < (parseLook l.desc).nbags)) with
    | none => s
    | some l =>
      let t := (s.slot l.key).entry
      if l.nextBag ≤ bag ∧ bag < l.nextBag + 256 ∧ bag < (parseLook l.desc).nbags then
        match peekIndex s l bag row with
        | none => s
        | some i =>
          if t.rowCount ≤ i then s
          else
            match rowAt s (uSlalom e) l.owner.cid t false i with
            | .dram off =>
              let s := countRow l.key (uSlalom e) l.owner.cid t i s
              let h := s.stack off
              if (s.poolStop l.owner.cid (8 * rowWords t.format t.elems) [off]).isSome then upTr s h (fun r => { r with specDrops := r.specDrops + 1 })
              else if (s.chan (s.channel off)).room false && !s.busyLines (linesOf off (8 * rowWords t.format t.elems)) then
                let a := off / 64 * 64
                let n := (linesOf off (8 * rowWords t.format t.elems)).length
                let s := dramTouch s a (64 * n)
                let f : TFill := { id := s.nextPiece, table := l.key / 4, vslot := l.key % 4, pa := a, lines := n,
                                   data := s.dramWords (a / 8) (8 * n), cancelled := false }
                upHedge { s with nextPiece := s.nextPiece + 1 } h (fun x => { x with fills := x.fills ++ [f] })
              else s
            | _ => s
      else s)

/-- R150, R156: a run-ahead read's data arrives; a cancelled fill is discarded. -/
def execThicketFill (h : HedgeId) (fill : Nat) (s : State) : Out :=
  .next (whenPowered s fun s =>
    match (s.hedge h).fills.find? (fun f => f.id == fill) with
    | none => s
    | some f =>
      let s := upHedge s h (fun x => { x with fills := dropFirst (fun g => g.id == fill) x.fills })
      if f.cancelled then s
      else upHedge s h (fun x => (List.range f.lines).foldl (fun x i =>
        x.fill { tag := some (f.table, f.vslot), pa := f.pa + 64 * i, data := ((f.data.drop (8 * i)).take 8).map codeWord }) x))

/-! ### BAG_FINISH (R111, R112, R114, R121) -/

/-- Lexicographic order of contributions. -/
def orderLe (a b : Contrib) : Bool :=
  let x := a.order
  let y := b.order
  decide (x.1 < y.1) || (x.1 == y.1 && (decide (x.2.1 < y.2.1) || (x.2.1 == y.2.1 && decide (x.2.2 ≤ y.2.2))))

/-- The partials in R112's order: hedge partials, then remote partials, then tail rows. -/
def orderedParts (l : List Contrib) : List Partial :=
  let l := sortBy orderLe l
  let hedge := (List.range 12).filterMap (fun h =>
    sumParts ((l.filter (fun k => k.order.1 == 0 && k.order.2.1 == h)).map (·.part)))
  hedge ++ (l.filter (fun k => k.order.1 != 0)).map (·.part)

/-- The whole bag as one contribution. -/
def Bag.total (b : Bag) (elems : Nat) : Contrib :=
  let z := emptyPartial b.acc elems
  let p := if b.ordered && !b.intPath then sumParts (orderedParts b.got) else sumParts (b.got.map (·.part))
  { joinContribs (0, 0, 0) z b.got with part := p.getD z }

/-- Element result y of R111, for MODE sum. -/
def elementSum (cbScale : BitVec 32) (t : TableEntry) : Partial → List (BitVec 32)
  | .ints l => l.map (fun i => f32mul (f32ofInt i) (if isCb t.format then cbScale else t.tableScale))
  | .fps l =>
    if t.format = 0x5 ∨ t.format = 0x6 ∨ t.format = 0x7 ∨ t.format = 0x8 ∨ t.format = 0x9 then
      l.map (fun x => f32mul x t.tableScale)
    else l

/-- The bytes of an output vector (R111, R114). -/
def bagBytes (cbScale : BitVec 32) (d : LookD) (t : TableEntry) (k : Contrib) : List Byte :=
  if k.pooled = 0 then List.replicate (t.elems * outElem d.ofmt) 0
  else
    match d.ofmt, k.part with
    | 0x5, .ints l => l.flatMap (fun i => leBytes 4 (wrapNat 32 i))
    | 0xC, .ints l => l.flatMap (fun i => leBytes 8 (wrapNat 64 i))
    | f, p =>
      let y := elementSum cbScale t p
      let y := if d.mean then y.map (fun x => r32 ((d32 x).div (Ev.ofInt k.pooled))) else y
      if f = 0x1 then y.flatMap (fun x => leBytes 2 (bf16.round (d32 x)).1) else y.flatMap (fun x => leBytes 4 x.toNat)

/-- A lookup's fields added to its job's (R106). -/
def LookSum.add (a b : LookSum) : LookSum :=
  { invalid := satNat 32 (a.invalid + b.invalid), pad := satNat 32 (a.pad + b.pad),
    mismatched := satNat 32 (a.mismatched + b.mismatched), empty := satNat 32 (a.empty + b.empty),
    tailDef := satNat 32 (a.tailDef + b.tailDef), tailWait := satNat 32 (a.tailWait + b.tailWait),
    poisoned := satNat 32 (a.poisoned + b.poisoned) }

/-- The lookup summary (Table — lookup summary). -/
def LookSum.words (a : LookSum) : List Word :=
  let pair := fun (x y : Nat) => at_ 63 32 (satNat 32 x) ||| at_ 31 0 (satNat 32 y)
  [pair a.invalid a.pad, pair a.mismatched a.empty, pair a.tailDef a.tailWait,
   at_ 63 32 (satNat 32 a.poisoned) ||| (if a.tailDef = 0 then 0 else stTailDefaulted.zeroExtend 64)]

/-- R106: once every bag is written, the summary is, and the descriptor completes. -/
def finishLookup (s : State) (id : Nat) : State :=
  match s.lookups.find? (fun l => l.id == id) with
  | none => s
  | some l =>
    let d := parseLook l.desc
    if l.nextBag = d.nbags ∧ l.bagsOpen = 0 then
      let i := (s.lookups.filter (fun x => x.core == l.core)).findIdx (fun x => x.id == id)
      let s := spWrite s l.core l.owner d.sumAt (wordsBytes l.sum.words)
      let s := upJob s l.owner.job (fun j => { j with sums := j.sums.add l.sum })
      let s := { s with lookups := s.lookups.filter (fun x => x.id != id) }
      upCore s l.core (fun k => { k with qLookup := k.qLookup.eraseIdx i })
    else s

/-- The owner scales, divides, converts and writes a bag. -/
def writeBag (s : State) (b : Bag) (l : Lookup) (t : TableEntry) (k : Contrib) : State :=
  let d := parseLook l.desc
  let a := d.out + b.bagNo * d.stride
  let s := if k.poison then spPut s b.core b.owner a (List.replicate (t.elems * outElem d.ofmt / 8) PWord.bad)
    else spWrite s b.core b.owner a (bagBytes (s.cbIn (b.engine / 2) t.codebookId).scale d t k)
  let s := if d.counts then spWrite s b.core b.owner (d.countAt + 4 * b.bagNo) (leBytes 4 k.pooled) else s
  let s := upLook s (b.key / 4) (fun r => { r with
    mismatched := r.mismatched + k.mismatched, emptyBags := r.emptyBags + b2n (k.pooled == 0),
    poisonedBags := r.poisonedBags + b2n k.poison })
  let s := upLookup s l.id (fun x => { x with
    bagsOpen := x.bagsOpen - 1
    sum := { x.sum with
      mismatched := x.sum.mismatched + k.mismatched, empty := x.sum.empty + b2n (k.pooled == 0),
      poisoned := x.sum.poisoned + b2n k.poison } })
  finishLookup (dropBag s b.id) l.id

/-- Responses of at most 4,096 bytes with one TXN. -/
def respondAll (m : Nat) (lc : Bool) (cid : BitVec 12) (txn : BitVec 16) (l : List PWord) (s : State) : State :=
  forL (cutRuns 512 l.length l) (fun w s => sendResp s m lc 5 cid txn stOk w) s

/-- The home returns its partial with the trailer in the last response (R116, R540, R544): a trailer that does not fit the
last 4,096 bytes of the partial goes with its own (R540 allows 4,160). -/
def answerGather (s : State) (b : Bag) (m : Nat) (txn : BitVec 16) (lc : Bool) (k : Contrib) : State :=
  let l := partialWords b.acc k.part k.poison
  let trailer := [PWord.good (at_ 63 32 k.pooled ||| at_ 31 0 b.invalid), PWord.good (at_ 63 32 b.pad ||| at_ 31 0 k.mismatched)]
  let last := (l.length - 1) / 512 * 512
  let s := respondAll m lc b.owner.cid txn (l.take last) s
  let s := sendResp s m lc 5 b.owner.cid txn stOk (l.drop last ++ trailer)
  slotFreed (dropBag s b.id) m lc txn

/-- R111: every contribution of a bag is in. -/
def execBagFinish (bag : Nat) (bad : Option Nat) (s : State) : Out :=
  .next (whenPowered s fun s =>
    match s.bag bag with
    | none => s
    | some b =>
      if b.indices.isNone ∧ b.left = 0 ∧ b.remote.isEmpty ∧ b.tails.isEmpty then
        match bad with
        | some lane => arithFault s b.owner unitSlalom (b.engine / 2) lane 0
        | none =>
          let t := (s.slot b.key).entry
          let k := b.total t.elems
          match b.home, s.lookups.find? (fun l => l.id == b.lookup) with
          | some (m, txn, lc), _ => answerGather s b m txn lc k
          | none, some l => withCb s (b.engine / 2) b fun s => writeBag s b l t k
          | none, none => dropBag s bag
      else s)

/-! ### GATHER_REQ responses and waiting bags -/

/-- R116: the partial of a peer's GATHER_REQ has arrived whole, its words with the trailer at their end. -/
def gatherDone (s : State) (id m seq : Nat) (txn : BitVec 16) (words : List PWord) : State :=
  match s.bag id with
  | none => s
  | some b =>
    let n := words.length - 2
    let part := words.take n
    if anyPoison (words.drop n) then failJob s b.owner stPoisoned
    else
    let w := pdata (words.drop n)
    let v : Partial := match b.acc with
      | 0x0 => .fps (f32s (pdata part))
      | 0x5 => .ints ((f32s (pdata part)).map (·.toInt))
      | _ => .ints ((pdata part).map (·.toInt))
    let k : Contrib := { order := (1, m, seq), part := v, pooled := fld (wd w 0) 63 32, mismatched := fld (wd w 1) 31 0,
                         poison := anyPoison part }
    let inv := fld (wd w 0) 31 0
    let pad := fld (wd w 1) 63 32
    let s := upLook s (b.key / 4) (fun r => { r with invalid := r.invalid + inv, pad := r.pad + pad })
    let s := upLookup s b.lookup (fun x => { x with sum := { x.sum with
      invalid := x.sum.invalid + inv, pad := x.sum.pad + pad } })
    upBag s id (fun x => { x with remote := x.remote.filter (· != txn), got := x.got ++ [k] })

/-- R365: a waiting tile walks again; a bag or a gradient ADD that it held goes on.  A tile of a GATHER_REQ whose
page is now invalid makes the home answer so. -/
def execTileResume (tile : Nat) (s : State) : Out :=
  .next (whenPowered s fun s =>
    match s.xl.waiting.find? (fun t => t.id == tile) with
    | none => s
    | some t =>
      let id := (t.bag.map (·.1)).getD 0
      let home := (s.bag id).filter (fun b => t.bag.isSome && b.home.isSome)
      match home, decide (pteState (s.node t.leaf) = stInvalid) with
      | some b, true =>
        homeFail { s with xl := { s.xl with waiting := dropFirst (fun x => x.id == tile) s.xl.waiting } } b stUnmapped
      | _, _ =>
        let r := resumeTile s t
        if r.xl.waiting.any (fun x => x.id == tile) then r else if t.bag.isSome then classify r id else runGrads r)

end Sys2Proof.Machine
end

