-- ==== Sys2Proof/Machine/Lanea.lean ====
section
/-!
DEFINITION. The receiving side of Lanea (chapter 18): frames and their checks (R539, R540), order and acknowledgement
(R541 to R543), the home's execution of requests (R544), responses, credits (R548, R549), the census and its audit
(R550 to R552), ports (R533) and reachability (R538).
-/
namespace Sys2Proof.Machine

/-! ### The header (Table — Lanea header) -/

def laneaKind (m : LaneaMsg) : Nat := fld m.w0 59 56
def laneaClass (m : LaneaMsg) : Nat := fld m.w0 55 54
def laneaResp (m : LaneaMsg) : Bool := bit m.w0 53
def laneaSrc (m : LaneaMsg) : Nat := fld m.w0 51 46
def laneaCid (m : LaneaMsg) : BitVec 12 := m.w0.extractLsb' 28 12
def laneaPsn (m : LaneaMsg) : BitVec 32 := m.w1.extractLsb' 32 32
def laneaTxn (m : LaneaMsg) : BitVec 16 := m.w1.extractLsb' 16 16
def laneaStatus (m : LaneaMsg) : Status := m.w1.extractLsb' 0 16
def laneaLc (m : LaneaMsg) : Bool := laneaClass m == 1

/-- The class and the operands that a kind allows (Table — Lanea kinds). -/
def laneaOperandsOk (m : LaneaMsg) : Bool :=
  let control := laneaClass m == 2
  let request := !laneaResp m
  match laneaKind m with
  | 1 => !control && (!request || (fld m.w2 63 56 == 0 && fld m.w3 63 13 == 0 && m.payload.isEmpty))
  | 2 => !control && (!request || (fld m.w2 63 56 == 0 && m.w3 == 0))
  | 3 => !control && (!request || (m.w2 == 0 && m.w3 == 0))
  | 4 => laneaClass m == 0 && (!request || fld m.w2 35 0 == 0)
  | 5 => !control && (!request || (fld m.w2 31 13 == 0 && m.w3 == 0 && decide (m.payload.length ≤ 512)))
  | 6 => control && request && m.w3 == 0 && m.payload.isEmpty
  | 7 => control && request && m.w2 == 0 && m.w3 == 0 && m.payload.length == 6
  | 8 => control && request && m.w3 == 0 && m.payload.isEmpty
  | _ => false

/-- A frame that the receiver takes: no reserved value, and fields that agree (R540). -/
def laneaOk (m : LaneaMsg) : Bool :=
  fld m.w0 63 60 == 1 && (bit m.w0 52 || !anyPoison m.payload) && laneaClass m != 3 && fld m.w0 27 13 == 0 && fld m.w0 12 0 == 8 * m.payload.length &&
    (laneaResp m || laneaStatus m == 0) && (laneaClass m != 2 || laneaPsn m == 0) && laneaOperandsOk m

/-! ### The home executes a request (R544) -/

/-- A request has executed: its response goes, where it has one, and its slot is emptied. -/
def homeAnswer (m : LaneaMsg) (r : Option (Status × List PWord)) (s : State) : State :=
  let p := laneaSrc m
  let s := match r with
    | some (st, l) => sendResp s p (laneaLc m) (laneaKind m) (laneaCid m) (laneaTxn m) st l
    | none => s
  slotFreed s p (laneaLc m) (laneaTxn m)

/-- What forbids an access of a peer to `n` bytes at a physical address: the address is not this module's local DRAM (R340),
or the Privet check refuses it (R338, R353). -/
def homeCheck (s : State) (cid : BitVec 12) (pa n : Nat) (write : Bool) : State × Option Status :=
  let off := paOff pa
  if paModule pa ≠ s.moduleNo ∨ paSpace pa ≠ 0 ∨ dramBytes < off + n then (s, some stProtection)
  else if off % 8 ≠ 0 then (s, some stBadDescriptor)
  else if (linesOf off n).all (fun l => s.privetOk cid 0 l write) then (s, none)
  else (upTr s (s.stack off) (fun r => { r with privetRefused := r.privetRefused + 1 }), some stProtection)

def homeRead (m : LaneaMsg) (s : State) : State :=
  let pa := fld m.w2 55 0
  let n := fld m.w3 12 0
  if n < 8 ∨ 4096 < n ∨ n % 8 ≠ 0 then homeAnswer m (some (stBadDescriptor, [])) s
  else
    match homeCheck s (laneaCid m) pa n false with
    | (s, some st) => homeAnswer m (some (st, [])) s
    | (s, none) =>
      let off := paOff pa
      homeAnswer m (some (stOk, s.dramWords (off / 8) (n / 8))) (dramTouch s off n)

def homeWrite (m : LaneaMsg) (s : State) : State :=
  let pa := fld m.w2 55 0
  let n := 8 * m.payload.length
  match homeCheck s (laneaCid m) pa n true with
  | (s, some st) => homeAnswer m (some (st, [])) s
  | (s, none) => homeAnswer m none (afterWrite (dramPut s (paOff pa) m.payload) (paOff pa) n)

/-- The parity of the arrival word at a local offset, for firmware (R323, R326). -/
def arrivalAt (cid : BitVec 12) (off : Nat) : Option Nat :=
  if cid ≠ 0 then none
  else if off = Config.arrivalOffset 0 then some 0
  else if off = Config.arrivalOffset 1 then some 1
  else none

/-- An ADD in address form: an adder packet, whose operations with data answer with it. -/
def homeAdder (m : LaneaMsg) (s : State) : State :=
  let h0 := (m.payload.getD 0 PWord.bad)
  let h1 := (m.payload.getD 1 PWord.bad)
  let operand := m.payload.drop 2
  let p := parseAdder h0.data h1.data
  let refuse := fun (st : Status) (s : State) => homeAnswer m (some (st, [])) s
  if h0.poison || h1.poison then refuse stPoisoned s
  else
    match adderRefusal h0.data h1.data operand.length with
    | some st => refuse st s
    | none =>
      if p.op = opPool then refuse stBadDescriptor s
      else
        match homeCheck s (laneaCid m) (p.target / 8 * 8) (if p.single then 8 else p.len) true with
        | (s, some st) => refuse st s
        | (s, none) =>
          match (if p.op = opAdd then arrivalAt (laneaCid m) (paOff p.target) else none) with
          | some parity => homeAnswer m none (s.addArrival parity (wd (pdata operand) 0))
          | none =>
            let (s, data) := adderDo s p (paOff p.target) operand
            homeAnswer m (if data.isEmpty then none else some (stOk, data)) s

/-- An ADD in gradient form is held until it can execute (R323, R326), which is at once where no close holds it. -/
def homeGradient (m : LaneaMsg) (s : State) : State :=
  let g : HeldGrad := { peer := laneaSrc m, txn := laneaTxn m, cid := laneaCid m, table := fld m.w2 63 52,
                        tv := m.w2.extractLsb' 36 16, row := m.w3.toNat, vec := m.payload }
  runGrads { s with upd := { s.upd with heldGrads := s.upd.heldGrads ++ [g] } }

/-- A GATHER_REQ: a bag of this home (R116), over the version of the TV it names (R559). -/
def homeGather (m : LaneaMsg) (s : State) : State :=
  let w := m.w2
  let table := fld w 63 52
  let n := fld w 12 0
  let isz := if bit w 32 then 8 else 4
  let width := fld w 35 34
  let refuse := fun (st : Status) => homeAnswer m (some (st, [])) s
  let tv : BitVec 16 := w.extractLsb' 36 16
  if width = 3 then refuse stReservedNonzero
  else
    match ((List.range 4).map (fun i => 4 * table + i)).find? (fun k => (s.slot k).state != .free && (s.slot k).tv == tv) with
    | none => refuse stUnmapped
    | some key =>
      if 8 * m.payload.length < n * isz ∨ (width ≠ 0 ∧ !(s.slot key).entry.intTable) then refuse stBadDescriptor
      else if anyPoison m.payload then refuse stPoisoned
      else
        let b : Bag :=
          { id := s.nextBag, home := some (laneaSrc m, laneaTxn m, laneaLc m), lookup := 0, core := 0, bagNo := 0, engine := 0,
            owner := ⟨0, 0, laneaCid m, laneaLc m, false⟩, key := key, idx64 := bit w 32
            indices := some ((indexList isz (wordsBytes (pdata m.payload))).take n), intPath := width != 0
            wide := width == 2, ordered := bit w 33, dflt := false }
        classify { s with bags := s.bags ++ [b], nextBag := s.nextBag + 1 } b.id

/-! ### The requester takes a response (R544, R545) -/

/-- The words of a whole partial, with the trailer after them. -/
def Bag.replyWords (b : Bag) (s : State) : Nat :=
  (partialWords b.acc (emptyPartial b.acc (s.slot b.key).entry.elems) false).length + 2

/-- What the home forbids ends the requesting job, and the event carries the address and the channel (R353); of a request that
names a row and no address, the home alone knows these, and they are free values (log entry 121). -/
def homeForbids (s : State) (o : Owner) (r : LReq) : State :=
  match r.pa with
  | some pa => jobFault s o stProtection (BitVec.ofNat 64 pa) (if paSpace pa = 0 then s.channel (paOff pa) else 0xFFFF)
  | none =>
    let (x, s) := takeFree s
    let (y, s) := takeFree s
    jobFault s o stProtection (BitVec.ofNat 64 x) y

/-- A response completes its request, or ends the requesting job. -/
def takeResponse (m : LaneaMsg) (s : State) : State :=
  let mine := fun (r : LReq) => r.txn == laneaTxn m && r.peer == laneaSrc m && r.lc == laneaLc m && r.kind == laneaKind m
  let drop := fun (s : State) => { s with fab := { s.fab with reqs := dropFirst mine s.fab.reqs } }
  let fill := fun (l : List PWord) (s : State) =>
    { s with fab := { s.fab with reqs := updFirst mine (fun r => { r with got := r.got ++ l }) s.fab.reqs } }
  match s.fab.reqs.find? mine with
  | none => s
  | some r =>
    if laneaStatus m ≠ stOk then
      let s := drop s
      match r.owner with
      | none => s
      | some o =>
        if !s.lives o.job then s
        else if r.kind = 4 ∧ laneaStatus m = stJobFault then jobFaultAll s causeStaging
        else if laneaStatus m = stProtection then homeForbids s o r
        else failJob s o (laneaStatus m)
    else
      match r.kind with
      | 1 => if (r.owner.map (fun o => s.lives o.job)).getD false then fill m.payload s else drop s
      | 5 =>
        match r.bag.bind s.bag with
        | none => drop s
        | some b =>
          let got := r.got ++ m.payload
          if b.replyWords s ≤ got.length then gatherDone (drop s) b.id r.peer r.dst r.txn got else fill m.payload s
      | _ => drop s

/-! ### Order, acknowledgement and slots (R541 to R543, R549) -/

/-- Execute one message of a channel. -/
def executeMsg (m : LaneaMsg) (s : State) : State :=
  if laneaResp m then takeResponse m s
  else
    match laneaKind m with
    | 1 => homeRead m s
    | 2 => homeWrite m s
    | 3 => homeAdder m s
    | 4 => homeGradient m s
    | _ => homeGather m s

/-- The audit of a class that is still to be made. -/
def Peer.audit (p : Peer) (lc : Bool) : Option Audit := if lc then p.auditLc else p.auditBe
def setAudit (s : State) (m : Nat) (lc : Bool) (a : Option Audit) : State :=
  upPeer s m (fun p => if lc then { p with auditLc := a } else { p with auditBe := a })

/-- At the moment every message up to LAST_PSN is here, OCC and FREED are taken (R551). -/
def snapAudit (s : State) (m : Nat) (lc : Bool) : State :=
  match (s.peer m).audit lc with
  | none => s
  | some a =>
    let c := s.lchan m lc
    if a.snap.isNone && seqLe a.last c.psnRx then
      let occ := c.slots.countP (fun e => seqLe e.1 a.last)
      setAudit s m lc (some { a with snap := some (BitVec.ofNat 32 occ, c.freed) })
    else s

/-- The lines of local DRAM that a request of a peer reads or writes. -/
def homeLines (m : LaneaMsg) : List Nat :=
  if laneaResp m then []
  else
    match laneaKind m with
    | 1 => linesOf (paOff (fld m.w2 55 0)) (fld m.w3 12 0)
    | 2 => linesOf (paOff (fld m.w2 55 0)) (8 * m.payload.length)
    | 3 =>
      let p := parseAdder (m.payload.getD 0 PWord.bad).data (m.payload.getD 1 PWord.bad).data
      linesOf (paOff p.target) (if p.single then 8 else p.len)
    | _ => []

/-- A request that must follow requests which wait for its lines is held, and with it what comes after it (R66, R543). -/
def State.homeHeld (s : State) (m : LaneaMsg) : Bool := s.busyLines (homeLines m)

/-- The next message in order: the channel passes it, and it executes. -/
def inOrder (m : LaneaMsg) (s : State) : State :=
  let p := laneaSrc m
  let lc := laneaLc m
  executeMsg m (snapAudit (upLchan s p lc (fun c => { c with psnRx := laneaPsn m })) p lc)

/-- Messages that arrived early follow, in order. -/
def drainEarly (p : Nat) (lc : Bool) : Nat → State → State
  | 0, s => s
  | fuel + 1, s =>
    let c := s.lchan p lc
    match c.early.find? (fun e => e.1 == c.psnRx + 1) with
    | none => s
    | some e =>
      if s.homeHeld e.2 then raiseLines s lc (homeLines e.2)
      else
        drainEarly p lc fuel
          (inOrder e.2 (upLchan s p lc (fun c => { c with early := c.early.filter (fun x => x.1 != e.1) })))

/-- A request or response of a channel arrives. -/
def channelMsg (port : Nat) (m : LaneaMsg) (s : State) : State :=
  let p := laneaSrc m
  let lc := laneaLc m
  let psn := laneaPsn m
  let c := s.lchan p lc
  if !c.started then s
  else if seqLe psn c.psnRx || c.early.any (fun e => e.1 == psn) then
    sendAck (drainEarly p lc c.early.length (upPort s port (fun q => { q with dupDrops := q.dupDrops + 1 }))) p
  else if !laneaResp m && decide (s.grant lc ≤ c.slots.length) then upPort s port (fun q => { q with overruns := q.overruns + 1 })
  else
    let s := if laneaResp m then s else upLchan s p lc (fun c => { c with slots := c.slots ++ [(psn, laneaTxn m)] })
    if psn = c.psnRx + 1 ∧ !s.homeHeld m then sendAck (drainEarly p lc c.early.length (inOrder m s)) p
    else if psn = c.psnRx + 1 then
      raiseLines (upLchan s p lc (fun c => { c with early := c.early ++ [(psn, m)] })) lc (homeLines m)
    else upLchan s p lc (fun c => { c with early := c.early ++ [(psn, m)] })

/-- A Lanea frame arrives on a port that is up: a malformed one is discarded and counted, one that is not for this module or
from no module of its domain is discarded. -/
def receive (port : Nat) (m : LaneaMsg) (f : State → State) (s : State) : State :=
  whenPowered s fun s =>
    if !(s.port port).up then s
    else
      let s := upPort s port (fun q => { q with rxFrames := q.rxFrames + 1 })
      if !laneaOk m then upPort s port (fun q => { q with icrcErrors := q.icrcErrors + 1 })
      else if fld m.w0 45 40 ≠ s.moduleNo ∨ !s.peerList.contains (laneaSrc m) then s
      else f s

/-- A request of a kind. -/
def requestOf (kind port : Nat) (m : LaneaMsg) (s : State) : State :=
  receive port m (fun s => if laneaKind m = kind ∧ !laneaResp m then channelMsg port m s else s) s

def execLaneaRead (port : Fin 32) (m : LaneaMsg) (s : State) : Out :=
  guardWf (.laneaRead port m) "LANEA_READ" (requestOf 1 port m s)

def execLaneaWrite (port : Fin 32) (m : LaneaMsg) (s : State) : Out :=
  guardWf (.laneaWrite port m) "LANEA_WRITE" (requestOf 2 port m s)

def execLaneaAddAddress (port : Fin 32) (m : LaneaMsg) (s : State) : Out :=
  guardWf (.laneaAddAddress port m) "LANEA_ADD_ADDRESS" (requestOf 3 port m s)

def execLaneaAddGradient (port : Fin 32) (m : LaneaMsg) (s : State) : Out :=
  guardWf (.laneaAddGradient port m) "LANEA_ADD_GRADIENT" (requestOf 4 port m s)

def execGatherReq (port : Fin 32) (m : LaneaMsg) (s : State) : Out :=
  guardWf (.gatherReq port m) "GATHER_REQ" (requestOf 5 port m s)

/-- R544: a response arrives. -/
def execLaneaResponse (port : Fin 32) (m : LaneaMsg) (s : State) : Out :=
  guardWf (.laneaResponse port m) "LANEA_RESPONSE"
    (receive port m (fun s => if laneaResp m then channelMsg port m s else s) s)

/-! ### Link control -/

/-- R548: CREDIT carries FREED of both classes. -/
def execLaneaCredit (port : Fin 32) (m : LaneaMsg) (s : State) : Out :=
  guardWf (.laneaCredit port m) "LANEA_CREDIT" (receive port m (fun s =>
    let p := laneaSrc m
    if laneaKind m = 6 then creditChan (creditChan s p true (m.w2.extractLsb' 32 32)) p false (m.w2.extractLsb' 0 32) else s) s)

/-- R542: ACK carries the PSNs received of both classes. -/
def execLaneaAck (port : Fin 32) (m : LaneaMsg) (s : State) : Out :=
  guardWf (.laneaAck port m) "LANEA_ACK" (receive port m (fun s =>
    let p := laneaSrc m
    if laneaKind m = 8 then ackChan (ackChan s p true (m.w2.extractLsb' 32 32)) p false (m.w2.extractLsb' 0 32) else s) s)

/-- The body of a census (Table — census body), and the state with the census counted (log entry 56). -/
def sendCensus (s : State) (m : Nat) : State :=
  let s := upPeer s m (fun p => { p with censusSeq := p.censusSeq + 1 })
  let a := s.lchan m true
  let b := s.lchan m false
  let pair := fun (x y : BitVec 32) => (x.zeroExtend 64 <<< 32) ||| y.zeroExtend 64
  let body : List Word := [pair s.time.powerUps (s.peer m).censusSeq, pair a.psnTx (BitVec.ofNat 32 a.held),
    pair a.returned a.freed, pair b.psnTx (BitVec.ofNat 32 b.held), pair b.returned b.freed, pair a.psnRx b.psnRx]
  let l := body.map PWord.good
  wire s m (laneaW0 s m 7 2 false 0 l) 0 0 0 l

/-- The part of a census for one class: an audit to be made, and the sender's FREED and acknowledgement. -/
def censusClass (m : Nat) (lc : Bool) (last held returned freed ack : BitVec 32) (s : State) : State :=
  let s := setAudit s m lc (some { last := last, held := held, returned := returned })
  snapAudit (creditChan (ackChan s m lc ack) m lc freed) m lc

/-- R550, R553: a census arrives. -/
def execCensus (port : Fin 32) (m : LaneaMsg) (s : State) : Out :=
  guardWf (.census port m) "CENSUS" (receive port m (fun s =>
    if laneaKind m = 7 ∧ !anyPoison m.payload then
      let p := laneaSrc m
      let d := pdata m.payload
      let hi := fun (i : Nat) => (wd d i).extractLsb' 32 32
      let lo := fun (i : Nat) => (wd d i).extractLsb' 0 32
      let s := if (s.peer p).powerUps = some (hi 0) then s else restartPeer s p
      let was := (s.peer p).reachable
      let now := !(s.upPorts p).isEmpty
      let s := upPeer s p (fun q => { q with powerUps := some (hi 0), lastCensus := s.ticker, reachable := now })
      let s := if now && !was then fabricEvent s flPeerReachable 0xFF p else s
      let s := censusClass p true (hi 1) (lo 1) (hi 2) (lo 2) (hi 5) s
      censusClass p false (hi 3) (lo 3) (hi 4) (lo 4) (lo 5) s
    else s) s)

/-- R550: a census to a reachable peer, every 100 microseconds. -/
def execCensusSend (peer : Fin 64) (s : State) : Out :=
  .next (whenPowered s fun s =>
    if (s.peer peer).reachable ∧ due s (mkPeer peer) 100000 then sendCensus (mark s (mkPeer peer) 100000) peer else s)

/-- R551, R552: the audit of one class. -/
def execCensusAudit (peer : Fin 64) (lc : Bool) (s : State) : Out :=
  .next (whenPowered s fun s =>
    match (s.peer peer).audit lc with
    | none => s
    | some a =>
      match a.snap with
      | none => s
      | some (occ, freed) =>
        let sum := a.held + occ + (freed - a.returned)
        let s := setAudit s peer lc none
        let s := { s with fab := { s.fab with censusChecked := s.fab.censusChecked + 1 } }
        if sum = BitVec.ofNat 32 (s.grant lc) then s
        else
          let pair := fun (x y : BitVec 32) => (x.zeroExtend 64 <<< 32) ||| y.zeroExtend 64
          raiseEvent { s with fab := { s.fab with auditMismatch := s.fab.auditMismatch + 1 } } evCreditAudit 0
            (at_ 63 58 peer ||| at_ 57 56 (b2n lc) ||| sum.zeroExtend 64) (pair a.held occ) (pair freed a.returned))

/-! ### Retransmission, ports, reachability -/

/-- The time to wait after a message's last transmission (R543). -/
def retransmitAfter (tries : Nat) : Nat := min (25000 * 2 ^ tries) 1600000

/-- R543. -/
def execLaneaRetransmit (peer : Fin 64) (lc : Bool) (psn : BitVec 32) (s : State) : Out :=
  .next (whenPowered s fun s =>
    match (s.lchan peer lc).unacked.find? (fun u => u.psn == psn) with
    | none => s
    | some u =>
      if u.sentAt + retransmitAfter u.tries ≤ s.ticker ∧ !(s.upPorts peer).isEmpty then
        let (p, s) := pickPort s peer
        let s := upPort s p (fun q => { q with retransmits := q.retransmits + 1 })
        let s := upLchan s peer lc (fun c => { c with
          unacked := updFirst (fun u => u.psn == psn) (fun u => { u with tries := u.tries + 1, sentAt := s.ticker }) c.unacked })
        portPut s p ⟨peer, u.w0, u.w1, u.w2, u.w3, u.payload⟩
      else s)

/-- R533: a port goes down. -/
def execPortDown (p : Fin 32) (s : State) : Out :=
  .next (whenPowered s fun s =>
    if (s.port p).up then
      fabricEvent (upPort s p (fun q => { q with up := false, tx := [], linkDowns := q.linkDowns + 1 })) flPortDown p 0xFF
    else s)

/-- A peer whose census of the last 1 ms has come is reachable again as soon as a port of its PORT_MASK is up (R538). -/
def reachAgain (m : Nat) (s : State) : State :=
  let q := s.peer m
  if !q.reachable && q.powerUps.isSome && decide (s.ticker < q.lastCensus + 1000000) && !(s.upPorts m).isEmpty then
    fabricEvent (upPeer s m (fun q => { q with reachable := true })) flPeerReachable 0xFF m
  else s

/-- R533, R538, R550: a port of an octet mode comes up; a census goes to each peer whose route names it. -/
def execPortUp (p : Fin 32) (s : State) : Out :=
  .next (whenPowered s fun s =>
    if portExists s.fab.applied p ∧ !(s.port p).up then
      let s := fabricEvent (upPort s p (fun q => { q with up := true })) flPortUp p 0xFF
      forL (s.peerList.filter (fun m => (recPortMask s.fab.applied m).testBit p)) (fun m s => sendCensus (reachAgain m s) m) s
    else s)

/-- R538: no census for 1 ms, or no port of the peer's mask up. -/
def execPeerUnreachable (peer : Fin 64) (s : State) : Out :=
  .next (whenPowered s fun s =>
    if (s.peer peer).reachable ∧ ((s.peer peer).lastCensus + 1000000 ≤ s.ticker ∨ (s.upPorts peer).isEmpty) then
      fabricEvent (upPeer s peer (fun q => { q with reachable := false })) flPeerUnreachable 0xFF peer
    else s)

/-- R532: PAUSE and PFC are not obeyed. -/
def execPauseFrame (p : Fin 32) (s : State) : Out :=
  .next (whenPowered s fun s =>
    if (s.port p).up then upPort s p (fun q => { q with pauseDropped := q.pauseDropped + 1 }) else s)

/-- R532, R539, R540: a frame that fails a check is discarded and counted; FEC codewords count too (R567, log entry 123). -/
def execFrameCheckFailure (p : Fin 32) (why : FrameFault) (s : State) : Out :=
  .next (whenPowered s fun s =>
    if (s.port p).up then
      upPort s p (fun q => match why with
        | .fcs => { q with fcsErrors := q.fcsErrors + 1 }
        | .tooLong => { q with fcsErrors := q.fcsErrors + 1 }
        | .icrc => { q with rxFrames := q.rxFrames + 1, icrcErrors := q.icrcErrors + 1 }
        | .malformed => { q with rxFrames := q.rxFrames + 1, icrcErrors := q.icrcErrors + 1 }
        | .fec c u => { q with fecCorrected := q.fecCorrected + c, fecUncorrected := q.fecUncorrected + u })
    else s)

end Sys2Proof.Machine
end

