-- ==== Sys2Proof/Machine/Pages.lean ====
section
/-!
DEFINITION. Page runs and the leaves they give (R496, R497), codebook records (R174 to R178, R186), tensor records and
their checksums (R384 to R386): what MODEL_LOAD, TABLE_MAP and MIGRATE share.
-/
namespace Sys2Proof.Machine

/-! ### Page runs (Table — page run) -/

/-- A page run: `count` pages of 512^size small pages. -/
structure PageRun where
  state : Nat
  size  : Nat
  write : Bool
  fw    : Bool
  count : Nat
  vpage : Nat
  pa    : Nat
deriving DecidableEq, Repr

def parseRun (a b : Word) : PageRun :=
  { state := fld a 63 62, size := fld a 61 60, write := bit a 59, fw := bit a 58, count := fld a 51 36 + 1,
    vpage := fld a 35 0, pa := fld b 55 0 }

/-- The reserved fields and codes of a page run; PA[55:52] is reserved in every physical address (R337). -/
def runReserved (a b : Word) : Bool :=
  fld a 57 52 != 0 || fld a 61 60 == 3 || fld b 63 56 != 0 || fld b 55 52 != 0

/-- Small pages of one page, and of the run. -/
def PageRun.small (r : PageRun) : Nat := 512 ^ r.size
def PageRun.total (r : PageRun) : Nat := r.count * r.small

/-- The words of `n` items of `k` words each. -/
def items (l : List Byte) (k n : Nat) : List (List Word) :=
  (List.range n).map (fun i => bytesWords (l.drop (8 * k * i)) k)

/-- First byte of the firmware reserve (R499). -/
def reserveBase (units : Nat) : Nat := dramBytes - units * 2 ^ 28

/-- What R497 asks of a run by itself, with a reserve of `units` × 256 MiB. -/
def PageRun.fits (s : State) (units : Nat) (r : PageRun) : Bool :=
  let n := 65536 * r.total
  decide (r.state = 1 ∨ (r.state = 2 ∧ r.size = 0)) && r.vpage % r.small == 0 && r.pa % (65536 * r.small) == 0 &&
  decide (r.vpage + r.total ≤ 2 ^ 36 ∧ paOff r.pa + n ≤ spaceBytes (paSpace r.pa)) &&
  !decide (paModule r.pa = s.moduleNo ∧ paSpace r.pa = 0 ∧ reserveBase units < paOff r.pa + n)

/-- Two ranges of pages (first, number) share one. -/
def overlap (a b : Nat × Nat) : Bool := decide (a.1 < b.1 + b.2 ∧ b.1 < a.1 + a.2)

/-- No two ranges of a list share a page. -/
def apart : List (Nat × Nat) → Bool
  | [] => true
  | a :: l => l.all (fun b => !overlap a b) && apart l

def PageRun.virt (r : PageRun) : Nat × Nat := (r.vpage, r.total)

/-- The mapped ranges below the node at a local offset, of a level, whose first small page is `base`. -/
def leavesUnder (s : State) : Nat → Nat → Nat → List (Nat × Nat)
  | 0, _, _ => []
  | level + 1, node, base =>
    (s.entriesOf node).flatMap (fun k =>
      let w := s.node k
      let p := base + (k - node) / 8 * 512 ^ level
      if pteState w = stInvalid then []
      else if pteLeaf w then [(p, 512 ^ level)]
      else leavesUnder s level (paOff (pteOa w)) p)

/-- The valid contexts, with their roots. -/
def State.contextList (s : State) : List (Nat × Nat) := s.xl.contexts.filterMap (fun e => e.2.map (fun r => (e.1, r)))

/-- What a context maps. -/
def State.mapped (s : State) (root : Nat) : List (Nat × Nat) := leavesUnder s 4 root 0

/-- Page i of a run lies in an aligned run of R348. -/
def PageRun.contig (r : PageRun) (i : Nat) : Bool :=
  let g := (r.vpage + i) / 32 * 32
  r.size == 0 && r.state == 1 && decide (r.vpage ≤ g ∧ g + 32 ≤ r.vpage + r.count) &&
    (r.pa + 65536 * (g - r.vpage)) % 2 ^ 21 == 0

/-- Write the leaves of a run into a context (R343, R344, R348). -/
def mapRun (root : Nat) (write : Bool) (r : PageRun) (s : State) : State :=
  forN r.count (fun i s =>
    mapLeaf s root (65536 * (r.vpage + i * r.small)) (r.size + 1)
      (mkLeaf r.state (r.contig i) write r.fw (r.pa + 65536 * i * r.small))) s

/-- The pages of a run, one by one. -/
def PageRun.pages (r : PageRun) : List PageRange :=
  (List.range r.count).map (fun i => ⟨r.vpage + i * r.small, r.small, r.pa + 65536 * i * r.small⟩)

/-- The run places a page in the flash window. -/
def PageRun.flash (r : PageRun) : Bool := paSpace r.pa == 2

/-- The FLASH entry that holds an offset can be used (R563). -/
def State.flashOk (s : State) (off : Nat) : Bool :=
  let k := off / 2 ^ 40
  recFlashValid s.fab.applied k && (Tbl.get {} s.fab.nvme k).usable

/-- Every page of a run that lies in the flash window of this module lies in a usable entry (R563). -/
def PageRun.flashOk (s : State) (r : PageRun) : Bool :=
  !r.flash || (List.range 16).all (fun k =>
    !overlap (k * 2 ^ 24, 2 ^ 24) (paOff r.pa / 65536, r.total) || s.flashOk (k * 2 ^ 40))

/-- The physical range of a page, in small pages. -/
def PageRange.phys (r : PageRange) : Nat × Nat := (r.pa / 65536, r.pages)

/-- A physical range overlaps a page of a version that is not free (R127, R164). -/
def State.inUse (s : State) (p : Nat × Nat) : Bool :=
  s.slots.any (fun e => e.2.state != .free && e.2.pages.any (fun r => overlap r.phys p))

/-! ### Codebook records (R174, R175, R177, R178) -/

/-- A record as 36 words breaks the reserved check. -/
def cbReserved (l : List Word) : Bool :=
  fld (wd l 32) 60 44 != 0 || wd l 33 != 0 || wd l 34 != 0 || wd l 35 != 0 ||
    (!bit (wd l 32) 63 && (List.range 30).any (fun i => wd l (2 + i) != 0))

def cbId (l : List Word) : Nat := fld (wd l 32) 43 32

/-- SCALE is a normal value whose magnitude lies from 2^−126 to 2^120. -/
def cbScaleOk (x : BitVec 32) : Bool := decide (0x00800000 ≤ x.toNat % 2 ^ 31 ∧ x.toNat % 2 ^ 31 ≤ 0x7B800000)

def cbScale (l : List Word) : BitVec 32 := (wd l 32).extractLsb' 0 32

/-- An installed record of entries and a scale, CONSTANT and PADDED set from the entries. -/
def cbRecord (cb256 : Bool) (scale : BitVec 32) (entries : List Byte) : Codebook :=
  let d := entries.dedup.length
  { cb256 := cb256, constant := d == 1, padded := decide (d < entries.length), scale := scale, entries := entries }

/-- The record that a host supplied. -/
def cbOfWords (l : List Word) : Codebook :=
  let big := bit (wd l 32) 63
  cbRecord big (cbScale l) ((wordsBytes l).take (if big then 256 else 16))

/-- A non-free version names the codebook (R177); no field of a model image makes a tensor of the model name one (R500). -/
def State.cbInUse (s : State) (id : Nat) : Bool :=
  s.slots.any (fun e => e.2.state != .free && isCb e.2.entry.format && e.2.entry.codebookId == id)

/-! ### Tensor records (R381 to R386) -/

/-- The bytes of a tensor as whole blocks. -/
def blocksOf (n : Nat) : Nat := ceilDiv n 4096

/-- First index of the checksum arrays from `at0` on where n words are free. -/
def firstFit (used : List (Nat × Nat)) (n : Nat) : Nat → Nat → Option Nat
  | 0, _ => none
  | fuel + 1, at0 =>
    match used.find? (fun u => overlap u (at0, n)) with
    | none => if at0 + n ≤ 2 ^ 27 then some at0 else none
    | some u => firstFit used n fuel (u.1 + u.2)

/-- A record and an array for a tensor of n blocks (R384). -/
def State.recordFor (s : State) (n : Nat) : Option (Nat × Nat) :=
  let used := s.ig.trecs.filterMap (fun e => e.2.map (fun t => (t.ckBase, t.blocks)))
  let idx := (List.range (s.ig.trecs.length + 1)).find? (fun i => (Tbl.get none s.ig.trecs i).isNone)
  match idx, firstFit used n (used.length + 1) 0 with
  | some i, some b => if i < 65536 then some (i, b) else none
  | _, _ => none

/-- Allocate a record. -/
def addRecord (s : State) (id version n : Nat) (key : Option Nat) : Option (Nat × State) :=
  (s.recordFor n).map (fun r =>
    let t : TensorRec := ⟨BitVec.ofNat 32 id, BitVec.ofNat 16 version, n, r.2, key⟩
    (r.1, upIg s (fun g => { g with trecs := Tbl.set none g.trecs r.1 (some t) })))

/-- Enter a local page of a tensor into the page map: its virtual page and its tensor's base. -/
def mapPage (trec vpage base off : Nat) (s : State) : State :=
  let b0 := (65536 * vpage + 4096 * 2 ^ 32 - base) / 4096 % 2 ^ 32
  let set := fun (p : PageMap) => { p with ck := true, trec := trec, block0 := b0 }
  upIg s (fun g => { g with pages := Tbl.upd {} g.pages (off / 65536) set })

/-- The small pages of a range of pages that hold a virtual range, with their physical addresses. -/
def PageRange.smalls (r : PageRange) (va n : Nat) : List (Nat × Nat) :=
  let lo := max r.vpage (va / 65536)
  let hi := min (r.vpage + r.pages) ((va + n + 65535) / 65536)
  (List.range (hi - lo)).map (fun i => (lo + i, r.pa + 65536 * (lo + i - r.vpage)))

/-- Enter every local page of a tensor at a virtual range into the page map. -/
def mapTensor (s : State) (pages : List PageRange) (trec va n : Nat) : State :=
  forL (pages.flatMap (fun r => r.smalls va n)) (fun e s =>
    if s.route e.2 = .dram then mapPage trec e.1 va (paOff e.2) s else s) s

/-- Free the records that `p` selects, and take their pages out of the page map (R384, R385). -/
def dropRecords (s : State) (p : TensorRec → Bool) : State :=
  let gone := fun (i : Nat) => match Tbl.get none s.ig.trecs i with
    | some t => p t
    | none => false
  let free := fun (e : Nat × PageMap) =>
    (e.1, if e.2.ck && gone e.2.trec then { e.2 with ck := false, trec := 0, block0 := 0 } else e.2)
  upIg s (fun g => { g with
    trecs := g.trecs.filter (fun e => !gone e.1)
    pages := (g.pages.map free).filter (fun e => e.2 != {}) })

/-- Every cached copy of a codebook goes (R178). -/
def dropCb (s : State) (id : Nat) : State :=
  let s := tidyCores { s with cores := s.cores.map (fun e => (e.1, { e.2 with cbUnit := e.2.cbUnit.filter (fun x => x.1 != id) })) }
  forN 12 (fun h s => upHedge s h (fun x => { x with cbCache := x.cbCache.filter (fun y => y.1 != id) })) s

/-- The codebook store's tensor record. -/
def storeId : Nat := 0xF0002000

/-- The store has its record. -/
def State.hasStore (s : State) : Bool := s.ig.trecs.any (fun e => e.2.any (fun t => t.tensorId.toNat == storeId))

/-- Give the store its tensor record and page-map entries, where it has none; none where no record is free (R384). -/
def makeStore (s : State) : Option State :=
  if s.hasStore then some s
  else
    (addRecord s storeId 0 (storeBytes / 4096) none).map (fun r =>
      forN (storeBytes / 65536) (fun i s =>
        let p := codebookAt 0 + 65536 * i
        mapPage r.1 (p / 65536) (codebookAt 0) p s) r.2)

/-- Install a record in its slot of the store, which has its tensor record: no cached copy is left (R178), and the store's
checksums are computed (R386). -/
def installCb (s : State) (id : Nat) (c : Codebook) : State :=
  let s := dropCb { s with codebooks := Tbl.set none s.codebooks id (some c.cb256) } id
  let s := dramPut s (codebookAt id) ((c.words id).map .good)
  forN (storeBytes / 4096) (fun i s => resum s (codebookAt 0 + 4096 * i)) s

end Sys2Proof.Machine
end

