-- ==== Sys2Proof/Machine/TableMap.lean ====
section
/-!
DEFINITION. TABLE_MAP (R93, R97 to R101, R127, R314 to R316, R384 to R386, R493 to R497).
-/
namespace Sys2Proof.Machine

/-! ### The request -/

def parseEntry (l : List Word) : TableEntry :=
  { valid := bit (wd l 0) 63, format := fld (wd l 0) 59 56, elems := 8 * (fld (wd l 0) 55 49 + 1),
    rowScaled := bit (wd l 0) 48, codebookId := fld (wd l 0) 47 36, rowCount := fld (wd l 1) 39 0,
    baseVa := fld (wd l 2) 51 0, defaultRow := fld (wd l 3) 39 0, tableScale := (wd l 4).extractLsb' 0 32 }

def entryReserved (l : List Word) : Bool :=
  fld (wd l 0) 62 60 != 0 || fld (wd l 0) 35 0 != 0 || fld (wd l 1) 63 40 != 0 || fld (wd l 2) 63 52 != 0 ||
    fld (wd l 3) 63 40 != 0 || fld (wd l 4) 63 32 != 0 || wd l 5 != 0 || wd l 6 != 0 || wd l 7 != 0

def parseUpd (l : List Word) : UpdEntry :=
  { group := fld (wd l 0) 62 59, stageFmt := fld (wd l 0) 58 55, exp := signed 8 (fld (wd l 0) 54 47),
    slotsLog := fld (wd l 0) 46 42, stageVa := fld (wd l 1) 51 0, keysVa := fld (wd l 2) 51 0,
    listVa := fld (wd l 3) 51 0, countVa := fld (wd l 4) 51 0, stateVa := fld (wd l 5) 51 0,
    masterVa := fld (wd l 6) 51 0 }

def updReserved (l : List Word) : Bool :=
  fld (wd l 0) 41 0 != 0 || (List.range 6).any (fun i => fld (wd l (i + 1)) 63 52 != 0) || wd l 7 != 0

/-- A TABLE_MAP request with its page runs. -/
structure MapReq where
  table  : Nat
  tv     : Nat
  writer : Nat
  hasUpd : Bool
  hasCb  : Bool
  entry  : List Word
  update : List Word
  cb     : List Word
  addr   : Nat
  nruns  : Nat
  runs   : List (List Word)
deriving DecidableEq, Repr

def mapReq (s : State) (key : Nat) (runs : HostRd) : MapReq :=
  let words := fun (i n : Nat) => (List.range n).map (fun j => s.req key (i + j))
  let n := s.reqF key 2 15 0
  { table := s.reqF key 0 63 52, tv := s.reqF key 0 51 36, writer := s.reqF key 0 35 24,
    hasUpd := bit (s.req key 0) 23, hasCb := bit (s.req key 0) 22, entry := words 3 8, update := words 11 8,
    cb := words 19 36, addr := (s.req key 1).toNat, nruns := n, runs := items runs.bytes 2 n }

def MapReq.pageRuns (q : MapReq) : List PageRun := q.runs.map (fun r => parseRun (wd r 0) (wd r 1))
def MapReq.pages (q : MapReq) : List PageRange := q.pageRuns.flatMap PageRun.pages
def MapReq.e (q : MapReq) : TableEntry := parseEntry q.entry
def MapReq.u (q : MapReq) : UpdEntry := parseUpd q.update

/-- The version will be trainable. -/
def MapReq.train (q : MapReq) : Bool := q.hasUpd && bit (wd q.update 0) 63

/-- The reserved check over the whole request (R640). -/
def MapReq.reserved (s : State) (key : Nat) (q : MapReq) : Bool :=
  s.reqF key 0 21 0 != 0 || s.reqF key 2 63 16 != 0 || !s.tailZero key 55 || entryReserved q.entry ||
  (q.hasUpd && updReserved q.update) || (q.hasCb && cbReserved q.cb) || q.runs.any (fun r => runReserved (wd r 0) (wd r 1))

/-! ### Geometry checks -/

/-- Bytes of a virtual range that a page holds. -/
def PageRange.meet (r : PageRange) (va n : Nat) : Nat :=
  min (va + n) (65536 * (r.vpage + r.pages)) - max va (65536 * r.vpage)

/-- Pages that do not overlap hold a whole virtual range. -/
def covers (l : List PageRange) (va n : Nat) : Bool := (l.map (fun r => r.meet va n)).sum == n

/-- The virtual ranges that the update entry uses (Table — update entry): address, bytes. -/
def UpdEntry.ranges (u : UpdEntry) (c : Coef) (t : TableEntry) : List (Nat × Nat) :=
  [(u.stageVa, u.nslots * u.stageStride t.elems), (u.keysVa, 8 * u.nslots), (u.listVa, 96 * u.nslots), (u.countVa, 96)] ++
  (if c.keeps then [(u.stateVa, c.stateStride t.elems * t.rowCount)] else []) ++
  (if u.masterVa = 0 then [] else [(u.masterVa, 4 * t.elems * t.rowCount)])

/-- First and last byte + 1 of the rows of a table that a page holds. -/
def TableEntry.within (t : TableEntry) (r : PageRange) : Nat × Nat :=
  (max (65536 * r.vpage) t.baseVa, min (65536 * (r.vpage + r.pages)) (t.baseVa + t.rowCount * t.stride))

/-- R98 for the rows of one page. -/
def TableEntry.grainOk (s : State) (t : TableEntry) (r : PageRange) : Bool :=
  let (lo, hi) := t.within r
  if lo < hi ∧ s.route r.pa = .dram then
    let off := fun (va : Nat) => paOff r.pa + (va - 65536 * r.vpage)
    s.imap.all (fun e => !decide (e.base < off hi ∧ off lo < e.base + e.len) ||
      (e.grain == 4 && e.unit == t.stride &&
        ((paOff r.pa : Int) + t.baseVa - 65536 * r.vpage - e.base) % t.stride == 0))
  else true

/-- R99 at the start of one page: a row that crosses into it lies at consecutive addresses of one space class. -/
def TableEntry.crossOk (t : TableEntry) (l : List PageRange) (r : PageRange) : Bool :=
  let va := 65536 * r.vpage
  if t.baseVa < va ∧ va < t.baseVa + t.rowCount * t.stride ∧ (va - t.baseVa) % t.stride ≠ 0 then
    match ({ pages := l } : VSlot).paOf (va - 1) with
    | none => false
    | some pa => pa + 1 == r.pa && paSpace pa == paSpace r.pa && paModule pa == paModule r.pa
  else true

/-- The rows lie as R98 and R99 ask. -/
def TableEntry.rowsOk (s : State) (t : TableEntry) (l : List PageRange) : Bool :=
  l.all (fun r => t.grainOk s r && t.crossOk l r)

/-- R101. -/
def TableEntry.defaultOk (s : State) (t : TableEntry) (l : List PageRange) : Bool :=
  decide (t.defaultRow < t.rowCount) &&
  covers (l.filter (fun r => s.route r.pa == .dram)) (t.rowVa t.defaultRow) t.stride

/-- R316's locality: what goes with the local rows of one page is local. -/
def UpdEntry.localOk (s : State) (u : UpdEntry) (c : Coef) (t : TableEntry) (l : List PageRange) (r : PageRange) : Bool :=
  let (lo, hi) := t.within r
  if lo < hi ∧ s.route r.pa = .dram then
    let here := l.filter (fun r => s.route r.pa == .dram)
    let i := (lo - t.baseVa) / t.stride
    let n := (hi - 1 - t.baseVa) / t.stride + 1 - i
    let k := c.stateStride t.elems
    covers here u.stageVa (u.nslots * u.stageStride t.elems) && covers here u.keysVa (8 * u.nslots) &&
      (!c.keeps || covers here (u.stateVa + k * i) (k * n)) &&
      (u.masterVa == 0 || covers here (u.masterVa + 4 * t.elems * i) (4 * t.elems * n))
  else true

/-- Formats of a trainable table (R316). -/
def trainFormat (f : Nat) : Bool := decide (f ≤ 2) || isCb f

/-- R314, R316: every check of the update entry but the coverage of its ranges. -/
def UpdEntry.accepted (s : State) (u : UpdEntry) (t : TableEntry) (l : List PageRange) : Bool :=
  let c := s.coef u.group
  trainFormat t.format && !t.rowScaled && decide (u.stageFmt = 0 ∨ u.stageFmt = 0xC) && decide (u.stageFmt = 0xC ∨ u.exp = 0) &&
    decide (10 ≤ u.slotsLog) && decide (u.stageVa % 64 = 0 ∧ u.keysVa % 64 = 0 ∧ u.countVa % 64 = 0) &&
    (c.keeps == (u.stateVa != 0)) && u.masterVa % 4096 == 0 && l.all (u.localOk s c t l)

/-! ### The checks -/

/-- The entry by itself (R93, R97, R100, R101, R127, R382). -/
def TableEntry.ok (t : TableEntry) : Bool :=
  t.valid && decide (t.format ≤ 0xB) && decide (t.stride ≤ 4096) && decide (1 ≤ t.rowCount) &&
    t.baseVa % t.stride == 0 && t.baseVa % 4096 == 0 && (isCb t.format || t.codebookId == 0)

/-- The codebook of the version: the record carried, or the one installed (R127, R175, R177). -/
def MapReq.cbOk (s : State) (q : MapReq) : Bool :=
  let t := q.e
  if q.hasCb then
    isCb t.format && bit (wd q.cb 32) 63 == (t.format == 0xB) && cbId q.cb == t.codebookId && cbScaleOk (cbScale q.cb) &&
      !s.cbInUse t.codebookId
  else !isCb t.format || s.cbFits t.codebookId t.format

/-- A FREE slot of a table: the lowest (log entry 108). -/
def State.freeSlot (s : State) (table : Nat) : Option Nat := (slotKeys table).find? (fun k => (s.slot k).state == .free)

/-- The slots of the table allow a version of this TV (R127). -/
def State.takesVersion (s : State) (table tv : Nat) : Bool :=
  (slotKeys table).all (fun k => (s.slot k).state == .free ||
    ((s.slot k).state != .shadow && (s.slot k).tv.toNat != tv)) && (s.freeSlot table).isSome

/-- The runs can be mapped under every valid context (R127, R362, R494, R497, R563). -/
def MapReq.runsOk (s : State) (q : MapReq) : Bool :=
  let l := q.pageRuns
  let v := l.map PageRun.virt
  decide (1 ≤ q.nruns) && q.addr % 16 == 0 &&
  l.all (fun r => r.fits s s.fwReserve && !r.write && !r.fw && r.flashOk s && (r.state != 2 || s.fq.isSome)) &&
  apart v && s.contextList.all (fun c => (s.mapped c.2).all (fun m => v.all (fun x => !overlap m x))) &&
  q.pages.all (fun r => !s.inUse r.phys)

/-- The tensors of the version: tensor id, base address, blocks (R381). -/
def MapReq.tensors (q : MapReq) : List (Nat × Nat × Nat) :=
  let t := q.e
  (0xF0000000 + q.table, t.baseVa, t.rowCount * t.stride) ::
    (if q.train ∧ q.u.masterVa ≠ 0 then [(0xF0001000 + q.table, q.u.masterVa, 4 * t.elems * t.rowCount)] else [])

/-- The ranges of an update entry overlap no page of a version that is not FREE (R316). -/
def State.clearOf (s : State) (l : List (Nat × Nat)) : Bool :=
  !s.slots.any (fun e => e.2.state != .free &&
    e.2.pages.any (fun r => l.any (fun x => overlap (65536 * r.vpage, 65536 * r.pages) x)))

/-- Every check that refuses with ST_BAD_DESCRIPTOR, but the room for tensor records. -/
def MapReq.accepted (s : State) (q : MapReq) (runs : HostRd) : Bool :=
  let t := q.e
  let l := q.pages
  s.model && runs.ok && (q.hasUpd || q.update.all (· == 0)) && (q.hasCb || q.cb.all (· == 0)) && t.ok && q.cbOk s &&
  s.takesVersion q.table q.tv && q.runsOk s && covers l t.baseVa (t.rowCount * t.stride) && t.rowsOk s l &&
  t.defaultOk s l && (!q.hasUpd || (q.u.accepted s t l && s.clearOf (q.u.ranges (s.coef q.u.group) t))) &&
  (!q.train || (q.u.ranges (s.coef q.u.group) t).all (fun x => covers l x.1 x.2))

/-! ### The effect -/

/-- The checksums of the blocks that lie outside local DRAM, from the data that was read (R386); `tier` gives it by
virtual address / 4,096, and each block of flash is a Read (R564). -/
def sumTier (s : State) (l : List PageRange) (trec va n : Nat) (tier : List (Nat × List PWord)) : State :=
  match Tbl.get none s.ig.trecs trec with
  | none => s
  | some t =>
    let far := (l.flatMap (fun r => r.smalls va n)).filter (fun e => s.route e.2 == .host || s.route e.2 == .flash)
    forL far (fun e s => forN 16 (fun i s =>
      let v := 16 * e.1 + i
      if va / 4096 ≤ v ∧ v < va / 4096 + t.blocks then
        let data := match tier.find? (fun x => x.1 == v) with
          | some x => slice (pbytes x.2) 0 4096
          | none => List.replicate 4096 0
        let s := if s.route e.2 = .flash then { s with fab := { s.fab with nvmeReads := s.fab.nvmeReads + 1 } } else s
        putCk s (t.ckBase + (v - va / 4096)) (blockSum t (v - va / 4096) data)
      else s) s) s

/-- Give a tensor its record, page-map entries and outside checksums; none where there is no room (R384), or what was read
outside came as poison (log entry 124). -/
def addTensor (q : MapReq) (key : Nat) (tier : List (Nat × List PWord)) (x : Nat × Nat × Nat) (s : State) :
    Option State :=
  if tier.any (fun e => anyPoison e.2) then none
  else (addRecord s x.1 q.tv (blocksOf x.2.2) (some key)).map (fun r =>
    sumTier (mapTensor r.2 q.pages r.1 x.2.1 x.2.2) q.pages r.1 x.2.1 x.2.2 tier)

/-- The tensors of a version, in order. -/
def addTensors (q : MapReq) (key : Nat) (tier : List (Nat × List PWord)) : List (Nat × Nat × Nat) → State → Option State
  | [], s => some s
  | x :: l, s =>
    match addTensor q key tier x s with
    | none => none
    | some s => addTensors q key tier l s

/-- Create the version in a slot. -/
def createVersion (q : MapReq) (key : Nat) (s : State) : State :=
  let s := forL s.contextList (fun c s => forL q.pageRuns (mapRun c.2 (q.writer != 0 && c.1 == q.writer)) s) s
  let s := if q.hasCb then installCb s q.e.codebookId (cbOfWords q.cb) else s
  let v : VSlot := { state := .shadow, tv := BitVec.ofNat 16 q.tv, entry := q.e,
                     upd := if q.train then some q.u else none, writerCid := BitVec.ofNat 12 q.writer, pages := q.pages }
  { s with
    slots := Tbl.put s.slots key v
    counters := s.counters.filter (fun e => e.1 / 2 ^ 36 != key) }

/-- Small-page equivalents of the runs. -/
def MapReq.small (q : MapReq) : Nat := (q.pageRuns.map PageRun.total).sum

/-- The unit an S grade lacks (R7, R305, R563). -/
def MapReq.absent (s : State) (q : MapReq) : Bool := !s.fGrade && (q.train || q.pageRuns.any PageRun.flash)

def mapTable (f : FnId) (k : SlotId) (runs : HostRd) (tier : List (Nat × List PWord)) (s : State) : State :=
  let q := mapReq s (mailKey f k) runs
  let no := refuse s f k stBadDescriptor
  if q.absent s then refuse s f k stAbsentUnit
  else if q.accepted s runs then
    match s.freeSlot q.table with
    | none => no
    | some key =>
      match (if q.hasCb then makeStore s else some s).bind (addTensors q key tier q.tensors) with
      | none => no
      | some t => respond (createVersion q key t) f k stOk [at_ 33 32 (key % 4) ||| at_ 31 0 q.small]
  else no

def tableMapRun (f : FnId) (k : SlotId) (runs : HostRd) (tier : List (Nat × List PWord)) (s : State) : State :=
  withHost s f k runs.ok (mapTable f k runs tier)

/-- TABLE_MAP. -/
def execTableMap (f : FnId) (k : SlotId) (runs : HostRd) (tier : List (Nat × List PWord)) (s : State) : Out :=
  let key := mailKey f k
  .next (admin s f k 0x12 ((mapReq s key runs).reserved s key) (tableMapRun f k runs tier))

end Sys2Proof.Machine
end

