-- ==== Sys2Proof/Machine/Swap.lean ====
section
/-!
DEFINITION. TABLE_SWAP, retirement and MIGRATE (R131 to R139, R163 to R170).
-/
namespace Sys2Proof.Machine

/-! ### TABLE_SWAP (R131 to R136) -/

/-- The entries of a TABLE_SWAP: (table, action). -/
def swapEntries (s : State) (key : Nat) : List (Nat × Nat) :=
  (List.range (s.reqF key 0 61 56 + 1)).map (fun i => (s.reqF key (1 + i) 63 52, s.reqF key (1 + i) 51 50))

def swapReserved (s : State) (key : Nat) : Bool :=
  let n := s.reqF key 0 61 56 + 1
  bit (s.req key 0) 62 || s.reqF key 0 55 0 != 0 || !s.tailZero key (1 + n) ||
    (List.range n).any (fun i => s.reqF key (1 + i) 49 0 != 0 || s.reqF key (1 + i) 51 50 == 3)

/-- R133. -/
def swapOk (s : State) (l : List (Nat × Nat)) : Bool :=
  l.all (fun e => (s.slotIn e.1 (if e.2 ≤ actDrop then .shadow else .current)).isSome) && (l.map (·.1)).dedup.length == l.length

/-- One action (Table — swap actions). -/
def swapOne (e : Nat × Nat) (s : State) : State :=
  let old := placedBy s e
  let new := if e.2 = actFlip then s.slotIn e.1 .shadow else none
  let s := match old with
    | some k => upSlot s k (fun v => { v with state := .retiring })
    | none => s
  match new with
  | some k => upSlot s k (fun v => { v with state := .current, flipTicker := s.tickerW })
  | none => s

/-- Apply a TABLE_SWAP (R131, R132) and answer it, or let it wait for retirement (R136). -/
def swapApply (s : State) (fn slot : Nat) (l : List (Nat × Nat)) (wait : Bool) : State :=
  let left := l.filterMap (placedBy s)
  let s := forL l swapOne s
  if wait ∧ left ≠ [] then
    { s with heldSwaps := s.heldSwaps ++ [⟨fn, slot, l, true, true, s.tickerW, left⟩] }
  else respond s fn slot stOk [s.tickerW]

def tableSwapRun (f : FnId) (k : SlotId) (s : State) : State :=
  let key := mailKey f k
  let l := swapEntries s key
  let wait := bit (s.req key 0) 63
  if swapOk s l then
    if swapFits s l then swapApply s f k l wait
    else { s with heldSwaps := s.heldSwaps ++ [⟨f, k, l, wait, false, 0, []⟩] }
  else refuse s f k stBadDescriptor

/-- TABLE_SWAP. -/
def execTableSwap (f : FnId) (k : SlotId) (s : State) : Out :=
  .next (admin s f k 0x13 (swapReserved s (mailKey f k)) (tableSwapRun f k))

/-- R134: the first held TABLE_SWAP that fits now is applied. -/
def execTableSwapApply (s : State) : Out :=
  .next (whenFw s fun s =>
    let ready := fun (h : HeldSwap) => !h.applied && swapFits s h.entries
    match s.heldSwaps.find? ready with
    | none => s
    | some h => swapApply { s with heldSwaps := dropFirst ready s.heldSwaps } h.fn h.slot h.entries h.wait)

/-! ### Leaves of a version -/

/-- The leaf that a tree holds for a virtual address: its place and level. -/
def leafKey (s : State) (va : Nat) : Nat → Nat → Option (Nat × Nat)
  | 0, _ => none
  | level + 1, node =>
    let key := node + 8 * vaIndex va (level + 1)
    let w := s.node key
    if pteState w = stInvalid then none
    else if pteLeaf w then some (key, level + 1)
    else leafKey s va level (paOff (pteOa w))

/-- Change the leaf of a small page in every valid context. -/
def upLeaves (s : State) (vpage : Nat) (f : Word → Word) : State :=
  forL s.contextList (fun c s => match leafKey s (65536 * vpage) 4 c.2 with
    | none => s
    | some k => setNode s k.1 (f (s.node k.1))) s

/-- Clear CONTIG on the 32 pages of the aligned run of a small page (R348). -/
def clearContig (s : State) (vpage : Nat) : State :=
  forN 32 (fun i s => upLeaves s (vpage / 32 * 32 + i) (fun w => w &&& ~~~(at_ 60 60 1))) s

/-- Remove the leaves and translations of a page of a version (R137, R350). -/
def unmapPage (r : PageRange) (s : State) : State :=
  let s := upLeaves s r.vpage (fun _ => 0)
  dropTlb s (fun t => overlap (t.vbase, t.pages) (r.vpage, r.pages))

/-! ### Retirement (R137 to R139) -/

/-- R137: the three conditions. -/
def State.mayRetire (s : State) (key : Nat) : Bool :=
  (s.slot key).state == .retiring && s.users key == 0 && !s.migrates.any (fun m => m.key == key) &&
    !s.upd.closes.any (fun c => c.versions.contains key)

/-- A retired slot is struck from the swaps that wait for it; one that waits for no other is answered (R136). -/
def swapsRetired (s : State) (key : Nat) : State :=
  let l := s.heldSwaps.map (fun h => { h with left := h.left.filter (· != key) })
  let done := fun (h : HeldSwap) => h.applied && h.left.isEmpty
  let s := { s with heldSwaps := l.filter (fun h => !done h) }
  forL (l.filter done) (fun h s => respond s h.fn h.slot stOk [h.ticker]) s

/-- The steps of R137. -/
def retire (s : State) (key : Nat) : State :=
  let v := s.slot key
  let tag := some (key / 4, key % 4)
  let s := forN 12 (fun h s => upHedge s h (fun x => { x with
    entryCache := x.entryCache.filter (· != key)
    thicket := x.thicket.filter (fun l => l.tag != tag) })) s
  let s := forL v.pages unmapPage s
  let s := dropRecords s (fun t => t.slotKey == some key)
  let s := { s with
    slots := Tbl.erase s.slots key
    upd := { s.upd with dirty := s.upd.dirty.filter (· != key) } }
  swapsRetired s key

/-- A RETIRING version retires once nothing uses it. -/
def execRetirement (table : Fin 4096) (vslot : SlotId) (s : State) : Out :=
  .next (whenFw s fun s =>
    let key := 4 * table.val + vslot.val
    if s.mayRetire key then retire s key else s)

/-! ### MIGRATE (R163 to R170) -/

/-- The non-free version of a table with a TV. -/
def State.versionOf (s : State) (table tv : Nat) : Option Nat :=
  (slotKeys table).find? (fun k => (s.slot k).state != .free && (s.slot k).tv.toNat == tv)

/-- The pages of a version once `n` small pages from `first` on have moved to `pa`. -/
def movedPages (l : List PageRange) (first n pa : Nat) : List PageRange :=
  l.map (fun r => if first ≤ r.vpage ∧ r.vpage < first + n then { r with pa := pa + 65536 * (r.vpage - first) } else r)

/-- R164, R563: the destination and the pages of a MIGRATE can be used. -/
def migrateOk (s : State) (v : VSlot) (first n space off : Nat) : Bool :=
  let pa := mkPa s.moduleNo space off
  let run : PageRun := { state := 1, size := 0, write := false, fw := false, count := n, vpage := first, pa := pa }
  (List.range n).all (fun i => v.pages.any (fun r => r.vpage == first + i && r.pages == 1)) &&
  decide (space ≠ 3) && run.fits s s.fwReserve && run.flashOk s && !s.inUse (pa / 65536, n) &&
  v.entry.rowsOk s (movedPages v.pages first n pa)

/-- Mark the next page of a migration: every leaf of it MIGRATING, its translations gone, and a DEMAND fault's tag
retired (R165, R350, R366). -/
def markPage (m : Migration) (s : State) : State :=
  let p := m.firstPage + m.moved
  let s := upLeaves (clearContig s p) p (fun w => pteSetState w stMigrating)
  let s := dropTlb s (fun t => overlap (t.vbase, t.pages) (p, 1))
  let leaves := s.contextList.filterMap (fun c => (leafKey s (65536 * p) 4 c.2).map (·.1))
  let s := upSlot s m.key (fun v => { v with migrating := 1 })
  { s with xl := { s.xl with
    pend := s.xl.pend.map (fun e => if leaves.contains e.leaf then { e with tag := none } else e)
    faultHeld := s.xl.faultHeld.filter (fun e => !leaves.contains e.leaf) } }

/-- Clear the mark of a page whose leaves now hold `f` of what they held: the faults on it are resolved (R361). -/
def unmarkPage (s : State) (m : Migration) (f : Word → Word) : State :=
  let p := m.firstPage + m.moved
  let s := upLeaves s p (fun w => pteSetState (f w) stValid)
  let leaves := s.contextList.filterMap (fun c => (leafKey s (65536 * p) 4 c.2).map (·.1))
  let s := forL leaves (fun k s => retirePend s k) s
  upSlot s m.key (fun v => { v with migrating := 0 })

def migrateRun (f : FnId) (k : SlotId) (s : State) : State :=
  let key := mailKey f k
  let r := s.reqF key
  let first := r 0 35 0
  let n := r 1 63 52 + 1
  let space := r 1 45 44
  let off := r 1 43 0
  if !s.fGrade && space == 2 then refuse s f k stAbsentUnit
  else
    match s.versionOf (r 0 63 52) (r 0 51 36) with
    | none => refuse s f k stBadDescriptor
    | some v =>
      if migrateOk s (s.slot v) first n space off then
        let m : Migration := { fn := f, slot := k, key := v, firstPage := first, count := n, moved := 0, space := space,
                               offset := off }
        markPage m { s with migrates := s.migrates ++ [m] }
      else refuse s f k stBadDescriptor

/-- MIGRATE. -/
def execMigrate (f : FnId) (k : SlotId) (s : State) : Out :=
  let key := mailKey f k
  .next (admin s f k 0x38 (s.reqF key 1 51 46 != 0 || !s.tailZero key 2) (migrateRun f k))

/-- The migration under way, the oldest. -/
def upMigration (s : State) (f : Migration → Migration) : State :=
  { s with migrates := match s.migrates with
    | [] => []
    | m :: l => f m :: l }

/-- The oldest migration ends: its response carries PAGES_MOVED. -/
def endMigration (s : State) (m : Migration) (st : Status) : State :=
  respond { s with migrates := s.migrates.drop 1 } m.fn m.slot st [at_ 12 0 m.moved]

/-- R168: the migration stops at the page under way, which stays at its source. -/
def stopMigration (s : State) (m : Migration) (st : Status) : State := endMigration (unmarkPage s m id) m st

/-- Where the page under way lies, and where it goes. -/
def Migration.src (s : State) (m : Migration) : Nat := ((s.slot m.key).paOf (65536 * (m.firstPage + m.moved))).getD 0
def Migration.dst (s : State) (m : Migration) : Nat := mkPa s.moduleNo m.space (m.offset + 65536 * m.moved)

/-- A page-map entry follows its page (R385). -/
def movePageMap (s : State) (v : VSlot) (vpage src dst : Nat) : State :=
  let old := Tbl.get {} s.ig.pages (paOff src / 65536)
  let clear := fun (s : State) => if s.route src = .dram then
      upIg s (fun g => { g with pages := Tbl.upd {} g.pages (paOff src / 65536) (fun _ => { seq := old.seq }) })
    else s
  if s.route dst = .dram then
    let tensors := s.ig.trecs.filterMap (fun e => e.2.bind (fun t =>
      if t.slotKey.any (fun k => s.slot k == v) then
        let base := if t.tensorId.toNat < 0xF0001000 then v.entry.baseVa else (v.upd.map (·.masterVa)).getD 0
        if 65536 * vpage < base + 4096 * t.blocks ∧ base < 65536 * (vpage + 1) then some (e.1, base) else none
      else none))
    forL tensors (fun t s => mapPage t.1 vpage t.2 (paOff dst) s) (clear s)
  else clear s

/-- A byte range of an address space meets the page under way at its source. -/
def Migration.meets (s : State) (m : Migration) (space off n : Nat) : Bool :=
  let src := m.src s
  decide (space = paSpace src ∧ off < paOff src + 65536 ∧ paOff src < off + n)

/-- Accesses already translated to the source of the page under way are still to complete (R165, R350): requests in the
channels' queues, rows of pieces, tail rows, and reads of the host window. -/
def State.sourceBusy (s : State) (m : Migration) : Bool :=
  let queued := fun (r : ChReq) => r.lines.any (fun a => m.meets s 0 a 64)
  let size := fun (bag : Nat) => ((s.bags.find? (fun b => b.id == bag)).map (fun b => (s.slot b.key).entry.stride)).getD 0
  s.chans.any (fun e => e.2.queue.any queued) ||
    s.pieces.any (fun p => p.rows.any (fun r => m.meets s 0 r.2 (size p.bag))) ||
    s.bags.any (fun b => b.tails.any (fun r => m.meets s r.space r.off (size b.id))) ||
    (s.route (m.src s) == .host && s.link.reads.any (fun r => r.fn == 0 && !r.done &&
      overlap (r.addr, r.len) (s.hwinAddr (paOff (m.src s)), 65536)))

/-- Rows of a bag that are kept back for R112's fixed order follow their page: no access has been made for them yet (log
entry 109). -/
def Bag.follow (s : State) (m : Migration) (b : Bag) : Bag :=
  let moves := fun (r : Nat × Nat) => m.meets s 0 r.2 1
  let at_ := fun (r : Nat × Nat) => r.2 - paOff (m.src s) + paOff (m.dst s)
  if m.space = 0 then { b with near := b.near.map (fun r => if moves r then (r.1, at_ r) else r) }
  else
    { b with
      near := b.near.filter (fun r => !moves r)
      tails := b.tails ++ (b.near.filter moves).map (fun r => { pos := r.1, space := m.space, off := at_ r }) }

/-- The page is at its destination: remap it, clear the mark, and go on to the next page or end (R165, R169). -/
def pageMoved (s : State) (m : Migration) : State :=
  let dst := m.dst s
  let p := m.firstPage + m.moved
  let s := movePageMap s (s.slot m.key) p (m.src s) dst
  let s := { s with bags := s.bags.map (Bag.follow s m) }
  let s := upSlot s m.key (fun v => { v with pages := movedPages v.pages p 1 dst })
  let s := unmarkPage s m (fun w => mkLeaf stValid false (pteWrite w) (pteFw w) dst)
  let m := { m with moved := m.moved + 1, got := none, put := none }
  if m.moved = m.count then endMigration s m stOk
  else if m.faulted then
    let (x, s) := takeFree s
    endMigration s m (BitVec.ofNat 16 x)
  else markPage m (upMigration s (fun _ => m))

/-- The tensor record and base that keep the checksums of a virtual block of a version. -/
def State.tensorAt (s : State) (key va : Nat) : Option (TensorRec × Nat) :=
  let v := s.slot key
  s.ig.trecs.findSome? (fun e => e.2.bind (fun t =>
    let base := if t.tensorId.toNat < 0xF0001000 then v.entry.baseVa else (v.upd.map (·.masterVa)).getD 0
    if t.slotKey = some key ∧ base ≤ va ∧ va < base + 4096 * t.blocks then some (t, (va - base) / 4096) else none))

/-- Every block of the page under way that a tensor keeps and that holds no poison matches its checksum. -/
def Migration.verifies (s : State) (m : Migration) (l : List PWord) : Bool :=
  (List.range 16).all (fun i =>
    let w := (l.drop (512 * i)).take 512
    match s.tensorAt m.key (65536 * (m.firstPage + m.moved) + 4096 * i) with
    | none => true
    | some (t, b) => anyPoison w || s.ck (t.ckBase + b) == blockSum t b (pbytes w))

/-- The 8,192 words of the page under way, where they are at hand; `source` is what the host window delivers. -/
def Migration.words (s : State) (m : Migration) (source : List PWord) : Option (List PWord) :=
  let pa := m.src s
  match s.route pa with
  | .dram => some (s.dramWords (paOff pa / 8) 8192)
  | .host => some ((source ++ List.replicate 8192 PWord.bad).take 8192)
  | _ => m.got

/-- R165, R168, R564: copy the page under way with its verification; a checksum failure stops it before poison does (log entry
86). -/
def copyPage (m : Migration) (l : List PWord) (s : State) : State :=
  let leaves := s.route (m.src s) == .dram && m.space != 0
  let s := if s.route (m.src s) = .dram then dramTouch s (paOff (m.src s)) 65536 else s
  if !m.verifies s l then stopMigration (upIg s (fun g => { g with verifyFailed := g.verifyFailed + 1 })) m stChecksum
  else if leaves && anyPoison l then stopMigration s m stPoisoned
  else
    match m.space with
    | 0 => pageMoved (dramPut s (paOff (m.dst s)) l) m
    | 1 => pageMoved (dmaWords s 0 true (s.hwinAddr (paOff (m.dst s))) l) m
    | _ => upMigration s (fun m => { m with put := some l })

/-- R165: the next page of the oldest MIGRATE, once the accesses to its source are done. -/
def execMigratePage (source : List PWord) (s : State) : Out :=
  .next (whenFw s fun s =>
    match s.migrates with
    | [] => s
    | m :: _ =>
      let host := s.route (m.src s) == .host
      if m.put.isSome || s.sourceBusy m || (host && s.blocked 0) then s
      else
        match m.words s source with
        | none => s
        | some l => copyPage m l (if host && anyPoison l then rxFailed s else s))

end Sys2Proof.Machine
end

