-- ==== Sys2Proof/Machine/Image.lean ====
section
/-!
DEFINITION. Model images (R498 to R500) and their checks: sections, the interleave map (R58, R60), Privet items,
contexts, coefficients and curves (R307 to R309), codebook builds (R186) and tensors.
-/
namespace Sys2Proof.Machine

/-! ### Header and directory -/

/-- A section of the image (Table — image directory entry). -/
structure Sect where
  idx      : Nat
  kind     : Nat
  cid      : Nat
  version  : Nat
  tensorId : Nat
  count    : Nat
  off      : Nat
  len      : Nat
  va       : Nat
  words    : List Word
deriving DecidableEq, Repr

def parseSect (i : Nat) (l : List Word) : Sect :=
  { idx := i, kind := fld (wd l 0) 63 56, cid := fld (wd l 0) 55 44, version := fld (wd l 0) 43 28,
    tensorId := fld (wd l 1) 63 32, count := fld (wd l 1) 31 0, off := (wd l 2).toNat, len := (wd l 3).toNat,
    va := fld (wd l 4) 51 0, words := l }

/-- A range of the image can be read. -/
def Image.has (m : Image) (p n : Nat) : Bool := m.ok || decide (p + n ≤ m.bytes.length)

def Image.header (m : Image) : List Word := bytesWords m.bytes 8
def Image.nsect (m : Image) : Nat := fld (wd m.header 0) 15 0
def Image.reserve (m : Image) : Nat := fld (wd m.header 2) 7 0

/-- The directory lies within the image. -/
def Image.dirFits (m : Image) : Bool := decide (64 + 64 * m.nsect ≤ m.len)

def Image.sects (m : Image) : List Sect :=
  if m.dirFits then ((items (m.bytes.drop 64) 8 m.nsect).zipIdx).map (fun e => parseSect e.2 e.1) else []

/-- Bytes of an item (R500); 0 for TENSOR. -/
def itemBytes : Nat → Nat
  | 1 => 16
  | 2 => 8
  | 3 => 8
  | 4 => 16
  | 5 => 288
  | 6 => 16
  | 7 => 64
  | 8 => 256
  | _ => 0

/-- The section's extent is right and lies within the image. -/
def Image.readable (m : Image) (x : Sect) : Bool :=
  decide (x.off + x.len ≤ m.len) && (x.kind == 9 || x.len == x.count * itemBytes x.kind)

/-- The items of a section, as words. -/
def Image.items (m : Image) (x : Sect) : List (List Word) :=
  if x.kind ≠ 9 ∧ m.readable x then Machine.items (m.bytes.drop x.off) (itemBytes x.kind / 8) x.count else []

/-- The items of every section of a kind, in directory order: (section, item number, words). -/
def Image.all (m : Image) (kind : Nat) : List (Sect × Nat × List Word) :=
  (m.sects.filter (fun x => x.kind == kind)).flatMap (fun x => (m.items x).zipIdx.map (fun e => (x, e.2, e.1)))

/-! ### Coefficients and curves (R307 to R309) -/

def parseCoef (l : List Word) : Coef :=
  let hi := fun (i : Nat) => (wd l i).extractLsb' 32 32
  let lo := fun (i : Nat) => (wd l i).extractLsb' 0 32
  { c := [hi 0, lo 0, hi 1, lo 1, hi 2, lo 2, hi 3], eps := lo 3, gclip := hi 4, gscale := lo 4,
    biasCorr := bit (wd l 5) 63, s2Mode := fld (wd l 5) 62 61, etaIndex := bit (wd l 5) 60, nsegM1 := fld (wd l 5) 59 56 }

def coefReserved (l : List Word) : Bool := fld (wd l 5) 55 0 != 0 || wd l 6 != 0 || wd l 7 != 0 || fld (wd l 5) 62 61 == 3

/-- A finite FP32 value. -/
def finite32 (x : BitVec 32) : Bool := (d32 x).isFinite

/-- A value in 0 ≤ c < 1. -/
def below1 (x : BitVec 32) : Bool := !(d32 x).lt (Ev.ofInt 0) && (d32 x).lt (Ev.ofInt 1)

def zero32 (x : BitVec 32) : Bool := (d32 x).isZero

def Coef.ok (c : Coef) : Bool :=
  let v := fun (i : Nat) => c.c.getD i 0
  (c.c ++ [c.eps, c.gclip, c.gscale]).all finite32 && (Ev.ofInt 0).lt (d32 c.gclip) &&
  (!c.biasCorr || (below1 (v 0) && below1 (v 2))) &&
  (c.s2Mode != 0 || (zero32 (v 2) && zero32 (v 3) && zero32 c.eps))

def parseSeg (l : List Word) : Seg :=
  { expo := fld (wd l 0) 63 62 == 1, start := fld (wd l 0) 47 0, eta0 := (wd l 1).extractLsb' 32 32,
    p := (wd l 1).extractLsb' 0 32 }

def segReserved (l : List Word) : Bool := fld (wd l 0) 61 48 != 0 || decide (2 ≤ fld (wd l 0) 63 62)

/-- Segments 0 to NSEG_M1 of a curve. -/
def usedSegs (l : List Word) (nseg : Nat) : List (List Word) := (List.range (nseg + 1)).map (fun k => (l.drop (2 * k)).take 2)

def strictlyUp : List Nat → Bool
  | a :: b :: l => decide (a < b) && strictlyUp (b :: l)
  | _ => true

def curveOk (l : List Word) (nseg : Nat) : Bool :=
  let x := (usedSegs l nseg).map parseSeg
  x.all (fun g => finite32 g.eta0 && finite32 g.p) && (x.head?.all (fun g => g.start == 0)) && strictlyUp (x.map (·.start))

/-- NSEG_M1 of a group, 0 where the image has no coefficients. -/
def Image.nseg (m : Image) (g : Nat) : Nat :=
  match (m.all 7).find? (fun e => e.2.1 == g) with
  | some e => fld (wd e.2.2 5) 59 56
  | none => 0

/-! ### Codebook builds (R186) -/

/-- The entries chosen from the sorted quotients. -/
def chooseEntries (k : Nat) (q : List Int) : List Int :=
  let d := q.dedup
  if d.length ≤ k then d ++ List.replicate (k - d.length) (d.getLastD 0)
  else (List.range k).map (fun i => q.getD ((2 * i + 1) * q.length / (2 * k)) 0)

/-- Build a codebook of K entries: scale and entries. -/
def buildCb (k : Nat) (l : List (BitVec 32)) : BitVec 32 × List Int :=
  let x := l.map units149
  let v := x.headD 0
  let pat := fun (n : Nat) => r32 (.num false n (-149) false)
  if x.all (· == v) then
    if v = 0 then (f32one, List.replicate k 0) else (pat v.natAbs, List.replicate k (if v < 0 then -1 else 1))
  else
    let m := x.foldl (fun a i => max a i.natAbs) 0
    let q := sortBy (fun a b => decide (a ≤ b)) (x.map (fun i => rneDiv (i * 127) m))
    (r32 ((Ev.num false m (-149) false).div (Ev.ofInt 127)), chooseEntries k q)

/-- A build request (Table — image sections). -/
def buildK (l : List Word) : Nat := if bit (wd l 0) 51 then 256 else 16

/-- The source values of a build. -/
def Image.source (m : Image) (l : List Word) : List (BitVec 32) :=
  let n := fld (wd l 0) 31 0
  let b := m.bytes.drop (wd l 1).toNat
  (List.range n).map (fun i => BitVec.ofNat 32 (leAt (b.drop (4 * i)) 0 4))

def Image.buildOk (m : Image) (l : List Word) : Bool :=
  let n := fld (wd l 0) 31 0
  let a := (wd l 1).toNat
  decide (1 ≤ n ∧ a % 4 = 0 ∧ a + 4 * n ≤ m.len) && m.has a (4 * n) &&
    (m.source l).all finite32 && cbScaleOk (buildCb (buildK l) (m.source l)).1

def Image.built (m : Image) (l : List Word) : Codebook :=
  let r := buildCb (buildK l) (m.source l)
  cbRecord (bit (wd l 0) 51) r.1 (r.2.map (BitVec.ofInt 8))

/-! ### The interleave map (R58) -/

/-- An entry from its low and high words. -/
def parseImap (l : List Word) : ImapEntry :=
  { blocks := fld (wd l 1) 63 32, base64K := fld (wd l 1) 27 0, stride32 := fld (wd l 0) 63 56, grain := fld (wd l 0) 55 53 }

def imapReserved (l : List Word) : Bool := fld (wd l 1) 31 28 != 0 || fld (wd l 0) 51 0 != 0

/-- The entries up to the first with VALID = 0. -/
def mapOf (l : List (List Word)) : List ImapEntry := (l.takeWhile (fun x => bit (wd x 0) 52)).map parseImap

/-- One entry by itself. -/
def ImapEntry.ok (e : ImapEntry) : Bool :=
  decide (1 ≤ e.blocks ∧ e.grain ≤ 4) && (if e.grain = 4 then decide (1 ≤ e.stride32 ∧ e.stride32 ≤ 128) else e.stride32 == 0)

/-- The entries follow one another from an offset, to 576 GiB. -/
def mapChain : Nat → List ImapEntry → Bool
  | p, [] => p == dramBytes
  | p, e :: l => e.base == p && mapChain (p + e.len) l

def mapOk (l : List ImapEntry) : Bool := l.all ImapEntry.ok && mapChain 0 l

/-! ### The reserved pass (R640) -/

/-- An item of a kind breaks the reserved check by itself. -/
def itemReserved (kind : Nat) (l : List Word) : Bool :=
  match kind with
  | 1 => imapReserved l
  | 2 => fld (wd l 0) 29 16 != 0 || fld (wd l 0) 13 12 != 0
  | 3 => fld (wd l 0) 63 21 != 0 || fld (wd l 0) 15 12 != 0
  | 4 => runReserved (wd l 0) (wd l 1)
  | 5 => cbReserved l
  | 6 => fld (wd l 0) 50 32 != 0
  | 7 => coefReserved l
  | _ => false

/-- A directory entry breaks the reserved check (R381). -/
def Sect.reserved (x : Sect) : Bool :=
  let w := fun (i : Nat) => wd x.words i
  fld (w 0) 27 0 != 0 || fld (w 4) 63 52 != 0 || w 5 != 0 || w 6 != 0 || w 7 != 0 || x.kind == 0 || decide (10 ≤ x.kind) ||
    (x.kind == 9 && decide (x.tensorId = 0 ∨ 0xF0002000 < x.tensorId))

def headerReserved (h : List Word) : Bool :=
  fld (wd h 0) 47 16 != 0 || fld (wd h 2) 63 8 != 0 || (List.range 4).any (fun i => wd h (4 + i) != 0)

/-- Where the image first breaks the reserved check: section and item, 0xFFFF and 0 for the header. -/
def Image.failReserved (m : Image) : Option (Nat × Nat) :=
  if headerReserved m.header then some (0xFFFF, 0)
  else
    match m.sects.find? Sect.reserved with
    | some x => some (x.idx, 0)
    | none =>
      (m.sects.findSome? (fun x => ((m.items x).findIdx? (itemReserved x.kind)).map (fun k => (x.idx, k)))).or
      ((m.all 8).findSome? (fun e =>
        if (usedSegs e.2.2 (m.nseg e.2.1)).any segReserved then some (e.1.idx, e.2.1) else none))

/-! ### The other checks (R309, R497 to R500) -/

/-- The (function, CID) pairs of the image, with where they stand. -/
def Image.contexts (m : Image) : List (Nat × Nat) := (m.all 3).map (fun e => (fld (wd e.2.2 0) 20 16, fld (wd e.2.2 0) 11 0))

/-- A CID that the image binds. -/
def Image.binds (m : Image) (cid : Nat) : Bool := cid != 0 && (m.contexts).any (fun c => c.2 == cid)

/-- The runs of a CID, in order, each with its section and item. -/
def Image.runs (m : Image) (cid : Nat) : List (Nat × Nat × PageRun) :=
  ((m.all 4).filter (fun e => e.1.cid == cid)).map (fun e => (e.1.idx, e.2.1, parseRun (wd e.2.2 0) (wd e.2.2 1)))

/-- The VALID pages of a CID that a tensor may lie on (R499). -/
def Image.tensorPages (m : Image) (s : State) (cid : Nat) : List PageRange :=
  ((m.runs cid).filter (fun e => e.2.2.state == 1 && paModule e.2.2.pa == s.moduleNo && paSpace e.2.2.pa == 0)).flatMap
    (fun e => e.2.2.pages)

/-- An item fails; the list `before` holds the items of the kind that stand before it. -/
def Image.itemFails (m : Image) (s : State) (x : Sect) (k : Nat) (l : List Word) : Bool :=
  match x.kind with
  | 2 =>
    let space := fld (wd l 0) 63 62
    let last := fld (wd l 0) 61 46 + fld (wd l 0) 45 30 + 1
    space == 3 || decide ((if space = 0 then 2304 - m.reserve else 65536) < last)
  | 3 =>
    let before := (m.all 3).takeWhile (fun e => !(e.1.idx == x.idx && e.2.1 == k))
    let p := (fld (wd l 0) 20 16, fld (wd l 0) 11 0)
    p.2 == 0 || before.any (fun e => fld (wd e.2.2 0) 20 16 == p.1 || fld (wd e.2.2 0) 11 0 == p.2)
  | 4 =>
    let r := parseRun (wd l 0) (wd l 1)
    let before := (m.runs x.cid).takeWhile (fun e => !(e.1 == x.idx && e.2.1 == k))
    !r.fits s m.reserve || before.any (fun e => overlap e.2.2.virt r.virt)
  | 5 => !cbScaleOk (cbScale l)
  | 6 => !m.buildOk l
  | 7 => !(parseCoef l).ok
  | 8 => !curveOk l (m.nseg k)
  | _ => false

/-- Blocks of the tensors that stand before a section, with the codebook store's where the image has codebooks (R384). -/
def Image.blocksBefore (m : Image) (x : Sect) : Nat :=
  (if (m.all 5).isEmpty && (m.all 6).isEmpty then 0 else 288) +
    ((m.sects.filter (fun y => y.kind == 9 && decide (y.idx < x.idx))).map (fun y => blocksOf y.len)).sum

/-- Tensor records that its section and those before it take. -/
def Image.recordsAt (m : Image) (x : Sect) : Nat :=
  b2n (!((m.all 5).isEmpty && (m.all 6).isEmpty)) + m.sects.countP (fun y => y.kind == 9 && decide (y.idx ≤ x.idx))

/-- A TENSOR section fails (R381, R382, R384, R499, R500). -/
def Image.tensorFails (m : Image) (s : State) (x : Sect) : Bool :=
  decide (x.count ≠ 1 ∨ 0xF0000000 ≤ x.tensorId ∨ x.va % 4096 ≠ 0 ∨ 2 ^ 27 < m.blocksBefore x + blocksOf x.len ∨
    65536 < m.recordsAt x) ||
    !m.binds x.cid || !covers (m.tensorPages s x.cid) x.va x.len

/-- Fields that a section of another kind must leave 0 (R639). -/
def Sect.idleOk (x : Sect) : Bool :=
  x.kind == 9 || (x.version == 0 && x.tensorId == 0 && x.va == 0 && (x.kind == 4 || x.cid == 0))

/-- A section fails as a whole. -/
def Image.sectFails (m : Image) (s : State) (x : Sect) : Bool :=
  let once := (x.kind == 1 || x.kind == 7 || x.kind == 8) && m.sects.any (fun y => y.kind == x.kind && decide (y.idx < x.idx))
  x.off % 64 != 0 || !m.readable x || (x.kind != 9 && !m.has x.off x.len) || once || !x.idleOk ||
  (match x.kind with
   | 1 => decide (64 < x.count) || !mapOk (mapOf (m.items x))
   | 4 => !m.binds x.cid
   | 7 => x.count != 16
   | 8 => x.count != 16
   | 9 => m.tensorFails s x
   | _ => false)

/-- The header fails (R498). -/
def Image.headerFails (m : Image) : Bool :=
  decide (fld (wd m.header 0) 63 48 ≠ 1 ∨ (wd m.header 3).toNat ≠ m.len ∨ m.len < 64 ∨ m.reserve < 16 ∨ 64 < m.reserve) ||
    !m.dirFits || !m.has 0 (64 + 64 * m.nsect)

/-- Where the image first fails another check: the lowest section in directory order, and its lowest item. -/
def Image.failOther (m : Image) (s : State) : Option (Nat × Nat) :=
  if m.headerFails then some (0xFFFF, 0)
  else m.sects.findSome? (fun x =>
    if m.sectFails s x then some (x.idx, 0)
    else ((m.items x).zipIdx.find? (fun e => m.itemFails s x e.2 e.1)).map (fun e => (x.idx, e.2)))

/-- R499: how the checks before the first write end. -/
def Image.fails (m : Image) (s : State) : Option (Status × Nat × Nat) :=
  match m.failReserved with
  | some x => some (stReservedNonzero, x)
  | none => (m.failOther s).map (fun x => (stBadDescriptor, x))

end Sys2Proof.Machine
end

