-- ==== Sys2Proof/Machine/Models.lean ====
section
/-!
DEFINITION. MODEL_LOAD and MODEL_UNLOAD (R494, R498 to R500, R579), and the changes that the hedge wardens apply (R28, R29).
-/
namespace Sys2Proof.Machine

/-! ### Applying an image (R499) -/

/-- The bytes that MODEL_CONFIG measures: header, directory and sections of kinds 0x01 to 0x08 as read. -/
def Image.config (m : Image) : List Byte :=
  slice m.bytes 0 (64 + 64 * m.nsect) ++
    (m.sects.filter (fun x => x.kind != 9)).flatMap (fun x => slice m.bytes x.off x.len)

/-- Local DRAM is undefined, but for what firmware keeps in its reserve, which it sets up again (R60, R499). -/
def undefineDram (s : State) : State :=
  { s with dram := { lost := some s.freeCtr, lostTo := reserveAt }, loose := [], freeCtr := s.freeCtr + 1 }

/-- The regions of an INTERLEAVE_MAP section, and its words as MODEL_LOAD gave them. -/
def Image.mapSect (m : Image) : Option Sect := m.sects.find? (fun x => x.kind == 1)

/-- The issuing units take up the interleave map; local DRAM is undefined after another map (R60, R61). -/
def applyMap (m : Image) (s : State) : State :=
  match m.mapSect with
  | none => s
  | some x =>
    let map := mapOf (m.items x)
    let raw := (m.items x).map (fun l => (wd l 1).toNat * 2 ^ 64 + (wd l 0).toNat)
    let s := if map = s.imap then s else undefineDram s
    { s with imap := map, mapRaw := raw }

/-- Write one Privet item. -/
def applyPrivet (l : List Word) (x : Xlate) : Xlate :=
  let first := fld (wd l 0) 61 46
  let e := (wd l 0).extractLsb' 0 16
  let set := fun (t : Tbl (BitVec 16)) =>
    (List.range (fld (wd l 0) 45 30 + 1)).foldl (fun t i => Tbl.set 0 t (first + i) e) t
  match fld (wd l 0) 63 62 with
  | 0 => { x with privet := set x.privet }
  | 1 => { x with hostPrivet := set x.hostPrivet }
  | _ => { x with flashPrivet := set x.flashPrivet }

/-- The Privet entries with the items of an image. -/
def Image.privets (m : Image) (x : Xlate) : Xlate := (m.all 2).foldl (fun x e => applyPrivet e.2.2 x) x

/-- Bind a context to its function, with a fresh page table (R341, R500). -/
def applyContext (c : Nat × Nat) (s : State) : State :=
  let s := makeContext s c.2
  { s with xl := { s.xl with fnCid := Tbl.set 0 s.xl.fnCid c.1 (BitVec.ofNat 12 c.2) } }

/-- Map the runs of the image (R497). -/
def applyRuns (m : Image) (s : State) : State :=
  forL (m.all 4) (fun e s =>
    match Tbl.get none s.xl.contexts e.1.cid with
    | none => s
    | some root =>
      let r := parseRun (wd e.2.2 0) (wd e.2.2 1)
      mapRun root r.write r s) s

/-- Install and build the codebooks. -/
def applyCbs (m : Image) (s : State) : State :=
  let s := if (m.all 5).isEmpty && (m.all 6).isEmpty then s else (makeStore s).getD s
  let s := forL (m.all 5) (fun e s => installCb s (cbId e.2.2) (cbOfWords e.2.2)) s
  forL (m.all 6) (fun e s => installCb s (fld (wd e.2.2 0) 63 52) (m.built e.2.2)) s

/-- Install the coefficients and the curves. -/
def applyRules (m : Image) (s : State) : State :=
  let s := forL (m.all 7) (fun e s =>
    { s with upd := { s.upd with coef := Tbl.set {} s.upd.coef e.2.1 (parseCoef e.2.2) } }) s
  forL (m.all 8) (fun e s => forN 16 (fun k s =>
    let g := parseSeg ((e.2.2.drop (2 * k)).take 2)
    { s with upd := { s.upd with curve := Tbl.set {} s.upd.curve (16 * e.2.1 + k) g } }) s) s

/-- Write a tensor's bytes over its pages, with the checksum of every block written (R386). -/
def writeTensor (l : List PageRange) (va : Nat) (data : List Byte) (s : State) : State :=
  forL l (fun r s =>
    let lo := max va (65536 * r.vpage)
    let n := r.meet va data.length
    if n = 0 then s
    else
      let off := paOff r.pa + (lo - 65536 * r.vpage)
      let s := dramWrite s off ((data.drop (lo - va)).take n)
      forN ((off + n - 1) / 4096 + 1 - off / 4096) (fun i s => resum s (4096 * (off / 4096 + i))) s) s

/-- Apply one TENSOR section; none where its bytes cannot be read. -/
def applyTensor (m : Image) (x : Sect) (s : State) : Option State :=
  if m.has x.off x.len then
    let l := m.tensorPages s x.cid
    (addRecord s x.tensorId x.version (blocksOf x.len) none).map (fun r =>
      writeTensor l x.va (slice m.bytes x.off x.len) (mapTensor r.2 l r.1 x.va x.len))
  else none

/-- Apply the TENSOR sections in turn: the state, the number written, and the section that failed. -/
def applyTensors (m : Image) : List Sect → Nat → State → State × Nat × Option Nat
  | [], n, s => (s, n, none)
  | x :: l, n, s =>
    match applyTensor m x s with
    | none => (s, n, some x.idx)
    | some s => applyTensors m l (n + 1) s

/-! ### No model resident (R494) -/

/-- Every version FREE, codebooks, contexts and page tables freed, records and pending faults gone, caches empty (R351,
R367, R384); requests of peers that still named a version are answered (R559) or dropped (R323). -/
def wipeModel (s : State) : State :=
  let s := dropAllTlbs { clearContexts s with
    slots := [], codebooks := [], counters := [], model := false, fwReserve := 0
    upd := { s.upd with closes := [], dirty := [] }
    xl := { s.xl with contexts := [], nextNode := 0, fnCid := [], pend := [], faultHeld := [], waiting := [] }
    ig := { s.ig with trecs := [], pages := [] } }
  let s := tidyCores { s with cores := s.cores.map (fun e => (e.1, { e.2 with cbUnit := [] })) }
  let s := forN 12 (fun h s => upHedge s h (fun x => { x with
    cbCache := [], entryCache := [], thicket := x.thicket.filter (fun l => l.tag.isNone) })) s
  runGrads (forL (s.bags.filter (fun b => b.home.isSome)) (fun b s => homeFail s b stUnmapped) s)

/-! ### MODEL_LOAD -/

/-- The response words (Table — admin layouts). -/
def loadWords (tensors books sect item : Nat) : List Word :=
  [at_ 63 32 tensors ||| at_ 31 0 books, at_ 63 48 sect ||| at_ 31 0 item]

/-- Every Privet entry returns to 0x0000 through the wardens, after the page tables have gone (R356); the command is
answered then. -/
def narrowAll (f k : Nat) (st : Status) (resp : List Word) (s : State) : State :=
  awaitWardens (tellWardens s (fun _ => .privet [])) f k (.narrowed st resp)

/-- The sections of kinds 0x03 to 0x09, in ascending KIND (R499). -/
def loadRest (f k : Nat) (m : Image) (s : State) : State :=
  let s := applyRules m (applyCbs m (applyRuns m (forL m.contexts applyContext s)))
  let books := (m.all 5).length + (m.all 6).length
  match applyTensors m (m.sects.filter (fun x => x.kind == 9)) 0 s with
  | (s, n, none) =>
    respond { s with model := true, upd := { s.upd with g := wd m.header 1 } } f k stOk (loadWords n books 0xFFFF 0)
  | (s, n, some i) => narrowAll f k stBadDescriptor (loadWords n books i 0) (wipeModel (undefineDram s))

/-- The Privet items go through the wardens before a page-table entry becomes VALID (R356). -/
def loadPrivets (f k : Nat) (m : Image) (s : State) : State :=
  if (m.all 2).isEmpty then loadRest f k m s
  else awaitWardens (tellWardens s (fun _ => .privet (m.privets s.xl).privet)) f k (.widened m)

/-- Apply an image that passed every check, after its measurement: an interleave map first, through the wardens (R61). -/
def loadApply (f : FnId) (k : SlotId) (m : Image) (s : State) : State :=
  let s := extendMr s 4 0x0005 (at_ 15 0 m.nsect) (Config.shake256 m.config)
  let s := { s with fwReserve := m.reserve }
  match m.mapSect with
  | none => loadPrivets f k m s
  | some x => awaitWardens (tellWardens s (fun _ => .map (mapOf (m.items x)))) f k (.mapped m)

/-- What follows the last report of a change (R29, R61, R356; log entry 114). -/
def afterWardens (f k : Nat) (after : AfterWardens) (s : State) : State :=
  match after with
  | .mode b => if f < 32 then modeDone s f k b else s
  | .narrowed st resp =>
    respond { s with xl := { s.xl with privet := [], hostPrivet := [], flashPrivet := [] } } f k st resp
  | .mapped m => loadPrivets f k m (applyMap m s)
  | .widened m => loadRest f k m { s with xl := m.privets s.xl }

/-- Commands that have every report go on (WARDEN_COMMAND_WAIT_DONE). -/
def wardensDone (s : State) : State :=
  let ready := fun (w : AdminWait) => match w with
    | .wardens _ _ left _ => left.isEmpty
    | _ => false
  let done := s.adminWaits.filter ready
  let s := { s with adminWaits := s.adminWaits.filter (fun w => !ready w) }
  forL done (fun w s => match w with
    | .wardens f k _ a => afterWardens f k a s
    | _ => s) s

/-- One report of hedge h. -/
def wardenReport (s : State) (h : Nat) : State :=
  wardensDone { s with adminWaits := updFirst (fun w => w.owes h) (fun w => w.reported h) s.adminWaits }

/-- R29: hedge h's warden applies its next change and reports it. -/
def execWardenConfigApply (h : HedgeId) (s : State) : Out :=
  .next (whenPowered s fun s =>
    match (s.hedge h).wardenQ with
    | [] => s
    | c :: rest => wardenReport (applyCfg (upHedge s h (fun x => { x with wardenQ := rest })) h c) h)

def modelLoadRun (f : FnId) (k : SlotId) (image : HostRd) (s : State) : State :=
  let key := mailKey f k
  let len := s.reqF key 1 39 0
  let m : Image := ⟨if image.ok then slice image.bytes 0 len else image.bytes.take len, len, image.ok⟩
  if s.model ∨ (s.req key 0).toNat % 4096 ≠ 0 then respond s f k stBadDescriptor (loadWords 0 0 0xFFFF 0)
  else
    withHost s f k image.ok fun s =>
      match m.fails s with
      | some x => respond s f k x.1 (loadWords 0 0 x.2.1 x.2.2)
      | none => loadApply f k m s

/-- MODEL_LOAD. -/
def execModelLoad (f : FnId) (k : SlotId) (image : HostRd) (s : State) : Out :=
  let key := mailKey f k
  .next (admin s f k 0x10 (s.reqF key 1 63 40 != 0 || !s.tailZero key 2) (modelLoadRun f k image))

/-! ### MODEL_UNLOAD -/

/-- R441, R494: nothing stands in the way. -/
def State.mayUnload (s : State) : Bool :=
  s.jobs.isEmpty && s.sqs.isEmpty && s.migrates.isEmpty && s.routines.held.isNone && s.heldSwaps.isEmpty

def modelUnloadRun (f : FnId) (k : SlotId) (s : State) : State :=
  if s.mayUnload then
    narrowAll f k stOk [] (extendMr (wipeModel s) 4 0x0008 0 (List.replicate 64 0))
  else refuse s f k stBadDescriptor

/-- MODEL_UNLOAD; it is accepted with no model resident (log entry 42). -/
def execModelUnload (f : FnId) (k : SlotId) (s : State) : Out :=
  .next (admin s f k 0x11 (!s.tailZero (mailKey f k) 0) (modelUnloadRun f k))

end Sys2Proof.Machine
end

