-- ==== Sys2Proof/Machine/Nvme.lean ====
section
/-!
DEFINITION. The NVMe-oF initiator (R562 to R566): Reads for tail rows and for MIGRATE from flash, Writes for MIGRATE to
flash, how they end, and the connections.
-/
namespace Sys2Proof.Machine

def State.nvmeCtl (s : State) (e : Nat) : NvmeCtl := Tbl.get {} s.fab.nvme e
def upNvme (s : State) (e : Nat) (f : NvmeCtl → NvmeCtl) : State :=
  { s with fab := { s.fab with nvme := Tbl.upd {} s.fab.nvme e f } }

/-- The entry of a flash-window offset (R563). -/
def flashEntry (o : Nat) : Nat := o / 2 ^ 40

/-- The LBA of a flash-window offset (R563). -/
def State.flashLba (s : State) (o : Nat) : Nat :=
  let r := recFlash (flashEntry o)
  leAt s.fab.applied (r + 27) 8 + o % 2 ^ 40 / 4096

/-- The controller takes commands: connected, usable, and its 8 I/O queues of depth 128 not full (R562). -/
def NvmeCtl.ready (c : NvmeCtl) : Bool := c.up && c.usable && decide (c.cmds.length < 8 * 127)

/-- Issue a command over whole LBAs. -/
def issueNvme (s : State) (e : Nat) (isWrite : Bool) (off n : Nat) (bag : Option (Nat × Nat)) (data : List PWord) : State :=
  let tag := s.fab.nextNvme
  let first := off / 4096
  let count := (off + n - 1) / 4096 + 1 - first
  let s := { s with fab := { s.fab with nextNvme := tag + 1 } }
  let s := upNvme s e (fun c => { c with cmds := c.cmds ++ [⟨tag, isWrite, off, bag, s.ticker⟩] })
  emit s (.nvme e tag isWrite (s.flashLba (4096 * first)) count data)

/-- The oldest tail row that is asked of an entry: its bag, itself and its length. -/
def State.askedRow (s : State) (e : Nat) : Option (Bag × TailRow) :=
  s.bags.findSome? (fun b =>
    (b.tails.find? (fun r => r.state == .asked && flashEntry r.off == e)).map (fun r => (b, r)))

/-- Bytes of a row as it is pooled. -/
def Bag.rowBytes (b : Bag) (s : State) : Nat :=
  let t := (s.slot b.key).entry
  8 * rowWords t.format t.elems

def setTail (s : State) (bag pos : Nat) (st : TailState) : State :=
  upBag s bag (fun b => { b with tails := updFirst (fun r => r.pos == pos) (fun r => { r with state := st }) b.tails })

/-- The flash-window offset of the page under way of the oldest MIGRATE, where it is read from an entry. -/
def State.migrateFrom (s : State) (e : Nat) : Option Nat :=
  match s.migrates with
  | [] => none
  | m :: _ =>
    let pa := m.src s
    if s.route pa = .flash ∧ m.got.isNone ∧ m.put.isNone ∧ !s.sourceBusy m ∧ flashEntry (paOff pa) = e then some (paOff pa) else none

/-- A command of a MIGRATE is outstanding. -/
def NvmeCtl.moving (c : NvmeCtl) : Bool := c.cmds.any (fun x => x.bag.isNone)

/-- R564: the next Read of an entry: a tail row, else the page of a MIGRATE. -/
def execNvmeRead (entry : Fin 16) (s : State) : Out :=
  .next (whenPowered s fun s =>
    let e := entry.val
    let c := s.nvmeCtl e
    if !c.ready then s
    else
      match s.askedRow e, s.migrateFrom e with
      | some (b, r), _ => setTail (issueNvme s e false r.off (b.rowBytes s) (some (b.id, r.pos)) []) b.id r.pos .issued
      | none, some off => if c.moving then s else issueNvme s e false off 65536 none []
      | none, none => s)

/-- R564: a Write of the page of a MIGRATE to flash. -/
def execNvmeWrite (entry : Fin 16) (s : State) : Out :=
  .next (whenPowered s fun s =>
    let e := entry.val
    let c := s.nvmeCtl e
    match s.migrates with
    | [] => s
    | m :: _ =>
      match m.put with
      | none => s
      | some l =>
        let off := paOff (m.dst s)
        if c.ready ∧ !c.moving ∧ flashEntry off = e then issueNvme s e true off 65536 none l else s)

/-- The words a Read carried reach what asked for them. -/
def nvmeDeliver (x : NvmeCmd) (data : List PWord) (s : State) : State :=
  match x.bag with
  | some (id, pos) =>
    match s.bag id with
    | none => s
    | some b =>
      let n := b.rowBytes s / 8
      let w := data.drop (x.offset % 4096 / 8)
      setTail s id pos (.here ((w ++ List.replicate n PWord.bad).take n))
  | none => upMigration s (fun m => { m with got := some ((data ++ List.replicate 8192 PWord.bad).take 8192) })

/-- R565: a command has failed: its words are poison, or its MIGRATE stops. -/
def nvmeFail (x : NvmeCmd) (s : State) : State :=
  if x.isWrite then
    match s.migrates with
    | [] => s
    | m :: _ => if m.put.isSome then stopMigration s m stPoisoned else s
  else nvmeDeliver x [] s

/-- R565: a command completes. -/
def execNvmeCompletion (entry : Fin 16) (tag : Nat) (r : NvmeEnd) (s : State) : Out :=
  .next (whenPowered s fun s =>
    match (s.nvmeCtl entry).cmds.find? (fun x => x.tag == tag) with
    | none => s
    | some x =>
      let s := upNvme s entry (fun c => { c with cmds := c.cmds.filter (fun y => y.tag != tag) })
      match r with
      | .error => nvmeFail x { s with fab := { s.fab with nvmeErrors := s.fab.nvmeErrors + 1 } }
      | .ok data =>
        if x.isWrite then
          let s := { s with fab := { s.fab with nvmeWrites := s.fab.nvmeWrites + 1 } }
          match s.migrates with
          | [] => s
          | m :: _ => if m.put.isSome then pageMoved s m else s
        else nvmeDeliver x data { s with fab := { s.fab with nvmeReads := s.fab.nvmeReads + 1 } })

/-- R565: a command is not completed within 100 ms. -/
def execNvmeCommandTimeout (entry : Fin 16) (tag : Nat) (s : State) : Out :=
  .next (whenPowered s fun s =>
    match (s.nvmeCtl entry).cmds.find? (fun x => x.tag == tag) with
    | none => s
    | some x =>
      if x.sentAt + 100000000 ≤ s.ticker then
        let s := upNvme s entry (fun c => { c with cmds := c.cmds.filter (fun y => y.tag != tag) })
        nvmeFail x { s with fab := { s.fab with nvmeTimeouts := s.fab.nvmeTimeouts + 1 } }
      else s)

/-- R565, R566: a connection is lost, and every command with it. -/
def execNvmeConnectionLost (entry : Fin 16) (s : State) : Out :=
  .next (whenPowered s fun s =>
    let c := s.nvmeCtl entry
    if c.up then
      let s := upNvme s entry (fun c => { c with up := false, lost := true, cmds := [] })
      let s := forL c.cmds (fun x s => nvmeFail x { s with fab := { s.fab with nvmeErrors := s.fab.nvmeErrors + 1 } }) s
      fabricEvent s flFlashDown 0xFF entry
    else s)

/-- R562, R566: firmware attempts a connection every 1 s; `up` says that it succeeds, `usable` that the namespace has the
format of R562. -/
def execNvmeReconnect (entry : Fin 16) (up usable : Bool) (s : State) : Out :=
  .next (whenFw s fun s =>
    let e := entry.val
    let c := s.nvmeCtl e
    if s.fGrade ∧ s.fab.applied ≠ [] ∧ recFlashValid s.fab.applied e ∧ !c.up ∧ due s (mkConnect e) 1000000000 then
      let s := emit (mark s (mkConnect e) 1000000000) (.nvmeConnect e (slice s.fab.applied (recFlash e + 5) 16) (leAt s.fab.applied (recFlash e + 21) 2)
        (slice s.fab.applied (recFlash e + 35) 223))
      if up then
        let s := upNvme s e (fun c => { c with up := true, usable := usable, lost := false })
        if c.lost then fabricEvent s flFlashUp 0xFF e else s
      else s
    else s)

/-- R562: Keep Alive every 1 s. -/
def execNvmeKeepAlive (entry : Fin 16) (s : State) : Out :=
  .next (whenPowered s fun s =>
    let e := entry.val
    if (s.nvmeCtl e).up ∧ due s (mkKeepAlive e) 1000000000 then
      emit (mark s (mkKeepAlive e) 1000000000) (.nvmeKeepAlive e)
    else s)

end Sys2Proof.Machine
end

