-- ==== Sys2Proof/Machine/Ptp.lean ====
section
/-!
DEFINITION. Domain time (R560, R561): what a master sends and answers, and how a slave follows it.
-/
namespace Sys2Proof.Machine

/-- ROLE of the applied record: 0 off, 1 master, 2 slave. -/
def State.ptpRole (s : State) : Nat := if s.fab.applied = [] then 0 else nbits (recPtp s.fab.applied) 1 0

/-- The time between Syncs, 2^LOG_SYNC s, in ns. -/
def State.syncPeriod (s : State) : Nat := 1000000000 / 2 ^ (-(signed 8 (nbits (recPtp s.fab.applied) 39 32))).toNat

/-- PTP_PORT, or BACKUP_PORT (0x1F: none) while that is down, is up. -/
def State.ptpPortUp (s : State) : Bool :=
  let p := recPtp s.fab.applied
  (s.port (nbits p 20 16)).up || (nbits p 28 24 != 0x1F && (s.port (nbits p 28 24)).up)

/-- The port that PTP runs on (R560). -/
def State.ptpPort (s : State) : Nat :=
  let p := recPtp s.fab.applied
  if (s.port (nbits p 20 16)).up then nbits p 20 16 else nbits p 28 24

/-- DOMAIN_NUMBER of the applied record. -/
def State.ptpDomain (s : State) : Nat := nbits (recPtp s.fab.applied) 15 8

/-- R561: a master sends Sync with its own Ticker as domain time. -/
def execPtpSyncSend (s : State) : Out :=
  .next (whenPowered s fun s =>
    if s.ptpRole = 1 ∧ s.ptpPortUp ∧ due s mkPtp s.syncPeriod then
      emit (mark s mkPtp s.syncPeriod) (.ptpSync s.ptpPort s.ptpDomain s.tickerW)
    else s)

/-- R560: a master answers a Delay_Req with the time at which it arrived. -/
def execPtpDelayReq (slave rxTime : Nat) (s : State) : Out :=
  .next (whenPowered s fun s =>
    if s.ptpRole = 1 ∧ s.ptpPortUp then emit s (.ptpDelayResp s.ptpPort s.ptpDomain slave (BitVec.ofNat 64 rxTime)) else s)

/-- The rate trim within ±25 ppm, in parts per 10^9 (R46). -/
def clampTrim (t : Int) : Int := max (-25000) (min 25000 t)

/-- R561: a Sync and Delay_Resp pair reaches a slave.  `offset` is the measured offset to the master in ns, `trim` the
servo's RATE_TRIM. -/
def execPtpSync (offset trim : Int) (s : State) : Out :=
  .next (whenPowered s fun s =>
    if s.ptpRole = 2 ∧ s.ptpPortUp then
      let good := if -100 ≤ offset ∧ offset ≤ 100 then (if s.time.ptpState = 3 then 0 else s.fab.ptpGood) + 1 else 0
      let state : BitVec 2 := if 16 ≤ good then 2 else if s.time.ptpState = 2 then 2 else 1
      { s with
        time := { s.time with
          ptpState := state
          domainOffset := s.time.domainOffset + BitVec.ofInt 64 offset
          rateTrim := BitVec.ofInt 32 (clampTrim trim) }
        fab := { s.fab with ptpGood := good, ptpLastSync := s.ticker, lastOffset := BitVec.ofInt 64 offset } }
    else s)

/-- R561: no Sync for 2 s. -/
def execPtpHoldover (s : State) : Out :=
  .next (whenPowered s fun s =>
    if s.ptpRole = 2 ∧ (s.time.ptpState = 1 ∨ s.time.ptpState = 2) ∧ s.fab.ptpLastSync + 2000000000 ≤ s.ticker then
      { s with time := { s.time with ptpState := 3 } }
    else s)

end Sys2Proof.Machine
end

