-- ==== Sys2Proof/Machine/Registers.lean ====
section
/-!
DEFINITION. The registers of BAR0 (R514 to R520) and what they read as, and the identity of a function (R511): doorbells, queue heads, status registers, the fault-queue page, the
time-base page, mailbox headers and payloads, the MSI-X table, and the writes of configuration space that the rules
name.
-/
namespace Sys2Proof.Machine

/-! ### Ring positions (R413) -/

/-- Entries from a to b in ring order. -/
def ahead (log2 a b : Nat) : Nat := (b + 2 ^ log2 - a) % 2 ^ log2

/-- A new HEAD that lies from the current HEAD to TAIL. -/
def headOk (log2 head tail v : Nat) : Bool := decide (v < 2 ^ log2 ∧ ahead log2 head v ≤ ahead log2 head tail)

/-- A new TAIL that does not move backward. -/
def tailOk (q : SubQ) (v : Nat) : Bool := decide (v < 2 ^ q.log2 ∧ ahead q.log2 q.head q.tail ≤ ahead q.log2 q.head v)

/-- Count a doorbell write ignored. -/
def dbIgnore (s : State) (f : Nat) : State := { s with dbIgnored := Tbl.upd 0 s.dbIgnored f (· + 1) }

/-- Count a slot or queue-head write ignored (Table — mailbox control page). -/
def mbIgnore (s : State) : State := { s with mbIgnored := s.mbIgnored + 1 }

/-- A write to SQ_DBq. -/
def sqTail (s : State) (f q v : Nat) : State :=
  match s.sqs.find? (fun x => x.fn == f && x.qid == q && x.dying.isNone) with
  | none => dbIgnore s f
  | some x =>
    if tailOk x v then
      { s with sqs := updFirst (fun x => x.fn == f && x.qid == q) (fun x => { x with tail := v }) s.sqs }
    else dbIgnore s f

/-- A write to CQ_DBc. -/
def cqHead (s : State) (f c v : Nat) : State :=
  match s.cqs.find? (fun x => x.fn == f && x.cid == c) with
  | none => dbIgnore s f
  | some x =>
    if headOk x.log2 x.head x.tail v then
      { s with cqs := updFirst (fun x => x.fn == f && x.cid == c) (fun x => { x with head := v }) s.cqs }
    else dbIgnore s f

/-- A HEAD write to a queue of the physical function, and whether it is ignored and counted. -/
def PfQ.setHead (q : Option PfQ) (v : Nat) : Option PfQ × Bool :=
  match q with
  | none => (none, true)
  | some q => if headOk q.log2 q.head q.tail v then (some { q with head := v }, false) else (some q, true)

def eqHead (s : State) (v : Nat) : State :=
  let r := PfQ.setHead s.eq v
  if r.2 then mbIgnore s else { s with eq := r.1 }

def hqHead (s : State) (v : Nat) : State :=
  let r := PfQ.setHead s.hq v
  if r.2 then mbIgnore s else { s with hq := r.1 }

def fqHead (s : State) (v : Nat) : State :=
  let r := PfQ.setHead s.fq v
  if r.2 then mbIgnore s else { s with fq := r.1 }

/-- R412, R413: a TAIL doorbell. -/
def execSqTailWrite (f : FnId) (q : Fin 256) (v : Word) (s : State) : Out :=
  .next (whenPresent s fun s => sqTail s f q (fld v 15 0))

/-- R412, R413: a completion queue's HEAD. -/
def execCqHeadWrite (f : FnId) (c : Fin 128) (v : Word) (s : State) : Out :=
  .next (whenPresent s fun s => cqHead s f c (fld v 15 0))

/-- R482: the event queue's HEAD; a virtual function's write is ignored. -/
def execEqHeadWrite (f : FnId) (v : Word) (s : State) : Out :=
  .next (whenPresent s fun s => if f.val = 0 then eqHead s (fld v 15 0) else s)

/-- R482: the hot-page queue's HEAD. -/
def execHqHeadWrite (f : FnId) (v : Word) (s : State) : Out :=
  .next (whenPresent s fun s => if f.val = 0 then hqHead s (fld v 15 0) else s)

/-- R482: the fault queue's HEAD. -/
def execFqHeadWrite (f : FnId) (v : Word) (s : State) : Out :=
  .next (whenPresent s fun s => if f.val = 0 then fqHead s (fld v 15 0) else s)

/-! ### The time-base page (R47, R48) -/

/-- All 768 channels are aligned (R42). -/
def State.chlock (s : State) : Bool := (List.range 768).all (fun c => (s.chan c).aligned)

/-- TB_STATUS. -/
def State.tbStatus (s : State) : Word :=
  (s.time.ptpState.zeroExtend 64 <<< 6) ||| at_ 5 5 (b2n s.time.wallValid) ||| at_ 4 4 (b2n s.chlock) ||| at_ 3 3 1 |||
    at_ 2 2 (b2n s.time.persistOk) ||| at_ 1 1 (b2n s.time.refLoss)

/-- A time-base register. -/
def State.tbReg (s : State) (offset : Nat) : Word :=
  match offset with
  | 0x000 => s.tickerW
  | 0x008 => s.time.refcyc
  | 0x010 => s.tbStatus
  | 0x018 => s.time.wallOffset
  | 0x020 => s.time.domainOffset
  | 0x028 => s.time.rateTrim.zeroExtend 64
  | 0x030 => s.poweredS
  | 0x038 => s.time.persistedS
  | 0x040 => s.time.powerUps.zeroExtend 64
  | _ => 0

/-! ### What registers read as (R11, R412, R434, R478, R482, R511, R515, R518) -/

/-- The current MB_HDR without its STATE, for a 4-byte write to one of its halves. -/
def Mbox.hdr (m : Mbox) : Word :=
  (m.opcode.zeroExtend 64 <<< 48) ||| (m.seq.zeroExtend 64 <<< 32) ||| (m.verMajor.zeroExtend 64 <<< 24) |||
    (m.verMinor.zeroExtend 64 <<< 16)

/-- A word of a mailbox slot (Table — mailbox slot; TIME_BASIS is 0b00 under R55). -/
def Mbox.reg (m : Mbox) (offset : Nat) : Word :=
  match offset with
  | 0x00 => (m.state.zeroExtend 64 <<< 62) ||| m.hdr ||| m.status.zeroExtend 64
  | 0x08 => (m.respLen.zeroExtend 64 <<< 16) ||| m.reqLen.zeroExtend 64
  | 0x10 => m.ticker
  | 0x18 => at_ 61 61 (b2n m.wallValid) ||| m.powerUps.zeroExtend 64
  | _ => BitVec.ofNat 64 (leNat ((List.range 8).map (fun i => Tbl.get 0 m.payload (offset - 0x20 + i))))

/-- STATE, and the position the device moves, beside the one the host moves. -/
def ringReg (state device host : Nat) : Word := at_ 49 48 state ||| at_ 47 32 device ||| at_ 15 0 host

/-- EQ_DB, HQ_DB and FQ_DB. -/
def PfQ.reg (q : Option PfQ) : Word :=
  match q with
  | none => 0
  | some q => ringReg (if q.full then 2 else 1) q.tail q.head

/-- Descriptor 0 of the queue's first submission is here, and the host has not written all of its entries (R428). -/
def State.awaitsRest (s : State) (q : SubQ) : Bool :=
  match s.ready q, (s.dentry q 0).bind (·.words) with
  | .no, some d => decide (ahead q.log2 q.head q.tail < fld (wd d 0) 55 45)
  | _, _ => false

/-- SQ_DBq. -/
def State.sqReg (s : State) (f q : Nat) : Word :=
  match s.sqs.find? (fun x => x.fn == f && x.qid == q && x.dying.isNone) with
  | none => 0
  | some x => ringReg (if s.awaitsRest x then 2 else 1) x.head x.tail

/-- CQ_DBc: STATE 0b10 while it holds 2^n − 1 entries. -/
def State.cqReg (s : State) (f c : Nat) : Word :=
  match s.cqs.find? (fun x => x.fn == f && x.cid == c) with
  | none => 0
  | some x => ringReg (if ahead x.log2 x.head x.tail = 2 ^ x.log2 - 1 then 2 else 1) x.tail x.head

/-- A word of the MSI-X table; the mask bit of a vector is the one that stands. -/
def State.msixReg (s : State) (f offset : Nat) : Word :=
  let w := BitVec.ofNat 64 (leNat ((List.range 8).map (fun i => Tbl.get 0 s.link.msixTable (32768 * f + offset + i))))
  if offset % 16 = 8 then
    (w &&& ~~~(1#64 <<< 32)) ||| at_ 32 32 (b2n !(Tbl.get false s.link.vecOpen (2048 * f + offset / 16)))
  else w

/-- A word of the MSI-X pending bit array. -/
def State.pbaReg (s : State) (f offset : Nat) : Word :=
  BitVec.ofNat 64 ((List.range 64).map (fun i => b2n (Tbl.get false s.link.vecPending (2048 * f + 8 * offset + i)) * 2 ^ i)).sum

/-- A word of a function window (Table — function window). -/
def State.windowReg (s : State) (f offset : Nat) : Word :=
  if offset < 0x1000 then s.tbReg offset
  else if offset < 0x5000 then (s.mail (mailKey f ((offset - 0x1000) / 0x1000))).reg (offset % 0x1000)
  else if offset < 0x6000 then
    if f ≠ 0 then 0
    else
      match offset - 0x5000 with
      | 0x00 => PfQ.reg s.eq
      | 0x08 => PfQ.reg s.hq
      | 0x10 => PfQ.reg s.fq
      | 0x18 => regAt 63 32 s.eqDropped ||| regAt 31 0 s.mbIgnored
      | _ => 0
  else if offset < 0x6800 then s.sqReg f ((offset - 0x6000) / 8)
  else if offset < 0x6C00 then s.cqReg f ((offset - 0x6800) / 8)
  else if offset = 0x6C00 then regAt 31 0 (Tbl.get 0 s.dbIgnored f)
  else if offset = 0x7008 then
    if f ≠ 0 then 0 else at_ 47 32 s.xl.pend.length ||| regAt 31 16 s.xl.stale ||| regAt 15 0 s.xl.heldFull
  else if offset < 0x8000 then 0
  else if offset < 0x10000 then s.msixReg f (offset - 0x8000)
  else if offset < 0x10100 then s.pbaReg f (offset - 0x10000)
  else 0

/-- A word of the host-link status page (R518). -/
def State.linkReg (s : State) (offset : Nat) : Word :=
  let l := s.link
  match offset with
  | 0x00 => (l.rate.zeroExtend 64 <<< 28) ||| (l.width.zeroExtend 64 <<< 24) ||| at_ 23 23 (b2n l.flit) |||
      at_ 22 22 (b2n l.reversed) ||| (l.ideInsecure.zeroExtend 64 <<< 8) ||| l.ideEnabled.zeroExtend 64
  | 0x08 => regAt 63 48 l.replays ||| regAt 47 32 l.correctable ||| regAt 31 16 l.rxFailed ||| regAt 15 0 l.badAccess
  | 0x10 => BitVec.ofNat 64 ((List.range 32).map (fun f => b2n (s.blocked f) * 2 ^ f)).sum
  | 0x18 => l.hwin.zeroExtend 64 <<< 16
  | 0x20 => regAt 31 16 l.flrs ||| regAt 15 0 l.linkResets
  | _ => 0

/-- The 8-byte register at an aligned offset of a function's BAR0 (R514 to R518): its present value. -/
def State.bar0Reg (s : State) (f offset : Nat) : Word :=
  if offset < 0x20000 then s.windowReg f offset
  else if f = 0 ∧ offset < 0x21000 then s.linkReg (offset - 0x20000)
  else 0

/-- What a read of 4 or 8 bytes returns; the high half of a time-base register is the one latched for the function (R48). -/
def State.bar0Read (s : State) (f offset : Nat) (eight : Bool) : Word :=
  let w := s.bar0Reg f (offset / 8 * 8)
  if eight then w
  else if offset % 8 = 0 then at_ 31 0 (fld w 31 0)
  else if offset < 0x1000 then (Tbl.get 0 s.time.latch (4096 * f + offset / 8 * 8)).zeroExtend 64
  else at_ 31 0 (fld w 63 32)

/-- What the SR-IOV capability reports (R513, R514): TotalVFs, First VF Offset, VF Stride, and the page sizes it supports, in
bytes. -/
structure SriovCap where
  totalVfs    : Nat := 31
  firstOffset : Nat := 1
  stride      : Nat := 1
  pageSizes   : List Nat := [4096, 8192, 16384, 32768, 65536, 131072]
deriving DecidableEq, Repr

/-- The identity of a function in configuration space, its Device Serial Number (R510) and its size of BAR0 in bytes (R511,
R514). -/
structure PciId where
  vendor    : BitVec 16
  device    : BitVec 16
  revision  : BitVec 8
  classCode : BitVec 24
  subVendor : BitVec 16
  subsystem : BitVec 16
  serial    : Word
  bar0      : Nat
  sriov     : Option SriovCap
deriving DecidableEq, Repr

/-- R511: Table — configuration identity; the vendor's number is PCI-SIG's. -/
def State.identity (s : State) (f : Nat) : PciId :=
  { vendor := Config.pciVendor, device := if f = 0 then 0x50C1 else 0x50C2, revision := 0xA1, classCode := 0x120000
    subVendor := Config.pciVendor, subsystem := BitVec.ofNat 16 s.flash.grade, serial := s.flash.serial
    bar0 := if f = 0 then 2 ^ 24 else 2 ^ 17, sriov := if f = 0 then some {} else none }

/-! ### Registers that a read clears -/

/-- A BAR0 request that is refused counts in BAD_ACCESS (R516, R517). -/
def badAccess (s : State) : State := { s with link := { s.link with badAccess := s.link.badAccess + 1 } }

/-- Answer a register read. -/
def answer (s : State) (f offset : Nat) (v : Word) : State := emit s (.regRead f offset (some v))

/-- R412: DB_STATUS. -/
def execDbStatusRead (f : FnId) (s : State) : Out :=
  .next (whenPresent s fun s =>
    let s' := answer s f 0x6C00 (s.bar0Reg f 0x6C00)
    { s' with dbIgnored := Tbl.set 0 s.dbIgnored f 0 })

/-- R482: MB_STATUS; 0 in a virtual function. -/
def execMbStatusRead (f : FnId) (s : State) : Out :=
  .next (whenPresent s fun s =>
    if f.val = 0 then
      { answer s f 0x5018 (s.bar0Reg f 0x5018) with eqDropped := 0, mbIgnored := 0 }
    else answer s f 0x5018 0)

/-- R368: FQ_STATUS; 0 in a virtual function (R515). -/
def execFqStatusRead (f : FnId) (s : State) : Out :=
  .next (whenPresent s fun s =>
    if f.val = 0 then
      let s := answer s f 0x7008 (s.bar0Reg f 0x7008)
      { s with xl := { s.xl with stale := 0, heldFull := 0 } }
    else answer s f 0x7008 0)

/-- R518: HL_ERR. -/
def execHlErrRead (s : State) : Out :=
  .next (whenPresent s fun s =>
    let s := answer s 0 0x20008 (s.bar0Reg 0 0x20008)
    { s with link := { s.link with replays := 0, correctable := 0, rxFailed := 0, badAccess := 0 } })

/-- R518: HL_RESETS. -/
def execHlResetsRead (s : State) : Out :=
  .next (whenPresent s fun s =>
    let s' := answer s 0 0x20020 (s.bar0Reg 0 0x20020)
    { s' with link := { s'.link with flrs := 0, linkResets := 0 } })

/-- R520: HL_HWIN. -/
def hwin (s : State) (v : Word) : State :=
  let b := fld v 63 16
  if s.model || decide (2 ^ 64 < b * 65536 + 2 ^ 44) then s
  else { s with link := { s.link with hwin := BitVec.ofNat 48 b } }

def execHlHwinWrite (v : Word) (s : State) : Out := .next (whenPresent s fun s => hwin s v)

/-! ### Reads of the time-base page (R48) -/

/-- R48: a 4-byte read at a register's low offset latches the high half for that function; the read at offset + 4 returns
it; one that is not aligned is refused (R516). -/
def execTbLowHalfRead (f : FnId) (offset : Nat) (s : State) : Out :=
  .next (whenPresent s fun s =>
    if offset % 4 = 0 ∧ offset < 4096 then
      let s' := answer s f offset (s.bar0Read f offset false)
      if offset % 8 = 0 then
        { s' with time := { s'.time with
          latch := Tbl.set 0 s'.time.latch (4096 * f + offset) (BitVec.ofNat 32 (fld (s.tbReg offset) 63 32)) } }
      else s'
    else if offset % 4 ≠ 0 then emit (badAccess s) (.regRead f offset none)
    else s)

/-! ### The fault-queue page (R365, R366, R368) -/

/-- Count a resolution as stale. -/
def staleResolve (s : State) : State := { s with xl := { s.xl with stale := s.xl.stale + 1 } }

/-- A write to FQ_RESOLVE that moves the leaf of a pending DEMAND fault to a state. -/
def resolve (s : State) (tag : BitVec 16) (st : Nat) : State :=
  match s.xl.pend.find? (fun p => p.tag == some tag) with
  | none => staleResolve s
  | some p =>
    if pteState (s.node p.leaf) = stDemand then
      retirePend (setNode s p.leaf (pteSetState (s.node p.leaf) st)) p.leaf
    else staleResolve s

/-- R365: RELEASE makes the leaf VALID. -/
def execFqResolveRelease (f : FnId) (tag : BitVec 16) (s : State) : Out :=
  .next (whenFw s fun s => if f.val = 0 then resolve s tag stValid else s)

/-- R365: FAIL makes the leaf INVALID. -/
def execFqResolveFail (f : FnId) (tag : BitVec 16) (s : State) : Out :=
  .next (whenFw s fun s => if f.val = 0 then resolve s tag stInvalid else s)

/-! ### Mailbox slots (R478 to R480) -/

/-- A slot with the fields of an MB_HDR write, its STATE as it was. -/
def Mbox.fields (m : Mbox) (v : Word) : Mbox :=
  { m with opcode := v.extractLsb' 48 8, seq := v.extractLsb' 32 16, verMajor := v.extractLsb' 24 8,
           verMinor := v.extractLsb' 16 8 }

/-- A write to MB_HDR: STATE 0b01 posts the slot's command, or is ignored and counted; STATE 0b00 releases a slot that
has been answered; any other write to a free slot sets its fields (log entry 29). -/
def mbHdr (s : State) (key : Nat) (v : Word) : State :=
  let m := s.mail key
  if fld v 63 62 = 1 then
    if m.state = 0 then
      upMail { s with mbOrder := s.mbOrder + 1 } key (fun m => { m.fields v with
        state := 1, order := s.mbOrder + 1, started := false, applied := 0 })
    else mbIgnore s
  else if fld v 63 62 = 0 ∧ m.state = 3 then upMail s key (fun m => { m.fields v with state := 0 })
  else if m.state = 0 then upMail s key (fun m => m.fields v)
  else s

/-- R480: software releases a slot. -/
def execMbRelease (f : FnId) (k : SlotId) (s : State) : Out :=
  .next (whenPresent s fun s =>
    if (s.mail (mailKey f k)).state = 3 then upMail s (mailKey f k) (fun m => { m with state := 0 }) else s)

/-- A write into a mailbox slot, at an offset of the slot. -/
def slotWrite (s : State) (key offset : Nat) (eight : Bool) (v : Word) : State :=
  let m := s.mail key
  let busy := m.state == 1 || m.state == 2
  let lo := fld v 31 0
  if offset = 0 then
    if eight then mbHdr s key v
    else if busy then s
    else upMail s key (fun m => m.fields (at_ 63 32 (fld m.hdr 63 32) ||| at_ 31 0 lo))
  else if offset = 4 then mbHdr s key (at_ 63 32 lo ||| at_ 31 0 (fld m.hdr 31 0))
  else if busy then s
  else if offset = 8 then upMail s key (fun m => { m with reqLen := BitVec.ofNat 12 (fld v 11 0) })
  else if 0x20 ≤ offset then
    upMail s key (fun m => { m with
      payload := putPayload m.payload (offset - 0x20) (leBytes (if eight then 8 else 4) v.toNat) })
  else s

/-! ### Other registers -/

/-- A write into the MSI-X table (R515): its bytes, and the mask bit of each vector it touches. -/
def msixWrite (s : State) (f offset : Nat) (eight : Bool) (v : Word) : State :=
  let n := if eight then 8 else 4
  let t := putPayload s.link.msixTable (32768 * f + offset) (leBytes n v.toNat)
  let s := { s with link := { s.link with msixTable := t } }
  if offset % 16 + n ≤ 12 then s
  else
    let ctl := Tbl.get 0 t (32768 * f + offset / 16 * 16 + 12)
    setVector s f (offset / 16) (!ctl.getLsbD 0)

/-- A write of configuration space that the rules name, at the places log entry 14 gives: MSI-X Message Control,
SR-IOV Control, NumVFs (R513), Max_Read_Request_Size and Max_Payload_Size; none is served before firmware starts (R634). -/
def configWrite (s : State) (f place : Nat) (v : Word) : State :=
  let l := s.link
  match place with
  | 0 =>
    sendAllPending { s with link := { l with
      msixOff := setBit32 l.msixOff f (!bit v 15), fnMask := setBit32 l.fnMask f (bit v 14) } } f
  | 4 =>
    if f ≠ 0 then s
    else
      let s' := { s with link := { l with vfEnable := bit v 0, ariHier := bit v 4 } }
      if l.vfEnable && !bit v 0 then forL ((List.range 31).map (· + 1)) (fun g s => resetFn s g) s' else s'
  | 8 =>
    let n := fld v 15 0
    if f = 0 ∧ n ≤ 31 ∧ (l.ariHier ∨ n ≤ 7) then { s with link := { l with numVfs := n } } else s
  | 12 => { s with link := { l with mrrs := min 4096 (128 * 2 ^ fld v 2 0) } }
  | 16 => { s with link := { l with mps := if fld v 2 0 = 1 then 1 else if fld v 2 0 = 2 then 2 else 0 } }
  | _ => s

/-- A write into a function window (Table — function window). -/
def windowWrite (s : State) (f offset : Nat) (eight : Bool) (v : Word) : State :=
  let lo := fld v 15 0
  if offset < 0x1000 then s
  else if offset < 0x5000 then slotWrite s (mailKey f ((offset - 0x1000) / 0x1000)) (offset % 0x1000) eight v
  else if offset < 0x6000 then
    if f ≠ 0 then s
    else
      match offset - 0x5000 with
      | 0x00 => eqHead s lo
      | 0x08 => hqHead s lo
      | 0x10 => fqHead s lo
      | _ => s
  else if offset < 0x6800 then (if offset % 8 = 0 then sqTail s f ((offset - 0x6000) / 8) lo else s)
  else if offset < 0x6C00 then (if offset % 8 = 0 then cqHead s f ((offset - 0x6800) / 8) lo else s)
  else if (offset = 0x7000 ∧ eight) ∨ offset = 0x7004 then
    if f ≠ 0 then s
    else
      let v := if eight then v else v <<< 32
      let tag := v.extractLsb' 48 16
      match fld v 47 46 with
      | 0 => resolve s tag stValid
      | 1 => resolve s tag stInvalid
      | _ => staleResolve s
  else if 0x8000 ≤ offset ∧ offset < 0x10000 then msixWrite s f (offset - 0x8000) eight v
  else s

/-- R13, R513 to R516: any other register write, to BAR0 or, from 0x100_0000 up, to configuration space. -/
def execRegisterWriteOther (f : FnId) (offset : Nat) (eight : Bool) (v : Word) (s : State) : Out :=
  .next (whenPresent s fun s =>
    if 0x1000000 ≤ offset then configWrite s f (offset - 0x1000000) v
    else if offset % (if eight then 8 else 4) ≠ 0 then badAccess s
    else if offset < 0x20000 then windowWrite s f offset eight v
    else if offset / 8 = 0x4003 ∧ f.val = 0 then
      let old : Word := s.link.hwin.zeroExtend 64 <<< 16
      let w : Word :=
        if eight then v
        else if offset % 8 = 0 then at_ 63 32 (fld old 63 32) ||| at_ 31 0 (fld v 31 0)
        else at_ 63 32 (fld v 31 0) ||| at_ 31 0 (fld old 31 0)
      hwin s w
    else s)

/-- R516, R517: a refused BAR0 request is counted; a read is answered with Unsupported Request. -/
def execBar0BadAccess (f : FnId) (isRead : Bool) (why : BadAccess) (s : State) : Out :=
  .next (whenPresent s fun s =>
    if why = .outsideIde ∧ s.link.ideEnabled = 0 then s
    else
      let s := badAccess s
      if isRead || why == .outsideIde then emit s (.regRead f 0 none) else s)

end Sys2Proof.Machine
end

