-- ==== Sys2Proof/Machine/Routines.lean ====
section
/-!
DEFINITION. Loading and committing routines (R295 to R298).
-/
namespace Sys2Proof.Machine

/-! ### ROUTINE_LOAD (R295) -/

/-- A CALL of a live job is bound to a bank and has not completed. -/
def State.bankBusy (s : State) (b : Nat) : Bool :=
  s.jobs.any (fun j => j.status.isNone && j.bank == b && j.cmds.any (fun c => c.type == 2 && c.state != .done))

/-- The bank that is not active. -/
def State.otherBank (s : State) : Nat := 1 - s.routines.active

/-- Set a bank's VALID state. -/
def Routines.setValid (r : Routines) (b : Nat) (v : Bool) : Routines :=
  if b = 0 then { r with valid0 := v } else { r with valid1 := v }

/-- Write one word of a library image: bank words, then the cost table. -/
def Routines.putWord (b : Nat) (r : Routines) (e : Nat × Word) : Routines :=
  if e.1 < 32768 then { r with words := Tbl.set 0 r.words (32768 * b + e.1) e.2 }
  else { r with cost := Tbl.set 0 r.cost (4096 * b + (e.1 - 32768)) e.2 }

/-- Write a piece into the bank of every fitted core, with fresh check bits. -/
def loadPiece (s : State) (off : Nat) (l : List Byte) : State :=
  let b := s.otherBank
  let n := l.length / 8
  let words := ((bytesWords l n).zipIdx).map (fun e => (off / 8 + e.2, e.1))
  let fresh := fun (k : Nat) => decide (32768 * b + off / 8 ≤ k ∧ k < 32768 * b + min 32768 (off / 8 + n))
  tidyCores { s with
    routines := { (words.foldl (Routines.putWord b) (s.routines.setValid b false)) with held := none }
    cores := s.cores.map (fun e => (e.1, { e.2 with storeSyn := e.2.storeSyn.filter (fun y => !fresh y.1) })) }

def routineLoadRun (f : FnId) (k : SlotId) (piece : HostRd) (s : State) : State :=
  let key := mailKey f k
  let off := s.reqF key 1 63 32
  let len := s.reqF key 1 31 0
  if off % 8 = 0 ∧ len % 8 = 0 ∧ off + len ≤ 294912 ∧ !bit (s.req key 2) 0 then
    if s.bankBusy s.otherBank then { s with routines := { s.routines with held := some (f, k, off, len) } }
    else
      withHost s f k piece.ok fun s =>
        if piece.ok then respond (loadPiece s off (slice piece.bytes 0 len)) f k stOk []
        else refuse s f k stBadDescriptor
  else refuse s f k stBadDescriptor

/-- ROUTINE_LOAD. -/
def execRoutineLoad (f : FnId) (k : SlotId) (piece : HostRd) (s : State) : Out :=
  let key := mailKey f k
  .next (admin s f k 0x18 (decide (s.reqF key 2 63 1 ≠ 0) || !s.tailZero key 3) (routineLoadRun f k piece))

/-- R295: a held ROUTINE_LOAD, once the last CALL bound to its bank has completed. -/
def execRoutineLoadApply (piece : HostRd) (s : State) : Out :=
  .next (whenFw s fun s =>
    match s.routines.held with
    | none => s
    | some (f, k, off, len) =>
      if s.bankBusy s.otherBank || s.blocked 0 then s
      else if piece.ok then respond (loadPiece s off (slice piece.bytes 0 len)) f k stOk []
      else respond (rxFailed { s with routines := { s.routines with held := none } }) f k stBadDescriptor [])

/-! ### Op words (Table — operand forms, Table — sequencer ops) -/

/-- The forms of ops: their operand bits that are reserved differ. -/
inductive OpForm where
  | none | r | i | madi | loop | loopr | wait | store | patch | issue | clip | fetch
deriving DecidableEq, Repr

/-- The form of an opcode; none of the forms where it is reserved. -/
def opForm (code : Nat) : Option OpForm :=
  if code ≤ 0x01 then some .none
  else if code = 0x02 then some .loop
  else if code = 0x03 then some .loopr
  else if code = 0x04 then some .wait
  else if code = 0x10 ∨ code = 0x11 then some .i
  else if 0x12 ≤ code ∧ code ≤ 0x1D then some .r
  else if code = 0x20 then some .madi
  else if 0x1E ≤ code ∧ code ≤ 0x23 then some .i
  else if code = 0x30 ∨ code = 0x32 ∨ code = 0x33 then some .store
  else if code = 0x31 then some .patch
  else if 0x40 ≤ code ∧ code ≤ 0x44 then some .issue
  else if code = 0x50 then some .fetch
  else if code = 0x51 then some .clip
  else Option.none

/-- The reserved operand bits of a form are 0. -/
def OpForm.clear (x : OpForm) (w : Word) : Bool :=
  match x with
  | .none => fld w 49 0 == 0
  | .r => fld w 34 0 == 0
  | .i => fld w 39 32 == 0
  | .madi => fld w 34 32 == 0
  | .loop => fld w 34 32 == 0
  | .loopr => fld w 34 32 == 0 && fld w 26 0 == 0
  | .wait => fld w 40 0 == 0
  | .store => fld w 39 25 == 0
  | .patch => true
  | .issue => fld w 44 25 == 0
  | .clip => fld w 44 40 == 0 && fld w 36 25 == 0
  | .fetch => fld w 31 0 == 0

/-- The op fails the reserved pass. -/
def opReserved (w : Word) : Bool :=
  match opForm (opCode w) with
  | none => true
  | some x => !x.clear w || decide (6 ≤ fld w 52 50)

/-- The op at place `i` of `n` ops fails the malformed pass; `loops` holds the last op of each open body. -/
def opMalformed (w : Word) (i n : Nat) (loops : List Nat) : Bool :=
  let code := opCode w
  let stop := i + 1 + fld w 49 35
  let isLoop := code == 0x02 || code == 0x03
  (bit w 55 && decide (loops.length ≤ fld w 54 53)) ||
  (if code = 0x01 then decide (i + 1 ≠ n) || bit w 55 else decide (i + 1 = n)) ||
  (isLoop && (decide (n < stop + 2) || (loops.head?.any (fun e => decide (e < stop))) || decide (4 ≤ loops.length))) ||
  (decide (0x10 ≤ code ∧ code ≤ 0x23) && !decide (16 ≤ Invocation.dst w ∧ Invocation.dst w < 31)) ||
  (decide (code = 0x10 ∨ code = 0x11) && fld w 44 40 != 0) || (code == 0x12 && fld w 39 35 != 0) ||
  (code == 0x31 && decide (64 < fld w 36 31 + (fld w 30 25 + 1))) ||
  (decide (code = 0x21 ∨ code = 0x22) && fld w 31 6 != 0) ||
  (code == 0x50 && decide (4095 < fld w 43 32 + fld w 49 44))

/-- The place of the first malformed op from `i` on. -/
def firstMalformed (n : Nat) : Nat → List Nat → List Word → Option Nat
  | _, _, [] => none
  | i, loops, w :: l =>
    let loops := loops.dropWhile (fun e => decide (e < i))
    if opMalformed w i n loops then some i
    else
      let code := opCode w
      firstMalformed n (i + 1) (if code = 0x02 ∨ code = 0x03 then (i + 1 + fld w 49 35) :: loops else loops) l

/-! ### ROUTINE_COMMIT (R296 to R298) -/

/-- Words of a bank. -/
def State.bankWord (s : State) (b n : Nat) : Word := Tbl.get 0 s.routines.words (32768 * b + n)

/-- The ops of a routine, as far as they lie in the bank. -/
def State.routineOps (s : State) (b rid : Nat) : List Word :=
  let e := s.bankWord b rid
  let first := fld e 62 48
  (List.range (min (fld e 47 33 + 1) (32768 - first))).map (fun i => s.bankWord b (first + i))

/-- A cost entry breaks the reserved pass (Table — cost entry). -/
def State.costReserved (s : State) (b rid : Nat) : Bool :=
  (List.range 3).any (fun i =>
    let w := Tbl.get 0 s.routines.cost (4096 * b + 4 * rid + i + 1)
    let arg := fun (a : Nat) => decide (12 ≤ a ∧ a < 15)
    fld w 7 0 != 0 || arg (fld w 15 12) || arg (fld w 11 8))

/-- Where a routine fails the reserved pass. -/
def State.failReserved (s : State) (b rid : Nat) : Option (Nat × Nat) :=
  let e := s.bankWord b rid
  if fld e 28 0 ≠ 0 ∨ s.costReserved b rid then some (rid, rid)
  else if bit e 63 then ((s.routineOps b rid).findIdx? opReserved).map (fun i => (rid, fld e 62 48 + i))
  else none

/-- Where a routine fails the malformed pass. -/
def State.failMalformed (s : State) (b rid : Nat) : Option (Nat × Nat) :=
  let e := s.bankWord b rid
  if !bit e 63 then none
  else if fld e 62 48 < 1024 ∨ 32767 < fld e 62 48 + fld e 47 33 ∨ 12 < fld e 32 29 then some (rid, rid)
  else (firstMalformed (fld e 47 33 + 1) 0 [] (s.routineOps b rid)).map (fun i => (rid, fld e 62 48 + i))

/-- The first failure of the three passes: status, routine and word. -/
def State.commitFails (s : State) (b : Nat) : Option (Status × Nat × Nat) :=
  if s.routines.held.isSome then some (stBadDescriptor, 0xFFFF, 0)
  else
    match (List.range 1024).findSome? (s.failReserved b) with
    | some x => some (stReservedNonzero, x)
    | none => ((List.range 1024).findSome? (s.failMalformed b)).map (fun x => (stBadDescriptor, x))

/-- The response of ROUTINE_COMMIT. -/
def commitWords (rid word bank : Nat) : List Word := [at_ 47 32 rid ||| at_ 14 0 word, at_ 0 0 bank]

def commitRun (f : FnId) (k : SlotId) (s : State) : State :=
  let b := s.otherBank
  match s.commitFails b with
  | some (st, rid, w) => respond s f k st (commitWords rid w s.routines.active)
  | none =>
    let s := measureBank s b
    respond { s with routines := { (s.routines.setValid b true) with active := b } } f k stOk (commitWords 0xFFFF 0 b)

/-- ROUTINE_COMMIT. -/
def execRoutineCommit (f : FnId) (k : SlotId) (s : State) : Out :=
  .next (admin s f k 0x19 (!s.tailZero (mailKey f k) 0) (commitRun f k))

end Sys2Proof.Machine
end

