-- ==== Sys2Proof/Machine/RowWrites.lean ====
section
/-!
DEFINITION. Row-write commands (R141 to R148, R423): what they target, how their rows are checked in order, and how the
images are written.
-/
namespace Sys2Proof.Machine

/-- A ROW_WRITE descriptor (Table — ROW_WRITE descriptor). -/
structure RowWD where
  table  : Nat
  shadow : Bool
  idx64  : Bool
  host   : Bool
  count  : Nat
  stamp  : Nat
  index  : Nat
  image  : Nat
deriving DecidableEq, Repr

def parseRowW (d : List Word) : RowWD :=
  let w := wd d 0
  { table := fld w 55 44, shadow := bit w 43, idx64 := bit w 42, host := bit w 41, count := fld w 16 0,
    stamp := fld (wd d 1) 63 48, index := (wd d 2).toNat, image := (wd d 3).toNat }

def RowWD.isize (d : RowWD) : Nat := if d.idx64 then 8 else 4

/-- The version that a row-write command targets now: the job's bound version, or the table's SHADOW version. -/
def RowWD.target (d : RowWD) (s : State) (j : Job) : Option Nat :=
  if d.shadow then s.shadowOf d.table else s.bound j.id d.table

/-- The version a command writes: the one it took when it began (R148), else the one it targets now (log entry 51). -/
def JobCmd.writes (k : JobCmd) (s : State) (j : Job) : Option Nat := k.target.or ((parseRowW k.words).target s j)

/-! ### Row writes and step closes on one version (R147) -/

/-- The trainable versions to which a job is bound (R325). -/
def State.closesOf (s : State) (j : Job) : List Nat := (j.binds.map (·.2)).filter (fun k => (s.slot k).upd.isSome)

/-- The versions that a command writes. -/
def State.writesTo (s : State) (j : Job) (k : JobCmd) : List Nat :=
  if k.type = 6 then (k.writes s j).toList else if k.type = 7 then s.closesOf j else []

/-- A command of the other kind, admitted before this one, has still to finish on a version that this one writes. -/
def State.mustFollow (s : State) (j : Job) (k : JobCmd) (other : Nat) : Bool :=
  let mine := s.writesTo j k
  s.jobs.any (fun x => x.status.isNone && x.cmds.any (fun e =>
    e.type == other && e.state != .done && x.allows e.idx &&
    decide (x.id < j.id ∨ (x.id = j.id ∧ e.idx < k.idx)) && (s.writesTo x e).any mine.contains))

/-! ### Reading the lists -/

/-- Words of a list of the command: from host memory, or at virtual addresses; none where they have still to arrive, or
where the command waits or has ended. -/
def rowWRead (s : State) (j : Job) (o : Owner) (host : Bool) (a n : Nat) (ext : List PWord) : State × Option (List PWord) :=
  if host then
    match s.hostReadOf j.fn o a n with
    | none => ((startRead s j.fn (some o) a n).2, none)
    | some r => (s, if r.done then some r.words else none)
  else
    let b := a / 8 * 8
    let m := (a + n + 7) / 8 * 8 - b
    match tileReady s fwUnit o.cid [(b, m, false)] [] with
    | .bad st => (failJob s o st, none)
    | .wait k p => (waitTile s o none none 0 k p, none)
    | .busy l => (raiseLines s o.lc l, none)
    | .ok => gather s o ext (spans s fwUnit o.cid b m false)

/-- The reads of host memory for a command are done with. -/
def dropReads (s : State) (o : Owner) : State :=
  { s with link := { s.link with reads := s.link.reads.filter (fun r => r.owner != some o) } }

/-! ### The rows -/

/-- A row to write: its index, none where its word is poisoned, and its image. -/
structure RowImg where
  index : Option Nat
  image : List PWord
deriving DecidableEq, Repr

/-- The rows of a command, from the words of its lists. -/
def RowWD.rows (d : RowWD) (stride : Nat) (idx img : List PWord) : List RowImg :=
  let off := if d.host then 0 else d.index % 8
  let bytes := pbytes idx
  (List.range d.count).map (fun n =>
    let a := off + n * d.isize
    { index := if (idx.getD (a / 8) PWord.bad).poison then none else some (leAt bytes a d.isize)
      image := (img.drop (n * (stride / 8))).take (stride / 8) })

/-- The pages of a row do not all lie in local DRAM. -/
def rowAway (s : State) (cid : BitVec 12) (va n : Nat) : Bool :=
  (spans s fwUnit cid va n true).any (fun x => s.route x.pa != .dram)

/-- The first case of R141 that a row meets; a poisoned word that decides one ends the job with ST_POISONED (R376). -/
def rowFails (s : State) (cid : BitVec 12) (t : TableEntry) (r : RowImg) : Option Status :=
  match r.index with
  | none => some stPoisoned
  | some i =>
    let h := (r.image.getD 0 PWord.bad)
    if t.rowCount ≤ i then some stIndexInvalid
    else if h.poison then some stPoisoned
    else if hdrFormat h.data ≠ t.format ∨ (isCb t.format ∧ hdrCodebook h.data ≠ t.codebookId) ∨
        (!t.rowScaled ∧ hdrScale h.data ≠ 0) then some stBadDescriptor
    else
      match footprint s fwUnit cid [] [(t.rowVa i, t.stride, true)] with
      | .bad st => some st
      | _ => if rowAway s cid (t.rowVa i) t.stride then some stBadDescriptor else none

/-- The first row that lies on a page under a resolvable fault. -/
def rowWaits (s : State) (cid : BitVec 12) (t : TableEntry) : List RowImg → Option (Nat × Nat)
  | [] => none
  | r :: l =>
    match footprint s fwUnit cid [] [(t.rowVa (r.index.getD 0), t.stride, true)] with
    | .wait k p => some (k, p)
    | _ => rowWaits s cid t l

/-- An image with header bits [63:48] replaced by STAMP (R143). -/
def stampRow (stamp : Nat) (l : List PWord) : List PWord :=
  match l with
  | [] => []
  | h :: t => { h with data := at_ 63 48 stamp ||| at_ 47 0 (fld h.data 47 0) } :: t

/-- Write one row, while the job lives. -/
def writeRow (o : Owner) (key stamp : Nat) (r : RowImg) (s : State) : State :=
  if s.lives o.job then
    let s := writeVa s fwUnit o ((s.slot key).entry.rowVa (r.index.getD 0)) (stampRow stamp r.image)
    if s.lives o.job then upSlot s key (fun v => { v with rowsWritten := v.rowsWritten + 1 }) else s
  else s

/-- R141 to R145, once the lists are at hand. -/
def writeRows (s : State) (o : Owner) (key : Nat) (d : RowWD) (rows : List RowImg) : State :=
  let t := (s.slot key).entry
  match rows.findSome? (rowFails s o.cid t) with
  | some st => failJob (dropReads s o) o st
  | none =>
    match rowWaits s o.cid t rows with
    | some (k, p) => waitTile s o none none 0 k p
    | none =>
      let lines := localLines s fwUnit o.cid (rows.map (fun r => (t.rowVa (r.index.getD 0), t.stride, true)))
      if s.busyLines lines then raiseLines s o.lc lines
      else cmdMark (forL rows (writeRow o key d.stamp) (dropReads s o)) o .done

/-- A ROW_WRITE that has begun, on the version it took. -/
def rowWriteRun (j : Job) (k : JobCmd) (ext : List PWord) (s : State) : State :=
  let o := ownerOf j k.idx
  let d := parseRowW k.words
  if s.tileWaits o none none then s
  else
    match k.writes s j with
    | none => failJob s o stBadDescriptor
    | some key =>
      let stride := (s.slot key).entry.stride
      match rowWRead s j o d.host d.index (d.count * d.isize) ext with
      | (s, none) => s
      | (s, some idx) =>
        match rowWRead s j o d.host d.image (d.count * stride) (ext.drop idx.length) with
        | (s, none) => s
        | (s, some img) => writeRows s o key d (d.rows stride idx img)

/-- A ROW_WRITE begins: it takes its target, and its job holds a SHADOW version that it takes (R130). -/
def rowWriteBegin (s : State) (j : Job) (k : JobCmd) : State :=
  let d := parseRowW k.words
  let s := cmdMark s (ownerOf j k.idx) .running
  match d.target s j with
  | none => s
  | some key =>
    let hold := (d.table, key)
    upJob s j.id (fun x => { x with
      cmds := updFirst (fun c => c.idx == k.idx) (fun c => { c with target := some key }) x.cmds
      holds := if d.shadow && !x.holds.contains hold then x.holds ++ [hold] else x.holds })

/-- R141: a ROW_WRITE whose turn has come checks and translates every row, then writes the images. -/
def execRowWrite (job idx : Nat) (ext : List PWord) (s : State) : Out :=
  .next (onCmd s job idx 6 fun j k s =>
    if k.state = .running then rowWriteRun j k ext s
    else if j.mayStart k ∧ !s.mustFollow j k 7 then rowWriteRun j k ext (rowWriteBegin s j k)
    else s)

end Sys2Proof.Machine
end

