-- ==== Sys2Proof/Machine/Scatters.lean ====
section
/-!
DEFINITION. The scatter port (R318 to R322): scatter descriptors, entry by entry, and their completion.
-/
namespace Sys2Proof.Machine

/-- A scatter descriptor (Table — scatter descriptor). -/
structure ScatD where
  table : Nat
  bf    : Bool
  idx64 : Bool
  count : Nat
  index : Nat
  pitch : Nat
  grad  : Nat
deriving DecidableEq, Repr

def parseScat (d : List Word) : ScatD :=
  let w := wd d 0
  { table := fld w 63 52, bf := fld w 51 48 == 1, idx64 := bit w 47, count := fld w 16 0, index := fld (wd d 1) 24 0,
    pitch := 64 * fld (wd d 2) 63 48, grad := fld (wd d 2) 24 0 }

def ScatD.isize (d : ScatD) : Nat := if d.idx64 then 8 else 4

/-- Bytes of a gradient vector of `e` elements. -/
def ScatD.vbytes (d : ScatD) (e : Nat) : Nat := e * (if d.bf then 2 else 4)

/-- The refusal of a scatter descriptor (R318, R322, R427, R640); `key` is the version the job is bound to. -/
def scatRefusal (s : State) (o : Owner) (key : Option Nat) (w : List Word) : Option Status :=
  let d := parseScat w
  let uses := match s.job o.job with
    | some j => j.usesUpdate
    | none => false
  if 0xD ≤ fld (wd w 0) 51 48 ∨ fld (wd w 0) 46 17 ≠ 0 ∨ fld (wd w 1) 63 25 ≠ 0 ∨ fld (wd w 2) 47 25 ≠ 0 ∨
      (w.drop 3).any (· != 0) then some stReservedNonzero
  else
    match key with
    | none => some stBadDescriptor
    | some k =>
      let v := s.slot k
      let fixed := match v.upd with
        | some e => e.stageFmt != 0
        | none => true
      if !uses || decide (1 < fld (wd w 0) 51 48) || (o.repro && !fixed) ||
          decide (d.count = 0 ∨ 65536 < d.count ∨ d.index % d.isize ≠ 0 ∨ d.pitch = 0 ∨ d.grad % 64 ≠ 0 ∨
            scratchBytes < d.index + d.count * d.isize ∨
            scratchBytes < d.grad + (d.count - 1) * d.pitch + d.vbytes v.entry.elems) then some stBadDescriptor
      else none

/-- Gradient words as FP32 (R319): BF16 converts exactly; poison stays. -/
def gradFp32 (bf : Bool) (l : List PWord) : List PWord :=
  if bf then
    l.flatMap (fun w =>
      if w.poison then [PWord.bad, PWord.bad]
      else
        let x := fun (i : Nat) => BitVec.ofNat 32 (65536 * fld w.data (16 * i + 15) (16 * i))
        (pack32 [x 0, x 1, x 2, x 3]).map PWord.good)
  else l

/-- Change the head of a core's SCATTER queue. -/
def upScatHead (s : State) (c : Nat) (f : QEntry → QEntry) : State :=
  upCore s c (fun k => { k with qScatter := match k.qScatter with
    | [] => []
    | e :: l => f e :: l })

/-- Operand word 2 of a gradient ADD. -/
def gradW2 (table : Nat) (tv : BitVec 16) : Word := at_ 63 52 table ||| (tv.zeroExtend 64 <<< 36)

/-- Entry n of a descriptor; an ADD sent to another module enters the digest by its operand, at a virtual address that the
home decides: a free value (log entry 118).  The state, and whether the next entry may follow. -/
def scatEntry (c : Nat) (o : Owner) (d : ScatD) (key n : Nat) (s : State) : State × Bool :=
  let u := uScatter c
  let v := s.slot key
  let ia := d.index + n * d.isize
  let ga := d.grad + n * d.pitch
  let gn := d.vbytes v.entry.elems
  let s := spTouch (spTouch s c ia d.isize) c ga gn
  let next := fun (s : State) => (upScatHead s c (fun e => { e with tilesDone := n + 1 }), s.lives o.job)
  if s.spPoison c ia d.isize then (failJob s o stPoisoned, false)
  else
    let i := leAt (s.sp c ia d.isize) 0 d.isize
    let vec := gradFp32 d.bf (s.spW c ga (gn / 8))
    if v.entry.rowCount ≤ i then (failJob s o stIndexInvalid, false)
    else
      match rowAt s u o.cid v.entry false i with
      | .remote m =>
        if s.hasPath m then
          let (x, s) := takeFree s
          let s := digestAdd s o (at_ 63 62 1 ||| at_ 51 0 x) (pbytes vec)
          next (request s m o.lc 4 o.cid (gradW2 d.table v.tv) (BitVec.ofNat 64 i) vec (some o) none (some c) i)
        else (failJob s o stUnmapped, false)
      | .tail _ _ => (failJob s o stBadDescriptor, false)
      | x =>
        match gradLocal s o u key i x.local? vec with
        | (s, .done) => next s
        | (s, .overflow) => (jobFaultAll s causeStaging, false)
        | (s, .fail st) => (failJob s o st, false)
        | (s, .privet pa) => (privetFail s o pa, false)
        | (s, .wait k p) => (waitTile s o (some u) none (unitHedge u) k p, false)
        | (s, .busy l) => (raiseLines s o.lc l, false)

/-- Entries from n on, until one cannot follow. -/
def scatEntries (c : Nat) (o : Owner) (d : ScatD) (key : Nat) : Nat → Nat → State → State
  | 0, _, s => s
  | fuel + 1, n, s =>
    match scatEntry c o d key n s with
    | (s, true) => scatEntries c o d key fuel (n + 1) s
    | (s, false) => s

/-- R319: the scatter descriptor at the head of a core's SCATTER queue; a new one that targets a version being closed is
held (R326), and staging left undefined is zeroed first (R331). -/
def execScatterDescriptor (c : CoreId) (s : State) : Out :=
  .next (whenPowered s fun s =>
    match (s.core c).qScatter with
    | [] => s
    | e :: _ =>
      let o := e.owner
      let w := pdata e.desc
      let key := s.bound o.job (parseScat w).table
      if s.tileWaits o (some (uScatter c)) none then s
      else if anyPoison e.desc then failJob s o stPoisoned
      else
        match scatRefusal s o key w, key with
        | some st, _ => failJob s o st
        | none, none => s
        | none, some k =>
          if !e.begun && s.closing k then s
          else
            let s := upScatHead (cleanStaging s k) c (fun e => { e with begun := true })
            scatEntries c o (parseScat w) k ((parseScat w).count - e.tilesDone) e.tilesDone s)

/-- R319: every entry has gone and every acknowledgement has come. -/
def execScatterComplete (c : CoreId) (s : State) : Out :=
  .next (whenPowered s fun s =>
    match (s.core c).qScatter with
    | [] => s
    | e :: l =>
      if e.begun ∧ (parseScat (pdata e.desc)).count ≤ e.tilesDone ∧ s.quiet e.owner then
        upCore s c (fun k => { k with qScatter := l })
      else s)

end Sys2Proof.Machine
end

