-- ==== Sys2Proof/Machine/Spdm.lean ====
section
/-!
DEFINITION. The SPDM responder over DOE and MCTP (R581 to R583), IDE_KM (R527) and DOE Discovery (R510).
The order of the exchanges is DSP0274's (log entry 10); the bytes of an answer are open, but for the measurements, the
signatures, the certificate chain and its digest, which this file places at its end.
-/
namespace Sys2Proof.Machine

/-- The responder of a transport. -/
def State.spdm (s : State) : SpdmPort → Spdm
  | .doe => s.sec.spdmDoe
  | .mctp => s.sec.spdmMctp

def upSpdm (s : State) (p : SpdmPort) (f : Spdm → Spdm) : State :=
  match p with
  | .doe => { s with sec := { s.sec with spdmDoe := f s.sec.spdmDoe } }
  | .mctp => { s with sec := { s.sec with spdmMctp := f s.sec.spdmMctp } }

/-- The transport can carry a message: firmware runs, and configuration space answers for DOE. -/
def State.heard (s : State) (p : SpdmPort) : Bool :=
  s.fwRuns && (match p with
    | .doe => s.link.configReady && !s.pwr.perst
    | .mctp => true)

/-- Send bytes on a transport. -/
def sayOn (s : State) (p : SpdmPort) (l : List Byte) : State :=
  emit s (match p with
    | .doe => .doe l
    | .mctp => .mctp l)

/-- Bytes of a chunk (Table — SPDM support). -/
def chunkBytes : Nat := 4096

/-- Answer a message: an answer longer than a chunk waits for CHUNK_GET. -/
def spdmAnswer (s : State) (p : SpdmPort) (msg reply : List Byte) : State :=
  let s := upSpdm s p (fun x => { x with transcript := x.transcript ++ msg ++ reply })
  if reply.length ≤ chunkBytes then sayOn s p reply
  else
    let s := upSpdm s p (fun x => { x with chunkOut := reply })
    sayOn s p (Config.spdmReply (s.spdm p).transcript [])

/-- One exchange: where the responder's stage allows the request, `f` changes it, and the answer ends with `tail`;
elsewhere the answer is an error and nothing changes. -/
def exchange (s : State) (p : SpdmPort) (ok : Spdm → Bool) (msg : List Byte) (f : Spdm → Spdm) (tail : List Byte → List Byte) :
    State :=
  if s.heard p then
    let x := s.spdm p
    let r := Config.spdmReply x.transcript msg
    if ok x && Config.spdmValid msg then spdmAnswer (upSpdm s p f) p msg (r ++ tail (x.transcript ++ msg ++ r))
    else sayOn s p r
  else s

def noTail : List Byte → List Byte := fun _ => []

/-- The algorithms have been agreed. -/
def Spdm.agreed (x : Spdm) : Bool := x.stage == .negotiated

/-- GET_VERSION starts afresh. -/
def execSpdmGetVersion (p : SpdmPort) (msg : List Byte) (s : State) : Out :=
  .next (exchange s p (fun _ => true) msg (fun _ => { stage := .version }) noTail)

def execSpdmGetCapabilities (p : SpdmPort) (msg : List Byte) (s : State) : Out :=
  .next (exchange s p (fun x => x.stage == .version) msg (fun x => { x with stage := .capabilities }) noTail)

def execSpdmNegotiateAlgorithms (p : SpdmPort) (msg : List Byte) (s : State) : Out :=
  .next (exchange s p (fun x => x.stage == .capabilities) msg (fun x => { x with stage := .negotiated }) noTail)

/-- GET_DIGESTS: the digest of slot 0's certificate chain. -/
def execSpdmGetDigests (p : SpdmPort) (msg : List Byte) (s : State) : Out :=
  .next (exchange s p Spdm.agreed msg id (fun _ => Config.sha3 Config.identityChain))

/-- The part of slot 0's chain that a GET_CERTIFICATE asks for: its offset in bytes 5:4, its length in 7:6 (DSP0274; log entry
10). -/
def chainPart (msg : List Byte) : List Byte :=
  (Config.identityChain.drop (leNat (slice msg 4 2))).take (leNat (slice msg 6 2))

/-- R571: GET_CERTIFICATE returns the certificate chain that module flash holds. -/
def execSpdmGetCertificate (p : SpdmPort) (msg : List Byte) (s : State) : Out :=
  .next (exchange s p Spdm.agreed msg id (fun _ => chainPart msg))

/-- CHALLENGE: the transcript is signed with the identity key. -/
def execSpdmChallenge (p : SpdmPort) (msg : List Byte) (s : State) : Out :=
  .next (exchange s p Spdm.agreed msg id Config.identitySign)

/-- The measurements that an index asks for: MR0 to MR5 for 1 to 6, all of them for 0xFF. -/
def State.measurements (s : State) (index : Nat) : List Byte :=
  let mr := fun (i : Nat) => slice (s.sec.mr.getD i []) 0 64
  if index = 0xFF then (List.range 6).flatMap mr
  else if 1 ≤ index ∧ index ≤ 6 then mr (index - 1)
  else []

/-- R582: GET_MEASUREMENTS, signed on request. -/
def execSpdmGetMeasurements (p : SpdmPort) (index : Nat) (signed : Bool) (msg : List Byte) (s : State) : Out :=
  let l := s.measurements index
  .next (exchange s p Spdm.agreed msg id (fun t => if signed then l ++ Config.identitySign (t ++ l) else l))

/-- KEY_EXCHANGE: a session begins, its transcript signed. -/
def execSpdmKeyExchange (p : SpdmPort) (msg : List Byte) (s : State) : Out :=
  .next (exchange s p (fun x => x.agreed && x.session == .none) msg (fun x => { x with session := .handshake })
    Config.identitySign)

/-- FINISH: the session is established. -/
def execSpdmFinish (p : SpdmPort) (msg : List Byte) (s : State) : Out :=
  .next (exchange s p (fun x => x.session == .handshake) msg (fun x => { x with session := .established }) noTail)

def execSpdmEndSession (p : SpdmPort) (msg : List Byte) (s : State) : Out :=
  .next (exchange s p (fun x => x.session == .established) msg (fun x => { x with session := .none }) noTail)

def execSpdmHeartbeat (p : SpdmPort) (msg : List Byte) (s : State) : Out :=
  .next (exchange s p (fun x => x.session == .established) msg id noTail)

/-- CHUNK_SEND: a chunk of a large request is kept until the last has come; the request then arrives as its own
command. -/
def execSpdmChunkSend (p : SpdmPort) (last : Bool) (chunk : List Byte) (s : State) : Out :=
  .next (if s.heard p then
      let r := Config.spdmReply (s.spdm p).transcript chunk
      if chunk.length ≤ chunkBytes then
        sayOn (upSpdm s p (fun x => { x with chunkIn := if last then [] else x.chunkIn ++ chunk })) p r
      else sayOn s p r
    else s)

/-- CHUNK_GET: one chunk of the large answer that waits; with its last chunk the answer is gone. -/
def execSpdmChunkGet (p : SpdmPort) (index : Nat) (s : State) : Out :=
  .next (if s.heard p then
      let l := (s.spdm p).chunkOut
      let chunk := (l.drop (chunkBytes * index)).take chunkBytes
      let last := decide (l.length ≤ chunkBytes * (index + 1))
      sayOn (upSpdm s p (fun x => { x with chunkOut := if last then [] else x.chunkOut })) p chunk
    else s)

/-- R527, R521: IDE_KM inside a session sets a stream up with new keys, or stops it. -/
def execIdeKm (p : SpdmPort) (stream : Fin 5) (enable : Bool) (msg : List Byte) (s : State) : Out :=
  .next (
    let go := s.heard p && (s.spdm p).session == .established && Config.spdmValid msg
    let s := exchange s p (fun x => x.session == .established) msg id noTail
    if go then
      let m : BitVec 5 := 1#5 <<< stream.val
      flushHeld { s with link := { s.link with
        ideEnabled := if enable then s.link.ideEnabled ||| m else s.link.ideEnabled &&& ~~~m
        ideInsecure := s.link.ideInsecure &&& ~~~m } }
    else s)

/-- R510: the protocols of the DOE mailbox. -/
def execDoeDiscovery (index : Nat) (s : State) : Out :=
  .next (if s.heard .doe then emit s (.doe (Config.doeReply index)) else s)

end Sys2Proof.Machine
end

