-- ==== Sys2Proof/Machine/Telemetry.lean ====
section
/-!
DEFINITION. TELEMETRY_READ (R501): the records of every kind, which indices have one, what reading clears, and the
command.
-/
namespace Sys2Proof.Machine

/-! ### Which records there are -/

/-- A version slot by its key, 4 × table + slot, is not free. -/
def VSlot.live (v : VSlot) : Bool := v.state != .free

/-- The key of the non-free version of a table with a TV. -/
def State.versionKey (s : State) (table : Nat) (tv : BitVec 16) : Option Nat :=
  ((List.range 4).map (fun i => 4 * table + i)).find? (fun k => (s.slot k).live && (s.slot k).tv == tv)

/-- Bytes of a record of a kind; 0 for a reserved kind (Table — telemetry kinds). -/
def recBytes : Nat → Nat
  | 0x01 => 32
  | 0x02 => 64
  | 0x03 => 32
  | 0x04 => 1
  | 0x05 => 8
  | 0x06 => 96
  | 0x07 => 32
  | 0x08 => 32
  | 0x09 => 32
  | 0x0A => 32
  | 0x0B => 32
  | 0x0C => 64
  | 0x0D => 32
  | 0x0E => 32
  | 0x0F => 8
  | 0x10 => 64
  | 0x11 => 32
  | 0x12 => 64
  | _ => 0

/-- The pages that a version maps. -/
def VSlot.hasPage (v : VSlot) (page : Nat) : Bool :=
  v.pages.any (fun r => decide (r.vpage ≤ page ∧ page < r.vpage + r.pages))

/-- A record exists at an index. -/
def recExists (s : State) (kind i : Nat) : Bool :=
  match kind with
  | 0x01 => decide (i < 768)
  | 0x02 => decide (i < 4096) && (List.range 4).any (fun j => (s.slot (4 * i + j)).live)
  | 0x03 => decide (i < 16384) && (s.slot i).live
  | 0x05 => s.cbInstalled i
  | 0x06 => s.fitted i
  | 0x07 => s.fitted i
  | 0x08 => s.fitted i
  | 0x09 => s.fitted i
  | 0x0A => decide (i < 12) && s.fGrade
  | 0x0B => decide (i < 12)
  | 0x0C => i == 0
  | 0x0D => (Tbl.get none s.xl.contexts i).isSome
  | 0x0E => i == 0
  | 0x0F => decide (i < 12)
  | 0x10 => decide (i < 118)
  | 0x11 => decide (i < 13)
  | 0x12 => decide (i < 33)
  | _ => false

/-- Indices that a kind could have. -/
def recLimit : Nat → Nat
  | 0x02 => 4096
  | 0x03 => 16384
  | 0x05 => 4096
  | 0x0D => 4096
  | _ => 768

/-! ### The records -/

/-- The physical lane of a lane number: a steered lane lies on its spare (R78, R92). -/
def physLane (repair : List Nat) (lane : Nat) : Nat :=
  match repair.findIdx? (· == lane) with
  | some i => 72 + i
  | none => lane

/-- TOP_CE_LANE: 1 + the lane with most corrections, the lowest of equals (log entry 30); 0 for none. -/
def topLane (repair : List Nat) (t : Tbl Nat) : Nat :=
  match (t.map (·.2)).max? with
  | none => 0
  | some m =>
    if m = 0 then 0
    else
      match t.find? (fun e => e.2 == m) with
      | some e => physLane repair e.1 + 1
      | none => 0

def chanRec (s : State) (c : Nat) : List Word :=
  let x := s.chan c
  [regAt 63 32 x.ueCount ||| regAt 31 0 x.ceCount,
   at_ 17 17 (b2n x.aligned) ||| at_ 16 16 (b2n x.doubled) |||
     at_ 15 8 (topLane ((Tbl.get [] s.flash.repair c).filter (· < 72)) x.laneCe) |||
     at_ 4 4 x.spareCa ||| at_ 3 0 x.spareDq,
   regAt 31 0 x.fxSat, regAt 47 16 x.scrubPasses ||| at_ 15 8 x.beHwm ||| at_ 4 0 x.lcHwm]

def lookRecord (s : State) (t : Nat) : List Word :=
  let x := Tbl.get {} s.lookRec t
  [at_ 63 0 x.indices, at_ 63 0 x.invalid, at_ 63 0 x.pad, at_ 63 0 x.mismatched, at_ 63 0 x.emptyBags,
   at_ 63 0 x.tailDef, regAt 63 32 x.flashFetches ||| regAt 31 0 x.hostFetches, regAt 47 0 x.poisonedBags]

/-- Admitted jobs bound to or holding a version (R140). -/
def State.boundJobs (s : State) (k : Nat) : Nat :=
  s.jobs.countP (fun j => j.status.isNone && ((j.binds ++ j.holds).any (fun b => b.2 == k)))

def VState.code : VState → Nat
  | .free => 0
  | .shadow => 1
  | .current => 2
  | .retiring => 3

def versionRec (s : State) (k : Nat) : List Word :=
  let v := s.slot k
  [at_ 63 52 (k / 4) ||| (v.tv.zeroExtend 64 <<< 36) ||| at_ 35 34 v.state.code ||| at_ 33 32 (k % 4) |||
     regAt 31 0 (s.boundJobs k),
   regAt 63 32 v.rowsWritten ||| regAt 31 0 v.migrating, regAt 63 32 v.hotPosted ||| regAt 31 0 v.hotDropped,
   v.flipTicker]

def quantRec (s : State) (c : Nat) : List Word :=
  let x := s.core c
  (List.range 8).map (fun k => regAt 63 32 (Tbl.get 0 x.clipped k) ||| regAt 31 0 (Tbl.get 0 x.clipTotal k)) ++
    [regAt 63 32 x.nonfinite ||| regAt 31 0 x.degenerate, regAt 31 0 x.requantSat, x.clipSat.zeroExtend 64, 0]

def arrayRecord (s : State) (c : Nat) : List Word :=
  let x := (s.core c).mx
  [regAt 63 0 x.vectors, regAt 63 32 x.loads ||| regAt 31 0 x.descriptors,
   regAt 63 32 x.accSat ||| regAt 31 16 x.residue ||| (x.lastColumn.zeroExtend 64 <<< 8), regAt 31 0 x.fpNonfinite]

def vectorRecord (s : State) (c : Nat) : List Word :=
  let x := (s.core c).vx
  [regAt 63 0 x.elements, regAt 63 32 x.topkRows ||| regAt 31 0 x.descriptors,
   regAt 63 32 x.convSat ||| regAt 31 16 x.residue, regAt 63 32 x.nanIn ||| regAt 31 0 x.fpNonfinite]

def seqRecord (s : State) (c : Nat) : List Word :=
  let x := (s.core c).sq
  [regAt 63 0 x.ops, regAt 63 32 x.calls ||| regAt 31 0 x.aborted, regAt 63 0 x.stall,
   regAt 63 48 x.rsCe ||| regAt 47 32 x.rsUe ||| regAt 31 16 x.spCe ||| regAt 15 0 x.spUe]

def updRecord (s : State) (h : Nat) : List Word :=
  let x := (s.hedge h).up
  [regAt 63 0 x.rowsUpdated, regAt 63 32 x.frozenSkipped ||| regAt 31 0 x.poisonedRows,
   regAt 63 32 x.nonfinite ||| regAt 31 0 x.remoteStale, regAt 63 32 x.lastCloseRows ||| regAt 31 0 x.closes]

def transRecord (s : State) (h : Nat) : List Word :=
  let x := (s.hedge h).tr
  [regAt 63 0 x.tlbMisses, regAt 63 32 x.walks ||| regAt 31 0 x.walkCacheHits,
   regAt 63 32 x.resolvable ||| regAt 31 0 x.coalesced, regAt 63 32 x.privetRefused ||| regAt 31 0 x.specDrops]

def integrityRecord (s : State) : List Word :=
  let g := s.ig
  [regAt 63 32 g.checksumEnds ||| regAt 31 0 g.poisonEnds, regAt 63 32 g.skewEnds ||| regAt 31 0 g.jobFaults,
   regAt 63 32 g.hedgerowCe ||| regAt 31 0 g.thicketCe, regAt 63 32 g.hedgerowUe ||| regAt 31 0 g.thicketUe,
   regAt 63 32 g.verifyFailed ||| regAt 31 0 g.verifySkipped, regAt 63 32 g.sweepBlocks ||| regAt 31 0 g.sweepFailed,
   regAt 63 32 g.groomTests ||| regAt 31 16 g.groomMismatch ||| (g.lastSuspect.zeroExtend 64 <<< 8), 0]

def contextRecord (s : State) (cid : Nat) : List Word :=
  let x := Tbl.get {} s.ctxRec cid
  [regAt 63 0 x.submitted, regAt 63 0 x.completed, regAt 63 32 x.failed ||| regAt 31 0 x.lost,
   at_ 63 52 cid ||| regAt 31 0 x.preempted]

def DevState.code : DevState → Nat
  | .admitting => 0
  | .faulted => 1
  | .resetting => 2
  | .stopped => 3

def schedRecord (s : State) : List Word :=
  let x := s.sched
  let n := fun (lc : Bool) => s.jobs.countP (fun j => j.lc == lc)
  [at_ 63 62 x.state.code ||| at_ 61 61 (b2n s.lcFloor) ||| regAt 47 32 (n true) ||| regAt 31 16 (n false),
   x.faultTicker, regAt 63 32 x.preemptions ||| regAt 31 0 x.liveSaves, regAt 63 32 x.beHolds ||| regAt 31 0 x.lcShared]

/-- A component's health record, and the module's (Table — health record). -/
def healthRecord (s : State) (i : Nat) : List Word :=
  let y := s.health
  let p := if i = 0 then y.module else Tbl.get {} y.recs i
  let core := decide (1 ≤ i ∧ i ≤ 72)
  let absent := (core && !s.fitted (i - 1)) || (decide (86 ≤ i) && !portExists s.fab.applied (i - 86))
  let imb := if i = 85 then at_ 31 16 (wrapNat 16 p.value) ||| at_ 15 0 y.imbalance else at_ 31 0 (wrapNat 32 p.value)
  if absent then List.replicate 8 0
  else
    [(p.status.zeroExtend 64 <<< 62) ||| (if i = 0 then at_ 61 59 y.limitKind ||| at_ 58 51 y.limitIndex else 0) |||
       at_ 50 50 (b2n (core && (s.core (i - 1)).fenced)) ||| regAt 31 0 (if i = 0 then s.flash.historyH else p.points),
     regAt 63 32 p.remainH ||| regAt 31 0 p.bandLoH, regAt 63 32 p.bandHiH ||| imb,
     regAt 63 48 y.afX1000 ||| regAt 47 32 y.meanMv ||| regAt 31 16 y.meanTj,
     regAt 63 32 (y.stressH / 1000000) ||| (if core then regAt 31 0 (s.core (i - 1)).samples else 0),
     regAt 63 32 p.alerts, y.atPoweredS, 0]

/-- The hottest of 12 readings. -/
def hottest (s : State) (f : Hedge → Int) : Int :=
  (List.range 11).foldl (fun a h => max a (f (s.hedge (h + 1)))) (f (s.hedge 0))

def powerRecord (s : State) (i : Nat) : List Word :=
  let p := s.pwr
  if i = 0 then
    [regAt 63 48 p.inputCv ||| regAt 47 32 p.inputDw ||| at_ 31 16 p.capW ||| regAt 15 0 p.peakDw,
     (p.lastOff.zeroExtend 64 <<< 56) ||| regAt 31 0 p.capMissMs, at_ 63 0 p.energyJ,
     at_ 63 48 (wrapNat 16 (hottest s (·.tj))) ||| at_ 47 32 (wrapNat 16 (hottest s (·.tstack))) |||
       regAt 15 0 p.thermalEvents]
  else
    let x := s.hedge (i - 1)
    [regAt 63 48 x.vcoreMv ||| at_ 47 32 x.vsetMv ||| (x.limit.zeroExtend 64 <<< 29),
     at_ 63 48 (wrapNat 16 x.tj) ||| at_ 47 32 (wrapNat 16 x.tstack),
     regAt 63 32 x.capLimited ||| regAt 31 0 x.thermalLimited, 0]

/-- The modules reachable, as a mask (R567). -/
def State.reachMask (s : State) : Nat :=
  ((List.range 64).map (fun m => if (s.peer m).reachable then 2 ^ m else 0)).sum

/-- Requests sent and not yet acknowledged or answered (R567): those that wait for a credit are not sent. -/
def State.outstanding (s : State) : Nat :=
  s.fab.reqs.countP (fun r => !(s.lchan r.peer r.lc).waiting.any (fun u => decide (fld u.w1 31 16 = r.txn.toNat)))

def fabricRecord (s : State) (i : Nat) : List Word :=
  let f := s.fab
  if i = 32 then
    [at_ 63 0 s.reachMask, regAt 63 32 f.censusChecked ||| regAt 31 0 f.auditMismatch, regAt 63 32 s.outstanding,
     f.lastOffset, regAt 63 32 f.nvmeReads ||| regAt 31 0 f.nvmeErrors,
     regAt 63 32 f.nvmeWrites ||| regAt 31 0 f.nvmeTimeouts,
     at_ 63 32 (recCrc f.applied) ||| at_ 0 0 (b2n s.flash.fabricPending), 0]
  else if !portExists f.applied i then List.replicate 8 0
  else
    let p := s.port i
    [at_ 7 6 (recMode f.applied (i / 4)) ||| at_ 5 5 (b2n p.up),
     regAt 63 32 p.fecCorrected ||| regAt 31 0 p.fecUncorrected, regAt 63 0 p.txFrames, regAt 63 0 p.rxFrames,
     regAt 63 48 p.fcsErrors ||| regAt 47 32 p.icrcErrors ||| regAt 31 16 p.pauseDropped ||| regAt 15 0 p.linkDowns,
     regAt 63 32 p.retransmits ||| regAt 31 16 p.overruns ||| regAt 15 0 p.dupDrops,
     (p.eyeLane.zeroExtend 64 <<< 16) ||| p.eyeMargin.zeroExtend 64, 0]

/-- The record of a kind at an index. -/
def record (s : State) (kind i : Nat) : List Word :=
  match kind with
  | 0x01 => chanRec s i
  | 0x02 => lookRecord s i
  | 0x03 => versionRec s i
  | 0x05 => [((s.cbStored i).getD {}).word32 i]
  | 0x06 => quantRec s i
  | 0x07 => arrayRecord s i
  | 0x08 => vectorRecord s i
  | 0x09 => seqRecord s i
  | 0x0A => updRecord s i
  | 0x0B => transRecord s i
  | 0x0C => integrityRecord s
  | 0x0D => contextRecord s i
  | 0x0E => schedRecord s
  | 0x0F => [at_ 31 0 (s.hedge i).rate]
  | 0x10 => healthRecord s i
  | 0x11 => powerRecord s i
  | 0x12 => fabricRecord s i
  | _ => []

/-! ### What a read clears -/

/-- The RC fields of a record clear as it is read. -/
def clearRec (s : State) (kind i : Nat) : State :=
  match kind with
  | 0x01 => upChan s i (fun x => { x with ueCount := 0, ceCount := 0, laneCe := [], fxSat := 0, beHwm := 0, lcHwm := 0 })
  | 0x02 => upLook s i (fun _ => {})
  | 0x03 => upSlot s i (fun v => { v with rowsWritten := 0, hotPosted := 0, hotDropped := 0 })
  | 0x06 => upCore s i (fun x => { x with clipped := [], clipTotal := [], clipSat := 0, degenerate := 0, nonfinite := 0,
                                          requantSat := 0 })
  | 0x07 => upCore s i (fun x => { x with mx := { lastColumn := x.mx.lastColumn } })
  | 0x08 => upCore s i (fun x => { x with vx := {} })
  | 0x09 => upCore s i (fun x => { x with sq := {} })
  | 0x0A => upHedge s i (fun x => { x with up := { lastCloseRows := x.up.lastCloseRows } })
  | 0x0B => upHedge s i (fun x => { x with tr := {} })
  | 0x0C => upIg s (fun g => { g with checksumEnds := 0, poisonEnds := 0, skewEnds := 0, jobFaults := 0, hedgerowCe := 0,
                                      thicketCe := 0, hedgerowUe := 0, thicketUe := 0, verifyFailed := 0,
                                      verifySkipped := 0, groomTests := 0, groomMismatch := 0 })
  | 0x0D => { s with ctxRec := Tbl.erase s.ctxRec i }
  | 0x0E => { s with sched := { s.sched with preemptions := 0, liveSaves := 0, beHolds := 0, lcShared := 0 } }
  | 0x10 =>
    let clear := fun (p : Predict) => { p with alerts := 0 }
    let s := if i = 0 then { s with health := { s.health with module := clear s.health.module } }
      else { s with health := { s.health with recs := Tbl.upd {} s.health.recs i clear } }
    if 1 ≤ i ∧ i ≤ 72 then upCore s (i - 1) (fun x => { x with samples := 0 }) else s
  | 0x11 =>
    if i = 0 then { s with pwr := { s.pwr with peakDw := 0, capMissMs := 0, thermalEvents := 0 } }
    else upHedge s (i - 1) (fun x => { x with capLimited := 0, thermalLimited := 0 })
  | 0x12 =>
    if i = 32 then
      { s with fab := { s.fab with censusChecked := 0, auditMismatch := 0, nvmeReads := 0, nvmeErrors := 0,
                                   nvmeWrites := 0, nvmeTimeouts := 0 } }
    else upPort s i (fun p => { up := p.up, tx := p.tx, sent := p.sent, ctlGap := p.ctlGap, eyeLane := p.eyeLane, eyeMargin := p.eyeMargin })
  | _ => s

/-! ### The command -/

/-- The bytes of the page counters of a version from a page on (kind 0x04): one per page that the version maps. -/
def pageCounters (s : State) (key page n : Nat) : List Byte :=
  ((List.range n).filter (fun i => (s.slot key).hasPage (page + i))).map (fun i =>
    BitVec.ofNat 8 (Tbl.get {} s.counters (ctrKey key (page + i))).count)

/-- The indices to return: those asked for that have a record, as many as fit. -/
def wanted (s : State) (kind first count room : Nat) (only : Option Nat) : List Nat :=
  (((List.range (min count (recLimit kind - first))).map (· + first)).filter (fun i =>
    recExists s kind i && (match only with
      | none => true
      | some c => i == c))).take room

/-- The reserved fields and kinds of a TELEMETRY_READ request (R14, R493). -/
def telemetryReserved (s : State) (key : Nat) : Bool :=
  decide (s.reqF key 0 55 48 ≠ 0 ∨ s.reqF key 2 63 32 ≠ 0 ∨ recBytes (s.reqF key 0 63 56) = 0) || !s.tailZero key 4

/-- R501, R494: write the records to the host's buffer, clearing each as it is read. -/
def telemetryRun (f : FnId) (k : SlotId) (s : State) : State :=
  let key := mailKey f k
  let kind := s.reqF key 0 63 56
  let first := s.reqF key 0 47 32
  let count := s.reqF key 0 31 0
  let addr := (s.req key 1).toNat
  let len := s.reqF key 2 31 0
  if (f.val ≠ 0 ∧ kind ≠ 0x0D) ∨ addr % 64 ≠ 0 ∨ (kind ≠ 0x04 ∧ s.req key 3 ≠ 0) then refuse s f k stBadDescriptor
  else if kind = 0x04 then
    let tv := (s.req key 3).extractLsb' 36 16
    let data := match s.versionKey (s.reqF key 3 63 52) tv with
      | none => []
      | some v => pageCounters s v (s.reqF key 3 35 0 + first) (min count len)
    let s := dmaBytes s f addr true data
    respond s f k stOk [at_ 63 32 data.length ||| at_ 31 0 data.length]
  else
    let only := if f.val = 0 then none else some (Tbl.get 0 s.xl.fnCid f).toNat
    let l := wanted s kind first count (len / recBytes kind) only
    let data := l.flatMap (fun i => wordsBytes (record s kind i))
    let s := forL l (fun i s => clearRec s kind i) s
    let s := dmaBytes s f addr true data
    respond s f k stOk [at_ 63 32 l.length ||| at_ 31 0 data.length]

/-- R501. -/
def execTelemetryRead (f : FnId) (k : SlotId) (s : State) : Out :=
  .next (admin s f k 0x41 (telemetryReserved s (mailKey f k)) (telemetryRun f k))

end Sys2Proof.Machine
end

