-- ==== Sys2Proof/Machine/Vector.lean ====
section
/-!
DEFINITION. The vector engine (chapter 08): streams, descriptor checks (R260), conversions (R246), arithmetic in each
compute type (R242 to R244), reductions (R245), CONVERT and QUANT (R247 to R250), COMPRESS, EXPAND and TOPK.
-/
namespace Sys2Proof.Machine

/-! ### Values -/

/-- A value in a compute type. -/
inductive VVal where
  | fp (x : Ev) | int (i : Int)
deriving DecidableEq, Repr

/-- The value as an exact number. -/
def VVal.ev : VVal → Ev
  | .fp x => x
  | .int i => Ev.ofInt i

/-- The format of an FP compute type. -/
def ctFmt (ct : Nat) : FpFmt := if ct = 0 then fp32 else if ct = 1 then bf16 else fp16

/-- Round to an FP format; an overflow saturates where SAT is 1, and counts (R242). -/
def roundSat (f : FpFmt) (sat : Bool) (x : Ev) : Nat × Bool :=
  let r := f.round x
  if r.2 && sat then (r.1 - 1, true) else (r.1, false)

/-- The range of an integer format. -/
def intLo (f : Nat) : Int := if f = 0x8 then 0 else -2 ^ (fmtBits f - 1)
def intHi (f : Nat) : Int := if f = 0x8 then 255 else 2 ^ (fmtBits f - 1) - 1

/-- Clamp to the range of an integer format. -/
def clampInt (f : Nat) (i : Int) : Int × Bool :=
  if i < intLo f then (intLo f, true) else if intHi f < i then (intHi f, true) else (i, false)

/-- Convert to an integer format (R246). -/
def toInt (f : Nat) : Ev → Int × Bool
  | .nan => (0, true)
  | .inf neg => (if neg then intLo f else intHi f, true)
  | x => clampInt f x.rne

/-- A NaN code of E5M2; the spec does not say which a NaN converts to (log entry 44). -/
def e5m2Nan : Nat := [0x7D, 0x7E, 0x7F, 0xFD, 0xFE, 0xFF].getD (Config.e5m2NanIndex % 6) 0x7F

/-- Convert to any format but a codebook's: the bits, and whether CONV_SAT counts (R246); `sat` is SAT where the source is
FP, for the table refers to R242 for no other. -/
def toFmt (f : Nat) (sat : Bool) (x : Ev) : Nat × Bool :=
  match f with
  | 0x0 => roundSat fp32 sat x
  | 0x1 => roundSat bf16 sat x
  | 0x2 => roundSat fp16 sat x
  | 0x3 => e4m3Round x
  | 0x4 => if x.isNan then (e5m2Nan, false) else roundSat e5m2 sat x
  | _ => let r := toInt f x; (wrapNat (fmtBits f) r.1, r.2)

/-- The exact value of a stream element (R179, R246). -/
def elemVal (f raw : Nat) (cb : CbView) : Ev :=
  if isFp f then fpDecode f raw else if isCb f then d32 (cb.decode raw) else Ev.ofInt (intDecode f raw)

/-- A value into a compute type, and whether CONV_SAT counts. -/
def toCt (ct : Nat) (sat : Bool) (x : Ev) : VVal × Nat :=
  if ct ≤ 2 then
    let r := roundSat (ctFmt ct) sat x
    (.fp ((ctFmt ct).decode r.1), b2n r.2)
  else
    let r := toInt ct x
    (.int r.1, b2n r.2)

/-- An immediate (R238, R243). -/
def immVal (ct imm : Nat) : VVal :=
  if ct ≤ 2 then .fp ((ctFmt ct).decode (if ct = 0 then imm else imm % 2 ^ 16))
  else .int (signed (min 32 (fmtBits ct)) imm)

/-! ### Arithmetic (R242 to R244) -/

/-- A result rounded once to an FP compute type. -/
def fpResult (ct : Nat) (sat : Bool) (x : Ev) : VVal × Nat :=
  let r := roundSat (ctFmt ct) sat x
  (.fp ((ctFmt ct).decode r.1), b2n r.2)

/-- An integer result: wrapped, or clamped where SAT is 1. -/
def intResult (ct : Nat) (sat : Bool) (i : Int) : VVal × Nat :=
  if sat then
    let r := clampInt ct i
    (.int r.1, b2n r.2)
  else (.int (signed (fmtBits ct) (wrapNat (fmtBits ct) i)), 0)

/-- The larger and smaller of two FP values, with the NaN and zero rules. -/
def evMax (x y : Ev) : Ev :=
  if x.isNan || y.isNan then .nan
  else if x.isZero && y.isZero then .num (x.isNeg && y.isNeg) 0 0 false
  else if x.lt y then y else x

def evMin (x y : Ev) : Ev :=
  if x.isNan || y.isNan then .nan
  else if x.isZero && y.isZero then .num (x.isNeg || y.isNeg) 0 0 false
  else if y.lt x then y else x

/-- Larger and smaller in any compute type. -/
def vMax : VVal → VVal → VVal
  | .fp x, .fp y => .fp (evMax x y)
  | .int i, .int j => .int (max i j)
  | v, _ => v

def vMin : VVal → VVal → VVal
  | .fp x, .fp y => .fp (evMin x y)
  | .int i, .int j => .int (min i j)
  | v, _ => v

/-- An operation of both kinds of compute type. -/
def vArith (ct : Nat) (sat : Bool) (f : Ev → Ev → Ev) (g : Int → Int → Int) : VVal → VVal → VVal × Nat
  | .fp x, .fp y => fpResult ct sat (f x y)
  | .int i, .int j => intResult ct sat (g i j)
  | v, _ => (v, 0)

/-- A comparison writes 1 or 0 (R242). -/
def vCompare (f : Ev → Ev → Bool) (g : Int → Int → Bool) : VVal → VVal → VVal × Nat
  | .fp x, .fp y => (.int (b2n (f x y)), 0)
  | .int i, .int j => (.int (b2n (g i j)), 0)
  | v, _ => (v, 0)

/-- Zero in a compute type. -/
def vZero (ct : Nat) : VVal := if ct ≤ 2 then .fp (.num false 0 0 false) else .int 0

/-- The element-wise operations (Table — vector operations) on a, b and the immediates. -/
def vOp (op ct : Nat) (sat : Bool) (a b i0 i1 : VVal) : VVal × Nat :=
  match op with
  | 0x01 => vArith ct sat Ev.add (· + ·) a b
  | 0x02 => vArith ct sat Ev.sub (· - ·) a b
  | 0x03 => vArith ct sat Ev.mul (· * ·) a b
  | 0x04 =>
    match a, b, i0 with
    | .fp x, .fp y, .fp z => fpResult ct sat ((z.mul x).add y)
    | .int x, .int y, .int z => intResult ct sat (z * x + y)
    | v, _, _ => (v, 0)
  | 0x05 => (vMax a b, 0)
  | 0x06 => (vMin a b, 0)
  | 0x07 => vArith ct sat (fun x _ => x.abs) (fun i _ => i.natAbs) a a
  | 0x08 => vArith ct sat (fun x _ => x.neg) (fun i _ => -i) a a
  | 0x09 => (vMax a (vZero ct), 0)
  | 0x0A => (vMin (vMax a i0) i1, 0)
  | 0x0B => vArith ct sat (fun x _ => (Ev.ofInt 1).div x) (fun i _ => i) a a
  | 0x10 => vCompare Ev.eqv (fun i j => i == j) a b
  | 0x11 => vCompare (fun x y => !x.eqv y) (fun i j => i != j) a b
  | 0x12 => vCompare Ev.lt (fun i j => decide (i < j)) a b
  | 0x13 => vCompare (fun x y => x.lt y || x.eqv y) (fun i j => decide (i ≤ j)) a b
  | 0x20 => vArith ct sat (fun x _ => x.exp) (fun i _ => i) a a
  | 0x21 => vArith ct sat (fun x _ => x.log) (fun i _ => i) a a
  | 0x22 => vArith ct sat (fun x _ => x.sigmoid) (fun i _ => i) a a
  | 0x23 => vArith ct sat (fun x _ => x.tanh) (fun i _ => i) a a
  | 0x24 => vArith ct sat (fun x _ => x.rsqrt) (fun i _ => i) a a
  | _ => (a, 0)

/-! ### Reductions (R245) -/

/-- One level of the tree: neighbours join, a last one alone moves up. -/
def pairUp {α : Type} (f : α → α → α) : List α → List α
  | a :: b :: l => f a b :: pairUp f l
  | l => l

def treeGo {α : Type} (f : α → α → α) : Nat → List α → List α
  | 0, l => l
  | n + 1, l => treeGo f n (pairUp f l)

/-- The tree of a chunk; of P elements at most 9 levels. -/
def tree {α : Type} (f : α → α → α) (d : α) (l : List α) : α := (treeGo f 9 l).headD d

/-- A row in chunks of p, chained. -/
def chunked {α : Type} (f : α → α → α) (d : α) (p : Nat) : Nat → Option α → List α → α
  | 0, acc, _ => acc.getD d
  | n + 1, acc, l =>
    if l.isEmpty then acc.getD d
    else
      let t := tree f d (l.take p)
      chunked f d p n (some (match acc with
        | none => t
        | some a => f a t)) (l.drop p)

/-- The value of a reduced row, and what it adds to CONV_SAT. -/
def reduceRow (op ct : Nat) (sat : Bool) (p : Nat) (l : List VVal) : VVal × Nat :=
  let step := fun (a b : VVal × Nat) =>
    let r := match op with
      | 0x30 => vArith ct sat Ev.add (· + ·) a.1 b.1
      | 0x31 => (vMax a.1 b.1, 0)
      | _ => (vMin a.1 b.1, 0)
    (r.1, a.2 + b.2 + r.2)
  if op = 0x30 ∧ 2 < ct then
    let sum := l.foldl (fun (a : Int) v => match v with
      | .int i => a + i
      | .fp _ => a) 0
    (.int (signed 64 (wrapNat 64 sum)), 0)
  else chunked step (vZero ct, 0) p l.length none (l.map (fun v => (v, 0)))

/-! ### Streams (R234, R235) -/

structure Strm where
  fmt     : Nat
  estride : Nat
  pitch   : Nat
  addr    : Nat
deriving DecidableEq, Repr

def parseStrm (w : Word) : Strm :=
  { fmt := fld w 63 60, estride := fld w 59 44, pitch := 64 * fld w 43 28, addr := fld w 24 0 }

def strmReserved (w : Word) : Bool := fld w 27 25 != 0 || decide (0xD ≤ fld w 63 60)

/-- Bytes from the first to the last element of a row of n elements. -/
def Strm.extent (m : Strm) (n : Nat) : Nat := if n = 0 then 0 else ceilDiv ((n - 1) * m.estride * fmtBits m.fmt + fmtBits m.fmt) 8

/-- The range of a block of rows of n elements: (address, bytes). -/
def Strm.range (m : Strm) (rows n : Nat) : Nat × Nat := (m.addr, (rows - 1) * m.pitch + m.extent n)

def Strm.row (m : Strm) (r : Nat) : Nat := m.addr + r * m.pitch

/-- Bytes between neighbours of a row of whole-byte elements. -/
def Strm.step (m : Strm) : Nat := m.estride * (fmtBits m.fmt / 8)

/-- The byte ranges that a row of n elements occupies. -/
def Strm.parts (m : Strm) (r n : Nat) : List (Nat × Nat) :=
  if n = 0 then []
  else if m.estride ≤ 1 then [(m.row r, m.extent n)]
  else (List.range n).map (fun x => (m.row r + x * m.step, fmtBits m.fmt / 8))

/-- A row of n elements holds a byte of a range. -/
def Strm.touches (m : Strm) (n lo len : Nat) (r : Nat) : Bool := (m.parts r n).any (fun p => meet p (lo, len))

/-- The elements of a row, as bits. -/
def Strm.elems (m : Strm) (s : State) (c r n : Nat) : List Nat :=
  if m.estride ≤ 1 then
    let l := s.sp c (m.row r) (m.extent n)
    (List.range n).map (fun x => elemRaw l m.fmt (x * m.estride))
  else (List.range n).map (fun x => leNat (s.sp c (m.row r + x * m.step) (fmtBits m.fmt / 8)))

/-- Read a row: its words are corrected, and poison is told (R259, R271). -/
def strmRead (s : State) (c : Nat) (m : Strm) (r n : Nat) : State × Option (List Nat) :=
  let l := m.parts r n
  let s := forL l (fun p s => spTouch s c p.1 p.2) s
  if l.any (fun p => s.spPoison c p.1 p.2) then (s, none) else (s, some (m.elems s c r n))

/-- The bytes that (position, bits) pairs put into a row, each with its address; a lone nibble keeps its neighbour. -/
def Strm.bytes (m : Strm) (s : State) (c r : Nat) (l : List (Nat × Nat)) : List (Nat × Byte) :=
  if fmtBits m.fmt = 4 then
    let put := fun (acc : List (Nat × Byte)) (e : Nat × Nat) =>
      let a := m.row r + e.1 / 2
      let old : Byte := match acc.head? with
        | some h => if h.1 = a then h.2 else (s.sp c a 1).headD 0
        | none => (s.sp c a 1).headD 0
      let new : Byte := BitVec.ofNat 8 (if e.1 % 2 = 0 then old.toNat / 16 * 16 + e.2 % 16 else old.toNat % 16 + 16 * (e.2 % 16))
      let rest := match acc with
        | [] => []
        | h :: t => if h.1 = a then t else h :: t
      (a, new) :: rest
    (l.foldl put []).reverse
  else
    l.flatMap (fun e => (leBytes (fmtBits m.fmt / 8) e.2).zipIdx.map (fun b => (m.row r + e.1 * m.step + b.2, b.1)))

/-- Neighbouring bytes joined into runs. -/
def byteRuns : List (Nat × Byte) → List (Nat × List Byte)
  | [] => []
  | (a, b) :: l =>
    match byteRuns l with
    | (x, r) :: t => if x = a + 1 then (a, b :: r) :: t else (a, [b]) :: (x, r) :: t
    | [] => [(a, [b])]

/-- Write elements of a row; each run of bytes is one write (log entry 45). -/
def strmWrite (s : State) (c : Nat) (o : Owner) (m : Strm) (r : Nat) (l : List (Nat × Nat)) : State :=
  forL (byteRuns (m.bytes s c r l)) (fun e s => spWrite s c o e.1 e.2) s

/-! ### The descriptor (Table — vector descriptor) -/

structure VecD where
  op     : Nat
  ct     : Nat
  rows   : Nat
  cols   : Nat
  k      : Nat
  slot   : Nat
  scaled : Bool
  sat    : Bool
  zfill  : Bool
  ascend : Bool
  bIdx   : Bool
  a      : Strm
  b      : Strm
  o      : Strm
  imm0   : Nat
  imm1   : Nat
  acb    : Nat
  ocb    : Nat
  aux    : Nat
  aTens  : Nat
  oTens  : Nat
  aBlk   : Nat
  oBlk   : Nat
deriving DecidableEq, Repr

def parseVec (d : List Word) : VecD :=
  let w := wd d 0
  { op := fld w 63 56, ct := fld w 55 52, rows := fld w 51 36 + 1, cols := fld w 35 20 + 1, k := fld w 19 12 + 1,
    slot := fld w 11 9, scaled := bit w 8, sat := bit w 7, zfill := bit w 6, ascend := bit w 5, bIdx := bit w 4,
    a := parseStrm (wd d 1), b := parseStrm (wd d 2), o := parseStrm (wd d 3), imm0 := fld (wd d 4) 63 32,
    imm1 := fld (wd d 4) 31 0, acb := fld (wd d 5) 63 52, ocb := fld (wd d 5) 51 40, aux := fld (wd d 5) 24 0,
    aTens := fld (wd d 6) 63 32, oTens := fld (wd d 6) 31 0, aBlk := fld (wd d 7) 63 32, oBlk := fld (wd d 7) 31 0 }

/-- The shapes of operation. -/
inductive VKind where
  | unary | binary | compare | select | reduce | convert | quant | compress | expand | topk
deriving DecidableEq, Repr

/-- The shape of an op; none for a reserved one. -/
def vKind (op : Nat) : Option VKind :=
  if 0x01 ≤ op ∧ op ≤ 0x06 then some .binary
  else if 0x07 ≤ op ∧ op ≤ 0x0B then some .unary
  else if 0x10 ≤ op ∧ op ≤ 0x13 then some .compare
  else if op = 0x14 then some .select
  else if 0x20 ≤ op ∧ op ≤ 0x24 then some .unary
  else if 0x30 ≤ op ∧ op ≤ 0x32 then some .reduce
  else if op = 0x40 then some .convert
  else if op = 0x41 then some .quant
  else if op = 0x50 then some .compress
  else if op = 0x51 then some .expand
  else if op = 0x60 then some .topk
  else none

/-- The op moves elements unchanged and computes nothing. -/
def VKind.moves (k : VKind) : Bool := k == .select || k == .compress || k == .expand

/-- Stream B is used. -/
def VecD.usesB (d : VecD) (k : VKind) : Bool := k == .binary || k == .compare || k.moves || (k == .topk && d.bIdx)

/-- The op encodes to a codebook, or decodes from one. -/
def VecD.encodes (d : VecD) (k : VKind) : Bool := isCb d.o.fmt && !k.moves
def VecD.decodes (d : VecD) (k : VKind) : Bool := isCb d.a.fmt && !k.moves

/-- AUX_ADDR is used. -/
def VecD.usesAux (_ : VecD) (k : VKind) : Bool := k == .quant || k == .compress || k == .expand || k == .topk

/-- The compute types that an op takes. -/
def ctOk (op ct : Nat) (k : VKind) : Bool :=
  match k with
  | .select => ct == 0
  | .convert => ct == 0
  | .quant => ct == 0
  | .compress => ct == 0
  | .expand => ct == 0
  | .topk => ct == 0 || ct == 5
  | _ => if op = 0x0B ∨ 0x20 ≤ op ∧ op ≤ 0x24 then ct == 0 else [0x0, 0x1, 0x2, 0x5, 0x6, 0x7, 0xC].contains ct

/-- The streams in use. -/
def VecD.streams (d : VecD) (k : VKind) : List Strm := [d.a, d.o] ++ (if d.usesB k then [d.b] else [])

/-- The element rate P (R255). -/
def VecD.rate (d : VecD) (k : VKind) : Nat :=
  let one := fun (m : Strm) =>
    if m.estride = 0 then 256
    else if m.estride = 1 then 2048 / fmtBits m.fmt
    else min 256 (max 4 (256 / m.step))
  let lanes := match d.ct with
    | 0x0 => 64
    | 0x5 => 64
    | 0x7 => 256
    | 0xC => 32
    | _ => 128
  let l := ((d.streams k).map one).foldl min 256
  if k.moves || k == .convert then l else min l lanes

/-- Elements that a row of the output counts. -/
def VecD.outCols (d : VecD) (k : VKind) : Nat :=
  match k with
  | .reduce => 1
  | .topk => d.k
  | _ => d.cols

/-! ### Scale blocks (R247, R250) -/

/-- The data blocks, by index, that hold an element of row r of stream A. -/
def VecD.rowBlocks (d : VecD) (r : Nat) : List Nat :=
  ((d.a.parts r d.cols).flatMap (fun p => tensorBlocks d.a.addr d.aBlk p.1 p.2)).dedup

/-- A data block holds an element that the descriptor reads. -/
def VecD.readsBlock (d : VecD) (b : Nat) : Bool := (List.range d.rows).any (fun r => (d.rowBlocks r).contains b)

/-- How many data blocks the descriptor reads. -/
def VecD.blocksRead (d : VecD) : Nat := ((List.range d.rows).flatMap d.rowBlocks).dedup.length

/-- The spans of row r of the output: its index, and the data blocks it writes. -/
def VecD.outSpan (d : VecD) (r : Nat) : Nat := tensorOff d.o.addr d.oBlk (d.o.row r) / d.o.pitch

def VecD.outBlocks (d : VecD) (r : Nat) : List Nat := tensorBlocks d.o.addr d.oBlk (d.o.row r) d.cols

/-- The rows that write in a data block, in order. -/
def VecD.rowsOf (d : VecD) (b : Nat) : List Nat := (List.range d.rows).filter (fun r => (d.outBlocks r).contains b)

/-- The last row whose pitch span meets a data block. -/
def VecD.lastIn (d : VecD) (b : Nat) : Nat :=
  (((List.range d.rows).filter (fun r => decide (d.outSpan r * d.o.pitch < 4096 * (b + 1)))).getLast?).getD 0

/-- The data blocks written, in order. -/
def VecD.blocksOut (d : VecD) : List Nat :=
  let lo := tensorOff d.o.addr d.oBlk d.o.addr / 4096
  let hi := ((d.outBlocks (d.rows - 1)).getLastD lo)
  (List.range (hi + 1 - lo)).map (fun i => lo + i) |>.filter (fun b => (d.rowsOf b) != [])

/-- The spans that the scale block of a data block names (R250, R642). -/
def VecD.spansOf (d : VecD) (b : Nat) : List Nat :=
  let j0 := 4096 * b / d.o.pitch
  (List.range (d.outSpan (d.lastIn b) + 1 - j0)).map (fun i => j0 + i)

/-- Address of the scale block of a data block. -/
def VecD.scaleAt (d : VecD) (b : Nat) : Nat :=
  ((d.blocksOut.filter (fun x => decide (x < b))).map (fun x => scaleSize (d.spansOf x).length)).foldl (· + ·) d.aux

/-! ### Checks (R260) -/

/-- The bytes of the AUX range. -/
def VecD.auxBytes (d : VecD) (k : VKind) : Nat :=
  match k with
  | .quant => (d.blocksOut.map (fun x => scaleSize (d.spansOf x).length)).sum
  | .compress => 4 * d.rows
  | .expand => 4 * d.rows
  | .topk => 4 * d.rows * d.k
  | _ => 0

/-- What the descriptor writes. -/
def VecD.written (d : VecD) (k : VKind) : List (Nat × Nat) := [d.o.range d.rows (d.outCols k), (d.aux, d.auxBytes k)]

/-- The scale stream at its least extent (R638). -/
def VecD.scaleRange (d : VecD) : Nat × Nat := (d.b.addr, if d.scaled then 64 * d.blocksRead else 0)

/-- An input stream and stream O may be the same place (R236). -/
def VecD.inPlace (d : VecD) (m : Strm) : Bool :=
  decide (d.op ≤ 0x2F) && m.addr == d.o.addr && m.estride == 1 && d.o.estride == 1 && m.pitch == d.o.pitch &&
    fmtBits m.fmt == fmtBits d.o.fmt

/-- Every range lies in the scratchpad, and none overlaps where R236 forbids it (log entry 46). -/
def VecD.rangesOk (d : VecD) (k : VKind) : Bool :=
  let inOut := d.written k
  let reads := [d.a] ++ (if d.usesB k then [d.b] else [])
  let inside := fun (r : Nat × Nat) => decide (r.2 = 0 ∨ r.1 + r.2 ≤ scratchBytes)
  inOut.all inside && inside d.scaleRange && reads.all (fun m => inside (m.range d.rows d.cols)) &&
    reads.all (fun m =>
      let x := m.range d.rows d.cols
      (!meet x (d.o.range d.rows (d.outCols k)) || d.inPlace m) && !meet x (d.aux, d.auxBytes k) && !meet x d.scaleRange) &&
    inOut.all (fun r => !meet r d.scaleRange)

/-- The formats that an op takes (R240, R248, R254). -/
def VecD.formatsOk (d : VecD) (k : VKind) : Bool :=
  (!d.usesB k || !isCb d.b.fmt) &&
  match k with
  | .compare => d.o.fmt == 8
  | .select => d.b.fmt == 8 && d.a.fmt == d.o.fmt
  | .compress => d.b.fmt == 8 && d.a.fmt == d.o.fmt
  | .expand => d.b.fmt == 8 && d.a.fmt == d.o.fmt
  | .quant => d.cols % 32 == 0 && (isFp d.a.fmt || (d.a.fmt == 7 && d.scaled)) && d.o.fmt == 7 && d.o.estride == 1 &&
      decide (d.cols ≤ d.o.pitch)
  | .topk => (if d.ct = 0 then isFp d.a.fmt else decide (5 ≤ d.a.fmt ∧ d.a.fmt ≤ 9)) && (!d.bIdx || d.b.fmt == 5)
  | _ => true

/-- The refusal of a descriptor (R260, R639, R640). -/
def vecRefusal (s : State) (d : List Word) : Option Status :=
  let v := parseVec d
  match vKind v.op with
  | none => some stReservedNonzero
  | some k =>
    if fld (wd d 0) 3 0 ≠ 0 ∨ fld (wd d 5) 39 25 ≠ 0 ∨ 0xD ≤ v.ct ∨ strmReserved (wd d 1) ∨ strmReserved (wd d 2) ∨
        strmReserved (wd d 3) then some stReservedNonzero
    else if !ctOk v.op v.ct k || !v.formatsOk k ||
        (v.scaled && !((k == .convert || k == .quant) && v.a.fmt == 7 && wd d 2 == at_ 24 0 v.b.addr && v.b.addr % 64 == 0)) ||
        (!v.scaled && !v.usesB k && wd d 2 != 0) ||
        (k != .topk && (decide (v.k ≠ 1) || v.ascend || v.bIdx)) ||
        (k != .compress && k != .expand && v.zfill) || (!v.encodes k && v.slot != 0) ||
        (v.op != 0x04 && v.op != 0x0A && v.imm0 != 0) || (v.op != 0x0A && v.imm1 != 0) ||
        decide (v.o.estride = 0 ∨ v.o.pitch = 0) ||
        (v.streams k).any (fun m => (fmtBits m.fmt == 4 && decide (1 < m.estride)) || m.addr % max 1 (fmtBits m.fmt / 8) != 0) ||
        ((k == .compress || k == .expand || k == .topk) && v.aux % 4 != 0) || (k == .quant && v.aux % 64 != 0) ||
        (!v.scaled && v.aTens != 0) || (k != .quant && v.oTens != 0) || (!v.decodes k && v.acb != 0) ||
        (!v.encodes k && v.ocb != 0) || (!v.usesAux k && v.aux != 0) ||
        (v.decodes k && !s.cbFits v.acb v.a.fmt) || (v.encodes k && !s.cbFits v.ocb v.o.fmt) || !v.rangesOk k then
      some stBadDescriptor
    else none

/-! ### Running a descriptor -/

/-- The vector record counts. -/
def upVx (s : State) (c : Nat) (f : VectorRec → VectorRec) : State := upCore s c (fun k => { k with vx := f k.vx })

/-- How far a descriptor has come: its walk, and the scales QUANT has found by span. -/
structure VecRun where
  walk   : ScaleWalk
  scales : List (Nat × BitVec 32)
deriving DecidableEq, Repr

/-- NaNs among the FP elements that a row reads count, and so do the NaNs and infinities among those it writes (R262). -/
def countIn (s : State) (c fmt : Nat) (raw : List Nat) : State :=
  if isFp fmt then upVx s c (fun x => { x with nanIn := x.nanIn + raw.countP (fun r => (fpDecode fmt r).isNan) }) else s

def countOut (s : State) (c fmt : Nat) (raw : List Nat) : State :=
  if isFp fmt then
    upVx s c (fun x => { x with fpNonfinite := x.fpNonfinite + raw.countP (fun r => !(fpDecode fmt r).isFinite) })
  else s

/-- The input elements of a row as exact values. -/
def vecInputs (s : State) (c : Nat) (fmt : Nat) (cb : CbView) (raw : List Nat) : State × List Ev :=
  (countIn s c fmt raw, raw.map (fun x => elemVal fmt x cb))

/-- Values into the compute type, their clamps counted. -/
def vecCt (s : State) (c ct : Nat) (sat : Bool) (l : List Ev) : State × List VVal :=
  let r := l.map (toCt ct sat)
  (upVx s c (fun x => { x with convSat := x.convSat + (r.map (·.2)).sum }), r.map (·.1))

/-- Results into stream O's format, with the counts of R182, R246 and R262; `fp`: they come from FP values. -/
def vecOutputs (s : State) (c : Nat) (d : VecD) (fp : Bool) (l : List Ev) : State × List Nat :=
  if isCb d.o.fmt then
    let cb := s.cbOn c d.ocb
    let x := l.map r32
    (upCore s c (fun k => x.foldl (fun k p => k.clipAdd d.slot 1 (b2n (cb.clips p))) k), x.map cb.encode)
  else
    let r := l.map (toFmt d.o.fmt (d.sat && fp))
    let s := upVx s c (fun x => { x with convSat := x.convSat + r.countP (·.2) })
    (countOut s c d.o.fmt (r.map (·.1)), r.map (·.1))

/-- Write a row of results from element 0 on, and count them. -/
def vecStore (s : State) (c : Nat) (o : Owner) (d : VecD) (r : Nat) (l : List Nat) : State :=
  let s := strmWrite s c o d.o r (l.zipIdx.map (fun e => (e.2, e.1)))
  upVx s c (fun x => { x with elements := x.elements + l.length })

/-- Unsigned 32-bit words at AUX_ADDR + off. -/
def vecAux (s : State) (c : Nat) (o : Owner) (d : VecD) (off : Nat) (l : List Nat) : State :=
  let s := spWrite s c o (d.aux + off) (l.flatMap (fun n => leBytes 4 n))
  upVx s c (fun x => { x with elements := x.elements + l.length })

/-- What a row came to: the state with the run so far, or how its data end the job. -/
abbrev RowOut := State × Except DataEnd VecRun

/-- Stream A of CONVERT and QUANT, as exact values; with A_SCALED its scale blocks are checked first (R247). -/
def vecSource (s : State) (c : Nat) (d : VecD) (r : Nat) (x : VecRun) : State × Except DataEnd (VecRun × List Ev) :=
  if d.scaled then
    let u : ScaleUse :=
      { core := c, tensor := d.aTens, reads := d.readsBlock, block := blockAddr d.a.addr d.aBlk,
        written := d.written ((vKind d.op).getD .convert) }
    let off := tensorOff d.a.addr d.aBlk (d.a.row r)
    match scaleWalks u [off / 4096] x.walk s with
    | (s, some st, _) => (s, .error st)
    | (s, none, w) =>
      match w.scaleOf d.a.pitch off s with
      | (s, .error st) => (s, .error st)
      | (s, .ok sc) =>
        match scaleWalks u (d.rowBlocks r) w s with
        | (s, some st, _) => (s, .error st)
        | (s, none, w) =>
          match strmRead s c d.a r d.cols with
          | (s, none) => (s, .error (.job stPoisoned))
          | (s, some raw) =>
            (s, .ok ({ x with walk := w }, raw.map (fun q => d32 (f32mul (f32ofInt (intDecode 7 q)) sc))))
  else
    match strmRead s c d.a r d.cols with
    | (s, none) => (s, .error (.job stPoisoned))
    | (s, some raw) =>
      let p := vecInputs s c d.a.fmt (s.cbOn c d.acb).view raw
      (p.1, .ok (x, p.2))

/-- R249, R250: the scale blocks whose last span is that of row r. -/
def vecScales (s : State) (c : Nat) (o : Owner) (d : VecD) (r : Nat) (x : VecRun) : State :=
  forL (d.blocksOut.filter (fun b => d.lastIn b == r)) (fun b s =>
    let l := (d.spansOf b).map (fun j => ((x.scales.find? (fun e => e.1 == j)).map (·.2)).getD 0)
    spWrite s c o (d.scaleAt b) (scaleBlock d.oTens b 0 l)) s

/-- Rank order of R254: a before b. -/
def ranks (ascend : Bool) (a b : VVal × Nat) : Bool :=
  let less := fun (x y : VVal) => match x, y with
    | .fp p, .fp q => if p.isNan then false else if q.isNan then true else if ascend then p.lt q else q.lt p
    | .int i, .int j => if ascend then decide (i < j) else decide (j < i)
    | _, _ => false
  less a.1 b.1 || (!less b.1 a.1 && decide (a.2 ≤ b.2))

/-- Row r of an element-wise op, a comparison or a reduction. -/
def rowCompute (s : State) (c : Nat) (o : Owner) (d : VecD) (k : VKind) (r : Nat) (x : VecRun) : RowOut :=
  match strmRead s c d.a r d.cols with
  | (s, none) => (s, .error (.job stPoisoned))
  | (s, some ra) =>
    match (if d.usesB k then strmRead s c d.b r d.cols else (s, some ra)) with
    | (s, none) => (s, .error (.job stPoisoned))
    | (s, some rb) =>
      let (s, la) := vecInputs s c d.a.fmt (s.cbOn c d.acb).view ra
      let (s, va) := vecCt s c d.ct (d.sat && isFp d.a.fmt) la
      let (s, vb) :=
        if d.usesB k then
          let p := vecInputs s c d.b.fmt ⟨[], 0⟩ rb
          vecCt p.1 c d.ct (d.sat && isFp d.b.fmt) p.2
        else (s, va)
      let i0 := immVal d.ct d.imm0
      let i1 := immVal d.ct d.imm1
      let res := if k = .reduce then [reduceRow d.op d.ct d.sat (d.rate k) va]
        else List.zipWith (fun a b => vOp d.op d.ct d.sat a b i0 i1) va vb
      let s := upVx s c (fun v => { v with convSat := v.convSat + (res.map (·.2)).sum })
      let (s, out) := vecOutputs s c d (decide (d.ct ≤ 2)) (res.map (fun p => p.1.ev))
      (vecStore s c o d r out, .ok x)

/-- Row r of SELECT. -/
def rowSelect (s : State) (c : Nat) (o : Owner) (d : VecD) (r : Nat) (x : VecRun) : RowOut :=
  match strmRead s c d.a r d.cols with
  | (s, none) => (s, .error (.job stPoisoned))
  | (s, some ra) =>
    match strmRead s c d.b r d.cols with
    | (s, none) => (s, .error (.job stPoisoned))
    | (s, some rb) =>
      let l := ((ra.zip rb).zipIdx.filter (fun e => e.1.2 != 0)).map (fun e => (e.2, e.1.1))
      let s := countOut (countIn s c d.a.fmt ra) c d.o.fmt (l.map (·.2))
      let s := strmWrite s c o d.o r l
      (upVx s c (fun v => { v with elements := v.elements + l.length }), .ok x)

/-- Row r of COMPRESS (R252). -/
def rowCompress (s : State) (c : Nat) (o : Owner) (d : VecD) (r : Nat) (x : VecRun) : RowOut :=
  match strmRead s c d.a r d.cols with
  | (s, none) => (s, .error (.job stPoisoned))
  | (s, some ra) =>
    match strmRead s c d.b r d.cols with
    | (s, none) => (s, .error (.job stPoisoned))
    | (s, some rb) =>
      let l := ((ra.zip rb).filter (fun e => e.2 != 0)).map (·.1)
      let all := if d.zfill then l ++ List.replicate (d.cols - l.length) 0 else l
      let s := countOut (countIn s c d.a.fmt ra) c d.o.fmt all
      (vecAux (vecStore s c o d r all) c o d (4 * r) [l.length], .ok x)

/-- The elements of A in turn at the active positions; zeros or nothing elsewhere. -/
def expandRow (zfill : Bool) : Nat → List Nat → List Nat → List (Nat × Nat)
  | _, [], _ => []
  | i, m :: ms, a =>
    if m = 0 then (if zfill then (i, 0) :: expandRow zfill (i + 1) ms a else expandRow zfill (i + 1) ms a)
    else (i, a.headD 0) :: expandRow zfill (i + 1) ms (a.drop 1)

/-- Row r of EXPAND (R253). -/
def rowExpand (s : State) (c : Nat) (o : Owner) (d : VecD) (r : Nat) (x : VecRun) : RowOut :=
  match strmRead s c d.b r d.cols with
  | (s, none) => (s, .error (.job stPoisoned))
  | (s, some rb) =>
    let n := rb.countP (· != 0)
    match strmRead s c d.a r n with
    | (s, none) => (s, .error (.job stPoisoned))
    | (s, some ra) =>
      let l := expandRow d.zfill 0 rb ra
      let s := countOut (countIn s c d.a.fmt ra) c d.o.fmt (l.map (·.2))
      let s := strmWrite s c o d.o r l
      let s := upVx s c (fun v => { v with elements := v.elements + l.length })
      (vecAux s c o d (4 * r) [n], .ok x)

/-- Row r of TOPK (R254). -/
def rowTopk (s : State) (c : Nat) (o : Owner) (d : VecD) (r : Nat) (x : VecRun) : RowOut :=
  match strmRead s c d.a r d.cols with
  | (s, none) => (s, .error (.job stPoisoned))
  | (s, some ra) =>
    match (if d.bIdx then strmRead s c d.b r d.cols else (s, some (List.range d.cols))) with
    | (s, none) => (s, .error (.job stPoisoned))
    | (s, some ids) =>
      let (s, la) := vecInputs s c d.a.fmt ⟨[], 0⟩ ra
      let (s, va) := vecCt s c d.ct false la
      let top := (sortBy (ranks d.ascend) va.zipIdx).take d.k
      let vals := top.map (·.1) ++ List.replicate (d.k - top.length) (vZero d.ct)
      let idx := top.map (fun e => ids.getD e.2 0) ++ List.replicate (d.k - top.length) 0xFFFFFFFF
      let (s, out) := vecOutputs s c d (d.ct == 0) (vals.map VVal.ev)
      let s := vecAux (vecStore s c o d r out) c o d (4 * r * d.k) idx
      (upVx s c (fun v => { v with topkRows := v.topkRows + 1 }), .ok x)

/-- Row r of CONVERT (R246). -/
def rowConvert (s : State) (c : Nat) (o : Owner) (d : VecD) (r : Nat) (x : VecRun) : RowOut :=
  match vecSource s c d r x with
  | (s, .error st) => (s, .error st)
  | (s, .ok (x, l)) =>
    let (s, out) := vecOutputs s c d (d.scaled || isFp d.a.fmt) l
    (vecStore s c o d r out, .ok x)

/-- Row r of QUANT (R248 to R250). -/
def rowQuant (s : State) (c : Nat) (o : Owner) (d : VecD) (r : Nat) (x : VecRun) : RowOut :=
  match vecSource s c d r x with
  | (s, .error st) => (s, .error st)
  | (s, .ok (x, l)) =>
    let (sc, codes, kind) := quantise (l.map r32)
    let s := upCore s c (fun k => { k with
      degenerate := k.degenerate + b2n (kind == .degenerate), nonfinite := k.nonfinite + b2n (kind == .nonfinite) })
    let s := vecStore s c o d r (codes.map (wrapNat 8))
    let x := { x with scales := (d.outSpan r, sc) :: x.scales }
    (vecScales s c o d r x, .ok x)

/-- Row r of a descriptor. -/
def vecRow (s : State) (c : Nat) (o : Owner) (d : VecD) (k : VKind) (r : Nat) (x : VecRun) : RowOut :=
  match k with
  | .select => rowSelect s c o d r x
  | .compress => rowCompress s c o d r x
  | .expand => rowExpand s c o d r x
  | .topk => rowTopk s c o d r x
  | .convert => rowConvert s c o d r x
  | .quant => rowQuant s c o d r x
  | _ => rowCompute s c o d k r x

/-- A residue mismatch of a lane (R258): it has the effects of R228, and counts in the vector record too. -/
def vecMismatch (s : State) (c : Nat) (e : QEntry) (lane : Nat) : State :=
  let s := upCore s c (fun k => { k with mx := { k.mx with residue := k.mx.residue + 1 } })
  arithFault (upVx s c (fun v => { v with residue := v.residue + 1 })) e.owner unitVector c lane (BitVec.ofNat 64 e.addr)

/-- Rows from r on; a row that fails ends the job, and the rows before it stay written (R259).  A mismatch of a lane is seen
before its row is written (R258, log entry 23). -/
def vecRows (c : Nat) (e : QEntry) (d : VecD) (k : VKind) (bad : Option (Nat × Nat)) : Nat → Nat → VecRun → State → State × Bool
  | 0, _, _, s => (s, true)
  | n + 1, r, x, s =>
    match bad.filter (fun b => b.1 == r && decide (b.2 < min d.cols (d.rate k))) with
    | some b => (vecMismatch s c e b.2, false)
    | none =>
      match vecRow s c e.owner d k r x with
      | (s, .error f) => (endData s e.owner f, false)
      | (s, .ok x) => vecRows c e d k bad n (r + 1) x s

/-- The codebooks that a descriptor decodes and encodes with. -/
def VecD.cbs (d : VecD) (k : VKind) : List Nat := (if d.decodes k then [d.acb] else []) ++ (if d.encodes k then [d.ocb] else [])

/-- The descriptor at the head of a core's VECTOR queue, where it has the op `op`: it is checked, its codebooks are taken up
(R282), its rows run, and it leaves the queue.  `bad` is a row and a lane whose check fails.  A descriptor that no op's row
would take is refused by any of them. -/
def vecRun (c op : Nat) (bad : Option (Nat × Nat)) (s : State) : State :=
  whenPowered s fun s =>
    match (s.core c).qVector with
    | [] => s
    | e :: l =>
      let o := e.owner
      let d := pdata e.desc
      let v := parseVec d
      if anyPoison e.desc then failJob s o stPoisoned
      else if v.op ≠ op ∧ (vKind v.op).isSome then s
      else
        match vecRefusal s d, vKind v.op with
        | some st, _ => failJob s o st
        | none, none => s
        | none, some k =>
          match coreCbs c (v.cbs k) s with
          | (s, false) => failJob s o stPoisoned
          | (s, true) =>
            match vecRows c e v k bad v.rows 0 { walk := { next := v.aBlk, addr := v.b.addr }, scales := [] } s with
            | (s, false) => s
            | (s, true) =>
              upCore s c (fun k => { k with qVector := l, vx := { k.vx with descriptors := k.vx.descriptors + 1 } })

/-! ### The commands -/

def execVecAdd (c : CoreId) (bad : Option (Nat × Nat)) (s : State) : Out := .next (vecRun c 0x01 bad s)
def execVecSub (c : CoreId) (bad : Option (Nat × Nat)) (s : State) : Out := .next (vecRun c 0x02 bad s)
def execVecMul (c : CoreId) (bad : Option (Nat × Nat)) (s : State) : Out := .next (vecRun c 0x03 bad s)
def execVecAxpy (c : CoreId) (bad : Option (Nat × Nat)) (s : State) : Out := .next (vecRun c 0x04 bad s)
def execVecMax (c : CoreId) (s : State) : Out := .next (vecRun c 0x05 none s)
def execVecMin (c : CoreId) (s : State) : Out := .next (vecRun c 0x06 none s)
def execVecAbs (c : CoreId) (bad : Option (Nat × Nat)) (s : State) : Out := .next (vecRun c 0x07 bad s)
def execVecNeg (c : CoreId) (bad : Option (Nat × Nat)) (s : State) : Out := .next (vecRun c 0x08 bad s)
def execVecRelu (c : CoreId) (s : State) : Out := .next (vecRun c 0x09 none s)
def execVecClamp (c : CoreId) (s : State) : Out := .next (vecRun c 0x0A none s)
def execVecRecip (c : CoreId) (bad : Option (Nat × Nat)) (s : State) : Out := .next (vecRun c 0x0B bad s)
def execVecCmpEq (c : CoreId) (s : State) : Out := .next (vecRun c 0x10 none s)
def execVecCmpNe (c : CoreId) (s : State) : Out := .next (vecRun c 0x11 none s)
def execVecCmpLt (c : CoreId) (s : State) : Out := .next (vecRun c 0x12 none s)
def execVecCmpLe (c : CoreId) (s : State) : Out := .next (vecRun c 0x13 none s)
def execVecSelect (c : CoreId) (s : State) : Out := .next (vecRun c 0x14 none s)
def execVecExp (c : CoreId) (bad : Option (Nat × Nat)) (s : State) : Out := .next (vecRun c 0x20 bad s)
def execVecLog (c : CoreId) (bad : Option (Nat × Nat)) (s : State) : Out := .next (vecRun c 0x21 bad s)
def execVecSigmoid (c : CoreId) (bad : Option (Nat × Nat)) (s : State) : Out := .next (vecRun c 0x22 bad s)
def execVecTanh (c : CoreId) (bad : Option (Nat × Nat)) (s : State) : Out := .next (vecRun c 0x23 bad s)
def execVecRsqrt (c : CoreId) (bad : Option (Nat × Nat)) (s : State) : Out := .next (vecRun c 0x24 bad s)
def execVecRsum (c : CoreId) (bad : Option (Nat × Nat)) (s : State) : Out := .next (vecRun c 0x30 bad s)
def execVecRmax (c : CoreId) (s : State) : Out := .next (vecRun c 0x31 none s)
def execVecRmin (c : CoreId) (s : State) : Out := .next (vecRun c 0x32 none s)
def execVecConvert (c : CoreId) (bad : Option (Nat × Nat)) (s : State) : Out := .next (vecRun c 0x40 bad s)
def execVecQuant (c : CoreId) (bad : Option (Nat × Nat)) (s : State) : Out := .next (vecRun c 0x41 bad s)
def execVecCompress (c : CoreId) (s : State) : Out := .next (vecRun c 0x50 none s)
def execVecExpand (c : CoreId) (s : State) : Out := .next (vecRun c 0x51 none s)
def execVecTopk (c : CoreId) (s : State) : Out := .next (vecRun c 0x60 none s)

end Sys2Proof.Machine
end

