-- ==== Sys2Proof/Machine/Updates.lean ====
section
/-!
DEFINITION. Step closes (chapter 10): arrivals, the curve (R310), the recurrence (R311), the slots that update engines work
on (R327 to R330), and the end of a close.
-/
namespace Sys2Proof.Machine

/-! ### The learning rate (R310) -/

/-- powf: `n` bits of d still to go, from the highest. -/
def powfGo (c : BitVec 32) (d : Nat) : Nat → BitVec 32 → BitVec 32
  | 0, r => r
  | b + 1, r =>
    let r := f32mul r r
    powfGo c d b (if d.testBit b then f32mul r c else r)

def powf (c : BitVec 32) (d : Nat) : BitVec 32 := if d = 0 then f32one else powfGo c d (Nat.log2 d + 1) f32one

/-- The segment of a group's curve that holds index n. -/
def State.segment (s : State) (g n : Nat) : Seg :=
  let l := (List.range ((s.coef g).nsegM1 + 1)).map (fun k => (Tbl.get {} s.upd.curve (16 * g + k) : Seg))
  ((l.filter (fun x => decide (x.start ≤ n))).getLast?).getD {}

/-- curve(n). -/
def State.eta (s : State) (g n : Nat) : BitVec 32 :=
  let x := s.segment g n
  let d := n - x.start
  let e := if x.expo then f32mul x.eta0 (powf x.p d) else f32add x.eta0 (f32mul (f32ofInt d) x.p)
  if (d32 e).lt (.num false 0 0 false) then 0 else e

/-! ### The recurrence (R311) -/

/-- C1 to C7 of an entry. -/
def Coef.k (c : Coef) (i : Nat) : BitVec 32 := c.c.getD (i - 1) 0

/-- What the recurrence reads of a row, and what it leaves. -/
structure RowCalc where
  t     : Nat
  s2row : BitVec 32
  s1    : List (BitVec 32)
  s2    : List (BitVec 32)
  w     : List (BitVec 32)
deriving DecidableEq, Repr

/-- The gradient of an element: its staged sum clipped and scaled. -/
def Coef.grad (c : Coef) (g : BitVec 32) : BitVec 32 :=
  let b := d32 c.gclip
  f32mul (r32 (evMin (evMax (d32 g) b.neg) b)) c.gscale

/-- 1 / (1 − powf(c, t)). -/
def biasOf (c : BitVec 32) (t : Nat) : BitVec 32 := f32div f32one (f32sub f32one (powf c t))

/-- New value of one element: its gradient, s1, the adaptive denominator and the old value. -/
def Coef.move (c : Coef) (eta b1 den gp s1 w : BitVec 32) : BitVec 32 :=
  let a := f32div (f32mul (f32mul (c.k 5) b1) s1) den
  let u := f32add (f32add a (f32mul (c.k 6) gp)) (f32mul (c.k 7) w)
  f32sub w (f32mul eta u)

/-- R311 for a row: `staged` is the staged sums as FP32, `eta` the curve. -/
def Coef.update (c : Coef) (g : Word) (eta : Nat → BitVec 32) (staged : List (BitVec 32)) (r : RowCalc) : RowCalc :=
  let t := if c.keeps then min (r.t + 1) (2 ^ 32 - 1) else 1
  let eta := eta (if c.etaIndex then t else g.toNat)
  let b1 := if c.biasCorr then biasOf (c.k 1) t else f32one
  let b2 := if c.biasCorr then biasOf (c.k 3) t else f32one
  let gp := staged.map c.grad
  let s1 := List.zipWith (fun a x => f32dot2 (c.k 1) a (c.k 2) x) r.s1 gp
  let sq := gp.map (fun x => f32mul x x)
  let s2 := List.zipWith (fun a x => f32dot2 (c.k 3) a (c.k 4) x) r.s2 sq
  let m := f32div (chunked f32add 0 64 staged.length none sq) (f32ofInt staged.length)
  let s2row := if c.s2Mode = 2 then f32dot2 (c.k 3) r.s2row (c.k 4) m else 0
  let den := fun (s : BitVec 32) => if c.s2Mode = 0 then f32one else f32add (f32sqrt (f32mul b2 s)) c.eps
  let dens := if c.s2Mode = 1 then s2.map den else List.replicate staged.length (den s2row)
  { t := t, s2row := s2row, s1 := s1, s2 := s2
    w := (List.range staged.length).map (fun i =>
      c.move eta b1 (dens.getD i 0) (gp.getD i 0) (s1.getD i 0) (r.w.getD i 0)) }

/-! ### Slots of a version (R314 to R317) -/

/-- The staged sums of a staging row as FP32 (R311). -/
def UpdEntry.sums (e : UpdEntry) (l : List Word) (elems : Nat) : List (BitVec 32) :=
  (if e.stageFmt = 0 then f32s l
   else l.map (fun w => r32 (.num (decide (w.toInt < 0)) w.toInt.natAbs (-e.exp) false))).take elems

/-- State words as the recurrence reads them: T, S2_ROW, s1 and s2; zeros for what is not stored. -/
def Coef.readState (c : Coef) (e : Nat) (l : List Word) (w : List (BitVec 32)) : RowCalc :=
  let x := f32s (l.drop 1)
  let none := List.replicate e (0 : BitVec 32)
  { t := fld (wd l 0) 63 32, s2row := (wd l 0).extractLsb' 0 32
    s1 := if c.hasS1 then x.take e else none
    s2 := if c.s2Mode = 1 then (if c.hasS1 then x.drop e else x).take e else none
    w := w }

/-- The state record of a row. -/
def Coef.stateWords (c : Coef) (r : RowCalc) : List Word :=
  (at_ 63 32 r.t ||| r.s2row.zeroExtend 64) ::
    pack32 ((if c.hasS1 then r.s1 else []) ++ (if c.s2Mode = 1 then r.s2 else []))

/-- The elements of a table row as FP32 (R179). -/
def rowFp32 (t : TableEntry) (cb : CbView) (l : List Word) : List (BitVec 32) :=
  (List.range t.elems).map (fun x => elemF32 cb 0 t.format (elemRaw (wordsBytes l) t.format x))

/-- A new value as the row stores it (R329). -/
def storeElem (f : Nat) (cb : Codebook) (w : BitVec 32) : Nat :=
  match f with
  | 0x1 => (bf16.round (d32 w)).1
  | 0x2 => (fp16.round (d32 w)).1
  | 0x0 => w.toNat
  | _ => cb.encode w

/-- The elements of a row, packed (R172). -/
def packRaw (f : Nat) (l : List Nat) : List Byte :=
  if fmtBits f = 4 then
    (List.range (ceilDiv l.length 2)).map (fun i => BitVec.ofNat 8 (l.getD (2 * i) 0 + 16 * l.getD (2 * i + 1) 0))
  else l.flatMap (fun x => leBytes (fmtBits f / 8) x)

/-- The new row: its header with STAMP, its elements, and the bytes after them as they were. -/
def newRow (t : TableEntry) (cb : Codebook) (stamp : Nat) (old : List Word) (w : List (BitVec 32)) : List Word :=
  let h := at_ 63 48 stamp ||| at_ 47 0 (fld (wd old 0) 47 0)
  let body := packRaw t.format (w.map (storeElem t.format cb))
  let tail := (wordsBytes (old.drop 1)).drop body.length
  h :: bytesWords (body ++ tail) (old.length - 1)

/-- A new value counts in NONFINITE: it is NaN or an infinity, or is stored as one (R329, R334). -/
def storesNonfinite (f : Nat) (w : BitVec 32) : Bool :=
  !(d32 w).isFinite || (f == 1 && !(bf16.decode (bf16.round (d32 w)).1).isFinite) ||
    (f == 2 && !(fp16.decode (fp16.round (d32 w)).1).isFinite)

/-! ### Beginning a close (R325, R326) -/

/-- The close of a job. -/
def State.closeOf (s : State) (job : Nat) : Option Close := s.upd.closes.find? (fun c => c.job == job)
def upClose (s : State) (job : Nat) (f : Close → Close) : State :=
  { s with upd := { s.upd with closes := updFirst (fun c => c.job == job) f s.upd.closes } }

def State.arrive (s : State) (parity : Nat) : Word := if parity = 0 then s.upd.arrive0 else s.upd.arrive1

/-- An INT64 ADD of 1 to an arrival word, as an adder packet (R85, R86): firmware keeps the word of a parity at a place the
rules do not give (Config.arrivalOffset). -/
def arrivalPacket (m parity : Nat) : List PWord :=
  [.good (BitVec.ofNat 64 (mkPa m 0 (Config.arrivalOffset parity))), .good (at_ 63 56 opAdd ||| at_ 55 52 0xC ||| at_ 51 48 0xC),
   .good 1, .good 0, .good 0, .good 0]

/-- Send the arrivals (step 2): this module's own word counts at once; a module without a path ends the job (R340). -/
def sendArrival (o : Owner) (parity m : Nat) (s : State) : State :=
  if !s.lives o.job then s
  else if m = s.moduleNo then s.addArrival parity 1
  else if s.hasPath m then request s m false 3 0 0 0 (arrivalPacket m parity) (some o) none none 0
  else failJob s o stUnmapped

/-- LAST_CLOSE_ROWS counts anew (R331, R334). -/
def zeroCloseRows (s : State) : State := forN 12 (fun h s => upHedge s h (fun x => { x with up := { x.up with lastCloseRows := 0 } })) s

/-- R326, steps 1 and 2. -/
def execStepClose (job idx : Nat) (s : State) : Out :=
  .next (onCmd s job idx 7 fun j k s =>
    if s.fwRuns ∧ j.mayStart k ∧ !s.mustFollow j k 6 then
      let o := ownerOf j idx
      let w := wd k.words 0
      let keys := s.closesOf j
      let s := cmdMark (forL keys (fun k s => cleanStaging s k) s) o .running
      let c : Close :=
        { job := job, idx := idx, versions := keys, parity := fld w 48 48, peers := fld w 55 49,
          stamp := BitVec.ofNat 16 (fld w 47 32), clipCore := fld w 31 25, clipSlot := fld w 24 22, phase := .arriving,
          g := 0, freeze := 0, doneAt := [], engines := [], rows := [], clips := [], totals := [] }
      let s := if s.upd.closes.all (fun c => c.phase == .arriving) then zeroCloseRows s else s
      let s := { s with upd := { s.upd with closes := s.upd.closes ++ [c] } }
      forL ((List.range 64).filter (fun m => (wd k.words 1).getLsbD m)) (sendArrival o c.parity) s
    else s)

/-- R326, steps 3 and 4. -/
def execStepCloseArrivalsMet (job : Nat) (s : State) : Out :=
  .next (whenFw s fun s =>
    match s.closeOf job with
    | none => s
    | some c =>
      if c.phase = .arriving ∧ (c.peers : Int) ≤ (s.arrive c.parity).toInt then
        let s := s.addArrival c.parity (-(BitVec.ofNat 64 c.peers))
        let g := s.upd.g + 1
        let s := { s with upd := { s.upd with g := g } }
        let s := upClose s job (fun c => { c with phase := .walking, g := g, freeze := s.upd.freeze })
        zeroCloseRows s
      else s)

/-! ### One slot (R326 to R330) -/

/-- Where the parts of a slot lie: (virtual address, bytes) of the staging row, table row, master row and state record. -/
structure SlotVa where
  key    : Nat
  stage  : Nat × Nat
  row    : Nat × Nat
  master : Option (Nat × Nat)
  state  : Option (Nat × Nat)
deriving DecidableEq, Repr

def slotVa (t : TableEntry) (e : UpdEntry) (c : Coef) (x i : Nat) : SlotVa :=
  { key := e.keysVa + 8 * x
    stage := (e.stageVa + x * e.stageStride t.elems, e.stageStride t.elems)
    row := (t.rowVa i, t.stride)
    master := if e.masterVa = 0 then none else some (e.masterVa + 4 * t.elems * i, 4 * t.elems)
    state := if c.keeps then some (e.stateVa + c.stateStride t.elems * i, c.stateStride t.elems) else none }

/-- Words of local pieces, and the errors their reads count. -/
def spanData (s : State) (l : List Span) : List PWord := l.flatMap (fun x => s.dramWords (paOff x.pa / 8) (x.n / 8))
def spanTouch (l : List Span) (s : State) : State := forL l (fun x s => dramTouch s (paOff x.pa) x.n) s

/-- ZERO on the staging row, then SWAP of 0 into the key (R327). -/
def freeSlot (o : Owner) (stage : List Span) (keyVa key : Nat) (s : State) : State :=
  let s := forL stage (fun x s =>
    forN (ceilDiv x.n 4096) (fun k s =>
      (adderAt o (x.va + 4096 * k) (adderOp opZero 0x0 0x0 (min 4096 (x.n - 4096 * k)) (paOff x.pa + 4096 * k) 0) [] s).1) s) s
  (adderAt o keyVa (adderOp opSwap 0xC 0xC 32 key 0) [.good 0] s).1

/-- A slot that cannot be worked on: its tile waits, or the job ends. -/
def slotStop (s : State) (o : Owner) (h : Nat) : GradEnd → State
  | .wait k p => waitTile s o (some (uUpdate h)) none h k p
  | .fail st => failJob s o st
  | .privet pa => privetFail s o pa
  | .busy l => raiseLines s o.lc l
  | _ => s

/-- The slot is done: the engine goes on to the next place of its list. -/
def nextSlot (job h vi pos : Nat) (s : State) : State :=
  upClose s job (fun c => { c with doneAt := Tbl.set (0, 0) c.doneAt h (vi, pos + 1) })

/-- Write the new words of a range. -/
def putVa (u : Nat) (o : Owner) (va : Nat) (l : List PWord) (s : State) : State := writeVa s u o va l

/-- R330: the row, its master and its state become poison whole. -/
def poisonSlot (o : Owner) (h : Nat) (a : SlotVa) (rowPa : Nat) (s : State) : State :=
  let bad := fun (r : Nat × Nat) (s : State) => putVa (uUpdate h) o r.1 (List.replicate (r.2 / 8) PWord.bad) s
  let s := forL (a.state.toList ++ a.master.toList ++ [a.row]) bad s
  let s := upHedge s h (fun x => { x with up := { x.up with poisonedRows := x.up.poisonedRows + 1 } })
  uePoison s unitUpdate h 0xFFFF (BitVec.ofNat 64 rowPa)

/-- The recurrence for a slot whose words are good, and its writes in the order of R327. -/
def applySlot (o : Owner) (h : Nat) (c : Close) (key : Nat) (a : SlotVa) (stage row master state : List Word) (s : State) :
    State :=
  let v := s.slot key
  let t := v.entry
  let e := v.upd.getD {}
  let k := s.coef e.group
  let cb := (s.cbStored t.codebookId).getD {}
  let old := rowFp32 t cb.view (row.drop 1)
  let r := k.readState t.elems state (if a.master.isSome then (f32s master).take t.elems else old)
  let n := k.update c.g (s.eta e.group) (e.sums stage t.elems) r
  let u := uUpdate h
  let s := match a.state with
    | some x => putVa u o x.1 ((k.stateWords n).map .good) s
    | none => s
  let s := match a.master with
    | some x => putVa u o x.1 ((pack32 n.w).map .good) s
    | none => s
  let s := putVa u o a.row.1 ((newRow t cb c.stamp.toNat row n.w).map .good) s
  let bad := n.w.countP (storesNonfinite t.format)
  let s := upHedge s h (fun x => { x with up := { x.up with
    rowsUpdated := x.up.rowsUpdated + 1, lastCloseRows := x.up.lastCloseRows + 1, nonfinite := x.up.nonfinite + bad } })
  let enc := if isCb t.format then t.elems else 0
  let clip := if isCb t.format then n.w.countP cb.clips else 0
  upClose s c.job (fun c => { c with
    rows := Tbl.upd 0 c.rows h (· + 1)
    totals := Tbl.upd 0 c.totals h (· + enc)
    clips := Tbl.upd 0 c.clips h (· + clip) })

/-- Slot x of a version, named by place `pos` of hedge h's list. -/
def closeSlot (o : Owner) (h : Nat) (bad : Option Nat) (c : Close) (vi key pos x : Nat) (s : State) : State :=
  let v := s.slot key
  let t := v.entry
  let e := v.upd.getD {}
  let u := uUpdate h
  let a0 := slotVa t e (s.coef e.group) x 0
  let done := nextSlot c.job h vi pos
  let at_ := fun (r : Nat × Nat) (s : State) => spans s u o.cid r.1 r.2 true
  let stageOnly := fun (f : List Span → State → State) (s : State) =>
    match partsStop s u o.cid [(a0.key, 8), a0.stage] with
    | some z => slotStop s o h z
    | none => done (f (at_ a0.stage s) s)
  let s := walkPages s u o.cid [(a0.key, 8, true), (a0.stage.1, a0.stage.2, true)]
  match wordOff s u o.cid a0.key with
  | none => slotStop s o h ((partsStop s u o.cid [(a0.key, 8), a0.stage]).getD (.fail stBadDescriptor))
  | some keyAt =>
    if c.freeze.getLsbD e.group then
      stageOnly (fun stage s => upHedge (freeSlot o stage a0.key keyAt s) h (fun y => { y with up := { y.up with
        frozenSkipped := y.up.frozenSkipped + 1 } })) s
    else
      let kw := s.dramWord (keyAt / 8)
      let i := kw.data.toNat - 1
      if kw.poison then failJob (dramTouch s keyAt 8) o stPoisoned
      else if kw.data = 0 ∨ t.rowCount ≤ i then
        stageOnly (fun stage s => freeSlot o stage a0.key keyAt (dramTouch s keyAt 8)) s
      else
        let a := slotVa t e (s.coef e.group) x i
        let parts := a.stage :: a.row :: (a.master.toList ++ a.state.toList)
        let s := walkPages s u o.cid (parts.map (fun p => (p.1, p.2, true)))
        match partsStop s u o.cid ((a.key, 8) :: parts) with
        | some z => slotStop s o h z
        | none =>
          let s := dramTouch s keyAt 8
          let stage := at_ a.stage s
          let row := at_ a.row s
          let master := a.master.toList.flatMap (fun r => at_ r s)
          let state := a.state.toList.flatMap (fun r => at_ r s)
          let all := stage ++ row ++ master ++ state
          let rowPa := ((row.map (·.pa)).headD 0)
          if anyPoison (spanData s all) then
            done (freeSlot o stage a.key keyAt (poisonSlot o h a rowPa (spanTouch all s)))
          else
            let s := if isCb t.format then dramTouch s (codebookAt t.codebookId) 288 else s
            if isCb t.format && (s.cbStored t.codebookId).isNone then failJob s o stPoisoned
            else
            match bad with
            | some lane => arithFault s o unitUpdate h lane (BitVec.ofNat 64 rowPa)
            | none =>
              let w := fun (l : List Span) => pdata (spanData s l)
              done (freeSlot o stage a.key keyAt
                (applySlot o h c key a (w stage) (w row) (w master) (w state) (spanTouch all s)))

/-- The count words of hedge h in the closed versions. -/
def Close.counts (s : State) (c : Close) (h : Nat) : List Nat :=
  c.versions.map (fun key => ((s.slot key).upd.getD {}).countVa + 8 * h)

/-- Step 6 for one engine: 0 into count h of each closed version. -/
def engineDone (o : Owner) (h : Nat) (c : Close) (s : State) : State :=
  let s := forL (c.counts s h) (fun va s => putVa (uUpdate h) o va [.good 0] s) s
  upClose s c.job (fun c => { c with engines := c.engines ++ [h] })

/-- The next slot of hedge h from version vi and place pos on: the version's place, its key, the place and the slot; none at
the end of the last list; or what stops the engine. -/
def nextPlace (s : State) (o : Owner) (h : Nat) (c : Close) : Nat → Nat → Nat → Except GradEnd (Option (Nat × Nat × Nat × Nat))
  | 0, _, _ => .ok none
  | fuel + 1, vi, pos =>
    match c.versions[vi]? with
    | none => .ok none
    | some key =>
      let e := (s.slot key).upd.getD {}
      let u := uUpdate h
      match localWord s u o.cid (e.countVa + 8 * h) with
      | .error z => .error z
      | .ok at_ =>
        let n := s.dramWord (at_ / 8)
        if n.poison then .error (.fail stPoisoned)
        else if n.data.toNat ≤ pos then nextPlace s o h c fuel (vi + 1) 0
        else
          match localWord s u o.cid (e.listVa + 8 * (h * e.nslots + pos)) with
          | .error z => .error z
          | .ok off =>
            let x := s.dramWord (off / 8)
            if x.poison then .error (.fail stPoisoned) else .ok (some (vi, key, pos, x.data.toNat))

/-- R326, steps 5 and 6: hedge h's update engine works on the next slot of its lists, or ends its part of the close.
`bad` says that its arithmetic mismatched (R399). -/
def execUpdateEngineSlot (h : HedgeId) (bad : Option Nat) (s : State) : Out :=
  .next (whenPowered s fun s =>
    let h := h.val
    match s.upd.closes.find? (fun c => c.phase == .walking && !c.engines.contains h) with
    | none => s
    | some c =>
      match s.job c.job with
      | none => s
      | some j =>
        let o := ownerOf j c.idx
        if s.tileWaits o (some (uUpdate h)) none then s
        else
          let p := Tbl.get (0, 0) c.doneAt h
          match nextPlace s o h c (c.versions.length + 1) p.1 p.2 with
          | .error z => slotStop s o h z
          | .ok none =>
            match partsStop s (uUpdate h) o.cid ((c.counts s h).map (fun va => (va, 8))) with
            | some z => slotStop s o h z
            | none => engineDone o h c s
          | .ok (some (vi, key, pos, x)) => closeSlot o h bad c vi key pos x s)

/-! ### The end of a close (R326, R329, R332) -/

/-- R326, step 7: the clip counts, the held traffic, the response. -/
def execStepCloseFinish (job : Nat) (s : State) : Out :=
  .next (whenFw s fun s =>
    match s.closeOf job, s.job job with
    | some c, some j =>
      if c.phase = .walking ∧ (List.range 12).all (fun h => c.engines.contains h) then
        let s := forN 12 (fun h s =>
          let s := upCore s c.clipCore (fun k => k.clipAdd c.clipSlot (Tbl.get 0 c.totals h) (Tbl.get 0 c.clips h))
          upHedge s h (fun x => { x with up := { x.up with closes := x.up.closes + 1 } })) s
        let s := { s with upd := { s.upd with closes := s.upd.closes.filter (fun x => x.job != job) } }
        let rows := ((List.range 12).map (fun h => Tbl.get 0 c.rows h)).sum
        let s := emit s (.stepClosed j.fn c.g rows s.tickerW s.timeWord)
        cmdMark (runGrads s) (ownerOf j c.idx) .done
      else s
    | _, _ => s)

end Sys2Proof.Machine
end

