-- ==== Sys2Proof/Machine/Dispatch.lean ====
section
/-!
DEFINITION. The dispatcher: each command goes to its meaning.
-/
namespace Sys2Proof.Machine

def exec (i : Instr) (s : State) : Host.Outcome State Fault Refusal :=
  match i with
  | .pwrEnRise inputCv lowMs => Sys2Proof.Machine.execPwrEnRise inputCv lowMs s
  | .powerGood => Sys2Proof.Machine.execPowerGood s
  | .pwrEnFall => Sys2Proof.Machine.execPwrEnFall s
  | .inputUnderVoltage => Sys2Proof.Machine.execInputUnderVoltage s
  | .inputOverVoltage => Sys2Proof.Machine.execInputOverVoltage s
  | .junctionTrip => Sys2Proof.Machine.execJunctionTrip s
  | .stackTrip => Sys2Proof.Machine.execStackTrip s
  | .railFault => Sys2Proof.Machine.execRailFault s
  | .bootRomRun => Sys2Proof.Machine.execBootRomRun s
  | .recoveryImage image => Sys2Proof.Machine.execRecoveryImage image s
  | .bringupRecords => Sys2Proof.Machine.execBringupRecords s
  | .laneRepair failing => Sys2Proof.Machine.execLaneRepair failing s
  | .retentionProbe clean tstack => Sys2Proof.Machine.execRetentionProbe clean tstack s
  | .dramZero => Sys2Proof.Machine.execDramZero s
  | .bringupStructures => Sys2Proof.Machine.execBringupStructures s
  | .ready => Sys2Proof.Machine.execReady s
  | .bringupReportRead => Sys2Proof.Machine.execBringupReportRead s
  | .fabricConfigWrite record => Sys2Proof.Machine.execFabricConfigWrite record s
  | .firmwareDataPieceRead piece => Sys2Proof.Machine.execFirmwareDataPieceRead piece s
  | .referenceLoss => Sys2Proof.Machine.execReferenceLoss s
  | .poweredTimeRecord => Sys2Proof.Machine.execPoweredTimeRecord s
  | .stepRateWindow steps => Sys2Proof.Machine.execStepRateWindow steps s
  | .snowploughWindow r => Sys2Proof.Machine.execSnowploughWindow r s
  | .powerStageLimit => Sys2Proof.Machine.execPowerStageLimit s
  | .powerStageThermalHold tstack tj => Sys2Proof.Machine.execPowerStageThermalHold tstack tj s
  | .junctionThermalEvent h temp => Sys2Proof.Machine.execJunctionThermalEvent h temp s
  | .stackTempSample temps => Sys2Proof.Machine.execStackTempSample temps s
  | .stackThermalEvent stack temp => Sys2Proof.Machine.execStackThermalEvent stack temp s
  | .refreshWindow c => Sys2Proof.Machine.execRefreshWindow c s
  | .scrubLine c ca => Sys2Proof.Machine.execScrubLine c ca s
  | .channelRead c ca => Sys2Proof.Machine.execChannelRead c ca s
  | .channelWrite c ca => Sys2Proof.Machine.execChannelWrite c ca s
  | .adderAdd c ca bad => Sys2Proof.Machine.execAdderAdd c ca bad s
  | .adderAddFx c ca bad => Sys2Proof.Machine.execAdderAddFx c ca bad s
  | .adderFetchAdd c ca bad => Sys2Proof.Machine.execAdderFetchAdd c ca bad s
  | .adderSwap c ca => Sys2Proof.Machine.execAdderSwap c ca s
  | .adderCas c ca bad => Sys2Proof.Machine.execAdderCas c ca bad s
  | .adderZero c ca => Sys2Proof.Machine.execAdderZero c ca s
  | .adderPool c ca bad => Sys2Proof.Machine.execAdderPool c ca bad s
  | .hedgerowPacket flits => Sys2Proof.Machine.execHedgerowPacket flits s
  | .wardenConfigApply h => Sys2Proof.Machine.execWardenConfigApply h s
  | .sqTailWrite f q v => Sys2Proof.Machine.execSqTailWrite f q v s
  | .cqHeadWrite f c v => Sys2Proof.Machine.execCqHeadWrite f c v s
  | .eqHeadWrite f v => Sys2Proof.Machine.execEqHeadWrite f v s
  | .hqHeadWrite f v => Sys2Proof.Machine.execHqHeadWrite f v s
  | .fqHeadWrite f v => Sys2Proof.Machine.execFqHeadWrite f v s
  | .dbStatusRead f => Sys2Proof.Machine.execDbStatusRead f s
  | .mbStatusRead f => Sys2Proof.Machine.execMbStatusRead f s
  | .fqStatusRead f => Sys2Proof.Machine.execFqStatusRead f s
  | .hlErrRead => Sys2Proof.Machine.execHlErrRead s
  | .hlResetsRead => Sys2Proof.Machine.execHlResetsRead s
  | .hlHwinWrite v => Sys2Proof.Machine.execHlHwinWrite v s
  | .tbLowHalfRead f offset => Sys2Proof.Machine.execTbLowHalfRead f offset s
  | .fqResolveRelease f tag => Sys2Proof.Machine.execFqResolveRelease f tag s
  | .fqResolveFail f tag => Sys2Proof.Machine.execFqResolveFail f tag s
  | .mbRelease f k => Sys2Proof.Machine.execMbRelease f k s
  | .bar0BadAccess f isRead why => Sys2Proof.Machine.execBar0BadAccess f isRead why s
  | .registerWriteOther f offset eight v => Sys2Proof.Machine.execRegisterWriteOther f offset eight v s
  | .negotiate f k => Sys2Proof.Machine.execNegotiate f k s
  | .getCaps f k => Sys2Proof.Machine.execGetCaps f k s
  | .modelLoad f k image => Sys2Proof.Machine.execModelLoad f k image s
  | .modelUnload f k => Sys2Proof.Machine.execModelUnload f k s
  | .tableMap f k runs tier => Sys2Proof.Machine.execTableMap f k runs tier s
  | .tableSwap f k => Sys2Proof.Machine.execTableSwap f k s
  | .tableSwapApply => Sys2Proof.Machine.execTableSwapApply s
  | .retirement table vslot => Sys2Proof.Machine.execRetirement table vslot s
  | .routineLoad f k piece => Sys2Proof.Machine.execRoutineLoad f k piece s
  | .routineLoadApply piece => Sys2Proof.Machine.execRoutineLoadApply piece s
  | .routineCommit f k => Sys2Proof.Machine.execRoutineCommit f k s
  | .queueCreate f k => Sys2Proof.Machine.execQueueCreate f k s
  | .queueDestroy f k => Sys2Proof.Machine.execQueueDestroy f k s
  | .fenceCore f k => Sys2Proof.Machine.execFenceCore f k s
  | .unfence f k => Sys2Proof.Machine.execUnfence f k s
  | .resetJobs f k => Sys2Proof.Machine.execResetJobs f k s
  | .verificationSweep => Sys2Proof.Machine.execVerificationSweep s
  | .setModeDeterminism f k => Sys2Proof.Machine.execSetModeDeterminism f k s
  | .setModeChannelLock f k => Sys2Proof.Machine.execSetModeChannelLock f k s
  | .setModeScrub f k => Sys2Proof.Machine.execSetModeScrub f k s
  | .setModeCounterPolicy f k => Sys2Proof.Machine.execSetModeCounterPolicy f k s
  | .setModeFreezeMask f k => Sys2Proof.Machine.execSetModeFreezeMask f k s
  | .setPowerCap f k => Sys2Proof.Machine.execSetPowerCap f k s
  | .setGroomPolicy f k => Sys2Proof.Machine.execSetGroomPolicy f k s
  | .migrate f k => Sys2Proof.Machine.execMigrate f k s
  | .migratePage source => Sys2Proof.Machine.execMigratePage source s
  | .timeSync f k => Sys2Proof.Machine.execTimeSync f k s
  | .telemetryRead f k => Sys2Proof.Machine.execTelemetryRead f k s
  | .attest f k => Sys2Proof.Machine.execAttest f k s
  | .fwStage f k piece => Sys2Proof.Machine.execFwStage f k piece s
  | .fwActivate f k => Sys2Proof.Machine.execFwActivate f k s
  | .spdmGetVersion p msg => Sys2Proof.Machine.execSpdmGetVersion p msg s
  | .spdmGetCapabilities p msg => Sys2Proof.Machine.execSpdmGetCapabilities p msg s
  | .spdmNegotiateAlgorithms p msg => Sys2Proof.Machine.execSpdmNegotiateAlgorithms p msg s
  | .spdmGetDigests p msg => Sys2Proof.Machine.execSpdmGetDigests p msg s
  | .spdmGetCertificate p msg => Sys2Proof.Machine.execSpdmGetCertificate p msg s
  | .spdmChallenge p msg => Sys2Proof.Machine.execSpdmChallenge p msg s
  | .spdmGetMeasurements p index signed msg => Sys2Proof.Machine.execSpdmGetMeasurements p index signed msg s
  | .spdmKeyExchange p msg => Sys2Proof.Machine.execSpdmKeyExchange p msg s
  | .spdmFinish p msg => Sys2Proof.Machine.execSpdmFinish p msg s
  | .spdmEndSession p msg => Sys2Proof.Machine.execSpdmEndSession p msg s
  | .spdmHeartbeat p msg => Sys2Proof.Machine.execSpdmHeartbeat p msg s
  | .spdmChunkSend p last chunk => Sys2Proof.Machine.execSpdmChunkSend p last chunk s
  | .spdmChunkGet p index => Sys2Proof.Machine.execSpdmChunkGet p index s
  | .ideKm p stream enable msg => Sys2Proof.Machine.execIdeKm p stream enable msg s
  | .gondolaBurst => Sys2Proof.Machine.execGondolaBurst s
  | .gondolaBurstDone burst data failed => Sys2Proof.Machine.execGondolaBurstDone burst data failed s
  | .submissionParse => Sys2Proof.Machine.execSubmissionParse s
  | .call job idx => Sys2Proof.Machine.execCall job idx s
  | .sequencerCallStart c => Sys2Proof.Machine.execSequencerCallStart c s
  | .invocationComplete c => Sys2Proof.Machine.execInvocationComplete c s
  | .barrier job idx => Sys2Proof.Machine.execBarrier job idx s
  | .schuss job idx => Sys2Proof.Machine.execSchuss job idx s
  | .copy job idx ext => Sys2Proof.Machine.execCopy job idx ext s
  | .rowWrite job idx ext => Sys2Proof.Machine.execRowWrite job idx ext s
  | .stepClose job idx => Sys2Proof.Machine.execStepClose job idx s
  | .stepCloseArrivalsMet job => Sys2Proof.Machine.execStepCloseArrivalsMet job s
  | .updateEngineSlot h bad => Sys2Proof.Machine.execUpdateEngineSlot h bad s
  | .stepCloseFinish job => Sys2Proof.Machine.execStepCloseFinish job s
  | .jobCompletion job => Sys2Proof.Machine.execJobCompletion job s
  | .seqNop c => Sys2Proof.Machine.execSeqNop c s
  | .seqRet c => Sys2Proof.Machine.execSeqRet c s
  | .seqLoop c => Sys2Proof.Machine.execSeqLoop c s
  | .seqLoopr c => Sys2Proof.Machine.execSeqLoopr c s
  | .seqWait c => Sys2Proof.Machine.execSeqWait c s
  | .waitConditionMet c => Sys2Proof.Machine.execWaitConditionMet c s
  | .seqMovi c => Sys2Proof.Machine.execSeqMovi c s
  | .seqMovhi c => Sys2Proof.Machine.execSeqMovhi c s
  | .seqMov c => Sys2Proof.Machine.execSeqMov c s
  | .seqAdd c bad => Sys2Proof.Machine.execSeqAdd c bad s
  | .seqSub c bad => Sys2Proof.Machine.execSeqSub c bad s
  | .seqMul c bad => Sys2Proof.Machine.execSeqMul c bad s
  | .seqAnd c bad => Sys2Proof.Machine.execSeqAnd c bad s
  | .seqOr c bad => Sys2Proof.Machine.execSeqOr c bad s
  | .seqXor c bad => Sys2Proof.Machine.execSeqXor c bad s
  | .seqShl c bad => Sys2Proof.Machine.execSeqShl c bad s
  | .seqShr c bad => Sys2Proof.Machine.execSeqShr c bad s
  | .seqSra c bad => Sys2Proof.Machine.execSeqSra c bad s
  | .seqMin c => Sys2Proof.Machine.execSeqMin c s
  | .seqMax c => Sys2Proof.Machine.execSeqMax c s
  | .seqAddi c bad => Sys2Proof.Machine.execSeqAddi c bad s
  | .seqMuli c bad => Sys2Proof.Machine.execSeqMuli c bad s
  | .seqMadi c bad => Sys2Proof.Machine.execSeqMadi c bad s
  | .seqShli c bad => Sys2Proof.Machine.execSeqShli c bad s
  | .seqShri c bad => Sys2Proof.Machine.execSeqShri c bad s
  | .seqAndi c bad => Sys2Proof.Machine.execSeqAndi c bad s
  | .seqStore c => Sys2Proof.Machine.execSeqStore c s
  | .seqPatch c => Sys2Proof.Machine.execSeqPatch c s
  | .seqCopyd c => Sys2Proof.Machine.execSeqCopyd c s
  | .seqZero c => Sys2Proof.Machine.execSeqZero c s
  | .issueArray c => Sys2Proof.Machine.execIssueArray c s
  | .issueVector c => Sys2Proof.Machine.execIssueVector c s
  | .issueLookup c => Sys2Proof.Machine.execIssueLookup c s
  | .issueMove c => Sys2Proof.Machine.execIssueMove c s
  | .issueScatter c => Sys2Proof.Machine.execIssueScatter c s
  | .issueCapture c => Sys2Proof.Machine.execIssueCapture c s
  | .cbFetch c => Sys2Proof.Machine.execCbFetch c s
  | .clipRc c => Sys2Proof.Machine.execClipRc c s
  | .arrayDescriptor c bad => Sys2Proof.Machine.execArrayDescriptor c bad s
  | .arrayOtherAxisRead c bad => Sys2Proof.Machine.execArrayOtherAxisRead c bad s
  | .vecAdd c bad => Sys2Proof.Machine.execVecAdd c bad s
  | .vecSub c bad => Sys2Proof.Machine.execVecSub c bad s
  | .vecMul c bad => Sys2Proof.Machine.execVecMul c bad s
  | .vecAxpy c bad => Sys2Proof.Machine.execVecAxpy c bad s
  | .vecMax c => Sys2Proof.Machine.execVecMax c s
  | .vecMin c => Sys2Proof.Machine.execVecMin c s
  | .vecAbs c bad => Sys2Proof.Machine.execVecAbs c bad s
  | .vecNeg c bad => Sys2Proof.Machine.execVecNeg c bad s
  | .vecRelu c => Sys2Proof.Machine.execVecRelu c s
  | .vecClamp c => Sys2Proof.Machine.execVecClamp c s
  | .vecRecip c bad => Sys2Proof.Machine.execVecRecip c bad s
  | .vecCmpEq c => Sys2Proof.Machine.execVecCmpEq c s
  | .vecCmpNe c => Sys2Proof.Machine.execVecCmpNe c s
  | .vecCmpLt c => Sys2Proof.Machine.execVecCmpLt c s
  | .vecCmpLe c => Sys2Proof.Machine.execVecCmpLe c s
  | .vecSelect c => Sys2Proof.Machine.execVecSelect c s
  | .vecExp c bad => Sys2Proof.Machine.execVecExp c bad s
  | .vecLog c bad => Sys2Proof.Machine.execVecLog c bad s
  | .vecSigmoid c bad => Sys2Proof.Machine.execVecSigmoid c bad s
  | .vecTanh c bad => Sys2Proof.Machine.execVecTanh c bad s
  | .vecRsqrt c bad => Sys2Proof.Machine.execVecRsqrt c bad s
  | .vecRsum c bad => Sys2Proof.Machine.execVecRsum c bad s
  | .vecRmax c => Sys2Proof.Machine.execVecRmax c s
  | .vecRmin c => Sys2Proof.Machine.execVecRmin c s
  | .vecConvert c bad => Sys2Proof.Machine.execVecConvert c bad s
  | .vecQuant c bad => Sys2Proof.Machine.execVecQuant c bad s
  | .vecCompress c => Sys2Proof.Machine.execVecCompress c s
  | .vecExpand c => Sys2Proof.Machine.execVecExpand c s
  | .vecTopk c => Sys2Proof.Machine.execVecTopk c s
  | .lookupDescriptor c ext => Sys2Proof.Machine.execLookupDescriptor c ext s
  | .gatherPiece piece => Sys2Proof.Machine.execGatherPiece piece s
  | .hedgePartial piece bad => Sys2Proof.Machine.execHedgePartial piece bad s
  | .bagFinish bag bad => Sys2Proof.Machine.execBagFinish bag bad s
  | .runAheadRead e bag row => Sys2Proof.Machine.execRunAheadRead e bag row s
  | .thicketFill h fill => Sys2Proof.Machine.execThicketFill h fill s
  | .tailRowFetch bag => Sys2Proof.Machine.execTailRowFetch bag s
  | .tailRowArrival bag pos => Sys2Proof.Machine.execTailRowArrival bag pos s
  | .moveDescriptor c ext => Sys2Proof.Machine.execMoveDescriptor c ext s
  | .moveComplete c => Sys2Proof.Machine.execMoveComplete c s
  | .scatterDescriptor c => Sys2Proof.Machine.execScatterDescriptor c s
  | .scatterComplete c => Sys2Proof.Machine.execScatterComplete c s
  | .pageWalk u cid va bad => Sys2Proof.Machine.execPageWalk u cid va bad s
  | .faultEntryPost => Sys2Proof.Machine.execFaultEntryPost s
  | .tileResume tile => Sys2Proof.Machine.execTileResume tile s
  | .counterEpoch => Sys2Proof.Machine.execCounterEpoch s
  | .liveRegionSave c => Sys2Proof.Machine.execLiveRegionSave c s
  | .liveRegionRestore c => Sys2Proof.Machine.execLiveRegionRestore c s
  | .groomerTest diff named bad => Sys2Proof.Machine.execGroomerTest diff named bad s
  | .groomerArbitrate c verdict bad => Sys2Proof.Machine.execGroomerArbitrate c verdict bad s
  | .groomerArbiterTimeout => Sys2Proof.Machine.execGroomerArbiterTimeout s
  | .eventPost => Sys2Proof.Machine.execEventPost s
  | .canarySample canary r => Sys2Proof.Machine.execCanarySample canary r s
  | .hourlyPoint r => Sys2Proof.Machine.execHourlyPoint r s
  | .portDown p => Sys2Proof.Machine.execPortDown p s
  | .portUp p => Sys2Proof.Machine.execPortUp p s
  | .laneaRead port m => Sys2Proof.Machine.execLaneaRead port m s
  | .laneaWrite port m => Sys2Proof.Machine.execLaneaWrite port m s
  | .laneaAddAddress port m => Sys2Proof.Machine.execLaneaAddAddress port m s
  | .laneaAddGradient port m => Sys2Proof.Machine.execLaneaAddGradient port m s
  | .gatherReq port m => Sys2Proof.Machine.execGatherReq port m s
  | .laneaResponse port m => Sys2Proof.Machine.execLaneaResponse port m s
  | .laneaCredit port m => Sys2Proof.Machine.execLaneaCredit port m s
  | .laneaAck port m => Sys2Proof.Machine.execLaneaAck port m s
  | .census port m => Sys2Proof.Machine.execCensus port m s
  | .censusSend peer => Sys2Proof.Machine.execCensusSend peer s
  | .censusAudit peer lc => Sys2Proof.Machine.execCensusAudit peer lc s
  | .laneaRetransmit peer lc psn => Sys2Proof.Machine.execLaneaRetransmit peer lc psn s
  | .peerUnreachable peer => Sys2Proof.Machine.execPeerUnreachable peer s
  | .ptpSyncSend => Sys2Proof.Machine.execPtpSyncSend s
  | .ptpSync offset trim => Sys2Proof.Machine.execPtpSync offset trim s
  | .ptpHoldover => Sys2Proof.Machine.execPtpHoldover s
  | .nvmeRead entry => Sys2Proof.Machine.execNvmeRead entry s
  | .nvmeWrite entry => Sys2Proof.Machine.execNvmeWrite entry s
  | .nvmeCompletion entry tag r => Sys2Proof.Machine.execNvmeCompletion entry tag r s
  | .nvmeCommandTimeout entry tag => Sys2Proof.Machine.execNvmeCommandTimeout entry tag s
  | .nvmeConnectionLost entry => Sys2Proof.Machine.execNvmeConnectionLost entry s
  | .nvmeReconnect entry up usable => Sys2Proof.Machine.execNvmeReconnect entry up usable s
  | .nvmeKeepAlive entry => Sys2Proof.Machine.execNvmeKeepAlive entry s
  | .vfFlr f => Sys2Proof.Machine.execVfFlr f s
  | .pfFlr => Sys2Proof.Machine.execPfFlr s
  | .hotReset r up => Sys2Proof.Machine.execHotReset r up s
  | .perstRelease up => Sys2Proof.Machine.execPerstRelease up s
  | .dmaBlockChange f cause => Sys2Proof.Machine.execDmaBlockChange f cause s
  | .ideIntegrityFail stream => Sys2Proof.Machine.execIdeIntegrityFail stream s
  | .atsInvalidation f tag => Sys2Proof.Machine.execAtsInvalidation f tag s
  | .msixUnmask f vector => Sys2Proof.Machine.execMsixUnmask f vector s
  | .hostReadCompletion read request offset kind data => Sys2Proof.Machine.execHostReadCompletion read request offset kind data s
  | .hostReadTimeout read request => Sys2Proof.Machine.execHostReadTimeout read request s
  | .pauseFrame p => Sys2Proof.Machine.execPauseFrame p s
  | .frameCheckFailure p why => Sys2Proof.Machine.execFrameCheckFailure p why s
  | .ptpDelayReq slave rxTime => Sys2Proof.Machine.execPtpDelayReq slave rxTime s
  | .reservedAdminOpcode f k => Sys2Proof.Machine.execReservedAdminOpcode f k s
  | .ulizorSramUncorrectable u => Sys2Proof.Machine.execUlizorSramUncorrectable u s
  | .doeDiscovery index => Sys2Proof.Machine.execDoeDiscovery index s

end Sys2Proof.Machine
end

