-- ==== Sys2Proof/Safety.lean ====
section
/-!
DEFINITION. What the claims call a good state, and the parts of a state that the claims about frames speak of.
-/
namespace Sys2Proof.Machine

/-- Local DRAM is in its canonical form: addresses strictly rising, no entry equal to what an unlisted one reads. -/
def State.dramWf (s : State) : Prop := s.dram.wf = true

/-- The state without what has gone out of the module, the host link and the event queue: what raising an event may not
change, but for the event sequence. -/
def State.still (s : State) : State :=
  { s with out := [], link := {}, eq := none, evHeld := [], evSeq := 0, eqDropped := 0 }

/-- The state without what the end of jobs and the raising of events change: jobs, their scheduling record, their work in the
units and their payloads in the descriptor buffer, the counts of contexts, the integrity counts, the mark that FAULTED leaves on a MIGRATE (R169), and what `State.still` leaves
out. -/
def State.base (s : State) : State :=
  { s.still with
    loose := [], jobs := [], sched := {}, ig := {}, cores := [], bags := [], pieces := [], lookups := [], xl := {}, upd := {},
    ctxRec := [], dbuf := s.still.dbuf.filter (fun e => e.kept.isNone),
    migrates := s.still.migrates.map (fun m => { m with faulted := false }) }

/-- The command with opcode `op` posted in slot k of function f may start, and meets no refusal before its own checks
(R483, R484, R487, R491, R629). -/
def State.starts (s : State) (f : FnId) (k : SlotId) (op : Nat) : Prop :=
  s.fwRuns = true ∧ (s.mail (mailKey f k)).open_ = true ∧ (s.mail (mailKey f k)).started = false ∧
  (s.mail (mailKey f k)).opcode.toNat = op ∧ s.turn (mailKey f k) = true ∧
  s.refusal f (s.mail (mailKey f k)) false = none ∧ s.waitsReady (s.mail (mailKey f k)) = false

/-- The state in which that command executes. -/
def State.begun (s : State) (f : FnId) (k : SlotId) : State :=
  upMail (upMail s (mailKey f k) (fun m => { m with state := 2 })) (mailKey f k) (fun m => { m with started := true })

/-- The same, once the command has read host memory: a read that fails counts in RX_FAILED. -/
def State.begunRead (s : State) (f : FnId) (k : SlotId) (ok : Bool) : State :=
  if ok then s.begun f k else rxFailed (s.begun f k)

/-- The state that a started command leaves while its function's DMA is blocked (R521): it starts over. -/
def State.begunWaits (s : State) (f : FnId) (k : SlotId) : State :=
  upMail (s.begun f k) (mailKey f k) (fun m => { m with started := false })

/-- Core c's sequencer stands at the op word `w` of the invocation `v`, fetched without error, and its condition holds
(R276, R285). -/
def State.atOp (s : State) (c : CoreId) (v : Invocation) (w : Word) : Prop :=
  s.powered = true ∧ s.running c = some v ∧ Tbl.get 0 s.routines.words (32768 * v.bank + v.pc) = w ∧
  Tbl.get 0 (s.core c).storeSyn (32768 * v.bank + v.pc) = 0 ∧ v.holds w = true

/-- Core c after an op has been counted, with the invocation `v`. -/
def Core.ran (k : Core) (v : Invocation) : Core := { k with seq := some v, sq := { k.sq with ops := k.sq.ops + 1 } }

end Sys2Proof.Machine
end

