-- ==== Sys2Proof/Certificates/Slice0/Obligations.lean ====
section
/-!
DEFINITION. The statements for the provers.  Each docstring cites the rules it rests on.  A statement whose conclusion is
`exec c s = .next t` with `t` written out states the command's result, its frame and that it completes.
-/
open Sys2Proof Sys2Proof.Machine

/-- A step takes the command at the front of the queue and runs it with the queue's rest. -/
def Obligations.StepRunsFront : Prop :=
  ∀ (s : State) (c : Instr) (rest : List Instr),
    step { s with pending := c :: rest } = exec c { s with pending := rest }

/-- R613, R614 and what stands in no memory: right after reset the module is off, no command waits, and local DRAM is in its
canonical form. -/
def Obligations.ResetState : Prop :=
  State.reset.powered = false ∧ State.reset.pwr.phase = .off ∧ State.reset.pending = [] ∧ State.reset.dramWf ∧
  State.reset.jobs = [] ∧ State.reset.model = false ∧ State.reset.sched.state = .admitting ∧ State.reset.ticker = 0

/-- R45: the Ticker reads 0 at power-good; no command steps, sets or resets it while the module stays powered; a reference cycle
advances it, never backwards and by at most 11 units of 2^32, and from a reference loss on it holds its value. -/
def Obligations.TickerNeverStepped : Prop :=
  (∀ s : State, s.pwr.phase = .ramping → ∃ t, exec .powerGood s = .next t ∧ t.ticker = 0) ∧
  (∀ (s t : State) (c : Instr), s.powered = true → t.powered = true → exec c s = .next t → t.time.acc = s.time.acc) ∧
  (∀ s : State, s.powered = true → s.time.refLoss = false → -25000 ≤ s.time.rateTrim.toInt →
    s.time.rateTrim.toInt ≤ 25000 → s.time.acc.toNat < 2 ^ 96 - 2 ^ 36 →
    s.time.acc.toNat < (tick s).time.acc.toNat ∧ (tick s).time.acc.toNat ≤ s.time.acc.toNat + 11 * 2 ^ 32) ∧
  (∀ s : State, s.time.refLoss = true → tick s = s)

/-- R46, R47, and log entries 1 and 120 (that a step without a command is one reference cycle, in which each port has time for
one frame, is this model's choice): with no command waiting, a module powered and with its reference counts REFCYC and advances
its Ticker by the trimmed 10 ns, exactly 10 ns with no trim; nothing but the frames that wait at the ports moves besides; off
nothing changes, and after loss of the reference the time holds. -/
def Obligations.IdleStepIsACycle : Prop :=
  ∀ s : State, s.pending = [] →
    (s.powered = true → s.time.refLoss = false → ∃ t, step s = .next t ∧ t.time.refcyc = s.time.refcyc + 1 ∧
      t.time.acc = s.time.acc + s.increment ∧
      t = { s with time := t.time, out := t.out, fab := { s.fab with ports := t.fab.ports } } ∧
      (s.fab.ports = [] → t = { s with time := t.time }) ∧
      (s.time.rateTrim = 0 → t.ticker = (s.ticker + 10) % 2 ^ 64)) ∧
    (s.powered = false → step s = .next s) ∧
    (s.powered = true → s.time.refLoss = true → ∃ t, step s = .next t ∧
      t = { s with out := t.out, fab := { s.fab with ports := t.fab.ports } })

/-- Every step keeps local DRAM in its canonical form: equal memories are equal data. -/
def Obligations.StepKeepsDram : Prop :=
  ∀ s t : State, s.dramWf → step s = .next t → t.dramWf

/-- No command changes the queue of the commands that wait behind it. -/
def Obligations.ExecKeepsQueue : Prop :=
  ∀ (c : Instr) (s t : State), exec c s = .next t → t.pending = s.pending

/-- Every command whose operands can be formed completes in every state; one that no sender can form is refused by the operand
check under its own name, and by nothing else (log entry 2). -/
def Obligations.EveryCommandCompletes : Prop :=
  ∀ (c : Instr) (s : State), (c.wf = true → ∃ t, exec c s = .next t) ∧
    (c.wf = false → ∃ name, exec c s = .fault (.illFormed name))

/-- R610, R613, R614: a module without power keeps nothing alive: no command but those of the power stage changes anything. -/
def Obligations.OffIsInert : Prop :=
  ∀ (c : Instr) (s : State), s.powered = false → c.wf = true →
    (∀ cv low, c ≠ .pwrEnRise cv low) → c ∉ ([.powerGood, .pwrEnFall, .inputUnderVoltage, .inputOverVoltage, .junctionTrip,
      .stackTrip, .railFault] : List Instr) → exec c s = .next s

/-- R570, R4, R5, R510, R46: no step lowers the security version number, none changes the grade, the fused cores or the serial
number, and none takes the rate trim out of ±25 ppm. -/
def Obligations.FusesAndTrimHold : Prop :=
  ∀ s t : State, step s = .next t → s.flash.svn ≤ t.flash.svn ∧ t.flash.grade = s.flash.grade ∧
    t.flash.fused = s.flash.fused ∧ t.flash.serial = s.flash.serial ∧
    (-25000 ≤ s.time.rateTrim.toInt ∧ s.time.rateTrim.toInt ≤ 25000 →
      -25000 ≤ t.time.rateTrim.toInt ∧ t.time.rateTrim.toInt ≤ 25000)

/-- R373: what a unit makes of the syndrome of a word it reads. R372: the syndrome of a word is what its data bits give,
exclusive-ORed with the check byte stored; any single error reads as the word that was stored, and any double error and any
single error on the poison word read as poison. -/
def Obligations.ErrorCode : Prop :=
  (∀ (m : Mem) (i : Nat),
     (m.syndrome i = 0 → m.word i = .good (m.raw i)) ∧
     (∀ k, k < 64 → m.syndrome i = dataColumns.getD k 0 → m.word i = .good (m.raw i ^^^ (1#64 <<< k))) ∧
     (∀ k, k < 8 → m.syndrome i = checkColumns.getD k 0 → m.word i = .good (m.raw i)) ∧
     (m.syndrome i = 0xFE → m.word i = .bad ∧ synBad (m.syndrome i) = false) ∧
     (m.syndrome i ≠ 0 → m.syndrome i ≠ 0xFE → m.syndrome i ∉ dataColumns → m.syndrome i ∉ checkColumns →
       m.word i = .bad ∧ synBad (m.syndrome i) = true)) ∧
  ((∀ (w : Word) (i : Fin 64), readCode (w ^^^ (1#64 <<< i.val)) (checkByte (w ^^^ (1#64 <<< i.val)) ^^^ checkByte w) = .good w) ∧
   (∀ (w : Word) (i : Fin 8), readCode w (checkByte w ^^^ (checkByte w ^^^ (1#8 <<< i.val))) = .good w) ∧
   (∀ (w : Word) (i j : Fin 64), i ≠ j → readCode (w ^^^ (1#64 <<< i.val) ^^^ (1#64 <<< j.val))
     (checkByte (w ^^^ (1#64 <<< i.val) ^^^ (1#64 <<< j.val)) ^^^ checkByte w) = .bad) ∧
   (∀ (w : Word) (i : Fin 64) (j : Fin 8), readCode (w ^^^ (1#64 <<< i.val))
     (checkByte (w ^^^ (1#64 <<< i.val)) ^^^ (checkByte w ^^^ (1#8 <<< j.val))) = .bad) ∧
   (∀ (w : Word) (i j : Fin 8), i ≠ j → readCode w (checkByte w ^^^ (checkByte w ^^^ (1#8 <<< i.val) ^^^ (1#8 <<< j.val))) = .bad) ∧
   (∀ i : Fin 64, readCode (1#64 <<< i.val) (checkByte (1#64 <<< i.val) ^^^ 0xFE) = .bad) ∧
   (∀ i : Fin 8, readCode 0 (checkByte 0 ^^^ (0xFE ^^^ (1#8 <<< i.val))) = .bad))

/-- R610, R611, R614, R45, R47: the ramp, and power-good, which gives every register its reset value. R610, R615: the ramp does
not begin while the input is out of range or a trip is in force. -/
def Obligations.PowerUp : Prop :=
  ((∀ (s : State) (cv low : Nat), s.pwr.phase = .off → 4000 ≤ cv → cv ≤ 5000 →
     (s.pwr.tripLatched = false ∨ (s.pwr.pwrEn = false ∧ 10 ≤ low)) →
     exec (.pwrEnRise cv low) s = .next { s with pwr := { s.pwr with
       pwrEn := true, tripLatched := false, thermtripLow := false, phase := .ramping } }) ∧
   (∀ s : State, s.pwr.phase = .ramping →
     exec .powerGood s = .next { State.reset with
       pending := s.pending, freeCtr := s.freeCtr + 1, out := s.out, flash := s.flash, health := s.health.wake,
       dram := { lost := some s.freeCtr },
       pwr := { phase := .powered, pwrEn := true, pwrgd := true, lastOff := s.pwr.offRecord, offRecord := s.pwr.offRecord },
       time := { persistedS := s.flash.shownPowered.poweredS, powerUps := s.flash.shownPowered.powerUps + 1 } })) ∧
  (∀ (s : State) (cv low : Nat),
     (cv < 4000 ∨ 5000 < cv ∨ (s.pwr.tripLatched = true ∧ (s.pwr.pwrEn = true ∨ low < 10))) →
     ∃ t, exec (.pwrEnRise cv low) s = .next t ∧ t.pwr.phase = s.pwr.phase ∧ t.pwr.pwrEn = true ∧
       t = { s with pwr := t.pwr })

/-- R613, R615, R616: a power-down keeps flash and records its cause; a trip pulls THERMTRIP low until it is released. -/
def Obligations.PowerDown : Prop :=
  ∀ s : State, s.pwr.phase ≠ .off →
    (s.pwr.pwrEn = true → exec .pwrEnFall s = .next { State.reset with
      pending := s.pending, freeCtr := s.freeCtr, out := s.out, flash := s.flash, health := s.health,
      pwr := { offRecord := 0x01 } }) ∧
    (∀ c cause trip, (c, cause, trip) ∈ ([(.inputUnderVoltage, 0x02, false), (.inputOverVoltage, 0x03, false),
        (.junctionTrip, 0x04, true), (.stackTrip, 0x05, true), (.railFault, 0x06, true)] :
          List (Instr × BitVec 8 × Bool)) →
      exec c s = .next { State.reset with
        pending := s.pending, freeCtr := s.freeCtr, out := s.out, flash := s.flash, health := s.health,
        pwr := { pwrEn := s.pwr.pwrEn, offRecord := cause, thermtripLow := trip, tripLatched := trip } })

/-- R574 to R576, R575, R632, R535, R536: the ROM starts the active region where it verifies, else the other, else waits for a
recovery image; a recovery image is stored in region A and, where it verifies, started; a data piece that matches its digest
changes nothing; the report goes out as R632 lays it out; a fabric record is stored and applied, or waits while a model is
resident. -/
def Obligations.BootChain : Prop :=
  (∀ s : State, s.powered = true → s.sec.stage = .none → ∃ t, exec .bootRomRun s = .next t ∧
    t.sec.stage = (if imageOk (s.flash.region s.flash.boot.active) s.flash.svn ||
      imageOk (s.flash.region (!s.flash.boot.active)) s.flash.svn then .running else .recovery) ∧
    (if imageOk (s.flash.region s.flash.boot.active) s.flash.svn then
       t.sec.regionB = s.flash.boot.active ∧ t.sec.fallback = false
     else t.sec.stage = .running → t.sec.regionB = (!s.flash.boot.active) ∧ t.sec.fallback = true) ∧
    t = { s with sec := t.sec, link := { s.link with configReady := s.link.configReady || (t.sec.stage == .running) } }) ∧
  (∀ (s : State) (image : List Byte), s.powered = true → s.sec.stage = .recovery →
    ∃ t, exec (.recoveryImage image) s = .next t ∧ t.flash.regionA = image ∧ t.flash.svn = s.flash.svn ∧
      t = { s with flash := t.flash, sec := t.sec, link := t.link } ∧
      (if imageOk image s.flash.svn then t.sec.stage = .running ∧ t.sec.regionB = false
       else t = { s with flash := { s.flash with regionA := image } })) ∧
  (∀ (s : State) (piece : Nat), s.fwRuns = true → piece < imgPieces (s.flash.region s.sec.regionB) →
    (let r := s.flash.region s.sec.regionB
     ∃ t, exec (.firmwareDataPieceRead piece) s = .next t ∧
       (if Config.shake256 ((r.drop (64 + (imgLoad r + 65536 * piece))).take
           (min 65536 (imgBody r - (imgLoad r + 65536 * piece)))) =
           slice r (64 + imgLoad r - 64 * imgPieces r + 64 * piece) 64 then t = s
        else (∀ id, t.lives id = false) ∧ t.ig.jobFaults = s.ig.jobFaults + 1 ∧ t.base = s.base))) ∧
  (∀ s : State, s.fwRuns = true → s.bring.phase ≠ 0 →
    exec .bringupReportRead s = .next { s with out := s.out ++ [.mctp (wordsBytes
      [(s.bring.phase.zeroExtend 64 <<< 56) ||| (s.bring.stopCause.zeroExtend 64 <<< 48) |||
         (s.bring.stopChannel.zeroExtend 64 <<< 32) ||| regAt 31 16 s.bring.lanesChanged,
       s.bring.phaseTicker, s.timeWord, s.bring.readyTicker])] }) ∧
  (∀ (s : State) (record : List Byte), s.fwRuns = true → exec (.fabricConfigWrite record) s = .next
    (if recordOk s record then
      (if s.model then { s with flash := { s.flash with fabric := record, fabricPending := true } }
       else applyFabric { s with flash := { s.flash with fabric := record } })
     else s))

/-- R627 to R631, R40, R53, R73, R78, R79, R593, R59, R273: each phase of bring-up starts where the one before it has ended. -/
def Obligations.BringUp : Prop :=
  (∀ (s : State) (r : PoweredRec), s.fwRuns = true → s.bring.phase = 0 → s.flash.bestPowered = some r →
    ∃ t, exec .bringupRecords s = .next t ∧ t.bring.phase = 1 ∧ t.bring.phaseTicker = s.tickerW ∧
      t.bring.banksCleared = true ∧ t.time.persistedS = r.poweredS ∧
      t.time.powerUps = r.powerUps + 1 ∧ t.routines = {} ∧ s.flash.svn ≤ t.flash.svn ∧ t.dram = s.dram ∧
      (s.time.refLoss = false → t.time.persistOk = true) ∧
      (s.time.refLoss = true → t.time.persistOk = s.time.persistOk ∧ t.flash.bestPowered = some r)) ∧
  (∀ s : State, s.fwRuns = true → s.bring.phase = 0 → s.flash.bestPowered = none →
    ∃ t, exec .bringupRecords s = .next t ∧ t.bring.phase = 0xFF ∧ t.bring.stopCause = 0x03 ∧
      t.sched.state = .stopped) ∧
  (∀ (s : State) (failing : List (Nat × Nat)), s.fwRuns = true → s.bring.phase = 1 → failing.all laneOk = true →
    (∀ c, c < 768 → (failingOf failing c).countP (fun i => i < 72) ≤ 4 ∧ (failingOf failing c).countP (fun i => 72 ≤ i) ≤ 1) →
    ∃ t, exec (.laneRepair failing) s = .next t ∧ t.bring.phase = 2 ∧ t.dram = s.dram ∧
      ∀ c, c < 768 → Tbl.get [] t.flash.repair c = failingOf failing c ∧
        t.chan c = { s.chan c with
          spareDq := (failingOf failing c).countP (fun i => i < 72),
          spareCa := (failingOf failing c).countP (fun i => 72 ≤ i), refreshOn := true } ∧
        ∀ i, i < 84 → ((c, i) ∈ t.bring.laneLog ↔ ¬(i ∈ Tbl.get [] s.flash.repair c ↔ i ∈ failingOf failing c))) ∧
  (∀ (s : State) (failing : List (Nat × Nat)) (c : Nat), s.fwRuns = true → s.bring.phase = 1 → failing.all laneOk = true →
    c < 768 → sparesOk failing c = false → (∀ d, d < c → sparesOk failing d = true) →
    ∃ t, exec (.laneRepair failing) s = .next t ∧ t.bring.phase = 0xFF ∧ t.bring.stopChannel = BitVec.ofNat 16 c ∧
      t.bring.stopCause = (if 4 < (failingOf failing c).countP (fun i => i < 72) then 0x01 else 0x02) ∧
      t.sched.state = .stopped ∧ t.flash = s.flash ∧ t.dram = s.dram ∧
      ∀ d, d < 768 → (t.chan d).refreshOn = (sparesOk failing d || (s.chan d).refreshOn)) ∧
  (∀ (s : State) (clean : List (Nat × Nat)) (tstack : List Int), s.fwRuns = true → s.bring.phase = 2 →
    (Instr.retentionProbe clean tstack).wf = true → ∃ t, exec (.retentionProbe clean tstack) s = .next t ∧
      t.bring.phase = 3 ∧ t.dram = s.dram ∧ ∀ c, c < 768 → t.chan c = { s.chan c with
        retention := Config.retentionMs (match clean.find? (fun p => p.1 == c) with
          | some p => p.2
          | none => 0) (tstack.getD (c / 64) 0) }) ∧
  (∀ s : State, s.fwRuns = true → s.bring.phase = 3 →
    exec .dramZero s = .next { s with
      bring := { s.bring with phase := 4, phaseTicker := s.tickerW }, dram := {}, loose := [], imap := [⟨196608, 0, 0, 1⟩] }) ∧
  (∀ s : State, s.fwRuns = true → s.bring.phase = 4 → ∃ t, exec .bringupStructures s = .next t ∧
    t.bring = { s.bring with phase := 5, phaseTicker := s.tickerW } ∧ t.scrubOn = true ∧
    (∀ i, t.dram.word i = if contextAt 0 / 8 ≤ i ∧ i < contextAt 4096 / 8 then .good 0 else s.dram.word i) ∧
    t.xl = { s.xl with contexts := [], nextNode := 0, privet := [], hostPrivet := [], flashPrivet := [] } ∧
    ∀ h, h < 12 → t.hedge h = { s.hedge h with privet := [] }) ∧
  (∀ s : State, s.fwRuns = true → s.bring.phase = 5 →
    exec .ready s = .next { s with
      bring := { s.bring with phase := 6, phaseTicker := s.tickerW, readyTicker := s.tickerW } })

/-- R40, R53, R38, R459: loss of the reference, the powered-seconds record of each 600 s, and a step-rate window. R622 to R624:
what the power stage and the thermal events do. -/
def Obligations.TimeAndStageEvents : Prop :=
  ((∀ s : State, s.powered = true → s.time.refLoss = false → ∃ t, exec .referenceLoss s = .next t ∧
     t.time = { s.time with refLoss := true } ∧ t.dram = { lost := some s.freeCtr } ∧
     (∀ id, t.lives id = false) ∧ (s.sched.state ≠ .stopped → t.sched.state = .faulted) ∧
     t.ig.jobFaults = s.ig.jobFaults + 1) ∧
   (∀ s : State, s.fwRuns = true → due s mkPoweredTime 600000000000 = true → s.time.persistOk = true →
     s.time.refLoss = false →
     (let here := 600 * (s.ticker / 600000000000)
      let total := s.time.persistedS + BitVec.ofNat 64 (here - s.time.persistedHere)
      exec .poweredTimeRecord s = .next { s with
        flash := s.flash.writePowered total s.time.powerUps
        time := { s.time with persistedS := total, persistedHere := here }
        marks := Tbl.set 0 s.marks mkPoweredTime (s.ticker / 600000000000) })) ∧
   (∀ (s : State) (steps : List Nat), s.powered = true → steps.length = 12 → due s mkStepRate 10000 = true →
     ∃ t, exec (.stepRateWindow steps) s = .next t ∧ (∀ h, h < 12 → t.hedge h = { s.hedge h with rate := steps.getD h 0 / 10 }) ∧
       t.jobs = s.jobs.map (addRates (fun h => steps.getD h 0)) ∧
       t = { s with hedges := t.hedges, jobs := t.jobs, marks := Tbl.set 0 s.marks mkStepRate (s.ticker / 10000) })) ∧
  ((∀ s : State, s.powered = true → due s mkStageLimit 100000 = true → ∃ t, exec .powerStageLimit s = .next t ∧
     (∀ h, h < 12 → t.hedge h = { s.hedge h with
       vsetMv := if 700 < (s.hedge h).vsetMv then max 700 ((s.hedge h).vsetMv - 10) else (s.hedge h).vsetMv }) ∧
     t = { s with hedges := t.hedges, marks := Tbl.set 0 s.marks mkStageLimit (s.ticker / 100000) }) ∧
   (∀ (s : State) (tstack tj : List (List Int)), s.powered = true → (Instr.powerStageThermalHold tstack tj).wf = true →
     due s mkStageHold 100000 = true → ∃ t, exec (.powerStageThermalHold tstack tj) s = .next t ∧
     (∀ h, h < 12 → t.hedge h = { s.hedge h with
       vsetMv := if 700 < (s.hedge h).vsetMv ∧ ((∃ l ∈ tstack, ∃ x ∈ l, 950 < x) ∨ (∃ l ∈ tj, ∃ x ∈ l, 1000 < x))
         then max 700 ((s.hedge h).vsetMv - 10) else (s.hedge h).vsetMv }) ∧
     t = { s with hedges := t.hedges, marks := Tbl.set 0 s.marks mkStageHold (s.ticker / 100000) }) ∧
   (∀ (s : State) (h : HedgeId) (temp : Int), s.fwRuns = true → due s (mkJunction h) 10000000 = true → 1000 < temp →
     ∃ t, exec (.junctionThermalEvent h temp) s = .next t ∧ t.pwr.thermalEvents = s.pwr.thermalEvents + 1 ∧
       t.evSeq = s.evSeq + 1 ∧ (t.hedge h).tj = temp ∧ (∀ k, k ≠ h.val → t.hedge k = s.hedge k) ∧
       t.dram = s.dram ∧ t.jobs = s.jobs))

/-- R617 to R621: a window of the governor takes the readings and leaves every setpoint within 0.62 V and 0.90 V; with an LC
queue no setpoint that stood at 0.70 V or above falls below 0.70 V. -/
def Obligations.SnowploughKeepsRange : Prop :=
  ∀ (s : State) (r : PowerReading), s.fwRuns = true → 1 ≤ s.bring.phase.toNat → due s mkSnowplough 10000 = true →
    s.sec.reload.contains 2 = false → (Instr.snowploughWindow r).wf = true → ∃ t, exec (.snowploughWindow r) s = .next t ∧
      t.pwr.capW = s.pwr.capNext ∧ t.pwr.inputCv = r.inputCv ∧ t.pwr.inputDw = r.dw1ms ∧
      t.pwr.peakDw = max s.pwr.peakDw r.dw1ms ∧ t.pwr.energyJ = r.energyJ ∧ t.dram = s.dram ∧ t.jobs = s.jobs ∧
      ∀ h, h < 12 → (t.hedge h).tj ∈ r.tj.getD h [] ∧ (∀ y ∈ r.tj.getD h [], y ≤ (t.hedge h).tj) ∧
        (t.hedge h).tstack ∈ r.tstack.getD h [] ∧ (∀ y ∈ r.tstack.getD h [], y ≤ (t.hedge h).tstack) ∧
        (t.hedge h).vcoreMv = r.vcoreMv.getD h 0 ∧
        (620 ≤ (s.hedge h).vsetMv → (s.hedge h).vsetMv ≤ 900 → 620 ≤ (t.hedge h).vsetMv ∧ (t.hedge h).vsetMv ≤ 900) ∧
        (s.lcFloor = true → 700 ≤ (s.hedge h).vsetMv → 700 ≤ (t.hedge h).vsetMv)

/-- R65, R70 to R72, R76, R77: stack temperatures, refresh windows and scrubbing. Scrubbing changes no word as a reader gets it,
and waits while the channel owes an LC request service. -/
def Obligations.StackUpkeep : Prop :=
  (∀ (s : State) (temps : List (List Int)), s.powered = true → (Instr.stackTempSample temps).wf = true →
    due s mkStackTemp 10000 = true → ∃ t, exec (.stackTempSample temps) s = .next t ∧
      (∀ h, h < 12 → ∃ x ∈ temps.getD h [], (∀ y ∈ temps.getD h [], y ≤ x) ∧
        t.hedge h = sampleStack s.ticker x (s.hedge h)) ∧
      t = { s with hedges := t.hedges, marks := Tbl.set 0 s.marks mkStackTemp (s.ticker / 10000) }) ∧
  (∀ (s : State) (h : HedgeId) (temp : Int), s.fwRuns = true → due s (mkStack h) 10000000 = true → 950 < temp →
    ∃ t, exec (.stackThermalEvent h temp) s = .next t ∧ t.pwr.thermalEvents = s.pwr.thermalEvents + 1 ∧
      t.evSeq = s.evSeq + 1 ∧ (∀ k, t.hedge k = if k = h.val then { s.hedge k with tstack := temp } else s.hedge k) ∧
      t.dram = s.dram ∧ t.jobs = s.jobs ∧ t.cores = s.cores ∧ t.chans = s.chans) ∧
  (∀ (s : State) (c : ChanId), s.powered = true → windowOpens s c = true →
    exec (.refreshWindow c) s = .next { s with
      chans := Tbl.upd {} s.chans c (window s.time.refcyc.toNat (s.hedge (c / 64)).doubledWanted)
      marks := Tbl.set 0 s.marks (mkRefresh c) (s.time.refcyc.toNat + 1) }) ∧
  (∀ (s : State) (c : ChanId) (ca : CaParity), s.powered = true → s.scrubOn = true → s.time.refLoss = false →
    (s.chan c).urgent = false → due s (mkScrub c) (s.scrubPeriod c) = true →
    ∃ t, exec (.scrubLine c ca) s = .next t ∧ (t.chan c).scrubPos = ((s.chan c).scrubPos + 1) % channelLines ∧
      (t.chan c).scrubPasses = (s.chan c).scrubPasses + b2n ((s.chan c).scrubPos + 1 == channelLines) ∧
      (∀ i, t.dram.word i = s.dram.word i) ∧ t.jobs = s.jobs ∧ t.cores = s.cores ∧ t.slots = s.slots ∧ t.xl = s.xl ∧
      (ca = .failed → t.dram = s.dram ∧ (t.chan c).ueCount = (s.chan c).ueCount + 1)) ∧
  (∀ (s : State) (c : ChanId) (ca : CaParity), s.powered = true → (s.chan c).urgent = true →
    exec (.scrubLine c ca) s = .next s)

/-- R64 to R67, R75, R77: the request that a channel serves leaves its queue; a read answers with the words of its lines and
changes none of them; a write stores its data, or poison where its retry failed, and nothing else. R353: a channel refuses a
request that the Privet check does not allow: local DRAM keeps every word, the owner's job ends with ST_PROTECTION and every
other job with ST_LOST (R405). R65, R66: of the requests of a kind that no earlier one on their line holds up, an LC or raised
one is served first, and while one of any kind can be served no other is. -/
def Obligations.ChannelAccess : Prop :=
  (∀ (x : Chan) (p : ChReq → Bool) (r : ChReq) (i : Nat), x.pick p = some (r, i) → x.queue[i]? = some r ∧ p r = true ∧
     (∀ j, j < i → ∀ d, x.queue[j]? = some d → d.shares r = false) ∧
     ((∃ e ∈ servable x.queue, e.1.urgent = true) → r.urgent = true) ∧
     (∀ e ∈ servable x.queue, p e.1 = true → e.1.urgent = r.urgent → i ≤ e.2)) ∧
  (∀ (s : State) (c : ChanId) (r : ChReq) (i src txn : Nat), s.powered = true → s.hrow.flits = [] → r.reply = .packet src txn →
     ((s.chan c).pick (fun r => r.kind == .read) = some (r, i) → s.privetOk r.cid 0 r.pa false = true →
       ∀ ca, ∃ t, exec (.channelRead c ca) s = .next t ∧
         t.out.getLast? = some (responsePacket c r src txn (if ca = .failed then List.replicate (r.len / 8) PWord.bad
           else s.dramWords (r.pa / 8) (r.len / 8))) ∧
         (t.chan c).queue = (s.chan c).queue.eraseIdx i ∧ t.dram = s.dram ∧ t.jobs = s.jobs ∧ t.cores = s.cores ∧
         t.hedges = s.hedges) ∧
     ((s.chan c).pick (fun r => r.kind == .write) = some (r, i) → s.privetOk r.cid 0 r.pa true = true →
       ∃ t, exec (.channelWrite c .clean) s = .next t ∧ exec (.channelWrite c .retried) s = .next t ∧
         t.out.getLast? = some (responsePacket c r src txn []) ∧ (t.chan c).queue = (s.chan c).queue.eraseIdx i ∧
         (∀ j, t.dram.word j = if r.pa / 8 ≤ j ∧ j < r.pa / 8 + r.data.length then
             (if (r.data.getD (j - r.pa / 8) PWord.bad).poison then .bad
               else .good (r.data.getD (j - r.pa / 8) PWord.bad).data)
           else s.dram.word j) ∧ t.jobs = s.jobs ∧ t.cores = s.cores) ∧
     ((s.chan c).pick (fun r => r.kind == .write) = some (r, i) → s.privetOk r.cid 0 r.pa true = true →
       ∃ t, exec (.channelWrite c .failed) s = .next t ∧
         (t.chan c).ueCount = (s.chan c).ueCount + 1 ∧
         ∀ j, t.dram.word j = if ∃ l ∈ r.lines, l / 8 ≤ j ∧ j < l / 8 + 8 then .bad else s.dram.word j)) ∧
  (∀ (s : State) (c : ChanId) (ca : CaParity) (r : ChReq) (i : Nat) (o : Owner), s.powered = true → s.hrow.flits = [] →
     (s.chan c).pick (fun r => r.kind == .write) = some (r, i) → s.privetOk r.cid 0 r.pa true = false →
     reqOwner s r = some o → ∃ t, exec (.channelWrite c ca) s = .next t ∧ t.dram = s.dram ∧
       (∀ id, t.lives id = false) ∧ (∀ j, s.job o.job = some j → j.status = none →
         ∃ j', t.job o.job = some j' ∧ j'.status = some stProtection))

/-- R86, R87: what each adder operation leaves at its target, word by word; every other word of local DRAM is unchanged. A
poisoned operand or a poisoned word of the target leaves the whole target of ADD and ADD_FX as poison. R77: an operation whose
command/address retry fails leaves the lines of its target as poison. R90, R91: a POOL changes no word of local DRAM and answers
with the partial of its rows: to a hedge combiner as one contribution, by packet as the partial's words and a trailer. R397,
R399: an adder operation whose residue check fails writes nothing; every job ends. R398: a right sum passes its check, and a
sum with one bit wrong never does. -/
def Obligations.AdderOps : Prop :=
  (∀ (s : State) (c : ChanId) (r : ChReq) (i : Nat) (ca : CaParity), s.powered = true → s.hrow.flits = [] → ca ≠ .failed →
     s.privetOk r.cid 0 r.pa true = true →
     (let p := parseAdder r.hdr0 r.hdr1
      let w := r.pa / 8
      let n := p.len / 8
      let spoil := anyPoison r.data || anyPoison (s.dramWords w n)
      let x := r.data.getD 0 PWord.bad
      ((s.chan c).pick (isOp opAdd) = some (r, i) → r.data.length = n →
        ∃ t, exec (.adderAdd c ca none) s = .next t ∧ (t.chan c).queue = (s.chan c).queue.eraseIdx i ∧
          ∀ j, t.dram.word j = if w ≤ j ∧ j < w + n then
              (if spoil then .bad else .good (addWord p.acc (s.dramWord j).data (r.data.getD (j - w) PWord.bad).data))
            else s.dram.word j) ∧
      ((s.chan c).pick (isOp opAddFx) = some (r, i) → 2 * r.data.length = n →
        ∃ t, exec (.adderAddFx c ca none) s = .next t ∧
          ∀ j, t.dram.word j = if w ≤ j ∧ j < w + n then
              (if spoil then .bad else .good ((s.dramWord j).data +
                BitVec.ofInt 64 (toFixed p.exp ((f32s (pdata r.data)).getD (j - w) 0)).1))
            else s.dram.word j) ∧
      ((s.chan c).pick (isOp opFetchAdd) = some (r, i) → r.data.length = 1 →
        ∃ t, exec (.adderFetchAdd c ca none) s = .next t ∧
          ∀ j, t.dram.word j = if j = w then
              (if (s.dramWord w).poison || x.poison then .bad
                else .good (fetchAdd p.acc (r.pa % 8 == 4) (s.dramWord w).data x.data).1)
            else s.dram.word j) ∧
      ((s.chan c).pick (isOp opSwap) = some (r, i) → r.data.length = 1 →
        ∃ t, exec (.adderSwap c ca) s = .next t ∧
          (∀ src txn, r.reply = .packet src txn → t.out.getLast? = some (responsePacket c r src txn [s.dramWord w])) ∧
          ∀ j, t.dram.word j = if j = w then (if x.poison then .bad else .good x.data) else s.dram.word j) ∧
      ((s.chan c).pick (isOp opCas) = some (r, i) → r.data.length = 2 →
        ∃ t, exec (.adderCas c ca false) s = .next t ∧
          (∀ src txn, r.reply = .packet src txn → t.out.getLast? = some (responsePacket c r src txn [s.dramWord w])) ∧
          ∀ j, t.dram.word j =
            if j = w ∧ (s.dramWord w).poison = false ∧ x.poison = false ∧ (s.dramWord w).data = x.data then
              (if (r.data.getD 1 PWord.bad).poison then .bad else .good (r.data.getD 1 PWord.bad).data)
            else s.dram.word j) ∧
      ((s.chan c).pick (isOp opZero) = some (r, i) →
        ∃ t, exec (.adderZero c ca) s = .next t ∧
          ∀ j, t.dram.word j = if w ≤ j ∧ j < w + n then .good 0 else s.dram.word j))) ∧
  (∀ (s : State) (c : ChanId) (r : ChReq) (i : Nat) (ca : CaParity), s.powered = true → s.hrow.flits = [] → ca ≠ .failed →
     (s.chan c).pick (isOp opPool) = some (r, i) →
     (let p := parseAdder r.hdr0 r.hdr1
      let a := (poolDo s p r.data (if p.ordered then 0 else Config.freeValue s.freeCtr)).2
      (∀ off ∈ poolRows p r.data, s.privetOk r.cid 0 off false = true ∧
        s.privetOk r.cid 0 (off + 8 * rowWords p.src p.elems - 1) false = true) →
      ∃ t, exec (.adderPool c ca none) s = .next t ∧ t.dram = s.dram ∧ t.jobs = s.jobs ∧ t.cores = s.cores ∧
        (t.chan c).queue = (s.chan c).queue.eraseIdx i ∧
        (∀ piece seq, r.reply = .pool piece seq → t.pieces = updFirst (fun q => q.id == piece)
          (fun q => { q with got := q.got ++ [(seq, ⟨(c.val, seq, 0), a.part, a.pooled, a.mismatched, a.poison⟩)] }) s.pieces) ∧
        (∀ src txn, r.reply = .packet src txn → ∃ o, t.out = o ++
          (packets 4 (partialWords p.acc a.part a.poison ++ [.good (poolTrailer a)])).map (responsePacket c r src txn)))) ∧
  (∀ (s : State) (c : ChanId) (r : ChReq) (i : Nat), s.powered = true → s.hrow.flits = [] →
     s.privetOk r.cid 0 r.pa true = true →
     ((s.chan c).pick (isOp opAdd) = some (r, i) → ∀ b, adderWrong s (parseAdder r.hdr0 r.hdr1) r.pa r.data b = none →
       ∃ t, exec (.adderAdd c .clean (some b)) s = .next t ∧ t.dram = s.dram ∧ (∀ id, t.lives id = false) ∧
         t.evSeq = s.evSeq + 3) ∧
     ((s.chan c).pick (isOp opCas) = some (r, i) →
       ∃ t, exec (.adderCas c .clean true) s = .next t ∧ t.dram = s.dram ∧ (∀ id, t.lives id = false) ∧
         t.evSeq = s.evSeq + 3) ∧
     (∀ op k, (op, k) ∈ ([(opAdd, .adderAdd c .failed none), (opAddFx, .adderAddFx c .failed none),
         (opFetchAdd, .adderFetchAdd c .failed none), (opSwap, .adderSwap c .failed), (opCas, .adderCas c .failed false),
         (opZero, .adderZero c .failed)] : List (Nat × Instr)) → (s.chan c).pick (isOp op) = some (r, i) →
       ∃ t, exec k s = .next t ∧ (t.chan c).ueCount = (s.chan c).ueCount + 1 ∧
         ∀ j, t.dram.word j = if ∃ l ∈ r.lines, l / 8 ≤ j ∧ j < l / 8 + 8 then .bad else s.dram.word j)) ∧
  (∀ (a b : BitVec 64), wrongInt 64 a.toInt b.toInt (a + b).toInt = some (a + b) ∧
     ∀ k, k < 64 → wrongInt 64 a.toInt b.toInt ((a + b) ^^^ (1#64 <<< k)).toInt = none) ∧
  (∀ (a b : BitVec 32), wrongInt 32 a.toInt b.toInt (a + b).toInt = some (a + b) ∧
     ∀ k, k < 32 → wrongInt 32 a.toInt b.toInt ((a + b) ^^^ (1#32 <<< k)).toInt = none)

/-- R18, R19, R25: with nothing else in the routers, a packet for a channel enters its queue where there is room, any other
arrives at its node, and an uncorrectable tag is a job fault of unknown owner. R21: a route leads along the row of its first
router and then along the column of its last, by as many links as the two lie apart. R22: no step of the routers puts more flits
into an input buffer than it holds. R29: a warden applies the oldest change it holds, and reports it. -/
def Obligations.HedgerowAndWardens : Prop :=
  (∀ (s : State) (flits : List Flit), s.powered = true → (Instr.hedgerowPacket flits).wf = true → s.hrow.flits = [] →
    flits.all (fun f => f.tagSyn == 0 && f.words.all (fun w => w.2 == 0)) = true → packetOk (flits.map Flit.forward) = true →
    (let l := flits.flatMap (fun f => f.words.map (fun w => PWord.good w.1))
     ∀ t, (flits.head?).map (fun f => tagCommon f.tag) = some t →
       (isMemory t = false → exec (.hedgerowPacket flits) s = .next { s with arrived := s.arrived ++ [(fld t 63 57, t, l)] }) ∧
       (isMemory t = true →
         (let r := packetReq t l
          (fld t 35 32 = 2 → adderRefusal r.hdr0 r.hdr1 r.data.length = none) →
          fld t 63 57 = 72 + s.stack r.pa → (isOp opPool r = true ∨ s.oneUnit r.pa r.len = true) →
          (s.chan (s.channel r.pa)).room r.lc = true →
          exec (.hedgerowPacket flits) s = .next (enqueue s (s.channel r.pa) r))))) ∧
  (∀ (s : State) (flits : List Flit), s.powered = true → (Instr.hedgerowPacket flits).wf = true →
    flits.any Flit.tagLost = true → ∃ t, exec (.hedgerowPacket flits) s = .next t ∧ (∀ id, t.lives id = false) ∧
      t.ig.jobFaults = s.ig.jobFaults + 1 ∧ t.dram = s.dram ∧ t.arrived = s.arrived ∧ t.hrow = s.hrow ∧
      t.ig.hedgerowCe = s.ig.hedgerowCe + (flits.map Flit.corrected).sum ∧
      t.ig.hedgerowUe = s.ig.hedgerowUe + (flits.map Flit.broken).sum) ∧
  (∀ src dst, src < 88 → dst < 88 → (route src dst).head? = some (meshPlace src dst) ∧
    (route src dst).getLast? = some (meshPlace dst src) ∧
    (route src dst).length = colsApart (meshPlace src dst).1 (meshPlace dst src).1 +
      colsApart (meshPlace src dst).2 (meshPlace dst src).2 + 1 ∧
    ∀ p ∈ route src dst, p.2 = (meshPlace src dst).2 ∨ p.1 = (meshPlace dst src).1) ∧
  (∀ s : State, (∀ link vc, s.hrow.held link vc ≤ vcSlots vc) → ∀ link vc, (routerStep s).hrow.held link vc ≤ vcSlots vc) ∧
  (∀ (s : State) (h : HedgeId) (cfg : WardenCfg) (rest : List WardenCfg), s.powered = true →
    (s.hedge h).wardenQ = cfg :: rest →
    (∀ f k left a, AdminWait.wardens f k left a ∈ s.adminWaits → ∃ i ∈ left, i ≠ h.val) →
    ∃ t, exec (.wardenConfigApply h) s = .next t ∧ t.dram = s.dram ∧ t.jobs = s.jobs ∧ t.cores = s.cores ∧
      t.adminWaits = updFirst (fun w => w.owes h) (fun w => w.reported h) s.adminWaits ∧
      (∀ m, cfg = .map m → t.hedge h = { s.hedge h with wardenQ := rest, imap := m }) ∧
      (∀ p, cfg = .privet p → t.hedge h = { s.hedge h with wardenQ := rest, privet := p }) ∧
      (∀ n, cfg = .scrub n → t.hedge h = { s.hedge h with wardenQ := rest, scrubH := n }) ∧
      (∀ on, cfg = .lock on → ∀ i, i < 64 → (t.chan (64 * h.val + i)).lockWanted = on ∧
        (on = false → (t.chan (64 * h.val + i)).aligned = false)))

/-- R412, R413, R482: a doorbell or a HEAD write moves its queue's pointer, or is ignored and counted. -/
def Obligations.Doorbells : Prop :=
  ∀ (s : State) (f : FnId) (v : Word), s.present = true →
    (∀ (q : Fin 256) (x : SubQ), s.sqs.find? (fun x => x.fn == f.val && x.qid == q.val && x.dying.isNone) = some x →
      exec (.sqTailWrite f q v) s = .next (if fld v 15 0 < 2 ^ x.log2 ∧
          ahead x.log2 x.head x.tail ≤ ahead x.log2 x.head (fld v 15 0) then
        { s with sqs := updFirst (fun x => x.fn == f.val && x.qid == q.val) (fun x => { x with tail := fld v 15 0 }) s.sqs }
      else { s with dbIgnored := Tbl.upd 0 s.dbIgnored f (· + 1) })) ∧
    (∀ (q : Fin 256), s.sqs.find? (fun x => x.fn == f.val && x.qid == q.val && x.dying.isNone) = none →
      exec (.sqTailWrite f q v) s = .next { s with dbIgnored := Tbl.upd 0 s.dbIgnored f (· + 1) }) ∧
    (∀ (c : Fin 128) (x : CplQ), s.cqs.find? (fun x => x.fn == f.val && x.cid == c.val) = some x →
      exec (.cqHeadWrite f c v) s = .next (if fld v 15 0 < 2 ^ x.log2 ∧
          ahead x.log2 x.head (fld v 15 0) ≤ ahead x.log2 x.head x.tail then
        { s with cqs := updFirst (fun x => x.fn == f.val && x.cid == c.val) (fun x => { x with head := fld v 15 0 }) s.cqs }
      else { s with dbIgnored := Tbl.upd 0 s.dbIgnored f (· + 1) })) ∧
    (∀ q : PfQ, f = 0 → fld v 15 0 < 2 ^ q.log2 → ahead q.log2 q.head (fld v 15 0) ≤ ahead q.log2 q.head q.tail →
      (s.eq = some q → exec (.eqHeadWrite f v) s = .next { s with eq := some { q with head := fld v 15 0 } }) ∧
      (s.hq = some q → exec (.hqHeadWrite f v) s = .next { s with hq := some { q with head := fld v 15 0 } }) ∧
      (s.fq = some q → exec (.fqHeadWrite f v) s = .next { s with fq := some { q with head := fld v 15 0 } })) ∧
    (f = 0 → s.eq = none → exec (.eqHeadWrite f v) s = .next { s with mbIgnored := s.mbIgnored + 1 }) ∧
    (f ≠ 0 → exec (.eqHeadWrite f v) s = .next s ∧ exec (.hqHeadWrite f v) s = .next s ∧
      exec (.fqHeadWrite f v) s = .next s)

/-- R48, R368, R412, R482, R518, R520: the registers that a read clears or latches, and the host window. R48: the high half of a
time-base register reads as it was when the low half was read. R412, R428, R434: what a doorbell register reads as. R511: the
identity of a function (its vendor is PCI-SIG's number for the maker, a constant of Config). R365, R478 to R480, R515
to R517: resolving a pending DEMAND fault, posting a command, writing a payload, releasing a slot, and a refused BAR0 access. -/
def Obligations.RegisterAccess : Prop :=
  (∀ (s : State) (f : FnId), s.present = true →
     exec (.dbStatusRead f) s = .next { s with
       out := s.out ++ [.regRead f 0x6C00 (some (regAt 31 0 (Tbl.get 0 s.dbIgnored f)))]
       dbIgnored := Tbl.set 0 s.dbIgnored f 0 } ∧
     exec (.mbStatusRead 0) s = .next { s with
       out := s.out ++ [.regRead 0 0x5018 (some (regAt 63 32 s.eqDropped ||| regAt 31 0 s.mbIgnored))]
       eqDropped := 0, mbIgnored := 0 } ∧
     exec (.fqStatusRead 0) s = .next { s with
       out := s.out ++ [.regRead 0 0x7008 (some (at_ 47 32 s.xl.pend.length ||| regAt 31 16 s.xl.stale |||
         regAt 15 0 s.xl.heldFull))]
       xl := { s.xl with stale := 0, heldFull := 0 } } ∧
     (f ≠ 0 → exec (.mbStatusRead f) s = .next { s with out := s.out ++ [.regRead f 0x5018 (some 0)] } ∧
       exec (.fqStatusRead f) s = .next { s with out := s.out ++ [.regRead f 0x7008 (some 0)] }) ∧
     exec .hlErrRead s = .next { s with
       out := s.out ++ [.regRead 0 0x20008 (some (regAt 63 48 s.link.replays ||| regAt 47 32 s.link.correctable |||
         regAt 31 16 s.link.rxFailed ||| regAt 15 0 s.link.badAccess))]
       link := { s.link with replays := 0, correctable := 0, rxFailed := 0, badAccess := 0 } } ∧
     exec .hlResetsRead s = .next { s with
       out := s.out ++ [.regRead 0 0x20020 (some (regAt 31 16 s.link.flrs ||| regAt 15 0 s.link.linkResets))]
       link := { s.link with flrs := 0, linkResets := 0 } } ∧
     (∀ v : Word, s.model = false → fld v 63 16 * 65536 + 2 ^ 44 ≤ 2 ^ 64 →
       exec (.hlHwinWrite v) s = .next { s with link := { s.link with hwin := BitVec.ofNat 48 (fld v 63 16) } }) ∧
     (∀ v : Word, s.model = true → exec (.hlHwinWrite v) s = .next s) ∧
     (∀ offset : Nat, offset % 8 = 0 → offset < 4096 → exec (.tbLowHalfRead f offset) s = .next { s with
       out := s.out ++ [.regRead f offset (some (at_ 31 0 (fld (s.tbReg offset) 31 0)))]
       time := { s.time with
         latch := Tbl.set 0 s.time.latch (4096 * f + offset) (BitVec.ofNat 32 (fld (s.tbReg offset) 63 32)) } } ∧
       ∀ t u : State, exec (.tbLowHalfRead f offset) s = .next t → u.present = true → u.time.latch = t.time.latch →
         exec (.tbLowHalfRead f (offset + 4)) u = .next { u with
           out := u.out ++ [.regRead f (offset + 4) (some (at_ 31 0 (fld (s.tbReg offset) 63 32)))] }) ∧
     (∀ (q : Fin 256), (s.sqs.find? (fun x => x.fn == f.val && x.qid == q.val && x.dying.isNone) = none →
         s.bar0Reg f (0x6000 + 8 * q) = 0) ∧
       (∀ x, s.sqs.find? (fun x => x.fn == f.val && x.qid == q.val && x.dying.isNone) = some x →
         s.bar0Reg f (0x6000 + 8 * q) = at_ 49 48 (if s.awaitsRest x then 2 else 1) ||| at_ 47 32 x.head ||| at_ 15 0 x.tail)) ∧
     (∀ (c : Fin 128), (s.cqs.find? (fun x => x.fn == f.val && x.cid == c.val) = none → s.bar0Reg f (0x6800 + 8 * c) = 0) ∧
       (∀ x, s.cqs.find? (fun x => x.fn == f.val && x.cid == c.val) = some x →
         s.bar0Reg f (0x6800 + 8 * c) = at_ 49 48 (if ahead x.log2 x.head x.tail = 2 ^ x.log2 - 1 then 2 else 1) |||
           at_ 47 32 x.tail ||| at_ 15 0 x.head)) ∧
     (s.identity f).device = (if f = 0 then 0x50C1 else 0x50C2) ∧ (s.identity f).revision = 0xA1 ∧
     (s.identity f).classCode = 0x120000 ∧ (s.identity f).subVendor = (s.identity f).vendor ∧
     (s.identity f).subsystem = BitVec.ofNat 16 s.flash.grade) ∧
  ((∀ (s : State) (tag : BitVec 16) (p : Pend), s.fwRuns = true →
     s.xl.pend.find? (fun p => p.tag == some tag) = some p → pteState (s.node p.leaf) = stDemand →
     (∀ (c : FnId → BitVec 16 → Instr) (st : Nat), (c = .fqResolveRelease ∧ st = stValid) ∨ (c = .fqResolveFail ∧ st = stInvalid) →
       exec (c 0 tag) s = .next { s with
         dram := s.dram.putWord (p.leaf / 8) (.good (at_ 63 62 st ||| at_ 61 0 (fld (s.node p.leaf) 61 0)))
         xl := { s.xl with
           pend := s.xl.pend.filter (fun q => q.leaf != p.leaf)
           faultHeld := s.xl.faultHeld.filter (fun e => e.leaf != p.leaf) } } ∧
       (s.link.configReady = true →
         exec (.registerWriteOther 0 0x7000 true (at_ 63 48 tag.toNat ||| at_ 47 46 (if st = stValid then 0 else 1))) s =
           exec (c 0 tag) s))) ∧
   (∀ (s : State) (tag : BitVec 16), s.fwRuns = true → s.xl.pend.find? (fun p => p.tag == some tag) = none →
     exec (.fqResolveRelease 0 tag) s = .next { s with xl := { s.xl with stale := s.xl.stale + 1 } } ∧
     exec (.fqResolveFail 0 tag) s = .next { s with xl := { s.xl with stale := s.xl.stale + 1 } }) ∧
   (∀ (s : State) (f : FnId) (k : SlotId), s.present = true → (s.mail (mailKey f k)).state = 3 →
     exec (.mbRelease f k) s = .next { s with mbox := Tbl.upd {} s.mbox (mailKey f k) (fun m => { m with state := 0 }) }) ∧
   (∀ (s : State) (f : FnId) (k : SlotId) (v : Word), s.present = true → fld v 63 62 = 1 →
     exec (.registerWriteOther f (0x1000 + 0x1000 * k) true v) s = .next
       (if (s.mail (mailKey f k)).state = 0 then { s with
         mbOrder := s.mbOrder + 1
         mbox := Tbl.upd {} s.mbox (mailKey f k) (fun m => { m with
           opcode := v.extractLsb' 48 8, seq := v.extractLsb' 32 16, verMajor := v.extractLsb' 24 8,
           verMinor := v.extractLsb' 16 8, state := 1, order := s.mbOrder + 1, started := false, applied := 0 }) }
       else { s with mbIgnored := s.mbIgnored + 1 })) ∧
   (∀ (s : State) (f : FnId) (k : SlotId) (n : Nat) (v : Word), s.present = true → n < 508 →
     (s.mail (mailKey f k)).state ≠ 1 → (s.mail (mailKey f k)).state ≠ 2 →
     exec (.registerWriteOther f (0x1000 + 0x1000 * k + 0x20 + 8 * n) true v) s = .next { s with
       mbox := Tbl.upd {} s.mbox (mailKey f k) (fun m => { m with
         payload := putPayload m.payload (8 * n) (leBytes 8 v.toNat) }) }) ∧
   (∀ (s : State) (f : FnId) (why : BadAccess), s.present = true → why ≠ .outsideIde →
     exec (.bar0BadAccess f true why) s = .next { s with
       link := { s.link with badAccess := s.link.badAccess + 1 }, out := s.out ++ [.regRead f 0 none] } ∧
     exec (.bar0BadAccess f false why) s = .next { s with link := { s.link with badAccess := s.link.badAccess + 1 } }))

/-- R485, R528, R529: the reset of a function ends its jobs, drops its queues, returns its slots to STATE 0b00 and keeps local
DRAM; the physical function's FLR and a link reset do so for every function. -/
def Obligations.FunctionResets : Prop :=
  (∀ (s : State) (f : FnId), s.present = true → f ≠ 0 → ∃ t, exec (.vfFlr f) s = .next t ∧
    t.link.flrs = s.link.flrs + 1 ∧ t.dram = s.dram ∧ t.sqs = s.sqs.filter (fun q => q.fn != f.val) ∧
    t.cqs = s.cqs.filter (fun q => q.fn != f.val) ∧ (∀ k, k < 4 → (t.mail (mailKey f k)).state = 0) ∧
    t.version f = none ∧ (∀ j ∈ s.jobs, j.fn = f → t.lives j.id = false) ∧ t.slots = s.slots ∧ t.time = s.time) ∧
  (∀ s : State, s.present = true → ∃ t, exec .pfFlr s = .next t ∧ t.link.flrs = s.link.flrs + 1 ∧
    t.dram = s.dram ∧ t.eq = none ∧ t.hq = none ∧ t.fq = none ∧ t.evHeld = [] ∧ t.link.vfEnable = false ∧
    (∀ q ∈ t.sqs, 32 ≤ q.fn) ∧ (∀ q ∈ t.cqs, 32 ≤ q.fn) ∧ (∀ f, f < 32 → t.version f = none ∧
      ∀ k, k < 4 → (t.mail (mailKey f k)).state = 0) ∧ (∀ j ∈ s.jobs, j.fn < 32 → t.lives j.id = false)) ∧
  (∀ (s : State) (r : LinkReset) (up : LinkUp), s.powered = true → ∃ t, exec (.hotReset r up) s = .next t ∧
    ((s.pwr.perst || r == .perst) = true → t.link.rate = 0 ∧ t.link.width = 0) ∧
    ((s.pwr.perst || r == .perst) = false → up.width ≠ .down → t.link.rate = BitVec.ofNat 4 up.rate) ∧
    t.link.linkResets = s.link.linkResets + 1 ∧ t.link.bme = 0 ∧ t.link.d3hot = 0 ∧ t.link.msixOff = 0xFFFFFFFF ∧
    t.link.mrrs = 512 ∧ t.link.mps = 0 ∧ t.dram = s.dram ∧ t.eq = none ∧ t.hq = none ∧ t.fq = none ∧ (∀ q ∈ t.sqs, 32 ≤ q.fn) ∧
    (∀ j ∈ s.jobs, j.fn < 32 → t.lives j.id = false) ∧ t.pwr = { s.pwr with perst := s.pwr.perst || r == .perst }) ∧
  (∀ (s : State) (up : LinkUp), s.powered = true →
    (s.pwr.perst = true → exec (.perstRelease up) s =
      .next { s with pwr := { s.pwr with perst := false }, link := s.link.trained up }) ∧
    (s.pwr.perst = false → exec (.perstRelease up) s = .next s))

/-- R521, R523, R526, R527: blocked DMA is sent in order once nothing blocks it; an IDE failure makes its stream Insecure; an ATS
invalidation is answered once its function has no read outstanding; an unmasked vector sends its pending message. R519, R643:
a completion delivers its bytes, or poison, to its request; a failed or late request is poison where it has delivered
nothing; each of the three counts in RX_FAILED. -/
def Obligations.HostLinkTraffic : Prop :=
  ((∀ (s : State) (f : FnId) (cause : DmaCause), s.powered = true → ∃ l,
     exec (.dmaBlockChange f cause) s = .next (flushHeld { s with link := l }) ∧
     (∀ on, cause = .bme on → s.link.configReady = true → l = { s.link with bme := setBit32 s.link.bme f on }) ∧
     (∀ on, cause = .d3hot on → s.link.configReady = true → l = { s.link with d3hot := setBit32 s.link.d3hot f on }) ∧
     (∀ k : Fin 5, cause = .ideRekeyed k →
       l = { s.link with ideInsecure := s.link.ideInsecure &&& ~~~(1#5 <<< k.val) })) ∧
   (∀ s : State, flushHeld s = { s with
     out := s.out ++ (s.link.held.filter (fun e => !s.blocked e.1)).map (·.2)
     link := { s.link with held := s.link.held.filter (fun e => s.blocked e.1) } }) ∧
   (∀ (s : State) (k : Fin 5), s.powered = true → s.link.ideEnabled.getLsbD k = true →
     exec (.ideIntegrityFail k) s = .next { s with
       link := { s.link with ideInsecure := s.link.ideInsecure ||| (1#5 <<< k.val) } }) ∧
   (∀ (s : State) (f : FnId) (tag : Nat), s.powered = true → s.link.ats = [] →
     exec (.atsInvalidation f tag) s = .next (if s.link.reads.any (fun r => r.fn == f.val && !r.done) then
         { s with link := { s.link with ats := [(f.val, tag)] } }
       else sendAs s f (.atsDone f tag))) ∧
   (∀ (s : State) (f : FnId) (v : Nat), s.present = true → v < 2048 →
     Tbl.get false s.link.vecPending (2048 * f + v) = true → s.link.fnMask.getLsbD f = false →
     s.link.msixOff.getLsbD f = false → s.blocked f = false → exec (.msixUnmask f v) s = .next { s with
       out := s.out ++ [.msix f v]
       link := { s.link with
         vecOpen := Tbl.set false s.link.vecOpen (2048 * f + v) true
         vecPending := Tbl.set false s.link.vecPending (2048 * f + v) false } }) ∧
   (∀ (s : State) (f : FnId) (v : Nat), 2048 ≤ v → ∃ r, exec (.msixUnmask f v) s = .fault r)) ∧
  (∀ (s : State) (rd q off a n : Nat) (data : List Byte) (r : HostRead), s.powered = true →
     s.link.reads.find? (fun r => r.id == rd) = some r → r.reqs[q]? = some (a, n, false) →
     exec (.hostReadCompletion rd q off .good data) s = .next (tidyReads (answerAts (upRead s rd
       (fun r => (r.give (a + off) ((data.take (n - off)).map some)).close q)))) ∧
     exec (.hostReadCompletion rd q off .ep data) s = .next (tidyReads (answerAts (rxFailed (upRead s rd
       (fun r => (r.give (a + off) ((data.take (n - off)).map (fun _ => none))).close q))))) ∧
     exec (.hostReadCompletion rd q off .unsupported data) s =
       .next (tidyReads (answerAts (rxFailed (upRead s rd (fun r => r.fail q))))) ∧
     exec (.hostReadCompletion rd q off .aborted data) s =
       .next (tidyReads (answerAts (rxFailed (upRead s rd (fun r => r.fail q))))) ∧
     exec (.hostReadTimeout rd q) s = .next (tidyReads (answerAts (rxFailed (upRead s rd (fun r => r.fail q))))) ∧
     (∀ i, a ≤ i → i < a + n → ((r.fail q).at i = some ((r.at i).getD none))))

/-- R346 to R349: a TLB miss walks and is counted; a VALID leaf that the walk finds goes into the unit's TLB, which from then on
translates the address as the walk did; a page that the TLB holds is not walked again. R397, R399: a walk whose two executions
differ ends every job and fills nothing. R358 to R361: a tile that meets a resolvable fault joins the pending entry of its leaf, or
makes one, or is held while all 256 are in use. R364: the oldest fault entry held is written at the fault queue's TAIL, which
advances, under the next tag (R363). -/
def Obligations.Translation : Prop :=
  (∀ (s : State) (u : XlUnit) (cid : BitVec 12) (va : BitVec 52), s.powered = true →
     (let k := unitKey u
      let counted := fun (t : State) => (t.hedge (unitHedge k)).tr.walks = (s.hedge (unitHedge k)).tr.walks + 1 ∧
        (t.hedge (unitHedge k)).tr.tlbMisses = (s.hedge (unitHedge k)).tr.tlbMisses + 1 ∧ t.dram = s.dram ∧
        t.jobs = s.jobs ∧ t.cores = s.cores
      (tlbHit (Tbl.get [] s.xl.tlbs k) cid va.toNat ≠ none → ∀ bad, exec (.pageWalk u cid va bad) s = .next s) ∧
      (tlbHit (Tbl.get [] s.xl.tlbs k) cid va.toNat = none →
        (∃ t, exec (.pageWalk u cid va true) s = .next t ∧ t.base = s.base ∧ t.evSeq = s.evSeq + 3 ∧
          ∀ id, t.lives id = false) ∧
        (∃ t, exec (.pageWalk u cid va false) s = .next t ∧ counted t ∧
          ((∀ key level w r, walk s (s.walker k) cid va.toNat ≠ (.leaf key level w, r) ∨ pteState w ≠ stValid) →
            t.xl.tlbs = s.xl.tlbs) ∧
          (∀ key level w r, walk s (s.walker k) cid va.toNat = (.leaf key level w, r) → pteState w = stValid →
            (pteContig w = true → pteOa w / 65536 % 32 = va.toNat / 65536 % 32) →
            ∀ write, translate t k cid va.toNat write = translate s k cid va.toNat write))))) ∧
  (∀ (s : State) (o : Owner) (core : Option Nat) (bag : Option (Nat × Nat)) (h leaf page : Nat),
     (let t := waitTile s o core bag h leaf page
      (t.hedge h).tr.resolvable = (s.hedge h).tr.resolvable + 1 ∧ t.dram = s.dram ∧ t.jobs = s.jobs ∧
      t.tileWaits o core bag = true ∧
      (s.xl.pend.any (fun p => p.leaf == leaf) = true → t.fq = s.fq ∧ t.xl.faultHeld = s.xl.faultHeld ∧
        t.xl.heldFull = s.xl.heldFull ∧ (t.hedge h).tr.coalesced = (s.hedge h).tr.coalesced + 1 ∧
        t.xl.pend = updFirst (fun p => p.leaf == leaf) (fun p => { p with waiters := p.waiters + 1 }) s.xl.pend) ∧
      (s.xl.pend.any (fun p => p.leaf == leaf) = false → 256 ≤ s.xl.pend.length →
        t.xl.pend = s.xl.pend ∧ t.xl.heldFull = s.xl.heldFull + 1 ∧ t.fq = s.fq ∧ t.xl.faultHeld = s.xl.faultHeld) ∧
      (s.xl.pend.any (fun p => p.leaf == leaf) = false → s.xl.pend.length < 256 → pteState (s.node leaf) ≠ stDemand →
        t.xl.pend = s.xl.pend ++ [{ leaf := leaf, tag := none, cid := o.cid, page := page, waiters := 1 }] ∧
        t.xl.heldFull = s.xl.heldFull ∧ t.fq = s.fq ∧ t.xl.faultHeld = s.xl.faultHeld))) ∧
  (∀ (s : State) (q : PfQ) (e : FaultEntry) (rest : List FaultEntry), s.fwRuns = true → s.fq = some q → q.full = false →
     s.blocked 0 = false → s.xl.faultHeld = e :: rest → ∃ t, exec .faultEntryPost s = .next t ∧
       t.fq = some { q with tail := (q.tail + 1) % 2 ^ q.log2 } ∧
       t.xl = { s.xl with
         faultHeld := rest
         faultTag := s.xl.faultTag + 1
         pend := updFirst (fun p => p.leaf == e.leaf) (fun p => { p with tag := some s.xl.faultTag }) s.xl.pend } ∧
       t.dram = s.dram ∧ t.jobs = s.jobs ∧ t.cores = s.cores ∧
       ∃ l o, t.out = s.out ++ Output.dma 0 (q.ring.toNat + 32 * q.tail) l false false :: o ∧ l.length = 32)

/-- R480: a response fills the payload, MB_LEN, MB_TICKER, MB_TIME and the header, and sends MSI-X vector 0; nothing else
changes. R14, R487, R491, R640: a reserved opcode, a nonzero reserved field, a version that was not negotiated, and a
physical function's command from a virtual function are refused, in that order. R486, R490, R50, R501, R582: a NEGOTIATE,
GET_CAPS, TIME_SYNC, TELEMETRY_READ or ATTEST that meets none of these and passes its own checks is executed and answered
ST_OK. -/
def Obligations.AdminResponses : Prop :=
  (∀ (s : State) (f : FnId) (k : SlotId) (st : Status) (l : List Word), (s.mail (mailKey f k)).state = 2 →
     l.length ≤ 508 → ∃ t, respond s f k st l = t ∧
       (t.mail (mailKey f k)).state = 3 ∧ (t.mail (mailKey f k)).status = st ∧
       (t.mail (mailKey f k)).respLen.toNat = 8 * l.length ∧ (t.mail (mailKey f k)).ticker = s.tickerW ∧
       (∀ i, i < 8 * l.length → Tbl.get 0 (t.mail (mailKey f k)).payload i = (wordsBytes l).getD i 0) ∧
       (∀ i, 8 * l.length ≤ i → Tbl.get 0 (t.mail (mailKey f k)).payload i = Tbl.get 0 (s.mail (mailKey f k)).payload i) ∧
       (∀ key, key ≠ mailKey f k → t.mail key = s.mail key) ∧
       (s.link.msixOff.getLsbD f = false → s.link.fnMask.getLsbD f = false →
         Tbl.get false s.link.vecOpen (2048 * f) = true → s.blocked f = false → t.out = s.out ++ [.msix f 0]) ∧
       t.dram = s.dram ∧ t.jobs = s.jobs ∧ t.cores = s.cores ∧ t.hedges = s.hedges ∧ t.slots = s.slots) ∧
  (∀ (s : State) (f : FnId) (k : SlotId), s.fwRuns = true → (s.mail (mailKey f k)).open_ = true →
     (s.mail (mailKey f k)).started = false → s.turn (mailKey f k) = true → (s.mail (mailKey f k)).reqLen.toNat ≤ 4064 →
     (knownOps.contains (s.mail (mailKey f k)).opcode.toNat = false →
       exec (.reservedAdminOpcode f k) s = .next (respond (upMail s (mailKey f k) (fun m => { m with state := 2 })) f k
         stReservedNonzero [])) ∧
     ((s.mail (mailKey f k)).opcode = 0x31 →
       (s.reqF (mailKey f k) 0 63 16 ≠ 0 → exec (.setPowerCap f k) s = .next (respond
         (upMail s (mailKey f k) (fun m => { m with state := 2 })) f k stReservedNonzero [])) ∧
       (s.reqF (mailKey f k) 0 63 16 = 0 → s.tailZero (mailKey f k) 1 = true →
         (s.version f ≠ some ((s.mail (mailKey f k)).verMajor.toNat, (s.mail (mailKey f k)).verMinor.toNat) →
           exec (.setPowerCap f k) s = .next (respond
             (upMail s (mailKey f k) (fun m => { m with state := 2 })) f k stVersion [])) ∧
         (s.version f = some ((s.mail (mailKey f k)).verMajor.toNat, (s.mail (mailKey f k)).verMinor.toNat) → f ≠ 0 →
           exec (.setPowerCap f k) s = .next (respond
             (upMail s (mailKey f k) (fun m => { m with state := 2 })) f k stBadDescriptor []))))) ∧
  (∀ (s : State) (f : FnId) (k : SlotId),
     (let key := mailKey f k
      ∀ i op ok, (i, op, ok) ∈ ([
        (.negotiate f k, 0x01, s.tailZero key 1 = true ∧ s.version f = none ∧
          chooseVersion (hostPairs (s.req key 0)) deviceVersions ≠ none),
        (.getCaps f k, 0x02, s.tailZero key 0 = true),
        (.timeSync f k, 0x40, s.tailZero key 2 = true ∧ (s.req key 0).toNat ≤ s.ticker),
        (.telemetryRead f k, 0x41, telemetryReserved s key = false ∧ (f = 0 ∨ s.reqF key 0 63 56 = 0x0D) ∧
          (s.req key 1).toNat % 64 = 0 ∧ (s.reqF key 0 63 56 ≠ 0x04 → s.req key 3 = 0)),
        (.attest f k, 0x48, s.reqF key 5 63 32 = 0 ∧ s.tailZero key 6 = true ∧ (s.req key 4).toNat % 64 = 0 ∧
          30336 + 96 * s.sec.log.length ≤ s.reqF key 5 31 0)] : List (Instr × Nat × Prop)) →
      s.starts f k op → ok → ∃ t, exec i s = .next t ∧ (t.mail key).state = 3 ∧ (t.mail key).status = stOk ∧
        t.dram = s.dram ∧ t.jobs = s.jobs ∧ t.flash = s.flash))

/-- R486, R490, R582, R50: NEGOTIATE, GET_CAPS, ATTEST and TIME_SYNC, each with its response, or with its refusal. R501, R494:
TELEMETRY_READ writes the records asked for that exist, as many as fit, and clears their RC fields; a virtual function reads its
own context record alone; kind 0x04 writes page counters. -/
def Obligations.AdminReports : Prop :=
  (∀ (s : State) (f : FnId) (k : SlotId),
     (s.starts f k 0x01 → s.tailZero (mailKey f k) 1 = true → ∀ v,
       chooseVersion (hostPairs (s.req (mailKey f k) 0)) deviceVersions = some v →
       (s.ownsQueue f = false ∨ s.version f = none →
         exec (.negotiate f k) s = .next (respond { s.begun f k with nego := Tbl.set none s.nego f (some v) } f k stOk
           [at_ 63 56 v.1 ||| at_ 55 48 v.2, at_ 7 0 1])) ∧
       (s.ownsQueue f = true → s.version f ≠ none →
         exec (.negotiate f k) s = .next (respond (s.begun f k) f k stBadDescriptor []))) ∧
     (s.starts f k 0x01 → s.tailZero (mailKey f k) 1 = true →
       chooseVersion (hostPairs (s.req (mailKey f k) 0)) deviceVersions = none →
       exec (.negotiate f k) s = .next (respond (s.begun f k) f k stVersion [])) ∧
     (s.starts f k 0x02 → s.tailZero (mailKey f k) 0 = true →
       exec (.getCaps f k) s = .next (respond (s.begun f k) f k stOk (s.caps f))) ∧
     (s.starts f k 0x48 → s.reqF (mailKey f k) 5 63 32 = 0 → s.tailZero (mailKey f k) 6 = true →
       (s.req (mailKey f k) 4).toNat % 64 = 0 →
       30336 + 96 * s.sec.log.length ≤ s.reqF (mailKey f k) 5 31 0 →
       (let e := s.evidence (wordsBytes ((List.range 4).map (s.req (mailKey f k))))
        exec (.attest f k) s = .next (respond (dmaBytes (s.begun f k) f (s.req (mailKey f k) 4).toNat true
          (e ++ slice (Config.identitySign e) 0 29792)) f k stOk [at_ 31 0 (30336 + 96 * s.sec.log.length)]))) ∧
     (s.starts f k 0x48 → s.reqF (mailKey f k) 5 63 32 = 0 → s.tailZero (mailKey f k) 6 = true →
       ((s.req (mailKey f k) 4).toNat % 64 ≠ 0 ∨ s.reqF (mailKey f k) 5 31 0 < 30336 + 96 * s.sec.log.length) →
       exec (.attest f k) s = .next (respond (s.begun f k) f k stBadDescriptor [])) ∧
     (s.starts f k 0x40 → s.tailZero (mailKey f k) 2 = true →
       ((s.req (mailKey f k) 0).toNat ≤ s.ticker → exec (.timeSync f k) s = .next (respond { s.begun f k with
         time := { s.time with wallOffset := s.req (mailKey f k) 1 - s.req (mailKey f k) 0, wallValid := true } }
         f k stOk [])) ∧
       (s.ticker < (s.req (mailKey f k) 0).toNat →
         exec (.timeSync f k) s = .next (respond (s.begun f k) f k stBadDescriptor [])))) ∧
  (∀ (s : State) (f : FnId) (k : SlotId), s.starts f k 0x41 → telemetryReserved s (mailKey f k) = false →
     (let kind := s.reqF (mailKey f k) 0 63 56
      let addr := (s.req (mailKey f k) 1).toNat
      let first := s.reqF (mailKey f k) 0 47 32
      let count := s.reqF (mailKey f k) 0 31 0
      let len := s.reqF (mailKey f k) 2 31 0
      let only := if f = 0 then none else some (Tbl.get 0 s.xl.fnCid f).toNat
      let l := wanted (s.begun f k) kind first count (len / recBytes kind) only
      let data := l.flatMap (fun i => wordsBytes (record (s.begun f k) kind i))
      ((f ≠ 0 ∧ kind ≠ 0x0D) ∨ addr % 64 ≠ 0 ∨ (kind ≠ 0x04 ∧ s.req (mailKey f k) 3 ≠ 0) →
        exec (.telemetryRead f k) s = .next (respond (s.begun f k) f k stBadDescriptor [])) ∧
      ((f = 0 ∨ kind = 0x0D) → addr % 64 = 0 → kind ≠ 0x04 → s.req (mailKey f k) 3 = 0 →
        exec (.telemetryRead f k) s = .next (respond (dmaBytes (forL l (fun i s => clearRec s kind i) (s.begun f k)) f
          addr true data) f k stOk [at_ 63 32 l.length ||| at_ 31 0 data.length])) ∧
      (f = 0 → addr % 64 = 0 → kind = 0x04 →
        (let counters := match s.versionKey (s.reqF (mailKey f k) 3 63 52) ((s.req (mailKey f k) 3).extractLsb' 36 16) with
          | none => []
          | some v => pageCounters (s.begun f k) v (s.reqF (mailKey f k) 3 35 0 + first) (min count len)
         exec (.telemetryRead f k) s = .next (respond (dmaBytes (s.begun f k) f addr true counters) f k stOk
           [at_ 63 32 counters.length ||| at_ 31 0 counters.length])))))

/-- R493, R494, R410, R412, R482: QUEUE_CREATE adds the queue, empty; QUEUE_DESTROY of a completion queue that no submission
queue names, or of an event, hot-page or fault queue, removes it; of a submission queue, it stops the queue and drops its entries.
R294, R432, R464, R393 to R395: FENCE_CORE fences the core and ends its jobs; UNFENCE unfences it with a zeroed scratchpad;
RESET_JOBS ends every job; the verification sweep counts what it finds. -/
def Obligations.AdminQueuesAndFences : Prop :=
  (∀ (s : State) (f : FnId) (k : SlotId),
     (let r := fun hi lo => s.reqF (mailKey f k) 0 hi lo
      let ring := s.req (mailKey f k) 1
      s.starts f k 0x20 → r 63 60 < 5 → r 27 0 = 0 → s.tailZero (mailKey f k) 2 = true →
      createOk s f (r 63 60) (r 59 55) (r 54 54) (r 53 46) (r 45 39) (r 38 28) ring = true →
      (r 63 60 = 0 → exec (.queueCreate f k) s = .next (respond { s.begun f k with sqs := s.sqs ++ [{
         fn := f, qid := r 53 46, ring := ring, log2 := r 59 55, lc := r 54 54 == 1, cq := r 45 39 }] } f k stOk [])) ∧
      (r 63 60 = 1 → exec (.queueCreate f k) s = .next (respond { s.begun f k with cqs := s.cqs ++ [{
         fn := f, cid := r 53 46, ring := ring, log2 := r 59 55, vector := r 38 28 }] } f k stOk [])) ∧
      (r 63 60 = 2 → exec (.queueCreate f k) s = .next (respond { s.begun f k with
         eq := some { ring := ring, log2 := r 59 55, vector := r 38 28 } } f k stOk [])) ∧
      (r 63 60 = 3 → exec (.queueCreate f k) s = .next (respond { s.begun f k with
         hq := some { ring := ring, log2 := r 59 55, vector := r 38 28 } } f k stOk [])) ∧
      (r 63 60 = 4 → exec (.queueCreate f k) s = .next (respond { s.begun f k with
         fq := some { ring := ring, log2 := r 59 55, vector := r 38 28 } } f k stOk []))) ∧
     (let r := fun hi lo => s.reqF (mailKey f k) 0 hi lo
      s.starts f k 0x20 → r 63 60 < 5 → r 27 0 = 0 → s.tailZero (mailKey f k) 2 = true →
      createOk s f (r 63 60) (r 59 55) (r 54 54) (r 53 46) (r 45 39) (r 38 28) (s.req (mailKey f k) 1) = false →
      exec (.queueCreate f k) s = .next (respond (s.begun f k) f k stBadDescriptor [])) ∧
     (s.starts f k 0x21 → s.reqF (mailKey f k) 0 59 54 = 0 → s.reqF (mailKey f k) 0 45 0 = 0 →
       s.tailZero (mailKey f k) 1 = true →
       (let q := s.reqF (mailKey f k) 0 53 46
        (s.reqF (mailKey f k) 0 63 60 = 0 → s.openSq f q = true → exec (.queueDestroy f k) s = .next (settleWaits
           { closeSq (s.begun f k) f q with adminWaits := s.adminWaits ++ [.destroy f k f q] })) ∧
        (s.reqF (mailKey f k) 0 63 60 = 1 → (s.cq? f q).isSome = true →
           s.sqs.any (fun x => x.fn == f.val && x.cq == q) = false →
           exec (.queueDestroy f k) s = .next (respond { s.begun f k with
             cqs := s.cqs.filter (fun x => !(x.fn == f.val && x.cid == q)) } f k stOk [])) ∧
        (s.reqF (mailKey f k) 0 63 60 = 2 → f = 0 → q = 0 → s.eq.isSome = true →
           exec (.queueDestroy f k) s = .next (respond { s.begun f k with eq := none, evHeld := [] } f k stOk [])) ∧
        (s.reqF (mailKey f k) 0 63 60 = 3 → f = 0 → q = 0 → s.hq.isSome = true →
           exec (.queueDestroy f k) s = .next (respond { s.begun f k with hq := none } f k stOk [])) ∧
        (s.reqF (mailKey f k) 0 63 60 = 4 → f = 0 → q = 0 → s.fq.isSome = true → s.anyDemand = false →
           exec (.queueDestroy f k) s = .next (respond { s.begun f k with fq := none } f k stOk [])) ∧
        (s.reqF (mailKey f k) 0 63 60 = 0 → s.openSq f q = false →
           exec (.queueDestroy f k) s = .next (respond (s.begun f k) f k stBadDescriptor []))))) ∧
  ((∀ (s : State) (f : FnId) (k : SlotId) (c : Nat), s.starts f k 0x28 → coreReserved s (mailKey f k) = false →
     s.reqF (mailKey f k) 0 6 0 = c → s.fitted c = true → (s.core c).fenced = false →
     ∃ t, exec (.fenceCore f k) s = .next t ∧ (t.core c).fenced = true ∧ (s.resetRun = none → t.dram = s.dram) ∧
       (∀ j ∈ s.jobs, j.status = none → c ∈ j.cores → t.lives j.id = false)) ∧
   (∀ (s : State) (f : FnId) (k : SlotId) (c : Nat), s.starts f k 0x29 → coreReserved s (mailKey f k) = false →
     s.reqF (mailKey f k) 0 6 0 = c → s.fitted c = true → (s.core c).fenced = true →
     ∃ t, exec (.unfence f k) s = .next t ∧ t.core c = { s.core c with fenced := false, scratch := {} } ∧
       (∀ i, i ≠ c → t.core i = s.core i) ∧ (t.mail (mailKey f k)).state = 3 ∧ (t.mail (mailKey f k)).status = stOk ∧
       t.dram = s.dram ∧ t.jobs = s.jobs ∧ t.hedges = s.hedges) ∧
   (∀ (s : State) (f : FnId) (k : SlotId), s.starts f k 0x2A → s.reqF (mailKey f k) 0 63 1 = 0 →
     s.tailZero (mailKey f k) 1 = true → s.resetRun = none →
     exec (.resetJobs f k) s = .next (resetGo { (if s.sched.state = .admitting then endAll (reloadUlizor (s.begun f k)) stLost
         else reloadUlizor (s.begun f k)) with
       sched := { (if s.sched.state = .admitting then endAll (reloadUlizor (s.begun f k)) stLost
           else reloadUlizor (s.begun f k)).sched with
         state := .resetting }
       resetRun := some { fn := f, slot := k, verify := bit (s.req (mailKey f k) 0) 0 } })) ∧
   (∀ (s : State) (r : ResetRun), s.fwRuns = true → s.resetRun = some r → r.zeroed = true →
     exec .verificationSweep s = .next (finishReset (upIg s (fun g => { g with
       sweepBlocks := s.sweep.countP (fun e => e.2.2 != .skipped)
       sweepFailed := s.sweep.countP (fun e => e.2.2 == .failed || e.2.2 == .poisoned) })) r (sweepReport s.sweep))))

/-- R74, R76, R160, R328, R469, R494: the rows of SET_MODE that the request applies; the lock and the scrub interval go through
the 12 wardens. R617, R400: SET_POWER_CAP and SET_GROOM_POLICY, with the values they refuse. -/
def Obligations.AdminModesAndPolicies : Prop :=
  (∀ (s : State) (f : FnId) (k : SlotId), s.starts f k 0x30 → modeReserved s (mailKey f k) = false →
     modeOk s (mailKey f k) = true → (s.mail (mailKey f k)).applied = 0 →
     (∀ w ∈ s.adminWaits, ∀ l b, w ≠ .wardens f k l (.mode b)) →
     (let a := s.req (mailKey f k) 0
      let m := s.req (mailKey f k) 1
      let u := s.begun f k
      (bit a 0 = true → exec (.setModeDeterminism f k) s =
        .next (modeDone { u with modes := { s.modes with repro := bit m 62 } } f k 0)) ∧
      (bit a 1 = true → exec (.setModeChannelLock f k) s = .next (awaitWardens (tellWardens
        { u with modes := { s.modes with chlock := bit m 63 } } (fun _ => .lock (bit m 63))) f k (.mode 1))) ∧
      (bit a 2 = true → exec (.setModeScrub f k) s = .next (awaitWardens (tellWardens
        { u with modes := { s.modes with scrubH := fld m 61 54 } } (fun _ => .scrub (fld m 61 54))) f k (.mode 2))) ∧
      (bit a 3 = true → exec (.setModeCounterPolicy f k) s = .next (modeDone { u with policyNext := {
          epochMs := s.reqF (mailKey f k) 2 63 48, sampleShift := s.reqF (mailKey f k) 2 47 44,
          hotThreshold := s.reqF (mailKey f k) 2 43 36, hotScope := s.reqF (mailKey f k) 2 35 35 } } f k 3)) ∧
      (bit a 4 = true → exec (.setModeFreezeMask f k) s =
        .next (modeDone { u with upd := { s.upd with freeze := m.extractLsb' 38 16 } } f k 4)))) ∧
  (∀ (s : State) (f : FnId) (k : SlotId),
     (s.starts f k 0x31 → s.reqF (mailKey f k) 0 63 16 = 0 → s.tailZero (mailKey f k) 1 = true →
       exec (.setPowerCap f k) s = .next (if 400 ≤ s.reqF (mailKey f k) 0 15 0 ∧ s.reqF (mailKey f k) 0 15 0 ≤ 1200 then
           respond { s.begun f k with pwr := { s.pwr with capNext := s.reqF (mailKey f k) 0 15 0 } } f k stOk
             [at_ 15 0 (s.reqF (mailKey f k) 0 15 0)]
         else respond (s.begun f k) f k stBadDescriptor [])) ∧
     (s.starts f k 0x32 → s.reqF (mailKey f k) 0 31 0 = 0 → s.tailZero (mailKey f k) 1 = true →
       (let w := s.req (mailKey f k) 0
        exec (.setGroomPolicy f k) s = .next (if 60 ≤ fld w 48 32 ∧ fld w 48 32 ≤ 86400 ∧ 1 ≤ fld w 55 49 ∧
             fld w 55 49 ≤ 64 then
           respond { s.begun f k with ig := { s.ig with groom := { s.ig.groom with
             enable := bit w 63, arbitrate := bit w 62, suite := w.extractLsb' 56 6, depth := fld w 55 49,
             periodS := fld w 48 32 } } } f k stOk []
         else respond (s.begun f k) f k stBadDescriptor []))))

/-- R584, R585: FW_STAGE writes the inactive region; FW_ACTIVATE switches the boot record to it where its image verifies and the
module is idle, and refuses otherwise. -/
def Obligations.AdminFirmware : Prop :=
  ∀ (s : State) (f : FnId) (k : SlotId),
    (∀ piece : HostRd, s.starts f k 0x50 → s.reqF (mailKey f k) 2 63 1 = 0 → s.tailZero (mailKey f k) 3 = true →
      s.reqF (mailKey f k) 1 63 32 % 8 = 0 → s.reqF (mailKey f k) 1 31 0 % 8 = 0 →
      s.reqF (mailKey f k) 1 63 32 + s.reqF (mailKey f k) 1 31 0 ≤ 64 * 2 ^ 20 →
      exec (.fwStage f k piece) s = .next (
        if s.blocked f then s.begunWaits f k
        else if piece.ok then respond { s.begun f k with
          flash := s.flash.stage (bit (s.req (mailKey f k) 2) 0) (s.reqF (mailKey f k) 1 63 32)
            (slice piece.bytes 0 (s.reqF (mailKey f k) 1 31 0)) } f k stOk []
        else respond (s.begunRead f k false) f k stBadDescriptor [])) ∧
    (s.starts f k 0x51 → s.reqF (mailKey f k) 0 63 32 = 0 → s.tailZero (mailKey f k) 1 = true →
      (let image := slice (s.flash.region (!s.flash.boot.active)) 0 (s.reqF (mailKey f k) 0 31 0)
       let idle := !s.model && s.sqs.isEmpty && s.cqs.isEmpty && s.hq.isNone && s.fq.isNone
       ∃ t, exec (.fwActivate f k) s = .next t ∧
         (if idle && imageOk image s.flash.svn then
            t.flash.boot.active = (!s.flash.boot.active) ∧ s.flash.svn ≤ t.flash.svn ∧ t.eq = none ∧ t.version f = none ∧
            t.dram = s.dram ∧ (t.mail (mailKey f k)).state = 3 ∧ (t.mail (mailKey f k)).status = stOk
          else t = respond (s.begun f k) f k stBadDescriptor [])))

/-- R414, R415, R522: Gondola's next burst, LC before BE, asks for entries from FETCH on; a burst that arrives fills the
descriptor buffer, with no words where an entry failed. R428 to R431, R444, R460: firmware parses the next ready submission,
LC before BE; one that passes every check becomes a job whose commands wait, bound to the versions that are CURRENT; one that
fails posts its refusal and becomes no job. -/
def Obligations.Submissions : Prop :=
  ((∀ (s : State) (q : SubQ), s.powered = true →
     (s.nextBurstOf true = some q ∨ (s.nextBurstOf true = none ∧ s.nextBurstOf false = some q)) →
     ∃ t, exec .gondolaBurst s = .next t ∧
       t.bursts = s.bursts ++ [⟨s.nextBurst, q.fn, q.qid, q.fetch, q.burst (s.bufferRoom q.lc)⟩] ∧
       t.nextBurst = s.nextBurst + 1 ∧
       t.sqs = updFirst (fun x => x.fn == q.fn && x.qid == q.qid)
         (fun x => { x with fetch := (x.fetch + q.burst (s.bufferRoom q.lc)) % 2 ^ x.log2 }) s.sqs ∧
       t.dram = s.dram ∧ t.jobs = s.jobs ∧ t.cores = s.cores ∧ t.dbuf = s.dbuf) ∧
   (∀ (s : State) (b : Burst) (data : List PWord) (failed : List Nat), s.powered = true →
     s.bursts.find? (fun x => x.id == b.id) = some b →
     (let es := (List.range b.count).map (fun i => (DEntry.mk b.fn b.qid (b.first + i) (arrivedEntry data failed i) none))
      exec (.gondolaBurstDone b.id data failed) s = .next { s with
        bursts := s.bursts.filter (fun x => x.id != b.id)
        dbuf := s.dbuf ++ es
        link := { s.link with rxFailed := s.link.rxFailed + b2n (es.any (fun e => e.words.isNone)) } }))) ∧
  ((∀ (s : State) (q : SubQ), s.fwRuns = true → s.sched.state = .admitting → s.model = true → s.swapDue = false →
     (s.nextParse true = some q ∨ (s.nextParse true = none ∧ s.nextParse false = some q)) →
     exec .submissionParse s = .next (parseQueue s q)) ∧
   (∀ (s : State) (q : SubQ) (cid : BitVec 12) (n : Nat) (descs : List (List Word)), 0 < n →
     (List.range n).map (fun i => (s.dentry q i).bind (·.words)) = descs.map some →
     (let d := descs.getD 0 []
      let w := walkCmds s ⟨descs, q.lc, fld (wd d 0) 44 38, s.routines.active, bit (wd d 0) 35⟩ n 1 0 false
      (firstFail (jobFails s d q.lc w.1 ++ w.2) = none →
        ∃ j, (parseFull s q cid n).jobs = s.jobs ++ [j] ∧ j.id = s.sched.nextJob + 1 ∧ j.cmds = w.1 ∧ j.cid = cid ∧
          j.fn = q.fn ∧ j.sq = q.qid ∧ j.cq = q.cq ∧ j.lc = q.lc ∧ j.binds = s.currentVersions ∧ j.status = none ∧
          j.bank = s.routines.active ∧ j.tag.toNat = fld (wd d 1) 63 32 ∧ (parseFull s q cid n).dram = s.dram ∧
          (parseFull s q cid n).cores = s.cores) ∧
      (∀ c i, firstFail (jobFails s d q.lc w.1 ++ w.2) = some (c, i) →
        parseFull s q cid n = refuseSub s q n (fld (wd d 1) 63 32) cid (checkStatus c) i ∧
        (parseFull s q cid n).jobs = s.jobs ∧ (parseFull s q cid n).dram = s.dram))))

/-- R31, R291, R419 to R422, R425, R448: firmware relays a CALL to its core; a BARRIER completes once every command before it
has; a SCHUSS writes its payload; a COPY runs its tiles. R421, R422: a tile of a COPY from a scratchpad to the host writes
the words it read to the host, in order, and is counted; a tile whose footprint fails ends the job. -/
def Obligations.JobCommands : Prop :=
  (∀ (s : State) (job idx : Nat) (j : Job) (k : JobCmd), s.powered = true → s.job job = some j → j.cmd? idx = some k →
     j.status = none →
     (k.type = 2 → s.fwRuns = true → s.sched.state ≠ .faulted → s.nextRelay = some (job, idx) →
       (let p : PendCall := ⟨ownerOf j idx, j.bank, fld (wd k.words 0) 48 39,
          (k.words.drop 2).take (fld (wd k.words 0) 38 35), false⟩
        exec (.call job idx) s = .next (cmdMark (upCore s (j.coreOf k.slot) (fun x =>
          if j.lc then { x with callsLc := x.callsLc ++ [p] } else { x with callsBe := x.callsBe ++ [p] }))
          (ownerOf j idx) .relayed))) ∧
     (k.type = 3 → j.mayStart k = true → (∀ e ∈ j.cmds, e.idx < idx → e.state = .done) →
       exec (.barrier job idx) s = .next (cmdMark s (ownerOf j idx) .done)) ∧
     (k.type = 3 → (∃ e ∈ j.cmds, e.idx < idx ∧ e.state ≠ .done) → exec (.barrier job idx) s = .next s) ∧
     (k.type = 4 → j.mayStart k = true → s.mayBegin (j.coreOf k.slot) job = true →
       exec (.schuss job idx) s = .next (cmdMark (freePayload (spWrite (settleOn s (j.coreOf k.slot) job) (j.coreOf k.slot)
         (ownerOf j idx) (fld (wd k.words 0) 24 0) (s.payload job k)) job idx) (ownerOf j idx) .done)) ∧
     (∀ ext, k.type = 5 → k.state = .running ∨ j.mayStart k = true →
       ((parseCopy k.words).dk ≠ 2 →
         exec (.copy job idx ext) s = .next (copyRun j k ext (cmdMark s (ownerOf j idx) .running))) ∧
       ((parseCopy k.words).dk = 2 →
         (s.mayBegin (j.coreOf (parseCopy k.words).ds) job = true → exec (.copy job idx ext) s =
           .next (copyRun j k ext (settleOn (cmdMark s (ownerOf j idx) .running) (j.coreOf (parseCopy k.words).ds) job))) ∧
         (s.mayBegin (j.coreOf (parseCopy k.words).ds) job = false → exec (.copy job idx ext) s = .next s)))) ∧
  (∀ (s : State) (j : Job) (o : Owner) (m : CopyD) (ext : List PWord) (t : Nat),
     (∀ st u, tileWalk s (m.unit (j.coreOf (if m.sk = 2 then m.ss else m.ds))) o.cid
         (if m.sk = 1 then [(m.src + 4096 * t, min 4096 (m.len - 4096 * t), false)] else [])
         (if m.dk = 1 then [(m.dst + 4096 * t, min 4096 (m.len - 4096 * t), true)] else []) = (u, .bad st) →
       copyTile j o m ext t s = (failJob u o st, false)) ∧
     (m.sk = 2 → m.dk = 0 →
       (let c := j.coreOf m.ss
        let n := min 4096 (m.len - 4096 * t)
        let u := spTouch s c (m.src + 4096 * t) n
        (copyTile j o m ext t s).1 =
          copyTiles (writeHost u j.fn o (m.dst + 4096 * t) (u.spW c (m.src + 4096 * t) (n / 8))) o (t + 1))))

/-- R433 to R435, R460: a job whose commands have all completed ends well and posts its entry, unless an earlier job of its
completion queue has still to post; it then leaves. R405 to R407: a job fault gives its owner's job the status, every other
live job ST_LOST, enters FAULTED unless STOPPED, is counted, raises one event, and changes nothing of the base state. -/
def Obligations.JobEnds : Prop :=
  (∀ (s : State) (job : Nat) (j : Job), s.fwRuns = true → s.job job = some j →
     (j.status.isSome = true → s.behind j = false → j.silent = true ∨ s.unissued j = false →
       exec (.jobCompletion job) s = .next (runGrads (postJob s j))) ∧
     (j.status.isSome = true → j.silent = false → s.unissued j = true → exec (.jobCompletion job) s = .next s) ∧
     (j.status.isSome = true → s.behind j = true → exec (.jobCompletion job) s = .next s) ∧
     (j.status = none → j.allDone = false → exec (.jobCompletion job) s = .next s) ∧
     (j.status = none → j.allDone = true → (∀ x ∈ s.jobs, x.id ≠ job → x.status = none) → s.unissued j = false → ∃ j' t,
       (endJob s job j.endStatus 0xFFFF).job job = some j' ∧ j'.status = some j.endStatus ∧
       exec (.jobCompletion job) s = .next t ∧ t = runGrads (postJob (endJob s job j.endStatus 0xFFFF) j'))) ∧
  (∀ (s : State) (id : Nat) (j : Job) (st : Status) (idx : BitVec 16), s.job id = some j → j.status = none →
     ∀ k, Tbl.get {} (endJob s id st idx).ctxRec k = (let x : CtxRec := Tbl.get {} s.ctxRec k
       if k = j.cid.toNat then
         (if endsWell st then { x with completed := x.completed + 1, preempted := x.preempted + b2n (st == stPreempted) }
          else if st = stLost then { x with lost := x.lost + 1 } else { x with failed := x.failed + 1 })
       else x)) ∧
  (∀ (s : State) (o : Owner) (st : Status) (pa : Word) (ch : Nat),
     (jobFault s o st pa ch).base = s.base ∧
     (jobFault s o st pa ch).evSeq = s.evSeq + 1 ∧
     (jobFault s o st pa ch).ig.jobFaults = s.ig.jobFaults + 1 ∧
     (jobFault s o st pa ch).sched.state = (if s.sched.state = .stopped then .stopped else .faulted) ∧
     (∀ id, (jobFault s o st pa ch).lives id = false) ∧
     (∀ id j, s.job id = some j → ∃ j', (jobFault s o st pa ch).job id = some j' ∧
       j'.status = (if j.status = none then some (if id = o.job then st else stLost) else j.status)))

/-- R81 to R84, R268, R358: the move at the head of a MOVE queue is refused as its fields say, or copied tile by tile; a plain
tile that arrives whole lands at its destination in the scratchpad; the entry leaves once every write is acknowledged. R82,
R83: a transposed tile: element r of its row c is element c of the source's row r. -/
def Obligations.MovesAndTranspositions : Prop :=
  ((∀ (s : State) (c : CoreId) (ext : List PWord) (e : QEntry) (l : List QEntry), s.powered = true →
     (s.core c).qMove = e :: l → s.tileWaits e.owner (some c) none = false →
     (s.moveTurn c e = false → exec (.moveDescriptor c ext) s = .next s) ∧
     (s.moveTurn c e = true → anyPoison e.desc = true →
       exec (.moveDescriptor c ext) s = .next (failJob (takeMove s c e) e.owner stPoisoned)) ∧
     (s.moveTurn c e = true → anyPoison e.desc = false → ∀ st, moveRefusal (pdata e.desc) = some st →
       exec (.moveDescriptor c ext) s = .next (failJob (takeMove s c e) e.owner st)) ∧
     (s.moveTurn c e = true → anyPoison e.desc = false → moveRefusal (pdata e.desc) = none →
       exec (.moveDescriptor c ext) s = .next (moveTiles c e.owner (parseMove (pdata e.desc)) ext
         ((parseMove (pdata e.desc)).tiles - e.tilesDone) e.tilesDone (takeMove s c e))) ∧
     (e.owner.lc = false → e.begun = false → (∃ k : Nat, moverOf k = moverOf c ∧ s.moveWaits k true = true) →
       exec (.moveDescriptor c ext) s = .next s) ∧
     (e.begun = true → (parseMove (pdata e.desc)).tiles ≤ e.tilesDone → s.quiet e.owner = true →
       exec (.moveComplete c) s = .next (upCore s c (fun k => { k with qMove := l }))) ∧
     (s.quiet e.owner = false → exec (.moveComplete c) s = .next s)) ∧
   (∀ (s s' u : State) (c : CoreId) (o : Owner) (m : MoveD) (ext w : List PWord) (t : Nat), m.transp = false →
     m.srcSp = false → m.dstSp = true →
     (let a := m.src + 4096 * t
      let n := min 4096 (m.len - 4096 * t)
      tileWalk s (uMover (moverOf c)) o.cid [(a, n, false)] [] = (s', .ok) →
      gather s' o ext (spans s' (uMover (moverOf c)) o.cid a n false) = (u, some w) → n = 8 * w.length →
      (verifyTile u (uMover (moverOf c)) o.cid m.src m.len a n).2 = none →
      ∀ i, ((moveTile c o m ext t s).1.core c).scratch.word i =
        if (m.dst + 4096 * t) / 8 ≤ i ∧ i < (m.dst + 4096 * t) / 8 + w.length then
          (if (w.getD (i - (m.dst + 4096 * t) / 8) PWord.bad).poison then .bad
            else .good (w.getD (i - (m.dst + 4096 * t) / 8) PWord.bad).data)
        else (u.core c).scratch.word i))) ∧
  (∀ (k : Nat) (rows : List (List PWord)), k < 4 → rows.length = 32 →
     (let esize := 4 * 2 ^ k
      (∀ row ∈ rows, row.length = esize / 2 ∧ anyPoison row = false) →
      ∀ r c, r < 32 → c < 32 →
        rowElem esize ((transposeTile esize rows).getD c []) r = rowElem esize (rows.getD r []) c))

/-- R277 to R279: a scalar op writes its result to DST where that is an S register, counts, and goes on to the next op; no other
core and nothing else changes. R277, R278: what DST can name: an S register takes the value, any other code leaves every
register as it was. R397, R399: a scalar op whose residue check fails writes no register: its job ends with ST_ARITH and
every other with ST_LOST. -/
def Obligations.SeqScalar : Prop :=
  (∀ (s : State) (c : CoreId) (v : Invocation) (w : Word), s.atOp c v w →
     (let a := v.src1 w
      let b := v.src2 w
      let imm : Word := (w.extractLsb' 0 32).signExtend 64
      let table : List (Instr × Nat × Word) := [
        (.seqMovi c, 0x10, imm),
        (.seqMovhi c, 0x11, (w.extractLsb' 0 32).zeroExtend 64 <<< 32 |||
          ((v.reg (Invocation.dst w)).extractLsb' 0 32).zeroExtend 64),
        (.seqMov c, 0x12, a), (.seqAdd c false, 0x13, a + b), (.seqSub c false, 0x14, a - b),
        (.seqMul c false, 0x15, a * b), (.seqAnd c false, 0x16, a &&& b), (.seqOr c false, 0x17, a ||| b),
        (.seqXor c false, 0x18, a ^^^ b), (.seqShl c false, 0x19, a <<< (b.toNat % 64)),
        (.seqShr c false, 0x1A, a >>> (b.toNat % 64)), (.seqSra c false, 0x1B, a.sshiftRight (b.toNat % 64)),
        (.seqMin c, 0x1C, if a.toInt ≤ b.toInt then a else b), (.seqMax c, 0x1D, if a.toInt ≤ b.toInt then b else a),
        (.seqAddi c false, 0x1E, a + imm), (.seqMuli c false, 0x1F, a * imm), (.seqMadi c false, 0x20, a + b * imm),
        (.seqShli c false, 0x21, a <<< (imm.toNat % 64)), (.seqShri c false, 0x22, a >>> (imm.toNat % 64)),
        (.seqAndi c false, 0x23, a &&& (w.extractLsb' 0 32).zeroExtend 64)]
      ∀ i code x, (i, code, x) ∈ table → opCode w = code → ∃ t, exec i s = .next t ∧
        t.core c = (s.core c).ran ((v.setReg (Invocation.dst w) x).after v.pc) ∧
        (∀ k, k ≠ c.val → t.core k = s.core k) ∧ t = { s with cores := t.cores })) ∧
  (∀ (v : Invocation) (code k : Nat) (x : Word), (v.setReg code x).reg k =
     (if k = code ∧ 16 ≤ code ∧ code < 31 then x else v.reg k)) ∧
  (∀ (s : State) (c : CoreId) (v : Invocation) (w : Word) (j : Job), s.atOp c v w → s.job v.owner.job = some j →
     j.status = none →
     ∀ i code, (i, code) ∈ ([(.seqAdd c true, 0x13), (.seqSub c true, 0x14), (.seqMul c true, 0x15),
         (.seqAnd c true, 0x16), (.seqOr c true, 0x17), (.seqXor c true, 0x18), (.seqShl c true, 0x19),
         (.seqShr c true, 0x1A), (.seqSra c true, 0x1B), (.seqAddi c true, 0x1E), (.seqMuli c true, 0x1F),
         (.seqMadi c true, 0x20), (.seqShli c true, 0x21), (.seqShri c true, 0x22), (.seqAndi c true, 0x23)] :
         List (Instr × Nat)) → opCode w = code →
     ∃ t, exec i s = .next t ∧ t.base = s.base ∧ t.evSeq = s.evSeq + 3 ∧ (∀ id, t.lives id = false) ∧
       ∃ j', t.job v.owner.job = some j' ∧ j'.status = some stArith)

/-- R279, R283 to R287: NOP, loops, WAIT and RET; a WAIT or an ISSUE that waited goes on once its condition holds. R283, R285: a
loop repeats its body COUNT times, and an op whose condition fails does nothing but take its step, a LOOP skipping its body. -/
def Obligations.SeqControl : Prop :=
  ((∀ (s : State) (c : CoreId) (v : Invocation) (w : Word), s.atOp c v w →
     ∀ i u, (i, u) ∈ ([
         (.seqNop c, if opCode w = 0x00 then some (v.after v.pc) else none),
         (.seqRet c, if opCode w = 0x01 then some { v with wait := .ret } else none),
         (.seqLoop c, if opCode w = 0x02 then
             (if fld w 31 0 = 0 then some (v.after (v.pc + 1 + fld w 49 35))
              else some { v with loops := ⟨0, fld w 31 0, v.pc + 1, v.pc + 1 + fld w 49 35⟩ :: v.loops, pc := v.pc + 1 })
           else none),
         (.seqLoopr c, if opCode w = 0x03 ∧ (v.reg (fld w 31 27)).toNat < 2 ^ 32 then
             (if (v.reg (fld w 31 27)).toNat = 0 then some (v.after (v.pc + 1 + fld w 49 35))
              else some { v with
                loops := ⟨0, (v.reg (fld w 31 27)).toNat, v.pc + 1, v.pc + 1 + fld w 49 35⟩ :: v.loops, pc := v.pc + 1 })
           else none),
         (.seqWait c, if opCode w = 0x04 then
             (if (s.core c).waitHolds v.owner (fld w 49 45) (fld w 44 41) then some (v.after v.pc)
              else some { v with wait := .wait (fld w 49 45) (fld w 44 41) })
           else none)] : List (Instr × Option Invocation)) →
       ∀ x, u = some x → ∃ t, exec i s = .next t ∧ t.core c = (s.core c).ran x ∧
         (∀ k, k ≠ c.val → t.core k = s.core k) ∧ t = { s with cores := t.cores }) ∧
   (∀ (s : State) (c : CoreId) (v : Invocation) (mask n : Nat), s.powered = true → (s.core c).seq = some v →
     v.wait = .wait mask n → (s.core c).waitHolds v.owner mask n = true →
     ∃ t, exec (.waitConditionMet c) s = .next t ∧ (t.core c).seq = some (v.after v.pc) ∧
       (∀ k, k ≠ c.val → t.core k = s.core k) ∧ t = { s with cores := t.cores, freeCtr := s.freeCtr + 1 }) ∧
   (∀ (s : State) (c : CoreId) (v : Invocation) (mask n : Nat), s.powered = true → (s.core c).seq = some v →
     v.wait = .wait mask n → (s.core c).waitHolds v.owner mask n = false → exec (.waitConditionMet c) s = .next s)) ∧
  ((∀ (l : LoopLv) (rest : List LoopLv), l.index + 1 < l.count →
     closeLoops (l :: rest) l.last = ({ l with index := l.index + 1 } :: rest, l.first)) ∧
   (∀ (l : LoopLv) (rest : List LoopLv), l.count ≤ l.index + 1 → closeLoops (l :: rest) l.last = closeLoops rest l.last) ∧
   (∀ (l : LoopLv) (rest : List LoopLv) (p : Nat), p ≠ l.last → closeLoops (l :: rest) p = (l :: rest, p + 1)) ∧
   (∀ (s : State) (c : CoreId) (v : Invocation) (w : Word), s.powered = true → s.running c = some v →
     Tbl.get 0 s.routines.words (32768 * v.bank + v.pc) = w → Tbl.get 0 (s.core c).storeSyn (32768 * v.bank + v.pc) = 0 →
     v.holds w = false → (opCode w = 0x13 → ∃ t, exec (.seqAdd c false) s = .next t ∧
       t.core c = (s.core c).ran (v.after v.pc) ∧ t = { s with cores := t.cores }) ∧
     (opCode w = 0x02 → ∃ t, exec (.seqLoop c) s = .next t ∧
       t.core c = (s.core c).ran (v.after (v.pc + 1 + fld w 49 35)) ∧ t = { s with cores := t.cores })))

/-- R279 to R281, R271: STORE, PATCH, COPYD, ZERO and CLIP_RC write exactly their words of the scratchpad. R280: a scratchpad op
that leaves the scratchpad or is not aligned ends its job with ST_BAD_DESCRIPTOR and writes nothing. -/
def Obligations.SeqMemory : Prop :=
  (∀ (s : State) (c : CoreId) (v : Invocation) (w : Word), s.atOp c v w →
     (let a := v.addr w
      let x := v.src1 w
      let m := (s.core c).scratch
      let p := a + 8 * fld w 39 37
      let lsb := fld w 36 31
      let n := fld w 30 25 + 1
      (opCode w = 0x30 → spRange a 8 8 = true → ∃ t, exec (.seqStore c) s = .next t ∧ t.base = s.base ∧
        (t.core c).seq = some (v.after v.pc) ∧ (∀ k, k ≠ c.val → t.core k = s.core k) ∧
        ∀ i, (t.core c).scratch.word i = if i = a / 8 then .good x else m.word i) ∧
      (opCode w = 0x31 → spRange a 64 64 = true → ∃ t, exec (.seqPatch c) s = .next t ∧ t.base = s.base ∧
        (t.core c).seq = some (v.after v.pc) ∧ (∀ k, k ≠ c.val → t.core k = s.core k) ∧
        (∀ i, i ≠ p / 8 → (t.core c).scratch.word i = m.word i) ∧
        ((m.word (p / 8)).poison = true → n < 64 → (t.core c).scratch.word (p / 8) = .bad) ∧
        ((m.word (p / 8)).poison = false → ((t.core c).scratch.word (p / 8)).poison = false ∧
          ∀ b, b < 64 → ((t.core c).scratch.word (p / 8)).data.getLsbD b =
            if lsb ≤ b ∧ b < lsb + n then x.getLsbD (b - lsb) else (m.word (p / 8)).data.getLsbD b)) ∧
      (opCode w = 0x32 → spRange a 64 64 = true → spRange x.toNat 64 64 = true →
        ∃ t, exec (.seqCopyd c) s = .next t ∧ t.base = s.base ∧ (t.core c).seq = some (v.after v.pc) ∧
          (∀ k, k ≠ c.val → t.core k = s.core k) ∧
          ∀ i, (t.core c).scratch.word i = if a / 8 ≤ i ∧ i < a / 8 + 8 then m.word (x.toNat / 8 + (i - a / 8))
            else m.word i) ∧
      (opCode w = 0x33 → x.toNat ≤ 327680 → spRange a 64 (64 * x.toNat) = true →
        ∃ t, exec (.seqZero c) s = .next t ∧ t.base = s.base ∧ (t.core c).seq = some (v.after v.pc) ∧
          (∀ k, k ≠ c.val → t.core k = s.core k) ∧
          ∀ i, (t.core c).scratch.word i = if a / 8 ≤ i ∧ i < a / 8 + 8 * x.toNat then .good 0 else m.word i) ∧
      (opCode w = 0x51 → spRange a 8 8 = true → ∃ t, exec (.clipRc c) s = .next t ∧ t.base = s.base ∧
        (t.core c).seq = some (v.after v.pc) ∧
        (∀ k, Tbl.get 0 (t.core c).clipped k = if k = fld w 39 37 then 0 else Tbl.get 0 (s.core c).clipped k) ∧
        (∀ k, Tbl.get 0 (t.core c).clipTotal k = if k = fld w 39 37 then 0 else Tbl.get 0 (s.core c).clipTotal k) ∧
        ∀ i, (t.core c).scratch.word i = if i = a / 8 then .good ((s.core c).clipWord (fld w 39 37)) else m.word i) ∧
      (opCode w = 0x50 →
        ((∃ i, i ≤ fld w 49 44 ∧ s.cbInstalled (fld w 43 32 + i) = false) → ∃ t, exec (.cbFetch c) s = .next t ∧
          t = { s with cores := t.cores } ∧ (t.core c).seq = some (v.after v.pc) ∧
          (t.core c).cbUnit = (s.core c).cbUnit ∧ (t.core c).scratch = m) ∧
        ((∀ i, i ≤ fld w 49 44 → s.cbInstalled (fld w 43 32 + i) = true) → ∃ t, exec (.cbFetch c) s = .next t ∧
          (t.core c).seq = some (v.after v.pc) ∧ (t.core c).scratch = m ∧ t.jobs = s.jobs ∧
          (∀ n, t.dram.word n = s.dram.word n) ∧ (∀ k, k ≠ c.val → t.core k = s.core k) ∧
          ((∀ i, i ≤ fld w 49 44 → (s.cbStored (fld w 43 32 + i)).isSome = true) → ∀ i, i ≤ fld w 49 44 →
            (cbHeld (t.core c).cbUnit (fld w 43 32 + i)).isSome = true))))) ∧
  (∀ (s : State) (c : CoreId) (v : Invocation) (w : Word) (j : Job), s.atOp c v w → s.job v.owner.job = some j →
     j.status = none → opCode w = 0x30 → spRange (v.addr w) 8 8 = false →
     ∃ t, exec (.seqStore c) s = .next t ∧ t.base = s.base ∧ (t.core c).scratch = (s.core c).scratch ∧
       ∃ j', t.job v.owner.job = some j' ∧ j'.status = some stBadDescriptor)

/-- R264, R265, R286: an ISSUE op puts a copy of its descriptor into its queue and goes on, or waits while the queue is full; one
that waited captures its descriptor once an entry is free. R290, R291, R448 to R456: a pending CALL starts, LC before BE, at
its routine's first op; RET completes the invocation and its command; a live region is saved when other work waits, and comes
back before its job goes on. -/
def Obligations.IssueAndInvocations : Prop :=
  ((∀ (s : State) (c : CoreId) (v : Invocation) (w : Word), s.atOp c v w → spRange (v.addr w) 64 64 = true →
     ∀ i code q, (i, code, q) ∈ ([(.issueArray c, 0x40, 0), (.issueVector c, 0x41, 1), (.issueLookup c, 0x42, 2),
         (.issueMove c, 0x43, 3), (.issueScatter c, 0x44, 4)] : List (Instr × Nat × Nat)) → opCode w = code →
     ∃ t, exec i s = .next t ∧ t.base = s.base ∧ (∀ k, k ≠ c.val → t.core k = s.core k) ∧
       (∀ n, (t.core c).scratch.word n = (s.core c).scratch.word n) ∧
       (((s.core c).queue q).length < queueDepth q →
         (t.core c).queue q = (s.core c).queue q ++
           [⟨(s.core c).scratch.words (v.addr w / 8) 8, v.addr w, v.owner, false, 0⟩] ∧
         (t.core c).seq = some (v.after v.pc)) ∧
       (queueDepth q ≤ ((s.core c).queue q).length →
         (t.core c).queue q = (s.core c).queue q ∧ (t.core c).seq = some { v with wait := .issue q (v.addr w) })) ∧
   (∀ (s : State) (c : CoreId) (v : Invocation) (q a : Nat), s.powered = true → (s.core c).seq = some v →
     v.wait = .issue q a → q < 5 → ((s.core c).queue q).length < queueDepth q →
     ∃ t, exec (.issueCapture c) s = .next t ∧
       (t.core c).queue q = (s.core c).queue q ++ [⟨(s.core c).scratch.words (a / 8) 8, a, v.owner, false, 0⟩] ∧
       (t.core c).seq = some (v.after v.pc) ∧ t.freeCtr = s.freeCtr + 1 ∧ t.dram = s.dram ∧ t.jobs = s.jobs ∧
       (∀ k, k ≠ c.val → t.core k = s.core k) ∧ (∀ n, (t.core c).scratch.word n = (s.core c).scratch.word n))) ∧
  ((∀ (s : State) (c : CoreId) (p : PendCall) (rest : List PendCall) (w : Word), s.powered = true →
     (s.core c).seq = none → s.mayBegin c p.owner.job = true →
     Tbl.get 0 s.routines.words (32768 * p.bank + p.routine) = w →
     Tbl.get 0 (s.core c).storeSyn (32768 * p.bank + p.routine) = 0 →
     ((s.core c).callsLc = p :: rest → ∃ t, exec (.sequencerCallStart c) s = .next t ∧ (t.core c).callsLc = rest ∧
       (t.core c).seq = some ⟨p.owner, p.bank, p.routine, fld w 62 48, p.args, [], [], .running⟩ ∧
       (∀ k, k ≠ c.val → t.core k = s.core k) ∧ t.dram = s.dram ∧ t.hedges = s.hedges) ∧
     ((s.core c).callsLc = [] → (s.core c).callsBe = p :: rest → (s.hedge (c / 6)).beHeld = false →
       ∃ t, exec (.sequencerCallStart c) s = .next t ∧ (t.core c).callsBe = rest ∧
         (t.core c).seq = some ⟨p.owner, p.bank, p.routine, fld w 62 48, p.args, [], [], .running⟩ ∧
         (∀ k, k ≠ c.val → t.core k = s.core k) ∧ t.dram = s.dram ∧ t.hedges = s.hedges ∧ t.sched = s.sched) ∧
     ((s.core c).callsLc = [] → (s.core c).callsBe = p :: rest → (s.hedge (c / 6)).beHeld = true →
       exec (.sequencerCallStart c) s = .next (delayStart s c))) ∧
   (∀ (s : State) (c : CoreId) (v : Invocation), s.powered = true → (s.core c).seq = some v → v.wait = .ret →
     ((s.core c).waitHolds v.owner 31 0 = true → ∃ t, exec (.invocationComplete c) s = .next t ∧
       (t.core c).seq = none ∧ (t.core c).sq.calls = (s.core c).sq.calls + 1 ∧
       t.jobs = (cmdMark s v.owner .done).jobs ∧ t.freeCtr = s.freeCtr + 1 ∧ t.dram = s.dram ∧
       (∀ k, k ≠ c.val → t.core k = s.core k)) ∧
     ((s.core c).waitHolds v.owner 31 0 = false → exec (.invocationComplete c) s = .next s)) ∧
   (∀ (s : State) (c : CoreId) (id : Nat) (lc : Bool), s.powered = true → (s.core c).resident = some id →
     s.beginner c id = some lc → (∀ v, (s.core c).seq = some v → v.owner.job ≠ id) →
     (let l := s.liveK id
      let p := s.savePlace c l
      ∃ t, exec (.liveRegionSave c) s = .next t ∧ (t.core c).resident = none ∧
        (t.core c).liveKept = (s.core c).liveKept ++ [(id, p)] ∧ t.sched.liveSaves = s.sched.liveSaves + 1 ∧
        (∀ i, t.dram.word i = if saveByte c p l / 8 ≤ i ∧ i < saveByte c p l / 8 + 8192 * l then
          (s.core c).scratch.word (liveBase l / 8 + (i - saveByte c p l / 8)) else s.dram.word i) ∧
        (∀ i, (t.core c).scratch.word i = (s.core c).scratch.word i) ∧ (∀ k, k ≠ c.val → t.core k = s.core k))) ∧
   (∀ (s : State) (c : CoreId) (id : Nat), s.powered = true → (s.core c).resident = none → (s.core c).seq = none →
     s.toRestore c = some id →
     (let l := s.liveK id
      let a := saveByte c (Tbl.get 0 (s.core c).liveKept id) l
      ∃ t, exec (.liveRegionRestore c) s = .next t ∧ (t.core c).resident = some id ∧
        (t.core c).liveKept = (s.core c).liveKept.filter (fun e => e.1 != id) ∧ (∀ i, t.dram.word i = s.dram.word i) ∧
        t.jobs = s.jobs ∧ (∀ k, k ≠ c.val → t.core k = s.core k) ∧
        ∀ i, (t.core c).scratch.word i = if liveBase l / 8 ≤ i ∧ i < liveBase l / 8 + 8192 * l then
          s.dram.word (a / 8 + (i - liveBase l / 8)) else (s.core c).scratch.word i)))

/-- R199 to R212, R217, R230, R231, R264, R282: an array descriptor that passes its checks, reads no poison and needs no scale
stream takes up its codebooks, loads its tile, puts each column sum into its accumulator entry or adds it there, writes INT32
outputs on LAST, and leaves its queue; an other-axis read sums along the other axis. R226 to R228: a wrong value that a check
shows ends the job with ST_ARITH. -/
def Obligations.ArrayUnit : Prop :=
  ∀ (s : State) (c : CoreId) (e : QEntry) (l : List QEntry), s.powered = true → (s.core c).qArray = e :: l →
    (anyPoison e.desc = true → ∀ bad, exec (.arrayDescriptor c bad) s = .next (failJob s e.owner stPoisoned)) ∧
    (anyPoison e.desc = false →
      (let w := pdata e.desc
       let d := parseArr w
       let books := coreCbs c ((List.range d.cols).map d.cbAt).dedup s
       let u := if isCb d.wf then books.1 else s
       let raw := fun (r : Nat) => s.sp c (d.tileRow r).1 (d.tileRow r).2
       let tile := (List.range d.rows).map (fun r => (List.range d.cols).map (fun j =>
         unitVals u c d j (slice (raw r) (j * d.recBytes) d.recBytes)))
       (∀ bad, d.axis = true → exec (.arrayDescriptor c bad) s = .next s) ∧
       (∀ bad, d.axis = false → exec (.arrayOtherAxisRead c bad) s = .next s) ∧
       (∀ st bad, arrRefusal s c e.owner w = some st →
         (d.axis = false → exec (.arrayDescriptor c bad) s = .next (failJob s e.owner st)) ∧
         (d.axis = true → exec (.arrayOtherAxisRead c bad) s = .next (failJob s e.owner st))) ∧
       (arrRefusal s c e.owner w = none → isCb d.wf = true → books.2 = false → d.axis = false →
         ∀ bad, exec (.arrayDescriptor c bad) s = .next (failJob books.1 e.owner stPoisoned)) ∧
       (arrRefusal s c e.owner w = none → (isCb d.wf = true → books.2 = true) → d.aScaled = false → d.wScaled = false →
         (∀ r, r < d.rows → s.spPoison c (d.tileRow r).1 (d.tileRow r).2 = false) →
         (∀ m, m < d.m → s.spPoison c (d.aVec m) d.aSize = false) →
         (let x := fun (m : Nat) => vectorVals d (if d.axis then d.cols else 32 * d.rows) (s.sp c (d.aVec m) d.aSize)
          let run := fun (bad : Option ArrFault) => if d.axis then Instr.arrayOtherAxisRead c bad else .arrayDescriptor c bad
          (d.axis = false →
            (let sum := fun (m j : Nat) => columnSum d tile j (x m) none
             let new := fun (m j : Nat) => if d.first then sum m j
               else (accAdd d.isInt (Tbl.get 0 (s.core c).acc (accKey j (d.base + m))) (sum m j)).1
             ∃ t, exec (.arrayDescriptor c none) s = .next t ∧ t.base = u.base ∧ (t.core c).qArray = l ∧
               (t.core c).chain = (if d.last then none else some (d.chain e.owner.job)) ∧
               (t.core c).mx.vectors = (s.core c).mx.vectors + d.m ∧ (t.core c).mx.loads = (s.core c).mx.loads + 1 ∧
               (t.core c).mx.descriptors = (s.core c).mx.descriptors + 1 ∧ (∀ k, k ≠ c.val → t.core k = s.core k) ∧
               (∀ m j, m < d.m → j < d.cols → Tbl.get 0 (t.core c).acc (accKey j (d.base + m)) = new m j) ∧
               (d.last = false → ∀ i, (t.core c).scratch.word i = (s.core c).scratch.word i) ∧
               (d.last = true → d.ofmt = 5 → s.spPoison c d.oAddr ((d.m - 1) * d.oStride + d.oSize) = false →
                 ∀ m j, m < d.m → j < d.cols → t.sp c (d.oVec m + 4 * j) 4 = leBytes 4 (new m j).toNat))) ∧
          (d.axis = true →
            ∃ t, exec (.arrayOtherAxisRead c none) s = .next t ∧ t.base = u.base ∧ (t.core c).qArray = l ∧
              (t.core c).chain = none ∧ (t.core c).acc = (s.core c).acc ∧ (∀ k, k ≠ c.val → t.core k = s.core k) ∧
              (s.spPoison c d.oAddr ((d.m - 1) * d.oStride + d.oSize) = false → ∀ m r i, m < d.m → r < d.rows → i < 32 →
                t.sp c (d.oVec m + 4 * (32 * r + i)) 4 = leBytes 4 (BitVec.ofInt 32 (((List.range d.cols).map (fun j =>
                  (((tile.getD r []).getD j []).getD i .nan).rne * ((x m).getD j .nan).rne)).sum)).toNat)) ∧
          (∀ f : ArrFault, ArrFault.strikes f d d.m = true →
            ArrFault.caught f d tile (x f.vec) (Tbl.get 0 (s.core c).accRes (accKey f.lane (d.base + f.vec))) = true →
            ∀ j, s.job e.owner.job = some j → j.status = none →
            ∃ t, exec (run (some f)) s = .next t ∧ t.base = u.base ∧
              (t.core c).mx.residue = (s.core c).mx.residue + 1 ∧ (t.core c).mx.lastColumn = BitVec.ofNat 8 f.lane ∧
              ∃ j', t.job e.owner.job = some j' ∧ j'.status = some stArith)))))

/-- R234, R236, R241, R258 to R260, R264: the descriptor at the head of a core's VECTOR queue runs under its own op alone:
refused, it ends its job; mismatched, its job ends with ST_ARITH; else its rows run in order and, where no row read poison,
it leaves its queue. -/
def Obligations.VectorOps : Prop :=
  ∀ (s : State) (c : CoreId) (e : QEntry) (l : List QEntry), s.powered = true → (s.core c).qVector = e :: l →
    anyPoison e.desc = false →
    (let w := pdata e.desc
     let d := parseVec w
     let books := fun (k : VKind) => coreCbs c (d.cbs k) s
     let rows := fun (k : VKind) (bad : Option (Nat × Nat)) =>
       vecRows c e d k bad d.rows 0 { walk := { next := d.aBlk, addr := d.b.addr }, scales := [] } (books k).1
     let table : List (Nat × (Option (Nat × Nat) → Instr)) := [
       (0x01, fun b => .vecAdd c b), (0x02, fun b => .vecSub c b), (0x03, fun b => .vecMul c b), (0x04, fun b => .vecAxpy c b),
       (0x05, fun _ => .vecMax c), (0x06, fun _ => .vecMin c), (0x07, fun b => .vecAbs c b), (0x08, fun b => .vecNeg c b),
       (0x09, fun _ => .vecRelu c), (0x0A, fun _ => .vecClamp c), (0x0B, fun b => .vecRecip c b),
       (0x10, fun _ => .vecCmpEq c), (0x11, fun _ => .vecCmpNe c), (0x12, fun _ => .vecCmpLt c), (0x13, fun _ => .vecCmpLe c),
       (0x14, fun _ => .vecSelect c), (0x20, fun b => .vecExp c b), (0x21, fun b => .vecLog c b),
       (0x22, fun b => .vecSigmoid c b), (0x23, fun b => .vecTanh c b), (0x24, fun b => .vecRsqrt c b),
       (0x30, fun b => .vecRsum c b), (0x31, fun _ => .vecRmax c), (0x32, fun _ => .vecRmin c),
       (0x40, fun b => .vecConvert c b), (0x41, fun b => .vecQuant c b), (0x50, fun _ => .vecCompress c),
       (0x51, fun _ => .vecExpand c), (0x60, fun _ => .vecTopk c)]
     ∀ op i, (op, i) ∈ table →
       (d.op ≠ op → (vKind d.op).isSome = true → exec (i none) s = .next s) ∧
       (∀ st, d.op = op → vecRefusal s w = some st → exec (i none) s = .next (failJob s e.owner st)) ∧
       (∀ k, d.op = op → vecRefusal s w = none → vKind op = some k → (books k).2 = false →
         exec (i none) s = .next (failJob (books k).1 e.owner stPoisoned)) ∧
       (∀ k, d.op = op → vecRefusal s w = none → vKind op = some k → (books k).2 = true →
         ((rows k none).2 = true → exec (i none) s = .next (upCore (rows k none).1 c
           (fun x => { x with qVector := l, vx := { x.vx with descriptors := x.vx.descriptors + 1 } }))) ∧
         ((rows k none).2 = false → exec (i none) s = .next (rows k none).1) ∧
         (d.scaled = false → (∀ r p, r < d.rows → p ∈ d.a.parts r d.cols → s.spPoison c p.1 p.2 = false) →
           (d.usesB k = true → ∀ r p, r < d.rows → p ∈ d.b.parts r d.cols → s.spPoison c p.1 p.2 = false) →
           (∃ t, exec (i none) s = .next t ∧ t.base = (books k).1.base ∧ (t.core c).qVector = l ∧
             (t.core c).vx.descriptors = (s.core c).vx.descriptors + 1 ∧ (∀ n, n ≠ c.val → t.core n = s.core n) ∧
             (t.core c).acc = (s.core c).acc ∧ (t.core c).seq = (s.core c).seq) ∧
           (∀ row lane j, i (some (row, lane)) ≠ i none → row < d.rows → lane < min d.cols (d.rate k) →
             s.job e.owner.job = some j → j.status = none →
             ∃ t, exec (i (some (row, lane))) s = .next t ∧ t.base = (books k).1.base ∧
               (t.core c).vx.residue = (s.core c).vx.residue + 1 ∧ (t.core c).mx.residue = (s.core c).mx.residue + 1 ∧
               (row = 0 → ∀ n, (t.core c).scratch.word n = (s.core c).scratch.word n) ∧
               ∃ j', t.job e.owner.job = some j' ∧ j'.status = some stArith))))

/-- R242 to R246, R252 to R254, R188 to R190, R259: what one row of a vector descriptor writes: each element is the op's result
in the compute type, converted to stream O's format; SELECT, COMPRESS and EXPAND move elements by the mask of stream B; a row
that reads poison fails with ST_POISONED and writes nothing. -/
def Obligations.VectorRows : Prop :=
  ∀ (s : State) (c : Nat) (o : Owner) (d : VecD) (r : Nat) (x : VecRun),
    (let a := d.a.elems s c r d.cols
     let b := d.b.elems s c r d.cols
     let good := fun (m : Strm) => ∀ p, p ∈ m.parts r d.cols → s.spPoison c p.1 p.2 = false
     let same := fun (t : State) => t.base = s.base ∧ ∀ i, (t.core c).scratch.word i = (s.core c).scratch.word i
     let ct := fun (sat : Bool) (fmt raw : Nat) (cb : CbView) => (toCt d.ct (sat && isFp fmt) (elemVal fmt raw cb)).1
     let va := a.map (fun q => ct d.sat d.a.fmt q (s.cbOn c d.acb).view)
     let vb := b.map (fun q => ct d.sat d.b.fmt q ⟨[], 0⟩)
     let outAs := fun (fp : Bool) (v : VVal) =>
       if isCb d.o.fmt then (s.cbOn c d.ocb).encode (r32 v.ev) else (toFmt d.o.fmt (d.sat && fp) v.ev).1
     let out := outAs (decide (d.ct ≤ 2))
     let n := b.countP (· ≠ 0)
     let top := (sortBy (ranks d.ascend) (a.map (fun q => ct false d.a.fmt q ⟨[], 0⟩)).zipIdx).take d.k
     (good d.a → good d.b →
       (∀ k, k = .binary ∨ k = .compare → ∃ t, rowCompute s c o d k r x = (vecStore t c o d r ((List.zipWith (fun p q =>
           (vOp d.op d.ct d.sat p q (immVal d.ct d.imm0) (immVal d.ct d.imm1)).1) va vb).map out), .ok x) ∧ same t) ∧
       (∃ t, rowSelect s c o d r x =
         (upVx (strmWrite t c o d.o r (((a.zip b).zipIdx.filter (fun e => e.1.2 ≠ 0)).map (fun e => (e.2, e.1.1)))) c
           (fun v => { v with elements := v.elements + b.countP (· ≠ 0) }), .ok x) ∧ same t) ∧
       (∃ t, rowCompress s c o d r x = (vecAux (vecStore t c o d r
           (((a.zip b).filter (fun e => e.2 ≠ 0)).map (·.1) ++
             (if d.zfill then List.replicate (d.cols - b.countP (· ≠ 0)) 0 else []))) c o d (4 * r) [b.countP (· ≠ 0)],
           .ok x) ∧ same t)) ∧
     (good d.b → (∀ p, p ∈ d.a.parts r n → s.spPoison c p.1 p.2 = false) → ∃ t, rowExpand s c o d r x =
       (vecAux (upVx (strmWrite t c o d.o r (expandRow d.zfill 0 b (d.a.elems s c r n))) c (fun v => { v with
         elements := v.elements + (expandRow d.zfill 0 b (d.a.elems s c r n)).length })) c o d (4 * r) [n], .ok x) ∧ same t) ∧
     (good d.a → (d.bIdx = true → good d.b) → ∃ t, rowTopk s c o d r x =
       (upVx (vecAux (vecStore t c o d r ((top.map (·.1) ++ List.replicate (d.k - top.length) (vZero d.ct)).map (outAs (d.ct == 0))))
         c o d (4 * r * d.k) (top.map (fun e => (if d.bIdx then b else List.range d.cols).getD e.2 0) ++
           List.replicate (d.k - top.length) 0xFFFFFFFF)) c (fun v => { v with topkRows := v.topkRows + 1 }), .ok x) ∧ same t) ∧
     (good d.a →
       (∃ t, rowCompute s c o d .unary r x = (vecStore t c o d r (va.map (fun p =>
           out (vOp d.op d.ct d.sat p p (immVal d.ct d.imm0) (immVal d.ct d.imm1)).1)), .ok x) ∧ same t) ∧
       (∃ t, rowCompute s c o d .reduce r x =
         (vecStore t c o d r [out (reduceRow d.op d.ct d.sat (d.rate .reduce) va).1], .ok x) ∧ same t) ∧
       (d.scaled = false → ∃ t, rowConvert s c o d r x = (vecStore t c o d r
         (a.map (fun q => outAs (isFp d.a.fmt) (.fp (elemVal d.a.fmt q (s.cbOn c d.acb).view)))), .ok x) ∧ same t)) ∧
     (∀ p, p ∈ d.a.parts r d.cols → s.spPoison c p.1 p.2 = true → ∃ t,
       (∀ k, k = .unary ∨ k = .binary ∨ k = .compare ∨ k = .reduce →
         rowCompute s c o d k r x = (t, .error (.job stPoisoned))) ∧
       rowSelect s c o d r x = (t, .error (.job stPoisoned)) ∧ rowCompress s c o d r x = (t, .error (.job stPoisoned)) ∧
       rowTopk s c o d r x = (t, .error (.job stPoisoned)) ∧ same t)) ∧
    (∀ l : List (BitVec 32), (quantise l).2.1.length = l.length ∧ (∀ q ∈ (quantise l).2.1, -127 ≤ q ∧ q ≤ 127) ∧
      ((∃ v ∈ l, (d32 v).isFinite = false) → quantise l = (0x7FC00000, l.map (fun _ => 0), .nonfinite)) ∧
      ((∀ v ∈ l, (d32 v).isZero = true) → quantise l = (f32one, l.map (fun _ => 0), .degenerate)))

/-- R103 to R107, R113, R115: the next lookup descriptor of a core is refused, or begins and its bags open in turn; an index with
every bit 1 is pad and one at or past ROW_COUNT is invalid. R113, R125, R358, R359: the rows of a bag are taken one by one; the
first that fails ends its job; what was counted shows in the table's lookup record, index by index, up to the row that waits,
where the bag goes on later. -/
def Obligations.LookupDescriptors : Prop :=
  (∀ (s : State) (c : CoreId) (ext : List PWord) (e : QEntry), s.powered = true → s.opening c = none →
    (s.core c).qLookup.find? (fun x => !x.begun) = some e →
    (anyPoison e.desc = true → exec (.lookupDescriptor c ext) s = .next (failJob s e.owner stPoisoned)) ∧
    (anyPoison e.desc = false →
      (let d := pdata e.desc
       let key := s.bound e.owner.job (fld (wd d 0) 63 52)
       (∀ st, lookRefusal s key d = some st → exec (.lookupDescriptor c ext) s = .next (failJob s e.owner st)) ∧
       (∀ k, lookRefusal s key d = none → key = some k →
         (let l : Lookup := { id := s.nextBag, core := c, engine := slalomOf c, owner := e.owner, desc := d, key := k }
          ∃ t, t.lookups = s.lookups ++ [l] ∧ t.nextBag = s.nextBag + 1 ∧ t.dram = s.dram ∧ t.jobs = s.jobs ∧
            t.bags = s.bags ∧ (t.core c).qLookup =
              updFirst (fun x => !x.begun) (fun x => { x with begun := true }) (s.core c).qLookup ∧
            exec (.lookupDescriptor c ext) s = .next (openBags c (2 * (parseLook d).nbags) ext t)))))) ∧
  (∀ (s : State) (c : CoreId) (ext : List PWord) (l : Lookup), s.powered = true → s.opening c = some l →
    exec (.lookupDescriptor c ext) s = .next (openBags c (2 * (parseLook l.desc).nbags) ext s) ∧
    (s.tileWaits l.owner (some c.val) none = true ∨ s.bagRoom l.engine l.owner.lc = false →
      exec (.lookupDescriptor c ext) s = .next s)) ∧
  (∀ (b : Bag) (s : State) (i : Nat),
    (i = 2 ^ (if b.idx64 then 64 else 32) - 1 → b.place s i = (.pad, false)) ∧
    (i ≠ 2 ^ (if b.idx64 then 64 else 32) - 1 → (s.slot b.key).entry.rowCount ≤ i → b.place s i = (.invalid, false)) ∧
    (i ≠ 2 ^ (if b.idx64 then 64 else 32) - 1 → i < (s.slot b.key).entry.rowCount →
      (b.place s i).1 ≠ .pad ∧ (b.place s i).1 ≠ .invalid)) ∧
  (∀ (s : State) (id pos i : Nat) (l : List Nat) (b : Bag), s.bag id = some b →
    (let u := if i < (s.slot b.key).entry.rowCount then
        walkPages s b.unit b.owner.cid [((s.slot b.key).entry.rowVa i, (s.slot b.key).entry.stride, false)] else s
     (∀ st d, b.place u i = (.bad st, d) → classifyFrom id pos (i :: l) s = homeFail u b st) ∧
     (∀ x d, b.place u i = (x, d) → (∀ st, x ≠ .bad st) → (∀ k p, x ≠ .wait k p) → (∀ m, x = .remote m → u.hasPath m = true) →
       classifyFrom id pos (i :: l) s = classifyFrom id (pos + 1) l (deliverRow u b pos i x d)))) ∧
  (∀ (s : State) (id : Nat) (b : Bag) (idx : List Nat), s.bag id = some b → b.indices = some idx → b.home = none →
    s.lives b.owner.job = true →
    (let pad := fun (i : Nat) => i == 2 ^ (if b.idx64 then 64 else 32) - 1
     let inv := fun (i : Nat) => !pad i && decide ((s.slot b.key).entry.rowCount ≤ i)
     let r := Tbl.get {} s.lookRec (b.key / 4)
     let t := classify s id
     let r' := Tbl.get {} t.lookRec (b.key / 4)
     ∃ n, n ≤ idx.length ∧ r'.indices = r.indices + n ∧ r'.pad = r.pad + (idx.take n).countP pad ∧
       r'.invalid = r.invalid + (idx.take n).countP inv ∧
       (t.lives b.owner.job = false ∨ ∃ b', t.bag id = some b' ∧
         ((n = idx.length ∧ b'.indices = none) ∨
           (n < idx.length ∧ b'.indices = some (idx.drop n) ∧ b'.next = b.next + n)))))

/-- R107, R112, R150, R153: a combiner cuts a piece into POOLs of at most 64 rows, each row in the POOL of its channel, and sends
those that find room; when every partial is in, their sum goes to the bag. The sum of an integer bag does not depend on the
order of its contributions. -/
def Obligations.Pooling : Prop :=
  (∀ (s : State) (offs : List Nat), ((poolsOf s offs).flatMap (fun e => e.2.2)).Perm offs ∧
    ∀ e ∈ poolsOf s offs, e.2.2.length ≤ 64 ∧ e.2.2 ≠ [] ∧ ∀ a ∈ e.2.2, s.channel a = e.2.1) ∧
  (∀ (s : State) (p : Piece) (b : Bag), s.powered = true → s.pieces.find? (fun q => q.id == p.id) = some p →
    s.bag p.bag = some b →
    (s.mayPool p = false → exec (.gatherPiece p.id) s = .next s) ∧
    (s.mayPool p = true →
      (∀ off, s.pieceStop b p = some off → exec (.gatherPiece p.id) s = .next (bagPrivet s b (mkPa s.moduleNo 0 off))) ∧
      (s.pieceStop b p = none →
        (let e := (s.slot b.key).entry
         let book := hedgeCb p.stack e.codebookId s
         let u := if isCb e.format then book.1 else s
         (isCb e.format = true → book.2 = false → exec (.gatherPiece p.id) s = .next (homeFail u b stPoisoned)) ∧
         ((isCb e.format = true → book.2 = true) →
           (p.cut = true → exec (.gatherPiece p.id) s = .next (sendPools u b p)) ∧
           (p.cut = false → ∃ q, (cutPiece u b p).pieces.find? (fun x => x.id == p.id) = some q ∧ q.cut = true ∧
             q.rows = p.rows ∧ exec (.gatherPiece p.id) s = .next (sendPools (cutPiece u b p) b q) ∧
             (cutPiece u b p).dram = u.dram ∧ (cutPiece u b p).bags = s.bags)))))) ∧
  (∀ (s : State) (p : Piece) (b : Bag), s.powered = true → s.pieces.find? (fun q => q.id == p.id) = some p →
    s.bag p.bag = some b → b.id = p.bag →
    ((p.cut = true ∧ p.pools = [] ∧ p.got.length = p.total) →
      (∃ t k, exec (.hedgePartial p.id none) s = .next t ∧
        t.pieces.map (fun q => { q with sent := false }) =
          (dropFirst (fun q => q.id == p.id) s.pieces).map (fun q => { q with sent := false }) ∧
        t.bag p.bag = some { b with left := b.left - 1, got := b.got ++ [k] } ∧ k.order = (0, p.stack, p.seqNo) ∧
        k.pooled = (p.got.map (fun e => e.2.pooled)).sum ∧ k.mismatched = (p.got.map (fun e => e.2.mismatched)).sum ∧
        (k.poison = true ↔ ∃ e ∈ p.got, e.2.poison = true) ∧ t = { s with pieces := t.pieces, bags := t.bags }) ∧
      ∀ lane, exec (.hedgePartial p.id (some lane)) s = .next (arithFault s b.owner unitSlalom p.stack lane 0)) ∧
    (¬(p.cut = true ∧ p.pools = [] ∧ p.got.length = p.total) → ∀ bad, exec (.hedgePartial p.id bad) s = .next s)) ∧
  (∀ (b b' : Bag) (n : Nat), b.intPath = true → b'.intPath = true → b.wide = b'.wide → b.got.Perm b'.got →
    (∀ k ∈ b.got, ∃ l, k.part = .ints l) →
    (b.total n).part = (b'.total n).part ∧ (b.total n).pooled = (b'.total n).pooled ∧
      (b.total n).mismatched = (b'.total n).mismatched)

/-- R111, R114, R121, R116: a bag whose every contribution is in is written to its place in the scratchpad, or answered to the
module that asked; a poisoned bag is written as poison; one that still waits for something stays. -/
def Obligations.Bags : Prop :=
  ∀ (s : State) (id : Nat) (b : Bag), s.powered = true → s.bag id = some b →
    (let t0 := (s.slot b.key).entry
     let k := b.total t0.elems
     let ready := b.indices = none ∧ b.left = 0 ∧ b.remote = [] ∧ b.tails = []
     let book := hedgeCb (b.engine / 2) t0.codebookId s
     let u := if isCb t0.format then book.1 else s
     let scale := (u.cbIn (b.engine / 2) t0.codebookId).scale
     (¬ready → ∀ bad, exec (.bagFinish id bad) s = .next s) ∧
     (ready → ∀ lane, exec (.bagFinish id (some lane)) s = .next (arithFault s b.owner unitSlalom (b.engine / 2) lane 0)) ∧
     (ready → ∀ m txn lc, b.home = some (m, txn, lc) →
       exec (.bagFinish id none) s = .next (answerGather s b m txn lc k)) ∧
     (ready → b.home = none → ∀ l, s.lookups.find? (fun x => x.id == b.lookup) = some l → isCb t0.format = true →
       book.2 = false → exec (.bagFinish id none) s = .next (failJob u b.owner stPoisoned)) ∧
     (ready → b.home = none → ∀ l, s.lookups.find? (fun x => x.id == b.lookup) = some l →
       (isCb t0.format = true → book.2 = true) →
       (let d := parseLook l.desc
        let a := d.out + b.bagNo * d.stride
        ∃ t, exec (.bagFinish id none) s = .next t ∧ t.dram = u.dram ∧ t.slots = s.slots ∧
          t.bags = dropFirst (fun x => x.id == b.id) s.bags ∧ (∀ n, n ≠ b.core → n ≠ l.core → t.core n = s.core n) ∧
          (d.counts = false → 1 < l.bagsOpen → a % 8 = 0 →
            (k.poison = true → ∀ i, i < t0.elems * outElem d.ofmt / 8 → (t.core b.core).scratch.word (a / 8 + i) = .bad) ∧
            (k.poison = false → s.spPoison b.core a (bagBytes scale d t0 k).length = false →
              t.sp b.core a (bagBytes scale d t0 k).length = bagBytes scale d t0 k)) ∧
          Tbl.get {} t.lookRec (b.key / 4) = { (Tbl.get {} s.lookRec (b.key / 4)) with
            mismatched := (Tbl.get {} s.lookRec (b.key / 4)).mismatched + k.mismatched
            emptyBags := (Tbl.get {} s.lookRec (b.key / 4)).emptyBags + (if k.pooled = 0 then 1 else 0)
            poisonedBags := (Tbl.get {} s.lookRec (b.key / 4)).poisonedBags + (if k.poison then 1 else 0) })) ∧
     (k.pooled = 0 → ∀ (d : LookD) (x : BitVec 32), bagBytes x d t0 k = List.replicate (t0.elems * outElem d.ofmt) 0))

/-- R117, R119, R150, R154 to R156, R365: tail rows are asked for and pooled as they arrive; a run-ahead read fills a slice and
changes no memory; a cancelled fill is discarded; a waiting tile goes on once its page is resolved. -/
def Obligations.TailsAndRunAhead : Prop :=
  (∀ (s : State) (id : Nat) (b : Bag), s.powered = true → s.bag id = some b →
    (let rows := b.tails.filter (fun r => r.state == .wanted)
     let n := 8 * rowWords (s.slot b.key).entry.format (s.slot b.key).entry.elems
     let shut := fun (r : TailRow) => ([r.off, r.off + n - 1].find? (fun a => !s.privetOk b.owner.cid r.space a false)).map
       (fun a => mkPa s.moduleNo r.space a)
     (∀ pa, rows.findSome? shut = some pa → exec (.tailRowFetch id) s = .next (bagPrivet s b pa)) ∧
     (rows.findSome? shut = none → ∃ t, exec (.tailRowFetch id) s = .next t ∧
       (Tbl.get {} t.lookRec (b.key / 4)).flashFetches =
         (Tbl.get {} s.lookRec (b.key / 4)).flashFetches + rows.countP (fun r => r.space == 2) ∧
       (Tbl.get {} t.lookRec (b.key / 4)).hostFetches =
         (Tbl.get {} s.lookRec (b.key / 4)).hostFetches + rows.countP (fun r => r.space != 2) ∧
       t.dram = s.dram ∧ t.jobs = s.jobs ∧ t.cores = s.cores ∧ t.hedges = s.hedges))) ∧
  (∀ (s : State) (id pos : Nat) (b : Bag) (r : TailRow) (w : List PWord), s.powered = true → s.bag id = some b →
    b.tails.find? (fun q => q.pos == pos) = some r →
    (let t0 := (s.slot b.key).entry
     let n := rowWords t0.format t0.elems
     (tailWords s b r (8 * n) = none → exec (.tailRowArrival id pos) s = .next s) ∧
     (tailWords s b r (8 * n) = some w → isCb t0.format = true → (hedgeCb (b.engine / 2) t0.codebookId s).2 = false →
       exec (.tailRowArrival id pos) s = .next (homeFail (hedgeCb (b.engine / 2) t0.codebookId s).1 b stPoisoned)) ∧
     (tailWords s b r (8 * n) = some w → (isCb t0.format = true → (hedgeCb (b.engine / 2) t0.codebookId s).2 = true) →
       ∃ t k, exec (.tailRowArrival id pos) s = .next t ∧
       t.bag id = some { b with tails := dropFirst (fun q => q.pos == pos) b.tails, got := b.got ++ [k] } ∧
       k.order = (2, pos, 0) ∧ (∀ i, t.dram.word i = s.dram.word i) ∧ t.jobs = s.jobs ∧ t.cores = s.cores))) ∧
  (∀ (s : State) (e : Fin 24) (bag row : Nat), s.powered = true → ∃ t, exec (.runAheadRead e bag row) s = .next t ∧
    (∀ i, t.dram.word i = s.dram.word i) ∧ t.jobs = s.jobs ∧ t.cores = s.cores ∧ t.bags = s.bags ∧ t.lookups = s.lookups ∧ t.sched = s.sched ∧
    ∀ l i off, s.lookups.find? (fun x => x.engine == e.val && decide (x.nextBag < (parseLook x.desc).nbags)) = some l →
      l.nextBag ≤ bag → bag < l.nextBag + 256 → bag < (parseLook l.desc).nbags → peekIndex s l bag row = some i →
      i < (s.slot l.key).entry.rowCount →
      rowAt s (uSlalom e.val) l.owner.cid (s.slot l.key).entry false i = .dram off →
      s.poolStop l.owner.cid (8 * rowWords (s.slot l.key).entry.format (s.slot l.key).entry.elems) [off] = none →
      (s.chan (s.channel off)).room false = true →
      s.busyLines (linesOf off (8 * rowWords (s.slot l.key).entry.format (s.slot l.key).entry.elems)) = false →
      ∃ f, (t.hedge (s.stack off)).fills = (s.hedge (s.stack off)).fills ++ [f] ∧ f.table = l.key / 4 ∧
        f.vslot = l.key % 4 ∧ f.pa = off / 64 * 64 ∧ f.cancelled = false) ∧
  (∀ (s : State) (h : HedgeId) (f : TFill), s.powered = true → (s.hedge h).fills.find? (fun g => g.id == f.id) = some f →
    ∃ t, exec (.thicketFill h f.id) s = .next t ∧
      (t.hedge h).fills = dropFirst (fun g => g.id == f.id) (s.hedge h).fills ∧
      (f.cancelled = true → (t.hedge h).thicket = (s.hedge h).thicket) ∧
      (f.cancelled = false → f.lines ≤ 24576 → ∀ i, i < f.lines →
        ∃ x ∈ (t.hedge h).thicket, x.tag = some (f.table, f.vslot) ∧ x.pa = f.pa + 64 * i ∧
          x.data = ((f.data.drop (8 * i)).take 8).map codeWord) ∧
      (∀ k, k ≠ h.val → t.hedge k = s.hedge k) ∧ t = { s with hedges := t.hedges }) ∧
  (∀ (s : State) (t : WaitTile), s.powered = true → s.xl.waiting.find? (fun x => x.id == t.id) = some t →
    (let freed := { s with xl := { s.xl with waiting := dropFirst (fun x => x.id == t.id) s.xl.waiting } }
     (pteState (s.node t.leaf) = stValid → freed.xl.waiting.any (fun x => x.id == t.id) = false →
       exec (.tileResume t.id) s = .next (match t.bag with
         | some p => classify freed p.1
         | none => runGrads freed)) ∧
     (pteState (s.node t.leaf) = stInvalid → t.bag = none → t.owner.job ≠ 0 →
       (failJob freed t.owner stUnmapped).xl.waiting.any (fun x => x.id == t.id) = false →
       exec (.tileResume t.id) s = .next (runGrads (failJob freed t.owner stUnmapped)))))

/-- R325 to R332, R147: a step close begins, sends its arrivals, waits for its peers', takes the next G and the freeze mask, lets
each engine work through its lists slot by slot, and ends with the clip counts, the rows and the response; none of its slots
changes a table version's record, the clocks or the flash. -/
def Obligations.StepCloses : Prop :=
  (∀ (s : State) (job idx : Nat) (j : Job) (k : JobCmd), s.fwRuns = true → s.job job = some j → j.cmd? idx = some k →
    k.type = 7 → j.mayStart k = true → s.mustFollow j k 6 = false →
    (let w := wd k.words 0
     let mask := wd k.words 1
     let c : Close := ⟨job, idx, s.closesOf j, fld w 48 48, fld w 55 49, BitVec.ofNat 16 (fld w 47 32), fld w 31 25,
       fld w 24 22, .arriving, 0, 0, [], [], [], [], []⟩
     ∃ t, exec (.stepClose job idx) s = .next t ∧ t.slots = s.slots ∧ t.flash = s.flash ∧ t.upd.g = s.upd.g ∧
       ((∀ m, m < 64 → mask.getLsbD m = true → m = s.moduleNo ∨ s.hasPath m = true) →
         t.upd.closes = s.upd.closes ++ [c] ∧ t.jobs = (cmdMark s (ownerOf j idx) .running).jobs ∧
         t.arrive c.parity = s.arrive c.parity + (if mask.getLsbD s.moduleNo then 1 else 0) ∧
         t.arrive (1 - c.parity) = s.arrive (1 - c.parity)))) ∧
  (∀ (s : State) (job : Nat) (c : Close), s.fwRuns = true → s.closeOf job = some c → c.phase = .arriving →
    ((c.peers : Int) ≤ (s.arrive c.parity).toInt → ∃ t, exec (.stepCloseArrivalsMet job) s = .next t ∧
      t.arrive c.parity = s.arrive c.parity - BitVec.ofNat 64 c.peers ∧ t.upd.g = s.upd.g + 1 ∧
      t.closeOf job = some { c with phase := .walking, g := s.upd.g + 1, freeze := s.upd.freeze } ∧
      t.dram = s.dram ∧ t.jobs = s.jobs ∧ t.cores = s.cores ∧
      ∀ h, h < 12 → t.hedge h = { s.hedge h with up := { (s.hedge h).up with lastCloseRows := 0 } }) ∧
    ((s.arrive c.parity).toInt < c.peers → exec (.stepCloseArrivalsMet job) s = .next s)) ∧
  (∀ (s : State) (h : HedgeId) (bad : Option Nat) (c : Close) (j : Job), s.powered = true →
    s.upd.closes.find? (fun c => c.phase == .walking && !c.engines.contains h.val) = some c → s.job c.job = some j →
    s.tileWaits (ownerOf j c.idx) (some (uUpdate h.val)) none = false →
    (let p := Tbl.get (0, 0) c.doneAt h.val
     let o := ownerOf j c.idx
     ∃ t, exec (.updateEngineSlot h bad) s = .next t ∧ t.slots = s.slots ∧ t.flash = s.flash ∧ t.time = s.time ∧
       t.codebooks = s.codebooks ∧ t.sec = s.sec ∧ t.mbox = s.mbox ∧ t.sqs = s.sqs ∧
       (∀ z, nextPlace s o h.val c (c.versions.length + 1) p.1 p.2 = .error z → t = slotStop s o h.val z) ∧
       (nextPlace s o h.val c (c.versions.length + 1) p.1 p.2 = .ok none →
         t = match partsStop s (uUpdate h.val) o.cid ((c.counts s h.val).map (fun va => (va, 8))) with
           | some z => slotStop s o h.val z
           | none => engineDone o h.val c s) ∧
       (∀ vi key pos x, nextPlace s o h.val c (c.versions.length + 1) p.1 p.2 = .ok (some (vi, key, pos, x)) →
         t = closeSlot o h.val bad c vi key pos x s))) ∧
  (∀ (s : State) (job : Nat) (c : Close) (j : Job), s.fwRuns = true → s.closeOf job = some c → s.job job = some j →
    c.phase = .walking → (∀ h, h < 12 → h ∈ c.engines) → s.upd.heldGrads = [] →
    ∃ t, exec (.stepCloseFinish job) s = .next t ∧ t.closeOf job = none ∧ t.jobs = (cmdMark s (ownerOf j c.idx) .done).jobs ∧
      t.out = s.out ++ [.stepClosed j.fn c.g (((List.range 12).map (fun h => Tbl.get 0 c.rows h)).sum) s.tickerW s.timeWord] ∧
      (∀ h, h < 12 → t.hedge h = { s.hedge h with up := { (s.hedge h).up with closes := (s.hedge h).up.closes + 1 } }) ∧
      (∀ k, k ≠ c.clipCore → t.core k = s.core k) ∧ t.dram = s.dram ∧ t.slots = s.slots)

/-- R310, R311, R315, R327 to R330: a slot of a frozen group loses its staging and its key alone; a key of no row frees its slot;
poison makes the whole row, master and state poison; else the recurrence gives each element its new value from its gradient,
its sums, the rate and its old value. -/
def Obligations.UpdateRecurrence : Prop :=
  (∀ (s : State) (o : Owner) (h : Nat) (bad : Option Nat) (c : Close) (vi key pos x keyAt : Nat),
    (let v := s.slot key
     let e := v.upd.getD {}
     let a := slotVa v.entry e (s.coef e.group) x 0
     let u := walkPages s (uUpdate h) o.cid [(a.key, 8, true), (a.stage.1, a.stage.2, true)]
     let stage := spans u (uUpdate h) o.cid a.stage.1 a.stage.2 true
     let w := u.dramWord (keyAt / 8)
     let next := nextSlot c.job h vi pos
     wordOff u (uUpdate h) o.cid a.key = some keyAt →
     (∀ z, partsStop u (uUpdate h) o.cid [(a.key, 8), a.stage] = some z → c.freeze.getLsbD e.group = true →
       closeSlot o h bad c vi key pos x s = slotStop u o h z) ∧
     (partsStop u (uUpdate h) o.cid [(a.key, 8), a.stage] = none →
       (c.freeze.getLsbD e.group = true → closeSlot o h bad c vi key pos x s =
         next (upHedge (freeSlot o stage a.key keyAt u) h
           (fun y => { y with up := { y.up with frozenSkipped := y.up.frozenSkipped + 1 } }))) ∧
       (c.freeze.getLsbD e.group = false → w.poison = false → w.data = 0 ∨ v.entry.rowCount < w.data.toNat →
         closeSlot o h bad c vi key pos x s = next (freeSlot o stage a.key keyAt (dramTouch u keyAt 8)))) ∧
     (c.freeze.getLsbD e.group = false → w.poison = true →
       closeSlot o h bad c vi key pos x s = failJob (dramTouch u keyAt 8) o stPoisoned))) ∧
  (∀ (c : Coef) (g : Word) (eta : Nat → BitVec 32) (staged : List (BitVec 32)) (r : RowCalc) (i : Nat),
    i < staged.length → r.s1.length = staged.length → r.s2.length = staged.length → r.w.length = staged.length →
    (let n := c.update g eta staged r
     let t := if c.keeps then min (r.t + 1) (2 ^ 32 - 1) else 1
     let gp := c.grad (staged.getD i 0)
     let b1 := if c.biasCorr then f32div f32one (f32sub f32one (powf (c.k 1) t)) else f32one
     let b2 := if c.biasCorr then f32div f32one (f32sub f32one (powf (c.k 3) t)) else f32one
     let den := if c.s2Mode = 0 then f32one
       else f32add (f32sqrt (f32mul b2 (if c.s2Mode = 1 then n.s2.getD i 0 else n.s2row))) c.eps
     let a := f32div (f32mul (f32mul (c.k 5) b1) (n.s1.getD i 0)) den
     let u := f32add (f32add a (f32mul (c.k 6) gp)) (f32mul (c.k 7) (r.w.getD i 0))
     n.t = t ∧ n.s1.getD i 0 = f32dot2 (c.k 1) (r.s1.getD i 0) (c.k 2) gp ∧
     n.s2.getD i 0 = f32dot2 (c.k 3) (r.s2.getD i 0) (c.k 4) (f32mul gp gp) ∧
     n.w.length = staged.length ∧
     n.w.getD i 0 = f32sub (r.w.getD i 0) (f32mul (eta (if c.etaIndex then t else g.toNat)) u))) ∧
  (∀ (c : BitVec 32) (d : Nat), 0 < d → powf c (2 * d) = f32mul (powf c d) (powf c d) ∧
    powf c (2 * d + 1) = f32mul (f32mul (powf c d) (powf c d)) c)

/-- R141 to R145: a ROW_WRITE whose turn has come runs; the first row that fails in list order ends its job, and then no row is
written; otherwise every row is written, stamped and counted. R318, R319, R322, R326, R331, R264: a scatter descriptor that
is refused ends its job and stages nothing; one that targets a version being closed is held; else its entries go in order,
after staging left undefined is zeroed; it leaves its queue once every entry has gone and every acknowledgement has come. -/
def Obligations.RowWritesAndScatters : Prop :=
  ((∀ (s : State) (job idx : Nat) (ext : List PWord) (j : Job) (k : JobCmd), s.powered = true → s.job job = some j →
     j.cmd? idx = some k → k.type = 6 →
     (j.mayStart k = true → s.mustFollow j k 7 = false → exec (.rowWrite job idx ext) s =
       .next (rowWriteRun j k ext (rowWriteBegin s j k))) ∧
     (j.status = none → k.state = .running → exec (.rowWrite job idx ext) s = .next (rowWriteRun j k ext s)) ∧
     (k.state = .waiting → s.mustFollow j k 7 = true → exec (.rowWrite job idx ext) s = .next s)) ∧
   (∀ (s : State) (j : Job) (k : JobCmd) (ext : List PWord), s.tileWaits (ownerOf j k.idx) none none = false →
     k.writes s j = none → rowWriteRun j k ext s = failJob s (ownerOf j k.idx) stBadDescriptor) ∧
   (∀ (s : State) (o : Owner) (key : Nat) (d : RowWD) (rows : List RowImg),
     (∀ st, rows.findSome? (rowFails s o.cid (s.slot key).entry) = some st →
       (writeRows s o key d rows).dram = s.dram ∧ (writeRows s o key d rows).slots = s.slots) ∧
     (rows.findSome? (rowFails s o.cid (s.slot key).entry) = none →
       (∀ p, rowWaits s o.cid (s.slot key).entry rows = some p →
         writeRows s o key d rows = waitTile s o none none 0 p.1 p.2) ∧
       (rowWaits s o.cid (s.slot key).entry rows = none → rows = [] →
         (writeRows s o key d rows).jobs = (cmdMark s o .done).jobs) ∧
       (∀ r, rows = [r] → rowWaits s o.cid (s.slot key).entry rows = none → s.lives o.job = true →
         s.busyLines (localLines s fwUnit o.cid [((s.slot key).entry.rowVa (r.index.getD 0), (s.slot key).entry.stride, true)])
           = false →
         (s.privetStop o.cid true (spans s fwUnit o.cid ((s.slot key).entry.rowVa (r.index.getD 0)) (8 * r.image.length) true)
           = none) →
         ((s.slot key).entry.rowVa (r.index.getD 0)) / 65536 =
           ((s.slot key).entry.rowVa (r.index.getD 0) + 8 * r.image.length - 1) / 65536 → 0 < r.image.length →
         ∀ off, translate s fwUnit o.cid ((s.slot key).entry.rowVa (r.index.getD 0)) true = .ok off → off % 8 = 0 →
           s.route off = .dram →
           (writeRows s o key d rows).slot key = { s.slot key with rowsWritten := (s.slot key).rowsWritten + 1 } ∧
           ∀ i, (writeRows s o key d rows).dram.word i =
             if paOff off / 8 ≤ i ∧ i < paOff off / 8 + r.image.length
               then (if ((stampRow d.stamp r.image).getD (i - paOff off / 8) PWord.bad).poison then .bad
                 else .good ((stampRow d.stamp r.image).getD (i - paOff off / 8) PWord.bad).data)
               else s.dram.word i)))) ∧
  (∀ (s : State) (c : CoreId) (e : QEntry) (l : List QEntry), s.powered = true → (s.core c).qScatter = e :: l →
     (s.tileWaits e.owner (some (uScatter c)) none = false →
       (let key := s.bound e.owner.job (parseScat (pdata e.desc)).table
        (anyPoison e.desc = true → exec (.scatterDescriptor c) s = .next (failJob s e.owner stPoisoned)) ∧
        (anyPoison e.desc = false →
          (∀ st, scatRefusal s e.owner key (pdata e.desc) = some st → ∃ t, exec (.scatterDescriptor c) s = .next t ∧
            t = failJob s e.owner st ∧ t.dram = s.dram ∧ t.slots = s.slots) ∧
          (∀ k, scatRefusal s e.owner key (pdata e.desc) = none → key = some k →
            (e.begun = false → s.closing k = true → exec (.scatterDescriptor c) s = .next s) ∧
            (e.begun = true ∨ s.closing k = false → exec (.scatterDescriptor c) s =
              .next (scatEntries c e.owner (parseScat (pdata e.desc)) k ((parseScat (pdata e.desc)).count - e.tilesDone)
                e.tilesDone (upScatHead (cleanStaging s k) c (fun e => { e with begun := true })))))))) ∧
     ((e.begun = true ∧ (parseScat (pdata e.desc)).count ≤ e.tilesDone ∧ s.quiet e.owner = true) →
       ∃ t, exec (.scatterComplete c) s = .next t ∧ t.core c = { s.core c with qScatter := l } ∧
         (∀ k, k ≠ c.val → t.core k = s.core k) ∧ t = { s with cores := t.cores }) ∧
     (¬(e.begun = true ∧ (parseScat (pdata e.desc)).count ≤ e.tilesDone ∧ s.quiet e.owner = true) →
       exec (.scatterComplete c) s = .next s))

/-- R494, R498 to R500: MODEL_LOAD refuses an image that fails a check, with the place of the failure, and changes nothing; else
it installs the image, and the model is resident once every TENSOR section is written; MODEL_UNLOAD frees every version,
codebook, context and Privet entry and leaves local DRAM. -/
def Obligations.Models : Prop :=
  ∀ (s : State) (f : FnId) (k : SlotId),
    (∀ image : HostRd, s.starts f k 0x10 → s.reqF (mailKey f k) 1 63 40 = 0 → s.tailZero (mailKey f k) 2 = true →
      (let len := s.reqF (mailKey f k) 1 39 0
       let m : Image := ⟨if image.ok then slice image.bytes 0 len else image.bytes.take len, len, image.ok⟩
       ∃ t, exec (.modelLoad f k image) s = .next t ∧
         (if s.model = true ∨ (s.req (mailKey f k) 0).toNat % 4096 ≠ 0 then
           t = respond (s.begun f k) f k stBadDescriptor (loadWords 0 0 0xFFFF 0)
         else if s.blocked f then t = s.begunWaits f k
         else match m.fails (s.begunRead f k image.ok) with
           | some x => t = respond (s.begunRead f k image.ok) f k x.1 (loadWords 0 0 x.2.1 x.2.2)
           | none => t.jobs = s.jobs ∧ t.flash = s.flash ∧ t.time = s.time ∧ t.sqs = s.sqs ∧ t.cqs = s.cqs ∧
             t.fwReserve = m.reserve ∧
             (let u := { extendMr (s.begunRead f k image.ok) 4 0x0005 (at_ 15 0 m.nsect) (Config.shake256 m.config) with
                fwReserve := m.reserve }
              (∀ x, m.mapSect = some x →
                t = awaitWardens (tellWardens u (fun _ => .map (mapOf (m.items x)))) f k (.mapped m)) ∧
              (m.mapSect = none → (m.all 2).isEmpty = false →
                t = awaitWardens (tellWardens u (fun _ => .privet (m.privets u.xl).privet)) f k (.widened m)) ∧
              (m.mapSect = none → (m.all 2).isEmpty = true → t = loadRest f k m u))))) ∧
    (∀ (m : Image) (u : State), (∀ x ∈ m.sects, x.kind ≠ 9) → (loadRest f k m u).model = true ∧
      (loadRest f k m u).upd.g = wd m.header 1 ∧ (loadRest f k m u).jobs = u.jobs ∧ (loadRest f k m u).imap = u.imap ∧
      (loadRest f k m u).xl.privet = u.xl.privet) ∧
    (s.starts f k 0x11 → s.tailZero (mailKey f k) 0 = true →
      (s.mayUnload = false → exec (.modelUnload f k) s = .next (respond (s.begun f k) f k stBadDescriptor [])) ∧
      (s.mayUnload = true → ∃ t, exec (.modelUnload f k) s = .next t ∧ t.model = false ∧ t.slots = [] ∧ t.codebooks = [] ∧
        t.counters = [] ∧ t.xl.contexts = [] ∧ t.ig.trecs = [] ∧ t.ig.pages = [] ∧ t.flash = s.flash ∧
        t.adminWaits = s.adminWaits ++ [.wardens f k (List.range 12) (.narrowed stOk [])]) ∧
      (∀ u : State, (afterWardens f k (.narrowed stOk []) u).xl.privet = [] ∧
        (afterWardens f k (.narrowed stOk []) u).xl.hostPrivet = [] ∧
        (afterWardens f k (.narrowed stOk []) u).xl.flashPrivet = []))

/-- R127, R130 to R139: TABLE_MAP creates a SHADOW version in the lowest free slot, or changes no slot; a TABLE_SWAP that is not
refused applies its actions at once, or waits while a table would have a third RETIRING version; a RETIRING version that
nothing uses becomes FREE. -/
def Obligations.TableVersions : Prop :=
  (∀ (s : State) (f : FnId) (k : SlotId) (runs : HostRd) (tier : List (Nat × List PWord)), s.starts f k 0x12 →
    (let u := s.begunRead f k runs.ok
     let q := mapReq s (mailKey f k) runs
     q.reserved s (mailKey f k) = false → ∃ t, exec (.tableMap f k runs tier) s = .next t ∧
       (if s.blocked f then t = s.begunWaits f k
       else if q.absent s = true then t = respond u f k stAbsentUnit []
       else if q.accepted s runs = true then
         match s.freeSlot q.table with
         | none => False
         | some key =>
           match (if q.hasCb then makeStore u else some u).bind (addTensors q key tier q.tensors) with
           | none => t = respond u f k stBadDescriptor []
           | some v => t = respond (createVersion q key v) f k stOk [at_ 33 32 (key % 4) ||| at_ 31 0 q.small] ∧
             t.slot key = ⟨.shadow, BitVec.ofNat 16 q.tv, q.e, if q.train then some q.u else none, BitVec.ofNat 12 q.writer,
               q.pages, 0, 0, 0, 0, 0⟩ ∧
             (∀ n, n ≠ key → t.slot n = s.slot n) ∧ t.jobs = s.jobs ∧ (q.hasCb = false → t.cores = s.cores)
       else t = respond u f k stBadDescriptor []))) ∧
  (∀ (s : State) (f : FnId) (k : SlotId), s.starts f k 0x13 → swapReserved s (mailKey f k) = false →
    (let l := swapEntries s (mailKey f k)
     let wait := bit (s.req (mailKey f k) 0) 63
     (swapOk s l = false → exec (.tableSwap f k) s = .next (respond (s.begun f k) f k stBadDescriptor [])) ∧
     (swapOk s l = true → swapFits s l = true → exec (.tableSwap f k) s = .next (swapApply (s.begun f k) f k l wait)) ∧
     (swapOk s l = true → swapFits s l = false → exec (.tableSwap f k) s = .next { s.begun f k with
       heldSwaps := s.heldSwaps ++ [⟨f, k, l, wait, false, 0, []⟩] }))) ∧
  (∀ (s : State) (fn slot : Nat) (l : List (Nat × Nat)) (wait : Bool), swapOk s l = true →
    (∀ e ∈ l,
      (e.2 = 0 → (∀ n, s.slotIn e.1 .current = some n →
          (swapApply s fn slot l wait).slot n = { s.slot n with state := .retiring }) ∧
        (∀ n, s.slotIn e.1 .shadow = some n →
          (swapApply s fn slot l wait).slot n = { s.slot n with state := .current, flipTicker := s.tickerW })) ∧
      (e.2 = 1 → ∀ n, s.slotIn e.1 .shadow = some n →
        (swapApply s fn slot l wait).slot n = { s.slot n with state := .retiring }) ∧
      (e.2 = 2 → ∀ n, s.slotIn e.1 .current = some n →
        (swapApply s fn slot l wait).slot n = { s.slot n with state := .retiring })) ∧
    (∀ n, (∀ e ∈ l, n / 4 ≠ e.1) → (swapApply s fn slot l wait).slot n = s.slot n) ∧
    (swapApply s fn slot l wait).dram = s.dram ∧ (swapApply s fn slot l wait).jobs = s.jobs) ∧
  (∀ (s : State) (h : HeldSwap), s.fwRuns = true →
    s.heldSwaps.find? (fun h => !h.applied && swapFits s h.entries) = some h →
    exec .tableSwapApply s = .next (swapApply
      { s with heldSwaps := dropFirst (fun h => !h.applied && swapFits s h.entries) s.heldSwaps } h.fn h.slot h.entries h.wait)) ∧
  (∀ (s : State) (table : Fin 4096) (v : SlotId), s.fwRuns = true →
    (s.mayRetire (4 * table.val + v.val) = true → ∃ t, exec (.retirement table v) s = .next t ∧ t = retire s (4 * table.val + v.val) ∧
      t.slot (4 * table.val + v.val) = {} ∧ (∀ n, n ≠ 4 * table.val + v.val → t.slot n = s.slot n) ∧ t.cores = s.cores ∧
      t.jobs = s.jobs ∧ t.codebooks = s.codebooks) ∧
    (s.mayRetire (4 * table.val + v.val) = false → exec (.retirement table v) s = .next s))

/-- R295 to R298: a routine piece goes into the bank that is not active, at once or once no CALL uses that bank; a bank that
passes its checks becomes the active one. -/
def Obligations.RoutineBanks : Prop :=
  (∀ (s : State) (f : FnId) (k : SlotId) (piece : HostRd), s.starts f k 0x18 → s.reqF (mailKey f k) 2 63 1 = 0 →
    s.tailZero (mailKey f k) 3 = true →
    (let off := s.reqF (mailKey f k) 1 63 32
     let len := s.reqF (mailKey f k) 1 31 0
     let ok := off % 8 = 0 ∧ len % 8 = 0 ∧ off + len ≤ 294912 ∧ bit (s.req (mailKey f k) 2) 0 = false
     (¬ok → exec (.routineLoad f k piece) s = .next (respond (s.begun f k) f k stBadDescriptor [])) ∧
     (ok → s.bankBusy s.otherBank = true → exec (.routineLoad f k piece) s = .next { s.begun f k with
       routines := { s.routines with held := some (f, k, off, len) } }) ∧
     (ok → s.bankBusy s.otherBank = false → exec (.routineLoad f k piece) s = .next (
       if s.blocked f then s.begunWaits f k
       else if piece.ok then respond (loadPiece (s.begun f k) off (slice piece.bytes 0 len)) f k stOk []
       else respond (s.begunRead f k false) f k stBadDescriptor [])))) ∧
  (∀ (s : State) (piece : HostRd) (f k off len : Nat), s.fwRuns = true → s.routines.held = some (f, k, off, len) →
    (s.bankBusy s.otherBank = true ∨ s.blocked 0 = true → exec (.routineLoadApply piece) s = .next s) ∧
    (s.bankBusy s.otherBank = false → s.blocked 0 = false → piece.ok = true → exec (.routineLoadApply piece) s = .next
      (respond (loadPiece s off (slice piece.bytes 0 len)) f k stOk [])) ∧
    (s.bankBusy s.otherBank = false → s.blocked 0 = false → piece.ok = false → exec (.routineLoadApply piece) s = .next
      (respond (rxFailed { s with routines := { s.routines with held := none } }) f k stBadDescriptor []))) ∧
  (∀ (s : State) (off : Nat) (l : List Byte), off % 8 = 0 → l.length % 8 = 0 → s.routines.active ≤ 1 →
    (let t := loadPiece s off l
     (∀ i, i < 32768 → Tbl.get 0 t.routines.words (32768 * s.otherBank + i) =
       if off / 8 ≤ i ∧ i < off / 8 + l.length / 8 then BitVec.ofNat 64 (leNat ((l.drop (8 * (i - off / 8))).take 8))
       else Tbl.get 0 s.routines.words (32768 * s.otherBank + i)) ∧
     (∀ i, i < 32768 → Tbl.get 0 t.routines.words (32768 * s.routines.active + i) =
       Tbl.get 0 s.routines.words (32768 * s.routines.active + i)) ∧
     (if s.otherBank = 0 then t.routines.valid0 else t.routines.valid1) = false ∧ t.routines.active = s.routines.active ∧
     t.dram = s.dram ∧ t.jobs = s.jobs)) ∧
  (∀ (s : State) (f : FnId) (k : SlotId), s.starts f k 0x19 → s.tailZero (mailKey f k) 0 = true →
    ∃ t, exec (.routineCommit f k) s = .next t ∧
      match s.commitFails s.otherBank with
      | some (st, rid, w) => t = respond (s.begun f k) f k st (commitWords rid w s.routines.active)
      | none => t.routines.active = s.otherBank ∧ (if s.otherBank = 0 then t.routines.valid0 else t.routines.valid1) = true ∧
        t.routines.words = s.routines.words ∧ t.dram = s.dram ∧ t.jobs = s.jobs ∧ t.flash = s.flash)

/-- R163 to R169, R391: an accepted MIGRATE marks its first page; each page that verifies is copied whole and remapped, and one
that does not stops the migration with ST_CHECKSUM and stays at its source. -/
def Obligations.Migrations : Prop :=
  (∀ (s : State) (f : FnId) (k : SlotId), s.starts f k 0x38 → s.reqF (mailKey f k) 1 51 46 = 0 →
    s.tailZero (mailKey f k) 2 = true →
    (let r := s.reqF (mailKey f k)
     let first := r 0 35 0
     let n := r 1 63 52 + 1
     (s.fGrade = false → r 1 45 44 = 2 → exec (.migrate f k) s = .next (respond (s.begun f k) f k stAbsentUnit [])) ∧
     (¬(s.fGrade = false ∧ r 1 45 44 = 2) →
       (s.versionOf (r 0 63 52) (r 0 51 36) = none →
         exec (.migrate f k) s = .next (respond (s.begun f k) f k stBadDescriptor [])) ∧
       (∀ v, s.versionOf (r 0 63 52) (r 0 51 36) = some v →
         (migrateOk s (s.slot v) first n (r 1 45 44) (r 1 43 0) = false →
           exec (.migrate f k) s = .next (respond (s.begun f k) f k stBadDescriptor [])) ∧
         (migrateOk s (s.slot v) first n (r 1 45 44) (r 1 43 0) = true →
           (let m : Migration := ⟨f, k, v, first, n, 0, r 1 45 44, r 1 43 0, false, none, none⟩
            ∃ t, exec (.migrate f k) s = .next t ∧ t = markPage m { s.begun f k with migrates := s.migrates ++ [m] } ∧
              t.migrates = s.migrates ++ [m] ∧ t.slot v = { s.slot v with migrating := 1 } ∧
              (∀ m, m ≠ v → t.slot m = s.slot m) ∧ t.jobs = s.jobs ∧ t.mbox = (s.begun f k).mbox)))))) ∧
  (∀ (s : State) (source : List PWord) (m : Migration) (rest : List Migration), s.fwRuns = true →
    s.migrates = m :: rest →
    (m.put.isSome = true ∨ s.sourceBusy m = true ∨ (s.route (m.src s) = .host ∧ s.blocked 0 = true) ∨
       m.words s source = none → exec (.migratePage source) s = .next s) ∧
    (∀ l, m.put = none → s.sourceBusy m = false → ¬(s.route (m.src s) = .host ∧ s.blocked 0 = true) →
       m.words s source = some l → ∃ t, exec (.migratePage source) s = .next t ∧
      (let u := if s.route (m.src s) = .dram then dramTouch s (paOff (m.src s)) 65536
         else if s.route (m.src s) = .host ∧ anyPoison l = true then rxFailed s else s
       if m.verifies u l = true then
         m.space = 0 → t = pageMoved (dramPut u (paOff (m.dst u)) l) m ∧
           (t.slot m.key).pages = movedPages (s.slot m.key).pages (m.firstPage + m.moved) 1 (m.dst s) ∧
           ∀ i, (dramPut u (paOff (m.dst u)) l).dram.word i =
             if h : paOff (m.dst u) / 8 ≤ i ∧ i < paOff (m.dst u) / 8 + l.length then
               (if (l[i - paOff (m.dst u) / 8]'(by omega)).poison then .bad
                 else .good (l[i - paOff (m.dst u) / 8]'(by omega)).data)
             else s.dram.word i
       else t = stopMigration (upIg u (fun g => { g with verifyFailed := g.verifyFailed + 1 })) m stChecksum ∧
         t.migrates = rest ∧ t.ig.verifyFailed = s.ig.verifyFailed + 1 ∧ (t.slot m.key).pages = (s.slot m.key).pages)))

/-- R581 to R583, R527, R510: an SPDM message that its stage allows is answered and moves the stage, any other is answered and
changes nothing; no SPDM message changes a measurement register or the log; IDE_KM in an established session sets its stream. -/
def Obligations.SpdmExchanges : Prop :=
  (∀ (s : State) (p : SpdmPort) (msg : List Byte), s.heard p = true →
    (let x := s.spdm p
     let r := Config.spdmReply x.transcript msg
     let agreed := x.stage = .negotiated
     let table : List (Instr × Bool × Spdm × (List Byte → List Byte)) := [
       (.spdmGetVersion p msg, true, { stage := .version }, fun _ => []),
       (.spdmGetCapabilities p msg, x.stage == .version, { x with stage := .capabilities }, fun _ => []),
       (.spdmNegotiateAlgorithms p msg, x.stage == .capabilities, { x with stage := .negotiated }, fun _ => []),
       (.spdmGetDigests p msg, decide agreed, x, fun _ => Config.sha3 Config.identityChain),
       (.spdmGetCertificate p msg, decide agreed, x, fun _ => chainPart msg),
       (.spdmChallenge p msg, decide agreed, x, Config.identitySign),
       (.spdmGetMeasurements p 0xFF false msg, decide agreed, x, fun _ => s.measurements 0xFF),
       (.spdmGetMeasurements p 0xFF true msg, decide agreed, x,
         fun t => s.measurements 0xFF ++ Config.identitySign (t ++ s.measurements 0xFF)),
       (.spdmKeyExchange p msg, decide (agreed ∧ x.session = .none), { x with session := .handshake }, Config.identitySign),
       (.spdmFinish p msg, x.session == .handshake, { x with session := .established }, fun _ => []),
       (.spdmEndSession p msg, x.session == .established, { x with session := .none }, fun _ => []),
       (.spdmHeartbeat p msg, x.session == .established, x, fun _ => [])]
     ∀ i ok y tail, (i, ok, y, tail) ∈ table → ∃ t, exec i s = .next t ∧
       (if ok = true ∧ Config.spdmValid msg = true then
         let reply := r ++ tail (x.transcript ++ msg ++ r)
         t.sec.mr = s.sec.mr ∧ t.sec.log = s.sec.log ∧ (t.spdm p).stage = y.stage ∧ (t.spdm p).session = y.session ∧
         (t.spdm p).transcript = y.transcript ++ msg ++ reply ∧
         (4096 < reply.length → (t.spdm p).chunkOut = reply) ∧
         (reply.length ≤ 4096 → t.out = s.out ++ [match p with
           | .doe => .doe reply
           | .mctp => .mctp reply]) ∧ t = { s with sec := t.sec, out := t.out }
       else t = { s with out := s.out ++ [match p with
         | .doe => .doe r
         | .mctp => .mctp r] }))) ∧
  (∀ (s : State) (p : SpdmPort) (chunk : List Byte) (last : Bool), s.heard p = true → chunk.length ≤ 4096 →
    ∃ t, exec (.spdmChunkSend p last chunk) s = .next t ∧
      (t.spdm p) = { s.spdm p with chunkIn := if last then [] else (s.spdm p).chunkIn ++ chunk } ∧ t.sec.mr = s.sec.mr ∧
      t = { s with sec := t.sec, out := t.out }) ∧
  (∀ (s : State) (p : SpdmPort) (index : Nat), s.heard p = true → ∃ t, exec (.spdmChunkGet p index) s = .next t ∧
    (let l := (s.spdm p).chunkOut
     t.out = s.out ++ [match p with
       | .doe => .doe ((l.drop (4096 * index)).take 4096)
       | .mctp => .mctp ((l.drop (4096 * index)).take 4096)] ∧
     (t.spdm p).chunkOut = (if l.length ≤ 4096 * (index + 1) then [] else l) ∧ t.sec.mr = s.sec.mr)) ∧
  (∀ (s : State) (p : SpdmPort) (stream : Fin 5) (enable : Bool) (msg : List Byte), s.heard p = true →
    ∃ t, exec (.ideKm p stream enable msg) s = .next t ∧ t.sec.mr = s.sec.mr ∧ t.dram = s.dram ∧ t.jobs = s.jobs ∧
      (if (s.spdm p).session = .established ∧ Config.spdmValid msg = true then
        ∀ i : Fin 5, t.link.ideEnabled.getLsbD i = (if i = stream then enable else s.link.ideEnabled.getLsbD i) ∧
          t.link.ideInsecure.getLsbD i = (if i = stream then false else s.link.ideInsecure.getLsbD i)
      else t = { s with out := t.out })) ∧
  (∀ (s : State) (index : Nat), s.heard .doe = true →
    exec (.doeDiscovery index) s = .next { s with out := s.out ++ [.doe (Config.doeReply index)] })

/-- R158, R160, R161, R380, R502: an epoch halves every access counter and takes the policy set last; the oldest event held is
posted where the queue has room; an uncorrectable word of management memory ends every job with ST_JOB_FAULT. -/
def Obligations.CountersAndEvents : Prop :=
  (∀ s : State, s.powered = true → due s mkEpoch (s.policy.epochMs * 1000000) = true → ∃ t,
    exec .counterEpoch s = .next t ∧ t.policy = s.policyNext ∧ t.hotPosted = false ∧
      (Tbl.rising none s.counters = true → ∀ k, Tbl.get {} t.counters k = { count := (Tbl.get {} s.counters k).count / 2 }) ∧
      t = { s with counters := t.counters, policy := t.policy, hotPosted := t.hotPosted, marks := t.marks }) ∧
  (∀ s : State, s.powered = true → due s mkEpoch (s.policy.epochMs * 1000000) = false → exec .counterEpoch s = .next s) ∧
  (∀ (s : State) (q : PfQ) (e : Event) (rest : List Event), s.fwRuns = true → s.eq = some q → s.evHeld = e :: rest →
    (q.full = false → s.blocked 0 = false → exec .eventPost s = .next (msix
      { s with evHeld := rest, eq := some q.advance,
               out := s.out ++ [.dma 0 (q.ring.toNat + 64 * q.tail) (wordsBytes e.words) false false] } 0 q.vector)) ∧
    (q.full = true ∨ s.blocked 0 = true → exec .eventPost s = .next s)) ∧
  (∀ (s : State) (u : SlotId), s.fwRuns = true → ∃ t, exec (.ulizorSramUncorrectable u) s = .next t ∧
    t.base = { s.base with sec := t.sec } ∧ u.val ∈ t.sec.reload ∧
    (∀ id, t.lives id = false) ∧ (∀ id j, s.job id = some j → j.status = none →
      ∃ j', t.job id = some j' ∧ j'.status = some stJobFault) ∧
    (s.sched.state ≠ .stopped → t.sched.state = .faulted) ∧ t.ig.jobFaults = s.ig.jobFaults + 1 ∧ t.evSeq = s.evSeq + 1)

/-- R400 to R404, R456: a test of two idle cores counts, cleans what it used and is stamped on both; a mismatch counts, and is
settled at once, or by a third core in a third hedge, or after 1 s without one; a residue mismatch ends every job; where the
hedge of a core holds BE starts back, the start is delayed. -/
def Obligations.GroomerTests : Prop :=
  (∀ (s : State) (a b : Nat) (diff : Option (Fin 6)) (named : Option Bool), s.fwRuns = true → s.groomPair = some (a, b) →
    s.ig.groom.enable = true → s.ig.groom.open_ = none → (s.groomDue a = true ∨ s.groomDue b = true) →
    ((s.hedge (a / 6)).beHeld = true ∨ (s.hedge (b / 6)).beHeld = true →
      ∀ bad, exec (.groomerTest diff named bad) s = .next (delayGroom s)) ∧
    ((s.hedge (a / 6)).beHeld = false → (s.hedge (b / 6)).beHeld = false →
      (∃ t, exec (.groomerTest diff named none) s = .next t ∧ t.dram = s.dram ∧ t.jobs = s.jobs ∧ t.sched = s.sched ∧
        (∀ k, k ≠ a → k ≠ b → t.core k = s.core k) ∧
        (∀ i, (t.core a).scratch.word i = (if i < 131072 then .good 0 else (s.core a).scratch.word i) ∧
          (t.core b).scratch.word i = (if i < 131072 then .good 0 else (s.core b).scratch.word i)) ∧
        ((∀ d, diff = some d → s.ig.groom.suite.getLsbD d.val = false) →
          t.ig.groomTests = s.ig.groomTests + 1 ∧ t.ig.groomMismatch = s.ig.groomMismatch ∧
          t.ig.groom.pass = s.ig.groom.pass + 1 ∧ (t.core a).groomLast = some s.ticker ∧
          (t.core b).groomLast = some s.ticker) ∧
        (∀ d, diff = some d → s.ig.groom.suite.getLsbD d.val = true → t.ig.groomMismatch = s.ig.groomMismatch + 1 ∧
          (s.ig.groom.arbitrate = true → (named = none ∨ d.val ≠ 5) →
            t.ig.groom.open_ = some ⟨a, b, d.val, s.ig.groom.depth, s.ticker⟩ ∧ t.ig.groomTests = s.ig.groomTests))) ∧
      (∀ side item lane, s.ig.groom.suite.getLsbD item.val = true → diff = none →
        ∃ t, exec (.groomerTest diff named (some (side, item, lane))) s = .next t ∧ (∀ id, t.lives id = false) ∧
          t.ig.groomTests = s.ig.groomTests + 1 ∧ t.ig.groomMismatch = s.ig.groomMismatch ∧ t.evSeq = s.evSeq + 3 ∧
          t.dram = s.dram))) ∧
  (∀ (s : State) (c : CoreId) (verdict : Arbiter) (g : GroomOpen), s.fwRuns = true → s.ig.groom.open_ = some g →
    (s.groomable c.val = true ∧ c.val / 6 ≠ g.a / 6 ∧ c.val / 6 ≠ g.b / 6) →
    ((s.hedge (c.val / 6)).beHeld = true → ∀ bad, exec (.groomerArbitrate c verdict bad) s = .next (delayGroom s)) ∧
    ((s.hedge (c.val / 6)).beHeld = false →
      (∃ t, exec (.groomerArbitrate c verdict none) s = .next t ∧ t.ig.groom.open_ = none ∧
        t.ig.groomTests = s.ig.groomTests + 1 ∧ t.dram = s.dram ∧ t.jobs = s.jobs ∧
        (verdict = .agreesA → t.ig.lastSuspect = BitVec.ofNat 8 g.b) ∧
        (verdict = .agreesB → t.ig.lastSuspect = BitVec.ofNat 8 g.a) ∧
        (verdict = .neither → t.ig.lastSuspect = s.ig.lastSuspect)) ∧
      (∀ lane, ∃ t, exec (.groomerArbitrate c verdict (some lane)) s = .next t ∧ (∀ id, t.lives id = false) ∧
        t.ig.groom.open_ = none ∧ t.dram = s.dram))) ∧
  (∀ (s : State) (g : GroomOpen), s.fwRuns = true → s.ig.groom.open_ = some g →
    (g.since + 1000000000 ≤ s.ticker → ∃ t, exec .groomerArbiterTimeout s = .next t ∧ t.ig.groom.open_ = none ∧
      t.ig.groomTests = s.ig.groomTests + 1 ∧ t.evSeq = s.evSeq + 1 ∧ t.ig.lastSuspect = s.ig.lastSuspect ∧ t.dram = s.dram) ∧
    (s.ticker < g.since + 1000000000 → exec .groomerArbiterTimeout s = .next s))

/-- R587 to R595: an accepted canary sample goes into its hour, a sample that R588 does not accept counts nowhere; at each whole
hour a point is written to flash with the stress of the worst hedge. -/
def Obligations.HealthRecords : Prop :=
  (∀ (s : State) (n : Fin 144) (r : CanaryReading), s.fwRuns = true → s.fitted (n.val / 2) = true →
    due s (mkCanary n.val) 10000000 = true →
    ∃ t, exec (.canarySample n r) s = .next t ∧
      match canaryDrift n.val r with
      | none => t = { s with marks := Tbl.set 0 s.marks (mkCanary n.val) (s.ticker / 10000000) }
      | some d => (t.core (n.val / 2)).samples = (s.core (n.val / 2)).samples + 1 ∧
        (t.core (n.val / 2)).hourA = (s.core (n.val / 2)).hourA ++ (if n.val % 2 = 0 then [d] else []) ∧
        (t.core (n.val / 2)).hourB = (s.core (n.val / 2)).hourB ++ (if n.val % 2 = 0 then [] else [d]) ∧
        (∀ k, k ≠ n.val / 2 → t.core k = s.core k) ∧ t = { s with cores := t.cores, marks := t.marks }) ∧
  (∀ (s : State) (n : Fin 144) (r : CanaryReading), s.fitted (n.val / 2) = false → exec (.canarySample n r) s = .next s) ∧
  (∀ (n : Nat) (r : CanaryReading), 5 ≤ r.mvBefore - r.mvAfter ∨ 5 ≤ r.mvAfter - r.mvBefore ∨ 5 ≤ r.tBefore - r.tAfter ∨
    5 ≤ r.tAfter - r.tBefore ∨ r.cycles = 0 → canaryDrift n r = none) ∧
  (∀ (s : State) (r : HourReading), s.fwRuns = true → (Instr.hourlyPoint r).wf = true →
    due s mkHour 3600000000000 = true → s.time.refLoss = false →
    (due s mkPoweredTime 600000000000 = true → s.time.persistOk = false) → ∃ t p, exec (.hourlyPoint r) s = .next t ∧
      t.flash = s.flash.addPoint p ∧ p.poweredS = s.poweredS ∧ p.values = s.indicators r ∧
      p.stress = s.health.stressH + hourStress r ∧ t.health.stressH = p.stress ∧ t.flash.historyH = s.flash.historyH + 1 ∧
      (∀ c ∈ t.cores, c.2.hourA = [] ∧ c.2.hourB = []) ∧ (∀ c ∈ t.chans, c.2.yewCe = 0) ∧ t.dram = s.dram ∧
      t.jobs = s.jobs) ∧
  (∀ (f : Flash) (p : AgePoint), f.ageing.length ≤ 8192 → f.ageing168.length ≤ 4096 →
    (f.addPoint p).ageing.length ≤ 8192 ∧ (f.addPoint p).ageing168.length ≤ 4096 ∧ (f.addPoint p).ageing.getLast? = some p)

/-- R532, R533, R538, R543, R550 to R552, R568: ports, reachability, retransmission, the census and its audit, and frames that
fail a check. R555: of the frames that wait at a port the one of the highest priority leaves, but link control only where none
has left in the last 15 frame times (the window is the model's reading, log entry 120). -/
def Obligations.FabricLinks : Prop :=
  (∀ (s : State) (p : Fin 32), s.powered = true →
    ((s.port p).up = true → ∃ t, exec (.portDown p) s = .next t ∧
      t.port p = { s.port p with up := false, tx := [], linkDowns := (s.port p).linkDowns + 1 } ∧
      (∀ q, q ≠ p.val → t.port q = s.port q) ∧ t.evSeq = s.evSeq + 1 ∧ t.dram = s.dram ∧ t.jobs = s.jobs) ∧
    (portExists s.fab.applied p = true → (s.port p).up = false → ∃ t, exec (.portUp p) s = .next t ∧
      (t.port p).up = true ∧ ((∀ m, (s.peer m).powerUps = none) → t.evSeq = s.evSeq + 1) ∧ t.dram = s.dram ∧ t.jobs = s.jobs ∧
      ∀ m ∈ s.peerList, (recPortMask s.fab.applied m).testBit p.val = true →
        (t.peer m).censusSeq = (s.peer m).censusSeq + 1) ∧
    ((s.port p).up = true → exec (.pauseFrame p) s =
      .next (upPort s p (fun q => { q with pauseDropped := q.pauseDropped + 1 }))) ∧
    ((s.port p).up = true → exec (.frameCheckFailure p .fcs) s =
        .next (upPort s p (fun q => { q with fcsErrors := q.fcsErrors + 1 })) ∧
      exec (.frameCheckFailure p .tooLong) s = .next (upPort s p (fun q => { q with fcsErrors := q.fcsErrors + 1 })) ∧
      exec (.frameCheckFailure p .icrc) s =
        .next (upPort s p (fun q => { q with rxFrames := q.rxFrames + 1, icrcErrors := q.icrcErrors + 1 })) ∧
      exec (.frameCheckFailure p .malformed) s =
        .next (upPort s p (fun q => { q with rxFrames := q.rxFrames + 1, icrcErrors := q.icrcErrors + 1 })))) ∧
  (∀ (s : State) (m : Fin 64), s.powered = true →
    ((s.peer m).reachable = true → due s (mkPeer m) 100000 = true → ∃ t, exec (.censusSend m) s = .next t ∧
      t.peer m = { s.peer m with censusSeq := (s.peer m).censusSeq + 1, nextPort := (t.peer m).nextPort } ∧
      Tbl.get 0 t.marks (mkPeer m) = s.ticker / 100000 ∧ t.fab.chans = s.fab.chans ∧ t.dram = s.dram ∧ t.jobs = s.jobs) ∧
    ((s.peer m).reachable = true → ((s.peer m).lastCensus + 1000000 ≤ s.ticker ∨ s.upPorts m = []) →
      ∃ t, exec (.peerUnreachable m) s = .next t ∧ t.peer m = { s.peer m with reachable := false } ∧
        t.evSeq = s.evSeq + 1 ∧ t.fab.chans = s.fab.chans ∧ t.dram = s.dram ∧ t.jobs = s.jobs) ∧
    (∀ lc a occ freed, (s.peer m).audit lc = some a → a.snap = some (occ, freed) →
      ∃ t, exec (.censusAudit m lc) s = .next t ∧ (t.peer m).audit lc = none ∧
        t.fab.censusChecked = s.fab.censusChecked + 1 ∧ t.fab.chans = s.fab.chans ∧ t.dram = s.dram ∧ t.jobs = s.jobs ∧
        (a.held + occ + (freed - a.returned) = BitVec.ofNat 32 (s.grant lc) →
          t.fab.auditMismatch = s.fab.auditMismatch ∧ t.evSeq = s.evSeq) ∧
        (a.held + occ + (freed - a.returned) ≠ BitVec.ofNat 32 (s.grant lc) →
          t.fab.auditMismatch = s.fab.auditMismatch + 1 ∧ t.evSeq = s.evSeq + 1)) ∧
    (∀ lc psn u, (s.lchan m lc).unacked.find? (fun u => u.psn == psn) = some u →
      u.sentAt + min (25000 * 2 ^ u.tries) 1600000 ≤ s.ticker → s.upPorts m ≠ [] →
      ∃ t p, exec (.laneaRetransmit m lc psn) s = .next t ∧ p ∈ s.upPorts m ∧
        ((s.port p).tx = [] → (s.port p).sent = false → fld u.w0 55 54 ≠ 2 →
          t.out = s.out ++ [s.laneaFrame p ⟨m, u.w0, u.w1, u.w2, u.w3, u.payload⟩]) ∧
        ((s.port p).sent = true → t.out = s.out ∧
          (t.port p).tx = joinTx ⟨m, u.w0, u.w1, u.w2, u.w3, u.payload⟩ (s.port p).tx) ∧
        (t.port p).retransmits = (s.port p).retransmits + 1 ∧
        (t.lchan m lc).unacked = updFirst (fun u => u.psn == psn)
          (fun u => { u with tries := u.tries + 1, sentAt := s.ticker }) (s.lchan m lc).unacked ∧
        t.dram = s.dram ∧ t.jobs = s.jobs)) ∧
  (∀ (s : State) (p : Nat),
    ((s.port p).sent = true → portGo s p = s) ∧
    (∀ f, (s.port p).sent = false → (s.port p).next = some f →
      (portGo s p).out = s.out ++ [s.laneaFrame p f] ∧ f ∈ (s.port p).tx ∧
      (∀ g ∈ (s.port p).tx, f.rank ≤ g.rank ∨ (g.rank = 0 ∧ 0 < (s.port p).ctlGap)) ∧
      ((portGo s p).port p).sent = true ∧ ((portGo s p).port p).tx = dropFirst (· == f) (s.port p).tx ∧
      ((portGo s p).port p).ctlGap = (if f.rank = 0 then 15 else (s.port p).ctlGap) ∧
      (f.rank = 0 → (s.port p).ctlGap = 0) ∧ (∀ q, q ≠ p → (portGo s p).port q = s.port q)) ∧
    ((s.port p).tx = [] → ((portSlot p s).port p).ctlGap = (s.port p).ctlGap - 1 ∧ (portSlot p s).out = s.out))

/-- R539 to R549, R553, R338, R340: a Lanea message of its kind is taken once and in order of its PSN; one already received is
counted and acknowledged again; one without a slot is dropped; a WRITE stores its payload and nothing else, a READ changes no
memory, and what the home's checks forbid reaches no memory. R541, R543, R545, R547, R548: a request goes out under the next
PSN where its channel holds a credit, and is kept until it is acknowledged; without a credit it waits; credits come back with
FREED; a module outside any domain grants none. -/
def Obligations.LaneaMessages : Prop :=
  ((∀ (s : State) (port : Fin 32) (m : LaneaMsg), s.powered = true → (s.port port).up = true → m.payload.length ≤ 520 →
     (let r := upPort s port (fun q => { q with rxFrames := q.rxFrames + 1 })
      let mine := fld m.w0 45 40 = s.moduleNo ∧ laneaSrc m ∈ s.peerList
      let p := laneaSrc m
      let table : List (Instr × Nat) := [(.laneaRead port m, 1), (.laneaWrite port m, 2), (.laneaAddAddress port m, 3),
        (.laneaAddGradient port m, 4), (.gatherReq port m, 5)]
      (∀ i k, (i, k) ∈ table → laneaOk m = true → mine → laneaResp m = false → laneaKind m = k →
        exec i s = .next (channelMsg port m r)) ∧
      (laneaOk m = true → mine → laneaResp m = true → exec (.laneaResponse port m) s = .next (channelMsg port m r)) ∧
      (∀ i k, (i, k) ∈ table → laneaOk m = false →
        exec i s = .next (upPort r port (fun q => { q with icrcErrors := q.icrcErrors + 1 }))) ∧
      (∀ i k, (i, k) ∈ table → laneaOk m = true → ¬mine → exec i s = .next r) ∧
      (laneaOk m = true → mine → laneaKind m = 6 → exec (.laneaCredit port m) s =
        .next (creditChan (creditChan r p true (m.w2.extractLsb' 32 32)) p false (m.w2.extractLsb' 0 32))) ∧
      (laneaOk m = true → mine → laneaKind m = 8 → exec (.laneaAck port m) s =
        .next (ackChan (ackChan r p true (m.w2.extractLsb' 32 32)) p false (m.w2.extractLsb' 0 32))) ∧
      (laneaOk m = true → mine → laneaKind m = 7 → anyPoison m.payload = false →
        (s.peer p).powerUps = some ((wd (pdata m.payload) 0).extractLsb' 32 32) → ∃ t, exec (.census port m) s = .next t ∧
          (t.peer p).lastCensus = s.ticker ∧ (t.peer p).powerUps = (s.peer p).powerUps ∧
          (t.peer p).reachable = decide (s.upPorts p ≠ []) ∧ t.dram = s.dram ∧ t.jobs = s.jobs))) ∧
   (∀ (s : State) (port : Nat) (m : LaneaMsg),
     (let p := laneaSrc m
      let lc := laneaLc m
      let psn := laneaPsn m
      let c := s.lchan p lc
      (c.started = false → channelMsg port m s = s) ∧
      (c.started = true → (seqLe psn c.psnRx = true ∨ ∃ e ∈ c.early, e.1 = psn) → channelMsg port m s =
        sendAck (drainEarly p lc c.early.length (upPort s port (fun q => { q with dupDrops := q.dupDrops + 1 }))) p) ∧
      (c.started = true → seqLe psn c.psnRx = false → c.early = [] → laneaResp m = false →
        (s.grant lc ≤ c.slots.length →
          channelMsg port m s = upPort s port (fun q => { q with overruns := q.overruns + 1 })) ∧
        (c.slots.length < s.grant lc →
          (psn ≠ c.psnRx + 1 → (channelMsg port m s).dram = s.dram ∧
            ((channelMsg port m s).lchan p lc) = { c with slots := c.slots ++ [(psn, laneaTxn m)], early := [(psn, m)] }) ∧
          (psn = c.psnRx + 1 → s.homeHeld m = false → channelMsg port m s = sendAck (inOrder m (upLchan s p lc
            (fun c => { c with slots := c.slots ++ [(psn, laneaTxn m)] }))) p) ∧
          (psn = c.psnRx + 1 → s.homeHeld m = true → (channelMsg port m s).dram = s.dram ∧
            ((channelMsg port m s).lchan p lc) = { c with slots := c.slots ++ [(psn, laneaTxn m)], early := [(psn, m)] }))))) ∧
   (∀ (s : State) (m : LaneaMsg),
     (∀ i, (homeRead m s).dram.word i = s.dram.word i) ∧ (homeRead m s).jobs = s.jobs ∧ (homeRead m s).cores = s.cores ∧
     (∀ t st, homeCheck s (laneaCid m) (fld m.w2 55 0) (8 * m.payload.length) true = (t, some st) →
       (homeWrite m s).dram = s.dram) ∧
     (homeCheck s (laneaCid m) (fld m.w2 55 0) (8 * m.payload.length) true = (s, none) →
       ∀ i, (homeWrite m s).dram.word i =
         (let w := paOff (fld m.w2 55 0) / 8
          if w ≤ i ∧ i < w + m.payload.length then
            (if (m.payload.getD (i - w) PWord.bad).poison then .bad else .good (m.payload.getD (i - w) PWord.bad).data)
          else s.dram.word i)) ∧
     (∀ cid pa n write t, homeCheck s cid pa n write = (t, none) → t = s ∧ paModule pa = s.moduleNo ∧ paSpace pa = 0 ∧
       paOff pa % 8 = 0 ∧ paOff pa + n ≤ dramBytes ∧ ∀ l ∈ linesOf (paOff pa) n, s.privetOk cid 0 l write = true))) ∧
  ((∀ (s : State) (m : Nat) (lc : Bool) (kind : Nat) (cid : BitVec 12) (txn : BitVec 16) (w2 w3 : Word) (l : List PWord),
     ((s.lchan m lc).held = 0 → ∃ u, sendReq s m lc kind cid txn w2 w3 l =
       upLchan s m lc (fun c => { c with waiting := c.waiting ++ [u] })) ∧
     (0 < (s.lchan m lc).held → ∃ u, ((sendReq s m lc kind cid txn w2 w3 l).lchan m lc).unacked =
         (s.lchan m lc).unacked ++ [u] ∧ u.psn = (s.lchan m lc).psnTx + 1 ∧ u.w2 = w2 ∧ u.w3 = w3 ∧
       ((sendReq s m lc kind cid txn w2 w3 l).lchan m lc).held = (s.lchan m lc).held - 1 ∧
       ((sendReq s m lc kind cid txn w2 w3 l).lchan m lc).psnTx = (s.lchan m lc).psnTx + 1)) ∧
   (∀ (s : State) (m : Nat) (lc : Bool) (freed : BitVec 32), seqLe (s.lchan m lc).returned freed = true →
     (let c := s.lchan m lc
      let d := (creditChan s m lc freed).lchan m lc
      d.returned = freed ∧ d.held + min c.waiting.length (c.held + (freed - c.returned).toNat) =
        c.held + (freed - c.returned).toNat ∧
      d.waiting = c.waiting.drop (c.held + (freed - c.returned).toNat))) ∧
   (∀ (s : State) (m : Nat) (lc : Bool) (ack : BitVec 32),
     ((ackChan s m lc ack).lchan m lc).unacked = (s.lchan m lc).unacked.filter (fun u => !seqLe u.psn ack) ∧
     (ackChan s m lc ack).dram = s.dram) ∧
   (∀ (s : State) (m : Nat) (lc : Bool) (txn : BitVec 16),
     ((slotFreed s m lc txn).lchan m lc).freed = (s.lchan m lc).freed + 1 ∧
     ((slotFreed s m lc txn).lchan m lc).slots = dropFirst (fun e => e.2 == txn) (s.lchan m lc).slots) ∧
   (∀ (s : State) (lc : Bool), s.fab.applied = [] → s.grant lc = 0))

/-- R46, R560, R561: a PTP master sends Sync with its Ticker and answers Delay_Req; a slave takes the offset, keeps its trim
within ±25 ppm, locks after 16 good measurements in a row, and is in holdover after 2 s without a Sync. -/
def Obligations.DomainTime : Prop :=
  ∀ s : State, s.powered = true →
    (s.ptpRole = 1 → s.ptpPortUp = true →
      (due s mkPtp s.syncPeriod = true → exec .ptpSyncSend s = .next { s with
        marks := Tbl.set 0 s.marks mkPtp (s.ticker / s.syncPeriod), out := s.out ++ [.ptpSync s.ptpPort s.ptpDomain s.tickerW] }) ∧
      (∀ slave rx, exec (.ptpDelayReq slave rx) s =
        .next { s with out := s.out ++ [.ptpDelayResp s.ptpPort s.ptpDomain slave (BitVec.ofNat 64 rx)] })) ∧
    (s.ptpRole = 2 → s.ptpPortUp = true → ∀ offset trim, ∃ t, exec (.ptpSync offset trim) s = .next t ∧
      t.time.domainOffset = s.time.domainOffset + BitVec.ofInt 64 offset ∧
      t.time.rateTrim = BitVec.ofInt 32 (max (-25000) (min 25000 trim)) ∧
      -25000 ≤ t.time.rateTrim.toInt ∧ t.time.rateTrim.toInt ≤ 25000 ∧ t.fab.ptpLastSync = s.ticker ∧
      t.fab.lastOffset = BitVec.ofInt 64 offset ∧
      (-100 ≤ offset → offset ≤ 100 → s.time.ptpState ≠ 3 → t.fab.ptpGood = s.fab.ptpGood + 1 ∧
        (15 ≤ s.fab.ptpGood → t.time.ptpState = 2)) ∧
      (offset < -100 ∨ 100 < offset → t.fab.ptpGood = 0) ∧
      (s.time.ptpState ≠ 2 → t.fab.ptpGood < 16 → t.time.ptpState = 1) ∧ t = { s with time := t.time, fab := t.fab }) ∧
    (s.ptpRole = 2 → (s.time.ptpState = 1 ∨ s.time.ptpState = 2) → s.fab.ptpLastSync + 2000000000 ≤ s.ticker →
      exec .ptpHoldover s = .next { s with time := { s.time with ptpState := 3 } }) ∧
    (s.ticker < s.fab.ptpLastSync + 2000000000 → exec .ptpHoldover s = .next s)

/-- R562 to R566: the NVMe initiator: Reads and Writes over whole 4 KiB blocks while the controller is ready, what their ends do,
and the connection; a failed Read delivers poison. -/
def Obligations.FlashInitiator : Prop :=
  ∀ (s : State) (e : Fin 16), s.powered = true →
    ((s.nvmeCtl e).ready = false → exec (.nvmeRead e) s = .next s) ∧
    ((s.nvmeCtl e).ready = true →
      (∀ b r, s.askedRow e = some (b, r) → ∃ t, exec (.nvmeRead e) s = .next t ∧
        (t.nvmeCtl e).cmds = (s.nvmeCtl e).cmds ++ [⟨s.fab.nextNvme, false, r.off, some (b.id, r.pos), s.ticker⟩] ∧
        t.out = s.out ++ [.nvme e s.fab.nextNvme false (s.flashLba (4096 * (r.off / 4096)))
          ((r.off + b.rowBytes s - 1) / 4096 + 1 - r.off / 4096) []] ∧ t.dram = s.dram ∧ t.jobs = s.jobs ∧
        t.fab.nextNvme = s.fab.nextNvme + 1) ∧
      (∀ m rest l, s.migrates = m :: rest → m.put = some l → (s.nvmeCtl e).moving = false →
        flashEntry (paOff (m.dst s)) = e.val → ∃ t, exec (.nvmeWrite e) s = .next t ∧
          (t.nvmeCtl e).cmds = (s.nvmeCtl e).cmds ++ [⟨s.fab.nextNvme, true, paOff (m.dst s), none, s.ticker⟩] ∧
          t = { s with fab := t.fab, out := t.out } ∧ ∃ n, t.out = s.out ++
            [.nvme e s.fab.nextNvme true (s.flashLba (4096 * (paOff (m.dst s) / 4096))) n l])) ∧
    (∀ tag x, (s.nvmeCtl e).cmds.find? (fun x => x.tag == tag) = some x →
      (let s1 := upNvme s e (fun c => { c with cmds := c.cmds.filter (fun y => y.tag != tag) })
       (∀ data, x.isWrite = false → ∃ t, exec (.nvmeCompletion e tag (.ok data)) s = .next t ∧
         t = nvmeDeliver x data { s1 with fab := { s1.fab with nvmeReads := s1.fab.nvmeReads + 1 } } ∧
         (t.nvmeCtl e).cmds = (s.nvmeCtl e).cmds.filter (fun y => y.tag != tag) ∧ t.dram = s.dram ∧ t.jobs = s.jobs) ∧
       (x.isWrite = false → exec (.nvmeCompletion e tag .error) s =
         .next (nvmeDeliver x [] { s1 with fab := { s1.fab with nvmeErrors := s1.fab.nvmeErrors + 1 } })) ∧
       (x.isWrite = true → ∀ data m rest, s.migrates = m :: rest → m.put.isSome = true →
         exec (.nvmeCompletion e tag (.ok data)) s =
           .next (pageMoved { s1 with fab := { s1.fab with nvmeWrites := s1.fab.nvmeWrites + 1 } } m)) ∧
       (x.sentAt + 100000000 ≤ s.ticker → exec (.nvmeCommandTimeout e tag) s =
         .next (nvmeFail x { s1 with fab := { s1.fab with nvmeTimeouts := s1.fab.nvmeTimeouts + 1 } })) ∧
       (s.ticker < x.sentAt + 100000000 → exec (.nvmeCommandTimeout e tag) s = .next s))) ∧
    (∀ id pos b, s.bag id = some b → ∀ x : NvmeCmd, x.bag = some (id, pos) →
      (∃ r ∈ b.tails, r.pos = pos) → ∃ b' r', (nvmeDeliver x [] s).bag id = some b' ∧
        b'.tails.find? (fun r => r.pos == pos) = some r' ∧
        r'.state = .here (List.replicate (b.rowBytes s / 8) PWord.bad)) ∧
    ((s.nvmeCtl e).up = true → ∃ t, exec (.nvmeConnectionLost e) s = .next t ∧ (t.nvmeCtl e).up = false ∧
      (t.nvmeCtl e).lost = true ∧ (t.nvmeCtl e).cmds = [] ∧
      t.fab.nvmeErrors = s.fab.nvmeErrors + (s.nvmeCtl e).cmds.length ∧ t.evSeq = s.evSeq + 1 ∧
      ((∀ x ∈ (s.nvmeCtl e).cmds, x.isWrite = false) → t.dram = s.dram)) ∧
    (s.fwRuns = true → s.fGrade = true → s.fab.applied ≠ [] → recFlashValid s.fab.applied e = true →
      (s.nvmeCtl e).up = false → due s (mkConnect e) 1000000000 = true → ∀ usable,
      ∃ t, exec (.nvmeReconnect e true usable) s = .next t ∧
        t.nvmeCtl e = { s.nvmeCtl e with up := true, usable := usable, lost := false } ∧ t.dram = s.dram ∧ t.jobs = s.jobs ∧
        t.evSeq = s.evSeq + (if (s.nvmeCtl e).lost then 1 else 0)) ∧
    ((s.nvmeCtl e).up = true → due s (mkKeepAlive e) 1000000000 = true → exec (.nvmeKeepAlive e) s = .next { s with
      marks := Tbl.set 0 s.marks (mkKeepAlive e) (s.ticker / 1000000000), out := s.out ++ [.nvmeKeepAlive e] })
end

