-- ==== Sys2Proof/Laws/Tables.lean ====
section
/-!
SUPPORT. What the finite tables do: reading after a write, and the canonical form.
-/
namespace Sys2Proof.Machine

variable {α : Type}

@[simp] theorem Tbl.get_nil (d : α) (k : Nat) : Tbl.get d [] k = d := rfl

theorem Tbl.get_cons (d : α) (j : Nat) (v : α) (t : Tbl α) (k : Nat) :
    Tbl.get d ((j, v) :: t) k = if k = j then v else Tbl.get d t k := rfl

/-- A key that no entry has reads as the default. -/
theorem Tbl.get_of_not_mem (d : α) (t : Tbl α) (k : Nat) (h : ∀ e ∈ t, e.1 ≠ k) : Tbl.get d t k = d := by
  induction t with
  | nil => rfl
  | cons e t ih =>
    obtain ⟨j, v⟩ := e
    rw [Tbl.get_cons, if_neg (fun hk => h (j, v) (by simp) hk.symm)]
    exact ih fun e he => h e (by simp [he])

/-- A filter that keeps every entry of a key leaves what it reads. -/
theorem Tbl.get_filter (d : α) (p : Nat × α → Bool) (t : Tbl α) (k : Nat) (h : ∀ v, p (k, v) = true) :
    Tbl.get d (t.filter p) k = Tbl.get d t k := by
  induction t with
  | nil => rfl
  | cons e t ih =>
    obtain ⟨j, v⟩ := e
    by_cases hj : k = j
    · subst hj
      rw [List.filter_cons_of_pos (h v), Tbl.get_cons, Tbl.get_cons, if_pos rfl, if_pos rfl]
    · rw [Tbl.get_cons, if_neg hj, ← ih]
      by_cases hp : p (j, v) = true
      · rw [List.filter_cons_of_pos hp, Tbl.get_cons, if_neg hj]
      · rw [List.filter_cons_of_neg hp]

/-- After an erase the key reads as the default, every other key as before. -/
theorem Tbl.get_erase (d : α) (t : Tbl α) (k i : Nat) :
    Tbl.get d (Tbl.erase t k) i = if i = k then d else Tbl.get d t i := by
  induction t with
  | nil => simp [Tbl.erase, Tbl.get]
  | cons e t ih =>
    obtain ⟨j, v⟩ := e
    by_cases hk : k = j
    · subst hk
      by_cases hi : i = k
      · subst hi
        simpa [Tbl.erase] using ih
      · simp [Tbl.erase, Tbl.get, ih, hi]
    · by_cases hi : i = j
      · subst hi
        have hne : ¬ i = k := fun h => hk h.symm
        simp [Tbl.erase, Tbl.get, hk, hne]
      · simp [Tbl.erase, Tbl.get, ih, hi, hk]

/-- After a put the key reads as the value put, every other key as before. -/
theorem Tbl.get_put (d : α) (t : Tbl α) (k i : Nat) (v : α) :
    Tbl.get d (Tbl.put t k v) i = if i = k then v else Tbl.get d t i := by
  induction t with
  | nil => simp [Tbl.put, Tbl.get]
  | cons e t ih =>
    obtain ⟨j, w⟩ := e
    unfold Tbl.put
    split
    · rename_i h
      subst h
      by_cases hi : i = k <;> simp [Tbl.get, hi]
    · split
      · simp [Tbl.get]
      · rename_i hk hlt
        simp only [Tbl.get, ih]
        by_cases hi : i = k
        · subst hi
          simp [hk]
        · simp [hi]

/-- Reading after a write of the canonical form. -/
@[simp] theorem Tbl.get_set [DecidableEq α] (d : α) (t : Tbl α) (k i : Nat) (v : α) :
    Tbl.get d (Tbl.set d t k v) i = if i = k then v else Tbl.get d t i := by
  unfold Tbl.set
  split
  · rename_i h
    subst h
    exact Tbl.get_erase v t k i
  · exact Tbl.get_put d t k i v

/-- Another key reads as before, whatever the two defaults are. -/
theorem Tbl.get_set_ne [DecidableEq α] (d e : α) (t : Tbl α) {k i : Nat} (v : α) (h : i ≠ k) :
    Tbl.get d (Tbl.set e t k v) i = Tbl.get d t i := by
  unfold Tbl.set
  split
  · rw [Tbl.get_erase, if_neg h]
  · rw [Tbl.get_put, if_neg h]

/-- Reading after a change. -/
@[simp] theorem Tbl.get_upd [DecidableEq α] (d : α) (t : Tbl α) (k i : Nat) (f : α → α) :
    Tbl.get d (Tbl.upd d t k f) i = if i = k then f (Tbl.get d t k) else Tbl.get d t i :=
  Tbl.get_set d t k i _

/-- A lower bound of the keys may be weakened. -/
theorem Tbl.rising_mono {t : Tbl α} {a b : Nat} (hab : a ≤ b) (h : Tbl.rising (some b) t = true) :
    Tbl.rising (some a) t = true := by
  cases t with
  | nil => rfl
  | cons e t =>
    simp only [Tbl.rising, Bool.and_eq_true, decide_eq_true_eq] at h ⊢
    exact ⟨by omega, h.2⟩

theorem Tbl.rising_none {t : Tbl α} {a : Nat} (h : Tbl.rising (some a) t = true) : Tbl.rising none t = true := by
  cases t with
  | nil => rfl
  | cons e t =>
    simp only [Tbl.rising, Bool.and_eq_true, decide_eq_true_eq, Bool.true_and] at h ⊢
    exact h.2

/-- Erasing keeps the keys rising. -/
theorem Tbl.rising_erase {t : Tbl α} (k : Nat) : ∀ {lo : Option Nat}, Tbl.rising lo t = true →
    Tbl.rising lo (Tbl.erase t k) = true := by
  induction t with
  | nil => intro lo h; exact h
  | cons e t ih =>
    obtain ⟨j, v⟩ := e
    intro lo h
    unfold Tbl.erase
    split
    · apply ih
      cases lo with
      | none => exact Tbl.rising_none (by simpa [Tbl.rising] using h)
      | some l =>
        simp only [Tbl.rising, Bool.and_eq_true, decide_eq_true_eq] at h
        exact Tbl.rising_mono (Nat.le_of_lt h.1) h.2
    · simp only [Tbl.rising, Bool.and_eq_true] at h ⊢
      exact ⟨h.1, ih h.2⟩

/-- Putting keeps the keys rising. -/
theorem Tbl.rising_put {t : Tbl α} (k : Nat) (v : α) : ∀ {lo : Option Nat}, Tbl.rising lo t = true →
    (∀ l, lo = some l → l < k) → Tbl.rising lo (Tbl.put t k v) = true := by
  induction t with
  | nil =>
    intro lo _ hl
    cases lo with
    | none => rfl
    | some l => simpa [Tbl.put, Tbl.rising] using hl l rfl
  | cons e t ih =>
    obtain ⟨j, w⟩ := e
    intro lo h hl
    unfold Tbl.put
    split
    · rename_i hk
      subst hk
      exact h
    · split
      · rename_i hlt
        simp only [Tbl.rising, Bool.and_eq_true] at h ⊢
        refine ⟨?_, by simpa using hlt, h.2⟩
        cases lo with
        | none => rfl
        | some l => simpa using hl l rfl
      · rename_i hk hlt
        simp only [Tbl.rising, Bool.and_eq_true] at h ⊢
        refine ⟨h.1, ih h.2 ?_⟩
        intro l hl
        cases hl
        omega

/-- Removing entries keeps the keys rising. -/
theorem Tbl.rising_filter (p : Nat × α → Bool) {t : Tbl α} : ∀ {lo : Option Nat}, Tbl.rising lo t = true →
    Tbl.rising lo (t.filter p) = true := by
  induction t with
  | nil => intro lo h; exact h
  | cons e t ih =>
    obtain ⟨j, v⟩ := e
    intro lo h
    simp only [List.filter_cons]
    split
    · simp only [Tbl.rising, Bool.and_eq_true] at h ⊢
      exact ⟨h.1, ih h.2⟩
    · apply ih
      cases lo with
      | none => exact Tbl.rising_none (by simpa [Tbl.rising] using h)
      | some l =>
        simp only [Tbl.rising, Bool.and_eq_true, decide_eq_true_eq] at h
        exact Tbl.rising_mono (Nat.le_of_lt h.1) h.2

/-- What an erase leaves was there. -/
theorem Tbl.mem_erase {t : Tbl α} {k : Nat} {e : Nat × α} (h : e ∈ Tbl.erase t k) : e ∈ t := by
  induction t with
  | nil => exact h
  | cons x t ih =>
    obtain ⟨j, v⟩ := x
    unfold Tbl.erase at h
    split at h
    · exact List.mem_cons_of_mem _ (ih h)
    · rcases List.mem_cons.mp h with h | h
      · exact h ▸ List.mem_cons_self
      · exact List.mem_cons_of_mem _ (ih h)

/-- What a put leaves was there or is the entry put. -/
theorem Tbl.mem_put {t : Tbl α} {k : Nat} {v : α} {e : Nat × α} (h : e ∈ Tbl.put t k v) : e = (k, v) ∨ e ∈ t := by
  induction t with
  | nil => simpa [Tbl.put] using h
  | cons x t ih =>
    obtain ⟨j, w⟩ := x
    unfold Tbl.put at h
    split at h
    · rcases List.mem_cons.mp h with h | h
      · exact .inl h
      · exact .inr (List.mem_cons_of_mem _ h)
    · split at h
      · rcases List.mem_cons.mp h with h | h
        · exact .inl h
        · exact .inr h
      · rcases List.mem_cons.mp h with h | h
        · exact .inr (h ▸ List.mem_cons_self)
        · rcases ih h with h | h
          · exact .inl h
          · exact .inr (List.mem_cons_of_mem _ h)

/-- A table over a default that depends on the key: a write keeps its canonical form. -/
theorem Tbl.wf_set [DecidableEq α] (d : Nat → α) {t : Tbl α} (k : Nat) (v : α)
    (h : (Tbl.rising none t && t.all (fun e => decide (e.2 ≠ d e.1))) = true) :
    (Tbl.rising none (Tbl.set (d k) t k v) && (Tbl.set (d k) t k v).all (fun e => decide (e.2 ≠ d e.1))) = true := by
  simp only [Bool.and_eq_true, List.all_eq_true, decide_eq_true_eq] at h ⊢
  unfold Tbl.set
  split
  · exact ⟨Tbl.rising_erase k h.1, fun e he => h.2 e (Tbl.mem_erase he)⟩
  · rename_i hv
    refine ⟨Tbl.rising_put k v h.1 (by simp), fun e he => ?_⟩
    rcases Tbl.mem_put he with rfl | he
    · exact hv
    · exact h.2 e he

/-- Sorting keeps the elements. -/
@[simp] theorem mem_insertBy {α : Type} (le : α → α → Bool) (x y : α) (l : List α) :
    y ∈ insertBy le x l ↔ y = x ∨ y ∈ l := by
  induction l with
  | nil => simp [insertBy]
  | cons z l ih =>
    unfold insertBy
    split
    · simp
    · simp only [List.mem_cons, ih]
      tauto

@[simp] theorem mem_sortBy {α : Type} (le : α → α → Bool) (y : α) (l : List α) : y ∈ sortBy le l ↔ y ∈ l := by
  induction l with
  | nil => simp [sortBy]
  | cons x l ih => simp [sortBy, ih]

@[simp] theorem length_insertBy {α : Type} (le : α → α → Bool) (x : α) (l : List α) :
    (insertBy le x l).length = l.length + 1 := by
  induction l with
  | nil => rfl
  | cons z l ih =>
    unfold insertBy
    split
    · rfl
    · simp [ih]

@[simp] theorem length_sortBy {α : Type} (le : α → α → Bool) (l : List α) : (sortBy le l).length = l.length := by
  induction l with
  | nil => rfl
  | cons x l ih => simp [sortBy, ih]

end Sys2Proof.Machine
end

