-- ==== Sys2Proof/Laws/Memory.lean ====
section
/-!
SUPPORT. Memories of protected words: every operation keeps the canonical form and what an unlisted byte reads as, and a
word reads as it was written.
-/
namespace Sys2Proof.Machine

/-- The canonical form, as its two halves. -/
theorem Mem.wf_iff (m : Mem) : m.wf = true ↔
    (Tbl.rising none m.bytes && m.bytes.all (fun e => decide (e.2 ≠ m.dfltByte e.1))) = true ∧
    (Tbl.rising none m.syn && m.syn.all (fun e => decide (e.2 ≠ m.dfltSyn e.1))) = true := by
  unfold Mem.wf
  rw [Bool.and_eq_true]

theorem Mem.wf_empty (l : Option Nat) (n : Nat) : ({ lost := l, lostTo := n } : Mem).wf = true := rfl

@[simp] theorem Mem.putByte_lost (m : Mem) (a : Nat) (b : Byte) : (m.putByte a b).lost = m.lost := rfl

@[simp] theorem Mem.putByte_lostTo (m : Mem) (a : Nat) (b : Byte) : (m.putByte a b).lostTo = m.lostTo := rfl

@[simp] theorem Mem.putByte_syn (m : Mem) (a : Nat) (b : Byte) : (m.putByte a b).syn = m.syn := rfl

theorem Mem.wf_putByte {m : Mem} (a : Nat) (b : Byte) (h : m.wf = true) : (m.putByte a b).wf = true := by
  rw [Mem.wf_iff] at h ⊢
  exact ⟨Tbl.wf_set m.dfltByte a b h.1, h.2⟩

@[simp] theorem Mem.putBytes_lost (l : List Byte) : ∀ (m : Mem) (a : Nat), (m.putBytes a l).lost = m.lost := by
  induction l with
  | nil => intro m a; rfl
  | cons b l ih => intro m a; exact ih _ _

@[simp] theorem Mem.putBytes_lostTo (l : List Byte) : ∀ (m : Mem) (a : Nat), (m.putBytes a l).lostTo = m.lostTo := by
  induction l with
  | nil => intro m a; rfl
  | cons b l ih => intro m a; exact ih _ _

@[simp] theorem Mem.putBytes_syn (l : List Byte) : ∀ (m : Mem) (a : Nat), (m.putBytes a l).syn = m.syn := by
  induction l with
  | nil => intro m a; rfl
  | cons b l ih => intro m a; exact ih _ _

theorem Mem.wf_putBytes (l : List Byte) : ∀ {m : Mem} (a : Nat), m.wf = true → (m.putBytes a l).wf = true := by
  induction l with
  | nil => intro m a h; exact h
  | cons b l ih => intro m a h; exact ih _ (Mem.wf_putByte a b h)

@[simp] theorem Mem.putWord_lost (m : Mem) (i : Nat) (p : PWord) : (m.putWord i p).lost = m.lost := by
  simp [Mem.putWord]

@[simp] theorem Mem.putWord_lostTo (m : Mem) (i : Nat) (p : PWord) : (m.putWord i p).lostTo = m.lostTo := by
  simp [Mem.putWord]

theorem Mem.wf_putWord {m : Mem} (i : Nat) (p : PWord) (h : m.wf = true) : (m.putWord i p).wf = true := by
  have h' := Mem.wf_putBytes (wordBytes (if p.poison then 0 else p.data)) (8 * i) h
  rw [Mem.wf_iff] at h' ⊢
  exact ⟨h'.1, Tbl.wf_set (Mem.dfltSyn (m.putBytes (8 * i) (wordBytes (if p.poison then 0 else p.data)))) i
    (if p.poison then 0xFE else 0) h'.2⟩

@[simp] theorem Mem.putWords_lost (l : List PWord) : ∀ (m : Mem) (i : Nat), (m.putWords i l).lost = m.lost := by
  induction l with
  | nil => intro m i; rfl
  | cons p l ih => intro m i; simp [Mem.putWords, ih]

theorem Mem.wf_putWords (l : List PWord) : ∀ {m : Mem} (i : Nat), m.wf = true → (m.putWords i l).wf = true := by
  induction l with
  | nil => intro m i h; exact h
  | cons p l ih => intro m i h; exact ih _ (Mem.wf_putWord i p h)

theorem Mem.wf_settle {m : Mem} (i : Nat) (h : m.wf = true) : (m.settle i).wf = true := by
  unfold Mem.settle
  split
  · exact h
  · exact Mem.wf_putWord i _ h

/-- One byte that a write may leave out, because its word stays poison. -/
theorem Mem.wf_putByteUnless {m : Mem} (w a : Nat) (b : Byte) (h : m.wf = true) :
    (if m.syndrome w = 0xFE then m else m.putByte a b).wf = true := by
  split
  · exact h
  · exact Mem.wf_putByte a b h

theorem Mem.wf_writeBytes (l : List Byte) : ∀ {m : Mem} (a : Nat), m.wf = true → (m.writeBytes a l).wf = true := by
  induction l with
  | nil => intro m a h; exact h
  | cons b l ih =>
    intro m a h
    have h1 : (if m.clean then m else m.settle (a / 8)).wf = true := by
      split
      · exact h
      · exact Mem.wf_settle _ h
    exact ih _ (Mem.wf_putByteUnless _ a b h1)

theorem Mem.wf_write {m : Mem} (a : Nat) (l : List Byte) (h : m.wf = true) : (m.write a l).wf = true := by
  exact Mem.wf_writeBytes _ _ (Mem.wf_putWords _ _ (Mem.wf_writeBytes _ _ h))

theorem Mem.wf_zero {m : Mem} (a n : Nat) (h : m.wf = true) : (m.zero a n).wf = true := by
  unfold Mem.zero
  split
  · rw [Mem.wf_iff] at h ⊢
    simp only [Bool.and_eq_true, List.all_eq_true] at h ⊢
    exact ⟨⟨Tbl.rising_filter _ h.1.1, fun e he => h.1.2 e (List.mem_of_mem_filter he)⟩,
      ⟨Tbl.rising_filter _ h.2.1, fun e he => h.2.2 e (List.mem_of_mem_filter he)⟩⟩
  · exact Mem.wf_putWords _ _ h

/-! ### Reading after a write -/

/-- One raw byte after a write of one byte. -/
theorem Mem.get_putByte (m : Mem) (a i : Nat) (b : Byte) :
    Tbl.get (m.dfltByte i) (m.putByte a b).bytes i = if i = a then b else Tbl.get (m.dfltByte i) m.bytes i := by
  unfold Mem.putByte
  by_cases h : i = a
  · subst h
    simp
  · rw [if_neg h]
    exact Tbl.get_set_ne _ _ _ _ h

theorem Mem.dfltByte_putByte (m : Mem) (a i : Nat) (b : Byte) : (m.putByte a b).dfltByte i = m.dfltByte i := rfl

/-- One raw byte after a write of several: the byte written, or as before. -/
theorem Mem.get_putBytes (l : List Byte) : ∀ (m : Mem) (a i : Nat),
    Tbl.get (m.dfltByte i) (m.putBytes a l).bytes i =
      if h : a ≤ i ∧ i < a + l.length then l[i - a]'(by omega) else Tbl.get (m.dfltByte i) m.bytes i := by
  induction l with
  | nil =>
    intro m a i
    simp [Mem.putBytes]
  | cons b l ih =>
    intro m a i
    have := ih (m.putByte a b) (a + 1) i
    rw [Mem.dfltByte_putByte] at this
    show Tbl.get (m.dfltByte i) ((m.putByte a b).putBytes (a + 1) l).bytes i = _
    rw [this, Mem.get_putByte]
    by_cases h1 : i = a
    · subst h1
      simp
    · by_cases h2 : a + 1 ≤ i ∧ i < a + 1 + l.length
      · have h3 : a ≤ i ∧ i < a + (b :: l).length := by
          simp only [List.length_cons]
          omega
        simp only [h2, h3, dif_pos, and_self]
        have h4 : i - a = (i - (a + 1)) + 1 := by omega
        simp [h4]
      · have h3 : ¬ (a ≤ i ∧ i < a + (b :: l).length) := by
          simp only [List.length_cons]
          omega
        rw [dif_neg h2, dif_neg h3]
        simp [h1]

theorem leNat_leBytes (k : Nat) : ∀ n : Nat, leNat (leBytes k n) = n % 256 ^ k := by
  induction k with
  | zero => intro n; simp [leBytes, leNat, Nat.mod_one]
  | succ k ih =>
    intro n
    have h : n % 256 ^ (k + 1) = n % 256 + 256 * (n / 256 % 256 ^ k) := by
      rw [Nat.pow_succ, Nat.mul_comm, Nat.mod_mul]
    simp only [leBytes, leNat, ih, BitVec.toNat_ofNat, h]

@[simp] theorem leBytes_length (k : Nat) : ∀ n : Nat, (leBytes k n).length = k := by
  induction k with
  | zero => intro n; rfl
  | succ k ih => intro n; simp [leBytes, ih]

@[simp] theorem wordBytes_length (w : Word) : (wordBytes w).length = 8 := leBytes_length 8 _

/-- A word's bytes, read back. -/
theorem ofNat_leNat_wordBytes (w : Word) : BitVec.ofNat 64 (leNat (wordBytes w)) = w := by
  apply BitVec.eq_of_toNat_eq
  simp only [wordBytes, leNat_leBytes, BitVec.toNat_ofNat]
  have := w.isLt
  omega

theorem readCode_zero (w : Word) : readCode w 0#8 = .good w := rfl

theorem readCode_poison (w : Word) : readCode w 254#8 = .bad := rfl

/-- A word as a reader gets it, in one form (R373). -/
theorem Mem.word_eq (m : Mem) (i : Nat) : m.word i = readCode (m.raw i) (m.syndrome i) := by
  unfold Mem.word
  split
  · rename_i h
    simp only [Mem.clean, Bool.and_eq_true, List.isEmpty_iff, Option.isNone_iff_eq_none] at h
    simp [Mem.syndrome, Mem.dfltSyn, h.1, h.2, readCode_zero]
  · rfl

@[simp] theorem Mem.putWord_dfltByte (m : Mem) (i : Nat) (p : PWord) (a : Nat) :
    (m.putWord i p).dfltByte a = m.dfltByte a := by
  simp [Mem.dfltByte]

theorem Mem.putWord_bytes (m : Mem) (i : Nat) (p : PWord) :
    (m.putWord i p).bytes = (m.putBytes (8 * i) (wordBytes (if p.poison then 0 else p.data))).bytes := rfl

/-- The raw data of a word after a write of a word. -/
theorem Mem.raw_putWord (m : Mem) (i j : Nat) (p : PWord) :
    (m.putWord i p).raw j = if j = i then (if p.poison then 0 else p.data) else m.raw j := by
  generalize hw : (if p.poison then 0 else p.data) = w
  have hb : ∀ a, Tbl.get ((m.putWord i p).dfltByte a) (m.putWord i p).bytes a =
      if h : 8 * i ≤ a ∧ a < 8 * i + (wordBytes w).length then (wordBytes w)[a - 8 * i]'(by omega)
      else Tbl.get (m.dfltByte a) m.bytes a := by
    intro a
    rw [Mem.putWord_dfltByte, Mem.putWord_bytes, hw]
    exact Mem.get_putBytes _ _ _ _
  unfold Mem.raw
  simp only [hb, wordBytes_length]
  split
  · rename_i h
    subst h
    have hl : (List.range 8).map (fun k =>
        if h : 8 * j ≤ 8 * j + k ∧ 8 * j + k < 8 * j + 8 then
          (wordBytes w)[8 * j + k - 8 * j]'(by simp; omega)
        else Tbl.get (m.dfltByte (8 * j + k)) m.bytes (8 * j + k)) = wordBytes w := by
      apply List.ext_getElem
      · simp
      · intro n h1 h2
        simp only [wordBytes_length] at h2
        simp [h2]
    rw [hl, ofNat_leNat_wordBytes]
  · rename_i h
    congr 2
    apply List.map_congr_left
    intro k hk
    have hk : k < 8 := by simpa using hk
    rw [dif_neg]
    omega

theorem Mem.dfltSyn_putBytes (m : Mem) (a : Nat) (l : List Byte) (i : Nat) :
    (m.putBytes a l).dfltSyn i = m.dfltSyn i := by
  simp [Mem.dfltSyn]

/-- The syndrome of a word after a write of a word. -/
theorem Mem.syndrome_putWord (m : Mem) (i j : Nat) (p : PWord) :
    (m.putWord i p).syndrome j = if j = i then (if p.poison then 0xFE else 0) else m.syndrome j := by
  have hd : (m.putWord i p).dfltSyn j = m.dfltSyn j := by simp [Mem.dfltSyn]
  unfold Mem.syndrome
  rw [hd]
  simp only [Mem.putWord, Mem.dfltSyn_putBytes, Mem.putBytes_syn]
  by_cases h : j = i
  · subst h
    simp
  · rw [if_neg h]
    exact Tbl.get_set_ne _ _ _ _ h

/-- A word after a write of a word: as it was written, every other word as before (R271, R374). -/
theorem Mem.word_putWord (m : Mem) (i j : Nat) (p : PWord) :
    (m.putWord i p).word j = if j = i then (if p.poison then .bad else .good p.data) else m.word j := by
  simp only [Mem.word_eq, Mem.raw_putWord, Mem.syndrome_putWord]
  split
  · split <;> simp [readCode_zero, readCode_poison]
  · rfl

/-- A word after a write of several words. -/
theorem Mem.word_putWords (l : List PWord) : ∀ (m : Mem) (i j : Nat), (m.putWords i l).word j =
    if h : i ≤ j ∧ j < i + l.length then
      (if (l[j - i]'(by omega)).poison then .bad else .good (l[j - i]'(by omega)).data)
    else m.word j := by
  induction l with
  | nil =>
    intro m i j
    simp [Mem.putWords]
  | cons p l ih =>
    intro m i j
    show ((m.putWord i p).putWords (i + 1) l).word j = _
    rw [ih, Mem.word_putWord]
    by_cases h1 : j = i
    · subst h1
      simp
    · by_cases h2 : i + 1 ≤ j ∧ j < i + 1 + l.length
      · have h3 : i ≤ j ∧ j < i + (p :: l).length := by
          simp only [List.length_cons]
          omega
        have h4 : j - i = (j - (i + 1)) + 1 := by omega
        rw [dif_pos h2, dif_pos h3]
        simp [h4]
      · have h3 : ¬ (i ≤ j ∧ j < i + (p :: l).length) := by
          simp only [List.length_cons]
          omega
        rw [dif_neg h2, dif_neg h3]
        simp [h1]

/-! ### Zeroing and copying ranges (R273, R451, R452) -/

/-- Two memories that agree on the bytes and the syndrome of a word read it alike. -/
theorem Mem.word_congr {m k : Mem} {i : Nat}
    (hb : ∀ j, j < 8 → Tbl.get (m.dfltByte (8 * i + j)) m.bytes (8 * i + j) =
      Tbl.get (k.dfltByte (8 * i + j)) k.bytes (8 * i + j))
    (hs : m.syndrome i = k.syndrome i) : m.word i = k.word i := by
  have h : m.raw i = k.raw i := by
    unfold Mem.raw
    congr 2
    exact List.map_congr_left fun j hj => hb j (by simpa using hj)
  rw [Mem.word_eq, Mem.word_eq, h, hs]

/-- A word reads as a good 0 where nothing is listed in a memory whose contents are not lost there. -/
theorem Mem.word_empty {m : Mem} {i : Nat} (hl : m.lost = none ∨ m.lostTo ≤ 8 * i) (hb : ∀ e ∈ m.bytes, e.1 / 8 ≠ i)
    (hs : ∀ e ∈ m.syn, e.1 ≠ i) : m.word i = .good 0 := by
  have h0 : ∀ j, j < 8 → Tbl.get (m.dfltByte (8 * i + j)) m.bytes (8 * i + j) = 0 := by
    intro j hj
    rw [Tbl.get_of_not_mem]
    · rcases hl with hl | hl
      · simp [Mem.dfltByte, hl]
      · unfold Mem.dfltByte
        split
        · rfl
        · rw [if_neg (by omega)]
    · intro e he
      have := hb e he
      omega
  have h1 : m.raw i = 0 := by
    unfold Mem.raw
    have : (List.range 8).map (fun j => Tbl.get (m.dfltByte (8 * i + j)) m.bytes (8 * i + j)) = List.replicate 8 0 := by
      apply List.ext_getElem
      · simp
      · intro n g1 g2
        simp only [List.length_map, List.length_range] at g1
        simp only [List.getElem_map, List.getElem_range, List.getElem_replicate]
        exact h0 n g1
    rw [this]
    rfl
  have h2 : m.syndrome i = 0 := by
    unfold Mem.syndrome
    rw [Tbl.get_of_not_mem _ _ _ hs]
    rcases hl with hl | hl
    · simp [Mem.dfltSyn, hl]
    · unfold Mem.dfltSyn
      split
      · rfl
      · rw [if_neg (by omega)]
  rw [Mem.word_eq, h1, h2]
  rfl

/-- A word after a range is zeroed. -/
theorem Mem.word_zero (m : Mem) {a n : Nat} (ha : a % 8 = 0) (hn : n % 8 = 0) (j : Nat) :
    (m.zero a n).word j = if a / 8 ≤ j ∧ j < a / 8 + n / 8 then .good 0 else m.word j := by
  unfold Mem.zero
  split
  · rename_i h
    have hl : m.lost = none ∨ m.lostTo ≤ a := by simpa using h
    split
    · rename_i hj
      refine Mem.word_empty (hl.imp id (fun h => by show m.lostTo ≤ _; omega)) ?_ ?_ <;>
        (intro e he hk; simp only [List.mem_filter, decide_eq_true_eq] at he; omega)
    · rename_i hj
      refine Mem.word_congr ?_ ?_
      · intro i hi
        exact Tbl.get_filter _ _ _ _ fun _ => by simp only [decide_eq_true_eq]; omega
      · exact Tbl.get_filter _ _ _ _ fun _ => by simp only [decide_eq_true_eq]; omega
  · rw [Mem.word_putWords]
    simp only [List.length_replicate]
    split
    · simp only [List.getElem_replicate]
      rfl
    · rfl

/-- A word reads as a good word or as canonical poison. -/
theorem Mem.word_canonical (m : Mem) (i : Nat) :
    (if (m.word i).poison then PWord.bad else .good (m.word i).data) = m.word i := by
  rw [Mem.word_eq]
  unfold readCode
  split <;> rfl

/-- Words put one by one from a memory at the places of a list. -/
theorem Mem.word_foldl_putWord (src : Mem) (x y : Nat) (l : List Nat) : ∀ (d : Mem) (j : Nat),
    (l.foldl (fun d i => d.putWord (y + i) (src.word (x + i))) d).word j =
      if y ≤ j ∧ j - y ∈ l then src.word (x + (j - y)) else d.word j := by
  induction l with
  | nil => intro d j; simp
  | cons i l ih =>
    intro d j
    rw [List.foldl_cons, ih, Mem.word_putWord]
    by_cases h : y ≤ j ∧ j - y ∈ l
    · rw [if_pos h, if_pos ⟨h.1, by simp [h.2]⟩]
    · rw [if_neg h]
      by_cases hj : j = y + i
      · subst hj
        rw [if_pos rfl, Mem.word_canonical, if_pos ⟨by omega, by simp⟩]
        simp
      · rw [if_neg hj, if_neg]
        intro hk
        have : ¬ (j - y = i) := by omega
        simp only [List.mem_cons, this, false_or] at hk
        exact h hk

/-- A word after a range is copied: as the source reads within the range copied to, as before elsewhere (R451, R452). -/
theorem Mem.word_copyRange (src dst : Mem) {a n b : Nat} (hn : n % 8 = 0) (hb : b % 8 = 0) (j : Nat) :
    (src.copyRange a n dst b).word j =
      if b / 8 ≤ j ∧ j < b / 8 + n / 8 then src.word (a / 8 + (j - b / 8)) else dst.word j := by
  unfold Mem.copyRange
  rw [Mem.word_foldl_putWord, Mem.word_zero _ hb hn]
  have sub : ∀ i ∈ src.occupied a n, i < n / 8 := by
    intro i hi
    unfold Mem.occupied at hi
    split at hi
    · simp only [List.mem_dedup, List.mem_map, List.mem_filter, decide_eq_true_eq] at hi
      obtain ⟨w, hw, rfl⟩ := hi
      omega
    · simpa using hi
  by_cases h : b / 8 ≤ j ∧ j < b / 8 + n / 8
  · simp only [if_pos h]
    by_cases hm : j - b / 8 ∈ src.occupied a n
    · rw [if_pos ⟨h.1, hm⟩]
    · rw [if_neg (fun k => hm k.2)]
      unfold Mem.occupied at hm
      split at hm
      · rename_i hl
        have hl' : src.lost = none := by simpa using hl
        simp only [List.mem_dedup, List.mem_map, List.mem_filter, decide_eq_true_eq, not_exists, not_and, List.mem_append] at hm
        refine (Mem.word_empty (Or.inl hl') ?_ ?_).symm
        · intro e he hk
          exact hm (e.1 / 8) ⟨Or.inl ⟨e, he, rfl⟩, by omega, by omega⟩ (by omega)
        · intro e he hk
          exact hm e.1 ⟨Or.inr ⟨e, he, rfl⟩, by omega, by omega⟩ (by omega)
      · exact absurd (List.mem_range.mpr (by omega)) hm
  · rw [if_neg h, if_neg h, if_neg]
    intro k
    have := sub _ k.2
    omega

theorem Mem.wf_copyRange (src : Mem) {dst : Mem} (a n b : Nat) (h : dst.wf = true) : (src.copyRange a n dst b).wf = true := by
  unfold Mem.copyRange
  have : ∀ (l : List Nat) (d : Mem), d.wf = true →
      (l.foldl (fun d i => d.putWord (b / 8 + i) (src.word (a / 8 + i))) d).wf = true := by
    intro l
    induction l with
    | nil => intro d h; exact h
    | cons i l ih => intro d h; exact ih _ (Mem.wf_putWord _ _ h)
  exact this _ _ (Mem.wf_zero _ _ h)

end Sys2Proof.Machine
end

