-- ==== Sys2Proof/Laws/State.lean ====
section
/-!
SUPPORT. What each update of the state leaves as it was: one lemma per field.
-/
namespace Sys2Proof.Machine

@[simp] theorem upHedge_pending (s : State) (h : Nat) (f : Hedge → Hedge) : (upHedge s h f).pending = s.pending := rfl
@[simp] theorem upHedge_freeCtr (s : State) (h : Nat) (f : Hedge → Hedge) : (upHedge s h f).freeCtr = s.freeCtr := rfl
@[simp] theorem upHedge_out (s : State) (h : Nat) (f : Hedge → Hedge) : (upHedge s h f).out = s.out := rfl
@[simp] theorem upHedge_marks (s : State) (h : Nat) (f : Hedge → Hedge) : (upHedge s h f).marks = s.marks := rfl
@[simp] theorem upHedge_pwr (s : State) (h : Nat) (f : Hedge → Hedge) : (upHedge s h f).pwr = s.pwr := rfl
@[simp] theorem upHedge_time (s : State) (h : Nat) (f : Hedge → Hedge) : (upHedge s h f).time = s.time := rfl
@[simp] theorem upHedge_flash (s : State) (h : Nat) (f : Hedge → Hedge) : (upHedge s h f).flash = s.flash := rfl
@[simp] theorem upHedge_sec (s : State) (h : Nat) (f : Hedge → Hedge) : (upHedge s h f).sec = s.sec := rfl
@[simp] theorem upHedge_bring (s : State) (h : Nat) (f : Hedge → Hedge) : (upHedge s h f).bring = s.bring := rfl
@[simp] theorem upHedge_dram (s : State) (h : Nat) (f : Hedge → Hedge) : (upHedge s h f).dram = s.dram := rfl
@[simp] theorem upHedge_loose (s : State) (h : Nat) (f : Hedge → Hedge) : (upHedge s h f).loose = s.loose := rfl
@[simp] theorem upHedge_imap (s : State) (h : Nat) (f : Hedge → Hedge) : (upHedge s h f).imap = s.imap := rfl
@[simp] theorem upHedge_mapRaw (s : State) (h : Nat) (f : Hedge → Hedge) : (upHedge s h f).mapRaw = s.mapRaw := rfl
@[simp] theorem upHedge_chans (s : State) (h : Nat) (f : Hedge → Hedge) : (upHedge s h f).chans = s.chans := rfl
@[simp] theorem upHedge_cores (s : State) (h : Nat) (f : Hedge → Hedge) : (upHedge s h f).cores = s.cores := rfl
@[simp] theorem upHedge_scrubOn (s : State) (h : Nat) (f : Hedge → Hedge) : (upHedge s h f).scrubOn = s.scrubOn := rfl
@[simp] theorem upHedge_hrow (s : State) (h : Nat) (f : Hedge → Hedge) : (upHedge s h f).hrow = s.hrow := rfl
@[simp] theorem upHedge_arrived (s : State) (h : Nat) (f : Hedge → Hedge) : (upHedge s h f).arrived = s.arrived := rfl
@[simp] theorem upHedge_slots (s : State) (h : Nat) (f : Hedge → Hedge) : (upHedge s h f).slots = s.slots := rfl
@[simp] theorem upHedge_lookRec (s : State) (h : Nat) (f : Hedge → Hedge) : (upHedge s h f).lookRec = s.lookRec := rfl
@[simp] theorem upHedge_heldSwaps (s : State) (h : Nat) (f : Hedge → Hedge) : (upHedge s h f).heldSwaps = s.heldSwaps := rfl
@[simp] theorem upHedge_counters (s : State) (h : Nat) (f : Hedge → Hedge) : (upHedge s h f).counters = s.counters := rfl
@[simp] theorem upHedge_policy (s : State) (h : Nat) (f : Hedge → Hedge) : (upHedge s h f).policy = s.policy := rfl
@[simp] theorem upHedge_policyNext (s : State) (h : Nat) (f : Hedge → Hedge) : (upHedge s h f).policyNext = s.policyNext := rfl
@[simp] theorem upHedge_hotPosted (s : State) (h : Nat) (f : Hedge → Hedge) : (upHedge s h f).hotPosted = s.hotPosted := rfl
@[simp] theorem upHedge_migrates (s : State) (h : Nat) (f : Hedge → Hedge) : (upHedge s h f).migrates = s.migrates := rfl
@[simp] theorem upHedge_codebooks (s : State) (h : Nat) (f : Hedge → Hedge) : (upHedge s h f).codebooks = s.codebooks := rfl
@[simp] theorem upHedge_bags (s : State) (h : Nat) (f : Hedge → Hedge) : (upHedge s h f).bags = s.bags := rfl
@[simp] theorem upHedge_pieces (s : State) (h : Nat) (f : Hedge → Hedge) : (upHedge s h f).pieces = s.pieces := rfl
@[simp] theorem upHedge_lookups (s : State) (h : Nat) (f : Hedge → Hedge) : (upHedge s h f).lookups = s.lookups := rfl
@[simp] theorem upHedge_moverTurn (s : State) (h : Nat) (f : Hedge → Hedge) : (upHedge s h f).moverTurn = s.moverTurn := rfl
@[simp] theorem upHedge_nextBag (s : State) (h : Nat) (f : Hedge → Hedge) : (upHedge s h f).nextBag = s.nextBag := rfl
@[simp] theorem upHedge_nextPiece (s : State) (h : Nat) (f : Hedge → Hedge) : (upHedge s h f).nextPiece = s.nextPiece := rfl
@[simp] theorem upHedge_routines (s : State) (h : Nat) (f : Hedge → Hedge) : (upHedge s h f).routines = s.routines := rfl
@[simp] theorem upHedge_upd (s : State) (h : Nat) (f : Hedge → Hedge) : (upHedge s h f).upd = s.upd := rfl
@[simp] theorem upHedge_xl (s : State) (h : Nat) (f : Hedge → Hedge) : (upHedge s h f).xl = s.xl := rfl
@[simp] theorem upHedge_ig (s : State) (h : Nat) (f : Hedge → Hedge) : (upHedge s h f).ig = s.ig := rfl
@[simp] theorem upHedge_sqs (s : State) (h : Nat) (f : Hedge → Hedge) : (upHedge s h f).sqs = s.sqs := rfl
@[simp] theorem upHedge_cqs (s : State) (h : Nat) (f : Hedge → Hedge) : (upHedge s h f).cqs = s.cqs := rfl
@[simp] theorem upHedge_dbIgnored (s : State) (h : Nat) (f : Hedge → Hedge) : (upHedge s h f).dbIgnored = s.dbIgnored := rfl
@[simp] theorem upHedge_bursts (s : State) (h : Nat) (f : Hedge → Hedge) : (upHedge s h f).bursts = s.bursts := rfl
@[simp] theorem upHedge_nextBurst (s : State) (h : Nat) (f : Hedge → Hedge) : (upHedge s h f).nextBurst = s.nextBurst := rfl
@[simp] theorem upHedge_dbuf (s : State) (h : Nat) (f : Hedge → Hedge) : (upHedge s h f).dbuf = s.dbuf := rfl
@[simp] theorem upHedge_jobs (s : State) (h : Nat) (f : Hedge → Hedge) : (upHedge s h f).jobs = s.jobs := rfl
@[simp] theorem upHedge_sched (s : State) (h : Nat) (f : Hedge → Hedge) : (upHedge s h f).sched = s.sched := rfl
@[simp] theorem upHedge_ctxRec (s : State) (h : Nat) (f : Hedge → Hedge) : (upHedge s h f).ctxRec = s.ctxRec := rfl
@[simp] theorem upHedge_resetRun (s : State) (h : Nat) (f : Hedge → Hedge) : (upHedge s h f).resetRun = s.resetRun := rfl
@[simp] theorem upHedge_mbox (s : State) (h : Nat) (f : Hedge → Hedge) : (upHedge s h f).mbox = s.mbox := rfl
@[simp] theorem upHedge_mbOrder (s : State) (h : Nat) (f : Hedge → Hedge) : (upHedge s h f).mbOrder = s.mbOrder := rfl
@[simp] theorem upHedge_nego (s : State) (h : Nat) (f : Hedge → Hedge) : (upHedge s h f).nego = s.nego := rfl
@[simp] theorem upHedge_adminWaits (s : State) (h : Nat) (f : Hedge → Hedge) : (upHedge s h f).adminWaits = s.adminWaits := rfl
@[simp] theorem upHedge_eq (s : State) (h : Nat) (f : Hedge → Hedge) : (upHedge s h f).eq = s.eq := rfl
@[simp] theorem upHedge_hq (s : State) (h : Nat) (f : Hedge → Hedge) : (upHedge s h f).hq = s.hq := rfl
@[simp] theorem upHedge_fq (s : State) (h : Nat) (f : Hedge → Hedge) : (upHedge s h f).fq = s.fq := rfl
@[simp] theorem upHedge_evSeq (s : State) (h : Nat) (f : Hedge → Hedge) : (upHedge s h f).evSeq = s.evSeq := rfl
@[simp] theorem upHedge_evHeld (s : State) (h : Nat) (f : Hedge → Hedge) : (upHedge s h f).evHeld = s.evHeld := rfl
@[simp] theorem upHedge_eqDropped (s : State) (h : Nat) (f : Hedge → Hedge) : (upHedge s h f).eqDropped = s.eqDropped := rfl
@[simp] theorem upHedge_mbIgnored (s : State) (h : Nat) (f : Hedge → Hedge) : (upHedge s h f).mbIgnored = s.mbIgnored := rfl
@[simp] theorem upHedge_modes (s : State) (h : Nat) (f : Hedge → Hedge) : (upHedge s h f).modes = s.modes := rfl
@[simp] theorem upHedge_model (s : State) (h : Nat) (f : Hedge → Hedge) : (upHedge s h f).model = s.model := rfl
@[simp] theorem upHedge_fwReserve (s : State) (h : Nat) (f : Hedge → Hedge) : (upHedge s h f).fwReserve = s.fwReserve := rfl
@[simp] theorem upHedge_link (s : State) (h : Nat) (f : Hedge → Hedge) : (upHedge s h f).link = s.link := rfl
@[simp] theorem upHedge_fab (s : State) (h : Nat) (f : Hedge → Hedge) : (upHedge s h f).fab = s.fab := rfl
@[simp] theorem upHedge_health (s : State) (h : Nat) (f : Hedge → Hedge) : (upHedge s h f).health = s.health := rfl

@[simp] theorem upCore_pending (s : State) (c : Nat) (f : Core → Core) : (upCore s c f).pending = s.pending := rfl
@[simp] theorem upCore_freeCtr (s : State) (c : Nat) (f : Core → Core) : (upCore s c f).freeCtr = s.freeCtr := rfl
@[simp] theorem upCore_out (s : State) (c : Nat) (f : Core → Core) : (upCore s c f).out = s.out := rfl
@[simp] theorem upCore_marks (s : State) (c : Nat) (f : Core → Core) : (upCore s c f).marks = s.marks := rfl
@[simp] theorem upCore_pwr (s : State) (c : Nat) (f : Core → Core) : (upCore s c f).pwr = s.pwr := rfl
@[simp] theorem upCore_time (s : State) (c : Nat) (f : Core → Core) : (upCore s c f).time = s.time := rfl
@[simp] theorem upCore_flash (s : State) (c : Nat) (f : Core → Core) : (upCore s c f).flash = s.flash := rfl
@[simp] theorem upCore_sec (s : State) (c : Nat) (f : Core → Core) : (upCore s c f).sec = s.sec := rfl
@[simp] theorem upCore_bring (s : State) (c : Nat) (f : Core → Core) : (upCore s c f).bring = s.bring := rfl
@[simp] theorem upCore_dram (s : State) (c : Nat) (f : Core → Core) : (upCore s c f).dram = s.dram := rfl
@[simp] theorem upCore_loose (s : State) (c : Nat) (f : Core → Core) : (upCore s c f).loose = s.loose := rfl
@[simp] theorem upCore_imap (s : State) (c : Nat) (f : Core → Core) : (upCore s c f).imap = s.imap := rfl
@[simp] theorem upCore_mapRaw (s : State) (c : Nat) (f : Core → Core) : (upCore s c f).mapRaw = s.mapRaw := rfl
@[simp] theorem upCore_chans (s : State) (c : Nat) (f : Core → Core) : (upCore s c f).chans = s.chans := rfl
@[simp] theorem upCore_hedges (s : State) (c : Nat) (f : Core → Core) : (upCore s c f).hedges = s.hedges := rfl
@[simp] theorem upCore_scrubOn (s : State) (c : Nat) (f : Core → Core) : (upCore s c f).scrubOn = s.scrubOn := rfl
@[simp] theorem upCore_hrow (s : State) (c : Nat) (f : Core → Core) : (upCore s c f).hrow = s.hrow := rfl
@[simp] theorem upCore_arrived (s : State) (c : Nat) (f : Core → Core) : (upCore s c f).arrived = s.arrived := rfl
@[simp] theorem upCore_slots (s : State) (c : Nat) (f : Core → Core) : (upCore s c f).slots = s.slots := rfl
@[simp] theorem upCore_lookRec (s : State) (c : Nat) (f : Core → Core) : (upCore s c f).lookRec = s.lookRec := rfl
@[simp] theorem upCore_heldSwaps (s : State) (c : Nat) (f : Core → Core) : (upCore s c f).heldSwaps = s.heldSwaps := rfl
@[simp] theorem upCore_counters (s : State) (c : Nat) (f : Core → Core) : (upCore s c f).counters = s.counters := rfl
@[simp] theorem upCore_policy (s : State) (c : Nat) (f : Core → Core) : (upCore s c f).policy = s.policy := rfl
@[simp] theorem upCore_policyNext (s : State) (c : Nat) (f : Core → Core) : (upCore s c f).policyNext = s.policyNext := rfl
@[simp] theorem upCore_hotPosted (s : State) (c : Nat) (f : Core → Core) : (upCore s c f).hotPosted = s.hotPosted := rfl
@[simp] theorem upCore_migrates (s : State) (c : Nat) (f : Core → Core) : (upCore s c f).migrates = s.migrates := rfl
@[simp] theorem upCore_codebooks (s : State) (c : Nat) (f : Core → Core) : (upCore s c f).codebooks = s.codebooks := rfl
@[simp] theorem upCore_bags (s : State) (c : Nat) (f : Core → Core) : (upCore s c f).bags = s.bags := rfl
@[simp] theorem upCore_pieces (s : State) (c : Nat) (f : Core → Core) : (upCore s c f).pieces = s.pieces := rfl
@[simp] theorem upCore_lookups (s : State) (c : Nat) (f : Core → Core) : (upCore s c f).lookups = s.lookups := rfl
@[simp] theorem upCore_moverTurn (s : State) (c : Nat) (f : Core → Core) : (upCore s c f).moverTurn = s.moverTurn := rfl
@[simp] theorem upCore_nextBag (s : State) (c : Nat) (f : Core → Core) : (upCore s c f).nextBag = s.nextBag := rfl
@[simp] theorem upCore_nextPiece (s : State) (c : Nat) (f : Core → Core) : (upCore s c f).nextPiece = s.nextPiece := rfl
@[simp] theorem upCore_routines (s : State) (c : Nat) (f : Core → Core) : (upCore s c f).routines = s.routines := rfl
@[simp] theorem upCore_upd (s : State) (c : Nat) (f : Core → Core) : (upCore s c f).upd = s.upd := rfl
@[simp] theorem upCore_xl (s : State) (c : Nat) (f : Core → Core) : (upCore s c f).xl = s.xl := rfl
@[simp] theorem upCore_ig (s : State) (c : Nat) (f : Core → Core) : (upCore s c f).ig = s.ig := rfl
@[simp] theorem upCore_sqs (s : State) (c : Nat) (f : Core → Core) : (upCore s c f).sqs = s.sqs := rfl
@[simp] theorem upCore_cqs (s : State) (c : Nat) (f : Core → Core) : (upCore s c f).cqs = s.cqs := rfl
@[simp] theorem upCore_dbIgnored (s : State) (c : Nat) (f : Core → Core) : (upCore s c f).dbIgnored = s.dbIgnored := rfl
@[simp] theorem upCore_bursts (s : State) (c : Nat) (f : Core → Core) : (upCore s c f).bursts = s.bursts := rfl
@[simp] theorem upCore_nextBurst (s : State) (c : Nat) (f : Core → Core) : (upCore s c f).nextBurst = s.nextBurst := rfl
@[simp] theorem upCore_dbuf (s : State) (c : Nat) (f : Core → Core) : (upCore s c f).dbuf = s.dbuf := rfl
@[simp] theorem upCore_jobs (s : State) (c : Nat) (f : Core → Core) : (upCore s c f).jobs = s.jobs := rfl
@[simp] theorem upCore_sched (s : State) (c : Nat) (f : Core → Core) : (upCore s c f).sched = s.sched := rfl
@[simp] theorem upCore_ctxRec (s : State) (c : Nat) (f : Core → Core) : (upCore s c f).ctxRec = s.ctxRec := rfl
@[simp] theorem upCore_resetRun (s : State) (c : Nat) (f : Core → Core) : (upCore s c f).resetRun = s.resetRun := rfl
@[simp] theorem upCore_mbox (s : State) (c : Nat) (f : Core → Core) : (upCore s c f).mbox = s.mbox := rfl
@[simp] theorem upCore_mbOrder (s : State) (c : Nat) (f : Core → Core) : (upCore s c f).mbOrder = s.mbOrder := rfl
@[simp] theorem upCore_nego (s : State) (c : Nat) (f : Core → Core) : (upCore s c f).nego = s.nego := rfl
@[simp] theorem upCore_adminWaits (s : State) (c : Nat) (f : Core → Core) : (upCore s c f).adminWaits = s.adminWaits := rfl
@[simp] theorem upCore_eq (s : State) (c : Nat) (f : Core → Core) : (upCore s c f).eq = s.eq := rfl
@[simp] theorem upCore_hq (s : State) (c : Nat) (f : Core → Core) : (upCore s c f).hq = s.hq := rfl
@[simp] theorem upCore_fq (s : State) (c : Nat) (f : Core → Core) : (upCore s c f).fq = s.fq := rfl
@[simp] theorem upCore_evSeq (s : State) (c : Nat) (f : Core → Core) : (upCore s c f).evSeq = s.evSeq := rfl
@[simp] theorem upCore_evHeld (s : State) (c : Nat) (f : Core → Core) : (upCore s c f).evHeld = s.evHeld := rfl
@[simp] theorem upCore_eqDropped (s : State) (c : Nat) (f : Core → Core) : (upCore s c f).eqDropped = s.eqDropped := rfl
@[simp] theorem upCore_mbIgnored (s : State) (c : Nat) (f : Core → Core) : (upCore s c f).mbIgnored = s.mbIgnored := rfl
@[simp] theorem upCore_modes (s : State) (c : Nat) (f : Core → Core) : (upCore s c f).modes = s.modes := rfl
@[simp] theorem upCore_model (s : State) (c : Nat) (f : Core → Core) : (upCore s c f).model = s.model := rfl
@[simp] theorem upCore_fwReserve (s : State) (c : Nat) (f : Core → Core) : (upCore s c f).fwReserve = s.fwReserve := rfl
@[simp] theorem upCore_link (s : State) (c : Nat) (f : Core → Core) : (upCore s c f).link = s.link := rfl
@[simp] theorem upCore_fab (s : State) (c : Nat) (f : Core → Core) : (upCore s c f).fab = s.fab := rfl
@[simp] theorem upCore_health (s : State) (c : Nat) (f : Core → Core) : (upCore s c f).health = s.health := rfl

@[simp] theorem upChan_pending (s : State) (c : Nat) (f : Chan → Chan) : (upChan s c f).pending = s.pending := rfl
@[simp] theorem upChan_freeCtr (s : State) (c : Nat) (f : Chan → Chan) : (upChan s c f).freeCtr = s.freeCtr := rfl
@[simp] theorem upChan_out (s : State) (c : Nat) (f : Chan → Chan) : (upChan s c f).out = s.out := rfl
@[simp] theorem upChan_marks (s : State) (c : Nat) (f : Chan → Chan) : (upChan s c f).marks = s.marks := rfl
@[simp] theorem upChan_pwr (s : State) (c : Nat) (f : Chan → Chan) : (upChan s c f).pwr = s.pwr := rfl
@[simp] theorem upChan_time (s : State) (c : Nat) (f : Chan → Chan) : (upChan s c f).time = s.time := rfl
@[simp] theorem upChan_flash (s : State) (c : Nat) (f : Chan → Chan) : (upChan s c f).flash = s.flash := rfl
@[simp] theorem upChan_sec (s : State) (c : Nat) (f : Chan → Chan) : (upChan s c f).sec = s.sec := rfl
@[simp] theorem upChan_bring (s : State) (c : Nat) (f : Chan → Chan) : (upChan s c f).bring = s.bring := rfl
@[simp] theorem upChan_dram (s : State) (c : Nat) (f : Chan → Chan) : (upChan s c f).dram = s.dram := rfl
@[simp] theorem upChan_loose (s : State) (c : Nat) (f : Chan → Chan) : (upChan s c f).loose = s.loose := rfl
@[simp] theorem upChan_imap (s : State) (c : Nat) (f : Chan → Chan) : (upChan s c f).imap = s.imap := rfl
@[simp] theorem upChan_mapRaw (s : State) (c : Nat) (f : Chan → Chan) : (upChan s c f).mapRaw = s.mapRaw := rfl
@[simp] theorem upChan_hedges (s : State) (c : Nat) (f : Chan → Chan) : (upChan s c f).hedges = s.hedges := rfl
@[simp] theorem upChan_cores (s : State) (c : Nat) (f : Chan → Chan) : (upChan s c f).cores = s.cores := rfl
@[simp] theorem upChan_scrubOn (s : State) (c : Nat) (f : Chan → Chan) : (upChan s c f).scrubOn = s.scrubOn := rfl
@[simp] theorem upChan_hrow (s : State) (c : Nat) (f : Chan → Chan) : (upChan s c f).hrow = s.hrow := rfl
@[simp] theorem upChan_arrived (s : State) (c : Nat) (f : Chan → Chan) : (upChan s c f).arrived = s.arrived := rfl
@[simp] theorem upChan_slots (s : State) (c : Nat) (f : Chan → Chan) : (upChan s c f).slots = s.slots := rfl
@[simp] theorem upChan_lookRec (s : State) (c : Nat) (f : Chan → Chan) : (upChan s c f).lookRec = s.lookRec := rfl
@[simp] theorem upChan_heldSwaps (s : State) (c : Nat) (f : Chan → Chan) : (upChan s c f).heldSwaps = s.heldSwaps := rfl
@[simp] theorem upChan_counters (s : State) (c : Nat) (f : Chan → Chan) : (upChan s c f).counters = s.counters := rfl
@[simp] theorem upChan_policy (s : State) (c : Nat) (f : Chan → Chan) : (upChan s c f).policy = s.policy := rfl
@[simp] theorem upChan_policyNext (s : State) (c : Nat) (f : Chan → Chan) : (upChan s c f).policyNext = s.policyNext := rfl
@[simp] theorem upChan_hotPosted (s : State) (c : Nat) (f : Chan → Chan) : (upChan s c f).hotPosted = s.hotPosted := rfl
@[simp] theorem upChan_migrates (s : State) (c : Nat) (f : Chan → Chan) : (upChan s c f).migrates = s.migrates := rfl
@[simp] theorem upChan_codebooks (s : State) (c : Nat) (f : Chan → Chan) : (upChan s c f).codebooks = s.codebooks := rfl
@[simp] theorem upChan_bags (s : State) (c : Nat) (f : Chan → Chan) : (upChan s c f).bags = s.bags := rfl
@[simp] theorem upChan_pieces (s : State) (c : Nat) (f : Chan → Chan) : (upChan s c f).pieces = s.pieces := rfl
@[simp] theorem upChan_lookups (s : State) (c : Nat) (f : Chan → Chan) : (upChan s c f).lookups = s.lookups := rfl
@[simp] theorem upChan_moverTurn (s : State) (c : Nat) (f : Chan → Chan) : (upChan s c f).moverTurn = s.moverTurn := rfl
@[simp] theorem upChan_nextBag (s : State) (c : Nat) (f : Chan → Chan) : (upChan s c f).nextBag = s.nextBag := rfl
@[simp] theorem upChan_nextPiece (s : State) (c : Nat) (f : Chan → Chan) : (upChan s c f).nextPiece = s.nextPiece := rfl
@[simp] theorem upChan_routines (s : State) (c : Nat) (f : Chan → Chan) : (upChan s c f).routines = s.routines := rfl
@[simp] theorem upChan_upd (s : State) (c : Nat) (f : Chan → Chan) : (upChan s c f).upd = s.upd := rfl
@[simp] theorem upChan_xl (s : State) (c : Nat) (f : Chan → Chan) : (upChan s c f).xl = s.xl := rfl
@[simp] theorem upChan_ig (s : State) (c : Nat) (f : Chan → Chan) : (upChan s c f).ig = s.ig := rfl
@[simp] theorem upChan_sqs (s : State) (c : Nat) (f : Chan → Chan) : (upChan s c f).sqs = s.sqs := rfl
@[simp] theorem upChan_cqs (s : State) (c : Nat) (f : Chan → Chan) : (upChan s c f).cqs = s.cqs := rfl
@[simp] theorem upChan_dbIgnored (s : State) (c : Nat) (f : Chan → Chan) : (upChan s c f).dbIgnored = s.dbIgnored := rfl
@[simp] theorem upChan_bursts (s : State) (c : Nat) (f : Chan → Chan) : (upChan s c f).bursts = s.bursts := rfl
@[simp] theorem upChan_nextBurst (s : State) (c : Nat) (f : Chan → Chan) : (upChan s c f).nextBurst = s.nextBurst := rfl
@[simp] theorem upChan_dbuf (s : State) (c : Nat) (f : Chan → Chan) : (upChan s c f).dbuf = s.dbuf := rfl
@[simp] theorem upChan_jobs (s : State) (c : Nat) (f : Chan → Chan) : (upChan s c f).jobs = s.jobs := rfl
@[simp] theorem upChan_sched (s : State) (c : Nat) (f : Chan → Chan) : (upChan s c f).sched = s.sched := rfl
@[simp] theorem upChan_ctxRec (s : State) (c : Nat) (f : Chan → Chan) : (upChan s c f).ctxRec = s.ctxRec := rfl
@[simp] theorem upChan_resetRun (s : State) (c : Nat) (f : Chan → Chan) : (upChan s c f).resetRun = s.resetRun := rfl
@[simp] theorem upChan_mbox (s : State) (c : Nat) (f : Chan → Chan) : (upChan s c f).mbox = s.mbox := rfl
@[simp] theorem upChan_mbOrder (s : State) (c : Nat) (f : Chan → Chan) : (upChan s c f).mbOrder = s.mbOrder := rfl
@[simp] theorem upChan_nego (s : State) (c : Nat) (f : Chan → Chan) : (upChan s c f).nego = s.nego := rfl
@[simp] theorem upChan_adminWaits (s : State) (c : Nat) (f : Chan → Chan) : (upChan s c f).adminWaits = s.adminWaits := rfl
@[simp] theorem upChan_eq (s : State) (c : Nat) (f : Chan → Chan) : (upChan s c f).eq = s.eq := rfl
@[simp] theorem upChan_hq (s : State) (c : Nat) (f : Chan → Chan) : (upChan s c f).hq = s.hq := rfl
@[simp] theorem upChan_fq (s : State) (c : Nat) (f : Chan → Chan) : (upChan s c f).fq = s.fq := rfl
@[simp] theorem upChan_evSeq (s : State) (c : Nat) (f : Chan → Chan) : (upChan s c f).evSeq = s.evSeq := rfl
@[simp] theorem upChan_evHeld (s : State) (c : Nat) (f : Chan → Chan) : (upChan s c f).evHeld = s.evHeld := rfl
@[simp] theorem upChan_eqDropped (s : State) (c : Nat) (f : Chan → Chan) : (upChan s c f).eqDropped = s.eqDropped := rfl
@[simp] theorem upChan_mbIgnored (s : State) (c : Nat) (f : Chan → Chan) : (upChan s c f).mbIgnored = s.mbIgnored := rfl
@[simp] theorem upChan_modes (s : State) (c : Nat) (f : Chan → Chan) : (upChan s c f).modes = s.modes := rfl
@[simp] theorem upChan_model (s : State) (c : Nat) (f : Chan → Chan) : (upChan s c f).model = s.model := rfl
@[simp] theorem upChan_fwReserve (s : State) (c : Nat) (f : Chan → Chan) : (upChan s c f).fwReserve = s.fwReserve := rfl
@[simp] theorem upChan_link (s : State) (c : Nat) (f : Chan → Chan) : (upChan s c f).link = s.link := rfl
@[simp] theorem upChan_fab (s : State) (c : Nat) (f : Chan → Chan) : (upChan s c f).fab = s.fab := rfl
@[simp] theorem upChan_health (s : State) (c : Nat) (f : Chan → Chan) : (upChan s c f).health = s.health := rfl

@[simp] theorem upSlot_pending (s : State) (k : Nat) (f : VSlot → VSlot) : (upSlot s k f).pending = s.pending := rfl
@[simp] theorem upSlot_freeCtr (s : State) (k : Nat) (f : VSlot → VSlot) : (upSlot s k f).freeCtr = s.freeCtr := rfl
@[simp] theorem upSlot_out (s : State) (k : Nat) (f : VSlot → VSlot) : (upSlot s k f).out = s.out := rfl
@[simp] theorem upSlot_marks (s : State) (k : Nat) (f : VSlot → VSlot) : (upSlot s k f).marks = s.marks := rfl
@[simp] theorem upSlot_pwr (s : State) (k : Nat) (f : VSlot → VSlot) : (upSlot s k f).pwr = s.pwr := rfl
@[simp] theorem upSlot_time (s : State) (k : Nat) (f : VSlot → VSlot) : (upSlot s k f).time = s.time := rfl
@[simp] theorem upSlot_flash (s : State) (k : Nat) (f : VSlot → VSlot) : (upSlot s k f).flash = s.flash := rfl
@[simp] theorem upSlot_sec (s : State) (k : Nat) (f : VSlot → VSlot) : (upSlot s k f).sec = s.sec := rfl
@[simp] theorem upSlot_bring (s : State) (k : Nat) (f : VSlot → VSlot) : (upSlot s k f).bring = s.bring := rfl
@[simp] theorem upSlot_dram (s : State) (k : Nat) (f : VSlot → VSlot) : (upSlot s k f).dram = s.dram := rfl
@[simp] theorem upSlot_loose (s : State) (k : Nat) (f : VSlot → VSlot) : (upSlot s k f).loose = s.loose := rfl
@[simp] theorem upSlot_imap (s : State) (k : Nat) (f : VSlot → VSlot) : (upSlot s k f).imap = s.imap := rfl
@[simp] theorem upSlot_mapRaw (s : State) (k : Nat) (f : VSlot → VSlot) : (upSlot s k f).mapRaw = s.mapRaw := rfl
@[simp] theorem upSlot_chans (s : State) (k : Nat) (f : VSlot → VSlot) : (upSlot s k f).chans = s.chans := rfl
@[simp] theorem upSlot_hedges (s : State) (k : Nat) (f : VSlot → VSlot) : (upSlot s k f).hedges = s.hedges := rfl
@[simp] theorem upSlot_cores (s : State) (k : Nat) (f : VSlot → VSlot) : (upSlot s k f).cores = s.cores := rfl
@[simp] theorem upSlot_scrubOn (s : State) (k : Nat) (f : VSlot → VSlot) : (upSlot s k f).scrubOn = s.scrubOn := rfl
@[simp] theorem upSlot_hrow (s : State) (k : Nat) (f : VSlot → VSlot) : (upSlot s k f).hrow = s.hrow := rfl
@[simp] theorem upSlot_arrived (s : State) (k : Nat) (f : VSlot → VSlot) : (upSlot s k f).arrived = s.arrived := rfl
@[simp] theorem upSlot_lookRec (s : State) (k : Nat) (f : VSlot → VSlot) : (upSlot s k f).lookRec = s.lookRec := rfl
@[simp] theorem upSlot_heldSwaps (s : State) (k : Nat) (f : VSlot → VSlot) : (upSlot s k f).heldSwaps = s.heldSwaps := rfl
@[simp] theorem upSlot_counters (s : State) (k : Nat) (f : VSlot → VSlot) : (upSlot s k f).counters = s.counters := rfl
@[simp] theorem upSlot_policy (s : State) (k : Nat) (f : VSlot → VSlot) : (upSlot s k f).policy = s.policy := rfl
@[simp] theorem upSlot_policyNext (s : State) (k : Nat) (f : VSlot → VSlot) : (upSlot s k f).policyNext = s.policyNext := rfl
@[simp] theorem upSlot_hotPosted (s : State) (k : Nat) (f : VSlot → VSlot) : (upSlot s k f).hotPosted = s.hotPosted := rfl
@[simp] theorem upSlot_migrates (s : State) (k : Nat) (f : VSlot → VSlot) : (upSlot s k f).migrates = s.migrates := rfl
@[simp] theorem upSlot_codebooks (s : State) (k : Nat) (f : VSlot → VSlot) : (upSlot s k f).codebooks = s.codebooks := rfl
@[simp] theorem upSlot_bags (s : State) (k : Nat) (f : VSlot → VSlot) : (upSlot s k f).bags = s.bags := rfl
@[simp] theorem upSlot_pieces (s : State) (k : Nat) (f : VSlot → VSlot) : (upSlot s k f).pieces = s.pieces := rfl
@[simp] theorem upSlot_lookups (s : State) (k : Nat) (f : VSlot → VSlot) : (upSlot s k f).lookups = s.lookups := rfl
@[simp] theorem upSlot_moverTurn (s : State) (k : Nat) (f : VSlot → VSlot) : (upSlot s k f).moverTurn = s.moverTurn := rfl
@[simp] theorem upSlot_nextBag (s : State) (k : Nat) (f : VSlot → VSlot) : (upSlot s k f).nextBag = s.nextBag := rfl
@[simp] theorem upSlot_nextPiece (s : State) (k : Nat) (f : VSlot → VSlot) : (upSlot s k f).nextPiece = s.nextPiece := rfl
@[simp] theorem upSlot_routines (s : State) (k : Nat) (f : VSlot → VSlot) : (upSlot s k f).routines = s.routines := rfl
@[simp] theorem upSlot_upd (s : State) (k : Nat) (f : VSlot → VSlot) : (upSlot s k f).upd = s.upd := rfl
@[simp] theorem upSlot_xl (s : State) (k : Nat) (f : VSlot → VSlot) : (upSlot s k f).xl = s.xl := rfl
@[simp] theorem upSlot_ig (s : State) (k : Nat) (f : VSlot → VSlot) : (upSlot s k f).ig = s.ig := rfl
@[simp] theorem upSlot_sqs (s : State) (k : Nat) (f : VSlot → VSlot) : (upSlot s k f).sqs = s.sqs := rfl
@[simp] theorem upSlot_cqs (s : State) (k : Nat) (f : VSlot → VSlot) : (upSlot s k f).cqs = s.cqs := rfl
@[simp] theorem upSlot_dbIgnored (s : State) (k : Nat) (f : VSlot → VSlot) : (upSlot s k f).dbIgnored = s.dbIgnored := rfl
@[simp] theorem upSlot_bursts (s : State) (k : Nat) (f : VSlot → VSlot) : (upSlot s k f).bursts = s.bursts := rfl
@[simp] theorem upSlot_nextBurst (s : State) (k : Nat) (f : VSlot → VSlot) : (upSlot s k f).nextBurst = s.nextBurst := rfl
@[simp] theorem upSlot_dbuf (s : State) (k : Nat) (f : VSlot → VSlot) : (upSlot s k f).dbuf = s.dbuf := rfl
@[simp] theorem upSlot_jobs (s : State) (k : Nat) (f : VSlot → VSlot) : (upSlot s k f).jobs = s.jobs := rfl
@[simp] theorem upSlot_sched (s : State) (k : Nat) (f : VSlot → VSlot) : (upSlot s k f).sched = s.sched := rfl
@[simp] theorem upSlot_ctxRec (s : State) (k : Nat) (f : VSlot → VSlot) : (upSlot s k f).ctxRec = s.ctxRec := rfl
@[simp] theorem upSlot_resetRun (s : State) (k : Nat) (f : VSlot → VSlot) : (upSlot s k f).resetRun = s.resetRun := rfl
@[simp] theorem upSlot_mbox (s : State) (k : Nat) (f : VSlot → VSlot) : (upSlot s k f).mbox = s.mbox := rfl
@[simp] theorem upSlot_mbOrder (s : State) (k : Nat) (f : VSlot → VSlot) : (upSlot s k f).mbOrder = s.mbOrder := rfl
@[simp] theorem upSlot_nego (s : State) (k : Nat) (f : VSlot → VSlot) : (upSlot s k f).nego = s.nego := rfl
@[simp] theorem upSlot_adminWaits (s : State) (k : Nat) (f : VSlot → VSlot) : (upSlot s k f).adminWaits = s.adminWaits := rfl
@[simp] theorem upSlot_eq (s : State) (k : Nat) (f : VSlot → VSlot) : (upSlot s k f).eq = s.eq := rfl
@[simp] theorem upSlot_hq (s : State) (k : Nat) (f : VSlot → VSlot) : (upSlot s k f).hq = s.hq := rfl
@[simp] theorem upSlot_fq (s : State) (k : Nat) (f : VSlot → VSlot) : (upSlot s k f).fq = s.fq := rfl
@[simp] theorem upSlot_evSeq (s : State) (k : Nat) (f : VSlot → VSlot) : (upSlot s k f).evSeq = s.evSeq := rfl
@[simp] theorem upSlot_evHeld (s : State) (k : Nat) (f : VSlot → VSlot) : (upSlot s k f).evHeld = s.evHeld := rfl
@[simp] theorem upSlot_eqDropped (s : State) (k : Nat) (f : VSlot → VSlot) : (upSlot s k f).eqDropped = s.eqDropped := rfl
@[simp] theorem upSlot_mbIgnored (s : State) (k : Nat) (f : VSlot → VSlot) : (upSlot s k f).mbIgnored = s.mbIgnored := rfl
@[simp] theorem upSlot_modes (s : State) (k : Nat) (f : VSlot → VSlot) : (upSlot s k f).modes = s.modes := rfl
@[simp] theorem upSlot_model (s : State) (k : Nat) (f : VSlot → VSlot) : (upSlot s k f).model = s.model := rfl
@[simp] theorem upSlot_fwReserve (s : State) (k : Nat) (f : VSlot → VSlot) : (upSlot s k f).fwReserve = s.fwReserve := rfl
@[simp] theorem upSlot_link (s : State) (k : Nat) (f : VSlot → VSlot) : (upSlot s k f).link = s.link := rfl
@[simp] theorem upSlot_fab (s : State) (k : Nat) (f : VSlot → VSlot) : (upSlot s k f).fab = s.fab := rfl
@[simp] theorem upSlot_health (s : State) (k : Nat) (f : VSlot → VSlot) : (upSlot s k f).health = s.health := rfl

@[simp] theorem upPort_pending (s : State) (p : Nat) (f : Port → Port) : (upPort s p f).pending = s.pending := rfl
@[simp] theorem upPort_freeCtr (s : State) (p : Nat) (f : Port → Port) : (upPort s p f).freeCtr = s.freeCtr := rfl
@[simp] theorem upPort_out (s : State) (p : Nat) (f : Port → Port) : (upPort s p f).out = s.out := rfl
@[simp] theorem upPort_marks (s : State) (p : Nat) (f : Port → Port) : (upPort s p f).marks = s.marks := rfl
@[simp] theorem upPort_pwr (s : State) (p : Nat) (f : Port → Port) : (upPort s p f).pwr = s.pwr := rfl
@[simp] theorem upPort_time (s : State) (p : Nat) (f : Port → Port) : (upPort s p f).time = s.time := rfl
@[simp] theorem upPort_flash (s : State) (p : Nat) (f : Port → Port) : (upPort s p f).flash = s.flash := rfl
@[simp] theorem upPort_sec (s : State) (p : Nat) (f : Port → Port) : (upPort s p f).sec = s.sec := rfl
@[simp] theorem upPort_bring (s : State) (p : Nat) (f : Port → Port) : (upPort s p f).bring = s.bring := rfl
@[simp] theorem upPort_dram (s : State) (p : Nat) (f : Port → Port) : (upPort s p f).dram = s.dram := rfl
@[simp] theorem upPort_loose (s : State) (p : Nat) (f : Port → Port) : (upPort s p f).loose = s.loose := rfl
@[simp] theorem upPort_imap (s : State) (p : Nat) (f : Port → Port) : (upPort s p f).imap = s.imap := rfl
@[simp] theorem upPort_mapRaw (s : State) (p : Nat) (f : Port → Port) : (upPort s p f).mapRaw = s.mapRaw := rfl
@[simp] theorem upPort_chans (s : State) (p : Nat) (f : Port → Port) : (upPort s p f).chans = s.chans := rfl
@[simp] theorem upPort_hedges (s : State) (p : Nat) (f : Port → Port) : (upPort s p f).hedges = s.hedges := rfl
@[simp] theorem upPort_cores (s : State) (p : Nat) (f : Port → Port) : (upPort s p f).cores = s.cores := rfl
@[simp] theorem upPort_scrubOn (s : State) (p : Nat) (f : Port → Port) : (upPort s p f).scrubOn = s.scrubOn := rfl
@[simp] theorem upPort_hrow (s : State) (p : Nat) (f : Port → Port) : (upPort s p f).hrow = s.hrow := rfl
@[simp] theorem upPort_arrived (s : State) (p : Nat) (f : Port → Port) : (upPort s p f).arrived = s.arrived := rfl
@[simp] theorem upPort_slots (s : State) (p : Nat) (f : Port → Port) : (upPort s p f).slots = s.slots := rfl
@[simp] theorem upPort_lookRec (s : State) (p : Nat) (f : Port → Port) : (upPort s p f).lookRec = s.lookRec := rfl
@[simp] theorem upPort_heldSwaps (s : State) (p : Nat) (f : Port → Port) : (upPort s p f).heldSwaps = s.heldSwaps := rfl
@[simp] theorem upPort_counters (s : State) (p : Nat) (f : Port → Port) : (upPort s p f).counters = s.counters := rfl
@[simp] theorem upPort_policy (s : State) (p : Nat) (f : Port → Port) : (upPort s p f).policy = s.policy := rfl
@[simp] theorem upPort_policyNext (s : State) (p : Nat) (f : Port → Port) : (upPort s p f).policyNext = s.policyNext := rfl
@[simp] theorem upPort_hotPosted (s : State) (p : Nat) (f : Port → Port) : (upPort s p f).hotPosted = s.hotPosted := rfl
@[simp] theorem upPort_migrates (s : State) (p : Nat) (f : Port → Port) : (upPort s p f).migrates = s.migrates := rfl
@[simp] theorem upPort_codebooks (s : State) (p : Nat) (f : Port → Port) : (upPort s p f).codebooks = s.codebooks := rfl
@[simp] theorem upPort_bags (s : State) (p : Nat) (f : Port → Port) : (upPort s p f).bags = s.bags := rfl
@[simp] theorem upPort_pieces (s : State) (p : Nat) (f : Port → Port) : (upPort s p f).pieces = s.pieces := rfl
@[simp] theorem upPort_lookups (s : State) (p : Nat) (f : Port → Port) : (upPort s p f).lookups = s.lookups := rfl
@[simp] theorem upPort_moverTurn (s : State) (p : Nat) (f : Port → Port) : (upPort s p f).moverTurn = s.moverTurn := rfl
@[simp] theorem upPort_nextBag (s : State) (p : Nat) (f : Port → Port) : (upPort s p f).nextBag = s.nextBag := rfl
@[simp] theorem upPort_nextPiece (s : State) (p : Nat) (f : Port → Port) : (upPort s p f).nextPiece = s.nextPiece := rfl
@[simp] theorem upPort_routines (s : State) (p : Nat) (f : Port → Port) : (upPort s p f).routines = s.routines := rfl
@[simp] theorem upPort_upd (s : State) (p : Nat) (f : Port → Port) : (upPort s p f).upd = s.upd := rfl
@[simp] theorem upPort_xl (s : State) (p : Nat) (f : Port → Port) : (upPort s p f).xl = s.xl := rfl
@[simp] theorem upPort_ig (s : State) (p : Nat) (f : Port → Port) : (upPort s p f).ig = s.ig := rfl
@[simp] theorem upPort_sqs (s : State) (p : Nat) (f : Port → Port) : (upPort s p f).sqs = s.sqs := rfl
@[simp] theorem upPort_cqs (s : State) (p : Nat) (f : Port → Port) : (upPort s p f).cqs = s.cqs := rfl
@[simp] theorem upPort_dbIgnored (s : State) (p : Nat) (f : Port → Port) : (upPort s p f).dbIgnored = s.dbIgnored := rfl
@[simp] theorem upPort_bursts (s : State) (p : Nat) (f : Port → Port) : (upPort s p f).bursts = s.bursts := rfl
@[simp] theorem upPort_nextBurst (s : State) (p : Nat) (f : Port → Port) : (upPort s p f).nextBurst = s.nextBurst := rfl
@[simp] theorem upPort_dbuf (s : State) (p : Nat) (f : Port → Port) : (upPort s p f).dbuf = s.dbuf := rfl
@[simp] theorem upPort_jobs (s : State) (p : Nat) (f : Port → Port) : (upPort s p f).jobs = s.jobs := rfl
@[simp] theorem upPort_sched (s : State) (p : Nat) (f : Port → Port) : (upPort s p f).sched = s.sched := rfl
@[simp] theorem upPort_ctxRec (s : State) (p : Nat) (f : Port → Port) : (upPort s p f).ctxRec = s.ctxRec := rfl
@[simp] theorem upPort_resetRun (s : State) (p : Nat) (f : Port → Port) : (upPort s p f).resetRun = s.resetRun := rfl
@[simp] theorem upPort_mbox (s : State) (p : Nat) (f : Port → Port) : (upPort s p f).mbox = s.mbox := rfl
@[simp] theorem upPort_mbOrder (s : State) (p : Nat) (f : Port → Port) : (upPort s p f).mbOrder = s.mbOrder := rfl
@[simp] theorem upPort_nego (s : State) (p : Nat) (f : Port → Port) : (upPort s p f).nego = s.nego := rfl
@[simp] theorem upPort_adminWaits (s : State) (p : Nat) (f : Port → Port) : (upPort s p f).adminWaits = s.adminWaits := rfl
@[simp] theorem upPort_eq (s : State) (p : Nat) (f : Port → Port) : (upPort s p f).eq = s.eq := rfl
@[simp] theorem upPort_hq (s : State) (p : Nat) (f : Port → Port) : (upPort s p f).hq = s.hq := rfl
@[simp] theorem upPort_fq (s : State) (p : Nat) (f : Port → Port) : (upPort s p f).fq = s.fq := rfl
@[simp] theorem upPort_evSeq (s : State) (p : Nat) (f : Port → Port) : (upPort s p f).evSeq = s.evSeq := rfl
@[simp] theorem upPort_evHeld (s : State) (p : Nat) (f : Port → Port) : (upPort s p f).evHeld = s.evHeld := rfl
@[simp] theorem upPort_eqDropped (s : State) (p : Nat) (f : Port → Port) : (upPort s p f).eqDropped = s.eqDropped := rfl
@[simp] theorem upPort_mbIgnored (s : State) (p : Nat) (f : Port → Port) : (upPort s p f).mbIgnored = s.mbIgnored := rfl
@[simp] theorem upPort_modes (s : State) (p : Nat) (f : Port → Port) : (upPort s p f).modes = s.modes := rfl
@[simp] theorem upPort_model (s : State) (p : Nat) (f : Port → Port) : (upPort s p f).model = s.model := rfl
@[simp] theorem upPort_fwReserve (s : State) (p : Nat) (f : Port → Port) : (upPort s p f).fwReserve = s.fwReserve := rfl
@[simp] theorem upPort_link (s : State) (p : Nat) (f : Port → Port) : (upPort s p f).link = s.link := rfl
@[simp] theorem upPort_health (s : State) (p : Nat) (f : Port → Port) : (upPort s p f).health = s.health := rfl

@[simp] theorem upMail_pending (s : State) (k : Nat) (f : Mbox → Mbox) : (upMail s k f).pending = s.pending := rfl
@[simp] theorem upMail_freeCtr (s : State) (k : Nat) (f : Mbox → Mbox) : (upMail s k f).freeCtr = s.freeCtr := rfl
@[simp] theorem upMail_out (s : State) (k : Nat) (f : Mbox → Mbox) : (upMail s k f).out = s.out := rfl
@[simp] theorem upMail_marks (s : State) (k : Nat) (f : Mbox → Mbox) : (upMail s k f).marks = s.marks := rfl
@[simp] theorem upMail_pwr (s : State) (k : Nat) (f : Mbox → Mbox) : (upMail s k f).pwr = s.pwr := rfl
@[simp] theorem upMail_time (s : State) (k : Nat) (f : Mbox → Mbox) : (upMail s k f).time = s.time := rfl
@[simp] theorem upMail_flash (s : State) (k : Nat) (f : Mbox → Mbox) : (upMail s k f).flash = s.flash := rfl
@[simp] theorem upMail_sec (s : State) (k : Nat) (f : Mbox → Mbox) : (upMail s k f).sec = s.sec := rfl
@[simp] theorem upMail_bring (s : State) (k : Nat) (f : Mbox → Mbox) : (upMail s k f).bring = s.bring := rfl
@[simp] theorem upMail_dram (s : State) (k : Nat) (f : Mbox → Mbox) : (upMail s k f).dram = s.dram := rfl
@[simp] theorem upMail_loose (s : State) (k : Nat) (f : Mbox → Mbox) : (upMail s k f).loose = s.loose := rfl
@[simp] theorem upMail_imap (s : State) (k : Nat) (f : Mbox → Mbox) : (upMail s k f).imap = s.imap := rfl
@[simp] theorem upMail_mapRaw (s : State) (k : Nat) (f : Mbox → Mbox) : (upMail s k f).mapRaw = s.mapRaw := rfl
@[simp] theorem upMail_chans (s : State) (k : Nat) (f : Mbox → Mbox) : (upMail s k f).chans = s.chans := rfl
@[simp] theorem upMail_hedges (s : State) (k : Nat) (f : Mbox → Mbox) : (upMail s k f).hedges = s.hedges := rfl
@[simp] theorem upMail_cores (s : State) (k : Nat) (f : Mbox → Mbox) : (upMail s k f).cores = s.cores := rfl
@[simp] theorem upMail_scrubOn (s : State) (k : Nat) (f : Mbox → Mbox) : (upMail s k f).scrubOn = s.scrubOn := rfl
@[simp] theorem upMail_hrow (s : State) (k : Nat) (f : Mbox → Mbox) : (upMail s k f).hrow = s.hrow := rfl
@[simp] theorem upMail_arrived (s : State) (k : Nat) (f : Mbox → Mbox) : (upMail s k f).arrived = s.arrived := rfl
@[simp] theorem upMail_slots (s : State) (k : Nat) (f : Mbox → Mbox) : (upMail s k f).slots = s.slots := rfl
@[simp] theorem upMail_lookRec (s : State) (k : Nat) (f : Mbox → Mbox) : (upMail s k f).lookRec = s.lookRec := rfl
@[simp] theorem upMail_heldSwaps (s : State) (k : Nat) (f : Mbox → Mbox) : (upMail s k f).heldSwaps = s.heldSwaps := rfl
@[simp] theorem upMail_counters (s : State) (k : Nat) (f : Mbox → Mbox) : (upMail s k f).counters = s.counters := rfl
@[simp] theorem upMail_policy (s : State) (k : Nat) (f : Mbox → Mbox) : (upMail s k f).policy = s.policy := rfl
@[simp] theorem upMail_policyNext (s : State) (k : Nat) (f : Mbox → Mbox) : (upMail s k f).policyNext = s.policyNext := rfl
@[simp] theorem upMail_hotPosted (s : State) (k : Nat) (f : Mbox → Mbox) : (upMail s k f).hotPosted = s.hotPosted := rfl
@[simp] theorem upMail_migrates (s : State) (k : Nat) (f : Mbox → Mbox) : (upMail s k f).migrates = s.migrates := rfl
@[simp] theorem upMail_codebooks (s : State) (k : Nat) (f : Mbox → Mbox) : (upMail s k f).codebooks = s.codebooks := rfl
@[simp] theorem upMail_bags (s : State) (k : Nat) (f : Mbox → Mbox) : (upMail s k f).bags = s.bags := rfl
@[simp] theorem upMail_pieces (s : State) (k : Nat) (f : Mbox → Mbox) : (upMail s k f).pieces = s.pieces := rfl
@[simp] theorem upMail_lookups (s : State) (k : Nat) (f : Mbox → Mbox) : (upMail s k f).lookups = s.lookups := rfl
@[simp] theorem upMail_moverTurn (s : State) (k : Nat) (f : Mbox → Mbox) : (upMail s k f).moverTurn = s.moverTurn := rfl
@[simp] theorem upMail_nextBag (s : State) (k : Nat) (f : Mbox → Mbox) : (upMail s k f).nextBag = s.nextBag := rfl
@[simp] theorem upMail_nextPiece (s : State) (k : Nat) (f : Mbox → Mbox) : (upMail s k f).nextPiece = s.nextPiece := rfl
@[simp] theorem upMail_routines (s : State) (k : Nat) (f : Mbox → Mbox) : (upMail s k f).routines = s.routines := rfl
@[simp] theorem upMail_upd (s : State) (k : Nat) (f : Mbox → Mbox) : (upMail s k f).upd = s.upd := rfl
@[simp] theorem upMail_xl (s : State) (k : Nat) (f : Mbox → Mbox) : (upMail s k f).xl = s.xl := rfl
@[simp] theorem upMail_ig (s : State) (k : Nat) (f : Mbox → Mbox) : (upMail s k f).ig = s.ig := rfl
@[simp] theorem upMail_sqs (s : State) (k : Nat) (f : Mbox → Mbox) : (upMail s k f).sqs = s.sqs := rfl
@[simp] theorem upMail_cqs (s : State) (k : Nat) (f : Mbox → Mbox) : (upMail s k f).cqs = s.cqs := rfl
@[simp] theorem upMail_dbIgnored (s : State) (k : Nat) (f : Mbox → Mbox) : (upMail s k f).dbIgnored = s.dbIgnored := rfl
@[simp] theorem upMail_bursts (s : State) (k : Nat) (f : Mbox → Mbox) : (upMail s k f).bursts = s.bursts := rfl
@[simp] theorem upMail_nextBurst (s : State) (k : Nat) (f : Mbox → Mbox) : (upMail s k f).nextBurst = s.nextBurst := rfl
@[simp] theorem upMail_dbuf (s : State) (k : Nat) (f : Mbox → Mbox) : (upMail s k f).dbuf = s.dbuf := rfl
@[simp] theorem upMail_jobs (s : State) (k : Nat) (f : Mbox → Mbox) : (upMail s k f).jobs = s.jobs := rfl
@[simp] theorem upMail_sched (s : State) (k : Nat) (f : Mbox → Mbox) : (upMail s k f).sched = s.sched := rfl
@[simp] theorem upMail_ctxRec (s : State) (k : Nat) (f : Mbox → Mbox) : (upMail s k f).ctxRec = s.ctxRec := rfl
@[simp] theorem upMail_resetRun (s : State) (k : Nat) (f : Mbox → Mbox) : (upMail s k f).resetRun = s.resetRun := rfl
@[simp] theorem upMail_mbOrder (s : State) (k : Nat) (f : Mbox → Mbox) : (upMail s k f).mbOrder = s.mbOrder := rfl
@[simp] theorem upMail_nego (s : State) (k : Nat) (f : Mbox → Mbox) : (upMail s k f).nego = s.nego := rfl
@[simp] theorem upMail_adminWaits (s : State) (k : Nat) (f : Mbox → Mbox) : (upMail s k f).adminWaits = s.adminWaits := rfl
@[simp] theorem upMail_eq (s : State) (k : Nat) (f : Mbox → Mbox) : (upMail s k f).eq = s.eq := rfl
@[simp] theorem upMail_hq (s : State) (k : Nat) (f : Mbox → Mbox) : (upMail s k f).hq = s.hq := rfl
@[simp] theorem upMail_fq (s : State) (k : Nat) (f : Mbox → Mbox) : (upMail s k f).fq = s.fq := rfl
@[simp] theorem upMail_evSeq (s : State) (k : Nat) (f : Mbox → Mbox) : (upMail s k f).evSeq = s.evSeq := rfl
@[simp] theorem upMail_evHeld (s : State) (k : Nat) (f : Mbox → Mbox) : (upMail s k f).evHeld = s.evHeld := rfl
@[simp] theorem upMail_eqDropped (s : State) (k : Nat) (f : Mbox → Mbox) : (upMail s k f).eqDropped = s.eqDropped := rfl
@[simp] theorem upMail_mbIgnored (s : State) (k : Nat) (f : Mbox → Mbox) : (upMail s k f).mbIgnored = s.mbIgnored := rfl
@[simp] theorem upMail_modes (s : State) (k : Nat) (f : Mbox → Mbox) : (upMail s k f).modes = s.modes := rfl
@[simp] theorem upMail_model (s : State) (k : Nat) (f : Mbox → Mbox) : (upMail s k f).model = s.model := rfl
@[simp] theorem upMail_fwReserve (s : State) (k : Nat) (f : Mbox → Mbox) : (upMail s k f).fwReserve = s.fwReserve := rfl
@[simp] theorem upMail_link (s : State) (k : Nat) (f : Mbox → Mbox) : (upMail s k f).link = s.link := rfl
@[simp] theorem upMail_fab (s : State) (k : Nat) (f : Mbox → Mbox) : (upMail s k f).fab = s.fab := rfl
@[simp] theorem upMail_health (s : State) (k : Nat) (f : Mbox → Mbox) : (upMail s k f).health = s.health := rfl

@[simp] theorem upIg_pending (s : State) (f : Integrity → Integrity) : (upIg s f).pending = s.pending := rfl
@[simp] theorem upIg_freeCtr (s : State) (f : Integrity → Integrity) : (upIg s f).freeCtr = s.freeCtr := rfl
@[simp] theorem upIg_out (s : State) (f : Integrity → Integrity) : (upIg s f).out = s.out := rfl
@[simp] theorem upIg_marks (s : State) (f : Integrity → Integrity) : (upIg s f).marks = s.marks := rfl
@[simp] theorem upIg_pwr (s : State) (f : Integrity → Integrity) : (upIg s f).pwr = s.pwr := rfl
@[simp] theorem upIg_time (s : State) (f : Integrity → Integrity) : (upIg s f).time = s.time := rfl
@[simp] theorem upIg_flash (s : State) (f : Integrity → Integrity) : (upIg s f).flash = s.flash := rfl
@[simp] theorem upIg_sec (s : State) (f : Integrity → Integrity) : (upIg s f).sec = s.sec := rfl
@[simp] theorem upIg_bring (s : State) (f : Integrity → Integrity) : (upIg s f).bring = s.bring := rfl
@[simp] theorem upIg_dram (s : State) (f : Integrity → Integrity) : (upIg s f).dram = s.dram := rfl
@[simp] theorem upIg_loose (s : State) (f : Integrity → Integrity) : (upIg s f).loose = s.loose := rfl
@[simp] theorem upIg_imap (s : State) (f : Integrity → Integrity) : (upIg s f).imap = s.imap := rfl
@[simp] theorem upIg_mapRaw (s : State) (f : Integrity → Integrity) : (upIg s f).mapRaw = s.mapRaw := rfl
@[simp] theorem upIg_chans (s : State) (f : Integrity → Integrity) : (upIg s f).chans = s.chans := rfl
@[simp] theorem upIg_hedges (s : State) (f : Integrity → Integrity) : (upIg s f).hedges = s.hedges := rfl
@[simp] theorem upIg_cores (s : State) (f : Integrity → Integrity) : (upIg s f).cores = s.cores := rfl
@[simp] theorem upIg_scrubOn (s : State) (f : Integrity → Integrity) : (upIg s f).scrubOn = s.scrubOn := rfl
@[simp] theorem upIg_hrow (s : State) (f : Integrity → Integrity) : (upIg s f).hrow = s.hrow := rfl
@[simp] theorem upIg_arrived (s : State) (f : Integrity → Integrity) : (upIg s f).arrived = s.arrived := rfl
@[simp] theorem upIg_slots (s : State) (f : Integrity → Integrity) : (upIg s f).slots = s.slots := rfl
@[simp] theorem upIg_lookRec (s : State) (f : Integrity → Integrity) : (upIg s f).lookRec = s.lookRec := rfl
@[simp] theorem upIg_heldSwaps (s : State) (f : Integrity → Integrity) : (upIg s f).heldSwaps = s.heldSwaps := rfl
@[simp] theorem upIg_counters (s : State) (f : Integrity → Integrity) : (upIg s f).counters = s.counters := rfl
@[simp] theorem upIg_policy (s : State) (f : Integrity → Integrity) : (upIg s f).policy = s.policy := rfl
@[simp] theorem upIg_policyNext (s : State) (f : Integrity → Integrity) : (upIg s f).policyNext = s.policyNext := rfl
@[simp] theorem upIg_hotPosted (s : State) (f : Integrity → Integrity) : (upIg s f).hotPosted = s.hotPosted := rfl
@[simp] theorem upIg_migrates (s : State) (f : Integrity → Integrity) : (upIg s f).migrates = s.migrates := rfl
@[simp] theorem upIg_codebooks (s : State) (f : Integrity → Integrity) : (upIg s f).codebooks = s.codebooks := rfl
@[simp] theorem upIg_bags (s : State) (f : Integrity → Integrity) : (upIg s f).bags = s.bags := rfl
@[simp] theorem upIg_pieces (s : State) (f : Integrity → Integrity) : (upIg s f).pieces = s.pieces := rfl
@[simp] theorem upIg_lookups (s : State) (f : Integrity → Integrity) : (upIg s f).lookups = s.lookups := rfl
@[simp] theorem upIg_moverTurn (s : State) (f : Integrity → Integrity) : (upIg s f).moverTurn = s.moverTurn := rfl
@[simp] theorem upIg_nextBag (s : State) (f : Integrity → Integrity) : (upIg s f).nextBag = s.nextBag := rfl
@[simp] theorem upIg_nextPiece (s : State) (f : Integrity → Integrity) : (upIg s f).nextPiece = s.nextPiece := rfl
@[simp] theorem upIg_routines (s : State) (f : Integrity → Integrity) : (upIg s f).routines = s.routines := rfl
@[simp] theorem upIg_upd (s : State) (f : Integrity → Integrity) : (upIg s f).upd = s.upd := rfl
@[simp] theorem upIg_xl (s : State) (f : Integrity → Integrity) : (upIg s f).xl = s.xl := rfl
@[simp] theorem upIg_sqs (s : State) (f : Integrity → Integrity) : (upIg s f).sqs = s.sqs := rfl
@[simp] theorem upIg_cqs (s : State) (f : Integrity → Integrity) : (upIg s f).cqs = s.cqs := rfl
@[simp] theorem upIg_dbIgnored (s : State) (f : Integrity → Integrity) : (upIg s f).dbIgnored = s.dbIgnored := rfl
@[simp] theorem upIg_bursts (s : State) (f : Integrity → Integrity) : (upIg s f).bursts = s.bursts := rfl
@[simp] theorem upIg_nextBurst (s : State) (f : Integrity → Integrity) : (upIg s f).nextBurst = s.nextBurst := rfl
@[simp] theorem upIg_dbuf (s : State) (f : Integrity → Integrity) : (upIg s f).dbuf = s.dbuf := rfl
@[simp] theorem upIg_jobs (s : State) (f : Integrity → Integrity) : (upIg s f).jobs = s.jobs := rfl
@[simp] theorem upIg_sched (s : State) (f : Integrity → Integrity) : (upIg s f).sched = s.sched := rfl
@[simp] theorem upIg_ctxRec (s : State) (f : Integrity → Integrity) : (upIg s f).ctxRec = s.ctxRec := rfl
@[simp] theorem upIg_resetRun (s : State) (f : Integrity → Integrity) : (upIg s f).resetRun = s.resetRun := rfl
@[simp] theorem upIg_mbox (s : State) (f : Integrity → Integrity) : (upIg s f).mbox = s.mbox := rfl
@[simp] theorem upIg_mbOrder (s : State) (f : Integrity → Integrity) : (upIg s f).mbOrder = s.mbOrder := rfl
@[simp] theorem upIg_nego (s : State) (f : Integrity → Integrity) : (upIg s f).nego = s.nego := rfl
@[simp] theorem upIg_adminWaits (s : State) (f : Integrity → Integrity) : (upIg s f).adminWaits = s.adminWaits := rfl
@[simp] theorem upIg_eq (s : State) (f : Integrity → Integrity) : (upIg s f).eq = s.eq := rfl
@[simp] theorem upIg_hq (s : State) (f : Integrity → Integrity) : (upIg s f).hq = s.hq := rfl
@[simp] theorem upIg_fq (s : State) (f : Integrity → Integrity) : (upIg s f).fq = s.fq := rfl
@[simp] theorem upIg_evSeq (s : State) (f : Integrity → Integrity) : (upIg s f).evSeq = s.evSeq := rfl
@[simp] theorem upIg_evHeld (s : State) (f : Integrity → Integrity) : (upIg s f).evHeld = s.evHeld := rfl
@[simp] theorem upIg_eqDropped (s : State) (f : Integrity → Integrity) : (upIg s f).eqDropped = s.eqDropped := rfl
@[simp] theorem upIg_mbIgnored (s : State) (f : Integrity → Integrity) : (upIg s f).mbIgnored = s.mbIgnored := rfl
@[simp] theorem upIg_modes (s : State) (f : Integrity → Integrity) : (upIg s f).modes = s.modes := rfl
@[simp] theorem upIg_model (s : State) (f : Integrity → Integrity) : (upIg s f).model = s.model := rfl
@[simp] theorem upIg_fwReserve (s : State) (f : Integrity → Integrity) : (upIg s f).fwReserve = s.fwReserve := rfl
@[simp] theorem upIg_link (s : State) (f : Integrity → Integrity) : (upIg s f).link = s.link := rfl
@[simp] theorem upIg_fab (s : State) (f : Integrity → Integrity) : (upIg s f).fab = s.fab := rfl
@[simp] theorem upIg_health (s : State) (f : Integrity → Integrity) : (upIg s f).health = s.health := rfl

@[simp] theorem upLook_pending (s : State) (k : Nat) (f : LookRec → LookRec) : (upLook s k f).pending = s.pending := rfl
@[simp] theorem upLook_freeCtr (s : State) (k : Nat) (f : LookRec → LookRec) : (upLook s k f).freeCtr = s.freeCtr := rfl
@[simp] theorem upLook_out (s : State) (k : Nat) (f : LookRec → LookRec) : (upLook s k f).out = s.out := rfl
@[simp] theorem upLook_marks (s : State) (k : Nat) (f : LookRec → LookRec) : (upLook s k f).marks = s.marks := rfl
@[simp] theorem upLook_pwr (s : State) (k : Nat) (f : LookRec → LookRec) : (upLook s k f).pwr = s.pwr := rfl
@[simp] theorem upLook_time (s : State) (k : Nat) (f : LookRec → LookRec) : (upLook s k f).time = s.time := rfl
@[simp] theorem upLook_flash (s : State) (k : Nat) (f : LookRec → LookRec) : (upLook s k f).flash = s.flash := rfl
@[simp] theorem upLook_sec (s : State) (k : Nat) (f : LookRec → LookRec) : (upLook s k f).sec = s.sec := rfl
@[simp] theorem upLook_bring (s : State) (k : Nat) (f : LookRec → LookRec) : (upLook s k f).bring = s.bring := rfl
@[simp] theorem upLook_dram (s : State) (k : Nat) (f : LookRec → LookRec) : (upLook s k f).dram = s.dram := rfl
@[simp] theorem upLook_loose (s : State) (k : Nat) (f : LookRec → LookRec) : (upLook s k f).loose = s.loose := rfl
@[simp] theorem upLook_imap (s : State) (k : Nat) (f : LookRec → LookRec) : (upLook s k f).imap = s.imap := rfl
@[simp] theorem upLook_mapRaw (s : State) (k : Nat) (f : LookRec → LookRec) : (upLook s k f).mapRaw = s.mapRaw := rfl
@[simp] theorem upLook_chans (s : State) (k : Nat) (f : LookRec → LookRec) : (upLook s k f).chans = s.chans := rfl
@[simp] theorem upLook_hedges (s : State) (k : Nat) (f : LookRec → LookRec) : (upLook s k f).hedges = s.hedges := rfl
@[simp] theorem upLook_cores (s : State) (k : Nat) (f : LookRec → LookRec) : (upLook s k f).cores = s.cores := rfl
@[simp] theorem upLook_scrubOn (s : State) (k : Nat) (f : LookRec → LookRec) : (upLook s k f).scrubOn = s.scrubOn := rfl
@[simp] theorem upLook_hrow (s : State) (k : Nat) (f : LookRec → LookRec) : (upLook s k f).hrow = s.hrow := rfl
@[simp] theorem upLook_arrived (s : State) (k : Nat) (f : LookRec → LookRec) : (upLook s k f).arrived = s.arrived := rfl
@[simp] theorem upLook_slots (s : State) (k : Nat) (f : LookRec → LookRec) : (upLook s k f).slots = s.slots := rfl
@[simp] theorem upLook_heldSwaps (s : State) (k : Nat) (f : LookRec → LookRec) : (upLook s k f).heldSwaps = s.heldSwaps := rfl
@[simp] theorem upLook_counters (s : State) (k : Nat) (f : LookRec → LookRec) : (upLook s k f).counters = s.counters := rfl
@[simp] theorem upLook_policy (s : State) (k : Nat) (f : LookRec → LookRec) : (upLook s k f).policy = s.policy := rfl
@[simp] theorem upLook_policyNext (s : State) (k : Nat) (f : LookRec → LookRec) : (upLook s k f).policyNext = s.policyNext := rfl
@[simp] theorem upLook_hotPosted (s : State) (k : Nat) (f : LookRec → LookRec) : (upLook s k f).hotPosted = s.hotPosted := rfl
@[simp] theorem upLook_migrates (s : State) (k : Nat) (f : LookRec → LookRec) : (upLook s k f).migrates = s.migrates := rfl
@[simp] theorem upLook_codebooks (s : State) (k : Nat) (f : LookRec → LookRec) : (upLook s k f).codebooks = s.codebooks := rfl
@[simp] theorem upLook_bags (s : State) (k : Nat) (f : LookRec → LookRec) : (upLook s k f).bags = s.bags := rfl
@[simp] theorem upLook_pieces (s : State) (k : Nat) (f : LookRec → LookRec) : (upLook s k f).pieces = s.pieces := rfl
@[simp] theorem upLook_lookups (s : State) (k : Nat) (f : LookRec → LookRec) : (upLook s k f).lookups = s.lookups := rfl
@[simp] theorem upLook_moverTurn (s : State) (k : Nat) (f : LookRec → LookRec) : (upLook s k f).moverTurn = s.moverTurn := rfl
@[simp] theorem upLook_nextBag (s : State) (k : Nat) (f : LookRec → LookRec) : (upLook s k f).nextBag = s.nextBag := rfl
@[simp] theorem upLook_nextPiece (s : State) (k : Nat) (f : LookRec → LookRec) : (upLook s k f).nextPiece = s.nextPiece := rfl
@[simp] theorem upLook_routines (s : State) (k : Nat) (f : LookRec → LookRec) : (upLook s k f).routines = s.routines := rfl
@[simp] theorem upLook_upd (s : State) (k : Nat) (f : LookRec → LookRec) : (upLook s k f).upd = s.upd := rfl
@[simp] theorem upLook_xl (s : State) (k : Nat) (f : LookRec → LookRec) : (upLook s k f).xl = s.xl := rfl
@[simp] theorem upLook_ig (s : State) (k : Nat) (f : LookRec → LookRec) : (upLook s k f).ig = s.ig := rfl
@[simp] theorem upLook_sqs (s : State) (k : Nat) (f : LookRec → LookRec) : (upLook s k f).sqs = s.sqs := rfl
@[simp] theorem upLook_cqs (s : State) (k : Nat) (f : LookRec → LookRec) : (upLook s k f).cqs = s.cqs := rfl
@[simp] theorem upLook_dbIgnored (s : State) (k : Nat) (f : LookRec → LookRec) : (upLook s k f).dbIgnored = s.dbIgnored := rfl
@[simp] theorem upLook_bursts (s : State) (k : Nat) (f : LookRec → LookRec) : (upLook s k f).bursts = s.bursts := rfl
@[simp] theorem upLook_nextBurst (s : State) (k : Nat) (f : LookRec → LookRec) : (upLook s k f).nextBurst = s.nextBurst := rfl
@[simp] theorem upLook_dbuf (s : State) (k : Nat) (f : LookRec → LookRec) : (upLook s k f).dbuf = s.dbuf := rfl
@[simp] theorem upLook_jobs (s : State) (k : Nat) (f : LookRec → LookRec) : (upLook s k f).jobs = s.jobs := rfl
@[simp] theorem upLook_sched (s : State) (k : Nat) (f : LookRec → LookRec) : (upLook s k f).sched = s.sched := rfl
@[simp] theorem upLook_ctxRec (s : State) (k : Nat) (f : LookRec → LookRec) : (upLook s k f).ctxRec = s.ctxRec := rfl
@[simp] theorem upLook_resetRun (s : State) (k : Nat) (f : LookRec → LookRec) : (upLook s k f).resetRun = s.resetRun := rfl
@[simp] theorem upLook_mbox (s : State) (k : Nat) (f : LookRec → LookRec) : (upLook s k f).mbox = s.mbox := rfl
@[simp] theorem upLook_mbOrder (s : State) (k : Nat) (f : LookRec → LookRec) : (upLook s k f).mbOrder = s.mbOrder := rfl
@[simp] theorem upLook_nego (s : State) (k : Nat) (f : LookRec → LookRec) : (upLook s k f).nego = s.nego := rfl
@[simp] theorem upLook_adminWaits (s : State) (k : Nat) (f : LookRec → LookRec) : (upLook s k f).adminWaits = s.adminWaits := rfl
@[simp] theorem upLook_eq (s : State) (k : Nat) (f : LookRec → LookRec) : (upLook s k f).eq = s.eq := rfl
@[simp] theorem upLook_hq (s : State) (k : Nat) (f : LookRec → LookRec) : (upLook s k f).hq = s.hq := rfl
@[simp] theorem upLook_fq (s : State) (k : Nat) (f : LookRec → LookRec) : (upLook s k f).fq = s.fq := rfl
@[simp] theorem upLook_evSeq (s : State) (k : Nat) (f : LookRec → LookRec) : (upLook s k f).evSeq = s.evSeq := rfl
@[simp] theorem upLook_evHeld (s : State) (k : Nat) (f : LookRec → LookRec) : (upLook s k f).evHeld = s.evHeld := rfl
@[simp] theorem upLook_eqDropped (s : State) (k : Nat) (f : LookRec → LookRec) : (upLook s k f).eqDropped = s.eqDropped := rfl
@[simp] theorem upLook_mbIgnored (s : State) (k : Nat) (f : LookRec → LookRec) : (upLook s k f).mbIgnored = s.mbIgnored := rfl
@[simp] theorem upLook_modes (s : State) (k : Nat) (f : LookRec → LookRec) : (upLook s k f).modes = s.modes := rfl
@[simp] theorem upLook_model (s : State) (k : Nat) (f : LookRec → LookRec) : (upLook s k f).model = s.model := rfl
@[simp] theorem upLook_fwReserve (s : State) (k : Nat) (f : LookRec → LookRec) : (upLook s k f).fwReserve = s.fwReserve := rfl
@[simp] theorem upLook_link (s : State) (k : Nat) (f : LookRec → LookRec) : (upLook s k f).link = s.link := rfl
@[simp] theorem upLook_fab (s : State) (k : Nat) (f : LookRec → LookRec) : (upLook s k f).fab = s.fab := rfl
@[simp] theorem upLook_health (s : State) (k : Nat) (f : LookRec → LookRec) : (upLook s k f).health = s.health := rfl

@[simp] theorem upCtx_pending (s : State) (k : Nat) (f : CtxRec → CtxRec) : (upCtx s k f).pending = s.pending := rfl
@[simp] theorem upCtx_freeCtr (s : State) (k : Nat) (f : CtxRec → CtxRec) : (upCtx s k f).freeCtr = s.freeCtr := rfl
@[simp] theorem upCtx_out (s : State) (k : Nat) (f : CtxRec → CtxRec) : (upCtx s k f).out = s.out := rfl
@[simp] theorem upCtx_marks (s : State) (k : Nat) (f : CtxRec → CtxRec) : (upCtx s k f).marks = s.marks := rfl
@[simp] theorem upCtx_pwr (s : State) (k : Nat) (f : CtxRec → CtxRec) : (upCtx s k f).pwr = s.pwr := rfl
@[simp] theorem upCtx_time (s : State) (k : Nat) (f : CtxRec → CtxRec) : (upCtx s k f).time = s.time := rfl
@[simp] theorem upCtx_flash (s : State) (k : Nat) (f : CtxRec → CtxRec) : (upCtx s k f).flash = s.flash := rfl
@[simp] theorem upCtx_sec (s : State) (k : Nat) (f : CtxRec → CtxRec) : (upCtx s k f).sec = s.sec := rfl
@[simp] theorem upCtx_bring (s : State) (k : Nat) (f : CtxRec → CtxRec) : (upCtx s k f).bring = s.bring := rfl
@[simp] theorem upCtx_dram (s : State) (k : Nat) (f : CtxRec → CtxRec) : (upCtx s k f).dram = s.dram := rfl
@[simp] theorem upCtx_loose (s : State) (k : Nat) (f : CtxRec → CtxRec) : (upCtx s k f).loose = s.loose := rfl
@[simp] theorem upCtx_imap (s : State) (k : Nat) (f : CtxRec → CtxRec) : (upCtx s k f).imap = s.imap := rfl
@[simp] theorem upCtx_mapRaw (s : State) (k : Nat) (f : CtxRec → CtxRec) : (upCtx s k f).mapRaw = s.mapRaw := rfl
@[simp] theorem upCtx_chans (s : State) (k : Nat) (f : CtxRec → CtxRec) : (upCtx s k f).chans = s.chans := rfl
@[simp] theorem upCtx_hedges (s : State) (k : Nat) (f : CtxRec → CtxRec) : (upCtx s k f).hedges = s.hedges := rfl
@[simp] theorem upCtx_cores (s : State) (k : Nat) (f : CtxRec → CtxRec) : (upCtx s k f).cores = s.cores := rfl
@[simp] theorem upCtx_scrubOn (s : State) (k : Nat) (f : CtxRec → CtxRec) : (upCtx s k f).scrubOn = s.scrubOn := rfl
@[simp] theorem upCtx_hrow (s : State) (k : Nat) (f : CtxRec → CtxRec) : (upCtx s k f).hrow = s.hrow := rfl
@[simp] theorem upCtx_arrived (s : State) (k : Nat) (f : CtxRec → CtxRec) : (upCtx s k f).arrived = s.arrived := rfl
@[simp] theorem upCtx_slots (s : State) (k : Nat) (f : CtxRec → CtxRec) : (upCtx s k f).slots = s.slots := rfl
@[simp] theorem upCtx_lookRec (s : State) (k : Nat) (f : CtxRec → CtxRec) : (upCtx s k f).lookRec = s.lookRec := rfl
@[simp] theorem upCtx_heldSwaps (s : State) (k : Nat) (f : CtxRec → CtxRec) : (upCtx s k f).heldSwaps = s.heldSwaps := rfl
@[simp] theorem upCtx_counters (s : State) (k : Nat) (f : CtxRec → CtxRec) : (upCtx s k f).counters = s.counters := rfl
@[simp] theorem upCtx_policy (s : State) (k : Nat) (f : CtxRec → CtxRec) : (upCtx s k f).policy = s.policy := rfl
@[simp] theorem upCtx_policyNext (s : State) (k : Nat) (f : CtxRec → CtxRec) : (upCtx s k f).policyNext = s.policyNext := rfl
@[simp] theorem upCtx_hotPosted (s : State) (k : Nat) (f : CtxRec → CtxRec) : (upCtx s k f).hotPosted = s.hotPosted := rfl
@[simp] theorem upCtx_migrates (s : State) (k : Nat) (f : CtxRec → CtxRec) : (upCtx s k f).migrates = s.migrates := rfl
@[simp] theorem upCtx_codebooks (s : State) (k : Nat) (f : CtxRec → CtxRec) : (upCtx s k f).codebooks = s.codebooks := rfl
@[simp] theorem upCtx_bags (s : State) (k : Nat) (f : CtxRec → CtxRec) : (upCtx s k f).bags = s.bags := rfl
@[simp] theorem upCtx_pieces (s : State) (k : Nat) (f : CtxRec → CtxRec) : (upCtx s k f).pieces = s.pieces := rfl
@[simp] theorem upCtx_lookups (s : State) (k : Nat) (f : CtxRec → CtxRec) : (upCtx s k f).lookups = s.lookups := rfl
@[simp] theorem upCtx_moverTurn (s : State) (k : Nat) (f : CtxRec → CtxRec) : (upCtx s k f).moverTurn = s.moverTurn := rfl
@[simp] theorem upCtx_nextBag (s : State) (k : Nat) (f : CtxRec → CtxRec) : (upCtx s k f).nextBag = s.nextBag := rfl
@[simp] theorem upCtx_nextPiece (s : State) (k : Nat) (f : CtxRec → CtxRec) : (upCtx s k f).nextPiece = s.nextPiece := rfl
@[simp] theorem upCtx_routines (s : State) (k : Nat) (f : CtxRec → CtxRec) : (upCtx s k f).routines = s.routines := rfl
@[simp] theorem upCtx_upd (s : State) (k : Nat) (f : CtxRec → CtxRec) : (upCtx s k f).upd = s.upd := rfl
@[simp] theorem upCtx_xl (s : State) (k : Nat) (f : CtxRec → CtxRec) : (upCtx s k f).xl = s.xl := rfl
@[simp] theorem upCtx_ig (s : State) (k : Nat) (f : CtxRec → CtxRec) : (upCtx s k f).ig = s.ig := rfl
@[simp] theorem upCtx_sqs (s : State) (k : Nat) (f : CtxRec → CtxRec) : (upCtx s k f).sqs = s.sqs := rfl
@[simp] theorem upCtx_cqs (s : State) (k : Nat) (f : CtxRec → CtxRec) : (upCtx s k f).cqs = s.cqs := rfl
@[simp] theorem upCtx_dbIgnored (s : State) (k : Nat) (f : CtxRec → CtxRec) : (upCtx s k f).dbIgnored = s.dbIgnored := rfl
@[simp] theorem upCtx_bursts (s : State) (k : Nat) (f : CtxRec → CtxRec) : (upCtx s k f).bursts = s.bursts := rfl
@[simp] theorem upCtx_nextBurst (s : State) (k : Nat) (f : CtxRec → CtxRec) : (upCtx s k f).nextBurst = s.nextBurst := rfl
@[simp] theorem upCtx_dbuf (s : State) (k : Nat) (f : CtxRec → CtxRec) : (upCtx s k f).dbuf = s.dbuf := rfl
@[simp] theorem upCtx_jobs (s : State) (k : Nat) (f : CtxRec → CtxRec) : (upCtx s k f).jobs = s.jobs := rfl
@[simp] theorem upCtx_sched (s : State) (k : Nat) (f : CtxRec → CtxRec) : (upCtx s k f).sched = s.sched := rfl
@[simp] theorem upCtx_resetRun (s : State) (k : Nat) (f : CtxRec → CtxRec) : (upCtx s k f).resetRun = s.resetRun := rfl
@[simp] theorem upCtx_mbox (s : State) (k : Nat) (f : CtxRec → CtxRec) : (upCtx s k f).mbox = s.mbox := rfl
@[simp] theorem upCtx_mbOrder (s : State) (k : Nat) (f : CtxRec → CtxRec) : (upCtx s k f).mbOrder = s.mbOrder := rfl
@[simp] theorem upCtx_nego (s : State) (k : Nat) (f : CtxRec → CtxRec) : (upCtx s k f).nego = s.nego := rfl
@[simp] theorem upCtx_adminWaits (s : State) (k : Nat) (f : CtxRec → CtxRec) : (upCtx s k f).adminWaits = s.adminWaits := rfl
@[simp] theorem upCtx_eq (s : State) (k : Nat) (f : CtxRec → CtxRec) : (upCtx s k f).eq = s.eq := rfl
@[simp] theorem upCtx_hq (s : State) (k : Nat) (f : CtxRec → CtxRec) : (upCtx s k f).hq = s.hq := rfl
@[simp] theorem upCtx_fq (s : State) (k : Nat) (f : CtxRec → CtxRec) : (upCtx s k f).fq = s.fq := rfl
@[simp] theorem upCtx_evSeq (s : State) (k : Nat) (f : CtxRec → CtxRec) : (upCtx s k f).evSeq = s.evSeq := rfl
@[simp] theorem upCtx_evHeld (s : State) (k : Nat) (f : CtxRec → CtxRec) : (upCtx s k f).evHeld = s.evHeld := rfl
@[simp] theorem upCtx_eqDropped (s : State) (k : Nat) (f : CtxRec → CtxRec) : (upCtx s k f).eqDropped = s.eqDropped := rfl
@[simp] theorem upCtx_mbIgnored (s : State) (k : Nat) (f : CtxRec → CtxRec) : (upCtx s k f).mbIgnored = s.mbIgnored := rfl
@[simp] theorem upCtx_modes (s : State) (k : Nat) (f : CtxRec → CtxRec) : (upCtx s k f).modes = s.modes := rfl
@[simp] theorem upCtx_model (s : State) (k : Nat) (f : CtxRec → CtxRec) : (upCtx s k f).model = s.model := rfl
@[simp] theorem upCtx_fwReserve (s : State) (k : Nat) (f : CtxRec → CtxRec) : (upCtx s k f).fwReserve = s.fwReserve := rfl
@[simp] theorem upCtx_link (s : State) (k : Nat) (f : CtxRec → CtxRec) : (upCtx s k f).link = s.link := rfl
@[simp] theorem upCtx_fab (s : State) (k : Nat) (f : CtxRec → CtxRec) : (upCtx s k f).fab = s.fab := rfl
@[simp] theorem upCtx_health (s : State) (k : Nat) (f : CtxRec → CtxRec) : (upCtx s k f).health = s.health := rfl

@[simp] theorem upJob_pending (s : State) (k : Nat) (f : Job → Job) : (upJob s k f).pending = s.pending := rfl
@[simp] theorem upJob_freeCtr (s : State) (k : Nat) (f : Job → Job) : (upJob s k f).freeCtr = s.freeCtr := rfl
@[simp] theorem upJob_out (s : State) (k : Nat) (f : Job → Job) : (upJob s k f).out = s.out := rfl
@[simp] theorem upJob_marks (s : State) (k : Nat) (f : Job → Job) : (upJob s k f).marks = s.marks := rfl
@[simp] theorem upJob_pwr (s : State) (k : Nat) (f : Job → Job) : (upJob s k f).pwr = s.pwr := rfl
@[simp] theorem upJob_time (s : State) (k : Nat) (f : Job → Job) : (upJob s k f).time = s.time := rfl
@[simp] theorem upJob_flash (s : State) (k : Nat) (f : Job → Job) : (upJob s k f).flash = s.flash := rfl
@[simp] theorem upJob_sec (s : State) (k : Nat) (f : Job → Job) : (upJob s k f).sec = s.sec := rfl
@[simp] theorem upJob_bring (s : State) (k : Nat) (f : Job → Job) : (upJob s k f).bring = s.bring := rfl
@[simp] theorem upJob_dram (s : State) (k : Nat) (f : Job → Job) : (upJob s k f).dram = s.dram := rfl
@[simp] theorem upJob_loose (s : State) (k : Nat) (f : Job → Job) : (upJob s k f).loose = s.loose := rfl
@[simp] theorem upJob_imap (s : State) (k : Nat) (f : Job → Job) : (upJob s k f).imap = s.imap := rfl
@[simp] theorem upJob_mapRaw (s : State) (k : Nat) (f : Job → Job) : (upJob s k f).mapRaw = s.mapRaw := rfl
@[simp] theorem upJob_chans (s : State) (k : Nat) (f : Job → Job) : (upJob s k f).chans = s.chans := rfl
@[simp] theorem upJob_hedges (s : State) (k : Nat) (f : Job → Job) : (upJob s k f).hedges = s.hedges := rfl
@[simp] theorem upJob_cores (s : State) (k : Nat) (f : Job → Job) : (upJob s k f).cores = s.cores := rfl
@[simp] theorem upJob_scrubOn (s : State) (k : Nat) (f : Job → Job) : (upJob s k f).scrubOn = s.scrubOn := rfl
@[simp] theorem upJob_hrow (s : State) (k : Nat) (f : Job → Job) : (upJob s k f).hrow = s.hrow := rfl
@[simp] theorem upJob_arrived (s : State) (k : Nat) (f : Job → Job) : (upJob s k f).arrived = s.arrived := rfl
@[simp] theorem upJob_slots (s : State) (k : Nat) (f : Job → Job) : (upJob s k f).slots = s.slots := rfl
@[simp] theorem upJob_lookRec (s : State) (k : Nat) (f : Job → Job) : (upJob s k f).lookRec = s.lookRec := rfl
@[simp] theorem upJob_heldSwaps (s : State) (k : Nat) (f : Job → Job) : (upJob s k f).heldSwaps = s.heldSwaps := rfl
@[simp] theorem upJob_counters (s : State) (k : Nat) (f : Job → Job) : (upJob s k f).counters = s.counters := rfl
@[simp] theorem upJob_policy (s : State) (k : Nat) (f : Job → Job) : (upJob s k f).policy = s.policy := rfl
@[simp] theorem upJob_policyNext (s : State) (k : Nat) (f : Job → Job) : (upJob s k f).policyNext = s.policyNext := rfl
@[simp] theorem upJob_hotPosted (s : State) (k : Nat) (f : Job → Job) : (upJob s k f).hotPosted = s.hotPosted := rfl
@[simp] theorem upJob_migrates (s : State) (k : Nat) (f : Job → Job) : (upJob s k f).migrates = s.migrates := rfl
@[simp] theorem upJob_codebooks (s : State) (k : Nat) (f : Job → Job) : (upJob s k f).codebooks = s.codebooks := rfl
@[simp] theorem upJob_bags (s : State) (k : Nat) (f : Job → Job) : (upJob s k f).bags = s.bags := rfl
@[simp] theorem upJob_pieces (s : State) (k : Nat) (f : Job → Job) : (upJob s k f).pieces = s.pieces := rfl
@[simp] theorem upJob_lookups (s : State) (k : Nat) (f : Job → Job) : (upJob s k f).lookups = s.lookups := rfl
@[simp] theorem upJob_moverTurn (s : State) (k : Nat) (f : Job → Job) : (upJob s k f).moverTurn = s.moverTurn := rfl
@[simp] theorem upJob_nextBag (s : State) (k : Nat) (f : Job → Job) : (upJob s k f).nextBag = s.nextBag := rfl
@[simp] theorem upJob_nextPiece (s : State) (k : Nat) (f : Job → Job) : (upJob s k f).nextPiece = s.nextPiece := rfl
@[simp] theorem upJob_routines (s : State) (k : Nat) (f : Job → Job) : (upJob s k f).routines = s.routines := rfl
@[simp] theorem upJob_upd (s : State) (k : Nat) (f : Job → Job) : (upJob s k f).upd = s.upd := rfl
@[simp] theorem upJob_xl (s : State) (k : Nat) (f : Job → Job) : (upJob s k f).xl = s.xl := rfl
@[simp] theorem upJob_ig (s : State) (k : Nat) (f : Job → Job) : (upJob s k f).ig = s.ig := rfl
@[simp] theorem upJob_sqs (s : State) (k : Nat) (f : Job → Job) : (upJob s k f).sqs = s.sqs := rfl
@[simp] theorem upJob_cqs (s : State) (k : Nat) (f : Job → Job) : (upJob s k f).cqs = s.cqs := rfl
@[simp] theorem upJob_dbIgnored (s : State) (k : Nat) (f : Job → Job) : (upJob s k f).dbIgnored = s.dbIgnored := rfl
@[simp] theorem upJob_bursts (s : State) (k : Nat) (f : Job → Job) : (upJob s k f).bursts = s.bursts := rfl
@[simp] theorem upJob_nextBurst (s : State) (k : Nat) (f : Job → Job) : (upJob s k f).nextBurst = s.nextBurst := rfl
@[simp] theorem upJob_dbuf (s : State) (k : Nat) (f : Job → Job) : (upJob s k f).dbuf = s.dbuf := rfl
@[simp] theorem upJob_sched (s : State) (k : Nat) (f : Job → Job) : (upJob s k f).sched = s.sched := rfl
@[simp] theorem upJob_ctxRec (s : State) (k : Nat) (f : Job → Job) : (upJob s k f).ctxRec = s.ctxRec := rfl
@[simp] theorem upJob_resetRun (s : State) (k : Nat) (f : Job → Job) : (upJob s k f).resetRun = s.resetRun := rfl
@[simp] theorem upJob_mbox (s : State) (k : Nat) (f : Job → Job) : (upJob s k f).mbox = s.mbox := rfl
@[simp] theorem upJob_mbOrder (s : State) (k : Nat) (f : Job → Job) : (upJob s k f).mbOrder = s.mbOrder := rfl
@[simp] theorem upJob_nego (s : State) (k : Nat) (f : Job → Job) : (upJob s k f).nego = s.nego := rfl
@[simp] theorem upJob_adminWaits (s : State) (k : Nat) (f : Job → Job) : (upJob s k f).adminWaits = s.adminWaits := rfl
@[simp] theorem upJob_eq (s : State) (k : Nat) (f : Job → Job) : (upJob s k f).eq = s.eq := rfl
@[simp] theorem upJob_hq (s : State) (k : Nat) (f : Job → Job) : (upJob s k f).hq = s.hq := rfl
@[simp] theorem upJob_fq (s : State) (k : Nat) (f : Job → Job) : (upJob s k f).fq = s.fq := rfl
@[simp] theorem upJob_evSeq (s : State) (k : Nat) (f : Job → Job) : (upJob s k f).evSeq = s.evSeq := rfl
@[simp] theorem upJob_evHeld (s : State) (k : Nat) (f : Job → Job) : (upJob s k f).evHeld = s.evHeld := rfl
@[simp] theorem upJob_eqDropped (s : State) (k : Nat) (f : Job → Job) : (upJob s k f).eqDropped = s.eqDropped := rfl
@[simp] theorem upJob_mbIgnored (s : State) (k : Nat) (f : Job → Job) : (upJob s k f).mbIgnored = s.mbIgnored := rfl
@[simp] theorem upJob_modes (s : State) (k : Nat) (f : Job → Job) : (upJob s k f).modes = s.modes := rfl
@[simp] theorem upJob_model (s : State) (k : Nat) (f : Job → Job) : (upJob s k f).model = s.model := rfl
@[simp] theorem upJob_fwReserve (s : State) (k : Nat) (f : Job → Job) : (upJob s k f).fwReserve = s.fwReserve := rfl
@[simp] theorem upJob_link (s : State) (k : Nat) (f : Job → Job) : (upJob s k f).link = s.link := rfl
@[simp] theorem upJob_fab (s : State) (k : Nat) (f : Job → Job) : (upJob s k f).fab = s.fab := rfl
@[simp] theorem upJob_health (s : State) (k : Nat) (f : Job → Job) : (upJob s k f).health = s.health := rfl

@[simp] theorem emit_pending (s : State) (o : Output) : (emit s o).pending = s.pending := rfl
@[simp] theorem emit_freeCtr (s : State) (o : Output) : (emit s o).freeCtr = s.freeCtr := rfl
@[simp] theorem emit_marks (s : State) (o : Output) : (emit s o).marks = s.marks := rfl
@[simp] theorem emit_pwr (s : State) (o : Output) : (emit s o).pwr = s.pwr := rfl
@[simp] theorem emit_time (s : State) (o : Output) : (emit s o).time = s.time := rfl
@[simp] theorem emit_flash (s : State) (o : Output) : (emit s o).flash = s.flash := rfl
@[simp] theorem emit_sec (s : State) (o : Output) : (emit s o).sec = s.sec := rfl
@[simp] theorem emit_bring (s : State) (o : Output) : (emit s o).bring = s.bring := rfl
@[simp] theorem emit_dram (s : State) (o : Output) : (emit s o).dram = s.dram := rfl
@[simp] theorem emit_loose (s : State) (o : Output) : (emit s o).loose = s.loose := rfl
@[simp] theorem emit_imap (s : State) (o : Output) : (emit s o).imap = s.imap := rfl
@[simp] theorem emit_mapRaw (s : State) (o : Output) : (emit s o).mapRaw = s.mapRaw := rfl
@[simp] theorem emit_chans (s : State) (o : Output) : (emit s o).chans = s.chans := rfl
@[simp] theorem emit_hedges (s : State) (o : Output) : (emit s o).hedges = s.hedges := rfl
@[simp] theorem emit_cores (s : State) (o : Output) : (emit s o).cores = s.cores := rfl
@[simp] theorem emit_scrubOn (s : State) (o : Output) : (emit s o).scrubOn = s.scrubOn := rfl
@[simp] theorem emit_hrow (s : State) (o : Output) : (emit s o).hrow = s.hrow := rfl
@[simp] theorem emit_arrived (s : State) (o : Output) : (emit s o).arrived = s.arrived := rfl
@[simp] theorem emit_slots (s : State) (o : Output) : (emit s o).slots = s.slots := rfl
@[simp] theorem emit_lookRec (s : State) (o : Output) : (emit s o).lookRec = s.lookRec := rfl
@[simp] theorem emit_heldSwaps (s : State) (o : Output) : (emit s o).heldSwaps = s.heldSwaps := rfl
@[simp] theorem emit_counters (s : State) (o : Output) : (emit s o).counters = s.counters := rfl
@[simp] theorem emit_policy (s : State) (o : Output) : (emit s o).policy = s.policy := rfl
@[simp] theorem emit_policyNext (s : State) (o : Output) : (emit s o).policyNext = s.policyNext := rfl
@[simp] theorem emit_hotPosted (s : State) (o : Output) : (emit s o).hotPosted = s.hotPosted := rfl
@[simp] theorem emit_migrates (s : State) (o : Output) : (emit s o).migrates = s.migrates := rfl
@[simp] theorem emit_codebooks (s : State) (o : Output) : (emit s o).codebooks = s.codebooks := rfl
@[simp] theorem emit_bags (s : State) (o : Output) : (emit s o).bags = s.bags := rfl
@[simp] theorem emit_pieces (s : State) (o : Output) : (emit s o).pieces = s.pieces := rfl
@[simp] theorem emit_lookups (s : State) (o : Output) : (emit s o).lookups = s.lookups := rfl
@[simp] theorem emit_moverTurn (s : State) (o : Output) : (emit s o).moverTurn = s.moverTurn := rfl
@[simp] theorem emit_nextBag (s : State) (o : Output) : (emit s o).nextBag = s.nextBag := rfl
@[simp] theorem emit_nextPiece (s : State) (o : Output) : (emit s o).nextPiece = s.nextPiece := rfl
@[simp] theorem emit_routines (s : State) (o : Output) : (emit s o).routines = s.routines := rfl
@[simp] theorem emit_upd (s : State) (o : Output) : (emit s o).upd = s.upd := rfl
@[simp] theorem emit_xl (s : State) (o : Output) : (emit s o).xl = s.xl := rfl
@[simp] theorem emit_ig (s : State) (o : Output) : (emit s o).ig = s.ig := rfl
@[simp] theorem emit_sqs (s : State) (o : Output) : (emit s o).sqs = s.sqs := rfl
@[simp] theorem emit_cqs (s : State) (o : Output) : (emit s o).cqs = s.cqs := rfl
@[simp] theorem emit_dbIgnored (s : State) (o : Output) : (emit s o).dbIgnored = s.dbIgnored := rfl
@[simp] theorem emit_bursts (s : State) (o : Output) : (emit s o).bursts = s.bursts := rfl
@[simp] theorem emit_nextBurst (s : State) (o : Output) : (emit s o).nextBurst = s.nextBurst := rfl
@[simp] theorem emit_dbuf (s : State) (o : Output) : (emit s o).dbuf = s.dbuf := rfl
@[simp] theorem emit_jobs (s : State) (o : Output) : (emit s o).jobs = s.jobs := rfl
@[simp] theorem emit_sched (s : State) (o : Output) : (emit s o).sched = s.sched := rfl
@[simp] theorem emit_ctxRec (s : State) (o : Output) : (emit s o).ctxRec = s.ctxRec := rfl
@[simp] theorem emit_resetRun (s : State) (o : Output) : (emit s o).resetRun = s.resetRun := rfl
@[simp] theorem emit_mbox (s : State) (o : Output) : (emit s o).mbox = s.mbox := rfl
@[simp] theorem emit_mbOrder (s : State) (o : Output) : (emit s o).mbOrder = s.mbOrder := rfl
@[simp] theorem emit_nego (s : State) (o : Output) : (emit s o).nego = s.nego := rfl
@[simp] theorem emit_adminWaits (s : State) (o : Output) : (emit s o).adminWaits = s.adminWaits := rfl
@[simp] theorem emit_eq (s : State) (o : Output) : (emit s o).eq = s.eq := rfl
@[simp] theorem emit_hq (s : State) (o : Output) : (emit s o).hq = s.hq := rfl
@[simp] theorem emit_fq (s : State) (o : Output) : (emit s o).fq = s.fq := rfl
@[simp] theorem emit_evSeq (s : State) (o : Output) : (emit s o).evSeq = s.evSeq := rfl
@[simp] theorem emit_evHeld (s : State) (o : Output) : (emit s o).evHeld = s.evHeld := rfl
@[simp] theorem emit_eqDropped (s : State) (o : Output) : (emit s o).eqDropped = s.eqDropped := rfl
@[simp] theorem emit_mbIgnored (s : State) (o : Output) : (emit s o).mbIgnored = s.mbIgnored := rfl
@[simp] theorem emit_modes (s : State) (o : Output) : (emit s o).modes = s.modes := rfl
@[simp] theorem emit_model (s : State) (o : Output) : (emit s o).model = s.model := rfl
@[simp] theorem emit_fwReserve (s : State) (o : Output) : (emit s o).fwReserve = s.fwReserve := rfl
@[simp] theorem emit_link (s : State) (o : Output) : (emit s o).link = s.link := rfl
@[simp] theorem emit_fab (s : State) (o : Output) : (emit s o).fab = s.fab := rfl
@[simp] theorem emit_health (s : State) (o : Output) : (emit s o).health = s.health := rfl

@[simp] theorem mark_pending (s : State) (k p : Nat) : (mark s k p).pending = s.pending := rfl
@[simp] theorem mark_freeCtr (s : State) (k p : Nat) : (mark s k p).freeCtr = s.freeCtr := rfl
@[simp] theorem mark_out (s : State) (k p : Nat) : (mark s k p).out = s.out := rfl
@[simp] theorem mark_pwr (s : State) (k p : Nat) : (mark s k p).pwr = s.pwr := rfl
@[simp] theorem mark_time (s : State) (k p : Nat) : (mark s k p).time = s.time := rfl
@[simp] theorem mark_flash (s : State) (k p : Nat) : (mark s k p).flash = s.flash := rfl
@[simp] theorem mark_sec (s : State) (k p : Nat) : (mark s k p).sec = s.sec := rfl
@[simp] theorem mark_bring (s : State) (k p : Nat) : (mark s k p).bring = s.bring := rfl
@[simp] theorem mark_dram (s : State) (k p : Nat) : (mark s k p).dram = s.dram := rfl
@[simp] theorem mark_loose (s : State) (k p : Nat) : (mark s k p).loose = s.loose := rfl
@[simp] theorem mark_imap (s : State) (k p : Nat) : (mark s k p).imap = s.imap := rfl
@[simp] theorem mark_mapRaw (s : State) (k p : Nat) : (mark s k p).mapRaw = s.mapRaw := rfl
@[simp] theorem mark_chans (s : State) (k p : Nat) : (mark s k p).chans = s.chans := rfl
@[simp] theorem mark_hedges (s : State) (k p : Nat) : (mark s k p).hedges = s.hedges := rfl
@[simp] theorem mark_cores (s : State) (k p : Nat) : (mark s k p).cores = s.cores := rfl
@[simp] theorem mark_scrubOn (s : State) (k p : Nat) : (mark s k p).scrubOn = s.scrubOn := rfl
@[simp] theorem mark_hrow (s : State) (k p : Nat) : (mark s k p).hrow = s.hrow := rfl
@[simp] theorem mark_arrived (s : State) (k p : Nat) : (mark s k p).arrived = s.arrived := rfl
@[simp] theorem mark_slots (s : State) (k p : Nat) : (mark s k p).slots = s.slots := rfl
@[simp] theorem mark_lookRec (s : State) (k p : Nat) : (mark s k p).lookRec = s.lookRec := rfl
@[simp] theorem mark_heldSwaps (s : State) (k p : Nat) : (mark s k p).heldSwaps = s.heldSwaps := rfl
@[simp] theorem mark_counters (s : State) (k p : Nat) : (mark s k p).counters = s.counters := rfl
@[simp] theorem mark_policy (s : State) (k p : Nat) : (mark s k p).policy = s.policy := rfl
@[simp] theorem mark_policyNext (s : State) (k p : Nat) : (mark s k p).policyNext = s.policyNext := rfl
@[simp] theorem mark_hotPosted (s : State) (k p : Nat) : (mark s k p).hotPosted = s.hotPosted := rfl
@[simp] theorem mark_migrates (s : State) (k p : Nat) : (mark s k p).migrates = s.migrates := rfl
@[simp] theorem mark_codebooks (s : State) (k p : Nat) : (mark s k p).codebooks = s.codebooks := rfl
@[simp] theorem mark_bags (s : State) (k p : Nat) : (mark s k p).bags = s.bags := rfl
@[simp] theorem mark_pieces (s : State) (k p : Nat) : (mark s k p).pieces = s.pieces := rfl
@[simp] theorem mark_lookups (s : State) (k p : Nat) : (mark s k p).lookups = s.lookups := rfl
@[simp] theorem mark_moverTurn (s : State) (k p : Nat) : (mark s k p).moverTurn = s.moverTurn := rfl
@[simp] theorem mark_nextBag (s : State) (k p : Nat) : (mark s k p).nextBag = s.nextBag := rfl
@[simp] theorem mark_nextPiece (s : State) (k p : Nat) : (mark s k p).nextPiece = s.nextPiece := rfl
@[simp] theorem mark_routines (s : State) (k p : Nat) : (mark s k p).routines = s.routines := rfl
@[simp] theorem mark_upd (s : State) (k p : Nat) : (mark s k p).upd = s.upd := rfl
@[simp] theorem mark_xl (s : State) (k p : Nat) : (mark s k p).xl = s.xl := rfl
@[simp] theorem mark_ig (s : State) (k p : Nat) : (mark s k p).ig = s.ig := rfl
@[simp] theorem mark_sqs (s : State) (k p : Nat) : (mark s k p).sqs = s.sqs := rfl
@[simp] theorem mark_cqs (s : State) (k p : Nat) : (mark s k p).cqs = s.cqs := rfl
@[simp] theorem mark_dbIgnored (s : State) (k p : Nat) : (mark s k p).dbIgnored = s.dbIgnored := rfl
@[simp] theorem mark_bursts (s : State) (k p : Nat) : (mark s k p).bursts = s.bursts := rfl
@[simp] theorem mark_nextBurst (s : State) (k p : Nat) : (mark s k p).nextBurst = s.nextBurst := rfl
@[simp] theorem mark_dbuf (s : State) (k p : Nat) : (mark s k p).dbuf = s.dbuf := rfl
@[simp] theorem mark_jobs (s : State) (k p : Nat) : (mark s k p).jobs = s.jobs := rfl
@[simp] theorem mark_sched (s : State) (k p : Nat) : (mark s k p).sched = s.sched := rfl
@[simp] theorem mark_ctxRec (s : State) (k p : Nat) : (mark s k p).ctxRec = s.ctxRec := rfl
@[simp] theorem mark_resetRun (s : State) (k p : Nat) : (mark s k p).resetRun = s.resetRun := rfl
@[simp] theorem mark_mbox (s : State) (k p : Nat) : (mark s k p).mbox = s.mbox := rfl
@[simp] theorem mark_mbOrder (s : State) (k p : Nat) : (mark s k p).mbOrder = s.mbOrder := rfl
@[simp] theorem mark_nego (s : State) (k p : Nat) : (mark s k p).nego = s.nego := rfl
@[simp] theorem mark_adminWaits (s : State) (k p : Nat) : (mark s k p).adminWaits = s.adminWaits := rfl
@[simp] theorem mark_eq (s : State) (k p : Nat) : (mark s k p).eq = s.eq := rfl
@[simp] theorem mark_hq (s : State) (k p : Nat) : (mark s k p).hq = s.hq := rfl
@[simp] theorem mark_fq (s : State) (k p : Nat) : (mark s k p).fq = s.fq := rfl
@[simp] theorem mark_evSeq (s : State) (k p : Nat) : (mark s k p).evSeq = s.evSeq := rfl
@[simp] theorem mark_evHeld (s : State) (k p : Nat) : (mark s k p).evHeld = s.evHeld := rfl
@[simp] theorem mark_eqDropped (s : State) (k p : Nat) : (mark s k p).eqDropped = s.eqDropped := rfl
@[simp] theorem mark_mbIgnored (s : State) (k p : Nat) : (mark s k p).mbIgnored = s.mbIgnored := rfl
@[simp] theorem mark_modes (s : State) (k p : Nat) : (mark s k p).modes = s.modes := rfl
@[simp] theorem mark_model (s : State) (k p : Nat) : (mark s k p).model = s.model := rfl
@[simp] theorem mark_fwReserve (s : State) (k p : Nat) : (mark s k p).fwReserve = s.fwReserve := rfl
@[simp] theorem mark_link (s : State) (k p : Nat) : (mark s k p).link = s.link := rfl
@[simp] theorem mark_fab (s : State) (k p : Nat) : (mark s k p).fab = s.fab := rfl
@[simp] theorem mark_health (s : State) (k p : Nat) : (mark s k p).health = s.health := rfl

end Sys2Proof.Machine
end

