-- ==== Sys2Proof/Laws/Ops.lean ====
section
/-!
SUPPORT. What the shared operations can do, said once for each: what a part of the state reads as after a change, and which
fields an operation may change at all.
-/
namespace Sys2Proof.Machine

/-! ### Parts of the state -/

@[simp] theorem upHedge_hedge (s : State) (h k : Nat) (f : Hedge → Hedge) :
    (upHedge s h f).hedge k = if k = h then f (s.hedge h) else s.hedge k := Tbl.get_upd ..

@[simp] theorem upCore_core (s : State) (c k : Nat) (f : Core → Core) :
    (upCore s c f).core k = if k = c then f (s.core c) else s.core k := Tbl.get_upd ..

@[simp] theorem upChan_chan (s : State) (c k : Nat) (f : Chan → Chan) :
    (upChan s c f).chan k = if k = c then f (s.chan c) else s.chan k := Tbl.get_upd ..

@[simp] theorem upSlot_slot (s : State) (c k : Nat) (f : VSlot → VSlot) :
    (upSlot s c f).slot k = if k = c then f (s.slot c) else s.slot k := Tbl.get_upd ..

@[simp] theorem upMail_mail (s : State) (c k : Nat) (f : Mbox → Mbox) :
    (upMail s c f).mail k = if k = c then f (s.mail c) else s.mail k := Tbl.get_upd ..

@[simp] theorem upPort_port (s : State) (p k : Nat) (f : Port → Port) :
    (upPort s p f).port k = if k = p then f (s.port p) else s.port k := Tbl.get_upd ..

@[simp] theorem upIg_ig (s : State) (f : Integrity → Integrity) : (upIg s f).ig = f s.ig := rfl

@[simp] theorem upHedge_core (s : State) (h k : Nat) (f : Hedge → Hedge) : (upHedge s h f).core k = s.core k := rfl
@[simp] theorem upHedge_chan (s : State) (h k : Nat) (f : Hedge → Hedge) : (upHedge s h f).chan k = s.chan k := rfl
@[simp] theorem upHedge_slot (s : State) (h k : Nat) (f : Hedge → Hedge) : (upHedge s h f).slot k = s.slot k := rfl
@[simp] theorem upCore_hedge (s : State) (h k : Nat) (f : Core → Core) : (upCore s h f).hedge k = s.hedge k := rfl
@[simp] theorem upCore_chan (s : State) (h k : Nat) (f : Core → Core) : (upCore s h f).chan k = s.chan k := rfl
@[simp] theorem upCore_slot (s : State) (h k : Nat) (f : Core → Core) : (upCore s h f).slot k = s.slot k := rfl
@[simp] theorem upChan_hedge (s : State) (h k : Nat) (f : Chan → Chan) : (upChan s h f).hedge k = s.hedge k := rfl
@[simp] theorem upChan_core (s : State) (h k : Nat) (f : Chan → Chan) : (upChan s h f).core k = s.core k := rfl
@[simp] theorem upChan_slot (s : State) (h k : Nat) (f : Chan → Chan) : (upChan s h f).slot k = s.slot k := rfl
@[simp] theorem upSlot_hedge (s : State) (h k : Nat) (f : VSlot → VSlot) : (upSlot s h f).hedge k = s.hedge k := rfl
@[simp] theorem upSlot_core (s : State) (h k : Nat) (f : VSlot → VSlot) : (upSlot s h f).core k = s.core k := rfl
@[simp] theorem upSlot_chan (s : State) (h k : Nat) (f : VSlot → VSlot) : (upSlot s h f).chan k = s.chan k := rfl

/-! ### Loops -/

theorem forN_zero (f : Nat → State → State) (s : State) : forN 0 f s = s := rfl

theorem forN_succ (n : Nat) (f : Nat → State → State) (s : State) : forN (n + 1) f s = f n (forN n f s) := by
  simp [forN, List.range_succ]

theorem forL_nil {α : Type} (f : α → State → State) (s : State) : forL [] f s = s := rfl

theorem forL_cons {α : Type} (x : α) (l : List α) (f : α → State → State) (s : State) :
    forL (x :: l) f s = forL l f (f x s) := rfl

/-- A relation that every pass keeps holds after the loop. -/
theorem forN_induct {P : State → Prop} {n : Nat} {f : Nat → State → State} {s : State} (h0 : P s)
    (h : ∀ i t, i < n → P t → P (f i t)) : P (forN n f s) := by
  induction n with
  | zero => exact h0
  | succ n ih =>
    rw [forN_succ]
    exact h n _ (Nat.lt_succ_self n) (ih fun i t hi => h i t (Nat.lt_succ_of_lt hi))

theorem forL_induct {α : Type} {P : State → Prop} {f : α → State → State} {l : List α} (h : ∀ x t, P t → P (f x t)) :
    ∀ {s : State}, P s → P (forL l f s) := by
  induction l with
  | nil => intro s h0; exact h0
  | cons x l ih => intro s h0; exact ih (h x s h0)

/-- A loop that changes each hedge once. -/
theorem forN_upHedge (n : Nat) (f : Nat → Hedge → Hedge) (s : State) :
    ∃ hs, forN n (fun h s => upHedge s h (f h)) s = { s with hedges := hs } ∧
      ∀ k, Tbl.get {} hs k = if k < n then f k (s.hedge k) else s.hedge k := by
  induction n with
  | zero => exact ⟨s.hedges, rfl, fun k => by simp [State.hedge]⟩
  | succ n ih =>
    obtain ⟨hs, h1, h2⟩ := ih
    rw [forN_succ, h1]
    refine ⟨_, rfl, fun k => ?_⟩
    rw [Tbl.get_upd]
    simp only [h2]
    by_cases hk : k = n
    · subst hk
      simp
    · have : k < n + 1 ↔ k < n := by omega
      simp [hk, this]

/-! ### Jobs -/

/-- The first job of an id after a change of the first job of an id. -/
theorem upJob_job (s : State) (id k : Nat) (f : Job → Job) (hf : ∀ j, (f j).id = j.id) :
    (upJob s id f).job k = if k = id then (s.job id).map f else s.job k := by
  unfold upJob State.job
  simp only
  induction s.jobs with
  | nil => simp [updFirst]
  | cons j l ih =>
    simp only [updFirst, List.find?_cons]
    by_cases h : j.id = id
    · by_cases hk : k = id
      · subst hk
        simp [h, hf]
      · have hb : (id == k) = false := by simpa using fun e => hk e.symm
        simp [h, hf, hk, hb]
    · simp only [beq_iff_eq, h, if_false, List.find?_cons]
      by_cases hk : k = id
      · subst hk
        have hb : (j.id == k) = false := by simpa using h
        simp only [hb, if_true] at ih ⊢
        exact ih
      · simp only [hk, if_false] at ih ⊢
        split
        · rfl
        · exact ih

/-- The job of an id after a job ends: a live job of that id has the status and the index; every other is as it was. -/
theorem endJob_job (s : State) (id k : Nat) (st : Status) (idx : BitVec 16) :
    (endJob s id st idx).job k =
      if k = id ∧ s.lives id = true then
        (s.job id).map (fun j => { j with status := some st, failIdx := idx, endSeq := s.sched.ends + 1 })
      else s.job k := by
  unfold endJob
  split
  · rename_i h
    have e := upJob_job { s with sched := { s.sched with ends := s.sched.ends + 1 } } id k
      (fun j => { j with status := some st, failIdx := idx, endSeq := s.sched.ends + 1 }) (fun _ => rfl)
    have e' : (endJob s id st idx).job k = (upJob { s with sched := { s.sched with ends := s.sched.ends + 1 } } id
      (fun j => { j with status := some st, failIdx := idx, endSeq := s.sched.ends + 1 })).job k := by
      unfold endJob
      rw [if_pos h]
      rfl
    unfold endJob at e'
    rw [if_pos h] at e'
    rw [e', e]
    simp [h]
    rfl
  · rename_i h
    simp [h]

/-- Which jobs live after one ends. -/
theorem endJob_lives (s : State) (id k : Nat) (st : Status) (idx : BitVec 16) :
    (endJob s id st idx).lives k = (s.lives k && decide (k ≠ id)) := by
  unfold State.lives
  rw [endJob_job]
  by_cases hk : k = id
  · subst hk
    by_cases hl : s.lives k = true
    · simp only [hl, and_self, if_true]
      cases s.job k <;> simp
    · have hl' : s.lives k = false := by simpa using hl
      simp only [hl', Bool.false_eq_true, and_false, if_false, ne_eq, not_true_eq_false, decide_false, Bool.and_false]
      exact hl'
  · simp [hk]

theorem endJobs_lives (st : Status) (idx : BitVec 16) (ids : List Nat) : ∀ (s : State) (k : Nat),
    (forL ids (fun id s => endJob s id st idx) s).lives k = (s.lives k && decide (k ∉ ids)) := by
  induction ids with
  | nil => intro s k; simp [forL_nil]
  | cons x l ih =>
    intro s k
    rw [forL_cons, ih, endJob_lives]
    by_cases h : k = x <;> simp [h]

/-- No job lives after every job has ended. -/
theorem endAll_lives (s : State) (st : Status) (k : Nat) : (endAll s st).lives k = false := by
  unfold endAll
  rw [endJobs_lives]
  by_cases h : s.lives k = true
  · have : k ∈ s.jobs.map (·.id) := by
      unfold State.lives State.job at h
      split at h
      · simp at h
      · rename_i j hj
        have h1 := List.mem_of_find?_eq_some hj
        have h2 := List.find?_some hj
        exact List.mem_map.mpr ⟨j, h1, by simpa using h2⟩
    simp [this]
  · simp [h]

end Sys2Proof.Machine
end

