-- ==== Sys2Proof/Laws/Frames.lean ====
section
/-!
SUPPORT. What the shared operations may change at all: events leave `State.still` as it was, the ends of jobs leave
`State.base`.  A field of the view follows by `congrArg`.
-/
namespace Sys2Proof.Machine

/-- What leaves the still part leaves the base part. -/
theorem base_of_still {s t : State} (h : t.still = s.still) : t.base = s.base := by
  unfold State.base
  rw [h]

@[simp] theorem emit_still (s : State) (o : Output) : (emit s o).still = s.still := rfl

@[simp] theorem sendAs_still (s : State) (f : Nat) (o : Output) : (sendAs s f o).still = s.still := by
  unfold sendAs
  split <;> rfl

@[simp] theorem dmaSend_still (s : State) (f a : Nat) (r e : Bool) (l : List Byte) :
    (dmaSend s f a r e l).still = s.still := by
  unfold dmaSend
  generalize tlps s.maxPayload a l = t
  induction t generalizing s with
  | nil => rfl
  | cons x t ih => exact (ih _).trans (sendAs_still ..)

@[simp] theorem dmaBytes_still (s : State) (f a : Nat) (r : Bool) (l : List Byte) :
    (dmaBytes s f a r l).still = s.still := dmaSend_still ..

@[simp] theorem dmaWords_still (s : State) (f : Nat) (r : Bool) (a : Nat) (l : List PWord) :
    (dmaWords s f r a l).still = s.still := by
  unfold dmaWords
  generalize poisonRuns l = t
  induction t generalizing s a with
  | nil => rfl
  | cons p l ih => simp only [dmaRuns, ih, dmaSend_still]

@[simp] theorem msix_still (s : State) (f v : Nat) : (msix s f v).still = s.still := by
  unfold msix
  split
  · rfl
  · split
    · rfl
    · exact sendAs_still ..

@[simp] theorem postEvent_still (s : State) : (postEvent s).still = s.still := by
  unfold postEvent
  split
  · split
    · refine (msix_still ..).trans ?_
      show (dmaBytes s 0 _ false _).still = s.still
      simp
    · rfl
  · rfl

@[simp] theorem raiseEvent_still (s : State) (code : BitVec 16) (cid : BitVec 12) (w3 w4 w5 : Word) :
    (raiseEvent s code cid w3 w4 w5).still = s.still := by
  have key : ∀ u : State, u.still = s.still → ∀ (e : Event),
      (if u.evHeld.length < 256 then { u with evHeld := u.evHeld ++ [e] }
        else { u with eqDropped := u.eqDropped + 1 } : State).still = s.still := by
    intro u hu e
    split <;> exact hu
  unfold raiseEvent
  simp only
  cases s.eq with
  | none => rfl
  | some q =>
    apply key
    split
    · rfl
    · exact postEvent_still _

/-- Every event takes the next sequence number (R502). -/
@[simp] theorem postEvent_evSeq (s : State) : (postEvent s).evSeq = s.evSeq := by
  have hs : ∀ (t : State) f o, (sendAs t f o).evSeq = t.evSeq := by
    intro t f o
    unfold sendAs
    split <;> rfl
  have hd : ∀ (t : State) f a r l, (dmaBytes t f a r l).evSeq = t.evSeq := by
    intro t f a r l
    unfold dmaBytes dmaSend
    generalize tlps t.maxPayload a l = x
    induction x generalizing t with
    | nil => rfl
    | cons y x ih => exact (ih _).trans (hs ..)
  have hm : ∀ (t : State) f v, (msix t f v).evSeq = t.evSeq := by
    intro t f v
    unfold msix
    split
    · rfl
    · split
      · rfl
      · exact hs ..
  unfold postEvent
  split
  · split
    · exact (hm ..).trans (hd ..)
    · rfl
  · rfl

@[simp] theorem raiseEvent_evSeq (s : State) (code : BitVec 16) (cid : BitVec 12) (w3 w4 w5 : Word) :
    (raiseEvent s code cid w3 w4 w5).evSeq = s.evSeq + 1 := by
  have key : ∀ (u : State) (e : Event),
      (if u.evHeld.length < 256 then { u with evHeld := u.evHeld ++ [e] }
        else { u with eqDropped := u.eqDropped + 1 } : State).evSeq = u.evSeq := by
    intro u e
    split <;> rfl
  unfold raiseEvent
  simp only
  cases s.eq with
  | none => rfl
  | some q =>
    refine (key _ _).trans ?_
    split
    · rfl
    · exact postEvent_evSeq _

@[simp] theorem uePoison_still (s : State) (u c ch : Nat) (w4 : Word) : (uePoison s u c ch w4).still = s.still :=
  raiseEvent_still ..

@[simp] theorem tidyCores_base (s : State) : (tidyCores s).base = s.base := rfl

@[simp] theorem abandonCloses_base (s : State) (id : Nat) : (abandonCloses s id).base = s.base := rfl

@[simp] theorem stopUnits_base (s : State) (id : Nat) : (stopUnits s id).base = s.base := by
  have h : ∀ l : List DEntry, (l.filter (fun e => e.kept.all (fun k => k.1 != id))).filter (fun e => e.kept.isNone) =
      l.filter (fun e => e.kept.isNone) := by
    intro l
    rw [List.filter_filter]
    exact List.filter_congr fun e _ => by cases e.kept <;> simp
  have e : (stopUnits s id).base = { s.base with
      dbuf := (s.dbuf.filter (fun e => e.kept.all (fun k => k.1 != id))).filter (fun e => e.kept.isNone) } := rfl
  rw [e, h]
  rfl

@[simp] theorem countJob_base (s : State) (id : Nat) (st : Status) : (countJob s id st).base = s.base := rfl

@[simp] theorem upIg_base (s : State) (f : Integrity → Integrity) : (upIg s f).base = s.base := rfl

@[simp] theorem upJob_base (s : State) (k : Nat) (f : Job → Job) : (upJob s k f).base = s.base := rfl

@[simp] theorem endJob_base (s : State) (id : Nat) (st : Status) (idx : BitVec 16) :
    (endJob s id st idx).base = s.base := by
  unfold endJob
  split
  · simp only [tidyCores_base, stopUnits_base, upIg_base, upJob_base]
    rfl
  · rfl

@[simp] theorem endAll_base (s : State) (st : Status) : (endAll s st).base = s.base :=
  forL_induct (P := fun t => t.base = s.base) (fun x t h => (endJob_base t x st 0xFFFF).trans h) rfl

@[simp] theorem enterFaulted_base (s : State) : (enterFaulted s).base = s.base := by
  simp [enterFaulted, State.base, State.still, Function.comp_def]

/-- A job fault changes nothing of the base (R405 to R407). -/
@[simp] theorem jobFaultWith_base (s : State) (o : Owner) (st : Status) (cause : Nat) (pa : Word) (ch : Nat) :
    (jobFaultWith s o st cause pa ch).base = s.base := by
  unfold jobFaultWith
  refine (base_of_still (raiseEvent_still ..)).trans ?_
  exact (enterFaulted_base _).trans ((endAll_base _ stLost).trans (endJob_base ..))

@[simp] theorem jobFault_base (s : State) (o : Owner) (st : Status) (pa : Word) (ch : Nat) :
    (jobFault s o st pa ch).base = s.base := jobFaultWith_base ..

@[simp] theorem jobFaultAll_base (s : State) (cause : Nat) : (jobFaultAll s cause).base = s.base := by
  unfold jobFaultAll
  refine (base_of_still (raiseEvent_still ..)).trans ?_
  exact (enterFaulted_base _).trans (endAll_base s stJobFault)

@[simp] theorem failJob_base (s : State) (o : Owner) (st : Status) : (failJob s o st).base = s.base := by
  unfold failJob
  split
  · exact endJob_base ..
  · exact jobFault_base ..

@[simp] theorem nameSuspect_base (s : State) (cid : BitVec 12) (u c src : Nat) :
    (nameSuspect s cid u c src).base = s.base := by
  unfold nameSuspect
  refine (base_of_still (raiseEvent_still ..)).trans ?_
  split <;> rfl

@[simp] theorem arithFault_base (s : State) (o : Owner) (u c lane : Nat) (a : Word) :
    (arithFault s o u c lane a).base = s.base := by
  unfold arithFault
  refine (nameSuspect_base ..).trans ?_
  exact (base_of_still (raiseEvent_still ..)).trans (jobFault_base ..)

@[simp] theorem digestAdd_base (s : State) (o : Owner) (tag : Word) (l : List Byte) :
    (digestAdd s o tag l).base = s.base := by
  unfold digestAdd
  split
  · rfl
  · split <;> rfl

@[simp] theorem spDigest_base (s : State) (c : Nat) (o : Owner) (a n : Nat) : (spDigest s c o a n).base = s.base := by
  unfold spDigest
  split
  · exact forL_induct (P := fun t => t.base = s.base) (fun x t h => (digestAdd_base ..).trans h) rfl
  · rfl

@[simp] theorem upCore_base (s : State) (c : Nat) (f : Core → Core) : (upCore s c f).base = s.base := rfl

@[simp] theorem spPut_base (s : State) (c : Nat) (o : Owner) (a : Nat) (l : List PWord) :
    (spPut s c o a l).base = s.base := (spDigest_base ..).trans rfl

@[simp] theorem spTouch_base (s : State) (c a n : Nat) : (spTouch s c a n).base = s.base := by
  unfold spTouch
  refine forL_induct (P := fun t => t.base = s.base) (fun x t h => ?_) rfl
  simp only
  split
  · exact h
  · split
    · exact (base_of_still (uePoison_still ..)).trans h
    · exact h

@[simp] theorem spWrite_base (s : State) (c : Nat) (o : Owner) (a : Nat) (l : List Byte) :
    (spWrite s c o a l).base = s.base := by
  unfold spWrite
  exact (spDigest_base ..).trans ((upCore_base ..).trans ((spTouch_base ..).trans (spTouch_base ..)))

@[simp] theorem putCk_base (s : State) (i : Nat) (v : BitVec 32) : (putCk s i v).base = s.base := rfl

@[simp] theorem resum_base (s : State) (off : Nat) : (resum s off).base = s.base := by
  unfold resum
  split <;> rfl

@[simp] theorem afterWrite_base (s : State) (a n : Nat) : (afterWrite s a n).base = s.base := by
  unfold afterWrite
  split
  · rfl
  · refine forN_induct (P := fun t => t.base = s.base)
      (forN_induct (P := fun t => t.base = s.base) rfl fun i t _ h => (resum_base ..).trans h) fun i t _ h => ?_
    simp only
    split <;> exact h

/-! ### The canonical form of local DRAM -/

theorem dramWf_of_base {s t : State} (h : t.base = s.base) (hs : s.dramWf) : t.dramWf := by
  have hd : t.dram = s.dram := (congrArg State.dram h : t.base.dram = s.base.dram)
  unfold State.dramWf
  rw [hd]
  exact hs

theorem dramPut_dramWf (s : State) (a : Nat) (l : List PWord) (h : s.dramWf) : (dramPut s a l).dramWf :=
  Mem.wf_putWords l (a / 8) h

theorem dramWrite_dramWf (s : State) (a : Nat) (l : List Byte) (h : s.dramWf) : (dramWrite s a l).dramWf :=
  Mem.wf_write a l h

/-- A word of local DRAM after a write of words (R374). -/
theorem dramPut_word (s : State) (a : Nat) (l : List PWord) (j : Nat) : (dramPut s a l).dram.word j =
    if h : a / 8 ≤ j ∧ j < a / 8 + l.length then
      (if (l[j - a / 8]'(by omega)).poison then .bad else .good (l[j - a / 8]'(by omega)).data)
    else s.dram.word j := Mem.word_putWords l s.dram (a / 8) j

/-! ### Job faults (R405 to R407) -/

theorem lives_of_jobs {s t : State} (h : t.jobs = s.jobs) (k : Nat) : t.lives k = s.lives k := by
  unfold State.lives State.job
  rw [h]

theorem raiseEvent_jobs (s : State) (code : BitVec 16) (cid : BitVec 12) (w3 w4 w5 : Word) :
    (raiseEvent s code cid w3 w4 w5).jobs = s.jobs :=
  (congrArg State.jobs (raiseEvent_still s code cid w3 w4 w5) :
    (raiseEvent s code cid w3 w4 w5).still.jobs = s.still.jobs)

/-- No job lives after a job fault whose owner is known. -/
theorem jobFaultWith_lives (s : State) (o : Owner) (st : Status) (cause : Nat) (pa : Word) (ch k : Nat) :
    (jobFaultWith s o st cause pa ch).lives k = false := by
  unfold jobFaultWith
  rw [lives_of_jobs (raiseEvent_jobs ..)]
  exact endAll_lives (endJob s o.job st (BitVec.ofNat 16 o.idx)) stLost k

/-- No job lives after a job fault whose owner is not known. -/
theorem jobFaultAll_lives (s : State) (cause k : Nat) : (jobFaultAll s cause).lives k = false := by
  unfold jobFaultAll
  rw [lives_of_jobs (raiseEvent_jobs ..)]
  exact endAll_lives s stJobFault k

end Sys2Proof.Machine
end

