-- ==== Sys2Proof/Tests/Slice0.lean ====
section
/-!
SUPPORT. Tests: the operand checks, the words of the table, a few results taken from the spec's own tables and examples, and
for each statement of Certificates/Slice0/Obligations.lean that has hypotheses a state and operands that meet them.
-/
namespace Sys2Proof.Tests
open Sys2Proof Sys2Proof.Machine

/-! ### Small states -/

/-- Powered, nothing running. -/
def onS : State := { pwr := { phase := .powered, pwrEn := true, pwrgd := true }, link := { configReady := true } }

/-- Firmware runs, the module is ready, and the Ticker reads 10^13 ns. -/
def fwS : State :=
  { onS with sec := { stage := .running }, bring := { phase := 6 }, time := { acc := 42949672960000000000000 } }

/-- A latency-critical owner of job 0 with CID 1. -/
def ow : Owner := ⟨0, 0, 1, true, false⟩

/-! ### Operand checks (WellFormed.lean) -/

theorem test_wf_laneRepair : (Instr.laneRepair [(767, 83)]).wf = true ∧ (Instr.laneRepair [(768, 0)]).wf = false ∧
    (Instr.laneRepair [(0, 84)]).wf = false := by decide
theorem test_wf_retentionProbe : (Instr.retentionProbe [(768, 1)] (List.replicate 12 0)).wf = false ∧
    (Instr.retentionProbe [] [0]).wf = false := by decide
theorem test_wf_stepRateWindow : (Instr.stepRateWindow [0]).wf = false := by decide
theorem test_wf_snowploughWindow : (Instr.snowploughWindow ⟨0, 0, 0, 0, [], [], []⟩).wf = false := by decide
theorem test_wf_powerStageThermalHold : (Instr.powerStageThermalHold [] (List.replicate 12 [0, 0, 0, 0])).wf = false := by decide
theorem test_wf_stackTempSample : (Instr.stackTempSample (List.replicate 13 (List.replicate 12 0))).wf = false ∧
    (Instr.stackTempSample (List.replicate 12 (List.replicate 11 0))).wf = false := by decide
theorem test_wf_hourlyPoint : (Instr.hourlyPoint ⟨[], List.replicate 12 0, [], none, none⟩).wf = false := by decide
theorem test_wf_msixUnmask : (Instr.msixUnmask 0 2047).wf = true ∧ (Instr.msixUnmask 0 2048).wf = false := by decide
theorem test_wf_lanea (m : LaneaMsg) :
    (m.payload.length = 520 → m.fits = true) ∧ (m.payload.length = 521 → m.fits = false) :=
  ⟨fun h => by simp [LaneaMsg.fits, h], fun h => by simp [LaneaMsg.fits, h]⟩
theorem test_wf_laneaRows (p : Fin 32) (m : LaneaMsg) (h : m.fits = false) :
    (Instr.laneaRead p m).wf = false ∧ (Instr.laneaWrite p m).wf = false ∧ (Instr.laneaAddAddress p m).wf = false ∧
    (Instr.laneaAddGradient p m).wf = false ∧ (Instr.gatherReq p m).wf = false ∧ (Instr.laneaResponse p m).wf = false ∧
    (Instr.laneaCredit p m).wf = false ∧ (Instr.laneaAck p m).wf = false ∧ (Instr.census p m).wf = false :=
  ⟨h, h, h, h, h, h, h, h, h⟩
theorem test_illFormed : exec (.stackTempSample []) onS = .fault (.illFormed "STACK_TEMP_SAMPLE") := rfl

/-- No row of the table gives bits. -/
theorem test_noWords : decodeTableWord 0 0 = none ∧ decodeTableWord 64 5 = none := by decide

/-! ### Hypotheses met: the machine as a whole, power, boot, time -/

theorem test_hyp_TickerNeverStepped :
    ({ pwr := { phase := .ramping } } : State).pwr.phase = .ramping ∧
    (∃ t, onS.powered = true ∧ exec .hlErrRead onS = .next t ∧ t.powered = true) ∧
    (onS.powered = true ∧ onS.time.refLoss = false ∧ -25000 ≤ onS.time.rateTrim.toInt ∧ onS.time.rateTrim.toInt ≤ 25000 ∧
      onS.time.acc.toNat < 2 ^ 96 - 2 ^ 36) ∧
    ({ time := { refLoss := true } } : State).time.refLoss = true :=
  ⟨by decide, ⟨_, by decide, rfl, by decide⟩, by decide, by decide⟩
theorem test_hyp_IdleStepIsACycle : onS.pending = [] ∧ onS.powered = true ∧ onS.time.refLoss = false ∧ onS.time.rateTrim = 0 ∧
    onS.fab.ports = [] ∧ State.reset.powered = false ∧ ({ onS with time := { refLoss := true } } : State).powered = true := by
  decide
theorem test_hyp_StepKeepsDram : State.reset.dramWf ∧ ∃ t, step State.reset = .next t := ⟨rfl, _, rfl⟩
theorem test_hyp_ExecKeepsQueue : ∃ t, exec .hlErrRead onS = .next t := ⟨_, rfl⟩
theorem test_hyp_EveryCommandCompletes : Instr.ready.wf = true ∧ (Instr.stepRateWindow []).wf = false := by decide
theorem test_hyp_OffIsInert : State.reset.powered = false ∧ Instr.ready.wf = true ∧
    (∀ cv low, Instr.ready ≠ .pwrEnRise cv low) ∧ Instr.ready ∉ ([.powerGood, .pwrEnFall, .inputUnderVoltage,
      .inputOverVoltage, .junctionTrip, .stackTrip, .railFault] : List Instr) := by
  refine ⟨by decide, by decide, ?_, by decide⟩
  intro _ _ h
  cases h
theorem test_hyp_FusesAndTrimHold : (∃ t, step State.reset = .next t) ∧ -25000 ≤ State.reset.time.rateTrim.toInt ∧
    State.reset.time.rateTrim.toInt ≤ 25000 := ⟨⟨_, rfl⟩, by decide⟩
theorem test_hyp_ErrorCode : ({} : Mem).syndrome 0 = 0 ∧
    ({ syn := [(0, dataColumns.getD 63 0)] } : Mem).syndrome 0 = dataColumns.getD 63 0 ∧
    ({ syn := [(0, checkColumns.getD 7 0)] } : Mem).syndrome 0 = checkColumns.getD 7 0 ∧
    ({ syn := [(0, 0xFE)] } : Mem).syndrome 0 = 0xFE ∧
    (let y := ({ syn := [(0, 0x03)] } : Mem).syndrome 0
     y ≠ 0 ∧ y ≠ 0xFE ∧ y ∉ dataColumns ∧ y ∉ checkColumns) := by decide
theorem test_hyp_PowerUp :
    State.reset.pwr.phase = .off ∧ State.reset.pwr.tripLatched = false ∧
    (let s : State := { pwr := { tripLatched := true } }
     s.pwr.phase = .off ∧ s.pwr.pwrEn = false ∧ (10 : Nat) ≤ 10) ∧
    ({ pwr := { phase := .ramping } } : State).pwr.phase = .ramping ∧
    ((3999 : Nat) < 4000 ∧ (5000 : Nat) < 5001 ∧ ({ pwr := { tripLatched := true } } : State).pwr.tripLatched = true ∧
      (9 : Nat) < 10) := by decide
theorem test_hyp_PowerDown : onS.pwr.phase ≠ .off ∧ onS.pwr.pwrEn = true := by decide
theorem test_hyp_BootChain :
    (onS.powered = true ∧ onS.sec.stage = .none) ∧
    (let s : State := { onS with sec := { stage := .recovery } }
     s.powered = true ∧ s.sec.stage = .recovery) ∧
    (fwS.fwRuns = true ∧ fwS.bring.phase ≠ 0) := by decide
theorem test_hyp_BootChain_piece :
    (let s : State := { fwS with flash := { regionA := (List.replicate 24 0).set 8 64 |>.set 16 65 } }
     s.fwRuns = true ∧ 0 < imgPieces (s.flash.region s.sec.regionB)) := by decide
theorem test_hyp_BringUp :
    (let s : State := { fwS with bring := {} }
     s.fwRuns = true ∧ s.bring.phase = 0 ∧ s.flash.bestPowered = some s.flash.powered0) ∧
    (let s : State := { fwS with bring := {}, flash := { powered0 := {} } }
     s.fwRuns = true ∧ s.bring.phase = 0 ∧ s.flash.bestPowered = none) ∧
    (let s : State := { fwS with bring := { phase := 1 } }
     s.fwRuns = true ∧ s.bring.phase = 1) ∧
    (let s : State := { fwS with bring := { phase := 2 } }
     s.fwRuns = true ∧ s.bring.phase = 2 ∧ (Instr.retentionProbe [] (List.replicate 12 0)).wf = true) ∧
    (let s : State := { fwS with bring := { phase := 3 } }
     s.fwRuns = true ∧ s.bring.phase = 3) ∧
    (let s : State := { fwS with bring := { phase := 4 } }
     s.fwRuns = true ∧ s.bring.phase = 4) ∧
    (let s : State := { fwS with bring := { phase := 5 } }
     s.fwRuns = true ∧ s.bring.phase = 5) := by decide
theorem test_hyp_BringUp_spares :
    (let failing := (List.range 5).map (fun i => (767, i)) ++ [(3, 72), (3, 83)]
     failing.all laneOk = true ∧ sparesOk failing 3 = false ∧ sparesOk failing 767 = false ∧
      ∀ d, d < 3 → sparesOk failing d = true) ∧
    ({ fwS with bring := {}, time := { refLoss := true } } : State).time.refLoss = true := by decide
theorem test_hyp_BringUp_lanes :
    ([] : List (Nat × Nat)).all laneOk = true ∧
    ∀ c, c < 768 → (failingOf [] c).countP (fun i => i < 72) ≤ 4 ∧ (failingOf [] c).countP (fun i => 72 ≤ i) ≤ 1 :=
  ⟨by decide, fun _ _ => by simp [failingOf]⟩
theorem test_hyp_TimeAndStageEvents :
    (onS.powered = true ∧ onS.time.refLoss = false ∧ onS.sched.state ≠ .stopped) ∧
    (let s : State := { fwS with time := { fwS.time with persistOk := true } }
     s.fwRuns = true ∧ due s mkPoweredTime 600000000000 = true ∧ s.time.persistOk = true ∧ s.time.refLoss = false) ∧
    (fwS.powered = true ∧ (List.replicate 12 0 : List Nat).length = 12 ∧ due fwS mkStepRate 10000 = true) ∧
    due fwS mkStageLimit 100000 = true ∧
    ((Instr.powerStageThermalHold (List.replicate 12 (List.replicate 12 960)) (List.replicate 12 [0, 0, 0, 0])).wf = true ∧ due fwS mkStageHold 100000 = true) ∧
    (fwS.fwRuns = true ∧ due fwS (mkJunction 11) 10000000 = true ∧ (1000 : Int) < 1001) := by decide
theorem test_hyp_SnowploughKeepsRange :
    fwS.fwRuns = true ∧ 1 ≤ fwS.bring.phase.toNat ∧ due fwS mkSnowplough 10000 = true ∧
    (Instr.snowploughWindow ⟨0, 0, 0, 0, List.replicate 12 [0, 0, 0, 0], List.replicate 12 (List.replicate 12 0), List.replicate 12 0⟩).wf = true ∧
    fwS.sec.reload.contains 2 = false ∧
    620 ≤ (fwS.hedge 0).vsetMv ∧ (fwS.hedge 0).vsetMv ≤ 900 ∧ 700 ≤ (fwS.hedge 0).vsetMv ∧
    ({ fwS with sqs := [{ fn := 0, qid := 0, ring := 0, log2 := 6, lc := true, cq := 0 }] } : State).lcFloor = true := by
  decide
theorem test_hyp_StackUpkeep :
    (fwS.powered = true ∧ (Instr.stackTempSample (List.replicate 12 (List.replicate 12 0))).wf = true ∧
      due fwS mkStackTemp 10000 = true) ∧
    (fwS.fwRuns = true ∧ due fwS (mkStack 0) 10000000 = true ∧ (950 : Int) < 951) ∧
    (let s : State := { onS with chans := [(0, { refreshOn := true })] }
     s.powered = true ∧ windowOpens s 0 = true) ∧
    (let s : State := { onS with scrubOn := true }
     s.powered = true ∧ s.scrubOn = true ∧ s.time.refLoss = false ∧ (s.chan 767).urgent = false ∧
      due { s with time := fwS.time } (mkScrub 767) (s.scrubPeriod 767) = true) ∧
    (let r : ChReq := { kind := .read, lc := true, cid := 0, pa := 0, len := 64, data := [], reply := .packet 1 2 }
     ({ queue := [r] } : Chan).urgent = true) := by decide

/-! ### Hypotheses met: channels, Hedgerow, registers -/

/-- A module with one request in channel 0's queue, and a job of CID 5. -/
def chS (r : ChReq) : State := { onS with
  chans := [(0, { queue := [r] })]
  jobs := [{ id := 7, fn := 0, sq := 0, cq := 0, cid := 5, lc := true, tag := 0, ndesc := 1, cores := [0], cmds := [],
             tailDef := false, usesUpdate := false, digest := false, digestAddr := 0, stopAfter := 0, liveK := 0, binds := [],
             repro := false, bank := 0, soloSteps := 0, boundSteps := 0, admitted := 0, sqHead := 0, sig := 0 }] }

/-- A request of 32 bytes at offset 0, with an adder operation. -/
def rq (k : ReqKind) (op : Nat) (cid : BitVec 12) (data : List PWord) : ChReq :=
  { kind := k, lc := true, cid := cid, pa := 0, len := 32, data := data, reply := .packet 1 2,
    hdr1 := BitVec.ofNat 64 (op * 2 ^ 56) }

/-- The request stands alone in its queue, so the controller picks it (R65, R66). -/
theorem test_hyp_ChannelAccess :
    (let r := rq .read 0 0 []
     (chS r).powered = true ∧ (chS r).hrow.flits = [] ∧ r.reply = .packet 1 2 ∧ ((chS r).chan 0).pick (fun r => r.kind == .read) = some (r, 0) ∧
      (chS r).privetOk r.cid 0 r.pa false = true) ∧
    (let r := rq .write 0 0 (List.replicate 4 (.good 9))
     ((chS r).chan 0).pick (fun r => r.kind == .write) = some (r, 0) ∧ (chS r).privetOk r.cid 0 r.pa true = true) ∧
    (let r := rq .write 0 5 (List.replicate 4 (.good 9))
     ((chS r).chan 0).pick (fun r => r.kind == .write) = some (r, 0) ∧ (chS r).privetOk r.cid 0 r.pa true = false ∧
      (∃ o, reqOwner (chS r) r = some o ∧ o.job = 7) ∧ ((chS r).job 7).isSome = true) :=
  ⟨by decide, by decide, by decide, by decide, ⟨_, rfl, rfl⟩, by decide⟩
theorem test_hyp_AdderOps :
    (let r := rq .adder opAdd 0 (List.replicate 4 (.good 9))
     (chS r).powered = true ∧ CaParity.retried ≠ .failed ∧ adderWrong (chS r) (parseAdder r.hdr0 r.hdr1) r.pa r.data ⟨1, 8⟩ = none ∧ (chS r).privetOk r.cid 0 r.pa true = true ∧
      ((chS r).chan 0).pick (isOp opAdd) = some (r, 0) ∧ r.data.length = (parseAdder r.hdr0 r.hdr1).len / 8) ∧
    (let r := rq .adder opAddFx 0 (List.replicate 2 (.good 9))
     ((chS r).chan 0).pick (isOp opAddFx) = some (r, 0) ∧ 2 * r.data.length = (parseAdder r.hdr0 r.hdr1).len / 8) ∧
    (let r := rq .adder opFetchAdd 0 [.good 9]
     ((chS r).chan 0).pick (isOp opFetchAdd) = some (r, 0) ∧ r.data.length = 1) ∧
    (let r := rq .adder opSwap 0 [.good 9]
     ((chS r).chan 0).pick (isOp opSwap) = some (r, 0) ∧ r.data.length = 1) ∧
    (let r := rq .adder opCas 0 [.good 9, .good 8]
     ((chS r).chan 0).pick (isOp opCas) = some (r, 0) ∧ r.data.length = 2) ∧
    (let r := rq .adder opZero 0 []
     ((chS r).chan 0).pick (isOp opZero) = some (r, 0)) := by decide
theorem test_hyp_AdderOps_pool :
    (let r := { rq .adder opPool 0 [.good 64] with hdr1 := BitVec.ofNat 64 (7 * 2 ^ 56 + 2 ^ 32 + 2 ^ 24), reply := .pool 3 4 }
     (chS r).powered = true ∧ ((chS r).chan 0).pick (isOp opPool) = some (r, 0) ∧ r.reply = .pool 3 4 ∧
      poolRows (parseAdder r.hdr0 r.hdr1) r.data ≠ [] ∧
      ∀ off ∈ poolRows (parseAdder r.hdr0 r.hdr1) r.data, (chS r).privetOk r.cid 0 off false = true ∧
        (chS r).privetOk r.cid 0 (off + 8 * rowWords (parseAdder r.hdr0 r.hdr1).src (parseAdder r.hdr0 r.hdr1).elems - 1) false =
          true) := by decide
/-- A flit: DEST, SRC, VC, CID 0, KIND, SEQ, LAST (R18). -/
def flit (dest src vc kind seq : Nat) (last : Bool) (l : List Word) : Flit :=
  ⟨at_ 63 57 dest ||| at_ 56 50 src ||| at_ 49 48 vc ||| at_ 35 32 kind ||| at_ 15 10 seq ||| at_ 9 9 (b2n last), 0,
    l.map (fun w => (w, 0))⟩

/-- A packet of two flits, from core node 1 to core node 7; a read, and a ZERO, for stack 0 of the default map. -/
theorem test_hyp_HedgerowAndWardens :
    (let l := [flit 7 1 0 4 0 false (List.replicate 16 9), flit 7 1 0 4 1 true [8]]
     onS.powered = true ∧ (Instr.hedgerowPacket l).wf = true ∧ onS.hrow.flits = [] ∧
      l.all (fun f => f.tagSyn == 0 && f.words.all (fun w => w.2 == 0)) = true ∧ packetOk (l.map Flit.forward) = true ∧
      (l.head?).map (fun f => tagCommon f.tag) = some (tagCommon (flit 7 1 0 4 0 false []).tag) ∧
      isMemory (tagCommon (flit 7 1 0 4 0 false []).tag) = false) ∧
    (let t := tagCommon (flit 72 1 1 0 0 true [0]).tag
     let r := packetReq t [.good 0]
     packetOk ([flit 72 1 1 0 0 true [0]].map Flit.forward) = true ∧ isMemory t = true ∧ fld t 35 32 ≠ 2 ∧
      fld t 63 57 = 72 + onS.stack r.pa ∧ onS.oneUnit r.pa r.len = true ∧ (onS.chan (onS.channel r.pa)).room r.lc = true) ∧
    (let l : List Word := [0, BitVec.ofNat 64 (6 * 2 ^ 56 + 2 ^ 33)]
     let t := tagCommon (flit 72 1 0 2 0 true l).tag
     let r := packetReq t (l.map .good)
     packetOk ([flit 72 1 0 2 0 true l].map Flit.forward) = true ∧ isMemory t = true ∧ fld t 35 32 = 2 ∧
      adderRefusal r.hdr0 r.hdr1 r.data.length = none ∧ fld t 63 57 = 72 + onS.stack r.pa ∧ onS.oneUnit r.pa r.len = true) ∧
    [({ flit 7 1 0 4 0 true [] with tagSyn := 0x03 } : Flit)].any Flit.tagLost = true ∧
    (let s : State := { onS with
       hedges := [(3, { wardenQ := [.map [], .privet [], .lock true, .scrub 1] })]
       adminWaits := [.wardens 0 0 [3, 4] (.mode 1)] }
     s.powered = true ∧ (s.hedge 3).wardenQ = .map [] :: [.privet [], .lock true, .scrub 1] ∧
      ∃ i ∈ [3, 4], i ≠ 3) := by decide
theorem test_hyp_HedgerowAndWardens_routers : ∀ link vc, onS.hrow.held link vc ≤ vcSlots vc := by
  intro link vc
  exact Nat.zero_le _
theorem test_hyp_Doorbells :
    (let x : SubQ := { fn := 0, qid := 255, ring := 0, log2 := 6, lc := true, cq := 0 }
     let c : CplQ := { fn := 0, cid := 127, ring := 0, log2 := 6, vector := 0 }
     let q : PfQ := { ring := 0, log2 := 6, vector := 0 }
     let s : State := { onS with sqs := [x], cqs := [c], eq := some q, hq := some q, fq := some q }
     s.present = true ∧ s.sqs.find? (fun x => x.fn == 0 && x.qid == 255 && x.dying.isNone) = some x ∧
      s.sqs.find? (fun x => x.fn == 0 && x.qid == 254 && x.dying.isNone) = none ∧
      s.cqs.find? (fun x => x.fn == 0 && x.cid == 127) = some c ∧ s.eq = some q ∧ s.hq = some q ∧ s.fq = some q ∧
      fld 0 15 0 < 2 ^ q.log2 ∧ ahead q.log2 q.head (fld 0 15 0) ≤ ahead q.log2 q.head q.tail) ∧
    onS.eq = none ∧ (1 : FnId) ≠ 0 := by decide
theorem test_hyp_RegisterAccess :
    (onS.present = true ∧ (1 : FnId) ≠ 0 ∧ onS.model = false ∧ fld 0 63 16 * 65536 + 2 ^ 44 ≤ 2 ^ 64 ∧
      ({ onS with model := true } : State).model = true ∧ (4088 : Nat) % 8 = 0 ∧ (4088 : Nat) < 4096) ∧
    (let x : SubQ := { fn := 0, qid := 255, ring := 0, log2 := 6, lc := true, cq := 0 }
     let c : CplQ := { fn := 0, cid := 127, ring := 0, log2 := 6, vector := 0 }
     let s : State := { onS with sqs := [x], cqs := [c] }
     s.sqs.find? (fun x => x.fn == 0 && x.qid == 255 && x.dying.isNone) = some x ∧
      s.sqs.find? (fun x => x.fn == 0 && x.qid == 0 && x.dying.isNone) = none ∧
      s.cqs.find? (fun x => x.fn == 0 && x.cid == 127) = some c ∧ s.cqs.find? (fun x => x.fn == 0 && x.cid == 0) = none) ∧
    (let p : Pend := { leaf := 8, tag := some 9, cid := 1, page := 0, waiters := 1 }
     let s : State := { fwS with dram := ({} : Mem).putWord 1 (.good (mkLeaf stDemand false true false 0)), xl := { pend := [p] } }
     s.fwRuns = true ∧ s.link.configReady = true ∧ s.xl.pend.find? (fun p => p.tag == some 9) = some p ∧ pteState (s.node p.leaf) = stDemand ∧
      s.xl.pend.find? (fun p => p.tag == some 8) = none) ∧
    (let s : State := { onS with mbox := [(mailKey 31 3, { state := 3 })] }
     s.present = true ∧ (s.mail (mailKey 31 3)).state = 3 ∧ (s.mail (mailKey 31 3)).state ≠ 1 ∧
      (s.mail (mailKey 31 3)).state ≠ 2 ∧ (507 : Nat) < 508) ∧
    (fld (BitVec.ofNat 64 (2 ^ 62)) 63 62 = 1 ∧ BadAccess.size ≠ .outsideIde) := by decide +kernel
theorem test_hyp_FunctionResets : onS.present = true ∧ onS.powered = true ∧ (31 : FnId) ≠ 0 ∧
    (let s : State := { onS with pwr := { onS.pwr with perst := false } }
     s.powered = true ∧ (s.pwr.perst || LinkReset.hotReset == .perst) = false ∧ s.pwr.perst = false) ∧
    (onS.pwr.perst || LinkReset.perst == .perst) = true ∧ LinkWidth.x8 ≠ .down ∧ onS.pwr.perst = true := by decide
theorem test_hyp_HostLinkTraffic :
    (let s : State := { onS with link := { ideEnabled := 16 } }
     s.powered = true ∧ s.link.ideEnabled.getLsbD 4 = true ∧ s.link.ats = []) ∧
    (let s : State := { onS with link := { configReady := true, bme := 1, msixOff := 0, vecPending := [(2047, true)] } }
     s.present = true ∧ (2047 : Nat) < 2048 ∧ Tbl.get false s.link.vecPending (2048 * 0 + 2047) = true ∧
      s.link.fnMask.getLsbD 0 = false ∧ s.link.msixOff.getLsbD 0 = false ∧ s.blocked 0 = false) ∧
    (let r : HostRead := { id := 3, fn := 0, owner := none, addr := 0, len := 4, reqs := [(0, 4, false)], got := [] }
     let s : State := { onS with link := { reads := [r] } }
     s.powered = true ∧ s.link.reads.find? (fun r => r.id == 3) = some r ∧ r.reqs[0]? = some (0, 4, false) ∧
      0 ≤ 3 ∧ 3 < 0 + 4) := by decide

/-- A page table of CID 1 that maps page 0 to local DRAM, in a state `st`. -/
def xlDram (st : Nat) : Mem :=
  [(contextAt 1, at_ 63 63 1 ||| at_ 55 0 (nodeAt 0)), (nodeAt 0, mkPointer (nodeAt 1)), (nodeAt 1, mkPointer (nodeAt 2)),
   (nodeAt 2, mkPointer (nodeAt 3)), (nodeAt 3, mkLeaf st false true false 0)].foldl (fun m e => m.putWord (e.1 / 8) (.good e.2)) {}
def xlS (st : Nat) : State := { fwS with dram := xlDram st, xl := { contexts := [(1, some 0)], nextNode := 4 } }
theorem test_hyp_Translation :
    (let s := xlS stValid
     s.powered = true ∧ tlbHit (Tbl.get [] s.xl.tlbs (unitKey .hostEdge)) 1 0 = none ∧
      (walk s 0 1 0).1 = .leaf (nodeAt 3) 1 (mkLeaf stValid false true false 0) ∧ s.walker (unitKey .hostEdge) = 0 ∧
      pteState (mkLeaf stValid false true false 0) = stValid ∧ pteContig (mkLeaf stValid false true false 0) = false) ∧
    ((walk (xlS stDemand) 0 1 0).1 = .leaf (nodeAt 3) 1 (mkLeaf stDemand false true false 0) ∧
      pteState (mkLeaf stDemand false true false 0) ≠ stValid ∧
      pteContig (mkLeaf stValid true true false (5 * 65536)) = true ∧ pteOa (mkLeaf stValid true true false (5 * 65536)) / 65536 % 32 = 5) ∧
    (let p : Pend := { leaf := nodeAt 3, tag := none, cid := 1, page := 0, waiters := 1 }
     let s : State := { xlS stInvalid with xl := { pend := [p] } }
     s.xl.pend.any (fun p => p.leaf == nodeAt 3) = true ∧ s.xl.pend.any (fun p => p.leaf == 8) = false ∧
      s.xl.pend.length < 256 ∧ pteState (s.node (nodeAt 3)) ≠ stDemand ∧ 256 ≤ (List.replicate 256 p).length ∧
      (List.replicate 256 p).any (fun p => p.leaf == 8) = false) ∧
    (let q : PfQ := { ring := 0, log2 := 6, vector := 0 }
     let e : FaultEntry := ⟨1, 0, 1536⟩
     let s : State := { fwS with fq := some q, link := { bme := 1 }, xl := { faultHeld := [e] } }
     s.fwRuns = true ∧ s.fq = some q ∧ q.full = false ∧ s.blocked 0 = false ∧ s.xl.faultHeld = e :: []) := by decide +kernel

/-! ### Hypotheses met: admin commands -/

/-- A command posted in slot 0 of a function that has negotiated version 1.0; DMA is allowed. -/
def admS (f : FnId) (op : Nat) (l : List Word) : State := { fwS with
  mbOrder := 1
  nego := [(f.val, some (1, 0))]
  link := { bme := 0xFFFFFFFF }
  mbox := [(mailKey f 0, { state := 1, opcode := BitVec.ofNat 8 op, verMajor := 1, reqLen := BitVec.ofNat 12 (8 * l.length),
                           payload := putPayload [] 0 (wordsBytes l), order := 1 })] }

theorem test_hyp_AdminResponses :
    (let s : State := { admS 0 0x02 [] with mbox := [(0, { state := 2 })], link := { bme := 1, msixOff := 0, vecOpen := [(0, true)] } }
     (s.mail (mailKey 0 0)).state = 2 ∧ ([] : List Word).length ≤ 508 ∧ s.link.msixOff.getLsbD 0 = false ∧
      s.link.fnMask.getLsbD 0 = false ∧ Tbl.get false s.link.vecOpen (2048 * 0) = true ∧ s.blocked 0 = false) ∧
    (let s := admS 0 0x55 []
     s.fwRuns = true ∧ (s.mail (mailKey 0 0)).open_ = true ∧ (s.mail (mailKey 0 0)).started = false ∧
      s.turn (mailKey 0 0) = true ∧ (s.mail (mailKey 0 0)).reqLen.toNat ≤ 4064 ∧
      knownOps.contains (s.mail (mailKey 0 0)).opcode.toNat = false) ∧
    (let s := admS 0 0x31 [BitVec.ofNat 64 (2 ^ 16)]
     (s.mail (mailKey 0 0)).opcode = 0x31 ∧ s.turn (mailKey 0 0) = true ∧ s.reqF (mailKey 0 0) 0 63 16 ≠ 0) ∧
    (let s := { admS 0 0x31 [900] with nego := [] }
     s.turn (mailKey 0 0) = true ∧ s.reqF (mailKey 0 0) 0 63 16 = 0 ∧ s.tailZero (mailKey 0 0) 1 = true ∧
      s.version 0 ≠ some ((s.mail (mailKey 0 0)).verMajor.toNat, (s.mail (mailKey 0 0)).verMinor.toNat)) ∧
    (let s := admS 1 0x31 [900]
     s.turn (mailKey 1 0) = true ∧ s.reqF (mailKey 1 0) 0 63 16 = 0 ∧ s.tailZero (mailKey 1 0) 1 = true ∧
      s.version 1 = some ((s.mail (mailKey 1 0)).verMajor.toNat, (s.mail (mailKey 1 0)).verMinor.toNat) ∧ (1 : FnId) ≠ 0) := by
  decide
theorem test_hyp_AdminReports_1 :
    (let s := admS 0 0x01 [1]
     s.starts 0 0 0x01 ∧ s.tailZero (mailKey 0 0) 1 = true ∧ s.ownsQueue 0 = false ∧
      chooseVersion (hostPairs (s.req (mailKey 0 0) 0)) deviceVersions = some (1, 0)) ∧
    (let s := admS 0 0x01 [2]
     s.starts 0 0 0x01 ∧ s.tailZero (mailKey 0 0) 1 = true ∧
      chooseVersion (hostPairs (s.req (mailKey 0 0) 0)) deviceVersions = none) ∧
    (let s := admS 31 0x02 []
     s.starts 31 0 0x02 ∧ s.tailZero (mailKey 31 0) 0 = true) := by
  unfold State.starts
  decide
theorem test_hyp_AdminReports_2 :
    (let s := admS 0 0x48 [0, 0, 0, 0, 64, 65536]
     s.starts 0 0 0x48 ∧ s.reqF (mailKey 0 0) 5 63 32 = 0 ∧ s.tailZero (mailKey 0 0) 6 = true ∧
      (s.req (mailKey 0 0) 4).toNat % 64 = 0 ∧ 30336 + 96 * s.sec.log.length ≤ s.reqF (mailKey 0 0) 5 31 0) ∧
    (let s := admS 0 0x40 [5, 7]
     s.starts 0 0 0x40 ∧ s.tailZero (mailKey 0 0) 2 = true ∧ (s.req (mailKey 0 0) 0).toNat ≤ s.ticker) ∧
    (let s := admS 0 0x40 [BitVec.ofNat 64 (2 ^ 63), 7]
     s.starts 0 0 0x40 ∧ s.tailZero (mailKey 0 0) 2 = true ∧ s.ticker < (s.req (mailKey 0 0) 0).toNat) ∧
    (let s := admS 0 0x41 [BitVec.ofNat 64 (2 ^ 56 + 1), 64, 4096, 0]
     s.starts 0 0 0x41 ∧ telemetryReserved s (mailKey 0 0) = false ∧ (s.req (mailKey 0 0) 1).toNat % 64 = 0 ∧
      s.req (mailKey 0 0) 3 = 0 ∧ s.reqF (mailKey 0 0) 0 63 56 ≠ 0x04) := by
  unfold State.starts
  decide
theorem test_hyp_AdminReports_3 :
    (let s := { admS 0 0x01 [1] with nego := [] }
     s.starts 0 0 0x01 ∧ s.version 0 = none ∧ chooseVersion (hostPairs (s.req (mailKey 0 0) 0)) deviceVersions = some (1, 0)) ∧
    (let s := admS 31 0x41 [BitVec.ofNat 64 (0x0D * 2 ^ 56 + 4096), 64, 4096, 0]
     s.starts 31 0 0x41 ∧ telemetryReserved s (mailKey 31 0) = false ∧ s.reqF (mailKey 31 0) 0 63 56 = 0x0D) ∧
    (let s := admS 0 0x41 [BitVec.ofNat 64 (4 * 2 ^ 56 + 1), 64, 4096, BitVec.ofNat 64 (2 ^ 52)]
     s.starts 0 0 0x41 ∧ telemetryReserved s (mailKey 0 0) = false ∧ s.reqF (mailKey 0 0) 0 63 56 = 0x04) := by
  unfold State.starts
  decide
theorem test_hyp_AdminQueuesAndFences_1 :
    (let s := { admS 0 0x20 [BitVec.ofNat 64 (6 * 2 ^ 55 + 3 * 2 ^ 46), 4096] with
       xl := { fnCid := [(0, 1)] }, cqs := [{ fn := 0, cid := 0, ring := 0, log2 := 6, vector := 1 }] }
     let r := fun hi lo => s.reqF (mailKey 0 0) 0 hi lo
     s.starts 0 0 0x20 ∧ r 63 60 < 5 ∧ r 27 0 = 0 ∧ s.tailZero (mailKey 0 0) 2 = true ∧ r 63 60 = 0 ∧
      createOk s 0 (r 63 60) (r 59 55) (r 54 54) (r 53 46) (r 45 39) (r 38 28) (s.req (mailKey 0 0) 1) = true) ∧
    (let s := admS 0 0x20 [BitVec.ofNat 64 (2 ^ 60 + 16 * 2 ^ 55 + 127 * 2 ^ 46 + 2047 * 2 ^ 28), 4096]
     let r := fun hi lo => s.reqF (mailKey 0 0) 0 hi lo
     s.starts 0 0 0x20 ∧ r 27 0 = 0 ∧ s.tailZero (mailKey 0 0) 2 = true ∧ r 63 60 = 1 ∧
      createOk s 0 (r 63 60) (r 59 55) (r 54 54) (r 53 46) (r 45 39) (r 38 28) (s.req (mailKey 0 0) 1) = true) ∧
    (let s := admS 0 0x20 [BitVec.ofNat 64 (2 * 2 ^ 60 + 16 * 2 ^ 55 + 2 ^ 28), 4096]
     let r := fun hi lo => s.reqF (mailKey 0 0) 0 hi lo
     s.starts 0 0 0x20 ∧ r 27 0 = 0 ∧ s.tailZero (mailKey 0 0) 2 = true ∧ r 63 60 = 2 ∧
      createOk s 0 (r 63 60) (r 59 55) (r 54 54) (r 53 46) (r 45 39) (r 38 28) (s.req (mailKey 0 0) 1) = true) := by
  unfold State.starts
  decide
theorem test_hyp_AdminQueuesAndFences_2 :
    (let s := { admS 0 0x21 [0] with sqs := [{ fn := 0, qid := 0, ring := 0, log2 := 6, lc := true, cq := 0 }] }
     s.starts 0 0 0x21 ∧ s.reqF (mailKey 0 0) 0 59 54 = 0 ∧ s.reqF (mailKey 0 0) 0 45 0 = 0 ∧
      s.tailZero (mailKey 0 0) 1 = true ∧ s.reqF (mailKey 0 0) 0 63 60 = 0 ∧ s.openSq 0 0 = true) ∧
    (let s := { admS 0 0x21 [BitVec.ofNat 64 (2 ^ 60)] with cqs := [{ fn := 0, cid := 0, ring := 0, log2 := 6, vector := 1 }] }
     s.starts 0 0 0x21 ∧ s.reqF (mailKey 0 0) 0 63 60 = 1 ∧ (s.cq? 0 0).isSome = true ∧
      s.sqs.any (fun x => x.fn == 0 && x.cq == 0) = false) ∧
    (let s := { admS 0 0x21 [BitVec.ofNat 64 (2 * 2 ^ 60)] with eq := some { ring := 0, log2 := 6, vector := 1 } }
     s.starts 0 0 0x21 ∧ s.reqF (mailKey 0 0) 0 63 60 = 2 ∧ s.eq.isSome = true) := by
  unfold State.starts
  decide
theorem test_hyp_AdminQueuesAndFences_3 :
    (let s := admS 0 0x28 [71]
     s.starts 0 0 0x28 ∧ coreReserved s (mailKey 0 0) = false ∧ s.reqF (mailKey 0 0) 0 6 0 = 71 ∧ s.fitted 71 = true ∧
      (s.core 71).fenced = false) ∧
    (let s := { admS 0 0x29 [71] with cores := [(71, { fenced := true })] }
     s.starts 0 0 0x29 ∧ coreReserved s (mailKey 0 0) = false ∧ s.reqF (mailKey 0 0) 0 6 0 = 71 ∧ s.fitted 71 = true ∧
      (s.core 71).fenced = true) ∧
    (let s := admS 0 0x2A [1]
     s.starts 0 0 0x2A ∧ s.reqF (mailKey 0 0) 0 63 1 = 0 ∧ s.tailZero (mailKey 0 0) 1 = true ∧ s.resetRun = none) ∧
    (let r : ResetRun := { fn := 0, slot := 0, verify := true, zeroed := true }
     let s := { fwS with resetRun := some r }
     s.fwRuns = true ∧ s.resetRun = some r ∧ r.zeroed = true) := by
  unfold State.starts
  decide
theorem test_hyp_AdminQueuesAndFences_4 :
    (let s := admS 0 0x20 [BitVec.ofNat 64 (3 * 2 ^ 60 + 16 * 2 ^ 55 + 2 ^ 28), 4096]
     let r := fun hi lo => s.reqF (mailKey 0 0) 0 hi lo
     s.starts 0 0 0x20 ∧ r 27 0 = 0 ∧ s.tailZero (mailKey 0 0) 2 = true ∧ r 63 60 = 3 ∧
      createOk s 0 (r 63 60) (r 59 55) (r 54 54) (r 53 46) (r 45 39) (r 38 28) (s.req (mailKey 0 0) 1) = true) ∧
    (let s := admS 0 0x20 [BitVec.ofNat 64 (4 * 2 ^ 60 + 16 * 2 ^ 55 + 2 ^ 28), 4096]
     let r := fun hi lo => s.reqF (mailKey 0 0) 0 hi lo
     s.starts 0 0 0x20 ∧ r 63 60 = 4 ∧
      createOk s 0 (r 63 60) (r 59 55) (r 54 54) (r 53 46) (r 45 39) (r 38 28) (s.req (mailKey 0 0) 1) = true) ∧
    (let s := admS 0 0x20 [BitVec.ofNat 64 (4 * 2 ^ 60), 4096]
     let r := fun hi lo => s.reqF (mailKey 0 0) 0 hi lo
     s.starts 0 0 0x20 ∧ r 63 60 < 5 ∧ r 27 0 = 0 ∧ s.tailZero (mailKey 0 0) 2 = true ∧
      createOk s 0 (r 63 60) (r 59 55) (r 54 54) (r 53 46) (r 45 39) (r 38 28) (s.req (mailKey 0 0) 1) = false) := by
  unfold State.starts
  decide
theorem test_hyp_AdminQueuesAndFences_5 :
    (let s := { admS 0 0x21 [BitVec.ofNat 64 (3 * 2 ^ 60)] with hq := some { ring := 0, log2 := 6, vector := 1 } }
     s.starts 0 0 0x21 ∧ s.reqF (mailKey 0 0) 0 63 60 = 3 ∧ s.reqF (mailKey 0 0) 0 53 46 = 0 ∧ s.hq.isSome = true) ∧
    (let s := { admS 0 0x21 [BitVec.ofNat 64 (4 * 2 ^ 60)] with fq := some { ring := 0, log2 := 6, vector := 1 } }
     s.starts 0 0 0x21 ∧ s.reqF (mailKey 0 0) 0 63 60 = 4 ∧ s.reqF (mailKey 0 0) 0 53 46 = 0 ∧ s.fq.isSome = true ∧
      s.anyDemand = false) ∧
    (let s := admS 0 0x21 [0]
     s.starts 0 0 0x21 ∧ s.reqF (mailKey 0 0) 0 63 60 = 0 ∧ s.openSq 0 0 = false) := by
  unfold State.starts
  decide
theorem test_hyp_AdminModesAndPolicies :
    (let s := admS 0 0x30 [31, BitVec.ofNat 64 (168 * 2 ^ 54), BitVec.ofNat 64 (60000 * 2 ^ 48 + 2 ^ 36)]
     s.starts 0 0 0x30 ∧ modeReserved s (mailKey 0 0) = false ∧ modeOk s (mailKey 0 0) = true ∧
      (s.mail (mailKey 0 0)).applied = 0 ∧ s.adminWaits = [] ∧ bit (s.req (mailKey 0 0) 0) 0 = true ∧
      bit (s.req (mailKey 0 0) 0) 4 = true) ∧
    (let s := admS 0 0x31 [400]
     s.starts 0 0 0x31 ∧ s.reqF (mailKey 0 0) 0 63 16 = 0 ∧ s.tailZero (mailKey 0 0) 1 = true) ∧
    (let s := admS 0 0x32 [0]
     s.starts 0 0 0x32 ∧ s.reqF (mailKey 0 0) 0 31 0 = 0 ∧ s.tailZero (mailKey 0 0) 1 = true) := by
  unfold State.starts
  decide
theorem test_hyp_AdminFirmware :
    (let s := admS 0 0x50 [0, BitVec.ofNat 64 (8 * 2 ^ 32 + 8), 0]
     s.starts 0 0 0x50 ∧ s.reqF (mailKey 0 0) 2 63 1 = 0 ∧ s.tailZero (mailKey 0 0) 3 = true ∧
      s.reqF (mailKey 0 0) 1 63 32 % 8 = 0 ∧ s.reqF (mailKey 0 0) 1 31 0 % 8 = 0 ∧
      s.reqF (mailKey 0 0) 1 63 32 + s.reqF (mailKey 0 0) 1 31 0 ≤ 64 * 2 ^ 20 ∧ (HostRd.mk [] true).ok = true) ∧
    (let s := admS 0 0x51 [0]
     s.starts 0 0 0x51 ∧ s.reqF (mailKey 0 0) 0 63 32 = 0 ∧ s.tailZero (mailKey 0 0) 1 = true) := by
  unfold State.starts
  decide

/-! ### Hypotheses met: submissions and jobs -/

/-- An LC queue, its completion queue, and a JOB without cores with one BARRIER. -/
def lcQ : SubQ := { fn := 0, qid := 1, ring := 0, log2 := 6, lc := true, cq := 0, tail := 2 }
def jobD : List Word := BitVec.ofNat 64 (2 ^ 56 + 2 * 2 ^ 45) :: List.replicate 15 0
def barD : List Word := BitVec.ofNat 64 (3 * 2 ^ 56) :: List.replicate 15 0
def subS (d : List Word) : State := { fwS with
  model := true
  link := { bme := 1 }
  sqs := [lcQ]
  cqs := [{ fn := 0, cid := 0, ring := 0, log2 := 6, vector := 1 }]
  dbuf := [⟨0, 1, 0, some jobD, none⟩, ⟨0, 1, 1, some d, none⟩]
  hedges := (List.range 12).map (fun h => (h, ({ vsetMv := 700 } : Hedge))) }

theorem test_hyp_Submissions :
    (let s : State := { subS [] with dbuf := [] }
     s.powered = true ∧ s.nextBurstOf true = some lcQ) ∧
    (let b : Burst := ⟨4, 0, 1, 0, 2⟩
     let s : State := { onS with bursts := [b] }
     s.powered = true ∧ s.bursts.find? (fun x => x.id == b.id) = some b) ∧
    (let s := subS barD
     s.fwRuns = true ∧ s.sched.state = .admitting ∧ s.model = true ∧ s.swapDue = false ∧ s.nextParse true = some lcQ) := by decide
theorem test_hyp_Submissions_parse :
    (let s := subS barD
     let descs := [jobD, barD]
     let w := walkCmds s ⟨descs, true, fld (wd jobD 0) 44 38, s.routines.active, bit (wd jobD 0) 35⟩ 2 1 0 false
     (List.range 2).map (fun i => (s.dentry lcQ i).bind (·.words)) = descs.map some ∧
      firstFail (jobFails s jobD true w.1 ++ w.2) = none) ∧
    (let s := subS jobD
     let descs := [jobD, jobD]
     let w := walkCmds s ⟨descs, true, fld (wd jobD 0) 44 38, s.routines.active, bit (wd jobD 0) 35⟩ 2 1 0 false
     (List.range 2).map (fun i => (s.dentry lcQ i).bind (·.words)) = descs.map some ∧
      firstFail (jobFails s jobD true w.1 ++ w.2) = some (3, 1)) := by decide

/-- A live job 7 of CID 5 on core 0 with commands `l`. -/
def job7 (l : List JobCmd) : Job :=
  { id := 7, fn := 0, sq := 0, cq := 0, cid := 5, lc := true, tag := 0, ndesc := 1, cores := [0], cmds := l,
    tailDef := false, usesUpdate := false, digest := false, digestAddr := 0, stopAfter := 0, liveK := 0, binds := [],
    repro := false, bank := 0, soloSteps := 0, boundSteps := 0, admitted := 0, sqHead := 0, sig := 0 }
def cmdW (i t : Nat) (w : List Word) (st : CmdState) : JobCmd :=
  { idx := i, type := t, words := w, seg := 0, state := st }
def jobS (l : List JobCmd) : State := { fwS with jobs := [job7 l] }

theorem test_hyp_JobCommands :
    (let k := cmdW 1 2 [] .waiting
     let s := jobS [k]
     s.powered = true ∧ s.job 7 = some (job7 [k]) ∧ (job7 [k]).cmd? 1 = some k ∧ (job7 [k]).status = none ∧ k.type = 2 ∧
      s.fwRuns = true ∧ s.sched.state ≠ .faulted ∧ s.nextRelay = some (7, 1)) ∧
    (let k := cmdW 2 3 [] .waiting
     let j := job7 [cmdW 1 4 [] .done, k]
     j.cmd? 2 = some k ∧ k.type = 3 ∧ j.mayStart k = true ∧ ∀ e ∈ j.cmds, e.idx < 2 → e.state = .done) ∧
    (let k := cmdW 2 3 [] .waiting
     let j := job7 [cmdW 1 4 [] .waiting, k]
     j.cmd? 2 = some k ∧ ∃ e ∈ j.cmds, e.idx < 2 ∧ e.state ≠ .done) ∧
    (let k := cmdW 1 4 [] .waiting
     let j := job7 [k]
     j.cmd? 1 = some k ∧ k.type = 4 ∧ j.mayStart k = true ∧ (jobS [k]).mayBegin (j.coreOf k.slot) 7 = true) ∧
    (let k := cmdW 1 5 [] .running
     (job7 [k]).cmd? 1 = some k ∧ k.type = 5 ∧ k.state = .running) ∧
    (let k := cmdW 1 5 [] .waiting
     (job7 [k]).cmd? 1 = some k ∧ (job7 [k]).mayStart k = true ∧ (parseCopy k.words).dk ≠ 2) ∧
    (let k := cmdW 1 5 [BitVec.ofNat 64 (2 ^ 53)] .running
     let s := jobS [k]
     (parseCopy k.words).dk = 2 ∧ s.mayBegin ((job7 [k]).coreOf (parseCopy k.words).ds) 7 = true ∧
      ({ s with cores := [(0, { resident := some 9 })] } : State).mayBegin ((job7 [k]).coreOf (parseCopy k.words).ds) 7 = false) := by
  decide
theorem test_hyp_JobCommands_copy :
    (let m : CopyD := ⟨1, 0, 0, 0, 0, 64, 64⟩
     (tileWalk (jobS []) (m.unit 0) 5 [(m.src + 4096 * 0, min 4096 (m.len - 4096 * 0), false)] []).2 = .bad stProtection ∧
      m.sk = 1 ∧ m.dk ≠ 1) ∧
    (let m : CopyD := ⟨2, 0, 0, 0, 0, 64, 64⟩
     m.sk = 2 ∧ m.dk = 0) := by decide
theorem test_hyp_JobEnds :
    (let j := { job7 [] with status := some stOk }
     let s : State := { fwS with jobs := [j] }
     s.fwRuns = true ∧ s.job 7 = some j ∧ j.status.isSome = true ∧ s.behind j = false ∧ s.unissued j = false) ∧
    (let j := { job7 [] with status := some stOk, hostWin := true }
     ({ fwS with link := { held := [(0, .dma 0 0 [] true false)] } } : State).unissued j = true) ∧
    (let j := { job7 [] with status := some stOk, endSeq := 2 }
     let s : State := { fwS with jobs := [{ job7 [] with id := 6, status := some stOk, endSeq := 1 }, j] }
     s.job 7 = some j ∧ s.behind j = true) ∧
    (let j := job7 [cmdW 1 3 [] .waiting]
     j.status = none ∧ j.allDone = false) ∧
    (let j := job7 []
     let s : State := { fwS with jobs := [j] }
     s.job 7 = some j ∧ j.allDone = true ∧ ∀ x ∈ s.jobs, x.id ≠ 7 → x.status = none) := by decide
theorem test_hyp_MovesAndTranspositions :
    (let s : State := { onS with cores := [(0, { qMove := [⟨[PWord.bad], 0, ow, false, 0⟩] })] }
     s.powered = true ∧ (s.core 0).qMove = [⟨[PWord.bad], 0, ow, false, 0⟩] ∧ s.tileWaits ow (some 0) none = false ∧
      s.moveTurn 0 ⟨[PWord.bad], 0, ow, false, 0⟩ = true ∧
      anyPoison [PWord.bad] = true) ∧
    (anyPoison [] = false ∧ moveRefusal (pdata []) = some stBadDescriptor) ∧
    (let d : List PWord := [.good (BitVec.ofNat 64 (2 ^ 60 + 64))]
     anyPoison d = false ∧ moveRefusal (pdata d) = none) ∧
    (let e : QEntry := ⟨[], 0, { ow with lc := false }, false, 0⟩
     let s : State := { onS with cores := [(0, { qMove := [e] }), (2, { qMove := [⟨[], 0, ow, false, 0⟩] })] }
     s.moveTurn 0 e = false ∧ s.moveWaits 2 true = true ∧ moverOf 2 = moverOf 0) ∧
    (let e : QEntry := ⟨[], 0, ow, true, 1⟩
     let s : State := { onS with cores := [(0, { qMove := [e] })] }
     s.tileWaits ow (some 0) none = false ∧ e.begun = true ∧ (parseMove (pdata e.desc)).tiles ≤ e.tilesDone ∧ s.quiet ow = true) ∧
    (let r : LReq := { txn := 0, peer := 1, lc := true, kind := 2, psn := 0, owner := some ow, bag := none, core := none,
                       dst := 0, pa := none, got := [] }
     ({ onS with fab := { reqs := [r] } } : State).quiet ow = false) := by decide
theorem test_hyp_MovesAndTranspositions_tile :
    (let m := parseMove [BitVec.ofNat 64 (2 ^ 60 + 64)]
     let s := xlS stValid
     m.transp = false ∧ m.srcSp = false ∧ m.dstSp = true ∧
      (tileWalk s (uMover (moverOf 0)) 0 [(m.src + 4096 * 0, min 4096 (m.len - 4096 * 0), false)] []).2 = .bad stProtection) ∧
    (let m := parseMove [BitVec.ofNat 64 (2 ^ 60 + 64)]
     let s := xlS stValid
     let o : Owner := ⟨0, 0, 1, true, false⟩
     let s := { s with hedges := (List.range 12).map (fun h => (h, ({ privet := [(0, 1)] } : Hedge))) }
     let n := min 4096 (m.len - 4096 * 0)
     let s := (tileWalk s (uMover (moverOf 0)) o.cid [(m.src + 4096 * 0, n, false)] []).1
     (tileWalk s (uMover (moverOf 0)) o.cid [(m.src + 4096 * 0, n, false)] []).2 = .ok ∧
      (gather s o [] (spans s (uMover (moverOf 0)) o.cid m.src n false)).2 = some (List.replicate 8 (.good 0)) ∧
      n = 8 * (List.replicate 8 (PWord.good 0)).length ∧
      (verifyTile (gather s o [] (spans s (uMover (moverOf 0)) o.cid m.src n false)).1 (uMover (moverOf 0)) o.cid m.src m.len
        m.src n).2 = none) := by decide
theorem test_hyp_MovesAndTranspositions_transposed :
    (let rows := List.replicate 32 (List.replicate 2 (PWord.good 0))
     rows.length = 32 ∧ ∀ row ∈ rows, row.length = 4 * 2 ^ 0 / 2 ∧ anyPoison row = false) := by decide

/-! ### Hypotheses met: cores -/

/-- Core 3 stands at the op word `w` with A0 = 7 and a loop of two turns open; job 0 is alive. -/
def seqV : Invocation := ⟨ow, 0, 1, 5, [7], [], [⟨0, 2, 5, 6⟩], .running⟩
def seqS (w : Word) (k : Core) : State := { onS with
  cores := [(3, { k with seq := some seqV })]
  routines := { words := [(5, w)] }
  jobs := [{ job7 [] with id := 0, cid := 1 }] }

theorem test_hyp_SeqScalar :
    (seqS (BitVec.ofNat 64 (0x13 * 2 ^ 56)) {}).atOp 3 seqV (BitVec.ofNat 64 (0x13 * 2 ^ 56)) ∧
    opCode (BitVec.ofNat 64 (0x13 * 2 ^ 56)) = 0x13 ∧ opCode (BitVec.ofNat 64 (0x10 * 2 ^ 56)) = 0x10 ∧
    (seqS 0 {}).job seqV.owner.job = some { job7 [] with id := 0, cid := 1 } := by
  unfold State.atOp
  decide
theorem test_hyp_SeqControl :
    (seqS 0 {}).atOp 3 seqV 0 ∧ opCode 0 = 0 ∧
    (let v := { seqV with wait := .wait 1 0 }
     let s := { onS with cores := [(3, { seq := some v })] }
     s.powered = true ∧ (s.core 3).seq = some v ∧ v.wait = .wait 1 0 ∧ (s.core 3).waitHolds v.owner 1 0 = true) ∧
    (({ qArray := [⟨[], 0, ow, false, 0⟩] } : Core).waitHolds ow 1 0 = false) ∧
    ((0 : Nat) + 1 < 2 ∧ (2 : Nat) ≤ 1 + 1) ∧
    (let w : Word := BitVec.ofNat 64 (0x13 * 2 ^ 56 + 2 ^ 55 + 2 ^ 50)
     let s := seqS w {}
     s.powered = true ∧ s.running 3 = some seqV ∧ Tbl.get 0 s.routines.words (32768 * seqV.bank + seqV.pc) = w ∧
      Tbl.get 0 (s.core 3).storeSyn (32768 * seqV.bank + seqV.pc) = 0 ∧ seqV.holds w = false ∧ opCode w = 0x13) ∧
    (let w : Word := BitVec.ofNat 64 (0x02 * 2 ^ 56 + 2 ^ 55 + 2 ^ 50)
     seqV.holds w = false ∧ opCode w = 0x02) := by
  unfold State.atOp
  decide
theorem test_hyp_SeqMemory :
    (let w : Word := BitVec.ofNat 64 (0x30 * 2 ^ 56 + 15 * 2 ^ 45 + 20971512)
     (seqS w {}).atOp 3 seqV w ∧ opCode w = 0x30 ∧ spRange (seqV.addr w) 8 8 = true) ∧
    (let w : Word := BitVec.ofNat 64 (0x31 * 2 ^ 56 + 15 * 2 ^ 45)
     opCode w = 0x31 ∧ spRange (seqV.addr w) 64 64 = true ∧ spRange (seqV.src1 0).toNat 64 64 = false) ∧
    (let w : Word := BitVec.ofNat 64 (0x32 * 2 ^ 56 + 15 * 2 ^ 45 + 31 * 2 ^ 40)
     opCode w = 0x32 ∧ spRange (seqV.addr w) 64 64 = true ∧ spRange (seqV.src1 w).toNat 64 64 = true) ∧
    (let w : Word := BitVec.ofNat 64 (0x33 * 2 ^ 56 + 15 * 2 ^ 45)
     opCode w = 0x33 ∧ (seqV.src1 w).toNat ≤ 327680 ∧ spRange (seqV.addr w) 64 (64 * (seqV.src1 w).toNat) = true) ∧
    (opCode (BitVec.ofNat 64 (0x51 * 2 ^ 56)) = 0x51 ∧
      spRange (seqV.addr (BitVec.ofNat 64 (0x51 * 2 ^ 56 + 15 * 2 ^ 45))) 8 8 = true) ∧
    (let w : Word := BitVec.ofNat 64 (0x50 * 2 ^ 56 + 9 * 2 ^ 32)
     let s : State := { onS with codebooks := [(9, some false)] }
     opCode w = 0x50 ∧ (∀ i, i ≤ fld w 49 44 → s.cbInstalled (fld w 43 32 + i) = true) ∧
      (∀ i, i ≤ fld w 49 44 → (s.cbStored (fld w 43 32 + i)).isSome = true) ∧
      ∃ i, i ≤ fld w 49 44 ∧ onS.cbInstalled (fld w 43 32 + i) = false) ∧
    (let w : Word := BitVec.ofNat 64 (0x30 * 2 ^ 56 + 4)
     (seqS w {}).atOp 3 seqV w ∧ opCode w = 0x30 ∧ spRange (seqV.addr w) 8 8 = false) := by
  unfold State.atOp
  decide
theorem test_hyp_IssueAndInvocations :
    (let w : Word := BitVec.ofNat 64 (0x40 * 2 ^ 56 + 15 * 2 ^ 45)
     (seqS w {}).atOp 3 seqV w ∧ spRange (seqV.addr w) 64 64 = true ∧ opCode w = 0x40 ∧
      (({} : Core).queue 0).length < queueDepth 0 ∧
      queueDepth 0 ≤ (({ qArray := List.replicate 8 ⟨[], 0, ow, false, 0⟩ } : Core).queue 0).length) ∧
    (let v := { seqV with wait := .issue 4 0 }
     let s := { onS with cores := [(3, { seq := some v })] }
     s.powered = true ∧ (s.core 3).seq = some v ∧ ((s.core 3).queue 4).length < queueDepth 4) ∧
    (let p : PendCall := ⟨ow, 0, 1, [], false⟩
     let s := { onS with cores := [(3, { callsLc := [p], callsBe := [p] })] }
     s.powered = true ∧ (s.core 3).seq = none ∧ s.mayBegin 3 p.owner.job = true ∧
      Tbl.get 0 s.routines.words (32768 * p.bank + p.routine) = 0 ∧
      Tbl.get 0 (s.core 3).storeSyn (32768 * p.bank + p.routine) = 0 ∧ (s.core 3).callsLc = [p] ∧
      (s.hedge (3 / 6)).beHeld = false) ∧
    (let v := { seqV with wait := .ret }
     let s := { onS with cores := [(3, { seq := some v })] }
     (s.core 3).seq = some v ∧ (s.core 3).waitHolds v.owner 31 0 = true ∧
      ({ qMove := [⟨[], 0, ow, false, 0⟩] } : Core).waitHolds v.owner 31 0 = false) := by
  unfold State.atOp
  decide
theorem test_hyp_IssueAndInvocations_live :
    (let s : State := { onS with
       cores := [(0, { resident := some 9, liveKept := [(8, 0)] })]
       jobs := [job7 [cmdW 1 4 [] .waiting], { job7 [] with id := 9, liveK := 1 }, { job7 [] with id := 8, liveK := 2 }] }
     s.powered = true ∧ (s.core 0).resident = some 9 ∧ s.beginner 0 9 = some true ∧ (s.core 0).seq = none ∧
      s.savePlace 0 (s.liveK 9) = 2) ∧
    (let p : PendCall := ⟨{ ow with job := 9 }, 0, 1, [], false⟩
     let s : State := { onS with cores := [(0, { liveKept := [(9, 3)], callsBe := [p] })] }
     s.powered = true ∧ (s.core 0).resident = none ∧ (s.core 0).seq = none ∧ s.toRestore 0 = some 9) := by decide

/-! ### Hypotheses met: engines of a core -/

/-- Queues of core 3 with one entry of eight words; job 0 is alive. -/
def entryOf (d : List Nat) : QEntry := ⟨d.map (fun n => .good (BitVec.ofNat 64 n)), 64, ow, false, 0⟩

/-- INT8 weights and activations, one row, one column, one vector, FIRST and LAST, INT32 output (R213). -/
def arrD (axis : Nat) : List Nat :=
  [7 * 2 ^ 60 + 7 * 2 ^ 56 + 5 * 2 ^ 52 + 2 ^ 51 + 2 ^ 50 + axis * 2 ^ 49, 2 ^ 48 + 4096, 0, 65536, 0, 2 * 2 ^ 48 + 8192, 0, 0]

/-- What the statement asks of a descriptor that runs. -/
@[reducible] def arrHyp (s : State) (e : QEntry) : Prop :=
  let d := parseArr (pdata e.desc)
  s.powered = true ∧ (s.core 3).qArray = [e] ∧ anyPoison e.desc = false ∧ arrRefusal s 3 e.owner (pdata e.desc) = none ∧
  d.aScaled = false ∧ d.wScaled = false ∧ (∀ r, r < d.rows → s.spPoison 3 (d.tileRow r).1 (d.tileRow r).2 = false) ∧
  (∀ m, m < d.m → s.spPoison 3 (d.aVec m) d.aSize = false) ∧ d.last = true ∧ d.ofmt = 5 ∧
  s.spPoison 3 d.oAddr ((d.m - 1) * d.oStride + d.oSize) = false ∧ 0 < d.m ∧ 0 < d.cols ∧ (s.job e.owner.job).isSome = true ∧
  isCb d.wf = false ∧
  (let f : ArrFault := ⟨.sum, 0, 0, 0, 1⟩
   let tile := (List.range d.rows).map (fun r => (List.range d.cols).map (fun j =>
     unitVals s 3 d j (slice (s.sp 3 (d.tileRow r).1 (d.tileRow r).2) (j * d.recBytes) d.recBytes)))
   let x := vectorVals d (if d.axis then d.cols else 32 * d.rows) (s.sp 3 (d.aVec 0) d.aSize)
   ArrFault.strikes f d d.m = true ∧ ArrFault.caught f d tile x (Tbl.get 0 (s.core 3).accRes (accKey 0 d.base)) = true)

def coreS (k : Core) : State := { onS with cores := [(3, k)], jobs := [{ job7 [] with id := 0, cid := 1 }] }

theorem test_hyp_ArrayUnit_pass : arrHyp (coreS { qArray := [entryOf (arrD 0)] }) (entryOf (arrD 0)) := by decide
theorem test_hyp_ArrayUnit_axis : (parseArr (pdata (entryOf (arrD 0)).desc)).axis = false ∧
    (parseArr (pdata (entryOf (arrD 1)).desc)).axis = true := by decide
theorem test_hyp_ArrayUnit_other :
    (let e := { entryOf (arrD 1) with owner := { ow with cid := 0 } }
     arrHyp (coreS { qArray := [e] }) e) := by decide
theorem test_hyp_ArrayUnit_refused : anyPoison [PWord.bad] = true ∧
    arrRefusal onS 3 ow (pdata (entryOf []).desc) = some stBadDescriptor ∧
    (parseArr (pdata (entryOf []).desc)).axis = false ∧ (parseArr (pdata (entryOf [2 ^ 49]).desc)).axis = true := by decide
/-- A CB16 pass under codebook 9, whose record in the store is poison. -/
theorem test_hyp_ArrayUnit_book :
    (let e := entryOf [10 * 2 ^ 60 + 7 * 2 ^ 56 + 5 * 2 ^ 52 + 2 ^ 51 + 2 ^ 50 + 9 * 2 ^ 6, 2 ^ 48 + 4096, 0, 65536, 0,
       2 * 2 ^ 48 + 8192, 0, 0]
     let s := { coreS { qArray := [e] } with
       codebooks := [(9, some false)], dram := { syn := [(codebookAt 9 / 8, 0xFE)] } }
     let d := parseArr (pdata e.desc)
     isCb d.wf = true ∧ arrRefusal s 3 e.owner (pdata e.desc) = none ∧ d.axis = false ∧
      (coreCbs 3 ((List.range d.cols).map d.cbAt).dedup s).2 = false ∧
      (coreCbs 3 ((List.range d.cols).map d.cbAt).dedup { s with dram := {} }).2 = true) := by decide +kernel
theorem test_hyp_ArrayUnit_refusedAxis :
    arrRefusal onS 3 ow (pdata (entryOf [2 ^ 49]).desc) = some stBadDescriptor := by decide

/-- op over FP32 streams at 0, 4096 and 8192, one row of one element (R234, R235). -/
def vecD (op : Nat) : List Nat := [op * 2 ^ 56, 2 ^ 44 + 2 ^ 28, 2 ^ 44 + 2 ^ 28 + 4096, 2 ^ 44 + 2 ^ 28 + 8192, 0, 0, 0, 0]

theorem test_hyp_VectorOps :
    (let e := entryOf (vecD 1)
     let s := coreS { qVector := [e] }
     let d := parseVec (pdata e.desc)
     s.powered = true ∧ (s.core 3).qVector = [e] ∧ anyPoison e.desc = false ∧ d.op = 1 ∧ d.op ≠ 2 ∧
      (vKind d.op).isSome = true ∧ vecRefusal s (pdata e.desc) = none ∧ vKind 1 = some .binary ∧ d.scaled = false ∧
      (coreCbs 3 (d.cbs .binary) s).2 = true ∧ 0 < d.rows ∧ 0 < min d.cols (d.rate .binary) ∧
      (∀ r, r < d.rows → ∀ p ∈ d.a.parts r d.cols, s.spPoison 3 p.1 p.2 = false) ∧
      (∀ r, r < d.rows → ∀ p ∈ d.b.parts r d.cols, s.spPoison 3 p.1 p.2 = false) ∧
      (s.job e.owner.job).isSome = true) ∧
    (let e := entryOf [2 ^ 56 + 2 ^ 52 * 15]
     (parseVec (pdata e.desc)).op = 1 ∧ vecRefusal onS (pdata e.desc) = some stReservedNonzero) := by decide
/-- A CONVERT from a CB16 stream under codebook 9, whose record in the store is poison. -/
theorem test_hyp_VectorOps_book :
    (let e := entryOf [0x40 * 2 ^ 56, 0xA * 2 ^ 60 + 2 ^ 44 + 2 ^ 28, 0, 2 ^ 44 + 2 ^ 28 + 8192, 0, 0, 0, 0]
     let d := parseVec (pdata e.desc)
     let s := { coreS { qVector := [e] } with codebooks := [(d.acb, some false)], dram := { syn := [(codebookAt d.acb / 8, 0xFE)] } }
     vecRefusal s (pdata e.desc) = none ∧ vKind d.op = some .convert ∧ (coreCbs 3 (d.cbs .convert) s).2 = false) := by
  decide +kernel
theorem test_hyp_VectorOps_lane : Instr.vecAdd 3 (some (0, 0)) ≠ Instr.vecAdd 3 none := by
  intro h
  cases h
theorem test_hyp_VectorOps_rows :
    (let e := entryOf (vecD 1)
     let d := parseVec (pdata e.desc)
     (vecRows 3 e d .binary none d.rows 0 { walk := { next := d.aBlk, addr := d.b.addr }, scales := [] }
       (coreS { qVector := [e], scratch := { syn := [(0, 0xFE)] } })).2 = false ∧
      (vecRows 3 e d .binary none d.rows 0 { walk := { next := d.aBlk, addr := d.b.addr }, scales := [] }
       (coreS { qVector := [e] })).2 = true) := by decide
theorem test_hyp_VectorRows :
    (let d := parseVec (pdata (entryOf (vecD 1)).desc)
     (∀ p ∈ d.a.parts 0 d.cols, (coreS {}).spPoison 3 p.1 p.2 = false) ∧
      (∀ p ∈ d.b.parts 0 d.cols, (coreS {}).spPoison 3 p.1 p.2 = false) ∧ d.scaled = false ∧
      ∃ p ∈ d.a.parts 0 d.cols, (coreS { scratch := { syn := [(0, 0xFE)] } }).spPoison 3 p.1 p.2 = true) := by decide
theorem test_hyp_VectorRows_quant : (d32 0x7F800000).isFinite = false ∧ (d32 0).isZero = true := ⟨rfl, rfl⟩

/-! ### Hypotheses met: lookups -/

/-- Version slot 4 (table 1, slot 0) is an INT8 table of eight rows of eight elements; job 0 is bound to it. -/
def tabS (k : Core) : State := { onS with
  cores := [(3, k)]
  slots := [(4, { state := .current, entry := { valid := true, format := 7, elems := 8, rowCount := 8, baseVa := 65536 } })]
  jobs := [{ job7 [] with id := 0, cid := 1, binds := [(1, 4)] }] }
def lookW : List Nat := [2 ^ 52 + 2, 4096, 0, 2 ^ 48 + 8192, 0, 12288, 0, 0]
def lk : Lookup := { id := 3, core := 3, engine := 1, owner := ow, desc := pdata (entryOf lookW).desc, key := 4 }
def bagOf (idx : Option (List Nat)) : Bag :=
  { id := 9, home := none, lookup := 3, core := 3, bagNo := 0, engine := 1, owner := ow, key := 4, idx64 := false,
    indices := idx, intPath := true, wide := false, ordered := false, dflt := false }

theorem test_hyp_LookupDescriptors :
    (let s := tabS { qLookup := [⟨[PWord.bad], 0, ow, false, 0⟩] }
     s.powered = true ∧ s.opening 3 = none ∧ (s.core 3).qLookup.find? (fun x => !x.begun) = some ⟨[PWord.bad], 0, ow, false, 0⟩ ∧
      anyPoison [PWord.bad] = true) ∧
    (let s := tabS { qLookup := [entryOf lookW] }
     s.opening 3 = none ∧ (s.core 3).qLookup.find? (fun x => !x.begun) = some (entryOf lookW) ∧
      anyPoison (entryOf lookW).desc = false ∧ s.bound ow.job (fld (wd (pdata (entryOf lookW).desc) 0) 63 52) = some 4 ∧
      lookRefusal s (some 4) (pdata (entryOf lookW).desc) = none ∧
      lookRefusal s none (pdata (entryOf lookW).desc) = some stBadDescriptor) ∧
    (let s := { tabS {} with lookups := [lk] }
     s.powered = true ∧ s.opening 3 = some lk ∧ s.tileWaits lk.owner (some 3) none = false) ∧
    (let s := { tabS {} with lookups := [lk], xl := { waiting := [⟨1, 0, 5, ow, some 3, none, 0, false⟩] } }
     s.opening 3 = some lk ∧ s.tileWaits lk.owner (some 3) none = true) ∧
    ((2 : Nat) ^ 32 - 1 = 2 ^ (if (bagOf none).idx64 then 64 else 32) - 1 ∧
      ((tabS {}).slot (bagOf none).key).entry.rowCount ≤ 8 ∧ 7 < ((tabS {}).slot (bagOf none).key).entry.rowCount) := by
  decide
theorem test_hyp_LookupDescriptors_classify :
    (let b := bagOf (some [7])
     let s := { tabS {} with bags := [b] }
     let u := walkPages s b.unit b.owner.cid [((s.slot b.key).entry.rowVa 7, (s.slot b.key).entry.stride, false)]
     s.bag 9 = some b ∧ 7 < (s.slot b.key).entry.rowCount ∧ b.place u 7 = (.bad stProtection, false)) ∧
    (let b := bagOf (some [8, 7])
     let s := { tabS {} with bags := [b] }
     s.bag 9 = some b ∧ b.indices = some [8, 7] ∧ b.home = none ∧ s.lives b.owner.job = true ∧
      b.place s 8 = (.invalid, false) ∧ (∀ st, RowAt.invalid ≠ .bad st) ∧ (∀ k p, RowAt.invalid ≠ .wait k p) ∧
      ∀ m, RowAt.invalid ≠ .remote m) := by
  refine ⟨by decide, ⟨by decide, by decide, by decide, by decide, by decide, ?_, ?_, ?_⟩⟩ <;> intros <;> nofun
theorem test_hyp_Pooling :
    (let b := bagOf none
     let p : Piece := { id := 2, bag := 9, stack := 0, owner := some 0, lc := true, sent := true, seqNo := 0, rows := [(0, 0)] }
     let s := { tabS {} with bags := [b], pieces := [p] }
     s.powered = true ∧ s.mayPool p = true ∧ s.mayPool { p with sent := false } = false ∧ s.pieces.find? (fun q => q.id == p.id) = some p ∧ s.bag p.bag = some b ∧ s.pieceStop b p = some 0 ∧
      p.cut = false ∧ b.id = p.bag ∧ ¬(p.cut = true ∧ p.pools = [] ∧ p.got.length = p.total)) ∧
    (let b := bagOf none
     let p : Piece := { id := 2, bag := 9, stack := 0, owner := some 0, lc := true, sent := true, seqNo := 0, rows := [], cut := true }
     let s := { tabS {} with bags := [b], pieces := [p] }
     s.pieceStop b p = none ∧ p.cut = true ∧ p.pools = [] ∧ p.got.length = p.total) ∧
    (let b := { bagOf none with got := [⟨(0, 0, 0), .ints [1], 1, 0, false⟩] }
     b.intPath = true ∧ b.wide = b.wide ∧ ∀ k ∈ b.got, k.part = .ints [1]) := by decide
/-- A CB16 table under codebook 9, whose record in the store is poison. -/
theorem test_hyp_Pooling_book :
    (let s := { tabS {} with
       slots := [(4, { state := .current, entry := { valid := true, format := 0xA, elems := 8, rowCount := 8, baseVa := 65536, codebookId := 9 } })]
       dram := { syn := [(codebookAt 9 / 8, 0xFE)] } }
     isCb (s.slot 4).entry.format = true ∧ (hedgeCb 0 (s.slot 4).entry.codebookId s).2 = false ∧
      (hedgeCb 0 (s.slot 4).entry.codebookId { s with dram := {} }).2 = true) := by decide +kernel
theorem test_hyp_Bags :
    (let b := bagOf (some [])
     let s := { tabS {} with bags := [b] }
     s.powered = true ∧ s.bag 9 = some b ∧ ¬(b.indices = none ∧ b.left = 0 ∧ b.remote = [] ∧ b.tails = [])) ∧
    (let b := bagOf none
     let l := { lk with bagsOpen := 2 }
     let s := { tabS {} with bags := [b], lookups := [l] }
     let k := b.total 8
     s.bag 9 = some b ∧ (b.indices = none ∧ b.left = 0 ∧ b.remote = [] ∧ b.tails = []) ∧ b.home = none ∧
      s.lookups.find? (fun x => x.id == b.lookup) = some l ∧ (parseLook l.desc).counts = false ∧ 1 < l.bagsOpen ∧
      ((parseLook l.desc).out + b.bagNo * (parseLook l.desc).stride) % 8 = 0 ∧ k.pooled = 0 ∧ k.poison = false) ∧
    (let b := { bagOf none with got := [⟨(0, 0, 0), .ints [1], 1, 0, true⟩] }
     (b.total 8).poison = true) ∧
    ({ bagOf none with home := some (1, 2, true) }.home = some (1, 2, true)) := by decide
theorem test_hyp_TailsAndRunAhead :
    (let b := { bagOf none with tails := [{ pos := 0, space := 1, off := 0 }] }
     let s := { tabS {} with bags := [b] }
     s.powered = true ∧ s.bag 9 = some b ∧ s.privetOk b.owner.cid 1 0 false = false) ∧
    (let b := { bagOf none with tails := [{ pos := 0, space := 1, off := 0 }] }
     let s := { tabS {} with bags := [b], xl := { hostPrivet := [(0, 1)] } }
     s.privetOk b.owner.cid 1 0 false = true ∧ s.privetOk b.owner.cid 1 7 false = true) ∧
    (let r : TailRow := { pos := 0, space := 1, off := 0, state := .here [.good 1] }
     let b := { bagOf none with tails := [r] }
     let s := { tabS {} with bags := [b] }
     b.tails.find? (fun q => q.pos == 0) = some r ∧ tailWords s b r 8 = some [.good 1] ∧
      tailWords s b { r with state := .wanted } 8 = none) ∧
    (let f : TFill := ⟨5, 1, 0, 0, 1, List.replicate 8 (.good 0), false⟩
     let s : State := { onS with hedges := [(0, { fills := [f] })] }
     s.powered = true ∧ (s.hedge 0).fills.find? (fun g => g.id == f.id) = some f ∧ f.lines ≤ 24576) ∧
    (let t : WaitTile := ⟨1, 0, nodeAt 3, ow, some 3, none, 0, false⟩
     let s : State := { xlS stValid with xl := { (xlS stValid).xl with waiting := [t] } }
     s.powered = true ∧ s.xl.waiting.find? (fun x => x.id == t.id) = some t ∧ pteState (s.node t.leaf) = stValid) ∧
    (let t : WaitTile := ⟨1, 0, nodeAt 3, { ow with job := 7 }, some 3, none, 0, false⟩
     let s : State := { xlS stInvalid with xl := { (xlS stInvalid).xl with waiting := [t] }, jobs := [job7 []] }
     pteState (s.node t.leaf) = stInvalid ∧ t.bag = none ∧ t.owner.job ≠ 0 ∧
      (failJob { s with xl := { s.xl with waiting := [] } } t.owner stUnmapped).xl.waiting.any (fun x => x.id == t.id) = false) := by
  decide
theorem test_hyp_TailsAndRunAhead_runAhead :
    (let s := { xlS stValid with
       hedges := (List.range 12).map (fun h => (h, ({ privet := [(0, 1)] } : Hedge)))
       cores := [(3, { scratch := { bytes := [(4, 1)] } })]
       slots := [(4, { state := .current, entry := { valid := true, format := 7, elems := 8, rowCount := 8, baseVa := 0 } })]
       lookups := [lk] }
     s.powered = true ∧ s.lookups.find? (fun x => x.engine == 1 && decide (x.nextBag < (parseLook x.desc).nbags)) = some lk ∧
      lk.nextBag ≤ 0 ∧ 0 < (parseLook lk.desc).nbags ∧ peekIndex s lk 0 0 = some 0 ∧
      rowAt s (uSlalom 1) lk.owner.cid (s.slot lk.key).entry false 0 = .dram 0 ∧ s.privetOk lk.owner.cid 0 0 false = true ∧
      (s.chan (s.channel 0)).room false = true) := by decide

/-! ### Hypotheses met: updates, row writes, scatters -/

/-- A close of job 7 by its command 1 over the version in slot 4. -/
def closeV (p : ClosePhase) : Close := ⟨7, 1, [4], 0, 1, 9, 0, 0, p, 1, 0, [], [], [], [], []⟩
/-- The version in slot 4 is trainable, its rows and staging in page 0 of local DRAM. -/
def updT : UpdEntry :=
  { stageVa := 4096, keysVa := 8192, listVa := 16384, countVa := 12288, stateVa := 0, masterVa := 0 }
def updS (c : Close) (l : List Host.Cell) (y : Tbl (BitVec 8)) : State := { xlS stValid with
  hedges := (List.range 12).map (fun h => (h, ({ privet := [(0, 1)] } : Hedge)))
  slots := [(4, { state := .current, upd := some updT,
                  entry := { valid := true, format := 0, elems := 8, rowCount := 8, baseVa := 0 } })]
  dram := { bytes := l ++ (xlDram stValid).bytes, syn := y }
  jobs := [{ job7 [cmdW 1 7 [BitVec.ofNat 64 (2 ^ 48 + 2 ^ 32), 1] .running] with cid := 1, binds := [(1, 4)] }]
  upd := { closes := [c] } }

theorem test_hyp_StepCloses :
    (let k := cmdW 1 7 [BitVec.ofNat 64 (2 ^ 48 + 2 ^ 32), 1] .waiting
     let s := jobS [k]
     s.fwRuns = true ∧ s.job 7 = some (job7 [k]) ∧ (job7 [k]).cmd? 1 = some k ∧ k.type = 7 ∧ (job7 [k]).mayStart k = true ∧
      s.mustFollow (job7 [k]) k 6 = false ∧
      ∀ m, m < 64 → (wd k.words 1).getLsbD m = true → m = s.moduleNo ∨ s.hasPath m = true) ∧
    (let s : State := { fwS with upd := { closes := [closeV .arriving], arrive0 := 1 } }
     s.fwRuns = true ∧ s.closeOf 7 = some (closeV .arriving) ∧ (closeV .arriving).phase = .arriving ∧
      (((closeV .arriving).peers : Int) ≤ (s.arrive (closeV .arriving).parity).toInt)) ∧
    (let s : State := { fwS with upd := { closes := [closeV .arriving] } }
     (s.arrive (closeV .arriving).parity).toInt < (closeV .arriving).peers) := by decide
theorem test_hyp_StepCloses_engine :
    (let c := closeV .walking
     let s := updS c [] []
     s.powered = true ∧ s.upd.closes.find? (fun c => c.phase == .walking && !c.engines.contains 0) = some c ∧
      (s.job c.job).isSome = true ∧ s.tileWaits ⟨7, c.idx, 1, true, false⟩ (some (uUpdate 0)) none = false ∧
      nextPlace s ⟨7, c.idx, 1, true, false⟩ 0 c (c.versions.length + 1) 0 0 = .ok none) ∧
    (let c := closeV .walking
     let s := updS c [(12288, 1), (16384, 5)] []
     nextPlace s ⟨7, c.idx, 1, true, false⟩ 0 c (c.versions.length + 1) 0 0 = .ok (some (0, 4, 0, 5))) ∧
    (let c := { closeV .walking with engines := List.range 12 }
     let s := updS c [] []
     s.fwRuns = true ∧ s.closeOf 7 = some c ∧ (s.job 7).isSome = true ∧ c.phase = .walking ∧ (∀ h, h < 12 → h ∈ c.engines) ∧
      s.upd.heldGrads = []) := by decide
theorem test_hyp_UpdateRecurrence :
    (let c := closeV .walking
     let s := updS c [] []
     let a := slotVa (s.slot 4).entry updT (s.coef updT.group) 5 0
     wordOff s (uUpdate 0) 1 a.key = some 8232 ∧ partsStop s (uUpdate 0) 1 [(a.key, 8), a.stage] = none ∧
      (partsStop onS (uUpdate 0) 1 [(a.key, 8), a.stage]).isSome = true ∧ c.freeze.getLsbD updT.group = false ∧ ({ c with freeze := 1 } : Close).freeze.getLsbD updT.group = true ∧
      ((updS c [] [(1029, 0xFE)]).dramWord (8232 / 8)).poison = true) ∧
    (let r : RowCalc := { t := 0, s1 := [0], s2 := [0], s2row := 0, w := [0] }
     0 < ([0] : List (BitVec 32)).length ∧ r.s1.length = ([0] : List (BitVec 32)).length ∧ r.s2.length = 1 ∧ r.w.length = 1) ∧
    (0 : Nat) < 1 := by decide

/-- Job 7 writes row 2 of slot 4. -/
def rowK (st : CmdState) : JobCmd := cmdW 1 6 [BitVec.ofNat 64 (2 ^ 44 + 1), 0, 0, 0] st
def rowS (k : JobCmd) : State := { updS (closeV .walking) [] [] with
  upd := {}
  jobs := [{ job7 [k] with cid := 1, binds := [(1, 4)] }] }
theorem test_hyp_RowWritesAndScatters_begin :
    (let k := rowK .waiting
     let s := rowS k
     let j := { job7 [k] with cid := 1, binds := [(1, 4)] }
     s.powered = true ∧ s.job 7 = some j ∧ j.cmd? 1 = some k ∧ k.type = 6 ∧ j.mayStart k = true ∧ s.mustFollow j k 7 = false) ∧
    (let k := rowK .running
     let j := { job7 [k] with cid := 1, binds := [(1, 4)] }
     j.cmd? 1 = some k ∧ j.status = none ∧ k.state = .running ∧ (rowS k).tileWaits (ownerOf j 1) none none = false ∧
      (parseRowW [BitVec.ofNat 64 (2 * 2 ^ 44 + 1)]).target (rowS k) j = none) ∧
    (let k := { rowK .waiting with idx := 2 }
     let j := { job7 [cmdW 1 7 [] .waiting, k] with cid := 1, binds := [(1, 4)] }
     let s := { rowS k with jobs := [j] }
     j.cmd? 2 = some k ∧ k.state = .waiting ∧ s.mustFollow j k 7 = true) := by decide
theorem test_hyp_RowWritesAndScatters_rows :
    (let s := rowS (rowK .running)
     let t := (s.slot 4).entry
     let r : RowImg := ⟨some 2, List.replicate 8 (.good 0)⟩
     let va := t.rowVa 2
     [r].findSome? (rowFails s 1 t) = none ∧ rowWaits s 1 t [r] = none ∧ s.lives 7 = true ∧
      s.privetStop 1 true (spans s fwUnit 1 va (8 * r.image.length) true) = none ∧
      va / 65536 = (va + 8 * r.image.length - 1) / 65536 ∧ 0 < r.image.length ∧
      translate s fwUnit 1 va true = .ok 128 ∧ 128 % 8 = 0 ∧ s.route 128 = .dram ∧
      [({ r with index := none } : RowImg)].findSome? (rowFails s 1 t) = some stPoisoned) ∧
    ((rowWaits (xlS stDemand) 1 { valid := true, format := 0, elems := 8, rowCount := 8, baseVa := 0 } [⟨some 2, []⟩]).isSome = true) := by
  decide

/-- Core 3 scatters one BF16 gradient to table 1. -/
def scatW : List Nat := [2 ^ 52 + 2 ^ 48 + 1, 4096, 2 ^ 48 + 8192, 0, 0, 0, 0, 0]
def scatS (e : QEntry) (uses : Bool) : State := { updS (closeV .walking) [] [] with
  cores := [(3, { qScatter := [e] })]
  jobs := [{ job7 [] with id := 0, cid := 1, binds := [(1, 4)], usesUpdate := uses }] }
theorem test_hyp_RowWritesAndScatters_scatter :
    (let e := entryOf scatW
     let s := { scatS e true with upd := {} }
     s.powered = true ∧ (s.core 3).qScatter = [e] ∧ s.tileWaits e.owner (some (uScatter 3)) none = false ∧
      anyPoison e.desc = false ∧ anyPoison [PWord.bad] = true ∧
      s.bound e.owner.job (parseScat (pdata e.desc)).table = some 4 ∧ scatRefusal s e.owner (some 4) (pdata e.desc) = none ∧
      e.begun = false ∧ s.closing 4 = false ∧ (scatS e true).closing 4 = true ∧
      scatRefusal (scatS e false) e.owner (some 4) (pdata e.desc) = some stBadDescriptor) ∧
    (let e := { entryOf scatW with begun := true, tilesDone := 1 }
     let s := scatS e true
     (s.core 3).qScatter = [e] ∧ e.begun = true ∧ (parseScat (pdata e.desc)).count ≤ e.tilesDone ∧ s.quiet e.owner = true ∧
      ¬((entryOf scatW).begun = true)) := by decide

/-! ### Hypotheses met: models, tables, routines, migration -/

/-- An image without sections: 64 bytes, format 1, a reserve of 16. -/
def imgMin : HostRd := ⟨wordsBytes [BitVec.ofNat 64 (2 ^ 48), 0, 16, 64, 0, 0, 0, 0], true⟩

theorem test_hyp_Models :
    (let s := admS 0 0x10 [4096, 64]
     s.starts 0 0 0x10 ∧ s.reqF (mailKey 0 0) 1 63 40 = 0 ∧ s.tailZero (mailKey 0 0) 2 = true) ∧
    (let s := admS 0 0x11 []
     s.starts 0 0 0x11 ∧ s.tailZero (mailKey 0 0) 0 = true ∧ s.mayUnload = true ∧
      ({ s with jobs := [job7 []] } : State).mayUnload = false) := by
  unfold State.starts
  decide
theorem test_hyp_Models_image :
    (let s := (admS 0 0x10 [4096, 64]).begun 0 0
     let m : Image := ⟨slice imgMin.bytes 0 64, 64, true⟩
     s.model = false ∧ (s.req (mailKey 0 0) 0).toNat % 4096 = 0 ∧ m.fails s = none ∧ (∀ x ∈ m.sects, x.kind ≠ 9) ∧
      (∀ x ∈ m.sects, x.kind ≠ 1)) := by decide

/-- Table 1 has a CURRENT, a SHADOW and as many RETIRING versions as `n`. -/
def verS (op n : Nat) (l : List Word) : State := { admS 0 op l with
  slots := [(4, { state := .current }), (5, { state := .shadow })] ++ ([6, 7].take n).map (fun k => (k, { state := .retiring })) }
set_option maxRecDepth 4000 in
theorem test_hyp_TableVersions :
    (let s := admS 0 0x12 [2 ^ 52, 0, 1]
     s.starts 0 0 0x12 ∧ (mapReq s (mailKey 0 0) ⟨[], true⟩).reserved s (mailKey 0 0) = false) ∧
    (let s := verS 0x13 0 [0, BitVec.ofNat 64 (2 ^ 52)]
     s.starts 0 0 0x13 ∧ swapReserved s (mailKey 0 0) = false ∧ swapEntries s (mailKey 0 0) = [(1, 0)] ∧ swapOk s [(1, 0)] = true ∧
      swapFits s [(1, 0)] = true) := by
  unfold State.starts
  decide
theorem test_hyp_TableVersions_swap :
    swapFits (verS 0x13 2 []) [(1, 0)] = false ∧ swapOk (verS 0x13 2 []) [(1, 0)] = true ∧
    swapOk (admS 0 0x13 []) [(1, 0)] = false ∧ swapOk (verS 0x13 0 []) [(1, 1)] = true ∧
    swapOk (verS 0x13 0 []) [(1, 2)] = true ∧ (verS 0x13 0 []).slotIn 1 .current = some 4 ∧
    (verS 0x13 0 []).slotIn 1 .shadow = some 5 := by decide
theorem test_hyp_TableVersions_later :
    (let h : HeldSwap := ⟨0, 0, [(1, 0)], false, false, 0, []⟩
     let s := { verS 0x13 1 [] with heldSwaps := [h] }
     s.fwRuns = true ∧ s.heldSwaps.find? (fun h => !h.applied && swapFits s h.entries) = some h) ∧
    ((verS 0x13 1 []).mayRetire 6 = true ∧ (verS 0x13 1 []).mayRetire 4 = false) := by decide
theorem test_hyp_RoutineBanks :
    (let s := admS 0 0x18 [4096, BitVec.ofNat 64 (8 * 2 ^ 32 + 8)]
     s.starts 0 0 0x18 ∧ s.reqF (mailKey 0 0) 2 63 1 = 0 ∧ s.tailZero (mailKey 0 0) 3 = true ∧
      s.reqF (mailKey 0 0) 1 63 32 = 8 ∧ s.reqF (mailKey 0 0) 1 31 0 = 8 ∧ bit (s.req (mailKey 0 0) 2) 0 = false ∧
      s.bankBusy s.otherBank = false ∧
      ({ s with jobs := [{ job7 [cmdW 1 2 [] .waiting] with bank := s.otherBank }] } : State).bankBusy s.otherBank = true) ∧
    (let s := { fwS with routines := { held := some (0, 0, 8, 8) } }
     s.fwRuns = true ∧ s.routines.held = some (0, 0, 8, 8) ∧ s.bankBusy s.otherBank = false) ∧
    ((8 : Nat) % 8 = 0 ∧ (List.replicate 8 (0 : Byte)).length % 8 = 0 ∧ onS.routines.active ≤ 1) ∧
    (let s := admS 0 0x19 []
     s.starts 0 0 0x19 ∧ s.tailZero (mailKey 0 0) 0 = true) := by
  unfold State.starts
  decide
/-- Version 3 of table 1 is CURRENT in slot 4; its one page lies in space `sp`. -/
def migS (sp : Nat) (l : List Word) : State := { admS 0 0x38 l with
  slots := [(4, { state := .current, tv := 3, pages := [⟨0, 1, sp * 2 ^ 44⟩],
                  entry := { valid := true, format := 7, elems := 8, rowCount := 8, baseVa := 0 } })] }
def migM : Migration := ⟨0, 0, 4, 0, 1, 0, 0, 65536 * 5, false, none, none⟩
theorem test_hyp_Migrations :
    (let s := migS 0 [BitVec.ofNat 64 (2 ^ 52 + 3 * 2 ^ 36), BitVec.ofNat 64 (2 ^ 44 + 65536 * 5)]
     let r := s.reqF (mailKey 0 0)
     s.starts 0 0 0x38 ∧ r 1 51 46 = 0 ∧ s.tailZero (mailKey 0 0) 2 = true ∧ ¬(s.fGrade = false ∧ r 1 45 44 = 2) ∧
      s.versionOf (r 0 63 52) (r 0 51 36) = some 4 ∧
      migrateOk s (s.slot 4) (r 0 35 0) (r 1 63 52 + 1) (r 1 45 44) (r 1 43 0) = true ∧
      migrateOk s (s.slot 4) 7 1 0 0 = false ∧ s.versionOf 2 3 = none) ∧
    (let s := { migS 0 [0, BitVec.ofNat 64 (2 * 2 ^ 44)] with flash := { (migS 0 []).flash with grade := 3 } }
     s.starts 0 0 0x38 ∧ s.reqF (mailKey 0 0) 1 51 46 = 0 ∧ s.fGrade = false ∧ s.reqF (mailKey 0 0) 1 45 44 = 2) ∧
    (let s := { migS 1 [] with migrates := [migM] }
     s.fwRuns = true ∧ s.migrates = migM :: [] ∧ migM.put = none ∧ migM.space = 0 ∧ s.sourceBusy migM = false ∧ (migM.words s []).isSome = true) ∧
    (({ migS 0 [] with migrates := [migM], chans := [(0, { queue := [rq .read 0 0 []] })] } : State).sourceBusy migM = true) ∧
    ({ migM with put := some [] }.put.isSome = true ∧ (migM.words (migS 2 []) []) = none) := by
  unfold State.starts
  decide

/-- Commands that read host memory: with DMA allowed and blocked, and a read that fails. -/
theorem test_hyp_hostReads :
    (let s := admS 0 0x50 [0, BitVec.ofNat 64 (8 * 2 ^ 32 + 8), 0]
     s.starts 0 0 0x50 ∧ s.blocked 0 = false ∧ (HostRd.mk [] true).ok = true ∧ (HostRd.mk [] false).ok = false) ∧
    (let s := { admS 0 0x50 [0, BitVec.ofNat 64 (8 * 2 ^ 32 + 8), 0] with link := {} }
     s.starts 0 0 0x50 ∧ s.blocked 0 = true) ∧
    (let s := { admS 0 0x18 [] with routines := { held := some (0, 0, 8, 8) } }
     s.fwRuns = true ∧ s.routines.held = some (0, 0, 8, 8) ∧ s.bankBusy s.otherBank = false ∧ s.blocked 0 = false ∧
      ({ s with link := {} } : State).blocked 0 = true) ∧
    (let s := { migS 1 [] with migrates := [migM] }
     s.fwRuns = true ∧ s.migrates = migM :: [] ∧ s.route (migM.src s) = .host ∧ s.blocked 0 = false ∧
      ({ s with link := {} } : State).blocked 0 = true) := by
  unfold State.starts
  decide

/-! ### Hypotheses met: security, events, health -/

theorem test_hyp_SpdmExchanges :
    (let s := { fwS with link := { configReady := true }, pwr := { fwS.pwr with perst := false } }
     s.heard .doe = true ∧ s.heard .mctp = true ∧ ([] : List Byte).length ≤ 4096 ∧ ¬4096 < ([] : List Byte).length) := by decide
theorem test_hyp_CountersAndEvents :
    (onS.powered = true ∧ due fwS mkEpoch (fwS.policy.epochMs * 1000000) = true ∧
      due onS mkEpoch (onS.policy.epochMs * 1000000) = false ∧ Tbl.rising none fwS.counters = true) ∧
    (let q : PfQ := { ring := 0, log2 := 6, vector := 0 }
     let e : Event := ⟨1, 0, 0, 0, false, 0, 0, 0, 0⟩
     let s : State := { fwS with eq := some q, link := { bme := 1 }, evHeld := [e] }
     s.fwRuns = true ∧ s.eq = some q ∧ s.evHeld = e :: [] ∧ q.full = false ∧ s.blocked 0 = false ∧
      ({ q with tail := 63 } : PfQ).full = true) ∧
    (let s := { jobS [] with sched := { state := .admitting } }
     s.fwRuns = true ∧ s.job 7 = some (job7 []) ∧ (job7 []).status = none ∧ s.sched.state ≠ .stopped) := by decide

/-- Firmware runs, 72 cores idle, the Groomer enabled. -/
def groomS (o : Option GroomOpen) : State := { fwS with ig := { groom := { enable := true, open_ := o } } }
theorem test_hyp_GroomerTests :
    (let s := groomS none
     s.fwRuns = true ∧ s.groomPair = some (0, 6) ∧ s.ig.groom.enable = true ∧ s.ig.groom.open_ = none ∧ s.groomDue 0 = true ∧
      s.ig.groom.suite.getLsbD 5 = true ∧ s.ig.groom.arbitrate = true ∧
      (s.hedge (0 / 6)).beHeld = false ∧ (s.hedge (6 / 6)).beHeld = false ∧
      (({ s with hedges := [(1, { beHeld := true })] } : State).hedge (6 / 6)).beHeld = true ∧
      ({ s with ig := { groom := { suite := 0 } } } : State).ig.groom.suite.getLsbD 5 = false) ∧
    (let g : GroomOpen := ⟨0, 6, 5, 1, 0⟩
     let s := groomS (some g)
     s.fwRuns = true ∧ s.ig.groom.open_ = some g ∧ s.groomable 12 = true ∧ 12 / 6 ≠ g.a / 6 ∧ 12 / 6 ≠ g.b / 6 ∧
      g.since + 1000000000 ≤ s.ticker ∧ s.ticker < 10000000000001 + 1000000000) := by decide +kernel
theorem test_hyp_HealthRecords :
    (let s := fwS
     s.fwRuns = true ∧ s.fitted (143 / 2) = true ∧ due s (mkCanary 143) 10000000 = true ∧
      ({ s with flash := { s.flash with grade := 2, fused := [5, 11, 17, 23, 29, 71] } } : State).fitted (143 / 2) = false) ∧
    (let r : HourReading := ⟨List.replicate 12 0, List.replicate 12 0, [], none, none⟩
     fwS.fwRuns = true ∧ (Instr.hourlyPoint r).wf = true ∧ due fwS mkHour 3600000000000 = true ∧ fwS.time.refLoss = false ∧
      fwS.time.persistOk = false) ∧
    (let r : CanaryReading := ⟨0, 700, 700, 500, 500⟩
     r.cycles = 0) ∧
    (State.reset.flash.ageing.length ≤ 8192 ∧ State.reset.flash.ageing168.length ≤ 4096) := by decide

/-! ### Hypotheses met: the fabric -/

/-- A record of a domain of modules 0 (this one) and 1, reached through port 0; a PTP role; FLASH entry 0 valid. -/
def recB (role : Byte) : List Byte := [1, 0, 1, 0, 0, 0, 3] ++ List.replicate 17 0 ++ [role] ++ List.replicate 807 0 ++ [1] ++
  List.replicate 2015 0 ++ [1]
/-- Both ends up, with what differs in peer and channel. -/
def domS (role : Byte) (p : Peer) (c : LChan) : State := { fwS with
  fab := { applied := recB role, ports := [(0, { up := true })], peers := [(1, p)], chans := [(chanKey 1 false, c)] } }

theorem test_hyp_FabricLinks_ports :
    (let s := domS 0 {} {}
     s.powered = true ∧ (s.port 0).up = true ∧ portExists s.fab.applied 0 = true ∧
      ({ s with fab := { s.fab with ports := [] } } : State).port 0 = {} ∧
      1 ∈ s.peerList ∧ (recPortMask s.fab.applied 1).testBit 0 = true) := by decide +kernel
theorem test_hyp_FabricLinks_portUp :
    (let s : State := { domS 0 {} {} with fab := { (domS 0 {} {}).fab with ports := [] } }
     s.powered = true ∧ portExists s.fab.applied 0 = true ∧ (s.port 0).up = false) ∧
    ∀ m, (({ domS 0 {} {} with fab := { (domS 0 {} {}).fab with ports := [] } } : State).peer m).powerUps = none := by
  refine ⟨by decide +kernel, fun m => ?_⟩
  simp only [State.peer, domS, Tbl.get]
  split <;> rfl
/-- An ACK and a request wait at a port. -/
theorem test_hyp_FabricLinks_frames :
    (let a : TxFrame := ⟨1, BitVec.ofNat 64 (8 * 2 ^ 56 + 2 * 2 ^ 54), 0, 0, 0, []⟩
     let b : TxFrame := ⟨1, BitVec.ofNat 64 (2 ^ 56), 0, 0, 0, []⟩
     a.rank = 0 ∧ ({ tx := [b, a] } : Port).next = some a ∧ ({ tx := [b, a], ctlGap := 3 } : Port).next = some b ∧
      ({ tx := [b, a] } : Port).sent = false ∧ ({ tx := [b, a], sent := true } : Port).sent = true ∧ ({} : Port).tx = []) := by
  decide
theorem test_hyp_FabricLinks_peers :
    (let s := domS 0 { reachable := true, auditBe := some ⟨0, 0, 0, some (0, 0)⟩ } {}
     s.powered = true ∧ (s.peer 1).reachable = true ∧ due s (mkPeer 1) 100000 = true ∧
      (s.peer 1).lastCensus + 1000000 ≤ s.ticker ∧ (s.peer 1).audit false = some ⟨0, 0, 0, some (0, 0)⟩ ∧
      (0 : BitVec 32) + 0 + (0 - 0) ≠ BitVec.ofNat 32 (s.grant false)) ∧
    (let s := domS 0 { reachable := true, auditBe := some ⟨0, 1024, 0, some (0, 0)⟩ } {}
     (1024 : BitVec 32) + 0 + (0 - 0) = BitVec.ofNat 32 (s.grant false)) ∧
    (let u : Unacked := ⟨5, 0, 0, 0, 0, [], 0, 9⟩
     let s := domS 0 {} { unacked := [u] }
     (s.lchan 1 false).unacked.find? (fun u => u.psn == 5) = some u ∧
      u.sentAt + min (25000 * 2 ^ u.tries) 1600000 ≤ s.ticker ∧ s.upPorts 1 ≠ []) := by decide +kernel

/-- A message of module 1, addressed to module 0: kind, class (0 best effort, 2 control), response. -/
def msgM (kind cls : Nat) (resp : Bool) (n w3 : Nat) (l : List PWord) : LaneaMsg :=
  ⟨BitVec.ofNat 64 (2 ^ 60 + kind * 2 ^ 56 + cls * 2 ^ 54 + b2n resp * 2 ^ 53 + 2 ^ 46 + 2 ^ 28 + 8 * l.length),
    BitVec.ofNat 64 (n * 2 ^ 32), 0, BitVec.ofNat 64 w3, l⟩
theorem test_hyp_LaneaMessages_kinds :
    (let s := domS 0 { powerUps := some 4 } { started := true }
     s.powered = true ∧ (s.port 0).up = true ∧
      (∀ m ∈ [msgM 1 0 false 1 8 [], msgM 2 0 false 1 0 [.good 1], msgM 3 0 false 1 0 (List.replicate 6 (.good 0)),
         msgM 1 0 true 1 0 [.good 1]],
       m.payload.length ≤ 520 ∧ laneaOk m = true ∧ fld m.w0 45 40 = s.moduleNo ∧ laneaSrc m ∈ s.peerList) ∧
      laneaResp (msgM 1 0 true 1 0 [.good 1]) = true ∧ laneaKind (msgM 1 0 false 1 8 []) = 1 ∧
      laneaOk (msgM 1 3 false 1 8 []) = false ∧
      laneaOk (msgM 6 2 false 0 0 []) = true ∧ laneaKind (msgM 6 2 false 0 0 []) = 6 ∧
      laneaOk (msgM 8 2 false 0 0 []) = true ∧ laneaKind (msgM 8 2 false 0 0 []) = 8) := by decide +kernel
theorem test_hyp_LaneaMessages_census :
    (let s := domS 0 { powerUps := some 4 } {}
     let m := msgM 7 2 false 0 0 (.good (BitVec.ofNat 64 (4 * 2 ^ 32)) :: List.replicate 5 (.good 0))
     laneaOk m = true ∧ laneaKind m = 7 ∧ anyPoison m.payload = false ∧
      (s.peer 1).powerUps = some ((wd (pdata m.payload) 0).extractLsb' 32 32)) := by decide +kernel
theorem test_hyp_LaneaMessages_channel :
    (let s := domS 0 {} { started := true, psnRx := 4 }
     let c := s.lchan 1 false
     ((s.lchan 1 true).started = false) ∧ c.started = true ∧ seqLe 4 c.psnRx = true ∧ seqLe 5 c.psnRx = false ∧ c.early = [] ∧
      c.slots.length < s.grant false ∧ (onS.grant false ≤ c.slots.length) ∧ (5 : BitVec 32) = c.psnRx + 1 ∧
      (6 : BitVec 32) ≠ c.psnRx + 1 ∧ s.homeHeld (msgM 1 0 false 5 8 []) = false ∧
      ({ s with chans := [(0, { queue := [{ rq .write 0 0 (List.replicate 4 (.good 9)) with len := 64 }] })] } : State).homeHeld
        (msgM 1 0 false 5 8 []) = true ∧ laneaPsn (msgM 1 0 false 5 8 []) = 5 ∧ laneaLc (msgM 1 0 false 5 8 []) = false ∧
      c.held = 0 ∧ 0 < ({ c with held := 3 } : LChan).held ∧ seqLe c.returned 1 = true ∧ onS.fab.applied = []) := by
  decide +kernel
theorem test_hyp_LaneaMessages_home :
    (let s := domS 0 {} { started := true }
     let s := { s with hedges := (List.range 12).map (fun h => (h, ({ privet := [(0, 1)] } : Hedge))) }
     let m := msgM 2 0 false 1 0 [.good 1]
     homeCheck s (laneaCid m) (fld m.w2 55 0) (8 * m.payload.length) true = (s, none)) ∧
    (let s := domS 0 {} { started := true }
     let m := msgM 2 0 false 1 0 [.good 1]
     (homeCheck s (laneaCid m) (fld m.w2 55 0) (8 * m.payload.length) true).2 = some stProtection) := by decide +kernel
theorem test_hyp_DomainTime :
    (let s := domS 1 {} {}
     s.powered = true ∧ s.ptpRole = 1 ∧ s.ptpPortUp = true ∧ due s mkPtp s.syncPeriod = true) ∧
    (let s := domS 2 {} {}
     s.ptpRole = 2 ∧ s.ptpPortUp = true ∧ s.time.ptpState ≠ 3 ∧ s.time.ptpState ≠ 2 ∧ s.fab.ptpLastSync + 2000000000 ≤ s.ticker ∧
      ({ s with time := { s.time with ptpState := 2 } } : State).time.ptpState = 2 ∧
      s.ticker < ({ s with fab := { s.fab with ptpLastSync := s.ticker } } : State).fab.ptpLastSync + 2000000000) := by
  decide +kernel

/-- FLASH entry 0 is connected and usable, with commands outstanding. -/
def nvS (l : List NvmeCmd) : State :=
  let s := domS 0 {} {}
  { s with fab := { s.fab with nvme := [(0, { up := true, usable := true, cmds := l })] } }
theorem test_hyp_FlashInitiator :
    (let b := { bagOf none with tails := [{ pos := 2, space := 2, off := 4096, state := .asked }] }
     let s := { nvS [] with bags := [b] }
     s.powered = true ∧ (s.nvmeCtl 0).ready = true ∧ (s.nvmeCtl 1).ready = false ∧
      s.askedRow 0 = some (b, { pos := 2, space := 2, off := 4096, state := .asked }) ∧ s.bag 9 = some b) ∧
    (let m : Migration := ⟨0, 0, 4, 0, 1, 0, 2, 65536, false, none, some []⟩
     let s := { nvS [] with migrates := [m] }
     s.migrates = m :: [] ∧ m.put = some [] ∧ (s.nvmeCtl 0).moving = false ∧ flashEntry (paOff (m.dst s)) = 0) ∧
    (let x : NvmeCmd := ⟨3, false, 4096, some (9, 2), 0⟩
     let y : NvmeCmd := ⟨4, true, 4096, none, 10000000000000⟩
     let s := nvS [x, y]
     (s.nvmeCtl 0).cmds.find? (fun x => x.tag == 3) = some x ∧ x.isWrite = false ∧
      (s.nvmeCtl 0).cmds.find? (fun x => x.tag == 4) = some y ∧ y.isWrite = true ∧ x.sentAt + 100000000 ≤ s.ticker ∧
      s.ticker < y.sentAt + 100000000 ∧ x.bag = some (9, 2) ∧ (s.nvmeCtl 0).up = true) ∧
    (let s := domS 0 {} {}
     s.fwRuns = true ∧ s.fGrade = true ∧ s.fab.applied ≠ [] ∧ recFlashValid s.fab.applied 0 = true ∧ (s.nvmeCtl 0).up = false ∧
      due s (mkConnect 0) 1000000000 = true) ∧
    due (nvS []) (mkKeepAlive 0) 1000000000 = true := by decide +kernel

/-! ### Results of the specification's worked examples -/

/-- Codebook 3 of the encoding example of chapter 06. -/
def cb3 : Codebook := { scale := 0x3C000000,
                        entries := [-80, -56, -36, 12, -20, -8, 0, 4, 20, 28, 40, 52, 64, 80, 96, 112] }

/-- Table — hash of Kestrel row 1,925,279, and the stack of the next row. -/
theorem test_example_hash :
    (let e : ImapEntry := ⟨610352, 0, 2, 4⟩
     locate e 0x075827C0 = ⟨1, 42, 8, 9984⟩ ∧ channelOf [e] 0x075827C0 = 106 ∧ (locate e (0x075827C0 + 64)).stack = 2 ∧
      e.len = 480000344064) := by decide +kernel
/-- Table — one word through the code (R372). -/
theorem test_example_code :
    checkByte 0x8000000000000003 = 0x83 ∧ readCode 0x8000000000000023 0x15 = .good 0x8000000000000003 ∧
    (readCode 0 (0x15 ^^^ 0x16)).poison = true ∧ (readCode 0 0x72).poison = true ∧
    dataColumns.getD 5 0 = 0x15 ∧ dataColumns.getD 40 0 = 0x8C := by decide
/-- Table — quantising a Kestrel activation vector (R188), and the dequantised sum after it (R191). -/
theorem test_example_quantise :
    quantise [0x407E0000, 0x3F800000, 0x3D400000, 0xBC800000, 0xC0000000] = (0x3D000000, [127, 32, 2, 0, -64], .plain) ∧
    f32mul (f32ofInt 3000000) (f32mul (f32mul 0x3D000000 0x3A800000) 0x3C000000) = 0x3F371B00 := by decide +kernel
/-- Table — encoding five values with codebook 3 (R180, R181). -/
theorem test_example_encode :
    ([0x3D800000, 0xBF333333, 0xBF380000, 0x3F800000, 0x7FC00000].map cb3.encode = [3, 0, 0, 15, 6]) ∧
    ([0x3D800000, 0xBF333333, 0xBF380000, 0x3F800000, 0x7FC00000].map cb3.clips = [false, false, false, true, true]) := by
  decide +kernel
/-- Table — pooling one Kestrel bag: S = 12 − 80 + 12 and its sum and mean under codebook 3. -/
theorem test_example_pool :
    f32mul (f32ofInt (cb3.view.entry 3 + cb3.view.entry 0 + cb3.view.entry 3)) cb3.scale = 0xBEE00000 ∧
    f32div 0xBEE00000 (f32ofInt 3) = 0xBE155555 := by decide +kernel
/-- The seed prefix of block 18 of user table 3 at TV 0x0142 (chapter 12). -/
theorem test_example_seed : blockSeed (0xF0000000 + 3) 18 0x142 =
    [0x03, 0x00, 0x00, 0xF0, 0x12, 0x00, 0x00, 0x00, 0x42, 0x01, 0x00, 0x00] := by decide
/-- Table — one Kestrel row through the close (R311): row-wise Adagrad, 64 elements. -/
theorem test_example_close :
    (let c : Coef := { c := [0, f32one, f32one, f32one, f32one, 0, 0], eps := 0x3B800000, gclip := 0x461C4000,
                       gscale := f32one, s2Mode := 2 }
     let n := c.update 1 (fun _ => 0x3C800000) (0x3F000000 :: 0xBE800000 :: List.replicate 62 0)
       { t := 6, s2row := f32div (f32ofInt 3649) (f32ofInt 65536), s1 := List.replicate 64 0, s2 := List.replicate 64 0
         w := [cb3.view.decode 3, cb3.view.decode 0] ++ List.replicate 62 0 }
     n.t = 7 ∧ n.s2row = f32div (f32ofInt 3969) (f32ofInt 65536) ∧ n.w.take 3 = [0x3D800000, 0xBF1C0000, 0] ∧
      (n.w.take 2).map cb3.encode = [3, 0]) := by decide +kernel
/-- One staged element, two modes (R87): fixed point in any order, FP32 in arrival order. -/
theorem test_example_staged :
    [0x3F800000, 0x33800000].map (fun p => toFixed 32 p) = [(4294967296, false), (256, false)] ∧
    f32add (f32add 0x3F800000 0x33800000) 0x33800000 = 0x3F800000 ∧
    f32add (f32add 0x33800000 0x33800000) 0x3F800000 = 0x3F800001 := by decide +kernel
/-- COMPRESS's and EXPAND's example (R252, R253): three values go back to positions 1, 2 and 4. -/
theorem test_example_expand : expandRow false 0 [0, 1, 1, 0, 1] [8, 9, 11] = [(1, 8), (2, 9), (4, 11)] := by decide
/-- One CB16 unit's own dot product (chapter 07). -/
theorem test_example_unit :
    ((List.zipWith (fun (a : Int) c => a * cb3.view.entry c) [127, 32, 2, -64] [3, 0, 15, 6]).sum = -812) := by decide
/-- Table — one staged element: the staged integer as the engine reads it, 1 + 2^−23 (R311). -/
theorem test_example_fixedSum : ({ stageFmt := 0xC, exp := 32 } : UpdEntry).sums [4294967808] 1 = [0x3F800001] := by
  decide +kernel

end Sys2Proof.Tests
end

section
/-!
Which commands pass through the operand check, and that every other command goes on in every state: the dispatcher's
arms are read once each, in `exec_eq_guardWf` and `exec_next_of_unchecked`.
-/
namespace Sys2Proof.Machine

/-- The mnemonic (spec/opcode_table.json) under which the operand check of a command reports, for the commands that have
operands no sender can form (WellFormed.lean); none for a command whose operands can always be formed. -/
def checkedAs : Instr → Option String
  | .laneRepair .. => some "LANE_REPAIR"
  | .retentionProbe .. => some "RETENTION_PROBE"
  | .stepRateWindow .. => some "STEP_RATE_WINDOW"
  | .snowploughWindow .. => some "SNOWPLOUGH_WINDOW"
  | .powerStageThermalHold .. => some "POWER_STAGE_THERMAL_HOLD"
  | .stackTempSample .. => some "STACK_TEMP_SAMPLE"
  | .hourlyPoint .. => some "HOURLY_POINT"
  | .msixUnmask .. => some "MSIX_UNMASK"
  | .hedgerowPacket .. => some "HEDGEROW_PACKET"
  | .laneaRead .. => some "LANEA_READ"
  | .laneaWrite .. => some "LANEA_WRITE"
  | .laneaAddAddress .. => some "LANEA_ADD_ADDRESS"
  | .laneaAddGradient .. => some "LANEA_ADD_GRADIENT"
  | .gatherReq .. => some "GATHER_REQ"
  | .laneaResponse .. => some "LANEA_RESPONSE"
  | .laneaCredit .. => some "LANEA_CREDIT"
  | .laneaAck .. => some "LANEA_ACK"
  | .census .. => some "CENSUS"
  | _ => none

@[simp] theorem guardWf_of_wf {c : Instr} (name : String) (s : State) (h : c.wf = true) :
    guardWf c name s = .next s := if_pos h

@[simp] theorem guardWf_of_illFormed {c : Instr} (name : String) (s : State) (h : c.wf = false) :
    guardWf c name s = .fault (.illFormed name) := if_neg (by simp [h])

/-- A checked command is its own operand check, under its own mnemonic, around the state that its meaning gives. -/
theorem exec_eq_guardWf {c : Instr} {name : String} (s : State) (h : checkedAs c = some name) :
    ∃ t, exec c s = guardWf c name t := by
  unfold checkedAs at h
  split at h <;> cases h <;> exact ⟨_, rfl⟩

/-- A command with no operand check is well-formed and goes on in every state. -/
theorem exec_next_of_unchecked {c : Instr} (s : State) (h : checkedAs c = none) :
    c.wf = true ∧ ∃ t, exec c s = .next t := by
  cases c with
  | laneRepair | retentionProbe | stepRateWindow | snowploughWindow | powerStageThermalHold | stackTempSample
  | hourlyPoint | msixUnmask | hedgerowPacket | laneaRead | laneaWrite | laneaAddAddress | laneaAddGradient
  | gatherReq | laneaResponse | laneaCredit | laneaAck | census => cases h
  | _ => exact ⟨rfl, _, rfl⟩

/-- A well-formed command completes in every state. -/
theorem exec_next_of_wf {c : Instr} (s : State) (h : c.wf = true) : ∃ t, exec c s = .next t := by
  cases hc : checkedAs c with
  | none => exact (exec_next_of_unchecked s hc).2
  | some name =>
    obtain ⟨t, ht⟩ := exec_eq_guardWf s hc
    exact ⟨t, by rw [ht, guardWf_of_wf name t h]⟩

/-- An ill-formed command is one of those checked, and faults under its own mnemonic in every state. -/
theorem exec_fault_of_illFormed {c : Instr} (s : State) (h : c.wf = false) :
    ∃ name, checkedAs c = some name ∧ exec c s = .fault (.illFormed name) := by
  cases hc : checkedAs c with
  | none => exact absurd (exec_next_of_unchecked s hc).1 (by simp [h])
  | some name =>
    obtain ⟨t, ht⟩ := exec_eq_guardWf s hc
    exact ⟨name, rfl, by rw [ht, guardWf_of_illFormed name t h]⟩

/-- Settles O7: a command passes through the operand check around a state its meaning gives, or has no check and goes on. -/
theorem everyCommandCompletes : Obligations.EveryCommandCompletes := by
  intro c s
  refine ⟨exec_next_of_wf s, fun h => ?_⟩
  obtain ⟨name, -, hf⟩ := exec_fault_of_illFormed s h
  exact ⟨name, hf⟩

end Sys2Proof.Machine
end

section
/-!
The commands of a job that firmware and the movers run (R31, R291, R419 to R425, R448): what each does on a live job's command
of its type, and what one tile of a COPY does.
-/
namespace Sys2Proof.Machine

theorem exec_call (job idx : Nat) (s : State) : exec (.call job idx) s = execCall job idx s := rfl

theorem exec_barrier (job idx : Nat) (s : State) : exec (.barrier job idx) s = execBarrier job idx s := rfl

theorem exec_schuss (job idx : Nat) (s : State) : exec (.schuss job idx) s = execSchuss job idx s := rfl

theorem exec_copy (job idx : Nat) (ext : List PWord) (s : State) : exec (.copy job idx ext) s = execCopy job idx ext s := rfl

@[simp] theorem whenPowered_of_powered {s : State} (h : s.powered = true) (f : State → State) : whenPowered s f = f s :=
  if_pos h

/-- A live job's command of the asked type runs. -/
theorem onCmd_of_live {s : State} {job idx type : Nat} {j : Job} {k : JobCmd} (hp : s.powered = true)
    (hj : s.job job = some j) (hk : j.cmd? idx = some k) (hs : j.status = none) (ht : k.type = type)
    (f : Job → JobCmd → State → State) : onCmd s job idx type f = f j k s := by
  simp [onCmd, hp, hj, hk, hs, ht]

/-- The test of R425 on the commands before an index. -/
theorem all_before_done_iff (l : List JobCmd) (idx : Nat) :
    l.all (fun e => decide (idx ≤ e.idx) || e.state == .done) = true ↔ ∀ e ∈ l, e.idx < idx → e.state = .done := by
  simp only [List.all_eq_true, Bool.or_eq_true, decide_eq_true_eq, beq_iff_eq]
  exact forall₂_congr fun e _ => by rw [← Nat.not_lt, Decidable.imp_iff_not_or]

section
variable {s : State} {job idx : Nat} {j : Job} {k : JobCmd} (hp : s.powered = true) (hj : s.job job = some j)
  (hk : j.cmd? idx = some k) (hs : j.status = none)
include hp hj hk hs

/-- R448: the CALL whose turn it is goes to its core's list of its class. -/
theorem exec_call_relays (ht : k.type = 2) (hf : s.fwRuns = true) (hr : s.sched.state ≠ .faulted)
    (hn : s.nextRelay = some (job, idx)) :
    exec (.call job idx) s = .next (cmdMark (upCore s (j.coreOf k.slot) (fun x =>
      let p : PendCall := ⟨ownerOf j idx, j.bank, fld (wd k.words 0) 48 39,
        (k.words.drop 2).take (fld (wd k.words 0) 38 35), false⟩
      if j.lc then { x with callsLc := x.callsLc ++ [p] } else { x with callsBe := x.callsBe ++ [p] }))
      (ownerOf j idx) .relayed) := by
  rw [exec_call, execCall, onCmd_of_live hp hj hk hs ht, if_pos ⟨hf, hr, hn⟩]

/-- R425: a BARRIER completes exactly when it may start and every command before it is done. -/
theorem exec_barrier_eq (ht : k.type = 3) : exec (.barrier job idx) s =
    .next (if j.mayStart k = true ∧ ∀ e ∈ j.cmds, e.idx < idx → e.state = .done then cmdMark s (ownerOf j idx) .done
      else s) := by
  rw [exec_barrier, execBarrier, onCmd_of_live hp hj hk hs ht]
  simp only [all_before_done_iff]

/-- R419: a SCHUSS that may start, on a core where its job may begin, writes its payload and frees it. -/
theorem exec_schuss_writes (ht : k.type = 4) (hm : j.mayStart k = true) (hb : s.mayBegin (j.coreOf k.slot) job = true) :
    exec (.schuss job idx) s = .next (cmdMark (freePayload (spWrite (settleOn s (j.coreOf k.slot) job) (j.coreOf k.slot)
      (ownerOf j idx) (fld (wd k.words 0) 24 0) (s.payload job k)) job idx) (ownerOf j idx) .done) := by
  rw [exec_schuss, execSchuss, onCmd_of_live hp hj hk hs ht, if_pos ⟨hm, hb⟩]

/-- R421: a COPY whose turn has come runs its tiles; one into a scratchpad waits until its job may begin on that core. -/
theorem exec_copy_eq (ext : List PWord) (ht : k.type = 5) (hm : k.state = .running ∨ j.mayStart k = true) :
    exec (.copy job idx ext) s = .next (
      let c := j.coreOf (parseCopy k.words).ds
      if (parseCopy k.words).dk ≠ 2 then copyRun j k ext (cmdMark s (ownerOf j idx) .running)
      else if s.mayBegin c job then copyRun j k ext (settleOn (cmdMark s (ownerOf j idx) .running) c job)
      else s) := by
  have hgo : ¬ (k.state ≠ .running ∧ (!j.mayStart k) = true) := by
    rcases hm with hm | hm <;> simp [hm]
  rw [exec_copy, execCopy, onCmd_of_live hp hj hk hs ht]
  simp only [if_neg hgo]

end

/-! ### One tile of a COPY (R421, R422) -/

/-- A tile that touches no virtual address needs no translation and waits for no request. -/
theorem tileWalk_nil (s : State) (u : Nat) (cid : BitVec 12) : tileWalk s u cid [] [] = (s, .ok) := by
  have hw : walkPages s u cid [] = s := ite_self s
  have hf : footprint s u cid [] [] = .ok := rfl
  have hb : s.busyLines [] = false := rfl
  simp [tileWalk, tileReady, hw, hf, localLines, hb]

/-- R422: a tile whose footprint fails ends its job with the status found. -/
theorem copyTile_of_bad {s u : State} {j : Job} {o : Owner} {m : CopyD} {t : Nat} {st : Status} (ext : List PWord)
    (h : tileWalk s (m.unit (j.coreOf (if m.sk = 2 then m.ss else m.ds))) o.cid
      (if m.sk = 1 then [(m.src + 4096 * t, min 4096 (m.len - 4096 * t), false)] else [])
      (if m.dk = 1 then [(m.dst + 4096 * t, min 4096 (m.len - 4096 * t), true)] else []) = (u, .bad st)) :
    copyTile j o m ext t s = (failJob u o st, false) := by
  simp only [copyTile, h]

/-- R421, R422: a tile from a scratchpad to the host writes the words read, and is counted. -/
theorem copyTile_scratchpad_to_host (s : State) (j : Job) (o : Owner) {m : CopyD} (ext : List PWord) (t : Nat)
    (hs : m.sk = 2) (hd : m.dk = 0) : (copyTile j o m ext t s).1 =
      (let c := j.coreOf m.ss
       let n := min 4096 (m.len - 4096 * t)
       let u := spTouch s c (m.src + 4096 * t) n
       copyTiles (writeHost u j.fn o (m.dst + 4096 * t) (u.spW c (m.src + 4096 * t) (n / 8))) o (t + 1)) := by
  simp [copyTile, hs, hd, tileWalk_nil, copyRead, copyWrite]

/-- Settles O32, command by command, and for a COPY also tile by tile. -/
theorem jobCommands : Obligations.JobCommands := by
  refine ⟨fun s job idx j k hp hj hk hs => ⟨fun ht hf hr hn => exec_call_relays hp hj hk hs ht hf hr hn,
    fun ht hm hd => ?_, fun ht hd => ?_, fun ht hm hb => exec_schuss_writes hp hj hk hs ht hm hb, fun ext ht hm => ?_⟩,
    fun s j o m ext t => ⟨fun st u h => copyTile_of_bad ext h, copyTile_scratchpad_to_host s j o ext t⟩⟩
  · rw [exec_barrier_eq hp hj hk hs ht, if_pos ⟨hm, hd⟩]
  · obtain ⟨e, he, hlt, hne⟩ := hd
    rw [exec_barrier_eq hp hj hk hs ht, if_neg fun h => hne (h.2 e he hlt)]
  · rw [exec_copy_eq hp hj hk hs ext ht hm]
    refine ⟨fun hd => ?_, fun hd => ⟨fun hb => ?_, fun hb => ?_⟩⟩
    · simp [hd]
    · simp [hd, hb]
    · simp [hd, hb]

end Sys2Proof.Machine
end

section
/-!
Routes and input buffers of the Hedgerow (R21 to R23): the shape of a route, that each output port grants at most one flit, and
that no buffer takes more flits than it has slots.
-/
namespace Sys2Proof.Machine

/-! ### Routes (R21) -/

@[simp] theorem length_between (a b : Nat) : (between a b).length = colsApart a b + 1 := by
  unfold between colsApart
  split <;> simp <;> omega

@[simp] theorem head?_between (a b : Nat) : (between a b).head? = some a := by
  unfold between
  split
  · rw [show b + 1 - a = (b - a) + 1 by omega]
    simp [List.range_succ_eq_map]
  · rw [show a + 1 - b = (a - b) + 1 by omega]
    simp [List.range_succ]
    omega

@[simp] theorem getLast?_between (a b : Nat) : (between a b).getLast? = some b := by
  unfold between
  split
  · rw [show b + 1 - a = (b - a) + 1 by omega]
    simp [List.range_succ]
    omega
  · rw [show a + 1 - b = (a - b) + 1 by omega]
    simp [List.range_succ_eq_map]

/-- A route begins where its source meets the mesh. -/
theorem head?_route (src dst : Nat) : (route src dst).head? = some (meshPlace src dst) := by
  simp [route, List.head?_append]

/-- A route ends where its destination meets the mesh. -/
theorem getLast?_route (src dst : Nat) : (route src dst).getLast? = some (meshPlace dst src) := by
  simp only [route, List.getLast?_append, List.getLast?_map, List.getLast?_drop, length_between, getLast?_between]
  by_cases h : (meshPlace src dst).2 = (meshPlace dst src).2
  · simp [h, colsApart]
  · have hn : colsApart (meshPlace src dst).2 (meshPlace dst src).2 ≠ 0 := by
      unfold colsApart
      omega
    simp [hn]

/-- A route passes one link for each column and each row that its ends lie apart. -/
theorem length_route (src dst : Nat) : (route src dst).length =
    colsApart (meshPlace src dst).1 (meshPlace dst src).1 + colsApart (meshPlace src dst).2 (meshPlace dst src).2 + 1 := by
  simp [route]
  omega

/-- A route stays on the row of its first router until it is on the column of its last. -/
theorem row_or_col_of_mem_route {src dst : Nat} {p : Nat × Nat} (h : p ∈ route src dst) :
    p.2 = (meshPlace src dst).2 ∨ p.1 = (meshPlace dst src).1 := by
  simp only [route, List.mem_append, List.mem_map] at h
  rcases h with ⟨c, -, rfl⟩ | ⟨r, -, rfl⟩
  · exact .inl rfl
  · exact .inr rfl

/-! ### Input buffers (R22) -/

/-- The flit lies in the buffer that a link feeds, of a VC. -/
def HFlit.inBuffer (link vc : Nat) (f : HFlit) : Bool :=
  decide (0 < f.hops) && !f.ejected && tagVc f.tag == vc && linkKey f (f.hops - 1) == link

theorem Hedgerow.held_eq_countP (n : Hedgerow) (link vc : Nat) : n.held link vc = n.flits.countP (HFlit.inBuffer link vc) :=
  rfl

/-- The flit, one place further. -/
def HFlit.hop (f : HFlit) : HFlit := { f with hops := f.hops + 1 }

/-- A flit that has moved lies in the buffer of the link it moved over, of its VC, unless it has left the routers. -/
theorem HFlit.inBuffer_hop {link vc : Nat} {f : HFlit} (h : f.hop.inBuffer link vc = true) :
    f.lastLink = false ∧ tagVc f.tag = vc ∧ linkKey f f.hops = link := by
  have hp : f.hop.places = f.places := rfl
  have hk : linkKey f.hop (f.hop.hops - 1) = linkKey f f.hops := rfl
  simp only [inBuffer, hk, Bool.and_eq_true, Bool.not_eq_true', beq_iff_eq, ejected, decide_eq_false_iff_not, hp] at h
  obtain ⟨⟨⟨-, he⟩, hv⟩, hl⟩ := h
  refine ⟨?_, hv, hl⟩
  simp only [lastLink, decide_eq_false_iff_not]
  have : f.hop.hops = f.hops + 1 := rfl
  omega

/-- A flit that may move into another router finds a free slot there. -/
theorem held_lt_of_mayMove {s : State} {f : HFlit} (h : mayMove s f = true) (hl : f.lastLink = false) :
    s.hrow.held (linkKey f f.hops) (tagVc f.tag) < vcSlots (tagVc f.tag) := by
  unfold mayMove at h
  split at h
  · cases h
  · simpa [hl] using h

/-! ### Grants (R23) -/

@[simp] theorem length_granted (s : State) : (granted s).length = s.hrow.flits.length := by simp [granted]

/-- A granted flit competes for its output port. -/
theorem competes_of_granted {s : State} {i : Nat} (hi : i < s.hrow.flits.length)
    (h : (granted s)[i]'(by simpa using hi) = true) : competes s s.hrow.flits[i] = true := by
  simp only [granted, List.getElem_map, List.getElem_zipIdx, Bool.and_eq_true] at h
  exact h.1

/-- Of two flits of one VC that compete for one output port, the later is not granted. -/
theorem not_granted_of_older {s : State} {i k : Nat} (hk : k < s.hrow.flits.length) (hik : i < k)
    (hc : competes s s.hrow.flits[i] = true)
    (hl : linkKey s.hrow.flits[i] s.hrow.flits[i].hops = linkKey s.hrow.flits[k] s.hrow.flits[k].hops)
    (hv : tagVc s.hrow.flits[i].tag = tagVc s.hrow.flits[k].tag) : (granted s)[k]'(by simpa using hk) = false := by
  simp only [granted, List.getElem_map, List.getElem_zipIdx, Nat.zero_add, Bool.and_eq_false_iff, Bool.not_eq_false',
    List.any_eq_true]
  refine .inr ⟨_, List.mem_iff_getElem.mpr ⟨i, by simp; omega, rfl⟩, ?_⟩
  simp [hc, hl, hv, hik]

/-- A granted flit that lies, once moved, in the buffer of a link. -/
def arrives (link vc : Nat) (e : HFlit × Bool) : Bool := e.2 && e.1.hop.inBuffer link vc

/-- At most one of a list satisfies what no two of them satisfy. -/
theorem countP_le_one_of_pairwise {α : Type} {p : α → Bool} {l : List α}
    (h : l.Pairwise (fun a b => p a = true → p b = false)) : l.countP p ≤ 1 := by
  induction h with
  | nil => simp
  | @cons a l ha _ ih =>
    by_cases hp : p a = true
    · have : l.countP p = 0 := List.countP_eq_zero.mpr fun b hb => by simp [ha b hb hp]
      simp [hp, this]
    · simpa [hp] using ih

/-- One step brings at most one flit into a buffer: its link is one output port, and a port grants one flit of a VC. -/
theorem countP_arrives_le_one (s : State) (link vc : Nat) :
    (s.hrow.flits.zip (granted s)).countP (arrives link vc) ≤ 1 := by
  refine countP_le_one_of_pairwise (List.pairwise_iff_getElem.mpr fun i k hi hk hik hp => ?_)
  have hk' : k < s.hrow.flits.length := by simpa using hk
  simp only [List.getElem_zip, arrives, Bool.and_eq_true, Bool.and_eq_false_iff] at hp ⊢
  obtain ⟨hg, hb⟩ := hp
  obtain ⟨-, hv, hl⟩ := HFlit.inBuffer_hop hb
  by_contra hcon
  simp only [not_or, Bool.not_eq_false] at hcon
  obtain ⟨-, hv', hl'⟩ := HFlit.inBuffer_hop hcon.2
  have := not_granted_of_older hk' hik (competes_of_granted (by omega) hg) (hl.trans hl'.symm) (hv.trans hv'.symm)
  simp [this] at hcon

/-- A buffer that a flit arrives in had a slot free. -/
theorem held_lt_of_arrives {s : State} {link vc : Nat} {e : HFlit × Bool} (he : e ∈ s.hrow.flits.zip (granted s))
    (ha : arrives link vc e = true) : s.hrow.held link vc < vcSlots vc := by
  obtain ⟨i, hi, rfl⟩ := List.mem_iff_getElem.mp he
  simp only [List.getElem_zip, arrives, Bool.and_eq_true] at ha
  obtain ⟨hg, hb⟩ := ha
  obtain ⟨hlast, rfl, rfl⟩ := HFlit.inBuffer_hop hb
  have hc := competes_of_granted (by simpa using hi) hg
  simp only [competes, Bool.and_eq_true] at hc
  exact held_lt_of_mayMove hc.1 hlast

/-- The flits after the grants of one step. -/
def State.movedFlits (s : State) : List HFlit :=
  (s.hrow.flits.zip (granted s)).map (fun e => if e.2 then e.1.hop else e.1)

/-- A buffer holds at most what it held and what arrives. -/
theorem countP_movedFlits_le (s : State) (link vc : Nat) : s.movedFlits.countP (HFlit.inBuffer link vc) ≤
    s.hrow.held link vc + (s.hrow.flits.zip (granted s)).countP (arrives link vc) := by
  have hfst : s.hrow.held link vc = (s.hrow.flits.zip (granted s)).countP (fun e => e.1.inBuffer link vc) := by
    rw [Hedgerow.held_eq_countP]
    conv_lhs => rw [← List.map_fst_zip (l₁ := s.hrow.flits) (l₂ := granted s) (by simp)]
    rw [List.countP_map]
    rfl
  rw [hfst, State.movedFlits, List.countP_map]
  generalize s.hrow.flits.zip (granted s) = l
  induction l with
  | nil => simp
  | cons e l ih =>
    simp only [List.countP_cons, Function.comp_apply, arrives]
    rcases e with ⟨f, _ | _⟩ <;> simp <;> omega

/-- The grants of one step overfill no buffer. -/
theorem countP_movedFlits_le_slots {s : State} (h : ∀ link vc, s.hrow.held link vc ≤ vcSlots vc) (link vc : Nat) :
    s.movedFlits.countP (HFlit.inBuffer link vc) ≤ vcSlots vc := by
  have hle := countP_movedFlits_le s link vc
  have hone := countP_arrives_le_one s link vc
  by_cases ha : ∃ e ∈ s.hrow.flits.zip (granted s), arrives link vc e = true
  · obtain ⟨e, he, ha⟩ := ha
    have := held_lt_of_arrives he ha
    omega
  · have hz : (s.hrow.flits.zip (granted s)).countP (arrives link vc) = 0 :=
      List.countP_eq_zero.mpr fun e he hc => ha ⟨e, he, hc⟩
    have := h link vc
    omega

/-! ### Delivery -/

@[simp] theorem failJob_hrow (s : State) (o : Owner) (st : Status) : (failJob s o st).hrow = s.hrow :=
  (congrArg State.hrow (failJob_base s o st) : (failJob s o st).base.hrow = s.base.hrow)

@[simp] theorem jobFault_hrow (s : State) (o : Owner) (st : Status) (pa : Word) (ch : Nat) :
    (jobFault s o st pa ch).hrow = s.hrow :=
  (congrArg State.hrow (jobFault_base s o st pa ch) : (jobFault s o st pa ch).base.hrow = s.base.hrow)

@[simp] theorem reqFail_hrow (s : State) (r : ChReq) (st : Status) : (reqFail s r st).hrow = s.hrow := by
  unfold reqFail
  split
  · rfl
  · exact jobFault_hrow ..

@[simp] theorem enqueue_hrow (s : State) (c : Nat) (r : ChReq) : (enqueue s c r).hrow = s.hrow := rfl

/-- A delivery leaves the routers as they are. -/
@[simp] theorem deliver_hrow (s : State) (t : Word) (l : List PWord) : (deliver s t l).hrow = s.hrow := by
  unfold deliver
  simp only
  split
  · split
    · split
      · rfl
      · exact failJob_hrow ..
    · split
      · exact reqFail_hrow ..
      · split
        · exact enqueue_hrow ..
        · rfl
  · rfl

/-- Completing packets only takes flits away. -/
theorem completePackets_flits_sublist (s : State) : (completePackets s).hrow.flits.Sublist s.hrow.flits := by
  unfold completePackets
  refine forL_induct (P := fun t => t.hrow.flits.Sublist s.hrow.flits) (fun f t h => ?_) (List.Sublist.refl _)
  simp only
  split
  · rw [deliver_hrow]
    exact List.filter_sublist.trans h
  · exact h

/-- R22: a step of the routers overfills no input buffer. -/
theorem routerStep_held_le {s : State} (h : ∀ link vc, s.hrow.held link vc ≤ vcSlots vc) (link vc : Nat) :
    (routerStep s).hrow.held link vc ≤ vcSlots vc :=
  calc (routerStep s).hrow.held link vc
    _ ≤ s.movedFlits.countP (HFlit.inBuffer link vc) := (completePackets_flits_sublist _).countP_le
    _ ≤ vcSlots vc := countP_movedFlits_le_slots h link vc

end Sys2Proof.Machine
end

section
/-!
Packets of the Hedgerow (R18, R19, R25) and the changes that a hedge's warden applies (R29).
-/
namespace Sys2Proof.Machine

theorem exec_hedgerowPacket (flits : List Flit) (s : State) :
    exec (.hedgerowPacket flits) s = execHedgerowPacket flits s := rfl

theorem exec_wardenConfigApply (h : HedgeId) (s : State) : exec (.wardenConfigApply h) s = execWardenConfigApply h s := rfl

/-! ### What the first router finds (R373, R377) -/

@[simp] theorem Flit.corrected_fixed (f : Flit) : Flit.corrected (Flit.fixed f) = Flit.corrected f := rfl

@[simp] theorem Flit.broken_fixed (f : Flit) : Flit.broken (Flit.fixed f) = Flit.broken f := rfl

/-- The flits that the first router looks at are the flits with their tags corrected. -/
theorem zip_fixed_eq (l : List Flit) :
    (l.zip (l.map Flit.fixed)).map (fun e => ⟨e.2.tag, e.1.tagSyn, e.1.words⟩) = l.map Flit.fixed := by
  induction l with
  | nil => rfl
  | cons f l ih => exact congrArg (_ :: ·) ih

/-- A packet passes the first router's checks; with its tags whole and in form it enters the mesh (R19, R25). -/
theorem exec_hedgerowPacket_eq {s : State} {l : List Flit} (hp : s.powered = true)
    (hw : (Instr.hedgerowPacket l).wf = true) : exec (.hedgerowPacket l) s = .next (
      let u := routerFinds (l.map Flit.fixed) s
      if l.any Flit.tagLost then jobFaultAll u causeTag
      else if packetOk ((l.map Flit.fixed).map Flit.forward) then sendPacket ((l.map Flit.fixed).map Flit.forward) u
      else u) := by
  rw [exec_hedgerowPacket, execHedgerowPacket, guardWf_of_wf _ _ hw, whenPowered_of_powered hp]
  simp only [zip_fixed_eq]

/-- The first router counts what it corrects and what it breaks; everything else it does is to post events. -/
theorem routerFinds_still (l : List Flit) (s : State) : (routerFinds l s).still = (upIg s (fun g => { g with
    hedgerowCe := g.hedgerowCe + (l.map Flit.corrected).sum, hedgerowUe := g.hedgerowUe + (l.map Flit.broken).sum })).still :=
  forL_induct (P := fun t => t.still = State.still _)
    (fun _ _ h => forN_induct (P := fun t => t.still = State.still _) h fun _ t _ h => (uePoison_still t ..).trans h) rfl

theorem routerFinds_ig (l : List Flit) (s : State) : (routerFinds l s).ig = { s.ig with
    hedgerowCe := s.ig.hedgerowCe + (l.map Flit.corrected).sum, hedgerowUe := s.ig.hedgerowUe + (l.map Flit.broken).sum } :=
  (congrArg State.ig (routerFinds_still l s) : (routerFinds l s).still.ig = (upIg s _).still.ig)

theorem routerFinds_base (l : List Flit) (s : State) : (routerFinds l s).base = s.base :=
  (base_of_still (routerFinds_still l s)).trans (upIg_base ..)

theorem synBad_zero : synBad 0#8 = false := rfl

theorem synFixes_zero : synFixes 0#8 = false := rfl

/-- A flit whose tag and words all carry a zero syndrome. -/
def Flit.clean (f : Flit) : Bool := f.tagSyn == 0 && f.words.all (fun w => w.2 == 0)

section
variable {f : Flit} (h : Flit.clean f = true)
include h

theorem Flit.tagSyn_of_clean : f.tagSyn = 0#8 := by
  simp only [Flit.clean, Bool.and_eq_true, beq_iff_eq] at h
  exact h.1

theorem Flit.syn_of_clean {w : Word × BitVec 8} (hw : w ∈ f.words) : w.2 = 0#8 := by
  simp only [Flit.clean, Bool.and_eq_true, List.all_eq_true, beq_iff_eq] at h
  exact h.2 w hw

theorem Flit.fixed_of_clean : Flit.fixed f = f := by
  have : (readCode f.tag f.tagSyn).data = f.tag := by rw [Flit.tagSyn_of_clean h, readCode_zero]; rfl
  simp only [Flit.fixed, this]

theorem Flit.tagLost_of_clean : Flit.tagLost f = false := by
  rw [Flit.tagLost, Flit.tagSyn_of_clean h, readCode_zero]
  rfl

theorem Flit.countP_synBad_of_clean : f.words.countP (fun w => synBad w.2) = 0 :=
  List.countP_eq_zero.mpr fun w hw => by simp [Flit.syn_of_clean h hw, synBad_zero]

theorem Flit.countP_synFixes_of_clean : f.words.countP (fun w => synFixes w.2) = 0 :=
  List.countP_eq_zero.mpr fun w hw => by simp [Flit.syn_of_clean h hw, synFixes_zero]

theorem Flit.broken_of_clean : Flit.broken f = 0 := by
  rw [Flit.broken, Flit.countP_synBad_of_clean h, Flit.tagSyn_of_clean h, synBad_zero]
  rfl

theorem Flit.corrected_of_clean : Flit.corrected f = 0 := by
  rw [Flit.corrected, Flit.countP_synFixes_of_clean h, Flit.tagSyn_of_clean h, synFixes_zero]
  rfl

theorem Flit.forward_words_of_clean : (Flit.forward f).words = f.words.map (fun w => .good w.1) :=
  List.map_congr_left fun w hw => by rw [Flit.syn_of_clean h hw, readCode_zero]

end

section
variable {l : List Flit} (h : l.all Flit.clean = true)
include h

/-- In clean flits the first router finds nothing. -/
theorem routerFinds_of_clean (s : State) : routerFinds l s = s := by
  have hcl : ∀ f ∈ l, Flit.clean f = true := List.all_eq_true.mp h
  have hce : (l.map Flit.corrected).sum = 0 := by
    rw [List.map_congr_left fun f hf => Flit.corrected_of_clean (hcl f hf)]
    simp
  have hue : (l.map Flit.broken).sum = 0 := by
    rw [List.map_congr_left fun f hf => Flit.broken_of_clean (hcl f hf)]
    simp
  have hloop : ∀ t : State, forL l (fun f s =>
      let node := routerNode ((route (tagSrc f.tag) (tagDest f.tag)).headD (0, 0))
      forN (f.words.countP (fun w => synBad w.2)) (fun _ s => uePoison s unitRouter 0xFF 0xFFFF (at_ 6 0 node)) s) t = t := by
    clear hce hue h
    induction l with
    | nil => exact fun t => rfl
    | cons f l ih =>
      intro t
      rw [forL_cons, Flit.countP_synBad_of_clean (hcl f List.mem_cons_self), forN_zero]
      exact ih (fun g hg => hcl g (List.mem_cons_of_mem _ hg)) t
  simp only [routerFinds, hce, hue, Nat.add_zero]
  exact hloop s

theorem map_fixed_of_clean : l.map Flit.fixed = l := by
  have hcl : ∀ f ∈ l, Flit.clean f = true := List.all_eq_true.mp h
  exact (List.map_congr_left fun f hf => Flit.fixed_of_clean (hcl f hf)).trans (List.map_id l)

theorem any_tagLost_of_clean : l.any Flit.tagLost = false := by
  have hcl : ∀ f ∈ l, Flit.clean f = true := List.all_eq_true.mp h
  exact List.any_eq_false.mpr fun f hf => by simp [Flit.tagLost_of_clean (hcl f hf)]

theorem forward_words_of_clean : (l.map Flit.forward).flatMap (·.words) =
    l.flatMap (fun f => f.words.map (fun w => PWord.good w.1)) := by
  have hcl : ∀ f ∈ l, Flit.clean f = true := List.all_eq_true.mp h
  rw [List.flatMap_map]
  exact List.flatMap_congr fun f hf => Flit.forward_words_of_clean (hcl f hf)

end

/-! ### A packet alone in the routers (R18, R19) -/

/-- A clean packet that meets no other and whose node can take it is delivered at once (log entry 102). -/
theorem exec_hedgerowPacket_delivers {s : State} {l : List Flit} {t : Word} (hp : s.powered = true)
    (hw : (Instr.hedgerowPacket l).wf = true) (he : s.hrow.flits = []) (hc : l.all Flit.clean = true)
    (hok : packetOk (l.map Flit.forward) = true) (ht : (l.head?).map (fun f => tagCommon f.tag) = some t)
    (ha : accepts s t (l.flatMap (fun f => f.words.map (fun w => PWord.good w.1))) = true) :
    exec (.hedgerowPacket l) s = .next (deliver s t (l.flatMap (fun f => f.words.map (fun w => PWord.good w.1)))) := by
  have htag : tagCommon ((l.map Flit.forward).headD ⟨0, [], 0⟩).tag = t := by
    cases l with
    | nil => cases ht
    | cons f l => exact Option.some.inj ht
  rw [exec_hedgerowPacket_eq hp hw, map_fixed_of_clean hc, routerFinds_of_clean hc, any_tagLost_of_clean hc]
  simp only [hok, sendPacket, htag, forward_words_of_clean hc, he, ha]
  rfl

/-- Good words hold no poison. -/
theorem anyPoison_good {l : List PWord} (h : ∀ p ∈ l, p.poison = false) : anyPoison l = false := by
  simpa [anyPoison] using h

theorem consumedWords_subset (t : Word) (l : List PWord) : consumedWords t l ⊆ l := by
  unfold consumedWords
  split
  · exact List.Subset.refl l
  · exact List.take_subset _ l

/-- A node takes every packet that is not a channel request. -/
theorem accepts_of_not_memory (s : State) {t : Word} (l : List PWord) (h : isMemory t = false) : accepts s t l = true := by
  simp [accepts, h]

/-- A node takes a channel request where its channel has room for its class (R64). -/
theorem accepts_of_room {s : State} {t : Word} {l : List PWord}
    (h : (s.chan (s.channel (packetReq t l).pa)).room (packetReq t l).lc = true) : accepts s t l = true := by
  simp [accepts, h]

/-- A packet that is not a channel request arrives at its node. -/
theorem deliver_of_not_memory (s : State) {t : Word} (l : List PWord) (h : isMemory t = false) :
    deliver s t l = { s with arrived := s.arrived ++ [(tagDest t, t, l)] } := by
  simp [deliver, h]

/-- A channel request of good words that its sender may form enters its channel's queue. -/
theorem deliver_of_memory {s : State} {t : Word} {l : List PWord} (h : isMemory t = true)
    (hg : ∀ p ∈ l, p.poison = false)
    (ha : tagKind t = 2 → adderRefusal (packetReq t l).hdr0 (packetReq t l).hdr1 (packetReq t l).data.length = none)
    (hd : placeOk s t (packetReq t l) = true) :
    deliver s t l = enqueue s (s.channel (packetReq t l).pa) (packetReq t l) := by
  have hn : anyPoison (consumedWords t l) = false := anyPoison_good fun p hp => hg p (consumedWords_subset t l hp)
  have hr : (if tagKind t = 2 then adderRefusal (packetReq t l).hdr0 (packetReq t l).hdr1 (packetReq t l).data.length
      else none) = none := by
    split
    · exact ha ‹_›
    · rfl
  simp [deliver, h, hn, hr, hd]

/-! ### An uncorrectable tag (R25) -/

/-- The counts of the integrity record that the routers and job faults keep. -/
def Integrity.faultCounts (g : Integrity) : Nat × Nat × Nat := (g.jobFaults, g.hedgerowCe, g.hedgerowUe)

theorem endJob_faultCounts (s : State) (id : Nat) (st : Status) (idx : BitVec 16) :
    (endJob s id st idx).ig.faultCounts = s.ig.faultCounts := by
  have hstop : ∀ t : State, (tidyCores (stopUnits t id)).ig = t.ig := fun _ => rfl
  have hcount : (countJob s id st).ig = s.ig := rfl
  unfold endJob
  split
  · simp only [hstop, upIg_ig, upJob_ig, hcount, Integrity.faultCounts]
  · rfl

theorem endAll_faultCounts (s : State) (st : Status) : (endAll s st).ig.faultCounts = s.ig.faultCounts :=
  forL_induct (P := fun t => t.ig.faultCounts = s.ig.faultCounts)
    (fun x t h => (endJob_faultCounts t x st 0xFFFF).trans h) rfl

theorem raiseEvent_ig (s : State) (code : BitVec 16) (cid : BitVec 12) (w3 w4 w5 : Word) :
    (raiseEvent s code cid w3 w4 w5).ig = s.ig :=
  (congrArg State.ig (raiseEvent_still s code cid w3 w4 w5) : (raiseEvent s code cid w3 w4 w5).still.ig = s.still.ig)

/-- A job fault of unknown owner is counted, and no count of the routers changes. -/
theorem jobFaultAll_faultCounts (s : State) (cause : Nat) : (jobFaultAll s cause).ig.faultCounts =
    (s.ig.jobFaults + 1, s.ig.hedgerowCe, s.ig.hedgerowUe) := by
  have h := endAll_faultCounts s stJobFault
  simp only [Integrity.faultCounts, Prod.mk.injEq] at h
  obtain ⟨hj, hc, hu⟩ := h
  unfold jobFaultAll
  rw [raiseEvent_ig]
  simp [Integrity.faultCounts, enterFaulted, hj, hc, hu]

/-- R25: a packet with an uncorrectable tag is a job fault of unknown owner, after the first router's counts. -/
theorem exec_hedgerowPacket_of_tagLost {s : State} {l : List Flit} (hp : s.powered = true)
    (hw : (Instr.hedgerowPacket l).wf = true) (h : l.any Flit.tagLost = true) :
    exec (.hedgerowPacket l) s = .next (jobFaultAll (routerFinds (l.map Flit.fixed) s) causeTag) := by
  rw [exec_hedgerowPacket_eq hp hw, h]
  rfl

/-- What that fault leaves as it was, and what it counts. -/
theorem jobFaultAll_routerFinds (s : State) (l : List Flit) (cause : Nat) :
    (jobFaultAll (routerFinds (l.map Flit.fixed) s) cause).base = s.base ∧
    (jobFaultAll (routerFinds (l.map Flit.fixed) s) cause).ig.faultCounts = (s.ig.jobFaults + 1,
      s.ig.hedgerowCe + (l.map Flit.corrected).sum, s.ig.hedgerowUe + (l.map Flit.broken).sum) := by
  refine ⟨(jobFaultAll_base ..).trans (routerFinds_base ..), ?_⟩
  rw [jobFaultAll_faultCounts, routerFinds_ig]
  simp only [List.map_map, Function.comp_def, Flit.corrected_fixed, Flit.broken_fixed]

/-! ### Changes that a warden applies (R29) -/

theorem mem_updFirst {α : Type} {p : α → Bool} {f : α → α} {l : List α} {x : α} (h : x ∈ updFirst p f l) :
    x ∈ l ∨ ∃ y ∈ l, x = f y := by
  induction l with
  | nil => exact .inl h
  | cons y l ih =>
    unfold updFirst at h
    split at h <;> rcases List.mem_cons.mp h with rfl | h
    · exact .inr ⟨y, List.mem_cons_self, rfl⟩
    · exact .inl (List.mem_cons_of_mem _ h)
    · exact .inl List.mem_cons_self
    · rcases ih h with h | ⟨z, hz, rfl⟩
      · exact .inl (List.mem_cons_of_mem _ h)
      · exact .inr ⟨z, List.mem_cons_of_mem _ hz, rfl⟩

/-- Removing the first element of a kind leaves every element of another. -/
theorem mem_dropFirst_of_not {α : Type} {p : α → Bool} {l : List α} {x : α} (h : x ∈ l) (hp : p x = false) :
    x ∈ dropFirst p l := by
  induction l with
  | nil => cases h
  | cons y l ih =>
    unfold dropFirst
    rcases List.mem_cons.mp h with rfl | h
    · simp [hp]
    · split
      · exact h
      · exact List.mem_cons_of_mem _ (ih h)

/-- After hedge h's report, a command that also waits for another hedge still waits. -/
theorem AdminWait.left_ne_nil_of_reported {w : AdminWait} {h f k : Nat} {left : List Nat} {a : AfterWardens}
    (hw : ∀ f k l b, w = .wardens f k l b → ∃ i ∈ l, i ≠ h) (hr : w.reported h = .wardens f k left a) : left ≠ [] := by
  cases w with
  | wardens f' k' l b =>
    cases hr
    obtain ⟨i, hi, hne⟩ := hw _ _ _ _ rfl
    exact List.ne_nil_of_mem (mem_dropFirst_of_not hi (by simpa using hne))
  | fence => cases hr
  | destroy => cases hr

/-- The command has every report it waits for. -/
def AdminWait.ready (w : AdminWait) : Bool :=
  match w with
  | .wardens _ _ left _ => left.isEmpty
  | _ => false

/-- The commands that have every report leave the list and go on, one after another. -/
theorem wardensDone_eq (s : State) : ∃ g, wardensDone s = forL (s.adminWaits.filter AdminWait.ready) g
    { s with adminWaits := s.adminWaits.filter (fun w => !w.ready) } := ⟨_, rfl⟩

/-- While every command that waits for wardens still misses a report, none goes on. -/
theorem wardensDone_of_none_ready {s : State} (h : ∀ f k left a, AdminWait.wardens f k left a ∈ s.adminWaits → left ≠ []) :
    wardensDone s = s := by
  have hr : ∀ w ∈ s.adminWaits, w.ready = false := by
    intro w hw
    cases w with
    | wardens f k left a => simpa [AdminWait.ready] using h f k left a hw
    | fence => rfl
    | destroy => rfl
  obtain ⟨g, hg⟩ := wardensDone_eq s
  have hnone : s.adminWaits.filter AdminWait.ready = [] := List.filter_eq_nil_iff.mpr fun w hw => by simp [hr w hw]
  have hall : s.adminWaits.filter (fun w => !w.ready) = s.adminWaits :=
    List.filter_eq_self.mpr fun w hw => by simp [hr w hw]
  rw [hg, hnone, hall, forL_nil]

/-- A report that leaves every command waiting for another hedge only marks the report. -/
theorem wardenReport_of_waiting {s : State} {h : Nat}
    (hw : ∀ f k left a, AdminWait.wardens f k left a ∈ s.adminWaits → ∃ i ∈ left, i ≠ h) :
    wardenReport s h = { s with adminWaits := updFirst (fun w => w.owes h) (fun w => w.reported h) s.adminWaits } := by
  refine wardensDone_of_none_ready fun f k left a hm => ?_
  rcases mem_updFirst hm with hm | ⟨w, hm, he⟩
  · obtain ⟨i, hi, -⟩ := hw f k left a hm
    exact List.ne_nil_of_mem hi
  · exact AdminWait.left_ne_nil_of_reported (fun f k l b e => hw f k l b (e ▸ hm)) he.symm

/-- R29: the warden of hedge h applies the oldest change it holds, and reports it. -/
theorem exec_wardenConfigApply_eq {s : State} {h : HedgeId} {cfg : WardenCfg} {rest : List WardenCfg}
    (hp : s.powered = true) (hq : (s.hedge h).wardenQ = cfg :: rest) : exec (.wardenConfigApply h) s =
      .next (wardenReport (applyCfg (upHedge s h (fun x => { x with wardenQ := rest })) h cfg) h) := by
  rw [exec_wardenConfigApply, execWardenConfigApply, whenPowered_of_powered hp]
  simp only [hq]

/-- A loop that changes n channels in a row, each once. -/
theorem forN_upChan (n base : Nat) (f : Chan → Chan) (s : State) :
    ∃ cs, forN n (fun i s => upChan s (base + i) f) s = { s with chans := cs } ∧
      ∀ i, i < n → Tbl.get {} cs (base + i) = f (s.chan (base + i)) := by
  have key : ∃ cs, forN n (fun i s => upChan s (base + i) f) s = { s with chans := cs } ∧
      ∀ i, Tbl.get {} cs (base + i) = if i < n then f (s.chan (base + i)) else s.chan (base + i) := by
    induction n with
    | zero => exact ⟨s.chans, rfl, fun i => by simp [State.chan]⟩
    | succ n ih =>
      obtain ⟨cs, h1, h2⟩ := ih
      rw [forN_succ, h1]
      refine ⟨_, rfl, fun i => ?_⟩
      rw [Tbl.get_upd]
      simp only [h2]
      by_cases hi : i = n
      · simp [hi]
      · have : i < n + 1 ↔ i < n := by omega
        simp [hi, this]
  obtain ⟨cs, h1, h2⟩ := key
  exact ⟨cs, h1, fun i hi => by rw [h2, if_pos hi]⟩

/-- A change of a warden touches hedges and channels alone. -/
theorem applyCfg_frame (s : State) (h : Nat) (c : WardenCfg) :
    ∃ hs cs, applyCfg s h c = { s with hedges := hs, chans := cs } := by
  cases c with
  | lock on =>
    obtain ⟨cs, hcs, -⟩ := forN_upChan 64 (64 * h) (fun x => { x with
      lockWanted := on, windowDone := x.windowDone && on, aligned := x.aligned && on }) s
    exact ⟨s.hedges, cs, hcs⟩
  | map | privet | scrub => exact ⟨_, s.chans, rfl⟩

theorem hedge_setAdminWaits (s : State) (w : List AdminWait) (k : Nat) :
    ({ s with adminWaits := w } : State).hedge k = s.hedge k := rfl

theorem chan_setAdminWaits (s : State) (w : List AdminWait) (k : Nat) :
    ({ s with adminWaits := w } : State).chan k = s.chan k := rfl

/-- R74: a lock change reaches the 64 channels of its hedge; without the lock none stays aligned. -/
theorem applyCfg_lock_chan (s : State) (h : Nat) (on : Bool) {i : Nat} (hi : i < 64) :
    ((applyCfg s h (.lock on)).chan (64 * h + i)).lockWanted = on ∧
    (on = false → ((applyCfg s h (.lock on)).chan (64 * h + i)).aligned = false) := by
  obtain ⟨cs, hcs, hget⟩ := forN_upChan 64 (64 * h) (fun x => { x with
      lockWanted := on, windowDone := x.windowDone && on, aligned := x.aligned && on }) s
  have hc : (applyCfg s h (.lock on)).chan (64 * h + i) = { s.chan (64 * h + i) with
      lockWanted := on, windowDone := (s.chan (64 * h + i)).windowDone && on,
      aligned := (s.chan (64 * h + i)).aligned && on } := by
    rw [← hget i hi]
    exact congrArg (fun t : State => t.chan (64 * h + i)) hcs
  rw [hc]
  exact ⟨rfl, fun hon => by simp [hon]⟩

/-- Settles O20: packets (R18, R19), lost tags (R25), routes (R21), buffers (R22) and wardens (R29), each by its own lemma. -/
theorem hedgerowAndWardens : Obligations.HedgerowAndWardens := by
  refine ⟨fun s l hp hw he hc hok t ht => ⟨fun hm => ?_, fun hm ha hd hone hroom => ?_⟩, fun s l hp hw hl => ?_,
    fun src dst _ _ => ⟨head?_route src dst, getLast?_route src dst, length_route src dst,
      fun p => row_or_col_of_mem_route⟩, fun s h => routerStep_held_le h, fun s h cfg rest hp hq hwait => ?_⟩
  · rw [exec_hedgerowPacket_delivers hp hw he hc hok ht (accepts_of_not_memory s _ hm), deliver_of_not_memory s _ hm]
    rfl
  · have hg : ∀ p ∈ l.flatMap (fun f => f.words.map (fun w => PWord.good w.1)), p.poison = false := by
      intro p hp
      simp only [List.mem_flatMap, List.mem_map] at hp
      obtain ⟨f, -, w, -, rfl⟩ := hp
      rfl
    rw [exec_hedgerowPacket_delivers hp hw he hc hok ht (accepts_of_room hroom), deliver_of_memory hm hg ha]
    simp only [placeOk, Bool.and_eq_true, Bool.or_eq_true, decide_eq_true_eq]
    exact ⟨hd, hone⟩
  · obtain ⟨hb, hi⟩ := jobFaultAll_routerFinds s l causeTag
    simp only [Integrity.faultCounts, Prod.mk.injEq] at hi
    obtain ⟨hj, hce, hue⟩ := hi
    exact ⟨_, exec_hedgerowPacket_of_tagLost hp hw hl, fun id => jobFaultAll_lives _ _ id, hj,
      (congrArg State.dram hb : State.dram (State.base _) = s.base.dram),
      (congrArg State.arrived hb : State.arrived (State.base _) = s.base.arrived),
      (congrArg State.hrow hb : State.hrow (State.base _) = s.base.hrow), hce, hue⟩
  · obtain ⟨hs, cs, hf⟩ := applyCfg_frame (upHedge s h (fun x => { x with wardenQ := rest })) h cfg
    rw [exec_wardenConfigApply_eq hp hq, wardenReport_of_waiting (by rw [hf]; exact hwait)]
    refine ⟨_, rfl, by rw [hf]; rfl, by rw [hf]; rfl, by rw [hf]; rfl, by rw [hf]; rfl, ?_, ?_, ?_, ?_⟩
    · rintro m rfl
      rw [hedge_setAdminWaits]
      simp [applyCfg]
    · rintro p rfl
      rw [hedge_setAdminWaits]
      simp [applyCfg]
    · rintro n rfl
      rw [hedge_setAdminWaits]
      simp [applyCfg]
    · rintro on rfl i hi
      rw [chan_setAdminWaits]
      exact applyCfg_lock_chan _ h on hi

end Sys2Proof.Machine
end

section
/-!
Domain time over PTP (R46, R560, R561): what each exchange does to the module that takes part in it.
-/
namespace Sys2Proof.Machine

theorem exec_ptpSyncSend (s : State) : exec .ptpSyncSend s = execPtpSyncSend s := rfl

theorem exec_ptpDelayReq (slave rx : Nat) (s : State) : exec (.ptpDelayReq slave rx) s = execPtpDelayReq slave rx s := rfl

theorem exec_ptpSync (offset trim : Int) (s : State) : exec (.ptpSync offset trim) s = execPtpSync offset trim s := rfl

theorem exec_ptpHoldover (s : State) : exec .ptpHoldover s = execPtpHoldover s := rfl

/-- The good measurements in a row after one of this offset (R561): one short of ±100 ns starts the count again, and so does
the first after a holdover. -/
def State.goodAfter (s : State) (offset : Int) : Nat :=
  if -100 ≤ offset ∧ offset ≤ 100 then (if s.time.ptpState = 3 then 0 else s.fab.ptpGood) + 1 else 0

theorem goodAfter_of_good {s : State} {offset : Int} (hl : -100 ≤ offset) (hu : offset ≤ 100) (h : s.time.ptpState ≠ 3) :
    s.goodAfter offset = s.fab.ptpGood + 1 := by
  rw [State.goodAfter, if_pos ⟨hl, hu⟩, if_neg h]

theorem goodAfter_of_bad (s : State) {offset : Int} (h : offset < -100 ∨ 100 < offset) : s.goodAfter offset = 0 :=
  if_neg (by omega)

/-- A trim within ±25 ppm reads back from its register as it was written. -/
theorem toInt_ofInt_clampTrim (trim : Int) : (BitVec.ofInt 32 (clampTrim trim)).toInt = clampTrim trim := by
  have hl : -25000 ≤ clampTrim trim := le_max_left ..
  have hu : clampTrim trim ≤ 25000 := max_le (by omega) (min_le_left ..)
  rw [BitVec.toInt_ofInt, Int.bmod_eq_of_le] <;> omega

/-- R561: what a slave takes from one Sync and Delay_Resp pair. -/
theorem exec_ptpSync_slave {s : State} (hp : s.powered = true) (hr : s.ptpRole = 2) (hu : s.ptpPortUp = true)
    (offset trim : Int) : exec (.ptpSync offset trim) s = .next { s with
      time := { s.time with
        ptpState := if 16 ≤ s.goodAfter offset then 2 else if s.time.ptpState = 2 then 2 else 1
        domainOffset := s.time.domainOffset + BitVec.ofInt 64 offset
        rateTrim := BitVec.ofInt 32 (clampTrim trim) }
      fab := { s.fab with
        ptpGood := s.goodAfter offset, ptpLastSync := s.ticker, lastOffset := BitVec.ofInt 64 offset } } := by
  rw [exec_ptpSync, execPtpSync, whenPowered_of_powered hp, if_pos ⟨hr, hu⟩]
  rfl

/-- Settles O59, the master's exchanges, the slave's and the holdover apart. -/
theorem domainTime : Obligations.DomainTime := by
  intro s hp
  refine ⟨fun hr hu => ⟨fun hd => ?_, fun slave rx => ?_⟩, fun hr hu offset trim => ?_, fun hr hst hlate => ?_,
    fun hearly => ?_⟩
  · rw [exec_ptpSyncSend, execPtpSyncSend, whenPowered_of_powered hp, if_pos ⟨hr, hu, hd⟩]
    rfl
  · rw [exec_ptpDelayReq, execPtpDelayReq, whenPowered_of_powered hp, if_pos ⟨hr, hu⟩]
    rfl
  · refine ⟨_, exec_ptpSync_slave hp hr hu offset trim, rfl, rfl, ?_, ?_, rfl, rfl, fun hlo hhi hst => ⟨?_, fun hmany => ?_⟩,
      fun hbad => goodAfter_of_bad s hbad, fun hst hfew => ?_, rfl⟩
    · exact (toInt_ofInt_clampTrim trim).symm ▸ le_max_left ..
    · exact (toInt_ofInt_clampTrim trim).symm ▸ max_le (by omega) (min_le_left ..)
    · exact goodAfter_of_good hlo hhi hst
    · exact if_pos (by rw [goodAfter_of_good hlo hhi hst]; omega)
    · exact (if_neg (Nat.not_le.mpr hfew)).trans (if_neg hst)
  · rw [exec_ptpHoldover, execPtpHoldover, whenPowered_of_powered hp, if_pos ⟨hr, hst, hlate⟩]
  · rw [exec_ptpHoldover, execPtpHoldover, whenPowered_of_powered hp, if_neg fun h => Nat.not_le.mpr hearly h.2.2]

end Sys2Proof.Machine
end

section
/-!
A step with no command waiting (R45 to R47; log entries 1, 120): the reference cycle, and the frames that leave the ports.
-/
namespace Sys2Proof.Machine

/-! ### The reference cycle -/

/-- R40, R614: no cycle passes while the module is off or the reference is lost. -/
theorem tick_of_held {s : State} (h : s.powered = false ∨ s.time.refLoss = true) : tick s = s :=
  if_neg (by rcases h with h | h <;> simp [h])

/-- R45, R47: a reference cycle counts in REFCYC and adds the trimmed 10 ns to the Ticker. -/
theorem tick_of_running {s : State} (hp : s.powered = true) (hr : s.time.refLoss = false) :
    tick s = { s with time := { s.time with refcyc := s.time.refcyc + 1, acc := s.time.acc + s.increment } } :=
  if_pos (by simp [hp, hr])

/-- Without a trim a cycle is exactly 10 ns. -/
theorem increment_of_no_trim {s : State} (h : s.time.rateTrim = 0) : s.increment = 10 * 2 ^ 32 := by
  simp only [State.increment, h]
  rfl

/-- 10 ns more on the accumulator are 10 ns more on the Ticker. -/
theorem ticker_of_acc_add_ten {s t : State} (h : t.time.acc = s.time.acc + 10 * 2 ^ 32) :
    t.ticker = (s.ticker + 10) % 2 ^ 64 := by
  have hn : t.time.acc.toNat = (s.time.acc.toNat + 42949672960) % 2 ^ 96 := by
    rw [h, BitVec.toNat_add]
    rfl
  simp only [State.ticker, Nat.shiftRight_eq_div_pow, hn]
  omega

/-! ### The ports (R555) -/

/-- The states that differ from `s` at most in what the ports hold and in what has left the module. -/
def State.sameButPorts (s t : State) : Prop := ∃ o ps, t = { s with out := o, fab := { s.fab with ports := ps } }

theorem State.sameButPorts.refl (s : State) : s.sameButPorts s := ⟨s.out, s.fab.ports, rfl⟩

theorem State.sameButPorts.trans {s t u : State} (h : s.sameButPorts t) (h' : t.sameButPorts u) : s.sameButPorts u := by
  obtain ⟨_, _, rfl⟩ := h
  obtain ⟨o, ps, rfl⟩ := h'
  exact ⟨o, ps, rfl⟩

theorem upPort_sameButPorts (s : State) (p : Nat) (f : Port → Port) : s.sameButPorts (upPort s p f) := ⟨s.out, _, rfl⟩

theorem emit_sameButPorts (s : State) (o : Output) : s.sameButPorts (emit s o) := ⟨_, s.fab.ports, rfl⟩

theorem portGo_sameButPorts (s : State) (p : Nat) : s.sameButPorts (portGo s p) := by
  unfold portGo
  simp only
  split
  · exact .refl s
  · exact (upPort_sameButPorts ..).trans (emit_sameButPorts ..)

/-- A frame time of a port changes nothing but that port, and sends at most its frame. -/
theorem portSlot_sameButPorts (p : Nat) (s : State) : s.sameButPorts (portSlot p s) :=
  (upPort_sameButPorts ..).trans (portGo_sameButPorts ..)

/-- A cycle with no command waiting: the reference advances, and the ports send. -/
theorem idle_sameButPorts {s : State} (hp : s.powered = true) : (tick s).sameButPorts (idle s) := by
  rw [idle, if_pos hp]
  exact forL_induct (P := (tick s).sameButPorts) (fun p t h => h.trans (portSlot_sameButPorts p t)) (.refl _)

theorem idle_of_off {s : State} (h : s.powered = false) : idle s = s := by
  rw [idle, if_neg (by simp [h]), tick_of_held (.inl h)]

theorem idle_of_no_ports {s : State} (hp : s.powered = true) (h : s.fab.ports = []) : idle s = tick s := by
  rw [idle, if_pos hp, h]
  rfl

theorem step_of_no_command {s : State} (h : s.pending = []) : step s = .next (idle s) := by
  unfold step
  rw [h]

/-- Settles O4: the cycle is `tick`, and what the ports send touches nothing else. -/
theorem idleStepIsACycle : Obligations.IdleStepIsACycle := by
  intro s hpend
  have hstep := step_of_no_command hpend
  refine ⟨fun hp hr => ?_, fun hoff => ?_, fun hp hr => ?_⟩
  · have htick := tick_of_running hp hr
    obtain ⟨o, ps, hidle⟩ := idle_sameButPorts hp
    rw [htick] at hidle
    refine ⟨idle s, hstep, by rw [hidle], by rw [hidle], by rw [hidle], fun hnone => ?_, fun htrim => ?_⟩
    · rw [idle_of_no_ports hp hnone, htick]
    · refine ticker_of_acc_add_ten ?_
      rw [hidle, ← increment_of_no_trim htrim]
  · rw [hstep, idle_of_off hoff]
  · obtain ⟨o, ps, hidle⟩ := idle_sameButPorts hp
    rw [tick_of_held (.inr hr)] at hidle
    exact ⟨idle s, hstep, by rw [hidle]⟩

end Sys2Proof.Machine
end

section
/-!
Loss of the reference, powered time and the clocked periods of the power stage (R38, R40, R53, R622 to R624).
-/
namespace Sys2Proof.Machine

theorem exec_referenceLoss (s : State) : exec .referenceLoss s = execReferenceLoss s := rfl

theorem exec_poweredTimeRecord (s : State) : exec .poweredTimeRecord s = execPoweredTimeRecord s := rfl

theorem exec_stepRateWindow (steps : List Nat) (s : State) : exec (.stepRateWindow steps) s = execStepRateWindow steps s := rfl

theorem exec_powerStageLimit (s : State) : exec .powerStageLimit s = execPowerStageLimit s := rfl

theorem exec_powerStageThermalHold (tstack tj : List (List Int)) (s : State) :
    exec (.powerStageThermalHold tstack tj) s = execPowerStageThermalHold tstack tj s := rfl

theorem exec_junctionThermalEvent (h : HedgeId) (temp : Int) (s : State) :
    exec (.junctionThermalEvent h temp) s = execJunctionThermalEvent h temp s := rfl

@[simp] theorem whenFw_of_fwRuns {s : State} (h : s.fwRuns = true) (f : State → State) : whenFw s f = f s := if_pos h

/-! ### Loss of the reference (R40) -/

/-- The ends of jobs leave the scheduler's state. -/
theorem endJob_schedState (s : State) (id : Nat) (st : Status) (idx : BitVec 16) :
    (endJob s id st idx).sched.state = s.sched.state := by
  unfold endJob
  split <;> rfl

theorem endAll_schedState (s : State) (st : Status) : (endAll s st).sched.state = s.sched.state :=
  forL_induct (P := fun t => t.sched.state = s.sched.state) (fun x t h => (endJob_schedState t x st 0xFFFF).trans h) rfl

/-- R406: a job fault takes the device into FAULTED, unless it is STOPPED. -/
theorem jobFaultAll_schedState (s : State) (cause : Nat) :
    (jobFaultAll s cause).sched.state = if s.sched.state = .stopped then .stopped else .faulted := by
  have hr : ∀ (t : State) c d w3 w4 w5, (raiseEvent t c d w3 w4 w5).sched = t.sched := fun t c d w3 w4 w5 =>
    (congrArg State.sched (raiseEvent_still t c d w3 w4 w5) :
      (raiseEvent t c d w3 w4 w5).still.sched = t.still.sched)
  simp [jobFaultAll, hr, enterFaulted, endAll_schedState]

theorem jobFaultAll_jobFaults (s : State) (cause : Nat) : (jobFaultAll s cause).ig.jobFaults = s.ig.jobFaults + 1 :=
  congrArg Prod.fst (jobFaultAll_faultCounts s cause)

theorem jobFaultAll_time (s : State) (cause : Nat) : (jobFaultAll s cause).time = s.time :=
  (congrArg State.time (jobFaultAll_base s cause) : (jobFaultAll s cause).base.time = s.base.time)

theorem jobFaultAll_dram (s : State) (cause : Nat) : (jobFaultAll s cause).dram = s.dram :=
  (congrArg State.dram (jobFaultAll_base s cause) : (jobFaultAll s cause).base.dram = s.base.dram)

/-- The module as a loss of its reference finds it: its time holds, no channel refreshes, and local DRAM is lost. -/
def State.unreferenced (s : State) : State :=
  { s with
    time := { s.time with refLoss := true }
    chans := (s.chans.map (fun e => (e.1, { e.2 with
      aligned := false, lockWanted := false, windowDone := false, refreshOn := false }))).filter (fun e => e.2 != {})
    dram := { lost := some s.freeCtr }
    loose := []
    freeCtr := s.freeCtr + 1 }

theorem exec_referenceLoss_eq {s : State} (hp : s.powered = true) (hr : s.time.refLoss = false) :
    exec .referenceLoss s = .next (jobFaultAll s.unreferenced causeRefLoss) := by
  rw [exec_referenceLoss, execReferenceLoss, whenPowered_of_powered hp, if_neg (by simp [hr])]
  rfl

/-! ### Setpoints -/

/-- A setpoint that the power stage lowers: by 10 mV, to 700 mV at the lowest. -/
def loweredMv (v : Nat) : Nat := if 700 < v then max 700 (v - 10) else v

/-- R622, R623: the power stage lowers the setpoint of every hedge and touches nothing else. -/
theorem stageLower_eq (s : State) : ∃ hs, stageLower s = { s with hedges := hs } ∧
    ∀ h, h < 12 → Tbl.get {} hs h = { s.hedge h with vsetMv := loweredMv (s.hedge h).vsetMv } := by
  obtain ⟨hs, heq, hget⟩ := forN_upHedge 12 (fun _ x => { x with vsetMv := loweredMv x.vsetMv }) s
  exact ⟨hs, heq, fun h hh => (hget h).trans (if_pos hh)⟩

/-- The hottest sensor is above a limit exactly where one of the sensors is; with no sensor none is. -/
theorem lt_hottestDie_iff {k : Int} (hk : 0 ≤ k) (l : List Int) : k < hottestDie l ↔ ∃ x ∈ l, k < x := by
  have hfold : ∀ (l : List Int) (a : Int), k < l.foldl max a ↔ k < a ∨ ∃ x ∈ l, k < x := by
    intro l
    induction l with
    | nil => simp
    | cons x l ih => intro a; simp [ih, or_assoc]
  cases l with
  | nil => simp [hottestDie, hk]
  | cons x l => simp [hottestDie, hfold]

theorem any_lt_hottestDie_iff {k : Int} (hk : 0 ≤ k) (l : List (List Int)) :
    l.any (fun d => decide (k < hottestDie d)) = true ↔ ∃ d ∈ l, ∃ x ∈ d, k < x := by
  simp only [List.any_eq_true, decide_eq_true_eq, lt_hottestDie_iff hk]

/-! ### The events -/

/-- R622: over 1,150 W the power stage lowers every setpoint, once in each 100 µs. -/
theorem exec_powerStageLimit_eq {s : State} (hp : s.powered = true) (hd : due s mkStageLimit 100000 = true) :
    exec .powerStageLimit s = .next (mark (stageLower s) mkStageLimit 100000) := by
  rw [exec_powerStageLimit, execPowerStageLimit, whenPowered_of_powered hp, if_pos hd]

/-- R623: while Ulizor core 2 restarts, the power stage does so where a sensor is above its limit. -/
theorem exec_powerStageThermalHold_eq {s : State} {tstack tj : List (List Int)} (hp : s.powered = true)
    (hw : (Instr.powerStageThermalHold tstack tj).wf = true) (hd : due s mkStageHold 100000 = true) :
    exec (.powerStageThermalHold tstack tj) s = .next (mark
      (if (∃ l ∈ tstack, ∃ x ∈ l, 950 < x) ∨ (∃ l ∈ tj, ∃ x ∈ l, 1000 < x) then stageLower s else s) mkStageHold 100000) := by
  have hif : (if (tstack.any (fun l => decide (950 < hottestDie l)) || tj.any (fun l => decide (1000 < hottestDie l))) = true
      then stageLower s else s) =
      if (∃ l ∈ tstack, ∃ x ∈ l, 950 < x) ∨ (∃ l ∈ tj, ∃ x ∈ l, 1000 < x) then stageLower s else s :=
    if_congr (by rw [Bool.or_eq_true, any_lt_hottestDie_iff (by decide), any_lt_hottestDie_iff (by decide)]) rfl rfl
  rw [exec_powerStageThermalHold, execPowerStageThermalHold, guardWf_of_wf _ _ hw, whenPowered_of_powered hp, if_pos hd]
  simp only [hif]

/-- R624: EV_THERMAL and its count change nothing else of the module. -/
theorem thermalEvent_still (s : State) (stack hedge : Nat) (temp : Int) : (thermalEvent s stack hedge temp).still =
    State.still { s with pwr := { s.pwr with thermalEvents := s.pwr.thermalEvents + 1 } } := raiseEvent_still ..

theorem thermalEvent_pwr (s : State) (stack hedge : Nat) (temp : Int) : (thermalEvent s stack hedge temp).pwr =
    { s.pwr with thermalEvents := s.pwr.thermalEvents + 1 } :=
  (congrArg State.pwr (thermalEvent_still s stack hedge temp) : State.pwr (State.still _) = State.pwr (State.still _))

theorem thermalEvent_dram (s : State) (stack hedge : Nat) (temp : Int) : (thermalEvent s stack hedge temp).dram = s.dram :=
  (congrArg State.dram (thermalEvent_still s stack hedge temp) : State.dram (State.still _) = State.dram (State.still _))

theorem thermalEvent_jobs (s : State) (stack hedge : Nat) (temp : Int) : (thermalEvent s stack hedge temp).jobs = s.jobs :=
  (congrArg State.jobs (thermalEvent_still s stack hedge temp) : State.jobs (State.still _) = State.jobs (State.still _))

theorem thermalEvent_hedge (s : State) (stack hedge : Nat) (temp : Int) (k : Nat) :
    (thermalEvent s stack hedge temp).hedge k = s.hedge k :=
  (congrArg (fun t => State.hedge t k) (thermalEvent_still s stack hedge temp) :
    State.hedge (State.still _) k = State.hedge (State.still _) k)

theorem exec_junctionThermalEvent_eq {s : State} {h : HedgeId} {temp : Int} (hf : s.fwRuns = true)
    (hd : due s (mkJunction h) 10000000 = true) (ht : 1000 < temp) : exec (.junctionThermalEvent h temp) s = .next
      (mark (thermalEvent (upHedge s h (fun x => { x with tj := temp })) 0xFF h temp) (mkJunction h) 10000000) := by
  rw [exec_junctionThermalEvent, execJunctionThermalEvent, whenFw_of_fwRuns hf, if_pos (by simp [hd, ht])]

/-- Settles O15, event by event. -/
theorem timeAndStageEvents : Obligations.TimeAndStageEvents := by
  refine ⟨⟨fun s hp hr => ?_, fun s hf hd hok hr => ?_, fun s steps hp hl hd => ?_⟩, fun s hp hd => ?_,
    fun s tstack tj hp hw hd => ?_, fun s h temp hf hd ht => ?_⟩
  · refine ⟨_, exec_referenceLoss_eq hp hr, jobFaultAll_time .., jobFaultAll_dram .., fun id => jobFaultAll_lives _ _ id,
      fun hst => ?_, jobFaultAll_jobFaults ..⟩
    rw [jobFaultAll_schedState]
    exact if_neg hst
  · rw [exec_poweredTimeRecord, execPoweredTimeRecord, whenFw_of_fwRuns hf, if_pos (by simp [hd, hok, hr])]
    rfl
  · obtain ⟨hs, heq, hget⟩ := forN_upHedge 12 (fun h x => { x with rate := steps.getD h 0 / 10 }) s
    have hw : (Instr.stepRateWindow steps).wf = true := by simp [Instr.wf, twelve, hl]
    rw [exec_stepRateWindow, execStepRateWindow, guardWf_of_wf _ _ hw, whenPowered_of_powered hp, if_pos hd, heq]
    exact ⟨_, rfl, fun h hh => (hget h).trans (if_pos hh), rfl, rfl⟩
  · obtain ⟨hs, heq, hget⟩ := stageLower_eq s
    rw [exec_powerStageLimit_eq hp hd, heq]
    exact ⟨_, rfl, hget, rfl⟩
  · rw [exec_powerStageThermalHold_eq hp hw hd]
    by_cases habove : (∃ l ∈ tstack, ∃ x ∈ l, 950 < x) ∨ (∃ l ∈ tj, ∃ x ∈ l, 1000 < x)
    · obtain ⟨hs, heq, hget⟩ := stageLower_eq s
      simp only [and_true, habove, heq]
      exact ⟨_, rfl, hget, rfl⟩
    · simp only [habove, and_false, if_false]
      exact ⟨_, rfl, fun _ _ => rfl, rfl⟩
  · have hedge_eq : ∀ k, (mark (thermalEvent (upHedge s h (fun x => { x with tj := temp })) 0xFF h temp)
        (mkJunction h) 10000000).hedge k = (upHedge s h (fun x => { x with tj := temp })).hedge k :=
      fun k => thermalEvent_hedge _ _ _ _ k
    refine ⟨_, exec_junctionThermalEvent_eq hf hd ht, ?_, raiseEvent_evSeq .., ?_, fun k hk => ?_, thermalEvent_dram ..,
      thermalEvent_jobs ..⟩
    · rw [mark_pwr, thermalEvent_pwr]
      rfl
    · rw [hedge_eq, upHedge_hedge, if_pos rfl]
    · rw [hedge_eq, upHedge_hedge, if_neg hk]

end Sys2Proof.Machine
end

section
/-!
The phases of bring-up (R627 to R631): powered-time records, lane repair (R78, R79), the retention probe (R593), the clearing
of local DRAM (R630), the structures that firmware keeps there (R273, R356), and READY.
-/
namespace Sys2Proof.Machine

theorem exec_bringupRecords (s : State) : exec .bringupRecords s = execBringupRecords s := rfl

theorem exec_laneRepair (failing : List (Nat × Nat)) (s : State) :
    exec (.laneRepair failing) s = execLaneRepair failing s := rfl

theorem exec_retentionProbe (clean : List (Nat × Nat)) (tstack : List Int) (s : State) :
    exec (.retentionProbe clean tstack) s = execRetentionProbe clean tstack s := rfl

theorem exec_dramZero (s : State) : exec .dramZero s = execDramZero s := rfl

theorem exec_bringupStructures (s : State) : exec .bringupStructures s = execBringupStructures s := rfl

theorem exec_ready (s : State) : exec .ready s = execReady s := rfl

/-! ### Applying the fabric record (R536) -/

/-- The state without what applying the stored fabric record, or ending jobs, changes: the fabric, the measurements, the
record's PENDING mark, and the part of the time base that belongs to PTP (R561). -/
def State.sansFabric (s : State) : State :=
  { s.base with
    fab := {}, sec := {}, flash := { s.flash with fabricPending := false }
    time := { s.time with ptpState := 0, domainOffset := 0, rateTrim := 0 } }

theorem sansFabric_of_base {s t : State} (h : t.base = s.base) : t.sansFabric = s.sansFabric := by
  have hf : t.flash = s.flash := (congrArg State.flash h : t.base.flash = s.base.flash)
  have ht : t.time = s.time := (congrArg State.time h : t.base.time = s.base.time)
  rw [State.sansFabric, State.sansFabric, h, hf, ht]

theorem fabricEvent_sansFabric (s : State) (cause port peer : Nat) :
    (fabricEvent s cause port peer).sansFabric = s.sansFabric := sansFabric_of_base (base_of_still (raiseEvent_still ..))

theorem setFab_sansFabric (s : State) (f : Fabric) : ({ s with fab := f } : State).sansFabric = s.sansFabric := rfl

theorem upPeer_sansFabric (s : State) (m : Nat) (f : Peer → Peer) : (upPeer s m f).sansFabric = s.sansFabric := rfl

theorem upLchan_sansFabric (s : State) (m : Nat) (lc : Bool) (f : LChan → LChan) :
    (upLchan s m lc f).sansFabric = s.sansFabric := rfl

theorem dropPeerWork_sansFabric (s : State) (m : Nat) : (dropPeerWork s m).sansFabric = s.sansFabric := rfl

/-- R553: a restart of the channels with a peer changes the fabric, the work done for the peer, and jobs that lose a request. -/
theorem restartPeer_sansFabric (s : State) (m : Nat) : (restartPeer s m).sansFabric = s.sansFabric := by
  simp only [restartPeer, fabricEvent_sansFabric, dropPeerWork_sansFabric, setFab_sansFabric, upPeer_sansFabric,
    upLchan_sansFabric]
  refine forL_induct (P := fun t => State.sansFabric t = s.sansFabric) (fun o t h => ?_) rfl
  split
  · exact (sansFabric_of_base (failJob_base ..)).trans h
  · exact h

theorem applyFabric_sansFabric (s : State) : (applyFabric s).sansFabric = s.sansFabric := by
  unfold applyFabric
  dsimp only
  split
  · rfl
  · refine (fabricEvent_sansFabric ..).trans ?_
    refine forL_induct (P := fun t => State.sansFabric t = s.sansFabric)
      (fun m t h => (restartPeer_sansFabric t m).trans h) ?_
    split
    · rfl
    · rfl

/-- What R536 leaves as it was of the bring-up record, the routine banks, local DRAM, and the powered-seconds records. -/
theorem applyFabric_frame (s : State) : (applyFabric s).bring = s.bring ∧ (applyFabric s).routines = s.routines ∧
    (applyFabric s).dram = s.dram ∧ (applyFabric s).flash.svn = s.flash.svn ∧
    (applyFabric s).flash.bestPowered = s.flash.bestPowered ∧ (applyFabric s).time.persistedS = s.time.persistedS ∧
    (applyFabric s).time.powerUps = s.time.powerUps ∧ (applyFabric s).time.persistOk = s.time.persistOk := by
  have h := applyFabric_sansFabric s
  exact ⟨(congrArg State.bring h : State.bring (State.sansFabric _) = State.bring (State.sansFabric _)),
    (congrArg State.routines h : State.routines (State.sansFabric _) = State.routines (State.sansFabric _)),
    (congrArg State.dram h : State.dram (State.sansFabric _) = State.dram (State.sansFabric _)),
    (congrArg (fun t => t.flash.svn) h), (congrArg (fun t => t.flash.bestPowered) h),
    (congrArg (fun t => t.time.persistedS) h), (congrArg (fun t => t.time.powerUps) h),
    (congrArg (fun t => t.time.persistOk) h)⟩

/-! ### Phase 3: the records (R627, R40, R53) -/

/-- R585, R586: blowing fuses changes the security version, which never falls, and the measurements. -/
theorem fuseRaise_eq (s : State) : ∃ v sec, s.flash.svn ≤ v ∧
    fuseRaise s = { s with flash := { s.flash with svn := v }, sec := sec } := by
  unfold fuseRaise
  split
  · exact ⟨_, _, Nat.le_of_lt ‹_›, rfl⟩
  · exact ⟨s.flash.svn, s.sec, Nat.le_refl _, rfl⟩

/-- The module whose time base shows the record of its last power-up, once it has stored the record of this one unless the
reference is lost. -/
def State.poweredRecordsShown (s : State) (r : PoweredRec) : State :=
  let s := enterPhase { s with routines := {} } 1
  let s := { s with time := { s.time with persistedS := r.poweredS, powerUps := r.powerUps + 1 } }
  let s := if s.time.refLoss then s
    else { s with flash := s.flash.writePowered r.poweredS (r.powerUps + 1), time := { s.time with persistOk := true } }
  { s with bring := { s.bring with banksCleared := true } }

theorem exec_bringupRecords_of_record {s : State} {r : PoweredRec} (hf : s.fwRuns = true) (hph : s.bring.phase = 0)
    (hr : s.flash.bestPowered = some r) :
    exec .bringupRecords s = .next (applyFabric (fuseRaise (s.poweredRecordsShown r))) := by
  rw [exec_bringupRecords, execBringupRecords, whenFw_of_fwRuns hf, if_pos hph]
  simp only [enterPhase, hr]
  rfl

theorem exec_bringupRecords_of_none {s : State} (hf : s.fwRuns = true) (hph : s.bring.phase = 0)
    (hr : s.flash.bestPowered = none) :
    exec .bringupRecords s = .next (stopBringUp (enterPhase { s with routines := {} } 1) 0x03 0xFFFF) := by
  rw [exec_bringupRecords, execBringupRecords, whenFw_of_fwRuns hf, if_pos hph]
  simp only [enterPhase, hr]

theorem writePowered_svn (f : Flash) (p : Word) (u : BitVec 32) : (f.writePowered p u).svn = f.svn := by
  unfold Flash.writePowered
  dsimp only
  split <;> rfl

theorem poweredRecordsShown_svn (s : State) (r : PoweredRec) : (s.poweredRecordsShown r).flash.svn = s.flash.svn := by
  unfold State.poweredRecordsShown
  dsimp only
  split
  · rfl
  · exact writePowered_svn ..

theorem poweredRecordsShown_of_reference {s : State} (r : PoweredRec) (h : s.time.refLoss = false) :
    s.poweredRecordsShown r = { s with
      routines := {}, bring := { s.bring with phase := 1, phaseTicker := s.tickerW, banksCleared := true }
      flash := s.flash.writePowered r.poweredS (r.powerUps + 1)
      time := { s.time with persistedS := r.poweredS, powerUps := r.powerUps + 1, persistOk := true } } := by
  simp only [State.poweredRecordsShown, enterPhase, h]
  rfl

/-- R40: after a reference loss no powered-time record is written. -/
theorem poweredRecordsShown_of_refLoss {s : State} (r : PoweredRec) (h : s.time.refLoss = true) :
    s.poweredRecordsShown r = { s with
      routines := {}, bring := { s.bring with phase := 1, phaseTicker := s.tickerW, banksCleared := true }
      time := { s.time with persistedS := r.poweredS, powerUps := r.powerUps + 1 } } := by
  simp only [State.poweredRecordsShown, enterPhase, h]
  rfl

/-- What phase 3 leaves in the bring-up record, the routine banks, local DRAM and the time base, with or without a reference. -/
theorem poweredRecordsShown_frame (s : State) (r : PoweredRec) :
    (s.poweredRecordsShown r).bring = { s.bring with phase := 1, phaseTicker := s.tickerW, banksCleared := true } ∧
    (s.poweredRecordsShown r).routines = {} ∧ (s.poweredRecordsShown r).dram = s.dram ∧
    (s.poweredRecordsShown r).time.persistedS = r.poweredS ∧
    (s.poweredRecordsShown r).time.powerUps = r.powerUps + 1 := by
  cases h : s.time.refLoss with
  | true => rw [poweredRecordsShown_of_refLoss r h]; exact ⟨rfl, rfl, rfl, rfl, rfl⟩
  | false => rw [poweredRecordsShown_of_reference r h]; exact ⟨rfl, rfl, rfl, rfl, rfl⟩

/-! ### Phase 4: lane repair (R78, R79) -/

/-- A table written out for the keys of a list reads as what it was made from. -/
theorem Tbl.get_tabulate {α : Type} (d : α) (f : Nat → α) {l : List Nat} {k : Nat} (hk : k ∈ l) :
    Tbl.get d (l.map (fun c => (c, f c))) k = f k := by
  induction l with
  | nil => cases hk
  | cons c l ih =>
    rw [List.map_cons, Tbl.get_cons]
    split
    · rw [‹k = c›]
    · exact ih (List.mem_of_ne_of_mem ‹_› hk)

/-- Leaving the default's entries out of such a table changes nothing of what it reads as. -/
theorem Tbl.get_filter_ne_default {α : Type} [BEq α] [LawfulBEq α] (d : α) (f : Nat → α) (l : List Nat) (k : Nat) :
    Tbl.get d ((l.map (fun c => (c, f c))).filter (fun e => e.2 != d)) k = Tbl.get d (l.map (fun c => (c, f c))) k := by
  induction l with
  | nil => rfl
  | cons c l ih =>
    rw [List.map_cons, List.filter_cons, Tbl.get_cons, ← ih]
    by_cases hc : f c = d
    · rw [if_neg (by simp [hc])]
      split
      · subst ‹k = c›
        rw [hc, ih]
        by_cases hk : k ∈ l
        · rw [Tbl.get_tabulate d f hk, hc]
        · exact Tbl.get_of_not_mem d _ k fun _ he => by
            obtain ⟨j, hj, rfl⟩ := List.mem_map.mp he
            exact fun h => hk (h ▸ hj)
      · rfl
    · rw [if_pos (by simpa using hc), Tbl.get_cons]

/-- Both, for the keys below a number. -/
theorem Tbl.get_range_tabulate {α : Type} (d : α) (f : Nat → α) {n k : Nat} (hk : k < n) :
    Tbl.get d ((List.range n).map (fun c => (c, f c))) k = f k := Tbl.get_tabulate d f (List.mem_range.mpr hk)

theorem Tbl.get_range_tabulate_filter {α : Type} [BEq α] [LawfulBEq α] (d : α) (f : Nat → α) {n k : Nat} (hk : k < n) :
    Tbl.get d (((List.range n).map (fun c => (c, f c))).filter (fun e => e.2 != d)) k = f k :=
  (Tbl.get_filter_ne_default ..).trans (Tbl.get_range_tabulate d f hk)

/-- A channel once its failing lanes have been steered onto its spares, where those suffice. -/
def repairedChan (l : List (Nat × Nat)) (c : Nat) (x : Chan) : Chan :=
  if sparesOk l c then { x with spareDq := dqFails l c, spareCa := caFails l c, refreshOn := true } else x

/-- R73, R78: steering changes the channels alone, each on its own. -/
theorem steerLanes_eq (l : List (Nat × Nat)) (s : State) : ∃ cs, steerLanes l s = { s with chans := cs } ∧
    ∀ c, c < 768 → Tbl.get {} cs c = repairedChan l c (s.chan c) :=
  ⟨_, rfl, fun _ hc => Tbl.get_range_tabulate_filter ({} : Chan) (fun c => repairedChan l c (s.chan c)) hc⟩

/-- The repair map of a test result (R78): the failing lanes of each channel. -/
def repairMap (l : List (Nat × Nat)) : Tbl (List Nat) :=
  ((List.range 768).map (fun c => (c, failingOf l c))).filter (fun e => e.2 != [])

theorem get_repairMap (l : List (Nat × Nat)) {c : Nat} (hc : c < 768) : Tbl.get [] (repairMap l) c = failingOf l c :=
  Tbl.get_range_tabulate_filter [] (failingOf l) hc

/-- R78: the log names exactly the lanes whose place in the repair map changed. -/
theorem mem_changedLanes_iff (old map : Tbl (List Nat)) {c i : Nat} (hc : c < 768) (hi : i < 84) :
    (c, i) ∈ changedLanes old map ↔ ¬(i ∈ Tbl.get [] old c ↔ i ∈ Tbl.get [] map c) := by
  have hne : ((Tbl.get [] old c).contains i != (Tbl.get [] map c).contains i) = true ↔
      ¬(i ∈ Tbl.get [] old c ↔ i ∈ Tbl.get [] map c) := by
    rw [bne_iff_ne, ne_eq, Bool.eq_iff_iff, List.contains_iff_mem, List.contains_iff_mem]
  rw [← hne]
  simp only [changedLanes, List.mem_flatMap, List.mem_map, List.mem_filter, List.mem_range, Prod.mk.injEq]
  constructor
  · rintro ⟨c', -, i', ⟨-, h⟩, rfl, rfl⟩
    exact h
  · exact fun h => ⟨c, hc, i, ⟨hi, h⟩, rfl, rfl⟩

theorem exec_laneRepair_eq {s : State} {l : List (Nat × Nat)} (hf : s.fwRuns = true) (hph : s.bring.phase = 1)
    (hl : l.all laneOk = true) : exec (.laneRepair l) s = .next (repairLanes l (enterPhase s 2)) := by
  rw [exec_laneRepair, execLaneRepair, guardWf_of_wf _ _ (c := .laneRepair l) hl, whenFw_of_fwRuns hf, if_pos hph]

/-- R78: where every channel has spares enough, the map is stored and what changed in it is logged. -/
theorem repairLanes_of_all_ok {l : List (Nat × Nat)} (s : State) (h : ∀ c, c < 768 → sparesOk l c = true) :
    ∃ map log, map = repairMap l ∧ log = changedLanes s.flash.repair map ∧
      repairLanes l s = { steerLanes l s with
        flash := { s.flash with repair := map }
        bring := { s.bring with lanesChanged := log.length, laneLog := log } } := by
  have hnone : (List.range 768).find? (fun c => !sparesOk l c) = none := by
    rw [List.find?_eq_none]
    intro c hc
    simp [h c (List.mem_range.mp hc)]
  refine ⟨_, _, rfl, rfl, ?_⟩
  unfold repairLanes
  rw [hnone]
  rfl

theorem repairLanes_of_failing {l : List (Nat × Nat)} {c : Nat} (s : State) (hc : c < 768) (h : sparesOk l c = false)
    (hlow : ∀ d, d < c → sparesOk l d = true) : repairLanes l s =
      stopBringUp (steerLanes l s) (if 4 < dqFails l c then 0x01 else 0x02) (BitVec.ofNat 16 c) := by
  have hsome : (List.range 768).find? (fun c => !sparesOk l c) = some c := by
    rw [List.find?_range_eq_some]
    exact ⟨by simp [h], List.mem_range.mpr hc, fun d hd => by simp [hlow d hd]⟩
  unfold repairLanes
  rw [hsome]

/-- Phase 4 where every channel has spares enough (R73, R78). -/
theorem exec_laneRepair_of_all_ok {s : State} {l : List (Nat × Nat)} (hf : s.fwRuns = true) (hph : s.bring.phase = 1)
    (hl : l.all laneOk = true) (h : ∀ c, c < 768 → sparesOk l c = true) : ∃ t, exec (.laneRepair l) s = .next t ∧
      t.bring.phase = 2 ∧ t.bring.laneLog = changedLanes s.flash.repair (repairMap l) ∧ t.dram = s.dram ∧
      t.flash.repair = repairMap l ∧ ∀ c, c < 768 → t.chan c = repairedChan l c (s.chan c) := by
  obtain ⟨cs, hcs, hget⟩ := steerLanes_eq l (enterPhase s 2)
  obtain ⟨map, log, hmap, hlog, heq⟩ := repairLanes_of_all_ok (enterPhase s 2) h
  rw [exec_laneRepair_eq hf hph hl, heq, hcs, ← hmap]
  exact ⟨_, rfl, rfl, hlog, rfl, rfl, hget⟩

/-! ### Phase 5: the retention probe (R593) -/

/-- The health records of a hedge's stack change nothing else. -/
theorem showMargin_eq (h : Nat) (s : State) : ∃ y, showMargin h s = { s with health := y } := by
  unfold showMargin
  split
  · split
    · unfold putPredict
      split <;> exact ⟨_, rfl⟩
    · exact ⟨s.health, rfl⟩
  · exact ⟨s.health, rfl⟩

theorem forN_showMargin_eq (n : Nat) (s : State) : ∃ y, forN n showMargin s = { s with health := y } := by
  refine forN_induct (P := fun t => ∃ y, t = { s with health := y }) ⟨s.health, rfl⟩ fun i t _ ⟨y, hy⟩ => ?_
  obtain ⟨z, hz⟩ := showMargin_eq i t
  exact ⟨z, by rw [hz, hy]⟩

/-- The longest clean interval that the probe found for a channel. -/
def longestClean (clean : List (Nat × Nat)) (c : Nat) : Nat :=
  match clean.find? (fun p => p.1 == c) with
  | some p => p.2
  | none => 0

/-- A channel with the normalised margin that the probe gives it. -/
def probedChan (clean : List (Nat × Nat)) (tstack : List Int) (c : Nat) (x : Chan) : Chan :=
  { x with retention := Config.retentionMs (longestClean clean c) (tstack.getD (c / 64) 0) }

/-- The channels as the probe leaves them. -/
def State.probedChans (s : State) (clean : List (Nat × Nat)) (tstack : List Int) : Tbl Chan :=
  (List.range 768).map (fun c => (c, probedChan clean tstack c (s.chan c)))

theorem get_probedChans (s : State) (clean : List (Nat × Nat)) (tstack : List Int) {c : Nat} (hc : c < 768) :
    Tbl.get {} (s.probedChans clean tstack) c = probedChan clean tstack c (s.chan c) := by
  unfold State.probedChans
  rw [Tbl.get_range_tabulate _ _ hc]

/-- Phase 5: every channel takes its margin, and the health records show the least of each stack. -/
theorem exec_retentionProbe_eq {s : State} {clean : List (Nat × Nat)} {tstack : List Int} (hf : s.fwRuns = true)
    (hph : s.bring.phase = 2) (hw : (Instr.retentionProbe clean tstack).wf = true) :
    exec (.retentionProbe clean tstack) s =
      .next (forN 12 showMargin { enterPhase s 3 with chans := s.probedChans clean tstack }) := by
  rw [exec_retentionProbe, execRetentionProbe, guardWf_of_wf _ _ hw, whenFw_of_fwRuns hf, if_pos hph]
  rfl

/-! ### Phase 7: structures in local DRAM (R273, R356) -/

/-- R28, R356: each hedge's warden clears its Privet entries. -/
theorem clearPrivets_eq (s : State) : ∃ hs, forN 12 (fun h s => applyCfg s h (.privet [])) s = { s with hedges := hs } ∧
    ∀ h, h < 12 → Tbl.get {} hs h = { s.hedge h with privet := [] } := by
  obtain ⟨hs, heq, hget⟩ := forN_upHedge 12 (fun _ x => { x with privet := [] }) s
  exact ⟨hs, heq, fun h hh => (hget h).trans (if_pos hh)⟩

/-- The context table is one range of 4,096 entries, cleared as a whole. -/
theorem zero_contexts_word (m : Mem) (i : Nat) : (m.zero (contextAt 0) 65536).word i =
    if contextAt 0 / 8 ≤ i ∧ i < contextAt 4096 / 8 then .good 0 else m.word i :=
  Mem.word_zero m (a := contextAt 0) (n := 65536) (by decide) (by decide) i

/-- Phase 7 (R273, R356): scratchpads and Privet entries are cleared, the contexts are invalid, and scrubbing starts. -/
theorem exec_bringupStructures_eq {s : State} (hf : s.fwRuns = true) (hph : s.bring.phase = 4) : ∃ ks hs,
    exec .bringupStructures s = .next { enterPhase s 5 with
      cores := ks, hedges := hs, scrubOn := true, dram := s.dram.zero (contextAt 0) 65536
      xl := { s.xl with contexts := [], nextNode := 0, privet := [], hostPrivet := [], flashPrivet := [] } } ∧
    ∀ h, h < 12 → Tbl.get {} hs h = { s.hedge h with privet := [] } := by
  obtain ⟨hs, heq, hget⟩ := clearPrivets_eq (tidyCores { enterPhase s 5 with
    cores := (enterPhase s 5).cores.map (fun e => (e.1, { e.2 with scratch := {} })) })
  refine ⟨(tidyCores { enterPhase s 5 with
    cores := (enterPhase s 5).cores.map (fun e => (e.1, { e.2 with scratch := {} })) }).cores, hs, ?_, hget⟩
  rw [exec_bringupStructures, execBringupStructures, whenFw_of_fwRuns hf, if_pos hph]
  dsimp only
  rw [heq]
  rfl

/-- Settles O14, phase by phase. -/
theorem bringUp : Obligations.BringUp := by
  refine ⟨fun s r hf hph hr => ?_, fun s hf hph hr => ?_, fun s failing hf hph hl hok => ?_,
    fun s failing c hf hph hl hc hbad hlow => ?_, fun s clean tstack hf hph hw => ?_, fun s hf hph => ?_,
    fun s hf hph => ?_, fun s hf hph => ?_⟩
  case refine_1 =>
    obtain ⟨v, sec, hv, hfuse⟩ := fuseRaise_eq (s.poweredRecordsShown r)
    obtain ⟨hbring, hrout, hdram, hsvn, hbest, hps, hups, hpok⟩ := applyFabric_frame (fuseRaise (s.poweredRecordsShown r))
    obtain ⟨gbring, grout, gdram, gps, gups⟩ := poweredRecordsShown_frame s r
    rw [poweredRecordsShown_svn] at hv
    simp only [hfuse] at hbring hrout hdram hsvn hbest hps hups hpok
    refine ⟨_, exec_bringupRecords_of_record hf hph hr, ?_⟩
    rw [hfuse, hbring, hrout, hdram, hsvn, hbest, hps, hups, hpok, gbring, grout, gdram, gps, gups]
    refine ⟨rfl, rfl, rfl, rfl, rfl, rfl, hv, rfl, fun href => ?_, fun href => ⟨?_, ?_⟩⟩
    · rw [poweredRecordsShown_of_reference r href]
    · rw [poweredRecordsShown_of_refLoss r href]
    · rw [poweredRecordsShown_of_refLoss r href]
      exact hr
  case refine_2 => exact ⟨_, exec_bringupRecords_of_none hf hph hr, rfl, rfl, rfl⟩
  case refine_3 =>
    have hspares : ∀ c, c < 768 → sparesOk failing c = true := fun c hc => by
      obtain ⟨hdq, hca⟩ := hok c hc
      simp [sparesOk, dqFails, caFails, hdq, hca]
    obtain ⟨t, hstep, hphase, hlog, hdram, hrep, hchan⟩ := exec_laneRepair_of_all_ok hf hph hl hspares
    refine ⟨t, hstep, hphase, hdram, fun c hc => ?_⟩
    rw [hlog, hrep, get_repairMap failing hc, hchan c hc]
    refine ⟨rfl, if_pos (hspares c hc), fun i hi => ?_⟩
    rw [mem_changedLanes_iff _ _ hc hi, get_repairMap failing hc]
  case refine_4 =>
    obtain ⟨cs, hcs, hget⟩ := steerLanes_eq failing (enterPhase s 2)
    rw [exec_laneRepair_eq hf hph hl, repairLanes_of_failing _ hc hbad hlow, hcs]
    refine ⟨_, rfl, rfl, rfl, rfl, rfl, rfl, rfl, fun d hd => ?_⟩
    refine (congrArg Chan.refreshOn (hget d hd)).trans ?_
    unfold repairedChan
    cases sparesOk failing d <;> rfl
  case refine_5 =>
    have hget : ∀ c, c < 768 → Tbl.get {} (s.probedChans clean tstack) c = probedChan clean tstack c (s.chan c) :=
      fun c => get_probedChans s clean tstack
    rw [exec_retentionProbe_eq hf hph hw]
    generalize s.probedChans clean tstack = cs at hget
    obtain ⟨y, hy⟩ := forN_showMargin_eq 12 { enterPhase s 3 with chans := cs }
    rw [hy]
    exact ⟨_, rfl, rfl, rfl, hget⟩
  case refine_6 =>
    rw [exec_dramZero, execDramZero, whenFw_of_fwRuns hf, if_pos hph]
    rfl
  case refine_7 =>
    obtain ⟨ks, hs, hstep, hget⟩ := exec_bringupStructures_eq hf hph
    exact ⟨_, hstep, rfl, rfl, fun i => zero_contexts_word s.dram i, rfl, hget⟩
  case refine_8 =>
    rw [exec_ready, execReady, whenFw_of_fwRuns hf, if_pos hph]
    rfl

end Sys2Proof.Machine
end

section
/-!
Register accesses of BAR0 and of configuration space (R48, R365, R368, R412, R428, R434, R478 to R482, R511 to R520): what each
register reads as, and what each read and write changes.
-/
namespace Sys2Proof.Machine

theorem exec_dbStatusRead (f : FnId) (s : State) : exec (.dbStatusRead f) s = execDbStatusRead f s := rfl

theorem exec_mbStatusRead (f : FnId) (s : State) : exec (.mbStatusRead f) s = execMbStatusRead f s := rfl

theorem exec_fqStatusRead (f : FnId) (s : State) : exec (.fqStatusRead f) s = execFqStatusRead f s := rfl

theorem exec_hlErrRead (s : State) : exec .hlErrRead s = execHlErrRead s := rfl

theorem exec_hlResetsRead (s : State) : exec .hlResetsRead s = execHlResetsRead s := rfl

theorem exec_hlHwinWrite (v : Word) (s : State) : exec (.hlHwinWrite v) s = execHlHwinWrite v s := rfl

theorem exec_tbLowHalfRead (f : FnId) (offset : Nat) (s : State) :
    exec (.tbLowHalfRead f offset) s = execTbLowHalfRead f offset s := rfl

theorem exec_fqResolveRelease (f : FnId) (tag : BitVec 16) (s : State) :
    exec (.fqResolveRelease f tag) s = execFqResolveRelease f tag s := rfl

theorem exec_fqResolveFail (f : FnId) (tag : BitVec 16) (s : State) :
    exec (.fqResolveFail f tag) s = execFqResolveFail f tag s := rfl

theorem exec_mbRelease (f : FnId) (k : SlotId) (s : State) : exec (.mbRelease f k) s = execMbRelease f k s := rfl

theorem exec_registerWriteOther (f : FnId) (offset : Nat) (eight : Bool) (v : Word) (s : State) :
    exec (.registerWriteOther f offset eight v) s = execRegisterWriteOther f offset eight v s := rfl

theorem exec_bar0BadAccess (f : FnId) (isRead : Bool) (why : BadAccess) (s : State) :
    exec (.bar0BadAccess f isRead why) s = execBar0BadAccess f isRead why s := rfl

@[simp] theorem whenPresent_of_present {s : State} (h : s.present = true) (f : State → State) : whenPresent s f = f s :=
  if_pos h

theorem powered_of_fwRuns {s : State} (h : s.fwRuns = true) : s.powered = true := by
  simp only [State.fwRuns, Bool.and_eq_true] at h
  exact h.1

theorem present_of_fwRuns {s : State} (h : s.fwRuns = true) (hl : s.link.configReady = true) : s.present = true := by
  rw [State.present, powered_of_fwRuns h, hl]
  rfl

/-! ### What the registers of a function window read as (R515) -/

theorem bar0Reg_dbStatus (s : State) (f : Nat) : s.bar0Reg f 0x6C00 = regAt 31 0 (Tbl.get 0 s.dbIgnored f) := by
  simp [State.bar0Reg, State.windowReg]

theorem bar0Reg_mbStatus (s : State) : s.bar0Reg 0 0x5018 = regAt 63 32 s.eqDropped ||| regAt 31 0 s.mbIgnored := by
  simp [State.bar0Reg, State.windowReg]

theorem bar0Reg_fqStatus (s : State) :
    s.bar0Reg 0 0x7008 = at_ 47 32 s.xl.pend.length ||| regAt 31 16 s.xl.stale ||| regAt 15 0 s.xl.heldFull := by
  simp [State.bar0Reg, State.windowReg]

theorem bar0Reg_hlErr (s : State) : s.bar0Reg 0 0x20008 = regAt 63 48 s.link.replays ||| regAt 47 32 s.link.correctable |||
    regAt 31 16 s.link.rxFailed ||| regAt 15 0 s.link.badAccess := rfl

theorem bar0Reg_hlResets (s : State) :
    s.bar0Reg 0 0x20020 = regAt 31 16 s.link.flrs ||| regAt 15 0 s.link.linkResets := rfl

theorem bar0Reg_timeBase (s : State) (f : Nat) {offset : Nat} (h : offset < 0x1000) :
    s.bar0Reg f offset = s.tbReg offset := by
  rw [State.bar0Reg, if_pos (by omega), State.windowReg, if_pos h]

theorem bar0Reg_sqDoorbell (s : State) (f : Nat) {q : Nat} (h : q < 256) : s.bar0Reg f (0x6000 + 8 * q) = s.sqReg f q := by
  rw [State.bar0Reg, if_pos (by omega), State.windowReg, if_neg (by omega), if_neg (by omega), if_neg (by omega),
    if_pos (by omega), show (0x6000 + 8 * q - 0x6000) / 8 = q by omega]

theorem bar0Reg_cqDoorbell (s : State) (f : Nat) {c : Nat} (h : c < 128) : s.bar0Reg f (0x6800 + 8 * c) = s.cqReg f c := by
  rw [State.bar0Reg, if_pos (by omega), State.windowReg, if_neg (by omega), if_neg (by omega), if_neg (by omega),
    if_neg (by omega), if_pos (by omega), show (0x6800 + 8 * c - 0x6800) / 8 = c by omega]

/-- R412, R428: a submission queue's doorbell, where the function has no such queue and where it has one. -/
theorem sqReg_of_none {s : State} {f q : Nat}
    (h : s.sqs.find? (fun x => x.fn == f && x.qid == q && x.dying.isNone) = none) : s.sqReg f q = 0 := by
  rw [State.sqReg, h]

theorem sqReg_of_some {s : State} {f q : Nat} {x : SubQ}
    (h : s.sqs.find? (fun x => x.fn == f && x.qid == q && x.dying.isNone) = some x) :
    s.sqReg f q = ringReg (if s.awaitsRest x then 2 else 1) x.head x.tail := by
  rw [State.sqReg, h]

/-- R412, R434: the same for a completion queue. -/
theorem cqReg_of_none {s : State} {f c : Nat} (h : s.cqs.find? (fun x => x.fn == f && x.cid == c) = none) :
    s.cqReg f c = 0 := by
  rw [State.cqReg, h]

theorem cqReg_of_some {s : State} {f c : Nat} {x : CplQ} (h : s.cqs.find? (fun x => x.fn == f && x.cid == c) = some x) :
    s.cqReg f c = ringReg (if ahead x.log2 x.head x.tail = 2 ^ x.log2 - 1 then 2 else 1) x.tail x.head := by
  rw [State.cqReg, h]

/-! ### Half reads of the time-base page (R48) -/

theorem bar0Read_timeBase_low (s : State) (f : Nat) {offset : Nat} (h8 : offset % 8 = 0) (h : offset < 4096) :
    s.bar0Read f offset false = at_ 31 0 (fld (s.tbReg offset) 31 0) := by
  have hdiv : offset / 8 * 8 = offset := by omega
  simp only [State.bar0Read, hdiv, h8, bar0Reg_timeBase s f h]
  rfl

theorem bar0Read_timeBase_high (s : State) (f : Nat) {offset : Nat} (h8 : offset % 8 = 0) (h : offset < 4096) :
    s.bar0Read f (offset + 4) false = (Tbl.get 0 s.time.latch (4096 * f + offset)).zeroExtend 64 := by
  have hdiv : (offset + 4) / 8 * 8 = offset := by omega
  have hmod : ¬ (offset + 4) % 8 = 0 := by omega
  have hlt : offset + 4 < 0x1000 := by omega
  simp only [State.bar0Read, hdiv, if_neg hmod, if_pos hlt]
  rfl

/-- 32 bits widened to a word are those bits placed at [31:0]. -/
theorem zeroExtend_ofNat_eq_at (n : Nat) : (BitVec.ofNat 32 n).zeroExtend 64 = at_ 31 0 n := by
  apply BitVec.eq_of_toNat_eq
  simp [at_]

/-- R48: the read at a low offset answers the low half and latches the high one. -/
theorem exec_tbLowHalfRead_low {s : State} (hp : s.present = true) (f : FnId) {offset : Nat} (h8 : offset % 8 = 0)
    (h : offset < 4096) : exec (.tbLowHalfRead f offset) s = .next { s with
      out := s.out ++ [.regRead f offset (some (at_ 31 0 (fld (s.tbReg offset) 31 0)))]
      time := { s.time with
        latch := Tbl.set 0 s.time.latch (4096 * f + offset) (BitVec.ofNat 32 (fld (s.tbReg offset) 63 32)) } } := by
  have h4 : offset % 4 = 0 ∧ offset < 4096 := ⟨by omega, h⟩
  rw [exec_tbLowHalfRead, execTbLowHalfRead, whenPresent_of_present hp, if_pos h4]
  simp only [if_pos h8, bar0Read_timeBase_low s f h8 h]
  rfl

/-- R48: the read at the offset above answers the half that was latched. -/
theorem exec_tbLowHalfRead_high {s : State} (hp : s.present = true) (f : FnId) {offset : Nat} (h8 : offset % 8 = 0)
    (h : offset < 4096) : exec (.tbLowHalfRead f (offset + 4)) s = .next { s with
      out := s.out ++ [.regRead f (offset + 4)
        (some ((Tbl.get 0 s.time.latch (4096 * f + offset)).zeroExtend 64))] } := by
  have h4 : (offset + 4) % 4 = 0 ∧ offset + 4 < 4096 := ⟨by omega, by omega⟩
  have hmod : ¬ (offset + 4) % 8 = 0 := by omega
  rw [exec_tbLowHalfRead, execTbLowHalfRead, whenPresent_of_present hp, if_pos h4]
  simp only [if_neg hmod, bar0Read_timeBase_high s f h8 h]
  rfl

/-! ### The host window (R520) -/

theorem hwin_of_model {s : State} (h : s.model = true) (v : Word) : hwin s v = s := by
  simp [hwin, h]

theorem hwin_of_room {s : State} {v : Word} (h : s.model = false) (hv : fld v 63 16 * 65536 + 2 ^ 44 ≤ 2 ^ 64) :
    hwin s v = { s with link := { s.link with hwin := BitVec.ofNat 48 (fld v 63 16) } } := by
  have hfit : ¬ 2 ^ 64 < fld v 63 16 * 65536 + 2 ^ 44 := by omega
  rw [hwin, if_neg (by simpa [h] using hfit)]

/-! ### Resolving a fault (R365, R366) -/

/-- R365: the leaf of a pending DEMAND fault takes the state resolved to, and its fault is done with. -/
theorem resolve_of_demand {s : State} {tag : BitVec 16} {p : Pend} (st : Nat)
    (hp : s.xl.pend.find? (fun p => p.tag == some tag) = some p) (hd : pteState (s.node p.leaf) = stDemand) :
    resolve s tag st = retirePend (setNode s p.leaf (pteSetState (s.node p.leaf) st)) p.leaf := by
  rw [resolve, hp]
  exact if_pos hd

theorem resolve_of_unknown {s : State} {tag : BitVec 16} (st : Nat)
    (hp : s.xl.pend.find? (fun p => p.tag == some tag) = none) : resolve s tag st = staleResolve s := by
  rw [resolve, hp]

theorem exec_fqResolveRelease_eq {s : State} (hf : s.fwRuns = true) (tag : BitVec 16) :
    exec (.fqResolveRelease 0 tag) s = .next (resolve s tag stValid) := by
  rw [exec_fqResolveRelease, execFqResolveRelease, whenFw_of_fwRuns hf]
  rfl

theorem exec_fqResolveFail_eq {s : State} (hf : s.fwRuns = true) (tag : BitVec 16) :
    exec (.fqResolveFail 0 tag) s = .next (resolve s tag stInvalid) := by
  rw [exec_fqResolveFail, execFqResolveFail, whenFw_of_fwRuns hf]
  rfl

/-- The word written to FQ_RESOLVE: the tag, and the resolution's code. -/
def resolveWord (tag : BitVec 16) (code : Nat) : Word := at_ 63 48 tag.toNat ||| at_ 47 46 code

theorem toNat_resolveWord (tag : BitVec 16) {code : Nat} (h : code < 2) :
    (resolveWord tag code).toNat = tag.toNat * 2 ^ 48 + code * 2 ^ 46 := by
  have ht := tag.isLt
  have hat : (at_ 63 48 tag.toNat).toNat = tag.toNat <<< 48 := by
    simp only [at_, BitVec.toNat_ofNat, Nat.shiftLeft_eq]
    omega
  have hac : (at_ 47 46 code).toNat = code <<< 46 := by
    simp only [at_, BitVec.toNat_ofNat, Nat.shiftLeft_eq]
    omega
  have hlt : code <<< 46 < 2 ^ 48 := by
    rw [Nat.shiftLeft_eq]
    omega
  rw [resolveWord, BitVec.toNat_or, hat, hac, ← Nat.shiftLeft_add_eq_or_of_lt hlt, Nat.shiftLeft_eq, Nat.shiftLeft_eq]

theorem extractLsb_resolveWord (tag : BitVec 16) {code : Nat} (h : code < 2) :
    (resolveWord tag code).extractLsb' 48 16 = tag := by
  apply BitVec.eq_of_toNat_eq
  have ht := tag.isLt
  rw [BitVec.extractLsb'_toNat, toNat_resolveWord tag h, Nat.shiftRight_eq_div_pow]
  omega

theorem fld_resolveWord (tag : BitVec 16) {code : Nat} (h : code < 2) : fld (resolveWord tag code) 47 46 = code := by
  rw [fld, nbits, toNat_resolveWord tag h, Nat.shiftRight_eq_div_pow]
  omega

/-! ### Writes into a function window (R478 to R480, R515) -/

/-- R515: an aligned write into a function window reaches it. -/
theorem exec_registerWriteOther_window {s : State} (hp : s.present = true) (f : FnId) {offset : Nat} (h8 : offset % 8 = 0)
    (h : offset < 0x20000) (v : Word) :
    exec (.registerWriteOther f offset true v) s = .next (windowWrite s f offset true v) := by
  have hbar0 : ¬ 0x1000000 ≤ offset := by omega
  have haligned : ¬ offset % (if true then 8 else 4) ≠ 0 := fun hn => hn h8
  rw [exec_registerWriteOther, execRegisterWriteOther, whenPresent_of_present hp, if_neg hbar0, if_neg haligned, if_pos h]

/-- R365, R366: a write to FQ_RESOLVE, whose code 0 is RELEASE and 1 is FAIL. -/
theorem windowWrite_resolve (s : State) (tag : BitVec 16) {code : Nat} (h : code < 2) :
    windowWrite s 0 0x7000 true (resolveWord tag code) = resolve s tag (if code = 0 then stValid else stInvalid) := by
  have htag := extractLsb_resolveWord tag h
  have hcode := fld_resolveWord tag h
  obtain rfl | rfl : code = 0 ∨ code = 1 := by omega
  · simp [windowWrite, htag, hcode]
  · simp [windowWrite, htag, hcode]

/-- R478: a write within the four mailbox slots reaches the slot at its offset there. -/
theorem windowWrite_slot (s : State) (f k : Nat) {place : Nat} (hk : k < 4) (hplace : place < 0x1000) (v : Word) :
    windowWrite s f (0x1000 + 0x1000 * k + place) true v = slotWrite s (mailKey f k) place true v := by
  have hslot : (0x1000 + 0x1000 * k + place - 0x1000) / 0x1000 = k := by omega
  have hmod : (0x1000 + 0x1000 * k + place) % 0x1000 = place := by omega
  rw [windowWrite, if_neg (by omega), if_pos (by omega), hslot, hmod]

/-- R479, R480: MB_HDR with STATE 0b01 posts a free slot's command; written to any other slot it is ignored and counted. -/
theorem mbHdr_post {v : Word} (s : State) (key : Nat) (hv : fld v 63 62 = 1) : mbHdr s key v =
    if (s.mail key).state = 0 then upMail { s with mbOrder := s.mbOrder + 1 } key (fun m => { m.fields v with
      state := 1, order := s.mbOrder + 1, started := false, applied := 0 })
    else mbIgnore s := by
  rw [mbHdr, if_pos hv]

/-- R478: a payload word of a slot that is neither posted nor executing takes the bytes written. -/
theorem slotWrite_payload {s : State} {key : Nat} (n : Nat) (v : Word) (h1 : (s.mail key).state ≠ 1)
    (h2 : (s.mail key).state ≠ 2) : slotWrite s key (0x20 + 8 * n) true v = upMail s key (fun m =>
      { m with payload := putPayload m.payload (8 * n) (leBytes 8 v.toNat) }) := by
  have hbusy : ¬ ((s.mail key).state == 1 || (s.mail key).state == 2) = true := by
    simpa using And.intro h1 h2
  have hplace : 0x20 + 8 * n - 0x20 = 8 * n := by omega
  simp only [slotWrite]
  rw [if_neg (by omega), if_neg (by omega), if_neg hbusy, if_neg (by omega), if_pos (by omega), hplace]
  rfl

theorem exec_mbRelease_eq {s : State} (hp : s.present = true) {f : FnId} {k : SlotId}
    (h : (s.mail (mailKey f k)).state = 3) :
    exec (.mbRelease f k) s = .next (upMail s (mailKey f k) (fun m => { m with state := 0 })) := by
  rw [exec_mbRelease, execMbRelease, whenPresent_of_present hp, if_pos h]

/-- R516: a refused access is counted, and a read is answered. -/
theorem exec_bar0BadAccess_eq {s : State} (hp : s.present = true) (f : FnId) (isRead : Bool) {why : BadAccess}
    (h : why ≠ .outsideIde) : exec (.bar0BadAccess f isRead why) s =
      .next (if isRead then emit (badAccess s) (.regRead f 0 none) else badAccess s) := by
  have hcond : ¬ (why = .outsideIde ∧ s.link.ideEnabled = 0) := fun hc => h hc.1
  have hor : (isRead || why == .outsideIde) = isRead := by simp [h]
  rw [exec_bar0BadAccess, execBar0BadAccess, whenPresent_of_present hp, if_neg hcond]
  simp only [hor]

/-- Settles O22: the registers that are read, then the writes. -/
theorem registerAccess : Obligations.RegisterAccess := by
  refine ⟨fun s f hp => ⟨?_, ?_, ?_, fun hf => ?_, ?_, ?_, fun v hm hv => ?_, fun v hm => ?_, fun offset h8 h => ⟨?_, ?_⟩,
    fun q => ⟨fun h => ?_, fun x h => ?_⟩, fun c => ⟨fun h => ?_, fun x h => ?_⟩, ?_, rfl, rfl, rfl, rfl⟩,
    fun s tag p hf hpend hd c st hc => ?_, fun s tag hf hpend => ?_, fun s f k hp h => exec_mbRelease_eq hp h,
    fun s f k v hp hv => ?_, fun s f k n v hp hn h1 h2 => ?_, fun s f why hp hwhy => ⟨?_, ?_⟩⟩
  · rw [exec_dbStatusRead, execDbStatusRead, whenPresent_of_present hp, bar0Reg_dbStatus]
    rfl
  · rw [exec_mbStatusRead, execMbStatusRead, whenPresent_of_present hp,
      if_pos (show ((0 : FnId) : Nat) = 0 from rfl)]
    exact congrArg (fun w => Host.Outcome.next
      { answer s 0 0x5018 w with eqDropped := 0, mbIgnored := 0 }) (bar0Reg_mbStatus s)
  · rw [exec_fqStatusRead, execFqStatusRead, whenPresent_of_present hp,
      if_pos (show ((0 : FnId) : Nat) = 0 from rfl)]
    exact congrArg (fun w => Host.Outcome.next
      { answer s 0 0x7008 w with xl := { s.xl with stale := 0, heldFull := 0 } }) (bar0Reg_fqStatus s)
  · have hv : f.val ≠ 0 := fun h => hf (Fin.ext h)
    rw [exec_mbStatusRead, execMbStatusRead, exec_fqStatusRead, execFqStatusRead, whenPresent_of_present hp,
      whenPresent_of_present hp, if_neg hv, if_neg hv]
    exact ⟨rfl, rfl⟩
  · rw [exec_hlErrRead, execHlErrRead, whenPresent_of_present hp, bar0Reg_hlErr]
    rfl
  · rw [exec_hlResetsRead, execHlResetsRead, whenPresent_of_present hp, bar0Reg_hlResets]
    rfl
  · rw [exec_hlHwinWrite, execHlHwinWrite, whenPresent_of_present hp, hwin_of_room hm hv]
  · rw [exec_hlHwinWrite, execHlHwinWrite, whenPresent_of_present hp, hwin_of_model hm]
  · exact exec_tbLowHalfRead_low hp f h8 h
  · intro t u ht hu hlatch
    rw [exec_tbLowHalfRead_low hp f h8 h] at ht
    obtain rfl := Host.Outcome.next.inj ht
    rw [exec_tbLowHalfRead_high hu f h8 h, hlatch, Tbl.get_set, if_pos rfl, zeroExtend_ofNat_eq_at]
  · rw [bar0Reg_sqDoorbell s f q.isLt, sqReg_of_none h]
  · rw [bar0Reg_sqDoorbell s f q.isLt, sqReg_of_some h, ringReg]
  · rw [bar0Reg_cqDoorbell s f c.isLt, cqReg_of_none h]
  · rw [bar0Reg_cqDoorbell s f c.isLt, cqReg_of_some h, ringReg]
  · exact if_congr Fin.val_eq_zero_iff rfl rfl
  · have hexec : exec (c 0 tag) s = .next (resolve s tag st) := by
      rcases hc with ⟨rfl, rfl⟩ | ⟨rfl, rfl⟩
      · exact exec_fqResolveRelease_eq hf tag
      · exact exec_fqResolveFail_eq hf tag
    refine ⟨by rw [hexec, resolve_of_demand st hpend hd]; rfl, fun hl => ?_⟩
    have hst : (if (if st = stValid then 0 else 1) = 0 then stValid else stInvalid) = st := by
      rcases hc with ⟨-, rfl⟩ | ⟨-, rfl⟩
      · rfl
      · rfl
    rw [hexec, exec_registerWriteOther_window (present_of_fwRuns hf hl) 0 (by decide) (by decide)]
    refine congrArg Host.Outcome.next ((windowWrite_resolve s tag (code := if st = stValid then 0 else 1) ?_).trans ?_)
    · split <;> decide
    · rw [hst]
  · rw [exec_fqResolveRelease_eq hf, exec_fqResolveFail_eq hf, resolve_of_unknown _ hpend, resolve_of_unknown _ hpend]
    exact ⟨rfl, rfl⟩
  · rw [exec_registerWriteOther_window hp f (by omega) (by omega)]
    refine congrArg Host.Outcome.next ((windowWrite_slot s f k (place := 0) k.isLt (by decide) v).trans ?_)
    exact mbHdr_post s _ hv
  · rw [show 0x1000 + 0x1000 * k + 0x20 + 8 * n = 0x1000 + 0x1000 * k + (0x20 + 8 * n) by omega,
      exec_registerWriteOther_window hp f (by omega) (by omega), windowWrite_slot s f k k.isLt (by omega),
      slotWrite_payload n v h1 h2]
    rfl
  · rw [exec_bar0BadAccess_eq hp f true hwhy]
    rfl
  · rw [exec_bar0BadAccess_eq hp f false hwhy]
    rfl

end Sys2Proof.Machine
end

section
/-!
What a command may change of the queue behind it, of the Ticker's accumulator and of the form of local DRAM: nothing of
the first two (R45), and the third stays canonical.  The rules of this frame, and its loops.
-/
namespace Sys2Proof.Machine

/-- The state `t` still has the queue and the Ticker of `o`, and local DRAM in canonical form if `o` has. -/
def Keeps (o t : State) : Prop :=
  t.pending = o.pending ∧ t.time.acc = o.time.acc ∧ (o.dramWf → t.dramWf)

variable {o s : State}

theorem Keeps.refl (s : State) : Keeps s s := ⟨rfl, rfl, id⟩

/-- An update of anything, from what it does to the three. -/
theorem Keeps.of_eqs {t : State} (h : Keeps o s) (hp : t.pending = s.pending) (ha : t.time.acc = s.time.acc)
    (hd : s.dramWf → t.dramWf) : Keeps o t := by
  obtain ⟨hpend, hacc, hdram⟩ := h
  exact ⟨hp.trans hpend, ha.trans hacc, hd ∘ hdram⟩

/-- A record update that leaves the queue, the time base and local DRAM alone. -/
theorem Keeps.set {freeCtr out marks pwr flash sec bring loose imap mapRaw chans hedges cores scrubOn hrow arrived slots
    lookRec heldSwaps counters policy policyNext hotPosted migrates codebooks bags pieces lookups moverTurn nextBag
    nextPiece routines upd xl ig sqs cqs dbIgnored bursts nextBurst dbuf jobs sched ctxRec resetRun mbox mbOrder nego
    adminWaits eq hq fq evSeq evHeld eqDropped mbIgnored modes model fwReserve link fab health}
    (h : Keeps o s) : Keeps o
    ⟨s.pending, freeCtr, out, marks, pwr, s.time, flash, sec, bring, s.dram, loose, imap, mapRaw, chans, hedges,
      cores, scrubOn, hrow, arrived, slots, lookRec, heldSwaps, counters, policy, policyNext, hotPosted, migrates,
      codebooks, bags, pieces, lookups, moverTurn, nextBag, nextPiece, routines, upd, xl, ig, sqs, cqs, dbIgnored,
      bursts, nextBurst, dbuf, jobs, sched, ctxRec, resetRun, mbox, mbOrder, nego, adminWaits, eq, hq, fq, evSeq,
      evHeld, eqDropped, mbIgnored, modes, model, fwReserve, link, fab, health⟩ :=
  h.of_eqs rfl rfl id

/-- A change of local DRAM by one of the operations that keep its canonical form. -/
theorem Keeps.setDram {d : Mem} (h : Keeps o s) (hd : s.dram.wf = true → d.wf = true) :
    Keeps o { s with dram := d } :=
  h.of_eqs rfl rfl hd

/-- A change of the time base that leaves the Ticker's accumulator. -/
theorem Keeps.setTime {t : TimeBase} (h : Keeps o s) (ha : t.acc = s.time.acc) : Keeps o { s with time := t } :=
  h.of_eqs rfl ha id

theorem Keeps.ite {c : Prop} [Decidable c] {a b : State} (ha : Keeps o a) (hb : Keeps o b) :
    Keeps o (if c then a else b) := by
  split
  · exact ha
  · exact hb

/-- The state in a pair that is known to be another pair. -/
theorem Keeps.of_fst {α : Type} {p : State × α} {t : State} {x : α} (e : p = (t, x)) (h : Keeps o p.1) :
    Keeps o t := by
  subst e
  exact h

theorem forN_keeps {n : Nat} {f : Nat → State → State} (hf : ∀ {i t}, Keeps o t → Keeps o (f i t))
    (h : Keeps o s) : Keeps o (forN n f s) :=
  forN_induct (P := Keeps o) h fun _ _ _ => hf

theorem forL_keeps {α : Type} {l : List α} {f : α → State → State}
    (hf : ∀ {x t}, Keeps o t → Keeps o (f x t)) (h : Keeps o s) : Keeps o (forL l f s) :=
  forL_induct (P := Keeps o) (fun _ _ => hf) h

theorem foldl_fst_keeps {α β : Type} {l : List α} {f : State × β → α → State × β} {b : β}
    (hf : ∀ {p x}, Keeps o p.1 → Keeps o (f p x).1) (h : Keeps o s) : Keeps o (l.foldl f (s, b)).1 :=
  List.foldlRecOn (motive := fun p => Keeps o p.1) l f h fun _ hp _ _ => hf hp

theorem foldl_snd_keeps {α β : Type} {l : List α} {f : β × State → α → β × State} {b : β}
    (hf : ∀ {p x}, Keeps o p.2 → Keeps o (f p x).2) (h : Keeps o s) : Keeps o (l.foldl f (b, s)).2 :=
  List.foldlRecOn (motive := fun p => Keeps o p.2) l f h fun _ hp _ _ => hf hp

theorem wf_foldl_settle {α : Type} {m : Mem} (l : List (Nat × α)) (h : m.wf = true) :
    (l.foldl (fun (m : Mem) e => m.settle e.1) m).wf = true :=
  List.foldlRecOn (motive := fun m : Mem => m.wf = true) l _ h fun _ hm _ _ => Mem.wf_settle _ hm

theorem whenPowered_keeps {f : State → State} (h : Keeps o s) (hf : ∀ {t}, Keeps o t → Keeps o (f t)) :
    Keeps o (whenPowered s f) :=
  .ite (hf h) h

theorem whenPresent_keeps {f : State → State} (h : Keeps o s) (hf : ∀ {t}, Keeps o t → Keeps o (f t)) :
    Keeps o (whenPresent s f) :=
  .ite (hf h) h

theorem whenFw_keeps {f : State → State} (h : Keeps o s) (hf : ∀ {t}, Keeps o t → Keeps o (f t)) :
    Keeps o (whenFw s f) :=
  .ite (hf h) h

/-- Where a meaning has a next state, that state keeps these of `o`. -/
def KeepsOut (o : State) (x : Out) : Prop := ∀ t, x = .next t → Keeps o t

theorem KeepsOut.next (h : Keeps o s) : KeepsOut o (.next s) := by
  intro t e
  cases e
  exact h

theorem KeepsOut.guardWf {i : Instr} {m : String} (h : Keeps o s) : KeepsOut o (guardWf i m s) := by
  unfold Machine.guardWf
  split
  · exact .next h
  · intro t e
    cases e

end Sys2Proof.Machine
end

section
/-!
The frame for the operations that the commands share: one lemma for each that does more than set other fields
(`Keeps.set` sees through those), in the order of the model's files.
-/
namespace Sys2Proof.Machine

variable {o s : State}

/-! ### Ops -/

theorem sendAs_keeps {f : Nat} {o' : Output} (h : Keeps o s) : Keeps o (sendAs s f o') :=
  .ite (.set h) (.set h)

theorem dmaSend_keeps {f addr : Nat} {relaxed ep : Bool} {l : List Byte} (h : Keeps o s) :
    Keeps o (dmaSend s f addr relaxed ep l) :=
  forL_keeps sendAs_keeps h

theorem dmaBytes_keeps {f addr : Nat} {relaxed : Bool} {l : List Byte} (h : Keeps o s) :
    Keeps o (dmaBytes s f addr relaxed l) :=
  dmaSend_keeps h

theorem dmaRuns_keeps {f : Nat} {relaxed : Bool} {a : Nat} {l : List (Bool × List Byte)} (h : Keeps o s) :
    Keeps o (dmaRuns s f relaxed a l) := by
  induction l generalizing s a with
  | nil => exact h
  | cons r t ih => exact ih (dmaSend_keeps h)

theorem dmaWords_keeps {f : Nat} {relaxed : Bool} {a : Nat} {l : List PWord} (h : Keeps o s) :
    Keeps o (dmaWords s f relaxed a l) :=
  dmaRuns_keeps h

theorem msix_keeps {f v : Nat} (h : Keeps o s) : Keeps o (msix s f v) :=
  .ite h (.ite (.set h) (sendAs_keeps h))

theorem postEvent_keeps (h : Keeps o s) : Keeps o (postEvent s) := by
  unfold postEvent
  dsimp only
  split
  · exact .ite (msix_keeps (.set (dmaBytes_keeps h))) h
  · exact h

theorem raiseEvent_keeps {code : BitVec 16} {cid : BitVec 12} {w3 w4 w5 : Word} (h : Keeps o s) :
    Keeps o (raiseEvent s code cid w3 w4 w5) := by
  unfold raiseEvent
  dsimp only
  split
  · exact .set h
  · exact .ite (.set (.ite (.set h) (postEvent_keeps (.set h)))) (.set (.ite (.set h) (postEvent_keeps (.set h))))

theorem uePoison_keeps {unit corehedge channel : Nat} {w4 : Word} (h : Keeps o s) :
    Keeps o (uePoison s unit corehedge channel w4) :=
  raiseEvent_keeps h

theorem stopUnits_keeps {id : Nat} (h : Keeps o s) : Keeps o (stopUnits s id) := .set (.set h)

theorem endJob_keeps {id : Nat} {st : Status} {idx : BitVec 16} (h : Keeps o s) : Keeps o (endJob s id st idx) :=
  .ite (.set (stopUnits_keeps (.set (.set (.set (.set h)))))) h

theorem endAll_keeps {st : Status} (h : Keeps o s) : Keeps o (endAll s st) :=
  forL_keeps endJob_keeps h

theorem jobFaultWith_keeps {o' : Owner} {st : Status} {cause : Nat} {pa : Word} {channel : Nat} (h : Keeps o s) :
    Keeps o (jobFaultWith s o' st cause pa channel) :=
  raiseEvent_keeps (.set (.set (endAll_keeps (endJob_keeps h))))

theorem jobFault_keeps {o' : Owner} {st : Status} {pa : Word} {channel : Nat} (h : Keeps o s) :
    Keeps o (jobFault s o' st pa channel) :=
  jobFaultWith_keeps h

theorem jobFaultAll_keeps {cause : Nat} (h : Keeps o s) : Keeps o (jobFaultAll s cause) :=
  raiseEvent_keeps (.set (.set (endAll_keeps h)))

theorem failJob_keeps {o' : Owner} {st : Status} (h : Keeps o s) : Keeps o (failJob s o' st) :=
  .ite (endJob_keeps h) (jobFault_keeps h)

theorem nameSuspect_keeps {cid : BitVec 12} {unit corehedge source : Nat} (h : Keeps o s) :
    Keeps o (nameSuspect s cid unit corehedge source) :=
  raiseEvent_keeps (.ite (.set h) h)

theorem arithFault_keeps {o' : Owner} {unit corehedge lane : Nat} {addr : Word} (h : Keeps o s) :
    Keeps o (arithFault s o' unit corehedge lane addr) :=
  nameSuspect_keeps (raiseEvent_keeps (jobFault_keeps h))

theorem digestAdd_keeps {o' : Owner} {tag : Word} {data : List Byte} (h : Keeps o s) :
    Keeps o (digestAdd s o' tag data) := by
  unfold digestAdd
  split
  · exact h
  · exact .ite (.set h) h

theorem privetFail_keeps {o' : Owner} {pa : Nat} (h : Keeps o s) : Keeps o (privetFail s o' pa) :=
  jobFault_keeps (.set h)

theorem dramTouch_keeps {a n : Nat} (h : Keeps o s) : Keeps o (dramTouch s a n) :=
  forL_keeps (fun h => .ite (.set h) (.ite (.ite (.set h) (uePoison_keeps (.set h))) h)) h

theorem dramPut_keeps {a : Nat} {l : List PWord} (h : Keeps o s) : Keeps o (dramPut s a l) :=
  .set (.set (h.setDram (Mem.wf_putWords _ _)))

theorem dramWrite_keeps {a : Nat} {l : List Byte} (h : Keeps o s) : Keeps o (dramWrite s a l) :=
  .set (.set (h.setDram (Mem.wf_write _ _)))

theorem dramCopy_keeps {src : Mem} {a n b : Nat} (h : Keeps o s) : Keeps o (dramCopy s src a n b) :=
  .set (.set (h.setDram (Mem.wf_copyRange _ _ _ _)))

theorem resum_keeps {off : Nat} (h : Keeps o s) : Keeps o (resum s off) := by
  unfold resum
  split
  · exact h
  · exact .set h

theorem afterWrite_keeps {a n : Nat} (h : Keeps o s) : Keeps o (afterWrite s a n) :=
  .ite h (forN_keeps (fun h => .ite (.set h) h) (forN_keeps resum_keeps h))

theorem spTouch_keeps {c a n : Nat} (h : Keeps o s) : Keeps o (spTouch s c a n) :=
  forL_keeps (fun h => .ite (.set h) (.ite (uePoison_keeps (.set h)) h)) h

theorem spDigest_keeps {c : Nat} {o' : Owner} {a n : Nat} (h : Keeps o s) : Keeps o (spDigest s c o' a n) :=
  .ite (forL_keeps digestAdd_keeps h) h

theorem spWrite_keeps {c : Nat} {o' : Owner} {a : Nat} {l : List Byte} (h : Keeps o s) :
    Keeps o (spWrite s c o' a l) :=
  spDigest_keeps (.set (spTouch_keeps (spTouch_keeps h)))

theorem spPut_keeps {c : Nat} {o' : Owner} {a : Nat} {l : List PWord} (h : Keeps o s) : Keeps o (spPut s c o' a l) :=
  spDigest_keeps (.set h)

theorem delayStart_keeps {c : Nat} (h : Keeps o s) : Keeps o (delayStart s c) := by
  unfold delayStart
  dsimp only
  split
  · exact h
  · exact .ite h (.set (.set h))

theorem hotEntry_keeps {slot page pa count : Nat} (h : Keeps o s) : Keeps o (hotEntry s slot page pa count) := by
  unfold hotEntry
  dsimp only
  split
  · exact .ite h (.set h)
  · exact .ite (.set h) (msix_keeps (.ite (.set (.set (dmaBytes_keeps h))) (raiseEvent_keeps (.set (.set (.set
      (dmaBytes_keeps h)))))))

theorem countAccess_keeps {slot page pa : Nat} (h : Keeps o s) : Keeps o (countAccess s slot page pa) :=
  .ite (.set h) (.ite (hotEntry_keeps (.set (.set h))) (.set (.set h)))

/-! ### AdminOps -/

theorem respond_keeps {f k : Nat} {st : Status} {l : List Word} (h : Keeps o s) : Keeps o (respond s f k st l) :=
  .ite (msix_keeps (.set h)) h

theorem admin_keeps {f : FnId} {k : SlotId} {op : Nat} {reserved : Bool} {body : State → State} (h : Keeps o s)
    (hf : ∀ {t}, Keeps o t → Keeps o (body t)) :
    Keeps o (admin s f k op reserved body) := by
  unfold admin
  dsimp only
  refine whenFw_keeps h (fun h => .ite (.ite ?_ (.set h)) h)
  split
  · exact respond_keeps (.set h)
  · exact .ite (.set h) (hf (.set (.set h)))

theorem refuse_keeps {f : FnId} {k : SlotId} {st : Status} (h : Keeps o s) : Keeps o (refuse s f k st) :=
  respond_keeps h

theorem modeDone_keeps {f k b : Nat} (h : Keeps o s) : Keeps o (modeDone s f k b) :=
  .ite (respond_keeps (.set h)) (.set h)

theorem applyCfg_keeps {h' : Nat} {c : WardenCfg} (h : Keeps o s) : Keeps o (applyCfg s h' c) := by
  unfold applyCfg
  split
  · exact .set h
  · exact .set h
  · exact forN_keeps (fun h => .set h) h
  · exact .set h

theorem tellWardens_keeps {c : Nat → WardenCfg} (h : Keeps o s) : Keeps o (tellWardens s c) :=
  forN_keeps (fun h => .set h) h

theorem modeApply_keeps {key b : Nat} (h : Keeps o s) : Keeps o (modeApply s key b) := by
  unfold modeApply
  dsimp only
  split
  · exact .set h
  · exact tellWardens_keeps (.set h)
  · exact tellWardens_keeps (.set h)
  · exact .set h
  · exact .set h

theorem modeRest_keeps {f k : Nat} (h : Keeps o s) : Keeps o (modeRest s f k) :=
  .ite (forN_keeps (fun h => .ite (modeApply_keeps h) h) h) h

/-! ### Operands -/

theorem coreCb_keeps {c id : Nat} (h : Keeps o s) : Keeps o (coreCb c id s).1 := by
  unfold coreCb
  dsimp only
  split
  · exact .set h
  · split
    · split
      · exact .set (dramTouch_keeps h)
      · exact dramTouch_keeps h
    · exact h

theorem coreCbs_keeps {c : Nat} {l : List Nat} (h : Keeps o s) : Keeps o (coreCbs c l s).1 :=
  foldl_fst_keeps coreCb_keeps h

theorem hedgeCb_keeps {h' id : Nat} (h : Keeps o s) : Keeps o (hedgeCb h' id s).1 := by
  unfold hedgeCb
  dsimp only
  split
  · exact h
  · split
    · exact .set (dramTouch_keeps h)
    · exact dramTouch_keeps h

theorem raiseLines_keeps {lc : Bool} {l : List Nat} (h : Keeps o s) : Keeps o (raiseLines s lc l) :=
  .ite (forL_keeps (fun h => .set h) h) h

/-! ### Adder -/

theorem reqFail_keeps {r : ChReq} {st : Status} (h : Keeps o s) : Keeps o (reqFail s r st) := by
  unfold reqFail
  split
  · exact h
  · exact jobFault_keeps h

theorem reqPrivet_keeps {r : ChReq} {off : Nat} (h : Keeps o s) : Keeps o (reqPrivet s r off) := by
  unfold reqPrivet
  split
  · exact h
  · exact privetFail_keeps h

theorem reply_keeps {c : Nat} {r : ChReq} {data : List PWord} (h : Keeps o s) : Keeps o (reply s c r data) := by
  unfold reply
  split
  · exact .set h
  · exact h

theorem serve_keeps {c : Nat} {p : ChReq → Bool} {f : ChReq → State → State} (h : Keeps o s)
    (hf : ∀ {x0 t}, Keeps o t → Keeps o (f x0 t)) :
    Keeps o (serve s c p f) := by
  unfold serve
  refine whenPowered_keeps h (fun h => ?_)
  split
  · exact h
  · exact hf (.set h)

theorem spoilLines_keeps {l : List Nat} (h : Keeps o s) : Keeps o (spoilLines s l) :=
  forL_keeps dramPut_keeps h

theorem readReq_keeps {c : Nat} {ca : CaParity} {r : ChReq} (h : Keeps o s) : Keeps o (readReq c ca r s) :=
  .ite (reqPrivet_keeps h) (.ite (reply_keeps (.set h)) (reply_keeps (dramTouch_keeps h)))

theorem writeReq_keeps {c : Nat} {ca : CaParity} {r : ChReq} (h : Keeps o s) : Keeps o (writeReq c ca r s) :=
  .ite (reqPrivet_keeps h) (.ite (reply_keeps (spoilLines_keeps (.set h))) (reply_keeps (dramPut_keeps h)))

theorem adderDo_keeps {p : AdderPkt} {off : Nat} {operand : List PWord} (h : Keeps o s) :
    Keeps o (adderDo s p off operand).1 := by
  unfold adderDo
  dsimp only
  split
  · split
    · exact dramPut_keeps (dramTouch_keeps h)
    · exact dramPut_keeps (dramTouch_keeps h)
  · split
    · exact dramPut_keeps (.set (dramTouch_keeps h))
    · exact dramPut_keeps (.set (dramTouch_keeps h))
  · split
    · exact dramPut_keeps (dramTouch_keeps h)
    · exact dramPut_keeps (dramTouch_keeps h)
  · exact dramPut_keeps (dramTouch_keeps h)
  · exact .ite (dramPut_keeps (dramTouch_keeps h)) (dramTouch_keeps h)
  · exact dramPut_keeps h
  · exact h

theorem adderSplit_keeps {p : AdderPkt} {off : Nat} {operand : List PWord} (h : Keeps o s) :
    Keeps o (adderSplit s p off operand) :=
  foldl_fst_keeps adderDo_keeps h

theorem patchWords_keeps {f : List Word → List Word} {off n : Nat} (h : Keeps o s) : Keeps o (patchWords f off n s) :=
  .ite h (dramPut_keeps h)

theorem adderReq_keeps {c : Nat} {ca : CaParity} {bad : Option WrongSum} {r : ChReq} (h : Keeps o s) :
    Keeps o (adderReq c ca bad r s) := by
  refine .ite (reqPrivet_keeps h) (.ite (reply_keeps (spoilLines_keeps (.set h))) ?_)
  cases bad with
  | none => exact reply_keeps (adderDo_keeps h)
  | some b =>
    dsimp only
    split
    · exact arithFault_keeps h
    · exact reply_keeps (patchWords_keeps (adderDo_keeps h))

theorem casReq_keeps {c : Nat} {ca : CaParity} {bad : Bool} {r : ChReq} (h : Keeps o s) :
    Keeps o (casReq c ca bad r s) :=
  .ite (arithFault_keeps h) (adderReq_keeps h)

theorem poolDo_keeps {p : AdderPkt} {operand : List PWord} {order : Nat} (h : Keeps o s) :
    Keeps o (poolDo s p operand order).1 :=
  forL_keeps dramTouch_keeps h

theorem poolAnswer_keeps {c : Nat} {r : ChReq} {p : AdderPkt} {a : PoolSum} (h : Keeps o s) :
    Keeps o (poolAnswer c r p a s) := by
  unfold poolAnswer
  dsimp only
  split
  · exact forL_keeps (fun h => .set h) h
  · exact .set h
  · exact h

theorem poolReq_keeps {c : Nat} {ca : CaParity} {bad : Option WrongSum} {r : ChReq} (h : Keeps o s) :
    Keeps o (poolReq c ca bad r s) := by
  have hs : Keeps o (if (parseAdder r.hdr0 r.hdr1).ordered then (0, s) else takeFree s).2 := by
    split
    · exact h
    · exact .set h
  unfold poolReq
  dsimp only
  split
  · exact reqPrivet_keeps h
  · refine .ite (poolAnswer_keeps (.set h)) ?_
    split
    · exact poolAnswer_keeps (poolDo_keeps hs)
    · split
      · exact arithFault_keeps (poolDo_keeps hs)
      · exact poolAnswer_keeps (poolDo_keeps hs)

/-! ### FabricOps -/

theorem fabricEvent_keeps {cause port peer : Nat} (h : Keeps o s) : Keeps o (fabricEvent s cause port peer) :=
  raiseEvent_keeps h

theorem restartPeer_keeps {m : Nat} (h : Keeps o s) : Keeps o (restartPeer s m) :=
  fabricEvent_keeps (.set (.set (.set (.set (.set (forL_keeps (fun h => .ite (failJob_keeps h) h) h))))))

theorem applyFabric_keeps (h : Keeps o s) : Keeps o (applyFabric s) :=
  .ite h (fabricEvent_keeps (forL_keeps restartPeer_keeps (.set (.setTime (.set h) (by split <;> rfl)))))

theorem portGo_keeps {p : Nat} (h : Keeps o s) : Keeps o (portGo s p) := by
  unfold portGo
  dsimp only
  split
  · exact h
  · exact .set (.set h)

theorem portPut_keeps {p : Nat} {f : TxFrame} (h : Keeps o s) : Keeps o (portPut s p f) :=
  portGo_keeps (.set h)

theorem wire_keeps {m : Nat} {w0 w1 w2 w3 : Word} {payload : List PWord} (h : Keeps o s) :
    Keeps o (wire s m w0 w1 w2 w3 payload) :=
  .ite h (portPut_keeps (.set h))

theorem transmit_keeps {m : Nat} {lc : Bool} {u : Unacked} (h : Keeps o s) : Keeps o (transmit s m lc u) :=
  wire_keeps (.set h)

theorem sendReq_keeps {m : Nat} {lc : Bool} {kind : Nat} {cid : BitVec 12} {txn : BitVec 16} {w2 w3 : Word}
    {payload : List PWord} (h : Keeps o s) :
    Keeps o (sendReq s m lc kind cid txn w2 w3 payload) :=
  .ite (.set h) (transmit_keeps (.set h))

theorem sendResp_keeps {m : Nat} {lc : Bool} {kind : Nat} {cid : BitVec 12} {txn : BitVec 16} {st : Status}
    {payload : List PWord} (h : Keeps o s) :
    Keeps o (sendResp s m lc kind cid txn st payload) :=
  transmit_keeps h

theorem sendAck_keeps {m : Nat} (h : Keeps o s) : Keeps o (sendAck s m) := wire_keeps h

theorem sendCredit_keeps {m : Nat} (h : Keeps o s) : Keeps o (sendCredit s m) := wire_keeps h

theorem ackChan_keeps {m : Nat} {lc : Bool} {ack : BitVec 32} (h : Keeps o s) : Keeps o (ackChan s m lc ack) :=
  .set (.set h)

theorem creditChan_keeps {m : Nat} {lc : Bool} {freed : BitVec 32} (h : Keeps o s) :
    Keeps o (creditChan s m lc freed) :=
  .ite (forL_keeps transmit_keeps (.set h)) h

theorem slotFreed_keeps {m : Nat} {lc : Bool} {txn : BitVec 16} (h : Keeps o s) : Keeps o (slotFreed s m lc txn) :=
  sendCredit_keeps (.set h)

theorem State.addArrival_keeps {parity : Nat} {x : Word} (h : Keeps o s) : Keeps o (State.addArrival s parity x) :=
  .ite (.set h) (.set h)

theorem request_keeps {m : Nat} {lc : Bool} {kind : Nat} {cid : BitVec 12} {w2 w3 : Word} {payload : List PWord}
    {owner : Option Owner} {bag core : Option Nat} {dst : Nat} (h : Keeps o s) :
    Keeps o (request s m lc kind cid w2 w3 payload owner bag core dst) :=
  sendReq_keeps (.set h)

/-! ### HostLink -/

theorem startRead_keeps {fn : Nat} {o' : Option Owner} {addr len : Nat} (h : Keeps o s) :
    Keeps o (startRead s fn o' addr len).2 :=
  forL_keeps sendAs_keeps (.set h)

theorem answerAts_keeps (h : Keeps o s) : Keeps o (answerAts s) := forL_keeps sendAs_keeps (.set h)

theorem withHost_keeps {f : FnId} {k : SlotId} {ok : Bool} {go : State → State} (h : Keeps o s)
    (hf : ∀ {t}, Keeps o t → Keeps o (go t)) :
    Keeps o (withHost s f k ok go) :=
  .ite (.set h) (hf (.ite h (.set h)))

theorem flushHeld_keeps (h : Keeps o s) : Keeps o (flushHeld s) :=
  forL_keeps (fun h => .set h) (.set h)

theorem sendPending_keeps {f v : Nat} (h : Keeps o s) : Keeps o (sendPending s f v) :=
  .ite (sendAs_keeps (.set h)) h

theorem setVector_keeps {f v : Nat} {open_ : Bool} (h : Keeps o s) : Keeps o (setVector s f v open_) :=
  sendPending_keeps (.set h)

theorem sendAllPending_keeps {f : Nat} (h : Keeps o s) : Keeps o (sendAllPending s f) :=
  forL_keeps sendPending_keeps h

theorem resetMail_keeps {f : Nat} (h : Keeps o s) : Keeps o (resetMail s f) :=
  .set (forN_keeps (fun h => .set h) (forN_keeps modeRest_keeps h))

theorem loseJobs_keeps {f : Nat} (h : Keeps o s) : Keeps o (loseJobs s f) :=
  forL_keeps (fun h => .set (endJob_keeps h)) h

theorem resetFn_keeps {f : Nat} (h : Keeps o s) : Keeps o (resetFn s f) :=
  .set (loseJobs_keeps (resetMail_keeps h))

theorem resetAll_keeps (h : Keeps o s) : Keeps o (resetAll s) :=
  .set (forN_keeps resetFn_keeps (.set h))

/-! ### Xlate -/

theorem fillTlb_keeps {u : Nat} {e : TlbEntry} {r : WalkReads} (h : Keeps o s) : Keeps o (fillTlb s u e r) :=
  .set (.set h)

theorem walkUnit_keeps {u : Nat} {cid : BitVec 12} {va : Nat} (h : Keeps o s) : Keeps o (walkUnit s u cid va) := by
  unfold walkUnit
  dsimp only
  refine .set ?_
  split
  · exact .ite (fillTlb_keeps (forL_keeps dramTouch_keeps (.set h))) (forL_keeps dramTouch_keeps (.set h))
  · exact forL_keeps dramTouch_keeps (.set h)

theorem useTlb_keeps {u : Nat} {cid : BitVec 12} {page : Nat} (h : Keeps o s) : Keeps o (useTlb u cid page s) := by
  unfold useTlb
  dsimp only
  split
  · exact .set h
  · exact walkUnit_keeps h

theorem walkPages_keeps {u : Nat} {cid : BitVec 12} {l : List (Nat × Nat × Bool)} (h : Keeps o s) :
    Keeps o (walkPages s u cid l) :=
  .ite h (forL_keeps useTlb_keeps h)

theorem dropAllTlbs_keeps (h : Keeps o s) : Keeps o (dropAllTlbs s) :=
  forN_keeps (fun h => .set h) (.set h)

theorem setNode_keeps {key : Nat} {w : Word} (h : Keeps o s) : Keeps o (setNode s key w) :=
  h.setDram (Mem.wf_putWord _ _)

theorem newNode_keeps (h : Keeps o s) : Keeps o (newNode s).2 := .set (h.setDram (Mem.wf_zero _ _))

theorem childNode_keeps {node idx : Nat} (h : Keeps o s) : Keeps o (childNode s node idx).2 := by
  unfold childNode
  dsimp only
  split
  · exact h
  · exact setNode_keeps (newNode_keeps h)

theorem mapLeaf_keeps {root va level : Nat} {w : Word} (h : Keeps o s) : Keeps o (mapLeaf s root va level w) :=
  .ite (setNode_keeps (childNode_keeps h)) (.ite (setNode_keeps (childNode_keeps (childNode_keeps h))) (setNode_keeps
    (childNode_keeps (childNode_keeps (childNode_keeps h)))))

theorem makeContext_keeps {cid : Nat} (h : Keeps o s) : Keeps o (makeContext s cid) :=
  .setDram (.set (newNode_keeps h)) (Mem.wf_putWords _ _)

theorem clearContexts_keeps (h : Keeps o s) : Keeps o (clearContexts s) :=
  .set (h.setDram (Mem.wf_zero _ _))

theorem postFault_keeps (h : Keeps o s) : Keeps o (postFault s) := by
  unfold postFault
  dsimp only
  split
  · exact .ite h (msix_keeps (.set (dmaBytes_keeps h)))
  · exact h

theorem joinFault_keeps {t : WaitTile} (h : Keeps o s) : Keeps o (joinFault s t) :=
  .ite (.set (.set (.set h))) (.ite (.set h) (.ite (.ite (postFault_keeps (.set (.set (.set h)))) (.set (.set
    (.set h)))) (.set (.set h))))

theorem waitTile_keeps {o' : Owner} {core : Option Nat} {bag : Option (Nat × Nat)}
    {h' leaf page : Nat} (h : Keeps o s) :
    Keeps o (waitTile s o' core bag h' leaf page) :=
  .ite (.set (joinFault_keeps (.set (.set h)))) (joinFault_keeps (.set (.set h)))

theorem resumeTile_keeps {t : WaitTile} (h : Keeps o s) : Keeps o (resumeTile s t) :=
  .ite (.set h) (.ite (.ite (.set h) (failJob_keeps (.set h))) (.ite (joinFault_keeps h) h))

/-! ### Transfer -/

theorem tileWalk_keeps {u : Nat} {cid : BitVec 12} {src dst : List (Nat × Nat × Bool)} (h : Keeps o s) :
    Keeps o (tileWalk s u cid src dst).1 :=
  walkPages_keeps h

theorem askSpan_keeps {x : Span} {o' : Owner} (h : Keeps o s) : Keeps o (askSpan x o' s) := by
  unfold askSpan
  dsimp only
  split
  · exact .ite h (request_keeps h)
  · exact .ite h (startRead_keeps h)
  · exact h

theorem doneSpan_keeps {x : Span} {o' : Owner} (h : Keeps o s) : Keeps o (doneSpan x o' s) := by
  unfold doneSpan
  dsimp only
  split
  · exact dramTouch_keeps h
  · exact .set h
  · exact .set h
  · exact h

theorem gather_keeps {o' : Owner} {ext : List PWord} {l : List Span} (h : Keeps o s) :
    Keeps o (gather s o' ext l).1 := by
  unfold gather
  dsimp only
  split
  · exact privetFail_keeps h
  · split
    · exact forL_keeps doneSpan_keeps h
    · split
      · exact failJob_keeps h
      · exact forL_keeps askSpan_keeps h

theorem digestVa_keeps {o' : Owner} {va : Nat} {l : List PWord} {pa : Nat} (h : Keeps o s) :
    Keeps o (digestVa s o' va l pa) :=
  .ite (forL_keeps (fun h => .ite (digestAdd_keeps h) (.ite (digestAdd_keeps h) (digestAdd_keeps (.set h)))) h) h

theorem writeSpan_keeps {o' : Owner} {x : Span} {l : List PWord} (h : Keeps o s) : Keeps o (writeSpan o' x l s) := by
  unfold writeSpan
  dsimp only
  refine .ite ?_ ?_
  · refine failJob_keeps (digestVa_keeps ?_)
    split
    · exact afterWrite_keeps (dramPut_keeps h)
    · exact .set (dmaWords_keeps h)
    · exact request_keeps h
    · exact h
  · refine digestVa_keeps ?_
    split
    · exact afterWrite_keeps (dramPut_keeps h)
    · exact .set (dmaWords_keeps h)
    · exact request_keeps h
    · exact h

theorem writeSpans_keeps {o' : Owner} {xs : List Span} {l : List PWord} (h : Keeps o s) :
    Keeps o (writeSpans s o' xs l) := by
  induction xs generalizing s l with
  | nil => exact h
  | cons x t ih => exact ih (writeSpan_keeps h)

theorem writeVa_keeps {u : Nat} {o' : Owner} {va : Nat} {l : List PWord} (h : Keeps o s) :
    Keeps o (writeVa s u o' va l) := by
  unfold writeVa
  dsimp only
  split
  · exact privetFail_keeps h
  · exact .ite (failJob_keeps h) (writeSpans_keeps h)

theorem digestHost_keeps {o' : Owner} {addr : Nat} {l : List Byte} (h : Keeps o s) :
    Keeps o (digestHost s o' addr l) :=
  .ite (forL_keeps digestAdd_keeps h) h

theorem writeHost_keeps {fn : Nat} {o' : Owner} {addr : Nat} {l : List PWord} (h : Keeps o s) :
    Keeps o (writeHost s fn o' addr l) :=
  .ite (failJob_keeps (digestHost_keeps (dmaWords_keeps h))) (digestHost_keeps (dmaWords_keeps h))

/-! ### Versions -/

theorem zeroVa_keeps {v : VSlot} {va n : Nat} (h : Keeps o s) : Keeps o (zeroVa s v va n) :=
  forL_keeps (fun h => .ite (afterWrite_keeps (.set (.set (h.setDram (Mem.wf_zero _ _))))) h) h

theorem zeroStaging_keeps {key : Nat} (h : Keeps o s) : Keeps o (zeroStaging s key) := by
  unfold zeroStaging
  dsimp only
  split
  · exact h
  · exact .set (forL_keeps zeroVa_keeps h)

theorem cleanStaging_keeps {key : Nat} (h : Keeps o s) : Keeps o (cleanStaging s key) :=
  .ite (zeroStaging_keeps h) h

/-! ### Grads -/

theorem adderAt_keeps {o' : Owner} {va : Nat} {p : AdderPkt} {operand : List PWord} (h : Keeps o s) :
    Keeps o (adderAt o' va p operand s).1 := by
  unfold adderAt
  dsimp only
  split
  · exact adderDo_keeps (digestAdd_keeps h)
  · exact adderSplit_keeps (digestAdd_keeps h)

theorem stageAdd_keeps {o' : Owner} {e : UpdEntry} {xs : List Span} {vec : List PWord} (h : Keeps o s) :
    Keeps o (stageAdd o' e xs vec s) := by
  induction xs generalizing s vec with
  | nil => exact h
  | cons x l ih => exact ih (forN_keeps adderAt_keeps h)

theorem claimSlot_keeps {o' : Owner} {u : Nat} {e : UpdEntry} {st h' : Nat} (h : Keeps o s) :
    Keeps o (claimSlot o' u e st h' s) :=
  digestVa_keeps (dramPut_keeps (adderAt_keeps h))

theorem gradLocal_keeps {o' : Owner} {u key i : Nat} {row : Option Nat} {vec : List PWord} (h : Keeps o s) :
    Keeps o (gradLocal s o' u key i row vec).1 := by
  unfold gradLocal
  dsimp only
  split
  · exact h
  · split
    · exact walkPages_keeps h
    · exact walkPages_keeps h
    · split
      · exact walkPages_keeps h
      · exact walkPages_keeps h
      · exact forL_keeps adderAt_keeps (walkPages_keeps h)
      · exact stageAdd_keeps (forL_keeps adderAt_keeps (walkPages_keeps h))
      · split
        · exact walkPages_keeps h
        · exact stageAdd_keeps (claimSlot_keeps (forL_keeps adderAt_keeps (walkPages_keeps h)))

theorem staleGrad_keeps (h : Keeps o s) : Keeps o (staleGrad s) := .set (.set h)

theorem HeldGrad.entry_keeps {g : HeldGrad} {key : Nat} (h : Keeps o s) : Keeps o (HeldGrad.entry g key s).1 := by
  unfold HeldGrad.entry
  dsimp only
  split
  · exact h
  · split
    · exact h
    · split
      · exact gradLocal_keeps h
      · exact gradLocal_keeps h
      · exact gradLocal_keeps h
      · exact h

theorem runGrad_keeps {g : HeldGrad} (h : Keeps o s) : Keeps o (runGrad g s) := by
  unfold runGrad
  dsimp only
  split
  · exact slotFreed_keeps (staleGrad_keeps (.set h))
  · refine .ite h ?_
    split
    next heq => exact slotFreed_keeps (.set (.of_fst heq (HeldGrad.entry_keeps (cleanStaging_keeps h))))
    next heq =>
      exact slotFreed_keeps (sendResp_keeps (.set (.of_fst heq (HeldGrad.entry_keeps (cleanStaging_keeps h)))))
    next heq =>
      exact slotFreed_keeps (sendResp_keeps (.set (.of_fst heq (HeldGrad.entry_keeps (cleanStaging_keeps h)))))
    next heq =>
      exact slotFreed_keeps (sendResp_keeps (.set (.set (.of_fst heq (HeldGrad.entry_keeps (cleanStaging_keeps h))))))
    next heq => exact waitTile_keeps (.of_fst heq (HeldGrad.entry_keeps (cleanStaging_keeps h)))
    next heq => exact raiseLines_keeps (.of_fst heq (HeldGrad.entry_keeps (cleanStaging_keeps h)))

theorem runGrads_keeps (h : Keeps o s) : Keeps o (runGrads s) := forL_keeps runGrad_keeps h

/-! ### Sequencer -/

theorem fetchStore_keeps {c bank n : Nat} {o' : Owner} (h : Keeps o s) : Keeps o (fetchStore s c bank n o').1 := by
  unfold fetchStore
  dsimp only
  split
  · exact .set h
  · split
    · exact failJob_keeps (uePoison_keeps (.set h))
    · split
      · exact failJob_keeps h
      · exact h

theorem skipOp_keeps {c : Nat} {v : Invocation} {w : Word} (h : Keeps o s) : Keeps o (skipOp s c v w) :=
  .ite (.set h) (.set h)

theorem seqOp_keeps {c code : Nat} {f : Invocation → Word → State → State} (h : Keeps o s)
    (hf : ∀ {x0 x1 t}, Keeps o t → Keeps o (f x0 x1 t)) :
    Keeps o (seqOp s c code f) := by
  unfold seqOp
  dsimp only
  refine whenPowered_keeps h (fun h => ?_)
  split
  · exact h
  · refine .ite ?_ h
    split
    next heq => exact .of_fst heq (fetchStore_keeps h)
    next heq =>
      exact .ite (hf (.set (.of_fst heq (fetchStore_keeps h)))) (skipOp_keeps (.set (.of_fst heq (fetchStore_keeps h))))

theorem scalar_keeps {c code : Nat} {bad : Bool} {g : Invocation → Word → Word} (h : Keeps o s) :
    Keeps o (scalar s c code bad g) :=
  seqOp_keeps h (fun h => .ite (arithFault_keeps h) (.set (.set h)))

theorem openLoop_keeps {c : Nat} {v : Invocation} {w : Word} {count : Nat} (h : Keeps o s) :
    Keeps o (openLoop s c v w count) :=
  .ite (.set h) (.set h)

theorem capture_keeps {c q a : Nat} {v : Invocation} (h : Keeps o s) : Keeps o (capture s c q a v) :=
  .set (.set (spTouch_keeps h))

theorem issueOp_keeps {c code q : Nat} (h : Keeps o s) : Keeps o (issueOp s c code q) :=
  seqOp_keeps h (fun h => .ite (failJob_keeps h) (.ite (capture_keeps h) (.set h)))

theorem stalled_keeps {c : Nat} (h : Keeps o s) : Keeps o (stalled s c) := .set (.set h)

theorem settleOn_keeps {c id : Nat} (h : Keeps o s) : Keeps o (settleOn s c id) := .ite h (.set h)

theorem preempt_keeps {id : Nat} (h : Keeps o s) : Keeps o (preempt s id) := .set (.set h)

theorem beginCall_keeps {c : Nat} {p : PendCall} (h : Keeps o s) : Keeps o (beginCall s c p) := by
  unfold beginCall
  dsimp only
  split
  next heq => exact .of_fst heq (fetchStore_keeps h)
  next heq => exact .set (settleOn_keeps (.set (.of_fst heq (fetchStore_keeps h))))

/-! ### Moves -/

theorem verifyTile_keeps {u : Nat} {cid : BitVec 12} {src len a n : Nat} (h : Keeps o s) :
    Keeps o (verifyTile s u cid src len a n).1 := by
  unfold verifyTile
  dsimp only
  split
  · exact .set h
  · exact .set (.set h)

theorem moveRead_keeps {c u : Nat} {o' : Owner} {sp : Bool} {ext : List PWord} {l : List (Nat × Nat)} (h : Keeps o s) :
    Keeps o (moveRead s c u o' sp ext l).1 := by
  unfold moveRead
  dsimp only
  split
  · exact forL_keeps spTouch_keeps h
  · exact gather_keeps h

theorem moveWrite_keeps {c u : Nat} {o' : Owner} {sp : Bool} {a : Nat} {l : List PWord} (h : Keeps o s) :
    Keeps o (moveWrite s c u o' sp a l) :=
  .ite (spPut_keeps h) (writeVa_keeps h)

theorem moveTile_keeps {c : Nat} {o' : Owner} {m : MoveD} {ext : List PWord} {t : Nat} (h : Keeps o s) :
    Keeps o (moveTile c o' m ext t s).1 := by
  have hv {s u a n} (h : Keeps o s) :
      Keeps o (if m.srcSp then (s, none) else verifyTile s u o'.cid m.src m.len a n).1 := by
    split
    · exact h
    · exact verifyTile_keeps h
  unfold moveTile
  dsimp only
  split
  next e => exact failJob_keeps (.of_fst e (tileWalk_keeps h))
  next e => exact waitTile_keeps (.of_fst e (tileWalk_keeps h))
  next e => exact raiseLines_keeps (.of_fst e (tileWalk_keeps h))
  next e1 =>
    have h1 := Keeps.of_fst e1 (tileWalk_keeps h)
    split
    next e2 => exact .of_fst e2 (moveRead_keeps h1)
    next e2 =>
      have h2 := Keeps.of_fst e2 (moveRead_keeps h1)
      split
      · exact .set (forL_keeps moveWrite_keeps h2)
      · split
        · exact .set (moveWrite_keeps (hv h2))
        · refine failJob_keeps (.ite (hv h2) (moveWrite_keeps (hv h2)))

theorem moveTiles_keeps {c : Nat} {o' : Owner} {m : MoveD} {ext : List PWord} {n t : Nat} (h : Keeps o s) :
    Keeps o (moveTiles c o' m ext n t s) := by
  induction n generalizing s t with
  | zero => exact h
  | succ n ih =>
    unfold moveTiles
    split
    next e => exact ih (.of_fst e (moveTile_keeps h))
    next e => exact .of_fst e (moveTile_keeps h)

theorem takeMove_keeps {c : Nat} {e : QEntry} (h : Keeps o s) : Keeps o (takeMove s c e) :=
  .ite h (.set (.set h))

/-! ### Health -/

theorem yewAlert_keeps {i cause : Nat} {status : BitVec 2} {lo : Nat} (h : Keeps o s) :
    Keeps o (yewAlert s i cause status lo) :=
  .ite (.set (raiseEvent_keeps h)) (.set (raiseEvent_keeps h))

theorem putPredict_keeps {i : Nat} {p : Predict} (h : Keeps o s) : Keeps o (putPredict s i p) :=
  .ite (.set h) (.set h)

theorem setPredict_keeps {i : Nat} {f : Forecast} (h : Keeps o s) : Keeps o (setPredict i f s) :=
  .ite (yewAlert_keeps (.ite (yewAlert_keeps (putPredict_keeps h)) (.ite (yewAlert_keeps (putPredict_keeps h))
    (putPredict_keeps h)))) (.ite (yewAlert_keeps (.ite (yewAlert_keeps (putPredict_keeps h)) (.ite (yewAlert_keeps
      (putPredict_keeps h)) (putPredict_keeps h)))) (.ite (yewAlert_keeps (putPredict_keeps h)) (.ite (yewAlert_keeps
        (putPredict_keeps h)) (putPredict_keeps h))))

theorem recompute_keeps (h : Keeps o s) : Keeps o (recompute s) := by
  unfold recompute
  exact setPredict_keeps (.set (forL_keeps setPredict_keeps h))

theorem showMargin_keeps {h' : Nat} (h : Keeps o s) : Keeps o (showMargin h' s) := by
  unfold showMargin
  dsimp only
  split
  · exact .ite (putPredict_keeps h) h
  · exact h

/-! ### Power -/

theorem milliCounts_keeps {dw10ms : Nat} (h : Keeps o s) : Keeps o (milliCounts dw10ms s) :=
  .ite (.set (.set (forN_keeps (fun h => .set h) h))) h

theorem holdStarts_keeps {c : Nat} (h : Keeps o s) : Keeps o (holdStarts s c) :=
  .ite (delayStart_keeps h) h

theorem stageLower_keeps (h : Keeps o s) : Keeps o (stageLower s) := forN_keeps (fun h => .set h) h

theorem thermalEvent_keeps {stack hedge : Nat} {temp : Int} (h : Keeps o s) :
    Keeps o (thermalEvent s stack hedge temp) :=
  raiseEvent_keeps (.set h)

/-! ### Boot -/

theorem startFirmware_keeps {b : Bool} (h : Keeps o s) : Keeps o (startFirmware s b) :=
  .set (.set (.set h))

theorem romRun_keeps (h : Keeps o s) : Keeps o (romRun s) :=
  .ite (startFirmware_keeps (.set (.set h))) (.ite (startFirmware_keeps (.set (.set h))) (.set (.set (.set h))))

theorem fuseRaise_keeps (h : Keeps o s) : Keeps o (fuseRaise s) := .ite (.set (.set h)) h

theorem stopBringUp_keeps {cause : BitVec 8} {channel : BitVec 16} (h : Keeps o s) :
    Keeps o (stopBringUp s cause channel) :=
  .set (.set h)

theorem repairLanes_keeps {l : List (Nat × Nat)} (h : Keeps o s) : Keeps o (repairLanes l s) := by
  unfold repairLanes
  dsimp only
  split
  · exact stopBringUp_keeps (.set h)
  · exact .set (.set h)

/-! ### Submit -/

theorem issueBurst_keeps {q : SubQ} (h : Keeps o s) : Keeps o (issueBurst s q) :=
  forL_keeps (fun h => .set h) (.set (.set h))

theorem postCpl_keeps {fn cid : Nat} {words : Bool → List Word} (h : Keeps o s) :
    Keeps o (postCpl s fn cid words) := by
  unfold postCpl
  dsimp only
  split
  · exact h
  · exact msix_keeps (.set (dmaBytes_keeps h))

theorem admitJob_keeps {q : SubQ} {cid : BitVec 12} {d : List Word} {ndesc head : Nat}
    {cmds : List JobCmd} (h : Keeps o s) :
    Keeps o (admitJob s q cid d ndesc head cmds) :=
  .set (.set h)

theorem consume_keeps {q : SubQ} {n : Nat} (h : Keeps o s) : Keeps o (consume s q n) :=
  .set (.set h)

theorem refuseSub_keeps {q : SubQ} {n tag : Nat} {cid : BitVec 12} {st : Status} {idx : Nat} (h : Keeps o s) :
    Keeps o (refuseSub s q n tag cid st idx) :=
  postCpl_keeps (.set (consume_keeps h))

theorem parseFull_keeps {q : SubQ} {cid : BitVec 12} {n : Nat} (h : Keeps o s) : Keeps o (parseFull s q cid n) := by
  unfold parseFull
  dsimp only
  split
  · exact refuseSub_keeps h
  · split
    · exact refuseSub_keeps h
    · exact admitJob_keeps (.set (consume_keeps h))

theorem parseQueue_keeps {q : SubQ} (h : Keeps o s) : Keeps o (parseQueue s q) := by
  unfold parseQueue
  dsimp only
  split
  · exact .set (.set h)
  · exact refuseSub_keeps (.set (.set h))
  · exact parseFull_keeps (.set (.set h))

/-! ### Jobs -/

theorem onCmd_keeps {job idx type : Nat} {f : Job → JobCmd → State → State} (h : Keeps o s)
    (hf : ∀ {x0 x1 t}, Keeps o t → Keeps o (f x0 x1 t)) :
    Keeps o (onCmd s job idx type f) := by
  unfold onCmd
  refine whenPowered_keeps h (fun h => ?_)
  split
  · exact h
  · split
    · exact h
    · exact .ite (hf h) h

theorem copyRead_keeps {j : Job} {o' : Owner} {u kind c a n : Nat} {ext : List PWord} (h : Keeps o s) :
    Keeps o (copyRead s j o' u kind c a n ext).1 := by
  unfold copyRead
  dsimp only
  split
  · split
    · exact startRead_keeps h
    · split
      · exact .set h
      · exact h
  · exact gather_keeps h
  · exact spTouch_keeps h

theorem copyWrite_keeps {j : Job} {o' : Owner} {u kind c a : Nat} {l : List PWord} (h : Keeps o s) :
    Keeps o (copyWrite s j o' u kind c a l) := by
  unfold copyWrite
  split
  · exact writeHost_keeps h
  · exact writeVa_keeps h
  · exact spPut_keeps h

theorem copyTile_keeps {j : Job} {o' : Owner} {m : CopyD} {ext : List PWord} {t : Nat} (h : Keeps o s) :
    Keeps o (copyTile j o' m ext t s).1 := by
  unfold copyTile
  dsimp only
  split
  next e1 => exact failJob_keeps (.of_fst e1 (tileWalk_keeps h))
  next e1 => exact waitTile_keeps (.of_fst e1 (tileWalk_keeps h))
  next e1 => exact raiseLines_keeps (.of_fst e1 (tileWalk_keeps h))
  next e1 =>
    have h1 := Keeps.of_fst e1 (tileWalk_keeps h)
    split
    next e2 => exact .of_fst e2 (copyRead_keeps h1)
    next e2 => exact .set (copyWrite_keeps (.of_fst e2 (copyRead_keeps h1)))

theorem copyGo_keeps {j : Job} {o' : Owner} {m : CopyD} {ext : List PWord} {n t : Nat} (h : Keeps o s) :
    Keeps o (copyGo j o' m ext n t s) := by
  induction n generalizing s t with
  | zero => exact h
  | succ n ih =>
    unfold copyGo
    split
    next e => exact ih (.of_fst e (copyTile_keeps h))
    next e => exact .of_fst e (copyTile_keeps h)

theorem copyRun_keeps {j : Job} {k : JobCmd} {ext : List PWord} (h : Keeps o s) : Keeps o (copyRun j k ext s) :=
  .ite h (.ite (.set (copyGo_keeps h)) (copyGo_keeps h))

theorem finishReset_keeps {r : ResetRun} {resp : List Word} (h : Keeps o s) : Keeps o (finishReset s r resp) :=
  respond_keeps (.set h)

theorem resetGo_keeps (h : Keeps o s) : Keeps o (resetGo s) := by
  unfold resetGo
  dsimp only
  split
  · exact h
  · exact .ite (.ite (.set (forL_keeps zeroStaging_keeps (forL_keeps (fun h => .set h) (.set (.set h)))))
      (finishReset_keeps (forL_keeps zeroStaging_keeps (forL_keeps (fun h => .set h) (.set (.set h)))))) h

theorem meetWait_keeps {w : AdminWait} (h : Keeps o s) : Keeps o (meetWait w s) := by
  unfold meetWait
  split
  · exact h
  · exact respond_keeps h
  · exact respond_keeps (.set h)

theorem settleWaits_keeps (h : Keeps o s) : Keeps o (settleWaits s) :=
  resetGo_keeps (forL_keeps meetWait_keeps (.set h))

theorem soloNs_keeps {j : Job} (h : Keeps o s) : Keeps o (soloNs s j).2 := by
  unfold soloNs
  split
  · exact h
  · exact foldl_snd_keeps (fun h => .set h) h

theorem writeDigests_keeps {j : Job} (h : Keeps o s) : Keeps o (writeDigests s j) :=
  .ite (dmaBytes_keeps h) h

theorem postJob_keeps {j : Job} (h : Keeps o s) : Keeps o (postJob s j) :=
  settleWaits_keeps (.set (.ite h (postCpl_keeps (.set (soloNs_keeps (writeDigests_keeps h))))))

/-! ### Admin -/

theorem negotiateRun_keeps {f : FnId} {k : SlotId} (h : Keeps o s) : Keeps o (negotiateRun f k s) := by
  unfold negotiateRun
  split
  · exact refuse_keeps h
  · exact .ite (refuse_keeps h) (respond_keeps (.set h))

theorem createQueue_keeps {f kind log2 cls qid cqid vector : Nat} {ring : Word} (h : Keeps o s) :
    Keeps o (createQueue s f kind log2 cls qid cqid vector ring) := by
  unfold createQueue
  dsimp only
  split
  iterate 5 exact .set h

theorem createRun_keeps {f : FnId} {k : SlotId} (h : Keeps o s) : Keeps o (createRun f k s) :=
  .ite (respond_keeps (createQueue_keeps h)) (refuse_keeps h)

theorem closeSq_keeps {f qid : Nat} (h : Keeps o s) : Keeps o (closeSq s f qid) := .set (.set h)

theorem destroyRun_keeps {f : FnId} {k : SlotId} (h : Keeps o s) : Keeps o (destroyRun f k s) := by
  unfold destroyRun
  dsimp only
  split
  · exact .ite (settleWaits_keeps (.set (closeSq_keeps h))) (refuse_keeps h)
  · exact .ite (respond_keeps (.set h)) (refuse_keeps h)
  · refine .ite (refuse_keeps h) ?_
    split
    · exact respond_keeps (.set h)
    · exact respond_keeps (.set h)
    · exact respond_keeps (.set h)

theorem fenceRun_keeps {f : FnId} {k : SlotId} (h : Keeps o s) : Keeps o (fenceRun f k s) := by
  unfold fenceRun
  exact .ite (refuse_keeps h) (.ite (respond_keeps h) (settleWaits_keeps (.set (forL_keeps endJob_keeps (.set h)))))

theorem unfenceRun_keeps {f : FnId} {k : SlotId} (h : Keeps o s) : Keeps o (unfenceRun f k s) := by
  unfold unfenceRun
  exact .ite (refuse_keeps h) (respond_keeps (.ite (.set (.set h)) h))

theorem resetRunStart_keeps {f : FnId} {k : SlotId} (h : Keeps o s) : Keeps o (resetRunStart f k s) := by
  unfold resetRunStart
  dsimp only
  split
  · exact .set h
  · exact resetGo_keeps (.set (.ite (endAll_keeps (.set h)) (.set h)))

theorem setMode_keeps {f : FnId} {k : SlotId} {b : Nat} {act : State → State} (h : Keeps o s)
    (hf : ∀ {t}, Keeps o t → Keeps o (act t)) :
    Keeps o (setMode s f k b act) := by
  unfold setMode
  dsimp only
  refine whenFw_keeps h (fun h => .ite (.ite (.ite (respond_keeps h) (.ite (hf (modeApply_keeps h)) h)) ?_) h)
  refine .ite ?_ (.set h)
  split
  · exact respond_keeps (.set h)
  · exact .ite (.set h) (.ite (.ite (respond_keeps (.set (.set h))) (.ite (hf (modeApply_keeps (.set (.set h)))) (.set
      (.set h)))) (refuse_keeps (.set h)))

theorem fwActivateRun_keeps {f : FnId} {k : SlotId} (h : Keeps o s) : Keeps o (fwActivateRun f k s) :=
  .ite (respond_keeps (.ite (.set (applyFabric_keeps (fuseRaise_keeps (.set (romRun_keeps (.set h))))))
    (applyFabric_keeps (fuseRaise_keeps (.set (romRun_keeps (.set h))))))) (refuse_keeps h)

/-! ### Quant -/

theorem endData_keeps {o' : Owner} {e : DataEnd} (h : Keeps o s) : Keeps o (endData s o' e) := by
  unfold endData
  split
  · exact endJob_keeps h
  · exact failJob_keeps h

theorem scaleStep_keeps {u : ScaleUse} {w : ScaleWalk} (h : Keeps o s) : Keeps o (scaleStep u w s).1 := by
  unfold scaleStep
  dsimp only
  split
  · exact h
  · split
    · exact spTouch_keeps h
    · split
      · exact spTouch_keeps h
      · split
        · split
          · exact spTouch_keeps (spTouch_keeps (spTouch_keeps h))
          · exact spTouch_keeps (spTouch_keeps (spTouch_keeps h))
        · exact spTouch_keeps h

theorem scaleWalk_keeps {u : ScaleUse} {block fuel : Nat} {w : ScaleWalk} (h : Keeps o s) :
    Keeps o (scaleWalk u block fuel w s).1 := by
  induction fuel generalizing s w with
  | zero => exact h
  | succ fuel ih =>
    unfold scaleWalk
    split
    · exact h
    · split
      next e => exact .of_fst e (scaleStep_keeps h)
      next e => exact ih (.of_fst e (scaleStep_keeps h))

theorem scaleWalks_keeps {u : ScaleUse} {l : List Nat} {w : ScaleWalk} (h : Keeps o s) :
    Keeps o (scaleWalks u l w s).1 :=
  scaleWalk_keeps h

theorem ScaleWalk.scaleOf_keeps {w : ScaleWalk} {p off : Nat} (h : Keeps o s) :
    Keeps o (ScaleWalk.scaleOf w p off s).1 := by
  unfold ScaleWalk.scaleOf
  split
  · exact h
  · split
    · exact h
    · split
      · exact .set h
      · split
        · exact h
        · exact h
    · exact h

/-! ### Array -/

theorem arrRead_keeps {c a n : Nat} (h : Keeps o s) : Keeps o (arrRead s c a n).1 := by
  unfold arrRead
  dsimp only
  split
  · exact spTouch_keeps h
  · exact spTouch_keeps h

theorem weightScales_keeps {c : Nat} {d : ArrD} (h : Keeps o s) : Keeps o (weightScales s c d).1 := by
  unfold weightScales
  split
  · split
    next e1 => exact .of_fst e1 (scaleWalks_keeps h)
    next e1 =>
      have h1 := Keeps.of_fst e1 (scaleWalks_keeps h)
      split
      · exact h1
      · split
        next e2 => exact .of_fst e2 (scaleWalks_keeps h1)
        next e2 => exact .of_fst e2 (scaleWalks_keeps h1)
  · exact h

theorem tileRows_keeps {c : Nat} {d : ArrD} {l : List Nat} (h : Keeps o s) : Keeps o (tileRows c d l s).1 := by
  induction l generalizing s with
  | nil => exact h
  | cons r t ih =>
    unfold tileRows
    split
    next e => exact .of_fst e (arrRead_keeps h)
    next e =>
      have ht := ih (.of_fst e (arrRead_keeps h))
      split
      next e' => exact .of_fst e' ht
      next e' => exact .of_fst e' ht

theorem enterVector_keeps {c : Nat} {d : ArrD} {m : Nat} {w : ScaleWalk} (h : Keeps o s) :
    Keeps o (enterVector s c d m w).1 := by
  unfold enterVector
  dsimp only
  split
  · split
    next e1 => exact .of_fst e1 (scaleWalks_keeps h)
    next e1 =>
      have h1 := Keeps.of_fst e1 (scaleWalks_keeps h)
      split
      next e2 => exact .of_fst e2 (by split; exacts [ScaleWalk.scaleOf_keeps h1, h1])
      next e2 =>
        have h2 := Keeps.of_fst e2 (by split; exacts [ScaleWalk.scaleOf_keeps h1, h1])
        split
        next e3 => exact .of_fst e3 (scaleWalks_keeps h2)
        next e3 =>
          have h3 := Keeps.of_fst e3 (scaleWalks_keeps h2)
          split
          next e4 => exact .of_fst e4 (arrRead_keeps h3)
          next e4 => exact .of_fst e4 (arrRead_keeps h3)
  · split
    next e => exact .of_fst e (arrRead_keeps h)
    next e => exact .of_fst e (arrRead_keeps h)

theorem enterVectors_keeps {c : Nat} {d : ArrD} {n m : Nat} {w : ScaleWalk} (h : Keeps o s) :
    Keeps o (enterVectors c d n m w s).1 := by
  induction n generalizing s m w with
  | zero => exact h
  | succ n ih =>
    unfold enterVectors
    split
    next e => exact .of_fst e (enterVector_keeps h)
    next e => exact ih (.of_fst e (enterVector_keeps h))

theorem arrive_keeps {c : Nat} {d : ArrD} {m j : Nat} {sum : BitVec 32} {f : Option ArrFault} (h : Keeps o s) :
    Keeps o (arrive c d m j sum f s) :=
  .ite (.set (.ite (.set h) h)) (.set (.set (.ite (.set h) h)))

theorem writeOutput_keeps {c : Nat} {o' : Owner} {d : ArrD} {m : Nat} {l : List Byte} (h : Keeps o s) :
    Keeps o (writeOutput s c o' d m l) :=
  .ite (forL_keeps spWrite_keeps (spWrite_keeps h)) (spWrite_keeps h)

theorem passVector_keeps {c : Nat} {o' : Owner} {d : ArrD} {tile : TileVals} {scol : List (BitVec 32)}
    {stop : Option Nat} {wrong : Option ArrFault} {e : ArrVec × Nat} (h : Keeps o s) :
    Keeps o (passVector c o' d tile scol stop wrong e s) :=
  .ite (writeOutput_keeps (.set (forN_keeps (fun h => .ite (arrive_keeps h) h) h))) (forN_keeps (fun h => .ite
    (arrive_keeps h) h) h)

theorem axisVector_keeps {c : Nat} {o' : Owner} {d : ArrD} {tile : TileVals} {stop : Option Nat}
    {wrong : Option ArrFault} {e : ArrVec × Nat} (h : Keeps o s) :
    Keeps o (axisVector c o' d tile stop wrong e s) :=
  .ite (spWrite_keeps h) h

theorem arrMismatch_keeps {c : Nat} {e : QEntry} {f : ArrFault} (h : Keeps o s) : Keeps o (arrMismatch s c e f) :=
  arithFault_keeps (.set h)

theorem streamTile_keeps {c : Nat} {e : QEntry} {l : List QEntry} {d : ArrD} {tile : TileVals}
    {scol : List (BitVec 32)} {bad : Option ArrFault} (h : Keeps o s) :
    Keeps o (streamTile s c e l d tile scol bad) := by
  unfold streamTile
  dsimp only
  split
  · exact arrMismatch_keeps (forL_keeps (fun h => .ite (axisVector_keeps h) (passVector_keeps h)) (.set
      (enterVectors_keeps h)))
  · exact endData_keeps (forL_keeps (fun h => .ite (axisVector_keeps h) (passVector_keeps h)) (.set
      (enterVectors_keeps h)))
  · exact .set (forL_keeps (fun h => .ite (axisVector_keeps h) (passVector_keeps h)) (.set (enterVectors_keeps h)))

theorem arrRun_keeps {c : Nat} {axis : Bool} {bad : Option ArrFault} (h : Keeps o s) :
    Keeps o (arrRun c axis bad s) := by
  unfold arrRun
  dsimp only
  refine whenPowered_keeps h (fun h => ?_)
  split
  · exact h
  · refine .ite (failJob_keeps h) (.ite h ?_)
    split
    · exact failJob_keeps h
    · split
      next e1 => exact failJob_keeps (.of_fst e1 (by split; exacts [coreCbs_keeps h, h]))
      next e1 =>
        have h1 := Keeps.of_fst e1 (by split; exacts [coreCbs_keeps h, h])
        split
        next e2 => exact endData_keeps (.of_fst e2 (weightScales_keeps h1))
        next e2 =>
          have h2 := Keeps.of_fst e2 (weightScales_keeps h1)
          split
          next e3 => exact failJob_keeps (.of_fst e3 (tileRows_keeps h2))
          next e3 => exact streamTile_keeps (.set (.of_fst e3 (tileRows_keeps h2)))

/-! ### Background -/

theorem groomRun_keeps {depth c item : Nat} (h : Keeps o s) : Keeps o (groomRun depth c item s) :=
  .ite (.set (.set (.set h))) (.set (.set (.set h)))

theorem groomEnd_keeps {a b : Nat} (h : Keeps o s) : Keeps o (groomEnd s a b) :=
  .set (.set (.set h))

theorem groomEvents_keeps {a b arbiter item : Nat} {suspect : Option Nat} (h : Keeps o s) :
    Keeps o (groomEvents s a b arbiter item suspect) := by
  unfold groomEvents
  dsimp only
  split
  · exact raiseEvent_keeps h
  · exact nameSuspect_keeps (raiseEvent_keeps h)

theorem groomResidue_keeps {c item lane : Nat} (h : Keeps o s) : Keeps o (groomResidue s c item lane) :=
  .ite (arithFault_keeps (.set (.set (.set h)))) (arithFault_keeps (.set (.set (.set h))))

theorem delayGroom_keeps (h : Keeps o s) : Keeps o (delayGroom s) := .ite h (.set (.set h))

theorem groomStart_keeps {l : List Nat} {work : State → State} (h : Keeps o s)
    (hf : ∀ {t}, Keeps o t → Keeps o (work t)) :
    Keeps o (groomStart l work s) :=
  .ite (delayGroom_keeps h) (hf (.set h))

theorem groomCompare_keeps {diff : Option (Fin 6)} {named : Option Bool} {a b : Nat} (h : Keeps o s) :
    Keeps o (groomCompare diff named a b s) := by
  unfold groomCompare
  dsimp only
  split
  · exact groomEnd_keeps h
  · split
    · exact groomEnd_keeps (groomEvents_keeps (.set h))
    · exact .ite (.set (.set h)) (groomEnd_keeps (groomEvents_keeps (.set h)))

/-! ### Hedgerow -/

theorem deliver_keeps {t : Word} {l : List PWord} (h : Keeps o s) : Keeps o (deliver s t l) := by
  unfold deliver
  dsimp only
  refine .ite (.ite ?_ ?_) (.set h)
  · split
    · exact h
    · exact failJob_keeps h
  · split
    · exact reqFail_keeps h
    · exact .ite (.set h) h

theorem completePackets_keeps (h : Keeps o s) : Keeps o (completePackets s) :=
  forL_keeps (fun h => .ite (deliver_keeps (.set h)) h) h

theorem routerStep_keeps (h : Keeps o s) : Keeps o (routerStep s) := completePackets_keeps (.set h)

theorem routerSteps_keeps {fuel : Nat} (h : Keeps o s) : Keeps o (routerSteps fuel s) := by
  induction fuel generalizing s with
  | zero => exact h
  | succ fuel ih => exact .ite (ih (routerStep_keeps h)) h

theorem runRouters_keeps (h : Keeps o s) : Keeps o (runRouters s) := .ite h (routerSteps_keeps h)

theorem sendPacket_keeps {l : List HFlit} (h : Keeps o s) : Keeps o (sendPacket l s) :=
  .ite (deliver_keeps h) (runRouters_keeps (.set h))

theorem routerFinds_keeps {l : List Flit} (h : Keeps o s) : Keeps o (routerFinds l s) :=
  forL_keeps (fun h => forN_keeps uePoison_keeps h) (.set h)

/-! ### Channels -/

theorem scrubHalf_keeps {a : Nat} (h : Keeps o s) : Keeps o (scrubHalf a s) :=
  .ite (dramTouch_keeps h) (.set ((dramTouch_keeps h).setDram (wf_foldl_settle _)))

/-! ### Lookups -/

theorem lookRead_keeps {l : Lookup} {va : Bool} {ext : List PWord} {a n : Nat} (h : Keeps o s) :
    Keeps o (lookRead s l va ext a n).1 := by
  unfold lookRead
  dsimp only
  split
  · exact h
  · split
    · split
      next e1 => exact failJob_keeps (.of_fst e1 (tileWalk_keeps h))
      next e1 => exact waitTile_keeps (.of_fst e1 (tileWalk_keeps h))
      next e1 => exact raiseLines_keeps (.of_fst e1 (tileWalk_keeps h))
      next e1 =>
        have h1 := Keeps.of_fst e1 (tileWalk_keeps h)
        split
        next e2 => exact .of_fst e2 (gather_keeps h1)
        next e2 =>
          have h2 := Keeps.of_fst e2 (gather_keeps h1)
          split
          · exact failJob_keeps h2
          · exact h2
    · split
      · exact failJob_keeps h
      · split
        · exact failJob_keeps (spTouch_keeps h)
        · exact spTouch_keeps h

theorem countRow_keeps {key u : Nat} {cid : BitVec 12} {t : TableEntry} {i : Nat} (h : Keeps o s) :
    Keeps o (countRow key u cid t i s) :=
  forL_keeps countAccess_keeps h

theorem issuePieces_keeps {e fuel : Nat} (h : Keeps o s) : Keeps o (issuePieces e fuel s) := by
  induction fuel generalizing s with
  | zero => exact h
  | succ fuel ih =>
    unfold issuePieces
    dsimp only
    split
    · exact h
    · exact ih (.set h)

theorem issueFor_keeps {b : Bag} (h : Keeps o s) : Keeps o (issueFor b s) :=
  .ite h (issuePieces_keeps h)

theorem addPiece_keeps {id h' : Nat} {rows : List (Nat × Nat)} (h : Keeps o s) : Keeps o (addPiece id h' rows s) := by
  unfold addPiece
  dsimp only
  split
  · exact h
  · exact .set (.set h)

theorem addGather_keeps {id m : Nat} {l : List Nat} (h : Keeps o s) : Keeps o (addGather id m l s) := by
  unfold addGather
  dsimp only
  split
  · exact h
  · exact .set (request_keeps h)

theorem flushRows_keeps {id : Nat} {all : Bool} (h : Keeps o s) : Keeps o (flushRows id all s) := by
  unfold flushRows
  dsimp only
  split
  · exact h
  · exact issueFor_keeps (.set (forN_keeps (fun h => forL_keeps addGather_keeps h) (forN_keeps
      (fun h => forL_keeps addPiece_keeps h) h)))

theorem homeFail_keeps {b : Bag} {st : Status} (h : Keeps o s) : Keeps o (homeFail s b st) := by
  unfold homeFail
  dsimp only
  split
  · exact failJob_keeps h
  · exact slotFreed_keeps (sendResp_keeps (.set (.set h)))

theorem bagPrivet_keeps {b : Bag} {pa : Nat} (h : Keeps o s) : Keeps o (bagPrivet s b pa) :=
  .ite (homeFail_keeps (.set h)) (privetFail_keeps h)

theorem countIndex_keeps {b : Bag} {x : RowAt} {dflt : Bool} (h : Keeps o s) : Keeps o (countIndex s b x dflt) := by
  unfold countIndex
  dsimp only
  split
  · exact .set h
  · exact .set (.set h)

theorem deliverRow_keeps {b : Bag} {pos i : Nat} {x : RowAt} {dflt : Bool} (h : Keeps o s) :
    Keeps o (deliverRow s b pos i x dflt) := by
  unfold deliverRow
  dsimp only
  split
  · exact .set (countRow_keeps (countIndex_keeps h))
  · exact .set (countRow_keeps (countIndex_keeps h))
  · exact .set (countIndex_keeps h)
  · exact countIndex_keeps h

theorem classifyFrom_keeps {id pos : Nat} {l : List Nat} (h : Keeps o s) : Keeps o (classifyFrom id pos l s) := by
  induction l generalizing s pos with
  | nil => exact flushRows_keeps (.set h)
  | cons i l ih =>
    unfold classifyFrom
    dsimp only
    split
    · exact h
    · next b _ =>
      have hw : Keeps o (if i < (s.slot b.key).entry.rowCount then
          walkPages s b.unit b.owner.cid [((s.slot b.key).entry.rowVa i, (s.slot b.key).entry.stride, false)] else s) :=
        .ite (walkPages_keeps h) h
      split
      · exact homeFail_keeps hw
      · exact waitTile_keeps (flushRows_keeps (.set hw))
      · exact .ite (ih (deliverRow_keeps hw)) (homeFail_keeps hw)
      · exact ih (deliverRow_keeps hw)

theorem classify_keeps {id : Nat} (h : Keeps o s) : Keeps o (classify s id) := by
  unfold classify
  split
  · exact h
  · split
    · exact h
    · exact classifyFrom_keeps h

theorem openBag_keeps {l : Lookup} {idx : List Nat} (h : Keeps o s) : Keeps o (openBag s l idx) :=
  classify_keeps (.set (.set h))

theorem openBags_keeps {c fuel : Nat} {ext : List PWord} (h : Keeps o s) : Keeps o (openBags c fuel ext s) := by
  induction fuel generalizing s ext with
  | zero => exact h
  | succ fuel ih =>
    unfold openBags
    dsimp only
    split
    · exact h
    · refine .ite h ?_
      split
      · split
        next e => exact .of_fst e (lookRead_keeps h)
        next e =>
          have hr := Keeps.of_fst e (lookRead_keeps h)
          exact .ite (failJob_keeps hr) (ih (.set hr))
      · split
        next e => exact .of_fst e (lookRead_keeps h)
        next e => exact ih (openBag_keeps (.of_fst e (lookRead_keeps h)))

theorem beginLookup_keeps {c : Nat} (h : Keeps o s) : Keeps o (beginLookup c s) := by
  unfold beginLookup
  dsimp only
  split
  · exact h
  · refine .ite (failJob_keeps h) ?_
    split
    · exact failJob_keeps h
    · exact h
    · exact .set (.set (.set h))

theorem thicketRead_keeps {h' : Nat} {l : List TLine} (h : Keeps o s) : Keeps o (thicketRead h' l s) :=
  .set (forL_keeps uePoison_keeps (.set h))

theorem withCb_keeps {h' : Nat} {b : Bag} {f : State → State} (h : Keeps o s)
    (hf : ∀ {t}, Keeps o t → Keeps o (f t)) : Keeps o (withCb s h' b f) := by
  unfold withCb
  dsimp only
  refine .ite ?_ (hf h)
  split
  next heq => exact hf (.of_fst heq (hedgeCb_keeps h))
  next heq => exact homeFail_keeps (.of_fst heq (hedgeCb_keeps h))

theorem cutPiece_keeps {b : Bag} {p : Piece} (h : Keeps o s) : Keeps o (cutPiece s b p) :=
  .set (thicketRead_keeps (.set h))

theorem sendPools_keeps {b : Bag} {p : Piece} (h : Keeps o s) : Keeps o (sendPools s b p) :=
  forL_keeps (fun h => .ite (.set (.set h)) h) h

theorem fetchTail_keeps {id : Nat} {b : Bag} {n : Nat} {r : TailRow} (h : Keeps o s) :
    Keeps o (fetchTail id b n r s) :=
  .ite (.set (.ite (.set h) (.set (.set h)))) (.set (startRead_keeps (.ite (.set h) (.set (.set h)))))

theorem finishLookup_keeps {id : Nat} (h : Keeps o s) : Keeps o (finishLookup s id) := by
  unfold finishLookup
  dsimp only
  split
  · exact h
  · exact .ite (.set (.set (.set (spWrite_keeps h)))) h

theorem writeBag_keeps {b : Bag} {l : Lookup} {t : TableEntry} {k : Contrib} (h : Keeps o s) :
    Keeps o (writeBag s b l t k) :=
  finishLookup_keeps (.set (.set (.set (.ite (spWrite_keeps (.ite (spPut_keeps h) (spWrite_keeps h))) (.ite
    (spPut_keeps h) (spWrite_keeps h))))))

theorem respondAll_keeps {m : Nat} {lc : Bool} {cid : BitVec 12} {txn : BitVec 16} {l : List PWord} (h : Keeps o s) :
    Keeps o (respondAll m lc cid txn l s) :=
  forL_keeps sendResp_keeps h

theorem answerGather_keeps {b : Bag} {m : Nat} {txn : BitVec 16} {lc : Bool} {k : Contrib} (h : Keeps o s) :
    Keeps o (answerGather s b m txn lc k) :=
  slotFreed_keeps (.set (sendResp_keeps (respondAll_keeps h)))

theorem gatherDone_keeps {id m seq : Nat} {txn : BitVec 16} {words : List PWord} (h : Keeps o s) :
    Keeps o (gatherDone s id m seq txn words) := by
  unfold gatherDone
  dsimp only
  split
  · exact h
  · exact .ite (failJob_keeps h) (.set (.set (.set h)))

/-! ### Lanea -/

theorem homeAnswer_keeps {m : LaneaMsg} {r : Option (Status × List PWord)} (h : Keeps o s) :
    Keeps o (homeAnswer m r s) := by
  unfold homeAnswer
  dsimp only
  refine slotFreed_keeps ?_
  split
  · exact sendResp_keeps h
  · exact h

theorem homeCheck_keeps {cid : BitVec 12} {pa n : Nat} {write : Bool} (h : Keeps o s) :
    Keeps o (homeCheck s cid pa n write).1 := by
  unfold homeCheck
  dsimp only
  split
  · exact h
  · split
    · exact h
    · split
      · exact h
      · exact .set h

theorem homeRead_keeps {m : LaneaMsg} (h : Keeps o s) : Keeps o (homeRead m s) := by
  unfold homeRead
  dsimp only
  refine .ite (homeAnswer_keeps h) ?_
  split
  next heq => exact homeAnswer_keeps (.of_fst heq (homeCheck_keeps h))
  next heq => exact homeAnswer_keeps (dramTouch_keeps (.of_fst heq (homeCheck_keeps h)))

theorem homeWrite_keeps {m : LaneaMsg} (h : Keeps o s) : Keeps o (homeWrite m s) := by
  unfold homeWrite
  dsimp only
  split
  next heq => exact homeAnswer_keeps (.of_fst heq (homeCheck_keeps h))
  next heq => exact homeAnswer_keeps (afterWrite_keeps (dramPut_keeps (.of_fst heq (homeCheck_keeps h))))

theorem homeAdder_keeps {m : LaneaMsg} (h : Keeps o s) : Keeps o (homeAdder m s) := by
  unfold homeAdder
  dsimp only
  refine .ite (homeAnswer_keeps h) ?_
  split
  · exact homeAnswer_keeps h
  · refine .ite (homeAnswer_keeps h) ?_
    split
    next heq => exact homeAnswer_keeps (.of_fst heq (homeCheck_keeps h))
    next heq =>
      split
      · exact homeAnswer_keeps (State.addArrival_keeps (.of_fst heq (homeCheck_keeps h)))
      · exact homeAnswer_keeps (adderDo_keeps (.of_fst heq (homeCheck_keeps h)))

theorem homeGradient_keeps {m : LaneaMsg} (h : Keeps o s) : Keeps o (homeGradient m s) :=
  runGrads_keeps (.set h)

theorem homeGather_keeps {m : LaneaMsg} (h : Keeps o s) : Keeps o (homeGather m s) := by
  unfold homeGather
  dsimp only
  refine .ite (homeAnswer_keeps h) ?_
  split
  · exact homeAnswer_keeps h
  · exact .ite (homeAnswer_keeps h) (.ite (homeAnswer_keeps h) (classify_keeps (.set h)))

theorem homeForbids_keeps {o' : Owner} {r : LReq} (h : Keeps o s) : Keeps o (homeForbids s o' r) := by
  unfold homeForbids
  split
  · exact jobFault_keeps h
  · exact jobFault_keeps (.set (.set h))

theorem takeResponse_keeps {m : LaneaMsg} (h : Keeps o s) : Keeps o (takeResponse m s) := by
  unfold takeResponse
  dsimp only
  split
  · exact h
  · refine .ite ?_ ?_
    · split
      · exact .set h
      · exact .ite (.set h) (.ite (jobFaultAll_keeps (.set h)) (.ite (homeForbids_keeps (.set h)) (failJob_keeps
          (.set h))))
    · split
      · exact .ite (.set h) (.set h)
      · split
        · exact .set h
        · exact .ite (gatherDone_keeps (.set h)) (.set h)
      · exact .set h

theorem executeMsg_keeps {m : LaneaMsg} (h : Keeps o s) : Keeps o (executeMsg m s) := by
  unfold executeMsg
  refine .ite (takeResponse_keeps h) ?_
  split
  · exact homeRead_keeps h
  · exact homeWrite_keeps h
  · exact homeAdder_keeps h
  · exact homeGradient_keeps h
  · exact homeGather_keeps h

theorem snapAudit_keeps {m : Nat} {lc : Bool} (h : Keeps o s) : Keeps o (snapAudit s m lc) := by
  unfold snapAudit
  dsimp only
  split
  · exact h
  · exact .ite (.set h) h

theorem inOrder_keeps {m : LaneaMsg} (h : Keeps o s) : Keeps o (inOrder m s) :=
  executeMsg_keeps (snapAudit_keeps (.set h))

theorem drainEarly_keeps {p : Nat} {lc : Bool} {fuel : Nat} (h : Keeps o s) : Keeps o (drainEarly p lc fuel s) := by
  induction fuel generalizing s with
  | zero => exact h
  | succ fuel ih =>
    unfold drainEarly
    dsimp only
    split
    · exact h
    · exact .ite (raiseLines_keeps h) (ih (inOrder_keeps (.set h)))

theorem channelMsg_keeps {port : Nat} {m : LaneaMsg} (h : Keeps o s) : Keeps o (channelMsg port m s) :=
  .ite h (.ite (sendAck_keeps (drainEarly_keeps (.set h))) (.ite (.set h) (.ite (sendAck_keeps (drainEarly_keeps
    (inOrder_keeps (.ite h (.set h))))) (.ite (raiseLines_keeps (.set (.ite h (.set h)))) (.set (.ite h (.set h)))))))

theorem receive_keeps {port : Nat} {m : LaneaMsg} {f : State → State} (h : Keeps o s)
    (hf : ∀ {t}, Keeps o t → Keeps o (f t)) :
    Keeps o (receive port m f s) :=
  whenPowered_keeps h (fun h => .ite h (.ite (.set (.set h)) (.ite (.set h) (hf (.set h)))))

theorem requestOf_keeps {kind port : Nat} {m : LaneaMsg} (h : Keeps o s) : Keeps o (requestOf kind port m s) :=
  receive_keeps h (fun h => .ite (channelMsg_keeps h) h)

theorem sendCensus_keeps {m : Nat} (h : Keeps o s) : Keeps o (sendCensus s m) := wire_keeps (.set h)

theorem censusClass_keeps {m : Nat} {lc : Bool} {last held returned freed ack : BitVec 32} (h : Keeps o s) :
    Keeps o (censusClass m lc last held returned freed ack s) :=
  snapAudit_keeps (creditChan_keeps (ackChan_keeps (.set h)))

theorem reachAgain_keeps {m : Nat} (h : Keeps o s) : Keeps o (reachAgain m s) :=
  .ite (fabricEvent_keeps (.set h)) h

/-! ### Pages -/

theorem mapRun_keeps {root : Nat} {write : Bool} {r : PageRun} (h : Keeps o s) : Keeps o (mapRun root write r s) :=
  forN_keeps mapLeaf_keeps h

theorem addRecord_keeps {id version n : Nat} {key : Option Nat}
    {r : Nat × State} (h : Keeps o s) (e : addRecord s id version n key = some r) :
    Keeps o r.2 := by
  obtain ⟨_, _, rfl⟩ := Option.map_eq_some_iff.1 e
  exact .set h

theorem mapTensor_keeps {pages : List PageRange} {trec va n : Nat} (h : Keeps o s) :
    Keeps o (mapTensor s pages trec va n) :=
  forL_keeps (fun h => .ite (.set h) h) h

theorem dropCb_keeps {id : Nat} (h : Keeps o s) : Keeps o (dropCb s id) :=
  forN_keeps (fun h => .set h) (.set (.set h))

theorem makeStore_keeps {t : State} (h : Keeps o s) (e : makeStore s = some t) : Keeps o t := by
  unfold makeStore at e
  split at e
  · cases e
    exact h
  · obtain ⟨r, hr, rfl⟩ := Option.map_eq_some_iff.1 e
    exact forN_keeps (fun h => .set h) (addRecord_keeps h hr)

theorem installCb_keeps {id : Nat} {c : Codebook} (h : Keeps o s) : Keeps o (installCb s id c) :=
  forN_keeps resum_keeps (dramPut_keeps (dropCb_keeps (.set h)))

/-! ### TableMap -/

theorem sumTier_keeps {l : List PageRange} {trec va n : Nat} {tier : List (Nat × List PWord)} (h : Keeps o s) :
    Keeps o (sumTier s l trec va n tier) := by
  unfold sumTier
  dsimp only
  split
  · exact h
  · exact forL_keeps (fun h => forN_keeps (fun h => .ite (.set (.ite (.set h) h)) h) h) h

theorem addTensor_keeps {q : MapReq} {key : Nat} {tier : List (Nat × List PWord)} {x : Nat × Nat × Nat}
    {t : State} (h : Keeps o s) (e : addTensor q key tier x s = some t) :
    Keeps o t := by
  unfold addTensor at e
  split at e
  · cases e
  · obtain ⟨r, hr, rfl⟩ := Option.map_eq_some_iff.1 e
    exact sumTier_keeps (mapTensor_keeps (addRecord_keeps h hr))

theorem addTensors_keeps {q : MapReq} {key : Nat} {tier : List (Nat × List PWord)} {l : List (Nat × Nat × Nat)}
    {t : State} (h : Keeps o s) (e : addTensors q key tier l s = some t) :
    Keeps o t := by
  induction l generalizing s with
  | nil =>
    cases e
    exact h
  | cons x l ih =>
    unfold addTensors at e
    split at e
    · cases e
    · next hx => exact ih (addTensor_keeps h hx) e

theorem createVersion_keeps {q : MapReq} {key : Nat} (h : Keeps o s) : Keeps o (createVersion q key s) :=
  .set (.ite (installCb_keeps (forL_keeps (fun h => forL_keeps mapRun_keeps h) h)) (forL_keeps
    (fun h => forL_keeps mapRun_keeps h) h))

theorem mapTable_keeps {f : FnId} {k : SlotId} {runs : HostRd} {tier : List (Nat × List PWord)} (h : Keeps o s) :
    Keeps o (mapTable f k runs tier s) := by
  refine .ite (refuse_keeps h) (.ite ?_ (refuse_keeps h))
  split
  · exact refuse_keeps h
  · split
    · exact refuse_keeps h
    · next e =>
      obtain ⟨u, hu, ht⟩ := Option.bind_eq_some_iff.1 e
      have hk : Keeps o u := by
        split at hu
        · exact makeStore_keeps h hu
        · cases hu
          exact h
      exact respond_keeps (createVersion_keeps (addTensors_keeps hk ht))

theorem tableMapRun_keeps {f : FnId} {k : SlotId} {runs : HostRd} {tier : List (Nat × List PWord)} (h : Keeps o s) :
    Keeps o (tableMapRun f k runs tier s) :=
  withHost_keeps h mapTable_keeps

/-! ### Swap -/

theorem swapOne_keeps {e : Nat × Nat} (h : Keeps o s) : Keeps o (swapOne e s) := by
  unfold swapOne
  dsimp only
  split
  · refine .set ?_
    split
    · exact .set h
    · exact h
  · split
    · exact .set h
    · exact h

theorem swapApply_keeps {fn slot : Nat} {l : List (Nat × Nat)} {wait : Bool} (h : Keeps o s) :
    Keeps o (swapApply s fn slot l wait) :=
  .ite (.set (forL_keeps swapOne_keeps h)) (respond_keeps (forL_keeps swapOne_keeps h))

theorem tableSwapRun_keeps {f : FnId} {k : SlotId} (h : Keeps o s) : Keeps o (tableSwapRun f k s) :=
  .ite (.ite (swapApply_keeps h) (.set h)) (refuse_keeps h)

theorem upLeaves_keeps {vpage : Nat} {f : Word → Word} (h : Keeps o s) : Keeps o (upLeaves s vpage f) := by
  unfold upLeaves
  refine forL_keeps (fun h => ?_) h
  split
  · exact h
  · exact setNode_keeps h

theorem clearContig_keeps {vpage : Nat} (h : Keeps o s) : Keeps o (clearContig s vpage) :=
  forN_keeps upLeaves_keeps h

theorem unmapPage_keeps {r : PageRange} (h : Keeps o s) : Keeps o (unmapPage r s) :=
  .set (upLeaves_keeps h)

theorem swapsRetired_keeps {key : Nat} (h : Keeps o s) : Keeps o (swapsRetired s key) :=
  forL_keeps respond_keeps (.set h)

theorem retire_keeps {key : Nat} (h : Keeps o s) : Keeps o (retire s key) :=
  swapsRetired_keeps (.set (.set (forL_keeps unmapPage_keeps (forN_keeps (fun h => .set h) h))))

theorem markPage_keeps {m : Migration} (h : Keeps o s) : Keeps o (markPage m s) :=
  .set (.set (.set (upLeaves_keeps (clearContig_keeps h))))

theorem unmarkPage_keeps {m : Migration} {f : Word → Word} (h : Keeps o s) : Keeps o (unmarkPage s m f) :=
  .set (forL_keeps (fun h => .set h) (upLeaves_keeps h))

theorem migrateRun_keeps {f : FnId} {k : SlotId} (h : Keeps o s) : Keeps o (migrateRun f k s) := by
  unfold migrateRun
  dsimp only
  refine .ite (refuse_keeps h) ?_
  split
  · exact refuse_keeps h
  · exact .ite (markPage_keeps (.set h)) (refuse_keeps h)

theorem endMigration_keeps {m : Migration} {st : Status} (h : Keeps o s) : Keeps o (endMigration s m st) :=
  respond_keeps (.set h)

theorem stopMigration_keeps {m : Migration} {st : Status} (h : Keeps o s) : Keeps o (stopMigration s m st) :=
  endMigration_keeps (unmarkPage_keeps h)

theorem movePageMap_keeps {v : VSlot} {vpage src dst : Nat} (h : Keeps o s) :
    Keeps o (movePageMap s v vpage src dst) :=
  .ite (forL_keeps (fun h => .set h) (.ite (.set h) h)) (.ite (.set h) h)

theorem pageMoved_keeps {m : Migration} (h : Keeps o s) : Keeps o (pageMoved s m) :=
  .ite (endMigration_keeps (unmarkPage_keeps (.set (.set (movePageMap_keeps h))))) (.ite (endMigration_keeps (.set
    (unmarkPage_keeps (.set (.set (movePageMap_keeps h)))))) (markPage_keeps (.set (unmarkPage_keeps (.set (.set
      (movePageMap_keeps h)))))))

theorem copyPage_keeps {m : Migration} {l : List PWord} (h : Keeps o s) : Keeps o (copyPage m l s) := by
  unfold copyPage
  dsimp only
  refine .ite (stopMigration_keeps (.set (.ite (dramTouch_keeps h) h))) ?_
  refine .ite (stopMigration_keeps (.ite (dramTouch_keeps h) h)) ?_
  split
  · exact pageMoved_keeps (dramPut_keeps (.ite (dramTouch_keeps h) h))
  · exact pageMoved_keeps (dmaWords_keeps (.ite (dramTouch_keeps h) h))
  · exact .set (.ite (dramTouch_keeps h) h)

/-! ### Models -/

theorem undefineDram_keeps (h : Keeps o s) : Keeps o (undefineDram s) :=
  .set (h.setDram fun _ => Mem.wf_empty _ _)

theorem applyMap_keeps {m : Image} (h : Keeps o s) : Keeps o (applyMap m s) := by
  unfold applyMap
  dsimp only
  split
  · exact h
  · exact .set (.ite h (undefineDram_keeps h))

theorem applyContext_keeps {c : Nat × Nat} (h : Keeps o s) : Keeps o (applyContext c s) :=
  .set (makeContext_keeps h)

theorem applyRuns_keeps {m : Image} (h : Keeps o s) : Keeps o (applyRuns m s) := by
  unfold applyRuns
  dsimp only
  refine forL_keeps (fun h => ?_) h
  split
  · exact h
  · exact mapRun_keeps h

theorem applyCbs_keeps {m : Image} (h : Keeps o s) : Keeps o (applyCbs m s) := by
  refine forL_keeps installCb_keeps (forL_keeps installCb_keeps (.ite h ?_))
  cases hm : makeStore s with
  | none => exact h
  | some t => exact makeStore_keeps h hm

theorem applyRules_keeps {m : Image} (h : Keeps o s) : Keeps o (applyRules m s) :=
  forL_keeps (fun h => forN_keeps (fun h => .set h) h) (forL_keeps (fun h => .set h) h)

theorem writeTensor_keeps {l : List PageRange} {va : Nat} {data : List Byte} (h : Keeps o s) :
    Keeps o (writeTensor l va data s) :=
  forL_keeps (fun h => .ite h (forN_keeps resum_keeps (dramWrite_keeps h))) h

theorem applyTensor_keeps {m : Image} {x : Sect} {t : State} (h : Keeps o s) (e : applyTensor m x s = some t) :
    Keeps o t := by
  unfold applyTensor at e
  split at e
  · obtain ⟨r, hr, rfl⟩ := Option.map_eq_some_iff.1 e
    exact writeTensor_keeps (mapTensor_keeps (addRecord_keeps h hr))
  · cases e

theorem applyTensors_keeps {m : Image} {l : List Sect} {n : Nat} (h : Keeps o s) :
    Keeps o (applyTensors m l n s).1 := by
  induction l generalizing s n with
  | nil => exact h
  | cons x l ih =>
    unfold applyTensors
    split
    · exact h
    · next e => exact ih (applyTensor_keeps h e)

theorem wipeModel_keeps (h : Keeps o s) : Keeps o (wipeModel s) :=
  runGrads_keeps (forL_keeps homeFail_keeps (forN_keeps (fun h => .set h) (.set (.set (dropAllTlbs_keeps (.set
    (clearContexts_keeps h)))))))

theorem narrowAll_keeps {f k : Nat} {st : Status} {resp : List Word} (h : Keeps o s) :
    Keeps o (narrowAll f k st resp s) :=
  .set (tellWardens_keeps h)

theorem loadRest_keeps {f k : Nat} {m : Image} (h : Keeps o s) : Keeps o (loadRest f k m s) := by
  unfold loadRest
  dsimp only
  split
  next e1 =>
    have h1 := Keeps.of_fst e1 (applyTensors_keeps (applyRules_keeps (applyCbs_keeps (applyRuns_keeps
      (forL_keeps applyContext_keeps h)))))
    exact respond_keeps (.set h1)
  next e1 =>
    have h1 := Keeps.of_fst e1 (applyTensors_keeps (applyRules_keeps (applyCbs_keeps (applyRuns_keeps
      (forL_keeps applyContext_keeps h)))))
    exact narrowAll_keeps (wipeModel_keeps (undefineDram_keeps h1))

theorem loadPrivets_keeps {f k : Nat} {m : Image} (h : Keeps o s) : Keeps o (loadPrivets f k m s) :=
  .ite (loadRest_keeps h) (.set (tellWardens_keeps h))

theorem loadApply_keeps {f : FnId} {k : SlotId} {m : Image} (h : Keeps o s) : Keeps o (loadApply f k m s) := by
  unfold loadApply
  dsimp only
  split
  · exact loadPrivets_keeps (.set (.set h))
  · exact .set (tellWardens_keeps (.set (.set h)))

theorem afterWardens_keeps {f k : Nat} {after : AfterWardens} (h : Keeps o s) :
    Keeps o (afterWardens f k after s) := by
  unfold afterWardens
  dsimp only
  split
  · exact .ite (modeDone_keeps h) h
  · exact respond_keeps (.set h)
  · exact loadPrivets_keeps (applyMap_keeps h)
  · exact loadRest_keeps (.set h)

theorem wardensDone_keeps (h : Keeps o s) : Keeps o (wardensDone s) := by
  unfold wardensDone
  dsimp only
  refine forL_keeps (fun h => ?_) (.set h)
  split
  · exact afterWardens_keeps h
  · exact h

theorem wardenReport_keeps {h' : Nat} (h : Keeps o s) : Keeps o (wardenReport s h') :=
  wardensDone_keeps (.set h)

theorem modelLoadRun_keeps {f : FnId} {k : SlotId} {image : HostRd} (h : Keeps o s) :
    Keeps o (modelLoadRun f k image s) := by
  unfold modelLoadRun
  dsimp only
  refine .ite (respond_keeps h) (withHost_keeps h (fun h => ?_))
  split
  · exact respond_keeps h
  · exact loadApply_keeps h

theorem modelUnloadRun_keeps {f : FnId} {k : SlotId} (h : Keeps o s) : Keeps o (modelUnloadRun f k s) :=
  .ite (narrowAll_keeps (.set (wipeModel_keeps h))) (refuse_keeps h)

/-! ### Nvme -/

theorem issueNvme_keeps {e : Nat} {isWrite : Bool} {off n : Nat} {bag : Option (Nat × Nat)}
    {data : List PWord} (h : Keeps o s) :
    Keeps o (issueNvme s e isWrite off n bag data) :=
  .set (.set (.set h))

theorem nvmeDeliver_keeps {x : NvmeCmd} {data : List PWord} (h : Keeps o s) : Keeps o (nvmeDeliver x data s) := by
  unfold nvmeDeliver
  dsimp only
  split
  · split
    · exact h
    · exact .set h
  · exact .set h

theorem nvmeFail_keeps {x : NvmeCmd} (h : Keeps o s) : Keeps o (nvmeFail x s) := by
  unfold nvmeFail
  refine .ite ?_ (nvmeDeliver_keeps h)
  split
  · exact h
  · exact .ite (stopMigration_keeps h) h

/-! ### Registers -/

theorem sqTail_keeps {f q v : Nat} (h : Keeps o s) : Keeps o (sqTail s f q v) := by
  unfold sqTail
  split
  · exact .set h
  · exact .ite (.set h) (.set h)

theorem cqHead_keeps {f c v : Nat} (h : Keeps o s) : Keeps o (cqHead s f c v) := by
  unfold cqHead
  split
  · exact .set h
  · exact .ite (.set h) (.set h)

theorem eqHead_keeps {v : Nat} (h : Keeps o s) : Keeps o (eqHead s v) := .ite (.set h) (.set h)

theorem hqHead_keeps {v : Nat} (h : Keeps o s) : Keeps o (hqHead s v) := .ite (.set h) (.set h)

theorem fqHead_keeps {v : Nat} (h : Keeps o s) : Keeps o (fqHead s v) := .ite (.set h) (.set h)

theorem hwin_keeps {v : Word} (h : Keeps o s) : Keeps o (hwin s v) := .ite h (.set h)

theorem resolve_keeps {tag : BitVec 16} {st : Nat} (h : Keeps o s) : Keeps o (resolve s tag st) := by
  unfold resolve
  split
  · exact .set h
  · exact .ite (.set (setNode_keeps h)) (.set h)

theorem mbHdr_keeps {key : Nat} {v : Word} (h : Keeps o s) : Keeps o (mbHdr s key v) :=
  .ite (.ite (.set (.set h)) (.set h)) (.ite (.set h) (.ite (.set h) h))

theorem slotWrite_keeps {key offset : Nat} {eight : Bool} {v : Word} (h : Keeps o s) :
    Keeps o (slotWrite s key offset eight v) :=
  .ite (.ite (mbHdr_keeps h) (.ite h (.set h))) (.ite (mbHdr_keeps h) (.ite h (.ite (.set h) (.ite (.set h) h))))

theorem msixWrite_keeps {f offset : Nat} {eight : Bool} {v : Word} (h : Keeps o s) :
    Keeps o (msixWrite s f offset eight v) :=
  .ite (.set h) (setVector_keeps (.set h))

theorem configWrite_keeps {f place : Nat} {v : Word} (h : Keeps o s) : Keeps o (configWrite s f place v) := by
  unfold configWrite
  dsimp only
  split
  · exact sendAllPending_keeps (.set h)
  · exact .ite h (.ite (forL_keeps resetFn_keeps (.set h)) (.set h))
  · exact .ite (.set h) h
  · exact .set h
  · exact .set h
  · exact h

theorem windowWrite_keeps {f offset : Nat} {eight : Bool} {v : Word} (h : Keeps o s) :
    Keeps o (windowWrite s f offset eight v) := by
  unfold windowWrite
  dsimp only
  refine .ite h (.ite (slotWrite_keeps h) (.ite ?_ ?_))
  · refine .ite h ?_
    split
    · exact eqHead_keeps h
    · exact hqHead_keeps h
    · exact fqHead_keeps h
    · exact h
  · refine .ite (.ite (sqTail_keeps h) h) (.ite (.ite (cqHead_keeps h) h) ?_)
    refine .ite (.ite h ?_) (.ite (msixWrite_keeps h) h)
    split
    · exact resolve_keeps h
    · exact resolve_keeps h
    · exact .set h

/-! ### Routines -/

theorem loadPiece_keeps {off : Nat} {l : List Byte} (h : Keeps o s) : Keeps o (loadPiece s off l) :=
  .set (.set h)

theorem routineLoadRun_keeps {f : FnId} {k : SlotId} {piece : HostRd} (h : Keeps o s) :
    Keeps o (routineLoadRun f k piece s) :=
  .ite (.ite (.set h) (withHost_keeps h (fun h => .ite (respond_keeps (loadPiece_keeps h)) (refuse_keeps h))))
    (refuse_keeps h)

theorem commitRun_keeps {f : FnId} {k : SlotId} (h : Keeps o s) : Keeps o (commitRun f k s) := by
  unfold commitRun
  dsimp only
  split
  · exact respond_keeps h
  · exact respond_keeps (.set (.set h))

/-! ### RowWrites -/

theorem rowWRead_keeps {j : Job} {o' : Owner} {host : Bool} {a n : Nat} {ext : List PWord} (h : Keeps o s) :
    Keeps o (rowWRead s j o' host a n ext).1 := by
  unfold rowWRead
  dsimp only
  split
  · split
    · exact startRead_keeps h
    · exact h
  · split
    · exact failJob_keeps h
    · exact waitTile_keeps h
    · exact raiseLines_keeps h
    · exact gather_keeps h

theorem writeRow_keeps {o' : Owner} {key stamp : Nat} {r : RowImg} (h : Keeps o s) :
    Keeps o (writeRow o' key stamp r s) :=
  .ite (.ite (.set (writeVa_keeps h)) (writeVa_keeps h)) h

theorem writeRows_keeps {o' : Owner} {key : Nat} {d : RowWD} {rows : List RowImg} (h : Keeps o s) :
    Keeps o (writeRows s o' key d rows) := by
  unfold writeRows
  dsimp only
  split
  · exact failJob_keeps (.set h)
  · split
    · exact waitTile_keeps h
    · exact .ite (raiseLines_keeps h) (.set (forL_keeps writeRow_keeps (.set h)))

theorem rowWriteRun_keeps {j : Job} {k : JobCmd} {ext : List PWord} (h : Keeps o s) :
    Keeps o (rowWriteRun j k ext s) := by
  unfold rowWriteRun
  dsimp only
  refine .ite h ?_
  split
  · exact failJob_keeps h
  · split
    next e1 => exact .of_fst e1 (rowWRead_keeps h)
    next e1 =>
      have h1 := Keeps.of_fst e1 (rowWRead_keeps h)
      split
      next e2 => exact .of_fst e2 (rowWRead_keeps h1)
      next e2 => exact writeRows_keeps (.of_fst e2 (rowWRead_keeps h1))

theorem rowWriteBegin_keeps {j : Job} {k : JobCmd} (h : Keeps o s) : Keeps o (rowWriteBegin s j k) := by
  unfold rowWriteBegin
  dsimp only
  split
  · exact .set h
  · exact .set (.set h)

/-! ### Scatters -/

theorem scatEntry_keeps {c : Nat} {o' : Owner} {d : ScatD} {key n : Nat} (h : Keeps o s) :
    Keeps o (scatEntry c o' d key n s).1 := by
  unfold scatEntry
  dsimp only
  split
  · exact failJob_keeps (spTouch_keeps (spTouch_keeps h))
  · split
    · exact failJob_keeps (spTouch_keeps (spTouch_keeps h))
    · split
      · split
        · exact .set (request_keeps (digestAdd_keeps (.set (spTouch_keeps (spTouch_keeps h)))))
        · exact failJob_keeps (spTouch_keeps (spTouch_keeps h))
      · exact failJob_keeps (spTouch_keeps (spTouch_keeps h))
      · split
        next heq => exact .set (.of_fst heq (gradLocal_keeps (spTouch_keeps (spTouch_keeps h))))
        next heq => exact jobFaultAll_keeps (.of_fst heq (gradLocal_keeps (spTouch_keeps (spTouch_keeps h))))
        next heq => exact failJob_keeps (.of_fst heq (gradLocal_keeps (spTouch_keeps (spTouch_keeps h))))
        next heq => exact privetFail_keeps (.of_fst heq (gradLocal_keeps (spTouch_keeps (spTouch_keeps h))))
        next heq => exact waitTile_keeps (.of_fst heq (gradLocal_keeps (spTouch_keeps (spTouch_keeps h))))
        next heq => exact raiseLines_keeps (.of_fst heq (gradLocal_keeps (spTouch_keeps (spTouch_keeps h))))

theorem scatEntries_keeps {c : Nat} {o' : Owner} {d : ScatD} {key fuel n : Nat} (h : Keeps o s) :
    Keeps o (scatEntries c o' d key fuel n s) := by
  induction fuel generalizing s n with
  | zero => exact h
  | succ fuel ih =>
    unfold scatEntries
    split
    next e => exact ih (.of_fst e (scatEntry_keeps h))
    next e => exact .of_fst e (scatEntry_keeps h)

/-! ### Spdm -/

theorem upSpdm_keeps {p : SpdmPort} {f : Spdm → Spdm} (h : Keeps o s) : Keeps o (upSpdm s p f) := by
  unfold upSpdm
  dsimp only
  split
  · exact .set h
  · exact .set h

theorem spdmAnswer_keeps {p : SpdmPort} {msg reply : List Byte} (h : Keeps o s) :
    Keeps o (spdmAnswer s p msg reply) :=
  .ite (.set (upSpdm_keeps h)) (.set (upSpdm_keeps (upSpdm_keeps h)))

theorem exchange_keeps {p : SpdmPort} {ok : Spdm → Bool} {msg : List Byte} {f : Spdm → Spdm}
    {tail : List Byte → List Byte} (h : Keeps o s) :
    Keeps o (exchange s p ok msg f tail) :=
  .ite (.ite (spdmAnswer_keeps (upSpdm_keeps h)) (.set h)) h

/-! ### Telemetry -/

theorem clearRec_keeps {kind i : Nat} (h : Keeps o s) : Keeps o (clearRec s kind i) := by
  unfold clearRec
  dsimp only
  split
  iterate 12 exact .set h
  · exact .ite (.set (.ite (.set h) (.set h))) (.ite (.set h) (.set h))
  · exact .ite (.set h) (.set h)
  · exact .ite (.set h) (.set h)
  · exact h

theorem telemetryRun_keeps {f : FnId} {k : SlotId} (h : Keeps o s) : Keeps o (telemetryRun f k s) :=
  .ite (refuse_keeps h) (.ite (respond_keeps (dmaBytes_keeps h)) (respond_keeps (dmaBytes_keeps
    (forL_keeps clearRec_keeps h))))

/-! ### Vector -/

theorem strmRead_keeps {c : Nat} {m : Strm} {r n : Nat} (h : Keeps o s) : Keeps o (strmRead s c m r n).1 := by
  unfold strmRead
  dsimp only
  split
  · exact forL_keeps spTouch_keeps h
  · exact forL_keeps spTouch_keeps h

theorem strmWrite_keeps {c : Nat} {o' : Owner} {m : Strm} {r : Nat} {l : List (Nat × Nat)} (h : Keeps o s) :
    Keeps o (strmWrite s c o' m r l) :=
  forL_keeps spWrite_keeps h

theorem countIn_keeps {c fmt : Nat} {raw : List Nat} (h : Keeps o s) : Keeps o (countIn s c fmt raw) :=
  .ite (.set h) h

theorem countOut_keeps {c fmt : Nat} {raw : List Nat} (h : Keeps o s) : Keeps o (countOut s c fmt raw) :=
  .ite (.set h) h

theorem vecInputs_keeps {c fmt : Nat} {cb : CbView} {raw : List Nat} (h : Keeps o s) :
    Keeps o (vecInputs s c fmt cb raw).1 :=
  countIn_keeps h

theorem vecOutputs_keeps {c : Nat} {d : VecD} {fp : Bool} {l : List Ev} (h : Keeps o s) :
    Keeps o (vecOutputs s c d fp l).1 := by
  unfold vecOutputs
  dsimp only
  split
  · exact .set h
  · exact countOut_keeps (.set h)

theorem vecStore_keeps {c : Nat} {o' : Owner} {d : VecD} {r : Nat} {l : List Nat} (h : Keeps o s) :
    Keeps o (vecStore s c o' d r l) :=
  .set (strmWrite_keeps h)

theorem vecAux_keeps {c : Nat} {o' : Owner} {d : VecD} {off : Nat} {l : List Nat} (h : Keeps o s) :
    Keeps o (vecAux s c o' d off l) :=
  .set (spWrite_keeps h)

theorem vecSource_keeps {c : Nat} {d : VecD} {r : Nat} {x : VecRun} (h : Keeps o s) :
    Keeps o (vecSource s c d r x).1 := by
  unfold vecSource
  split
  · dsimp only
    split
    next e1 => exact .of_fst e1 (scaleWalks_keeps h)
    next e1 =>
      have h1 := Keeps.of_fst e1 (scaleWalks_keeps h)
      split
      next e2 => exact .of_fst e2 (ScaleWalk.scaleOf_keeps h1)
      next e2 =>
        have h2 := Keeps.of_fst e2 (ScaleWalk.scaleOf_keeps h1)
        split
        next e3 => exact .of_fst e3 (scaleWalks_keeps h2)
        next e3 =>
          have h3 := Keeps.of_fst e3 (scaleWalks_keeps h2)
          split
          next e4 => exact .of_fst e4 (strmRead_keeps h3)
          next e4 => exact .of_fst e4 (strmRead_keeps h3)
  · split
    next e1 => exact .of_fst e1 (strmRead_keeps h)
    next e1 => exact vecInputs_keeps (cb := (s.cbOn c d.acb).view) (.of_fst e1 (strmRead_keeps h))

theorem vecScales_keeps {c : Nat} {o' : Owner} {d : VecD} {r : Nat} {x : VecRun} (h : Keeps o s) :
    Keeps o (vecScales s c o' d r x) :=
  forL_keeps spWrite_keeps h

theorem rowCompute_keeps {c : Nat} {o' : Owner} {d : VecD} {k : VKind} {r : Nat} {x : VecRun} (h : Keeps o s) :
    Keeps o (rowCompute s c o' d k r x).1 := by
  unfold rowCompute
  dsimp only
  split
  next e1 => exact .of_fst e1 (strmRead_keeps h)
  next e1 =>
    have h1 := Keeps.of_fst e1 (strmRead_keeps h)
    split
    next e2 => exact .of_fst e2 (by split; exacts [strmRead_keeps h1, h1])
    next e2 =>
      have h2 := Keeps.of_fst e2 (by split; exacts [strmRead_keeps h1, h1])
      refine vecStore_keeps (vecOutputs_keeps (.set ?_))
      split
      · exact .set (vecInputs_keeps (.set (vecInputs_keeps h2)))
      · exact .set (vecInputs_keeps h2)

theorem rowSelect_keeps {c : Nat} {o' : Owner} {d : VecD} {r : Nat} {x : VecRun} (h : Keeps o s) :
    Keeps o (rowSelect s c o' d r x).1 := by
  unfold rowSelect
  dsimp only
  split
  next e1 => exact .of_fst e1 (strmRead_keeps h)
  next e1 =>
    have h1 := Keeps.of_fst e1 (strmRead_keeps h)
    split
    next e2 => exact .of_fst e2 (strmRead_keeps h1)
    next e2 => exact .set (strmWrite_keeps (countOut_keeps (countIn_keeps (.of_fst e2 (strmRead_keeps h1)))))

theorem rowCompress_keeps {c : Nat} {o' : Owner} {d : VecD} {r : Nat} {x : VecRun} (h : Keeps o s) :
    Keeps o (rowCompress s c o' d r x).1 := by
  unfold rowCompress
  dsimp only
  split
  next e1 => exact .of_fst e1 (strmRead_keeps h)
  next e1 =>
    have h1 := Keeps.of_fst e1 (strmRead_keeps h)
    split
    next e2 => exact .of_fst e2 (strmRead_keeps h1)
    next e2 => exact vecAux_keeps (vecStore_keeps (countOut_keeps (countIn_keeps (.of_fst e2 (strmRead_keeps h1)))))

theorem rowExpand_keeps {c : Nat} {o' : Owner} {d : VecD} {r : Nat} {x : VecRun} (h : Keeps o s) :
    Keeps o (rowExpand s c o' d r x).1 := by
  unfold rowExpand
  dsimp only
  split
  next e1 => exact .of_fst e1 (strmRead_keeps h)
  next e1 =>
    have h1 := Keeps.of_fst e1 (strmRead_keeps h)
    split
    next e2 => exact .of_fst e2 (strmRead_keeps h1)
    next e2 =>
      exact vecAux_keeps (.set (strmWrite_keeps (countOut_keeps (countIn_keeps (.of_fst e2 (strmRead_keeps h1))))))

theorem rowTopk_keeps {c : Nat} {o' : Owner} {d : VecD} {r : Nat} {x : VecRun} (h : Keeps o s) :
    Keeps o (rowTopk s c o' d r x).1 := by
  unfold rowTopk
  dsimp only
  split
  next e1 => exact .of_fst e1 (strmRead_keeps h)
  next e1 =>
    have h1 := Keeps.of_fst e1 (strmRead_keeps h)
    split
    next e2 => exact .of_fst e2 (by split; exacts [strmRead_keeps h1, h1])
    next e2 =>
      have h2 := Keeps.of_fst e2 (by split; exacts [strmRead_keeps h1, h1])
      exact .set (vecAux_keeps (vecStore_keeps (vecOutputs_keeps (.set (vecInputs_keeps h2)))))

theorem rowConvert_keeps {c : Nat} {o' : Owner} {d : VecD} {r : Nat} {x : VecRun} (h : Keeps o s) :
    Keeps o (rowConvert s c o' d r x).1 := by
  unfold rowConvert
  split
  next heq => exact .of_fst heq (vecSource_keeps h)
  next heq => exact vecStore_keeps (vecOutputs_keeps (.of_fst heq (vecSource_keeps h)))

theorem rowQuant_keeps {c : Nat} {o' : Owner} {d : VecD} {r : Nat} {x : VecRun} (h : Keeps o s) :
    Keeps o (rowQuant s c o' d r x).1 := by
  unfold rowQuant
  dsimp only
  split
  next heq => exact .of_fst heq (vecSource_keeps h)
  next heq => exact vecScales_keeps (vecStore_keeps (.set (.of_fst heq (vecSource_keeps h))))

theorem vecRow_keeps {c : Nat} {o' : Owner} {d : VecD} {k : VKind} {r : Nat} {x : VecRun} (h : Keeps o s) :
    Keeps o (vecRow s c o' d k r x).1 := by
  unfold vecRow
  split
  · exact rowSelect_keeps h
  · exact rowCompress_keeps h
  · exact rowExpand_keeps h
  · exact rowTopk_keeps h
  · exact rowConvert_keeps h
  · exact rowQuant_keeps h
  · exact rowCompute_keeps h

theorem vecMismatch_keeps {c : Nat} {e : QEntry} {lane : Nat} (h : Keeps o s) : Keeps o (vecMismatch s c e lane) :=
  arithFault_keeps (.set (.set h))

theorem vecRows_keeps {c : Nat} {e : QEntry} {d : VecD} {k : VKind} {bad : Option (Nat × Nat)} {n r : Nat}
    {x : VecRun} (h : Keeps o s) :
    Keeps o (vecRows c e d k bad n r x s).1 := by
  induction n generalizing s r x with
  | zero => exact h
  | succ n ih =>
    unfold vecRows
    split
    · exact vecMismatch_keeps h
    · split
      next e' => exact endData_keeps (.of_fst e' (vecRow_keeps h))
      next e' => exact ih (.of_fst e' (vecRow_keeps h))

theorem vecRun_keeps {c op : Nat} {bad : Option (Nat × Nat)} (h : Keeps o s) : Keeps o (vecRun c op bad s) := by
  unfold vecRun
  dsimp only
  refine whenPowered_keeps h (fun h => ?_)
  split
  · exact h
  · refine .ite (failJob_keeps h) (.ite h ?_)
    split
    · exact failJob_keeps h
    · exact h
    · split
      next e1 => exact failJob_keeps (.of_fst e1 (coreCbs_keeps h))
      next e1 =>
        have h1 := Keeps.of_fst e1 (coreCbs_keeps h)
        split
        next e2 => exact .of_fst e2 (vecRows_keeps h1)
        next e2 => exact .set (.of_fst e2 (vecRows_keeps h1))

/-! ### Updates -/

theorem sendArrival_keeps {o' : Owner} {parity m : Nat} (h : Keeps o s) : Keeps o (sendArrival o' parity m s) :=
  .ite h (.ite (State.addArrival_keeps h) (.ite (request_keeps h) (failJob_keeps h)))

theorem zeroCloseRows_keeps (h : Keeps o s) : Keeps o (zeroCloseRows s) :=
  forN_keeps (fun h => .set h) h

theorem spanTouch_keeps {l : List Span} (h : Keeps o s) : Keeps o (spanTouch l s) :=
  forL_keeps dramTouch_keeps h

theorem freeSlot_keeps {o' : Owner} {stage : List Span} {keyVa key : Nat} (h : Keeps o s) :
    Keeps o (freeSlot o' stage keyVa key s) :=
  adderAt_keeps (forL_keeps (fun h => forN_keeps adderAt_keeps h) h)

theorem slotStop_keeps {o' : Owner} {h' : Nat} {z : GradEnd} (h : Keeps o s) : Keeps o (slotStop s o' h' z) := by
  unfold slotStop
  split
  · exact waitTile_keeps h
  · exact failJob_keeps h
  · exact privetFail_keeps h
  · exact raiseLines_keeps h
  · exact h

theorem putVa_keeps {u : Nat} {o' : Owner} {va : Nat} {l : List PWord} (h : Keeps o s) :
    Keeps o (putVa u o' va l s) :=
  writeVa_keeps h

theorem poisonSlot_keeps {o' : Owner} {h' : Nat} {a : SlotVa} {rowPa : Nat} (h : Keeps o s) :
    Keeps o (poisonSlot o' h' a rowPa s) :=
  uePoison_keeps (.set (forL_keeps putVa_keeps h))

theorem applySlot_keeps {o' : Owner} {h' : Nat} {c : Close} {key : Nat} {a : SlotVa}
    {stage row master state : List Word} (h : Keeps o s) :
    Keeps o (applySlot o' h' c key a stage row master state s) := by
  unfold applySlot
  dsimp only
  refine .set (.set (putVa_keeps ?_))
  split
  · refine putVa_keeps ?_
    split
    · exact putVa_keeps h
    · exact h
  · split
    · exact putVa_keeps h
    · exact h

theorem closeSlot_keeps {o' : Owner} {i : Nat} {bad : Option Nat} {c : Close} {vi key pos x : Nat} (h : Keeps o s) :
    Keeps o (closeSlot o' i bad c vi key pos x s) := by
  unfold closeSlot
  dsimp only
  split
  · exact slotStop_keeps (walkPages_keeps h)
  · refine .ite ?_ (.ite (failJob_keeps (dramTouch_keeps (walkPages_keeps h))) (.ite ?_ ?_))
    · split
      · exact slotStop_keeps (walkPages_keeps h)
      · exact .set (.set (freeSlot_keeps (walkPages_keeps h)))
    · split
      · exact slotStop_keeps (walkPages_keeps h)
      · exact .set (freeSlot_keeps (dramTouch_keeps (walkPages_keeps h)))
    · split
      · exact slotStop_keeps (walkPages_keeps (walkPages_keeps h))
      · have ht {u cid l u' cid' l' a n} :
            Keeps o (dramTouch (walkPages (walkPages s u cid l) u' cid' l') a n) :=
          dramTouch_keeps (walkPages_keeps (walkPages_keeps h))
        refine .ite (.set (freeSlot_keeps (poisonSlot_keeps (spanTouch_keeps ht))))
          (.ite (failJob_keeps (.ite (dramTouch_keeps ht) ht)) ?_)
        split
        · exact arithFault_keeps (.ite (dramTouch_keeps ht) ht)
        · exact .set (freeSlot_keeps (applySlot_keeps (spanTouch_keeps (.ite (dramTouch_keeps ht) ht))))

theorem engineDone_keeps {o' : Owner} {h' : Nat} {c : Close} (h : Keeps o s) : Keeps o (engineDone o' h' c s) :=
  .set (forL_keeps putVa_keeps h)

end Sys2Proof.Machine
end

section
/-!
The frame for the commands: all but those of the module's supply keep the queue, the Ticker and the form of local DRAM.
-/
namespace Sys2Proof.Machine

variable {o s : State}

theorem execHostReadCompletion_keeps {read request offset : Nat} {kind : CplKind} {data : List Byte} (h : Keeps o s) :
    KeepsOut o (execHostReadCompletion read request offset kind data s) := by
  refine .next (whenPowered_keeps h (fun h => ?_))
  split
  · exact h
  · split
    · exact h
    · refine .ite h (.set (answerAts_keeps ?_))
      split
      · exact .set h
      · exact .set (.set h)
      · exact .set (.set h)
      · exact .set (.set h)

theorem execHostReadTimeout_keeps {read request : Nat} (h : Keeps o s) :
    KeepsOut o (execHostReadTimeout read request s) := by
  refine .next (whenPowered_keeps h (fun h => ?_))
  split
  · exact h
  · split
    · exact h
    · exact .ite h (.set (answerAts_keeps (.set (.set h))))

theorem execIssueCapture_keeps {c : CoreId} (h : Keeps o s) : KeepsOut o (execIssueCapture c s) := by
  refine .next (whenPowered_keeps h (fun h => ?_))
  split
  · exact h
  · split
    · exact .ite (capture_keeps (stalled_keeps h)) h
    · exact h

theorem execWaitConditionMet_keeps {c : CoreId} (h : Keeps o s) : KeepsOut o (execWaitConditionMet c s) := by
  refine .next (whenPowered_keeps h (fun h => ?_))
  split
  · exact h
  · split
    · exact .ite (.set (stalled_keeps h)) h
    · exact h

theorem execInvocationComplete_keeps {c : CoreId} (h : Keeps o s) : KeepsOut o (execInvocationComplete c s) := by
  refine .next (whenPowered_keeps h (fun h => ?_))
  split
  · exact h
  · exact .ite (.set (.set (stalled_keeps h))) h

theorem execSequencerCallStart_keeps {c : CoreId} (h : Keeps o s) : KeepsOut o (execSequencerCallStart c s) := by
  refine .next (whenPowered_keeps h (fun h => .ite h ?_))
  split
  · exact .ite (beginCall_keeps (forL_keeps preempt_keeps (.set h))) h
  · exact .ite (delayStart_keeps h) (.ite (beginCall_keeps (.set h)) h)
  · exact h

theorem execLiveRegionSave_keeps {c : CoreId} (h : Keeps o s) : KeepsOut o (execLiveRegionSave c s) := by
  unfold execLiveRegionSave
  dsimp only
  refine .next (whenPowered_keeps h (fun h => ?_))
  split
  · exact h
  · split
    · exact h
    · exact .ite h (.ite (preempt_keeps (.set (.set (dramCopy_keeps (spTouch_keeps h))))) (.set (.set (dramCopy_keeps
        (spTouch_keeps h)))))

theorem execLiveRegionRestore_keeps {c : CoreId} (h : Keeps o s) : KeepsOut o (execLiveRegionRestore c s) := by
  unfold execLiveRegionRestore
  dsimp only
  refine .next (whenPowered_keeps h (fun h => ?_))
  split
  · exact .set (dramTouch_keeps h)
  · exact h

theorem execMoveDescriptor_keeps {c : CoreId} {ext : List PWord} (h : Keeps o s) :
    KeepsOut o (execMoveDescriptor c ext s) := by
  refine .next (whenPowered_keeps h (fun h => ?_))
  split
  · exact h
  · refine .ite h (.ite (failJob_keeps (takeMove_keeps h)) ?_)
    split
    · exact failJob_keeps (takeMove_keeps h)
    · exact moveTiles_keeps (takeMove_keeps h)

theorem execMoveComplete_keeps {c : CoreId} (h : Keeps o s) : KeepsOut o (execMoveComplete c s) := by
  refine .next (whenPowered_keeps h (fun h => ?_))
  split
  · exact h
  · exact .ite (.set h) h

theorem execCanarySample_keeps {canary : Fin 144} {r : CanaryReading} (h : Keeps o s) :
    KeepsOut o (execCanarySample canary r s) := by
  refine .next (whenFw_keeps h (fun h => .ite ?_ h))
  split
  · exact .set h
  · exact .set (.set h)

theorem execHourlyPoint_keeps {r : HourReading} (h : Keeps o s) : KeepsOut o (execHourlyPoint r s) :=
  .guardWf (whenFw_keeps h (fun h => .ite (recompute_keeps (.set (.set (forL_keeps (fun h => .set h) (.set
    (.set h)))))) h))

theorem execReferenceLoss_keeps (h : Keeps o s) : KeepsOut o (execReferenceLoss s) :=
  .next (whenPowered_keeps h fun h => .ite h (jobFaultAll_keeps (h.of_eqs rfl rfl fun _ => Mem.wf_empty _ _)))

theorem execPoweredTimeRecord_keeps (h : Keeps o s) : KeepsOut o (execPoweredTimeRecord s) :=
  .next (whenFw_keeps h (fun h => .ite (.set (.set (h.setTime rfl))) h))

theorem execSnowploughWindow_keeps {r : PowerReading} (h : Keeps o s) : KeepsOut o (execSnowploughWindow r s) :=
  .guardWf (whenFw_keeps h (fun h => .ite (.set (forN_keeps holdStarts_keeps (milliCounts_keeps (.set (forN_keeps
    (fun h => .set h) (.set (.set (forN_keeps (fun h => .set h) (.set h))))))))) h))

theorem execBringupRecords_keeps (h : Keeps o s) : KeepsOut o (execBringupRecords s) := by
  refine .next (whenFw_keeps h fun h => .ite ?_ h)
  dsimp only
  split
  · exact .set h
  · exact applyFabric_keeps (fuseRaise_keeps (.set (.ite (h.of_eqs rfl rfl id) (h.of_eqs rfl rfl id))))

theorem execDramZero_keeps (h : Keeps o s) : KeepsOut o (execDramZero s) :=
  .next (whenFw_keeps h (fun h => .ite (.set (h.setDram fun _ => Mem.wf_empty _ _)) h))

theorem execBringupStructures_keeps (h : Keeps o s) : KeepsOut o (execBringupStructures s) :=
  .next (whenFw_keeps h (fun h => .ite (.set (clearContexts_keeps (forN_keeps applyCfg_keeps (.set (.set
    (.set h)))))) h))

theorem execGondolaBurst_keeps (h : Keeps o s) : KeepsOut o (execGondolaBurst s) := by
  refine .next (whenPowered_keeps h (fun h => ?_))
  split
  · exact issueBurst_keeps h
  · split
    · exact issueBurst_keeps h
    · exact h

theorem execGondolaBurstDone_keeps {burst : Nat} {data : List PWord} {failed : List Nat} (h : Keeps o s) :
    KeepsOut o (execGondolaBurstDone burst data failed s) := by
  refine .next (whenPowered_keeps h (fun h => ?_))
  split
  · exact h
  · exact .ite (.set (.set h)) (.set h)

theorem execSubmissionParse_keeps (h : Keeps o s) : KeepsOut o (execSubmissionParse s) := by
  refine .next (whenFw_keeps h (fun h => .ite ?_ h))
  split
  · exact parseQueue_keeps h
  · split
    · exact parseQueue_keeps h
    · exact h

theorem execCopy_keeps {job idx : Nat} {ext : List PWord} (h : Keeps o s) : KeepsOut o (execCopy job idx ext s) :=
  .next (onCmd_keeps h (fun h => .ite h (.ite (copyRun_keeps (.set h)) (.ite (copyRun_keeps (settleOn_keeps
    (.set h))) h))))

theorem execJobCompletion_keeps {job : Nat} (h : Keeps o s) : KeepsOut o (execJobCompletion job s) := by
  unfold execJobCompletion
  dsimp only
  refine .next (whenFw_keeps h (fun h => ?_))
  split
  · split
    · exact h
    · exact .ite (endJob_keeps h) h
  · refine .ite ?_ ?_
    · refine runGrads_keeps (postJob_keeps ?_)
      split
      · exact h
      · exact .ite (endJob_keeps h) h
    · split
      · exact h
      · exact .ite (endJob_keeps h) h

theorem execVerificationSweep_keeps (h : Keeps o s) : KeepsOut o (execVerificationSweep s) := by
  refine .next (whenFw_keeps h (fun h => ?_))
  split
  · exact h
  · exact .ite (finishReset_keeps (.set h)) h

theorem execTimeSync_keeps {f : FnId} {k : SlotId} (h : Keeps o s) : KeepsOut o (execTimeSync f k s) :=
  .next (admin_keeps h (fun h => .ite (respond_keeps (h.setTime rfl)) (refuse_keeps h)))

theorem execFwStage_keeps {f : FnId} {k : SlotId} {piece : HostRd} (h : Keeps o s) :
    KeepsOut o (execFwStage f k piece s) :=
  .next (admin_keeps h (fun h => .ite (withHost_keeps h (fun h => .ite (respond_keeps (.set h)) (refuse_keeps h)))
    (refuse_keeps h)))

theorem execGroomerTest_keeps {diff : Option (Fin 6)} {named : Option Bool}
    {bad : Option (Bool × Fin 6 × Nat)} (h : Keeps o s) :
    KeepsOut o (execGroomerTest diff named bad s) := by
  unfold execGroomerTest
  dsimp only
  refine .next (whenFw_keeps h (fun h => ?_))
  split
  · exact h
  · refine .ite (groomStart_keeps h (fun h => ?_)) h
    split
    · exact groomEnd_keeps (groomResidue_keeps (.set (.set (forL_keeps (fun h => groomRun_keeps
        (groomRun_keeps h)) h))))
    · exact groomCompare_keeps (.set (.set (forL_keeps (fun h => groomRun_keeps (groomRun_keeps h)) h)))

theorem execGroomerArbitrate_keeps {c : CoreId} {verdict : Arbiter} {bad : Option Nat} (h : Keeps o s) :
    KeepsOut o (execGroomerArbitrate c verdict bad s) := by
  refine .next (whenFw_keeps h (fun h => ?_))
  split
  · exact h
  · refine .ite (groomStart_keeps h (fun h => ?_)) h
    split
    · exact groomEnd_keeps (groomEvents_keeps (groomResidue_keeps (.set (groomRun_keeps h))))
    · exact groomEnd_keeps (groomEvents_keeps (.set (groomRun_keeps h)))

theorem execGroomerArbiterTimeout_keeps (h : Keeps o s) : KeepsOut o (execGroomerArbiterTimeout s) := by
  refine .next (whenFw_keeps h (fun h => ?_))
  split
  · exact h
  · exact .ite (groomEnd_keeps (groomEvents_keeps h)) h

theorem execScrubLine_keeps {c : ChanId} {ca : CaParity} (h : Keeps o s) : KeepsOut o (execScrubLine c ca s) :=
  .next (whenPowered_keeps h (fun h => .ite (.set (.ite (.set (.set h)) (forL_keeps scrubHalf_keeps (.set h)))) h))

theorem execHedgerowPacket_keeps {flits : List Flit} (h : Keeps o s) : KeepsOut o (execHedgerowPacket flits s) :=
  .guardWf (whenPowered_keeps h (fun h => .ite (jobFaultAll_keeps (routerFinds_keeps h)) (.ite (sendPacket_keeps
    (routerFinds_keeps h)) (routerFinds_keeps h))))

theorem execLookupDescriptor_keeps {c : CoreId} {ext : List PWord} (h : Keeps o s) :
    KeepsOut o (execLookupDescriptor c ext s) := by
  unfold execLookupDescriptor
  dsimp only
  refine .next (whenPowered_keeps h (fun h => ?_))
  split
  · exact .ite (beginLookup_keeps h) h
  · exact openBags_keeps (.ite (beginLookup_keeps h) h)

theorem execGatherPiece_keeps {piece : Nat} (h : Keeps o s) : KeepsOut o (execGatherPiece piece s) := by
  unfold execGatherPiece
  dsimp only
  refine .next (whenPowered_keeps h (fun h => ?_))
  split
  · exact h
  · split
    · exact h
    · refine .ite ?_ h
      split
      · exact bagPrivet_keeps h
      · refine withCb_keeps h (fun h => ?_)
        split
        · exact .ite h (cutPiece_keeps h)
        · exact sendPools_keeps (.ite h (cutPiece_keeps h))

theorem execHedgePartial_keeps {piece : Nat} {bad : Option Nat} (h : Keeps o s) :
    KeepsOut o (execHedgePartial piece bad s) := by
  refine .next (whenPowered_keeps h (fun h => ?_))
  split
  · exact h
  · split
    · exact h
    · refine .ite ?_ h
      split
      · exact arithFault_keeps h
      · exact issueFor_keeps (.set (.set h))

theorem execTailRowFetch_keeps {bag : Nat} (h : Keeps o s) : KeepsOut o (execTailRowFetch bag s) := by
  unfold execTailRowFetch
  dsimp only
  refine .next (whenPowered_keeps h (fun h => ?_))
  split
  · exact h
  · split
    · exact bagPrivet_keeps h
    · exact forL_keeps fetchTail_keeps h

theorem execTailRowArrival_keeps {bag pos : Nat} (h : Keeps o s) : KeepsOut o (execTailRowArrival bag pos s) := by
  unfold execTailRowArrival
  dsimp only
  refine .next (whenPowered_keeps h (fun h => ?_))
  split
  · exact h
  · split
    · exact h
    · split
      · exact h
      · exact withCb_keeps h (fun h => .set (.ite (.set h) h))

theorem execRunAheadRead_keeps {e : Fin 24} {bag row : Nat} (h : Keeps o s) :
    KeepsOut o (execRunAheadRead e bag row s) := by
  refine .next (whenPowered_keeps h (fun h => ?_))
  split
  · exact h
  · refine .ite ?_ h
    split
    · exact h
    · refine .ite h ?_
      split
      · exact .ite (.set (countRow_keeps h)) (.ite (.set (.set (dramTouch_keeps (countRow_keeps h))))
          (countRow_keeps h))
      · exact h

theorem execThicketFill_keeps {h' : HedgeId} {fill : Nat} (h : Keeps o s) :
    KeepsOut o (execThicketFill h' fill s) := by
  refine .next (whenPowered_keeps h (fun h => ?_))
  split
  · exact h
  · exact .ite (.set h) (.set (.set h))

theorem execBagFinish_keeps {bag : Nat} {bad : Option Nat} (h : Keeps o s) :
    KeepsOut o (execBagFinish bag bad s) := by
  refine .next (whenPowered_keeps h (fun h => ?_))
  split
  · exact h
  · refine .ite ?_ h
    split
    · exact arithFault_keeps h
    · split
      · exact answerGather_keeps h
      · exact withCb_keeps h writeBag_keeps
      · exact .set h

theorem execTileResume_keeps {tile : Nat} (h : Keeps o s) : KeepsOut o (execTileResume tile s) := by
  unfold execTileResume
  dsimp only
  refine .next (whenPowered_keeps h (fun h => ?_))
  split
  · exact h
  · split
    · exact homeFail_keeps (.set h)
    · have hr {t} := resumeTile_keeps (t := t) h
      exact .ite hr (.ite (classify_keeps hr) (runGrads_keeps hr))

theorem execCensus_keeps {port : Fin 32} {m : LaneaMsg} (h : Keeps o s) : KeepsOut o (execCensus port m s) :=
  .guardWf (receive_keeps h (fun h => .ite (censusClass_keeps (censusClass_keeps (.ite (fabricEvent_keeps (.set
    (.ite h (restartPeer_keeps h)))) (.set (.ite h (restartPeer_keeps h)))))) h))

theorem execCensusAudit_keeps {peer : Fin 64} {lc : Bool} (h : Keeps o s) :
    KeepsOut o (execCensusAudit peer lc s) := by
  refine .next (whenPowered_keeps h (fun h => ?_))
  split
  · exact h
  · split
    · exact h
    · exact .ite (.set (.set h)) (raiseEvent_keeps (.set (.set (.set h))))

theorem execLaneaRetransmit_keeps {peer : Fin 64} {lc : Bool} {psn : BitVec 32} (h : Keeps o s) :
    KeepsOut o (execLaneaRetransmit peer lc psn s) := by
  refine .next (whenPowered_keeps h (fun h => ?_))
  split
  · exact h
  · exact .ite (portPut_keeps (.set (.set (.set h)))) h

theorem execPortUp_keeps {p : Fin 32} (h : Keeps o s) : KeepsOut o (execPortUp p s) :=
  .next (whenPowered_keeps h (fun h => .ite (forL_keeps (fun h => sendCensus_keeps (reachAgain_keeps h))
    (fabricEvent_keeps (.set h))) h))

theorem execTableSwapApply_keeps (h : Keeps o s) : KeepsOut o (execTableSwapApply s) := by
  unfold execTableSwapApply
  dsimp only
  refine .next (whenFw_keeps h (fun h => ?_))
  split
  · exact h
  · exact swapApply_keeps (.set h)

theorem execMigratePage_keeps {source : List PWord} (h : Keeps o s) : KeepsOut o (execMigratePage source s) := by
  refine .next (whenFw_keeps h (fun h => ?_))
  split
  · exact h
  · refine .ite h ?_
    split
    · exact h
    · exact copyPage_keeps (.ite (.set h) h)

theorem execWardenConfigApply_keeps {h' : HedgeId} (h : Keeps o s) : KeepsOut o (execWardenConfigApply h' s) := by
  refine .next (whenPowered_keeps h (fun h => ?_))
  split
  · exact h
  · exact wardenReport_keeps (applyCfg_keeps (.set h))

theorem execNvmeRead_keeps {entry : Fin 16} (h : Keeps o s) : KeepsOut o (execNvmeRead entry s) := by
  refine .next (whenPowered_keeps h (fun h => .ite h ?_))
  split
  · exact .set (issueNvme_keeps h)
  · exact .ite h (issueNvme_keeps h)
  · exact h

theorem execNvmeWrite_keeps {entry : Fin 16} (h : Keeps o s) : KeepsOut o (execNvmeWrite entry s) := by
  refine .next (whenPowered_keeps h (fun h => ?_))
  split
  · exact h
  · split
    · exact h
    · exact .ite (issueNvme_keeps h) h

theorem execNvmeCompletion_keeps {entry : Fin 16} {tag : Nat} {r : NvmeEnd} (h : Keeps o s) :
    KeepsOut o (execNvmeCompletion entry tag r s) := by
  unfold execNvmeCompletion
  dsimp only
  refine .next (whenPowered_keeps h (fun h => ?_))
  split
  · exact h
  · split
    · exact nvmeFail_keeps (.set (.set h))
    · refine .ite ?_ (nvmeDeliver_keeps (.set (.set h)))
      split
      · exact .set (.set h)
      · exact .ite (pageMoved_keeps (.set (.set h))) (.set (.set h))

theorem execNvmeCommandTimeout_keeps {entry : Fin 16} {tag : Nat} (h : Keeps o s) :
    KeepsOut o (execNvmeCommandTimeout entry tag s) := by
  refine .next (whenPowered_keeps h (fun h => ?_))
  split
  · exact h
  · exact .ite (nvmeFail_keeps (.set (.set h))) h

theorem execNvmeConnectionLost_keeps {entry : Fin 16} (h : Keeps o s) : KeepsOut o (execNvmeConnectionLost entry s) :=
  .next (whenPowered_keeps h (fun h => .ite (fabricEvent_keeps (forL_keeps (fun h => nvmeFail_keeps (.set h))
    (.set h))) h))

theorem execNvmeReconnect_keeps {entry : Fin 16} {up usable : Bool} (h : Keeps o s) :
    KeepsOut o (execNvmeReconnect entry up usable s) :=
  .next (whenFw_keeps h (fun h => .ite (.ite (.ite (fabricEvent_keeps (.set (.set (.set h)))) (.set (.set (.set h))))
    (.set (.set h))) h))

theorem execPtpSync_keeps {offset trim : Int} (h : Keeps o s) : KeepsOut o (execPtpSync offset trim s) :=
  .next (whenPowered_keeps h (fun h => .ite (.set (h.setTime rfl)) h))

theorem execPtpHoldover_keeps (h : Keeps o s) : KeepsOut o (execPtpHoldover s) :=
  .next (whenPowered_keeps h (fun h => .ite (h.setTime rfl) h))

theorem execTbLowHalfRead_keeps {f : FnId} {offset : Nat} (h : Keeps o s) :
    KeepsOut o (execTbLowHalfRead f offset s) :=
  .next (whenPresent_keeps h (fun h => .ite (.ite (.setTime (.set h) rfl) (.set h)) (.ite (.set (.set h)) h)))

theorem execRegisterWriteOther_keeps {f : FnId} {offset : Nat} {eight : Bool} {v : Word} (h : Keeps o s) :
    KeepsOut o (execRegisterWriteOther f offset eight v s) :=
  .next (whenPresent_keeps h (fun h => .ite (configWrite_keeps h) (.ite (.set h) (.ite (windowWrite_keeps h) (.ite
    (hwin_keeps h) h)))))

theorem execRoutineLoadApply_keeps {piece : HostRd} (h : Keeps o s) : KeepsOut o (execRoutineLoadApply piece s) := by
  refine .next (whenFw_keeps h (fun h => ?_))
  split
  · exact h
  · exact .ite h (.ite (respond_keeps (loadPiece_keeps h)) (respond_keeps (.set (.set h))))

theorem execRowWrite_keeps {job idx : Nat} {ext : List PWord} (h : Keeps o s) :
    KeepsOut o (execRowWrite job idx ext s) :=
  .next (onCmd_keeps h (fun h => .ite (rowWriteRun_keeps h) (.ite (rowWriteRun_keeps (rowWriteBegin_keeps h)) h)))

theorem execScatterDescriptor_keeps {c : CoreId} (h : Keeps o s) : KeepsOut o (execScatterDescriptor c s) := by
  refine .next (whenPowered_keeps h (fun h => ?_))
  split
  · exact h
  · refine .ite h (.ite (failJob_keeps h) ?_)
    split
    · exact failJob_keeps h
    · exact h
    · exact .ite h (scatEntries_keeps (.set (cleanStaging_keeps h)))

theorem execScatterComplete_keeps {c : CoreId} (h : Keeps o s) : KeepsOut o (execScatterComplete c s) := by
  refine .next (whenPowered_keeps h (fun h => ?_))
  split
  · exact h
  · exact .ite (.set h) h

theorem execStepClose_keeps {job idx : Nat} (h : Keeps o s) : KeepsOut o (execStepClose job idx s) :=
  .next (onCmd_keeps h (fun h => .ite (forL_keeps sendArrival_keeps (.set (.ite (zeroCloseRows_keeps (.set
    (forL_keeps cleanStaging_keeps h))) (.set (forL_keeps cleanStaging_keeps h))))) h))

theorem execStepCloseArrivalsMet_keeps {job : Nat} (h : Keeps o s) : KeepsOut o (execStepCloseArrivalsMet job s) := by
  refine .next (whenFw_keeps h (fun h => ?_))
  split
  · exact h
  · exact .ite (zeroCloseRows_keeps (.set (.set (State.addArrival_keeps h)))) h

theorem execUpdateEngineSlot_keeps {h' : HedgeId} {bad : Option Nat} (h : Keeps o s) :
    KeepsOut o (execUpdateEngineSlot h' bad s) := by
  unfold execUpdateEngineSlot
  dsimp only
  refine .next (whenPowered_keeps h (fun h => ?_))
  split
  · exact h
  · split
    · exact h
    · refine .ite h ?_
      split
      · exact slotStop_keeps h
      · split
        · exact slotStop_keeps h
        · exact engineDone_keeps h
      · exact closeSlot_keeps h

theorem execStepCloseFinish_keeps {job : Nat} (h : Keeps o s) : KeepsOut o (execStepCloseFinish job s) := by
  refine .next (whenFw_keeps h (fun h => ?_))
  split
  · exact .ite (.set (runGrads_keeps (.set (.set (forN_keeps (fun h => .set (.set h)) h))))) h
  · exact h

/-- The commands of the module's supply: it comes good, goes away or is cut off. -/
def isSupplyCommand : Instr → Bool
  | .powerGood | .pwrEnFall | .inputUnderVoltage | .inputOverVoltage | .junctionTrip | .stackTrip | .railFault => true
  | _ => false

/-- Any other command leaves the queue behind it and the Ticker alone, and local DRAM in its canonical form. -/
theorem exec_keeps {c : Instr} (h : Keeps o s) (hc : isSupplyCommand c = false) : KeepsOut o (exec c s) := by
  cases c with
  | powerGood | pwrEnFall | inputUnderVoltage | inputOverVoltage | junctionTrip | stackTrip | railFault => cases hc
  | hostReadCompletion => exact execHostReadCompletion_keeps h
  | hostReadTimeout => exact execHostReadTimeout_keeps h
  | dmaBlockChange => exact .next (whenPowered_keeps h (fun h => flushHeld_keeps (.set h)))
  | ideIntegrityFail | perstRelease | pauseFrame | frameCheckFailure | ptpDelayReq =>
    exact .next (whenPowered_keeps h (fun h => .ite (.set h) h))
  | atsInvalidation => exact .next (whenPowered_keeps h (fun h => answerAts_keeps (.set h)))
  | msixUnmask => exact .guardWf (whenPresent_keeps h setVector_keeps)
  | vfFlr => exact .next (whenPresent_keeps h (fun h => .ite h (resetFn_keeps (.set h))))
  | pfFlr => exact .next (whenPresent_keeps h (fun h => resetAll_keeps (.set h)))
  | hotReset =>
    exact .next (whenPowered_keeps h (fun h => .ite (resetAll_keeps (.set h)) (.set (resetAll_keeps (.set h)))))
  | pageWalk => exact .next (whenPowered_keeps h (fun h => .ite h (.ite (arithFault_keeps h) (walkUnit_keeps h))))
  | faultEntryPost => exact .next (whenFw_keeps h postFault_keeps)
  | seqNop | seqRet => exact .next (seqOp_keeps h (fun h => .set h))
  | seqMovi | seqMovhi | seqMov | seqAdd | seqSub | seqMul | seqAnd | seqOr | seqXor | seqShl | seqShr | seqSra
  | seqMin | seqMax | seqAddi | seqMuli | seqMadi | seqShli | seqShri | seqAndi => exact .next (scalar_keeps h)
  | seqLoop => exact .next (seqOp_keeps h openLoop_keeps)
  | seqLoopr => exact .next (seqOp_keeps h (fun h => .ite (failJob_keeps h) (openLoop_keeps h)))
  | seqStore | seqZero => exact .next (seqOp_keeps h (fun h => .ite (.set (spPut_keeps h)) (failJob_keeps h)))
  | seqPatch | seqCopyd =>
    exact .next (seqOp_keeps h (fun h => .ite (.set (spPut_keeps (spTouch_keeps h))) (failJob_keeps h)))
  | cbFetch => exact .next (seqOp_keeps h (fun h => .set (.ite (coreCbs_keeps h) h)))
  | clipRc => exact .next (seqOp_keeps h (fun h => .ite (.set (spPut_keeps (.set h))) (failJob_keeps h)))
  | issueArray | issueVector | issueLookup | issueMove | issueScatter => exact .next (issueOp_keeps h)
  | issueCapture => exact execIssueCapture_keeps h
  | seqWait => exact .next (seqOp_keeps h (fun h => .ite (.set h) (.set h)))
  | waitConditionMet => exact execWaitConditionMet_keeps h
  | invocationComplete => exact execInvocationComplete_keeps h
  | sequencerCallStart => exact execSequencerCallStart_keeps h
  | liveRegionSave => exact execLiveRegionSave_keeps h
  | liveRegionRestore => exact execLiveRegionRestore_keeps h
  | moveDescriptor => exact execMoveDescriptor_keeps h
  | moveComplete => exact execMoveComplete_keeps h
  | canarySample => exact execCanarySample_keeps h
  | hourlyPoint => exact execHourlyPoint_keeps h
  | pwrEnRise => exact .next (.set h)
  | referenceLoss => exact execReferenceLoss_keeps h
  | poweredTimeRecord => exact execPoweredTimeRecord_keeps h
  | stepRateWindow =>
    exact .guardWf (whenPowered_keeps h (fun h => .ite (.set (.set (forN_keeps (fun h => .set h) h))) h))
  | snowploughWindow => exact execSnowploughWindow_keeps h
  | powerStageLimit => exact .next (whenPowered_keeps h (fun h => .ite (.set (stageLower_keeps h)) h))
  | powerStageThermalHold => exact .guardWf (whenPowered_keeps h (fun h => .ite (.set (.ite (stageLower_keeps h) h)) h))
  | junctionThermalEvent | stackThermalEvent =>
    exact .next (whenFw_keeps h (fun h => .ite (.set (thermalEvent_keeps (.set h))) h))
  | bootRomRun => exact .next (whenPowered_keeps h (fun h => .ite (romRun_keeps h) h))
  | recoveryImage => exact .next (whenPowered_keeps h (fun h => .ite (.ite (romRun_keeps (.set (.set h))) (.set h)) h))
  | bringupRecords => exact execBringupRecords_keeps h
  | laneRepair => exact .guardWf (whenFw_keeps h (fun h => .ite (repairLanes_keeps (.set h)) h))
  | retentionProbe => exact .guardWf (whenFw_keeps h (fun h => .ite (forN_keeps showMargin_keeps (.set (.set h))) h))
  | dramZero => exact execDramZero_keeps h
  | bringupStructures => exact execBringupStructures_keeps h
  | ready => exact .next (whenFw_keeps h (fun h => .ite (.set (.set h)) h))
  | bringupReportRead => exact .next (whenFw_keeps h (fun h => .ite h (.set h)))
  | fabricConfigWrite =>
    exact .next (whenFw_keeps h (fun h => .ite (.ite (.set (.set h)) (applyFabric_keeps (.set h))) h))
  | firmwareDataPieceRead => exact .next (whenFw_keeps h (fun h => .ite (.ite h (jobFaultAll_keeps h)) h))
  | gondolaBurst => exact execGondolaBurst_keeps h
  | gondolaBurstDone => exact execGondolaBurstDone_keeps h
  | submissionParse => exact execSubmissionParse_keeps h
  | call => exact .next (onCmd_keeps h (fun h => .ite (.set (.set h)) h))
  | barrier => exact .next (onCmd_keeps h (fun h => .ite (.set h) h))
  | schuss => exact .next (onCmd_keeps h (fun h => .ite (.set (.set (spWrite_keeps (settleOn_keeps h)))) h))
  | copy => exact execCopy_keeps h
  | jobCompletion => exact execJobCompletion_keeps h
  | negotiate => exact .next (admin_keeps h negotiateRun_keeps)
  | getCaps => exact .next (admin_keeps h respond_keeps)
  | queueCreate => exact .next (admin_keeps h createRun_keeps)
  | queueDestroy => exact .next (admin_keeps h destroyRun_keeps)
  | fenceCore => exact .next (admin_keeps h fenceRun_keeps)
  | unfence => exact .next (admin_keeps h unfenceRun_keeps)
  | resetJobs => exact .next (admin_keeps h resetRunStart_keeps)
  | verificationSweep => exact execVerificationSweep_keeps h
  | setModeDeterminism | setModeCounterPolicy | setModeFreezeMask => exact .next (setMode_keeps h modeDone_keeps)
  | setModeChannelLock | setModeScrub => exact .next (setMode_keeps h (fun h => .set h))
  | setPowerCap | setGroomPolicy =>
    exact .next (admin_keeps h (fun h => .ite (respond_keeps (.set h)) (refuse_keeps h)))
  | timeSync => exact execTimeSync_keeps h
  | attest => exact .next (admin_keeps h (fun h => .ite (respond_keeps (dmaBytes_keeps h)) (refuse_keeps h)))
  | fwStage => exact execFwStage_keeps h
  | fwActivate => exact .next (admin_keeps h fwActivateRun_keeps)
  | reservedAdminOpcode => exact .next (.ite h (admin_keeps h (fun h => h)))
  | arrayDescriptor | arrayOtherAxisRead => exact .next (arrRun_keeps h)
  | counterEpoch | refreshWindow | nvmeKeepAlive | ptpSyncSend =>
    exact .next (whenPowered_keeps h (fun h => .ite (.set (.set h)) h))
  | groomerTest => exact execGroomerTest_keeps h
  | groomerArbitrate => exact execGroomerArbitrate_keeps h
  | groomerArbiterTimeout => exact execGroomerArbiterTimeout_keeps h
  | eventPost => exact .next (whenFw_keeps h postEvent_keeps)
  | ulizorSramUncorrectable => exact .next (whenFw_keeps h (fun h => .set (jobFaultAll_keeps h)))
  | stackTempSample => exact .guardWf (whenPowered_keeps h (fun h => .ite (.set (forN_keeps (fun h => .set h) h)) h))
  | scrubLine => exact execScrubLine_keeps h
  | channelRead => exact .next (runRouters_keeps (serve_keeps h readReq_keeps))
  | channelWrite => exact .next (runRouters_keeps (serve_keeps h writeReq_keeps))
  | adderAdd | adderAddFx | adderFetchAdd | adderSwap | adderZero =>
    exact .next (runRouters_keeps (serve_keeps h adderReq_keeps))
  | adderCas => exact .next (runRouters_keeps (serve_keeps h casReq_keeps))
  | adderPool => exact .next (runRouters_keeps (serve_keeps h poolReq_keeps))
  | hedgerowPacket => exact execHedgerowPacket_keeps h
  | lookupDescriptor => exact execLookupDescriptor_keeps h
  | gatherPiece => exact execGatherPiece_keeps h
  | hedgePartial => exact execHedgePartial_keeps h
  | tailRowFetch => exact execTailRowFetch_keeps h
  | tailRowArrival => exact execTailRowArrival_keeps h
  | runAheadRead => exact execRunAheadRead_keeps h
  | thicketFill => exact execThicketFill_keeps h
  | bagFinish => exact execBagFinish_keeps h
  | tileResume => exact execTileResume_keeps h
  | laneaRead | laneaWrite | laneaAddAddress | laneaAddGradient | gatherReq => exact .guardWf (requestOf_keeps h)
  | laneaResponse => exact .guardWf (receive_keeps h (fun h => .ite (channelMsg_keeps h) h))
  | laneaCredit => exact .guardWf (receive_keeps h (fun h => .ite (creditChan_keeps (creditChan_keeps h)) h))
  | laneaAck => exact .guardWf (receive_keeps h (fun h => .ite (ackChan_keeps (ackChan_keeps h)) h))
  | census => exact execCensus_keeps h
  | censusSend => exact .next (whenPowered_keeps h (fun h => .ite (sendCensus_keeps (.set h)) h))
  | censusAudit => exact execCensusAudit_keeps h
  | laneaRetransmit => exact execLaneaRetransmit_keeps h
  | portDown | peerUnreachable => exact .next (whenPowered_keeps h (fun h => .ite (fabricEvent_keeps (.set h)) h))
  | portUp => exact execPortUp_keeps h
  | tableMap => exact .next (admin_keeps h tableMapRun_keeps)
  | tableSwap => exact .next (admin_keeps h tableSwapRun_keeps)
  | tableSwapApply => exact execTableSwapApply_keeps h
  | retirement => exact .next (whenFw_keeps h (fun h => .ite (retire_keeps h) h))
  | migrate => exact .next (admin_keeps h migrateRun_keeps)
  | migratePage => exact execMigratePage_keeps h
  | wardenConfigApply => exact execWardenConfigApply_keeps h
  | modelLoad => exact .next (admin_keeps h modelLoadRun_keeps)
  | modelUnload => exact .next (admin_keeps h modelUnloadRun_keeps)
  | nvmeRead => exact execNvmeRead_keeps h
  | nvmeWrite => exact execNvmeWrite_keeps h
  | nvmeCompletion => exact execNvmeCompletion_keeps h
  | nvmeCommandTimeout => exact execNvmeCommandTimeout_keeps h
  | nvmeConnectionLost => exact execNvmeConnectionLost_keeps h
  | nvmeReconnect => exact execNvmeReconnect_keeps h
  | ptpSync => exact execPtpSync_keeps h
  | ptpHoldover => exact execPtpHoldover_keeps h
  | sqTailWrite => exact .next (whenPresent_keeps h sqTail_keeps)
  | cqHeadWrite => exact .next (whenPresent_keeps h cqHead_keeps)
  | eqHeadWrite => exact .next (whenPresent_keeps h (fun h => .ite (eqHead_keeps h) h))
  | hqHeadWrite => exact .next (whenPresent_keeps h (fun h => .ite (hqHead_keeps h) h))
  | fqHeadWrite => exact .next (whenPresent_keeps h (fun h => .ite (fqHead_keeps h) h))
  | dbStatusRead | hlErrRead | hlResetsRead => exact .next (whenPresent_keeps h (fun h => .set (.set h)))
  | mbStatusRead | fqStatusRead => exact .next (whenPresent_keeps h (fun h => .ite (.set (.set h)) (.set h)))
  | hlHwinWrite => exact .next (whenPresent_keeps h hwin_keeps)
  | tbLowHalfRead => exact execTbLowHalfRead_keeps h
  | fqResolveRelease | fqResolveFail => exact .next (whenFw_keeps h (fun h => .ite (resolve_keeps h) h))
  | mbRelease => exact .next (whenPresent_keeps h (fun h => .ite (.set h) h))
  | registerWriteOther => exact execRegisterWriteOther_keeps h
  | bar0BadAccess => exact .next (whenPresent_keeps h (fun h => .ite h (.ite (.set (.set h)) (.set h))))
  | routineLoad => exact .next (admin_keeps h routineLoadRun_keeps)
  | routineLoadApply => exact execRoutineLoadApply_keeps h
  | routineCommit => exact .next (admin_keeps h commitRun_keeps)
  | rowWrite => exact execRowWrite_keeps h
  | scatterDescriptor => exact execScatterDescriptor_keeps h
  | scatterComplete => exact execScatterComplete_keeps h
  | spdmGetVersion | spdmGetCapabilities | spdmNegotiateAlgorithms | spdmGetDigests | spdmGetCertificate
  | spdmChallenge | spdmGetMeasurements | spdmKeyExchange | spdmFinish | spdmEndSession | spdmHeartbeat =>
    exact .next (exchange_keeps h)
  | spdmChunkSend => exact .next (.ite (.ite (.set (upSpdm_keeps h)) (.set h)) h)
  | spdmChunkGet => exact .next (.ite (.set (upSpdm_keeps h)) h)
  | ideKm => exact .next (.ite (flushHeld_keeps (.set (exchange_keeps h))) (exchange_keeps h))
  | doeDiscovery => exact .next (.ite (.set h) h)
  | telemetryRead => exact .next (admin_keeps h telemetryRun_keeps)
  | vecAdd | vecSub | vecMul | vecAxpy | vecMax | vecMin | vecAbs | vecNeg | vecRelu | vecClamp | vecRecip | vecCmpEq
  | vecCmpNe | vecCmpLt | vecCmpLe | vecSelect | vecExp | vecLog | vecSigmoid | vecTanh | vecRsqrt | vecRsum
  | vecRmax | vecRmin | vecConvert | vecQuant | vecCompress | vecExpand | vecTopk => exact .next (vecRun_keeps h)
  | stepClose => exact execStepClose_keeps h
  | stepCloseArrivalsMet => exact execStepCloseArrivalsMet_keeps h
  | updateEngineSlot => exact execUpdateEngineSlot_keeps h
  | stepCloseFinish => exact execStepCloseFinish_keeps h

end Sys2Proof.Machine
end

section
/-!
The Ticker starts at 0, advances with each reference cycle, and is stepped by no command (R45).
-/
namespace Sys2Proof.Machine

/-- Power-good makes a state with the Ticker at 0. -/
theorem ticker_of_exec_powerGood {s : State} (h : s.pwr.phase = .ramping) :
    ∃ t, exec .powerGood s = .next t ∧ t.ticker = 0 :=
  ⟨_, rfl, by rw [if_pos h]; simp [State.ticker]⟩

theorem phase_of_powered {s : State} (h : s.powered = true) : s.pwr.phase = .powered := beq_iff_eq.1 h

/-- An input fault, a trip or a rail fault ends the powered state. -/
theorem powered_powerFault {s : State} (cause : BitVec 8) (trip : Bool) (h : s.powered = true) :
    (powerFault cause trip s).powered = false := by
  rw [powerFault, if_neg (by simp [phase_of_powered h])]
  rfl

/-- A supply command that finds the module powered, and leaves it so, has nothing to do. -/
theorem eq_of_exec_isSupplyCommand {c : Instr} {s t : State} (hc : isSupplyCommand c = true) (hs : s.powered = true)
    (ht : t.powered = true) (e : exec c s = .next t) : t = s := by
  have hfault {cause trip} (e : Host.Outcome.next (powerFault cause trip s) = (.next t : Out)) : t = s := by
    cases e
    rw [powered_powerFault cause trip hs] at ht
    cases ht
  cases c with
  | powerGood =>
    cases e
    exact if_neg (by simp [phase_of_powered hs])
  | pwrEnFall =>
    cases e
    by_cases hen : s.pwr.pwrEn = true
    · rw [if_pos hen, if_neg (by simp [phase_of_powered hs])] at ht
      cases ht
    · rw [if_neg hen]
  | inputUnderVoltage | inputOverVoltage | junctionTrip | stackTrip | railFault => exact hfault e
  | _ => cases hc

/-- No command moves the Ticker of a module that it leaves powered. -/
theorem acc_of_exec {c : Instr} {s t : State} (hs : s.powered = true) (ht : t.powered = true) (e : exec c s = .next t) :
    t.time.acc = s.time.acc := by
  cases hc : isSupplyCommand c with
  | true => rw [eq_of_exec_isSupplyCommand hc hs ht e]
  | false =>
    obtain ⟨_, hacc, _⟩ := exec_keeps (.refl s) hc t e
    exact hacc

theorem b2n_le_one (b : Bool) : b2n b ≤ 1 := by cases b <;> decide

/-- Within the trim's range a reference cycle adds about 10 ns, in units of 2^−32 ns. -/
theorem toNat_increment_bounds {s : State} (hlo : -25000 ≤ s.time.rateTrim.toInt)
    (hhi : s.time.rateTrim.toInt ≤ 25000) :
    0 < s.increment.toNat ∧ s.increment.toNat ≤ 11 * 2 ^ 32 := by
  simp only [State.increment, BitVec.toNat_ofInt]
  generalize hb : b2n _ = up
  generalize hq : _ / (1000000000 : Int) = q
  have hup : up ≤ 1 := hb ▸ b2n_le_one _
  have hrange : 0 < q ∧ q < 11 * 2 ^ 32 := by omega
  rw [Int.emod_eq_of_lt (by omega) (by omega)]
  omega

/-- R45: a reference cycle advances the Ticker. -/
theorem acc_tick_bounds {s : State} (hp : s.powered = true) (hr : s.time.refLoss = false)
    (hlo : -25000 ≤ s.time.rateTrim.toInt) (hhi : s.time.rateTrim.toInt ≤ 25000)
    (hroom : s.time.acc.toNat < 2 ^ 96 - 2 ^ 36) :
    s.time.acc.toNat < (tick s).time.acc.toNat ∧ (tick s).time.acc.toNat ≤ s.time.acc.toNat + 11 * 2 ^ 32 := by
  obtain ⟨hpos, hmax⟩ := toNat_increment_bounds hlo hhi
  have hsum : (s.time.acc + s.increment).toNat = s.time.acc.toNat + s.increment.toNat := by
    rw [BitVec.toNat_add, Nat.mod_eq_of_lt (by omega)]
  simp only [tick_of_running hp hr, hsum]
  omega

/-- Settles O3: power-good starts the Ticker at 0; every command keeps the accumulator (`exec_keeps`) or, of the supply,
ends the powered state; and a reference cycle alone adds its increment, none after a reference loss. -/
theorem tickerNeverStepped : Obligations.TickerNeverStepped := by
  unfold Obligations.TickerNeverStepped
  exact ⟨fun _ => ticker_of_exec_powerGood, fun _ _ _ => acc_of_exec, fun _ => acc_tick_bounds,
    fun _ h => tick_of_held (.inr h)⟩

end Sys2Proof.Machine
end

section
/-!
The rules for what a channel does to local DRAM and to its own records: error reports, writes, responses, and the request
that is served next (R64 to R67, R75, R77).
-/
namespace Sys2Proof.Machine

/-! ### What an access may change -/

/-- The state without its channels and what `State.still` leaves out: what a read of local DRAM leaves as it was. -/
def State.sansChans (s : State) : State := { s.still with chans := [] }

/-- The state without local DRAM, its channels, the hedges and what `State.still` leaves out: what a write of local DRAM
leaves as it was. -/
def State.sansMem (s : State) : State := { s.sansChans with dram := {}, loose := [], hedges := [] }

/-- The channel without its error counts. -/
def Chan.sansErrors (x : Chan) : Chan := { x with ueCount := 0, ceCount := 0, yewCe := 0, laneCe := [] }

section
variable {s t : State}

theorem sansChans_of_still (h : t.still = s.still) : t.sansChans = s.sansChans := by
  unfold State.sansChans
  rw [h]

theorem sansMem_of_sansChans (h : t.sansChans = s.sansChans) : t.sansMem = s.sansMem := by
  unfold State.sansMem
  rw [h]

theorem chan_of_still (h : t.still = s.still) (k : Nat) : t.chan k = s.chan k :=
  (congrArg (fun u => State.chan u k) h : t.still.chan k = s.still.chan k)

theorem dram_of_sansChans (h : t.sansChans = s.sansChans) : t.dram = s.dram :=
  (congrArg State.dram h : t.sansChans.dram = s.sansChans.dram)

theorem hedges_of_sansChans (h : t.sansChans = s.sansChans) : t.hedges = s.hedges :=
  (congrArg State.hedges h : t.sansChans.hedges = s.sansChans.hedges)

theorem jobs_of_sansMem (h : t.sansMem = s.sansMem) : t.jobs = s.jobs :=
  (congrArg State.jobs h : t.sansMem.jobs = s.sansMem.jobs)

theorem cores_of_sansMem (h : t.sansMem = s.sansMem) : t.cores = s.cores :=
  (congrArg State.cores h : t.sansMem.cores = s.sansMem.cores)

theorem hrow_of_sansMem (h : t.sansMem = s.sansMem) : t.hrow = s.hrow :=
  (congrArg State.hrow h : t.sansMem.hrow = s.sansMem.hrow)

end

/-! ### Error reports of a read (R75, R377) -/

/-- A read counts and reports errors, and changes nothing else. -/
@[simp] theorem dramTouch_sansChans (s : State) (a n : Nat) : (dramTouch s a n).sansChans = s.sansChans := by
  unfold dramTouch
  refine forL_induct (P := fun t => t.sansChans = s.sansChans) (fun e t h => ?_) rfl
  simp only
  split
  · exact h
  · split
    · split
      · exact h
      · exact (sansChans_of_still (uePoison_still ..)).trans h
    · exact h

/-- A read changes nothing of a channel but its error counts. -/
theorem dramTouch_chan (s : State) (a n k : Nat) : ((dramTouch s a n).chan k).sansErrors = (s.chan k).sansErrors := by
  have hup : ∀ (t : State) (c : Nat) (f : Chan → Chan), (∀ x, (f x).sansErrors = x.sansErrors) →
      (t.chan k).sansErrors = (s.chan k).sansErrors → ((upChan t c f).chan k).sansErrors = (s.chan k).sansErrors := by
    intro t c f hf h
    rw [upChan_chan]
    split
    · rename_i hk
      rw [hf, ← hk, h]
    · exact h
  unfold dramTouch
  refine forL_induct (P := fun t => (t.chan k).sansErrors = (s.chan k).sansErrors) (fun e t h => ?_) rfl
  simp only
  split
  · exact hup _ _ _ (fun _ => rfl) h
  · split
    · have := hup t (t.channel (8 * e.1)) (fun c => { c with ueCount := c.ueCount + 1 }) (fun _ => rfl) h
      split
      · exact this
      · rw [chan_of_still (uePoison_still ..)]
        exact this
    · exact h

theorem dramTouch_queue (s : State) (a n k : Nat) : ((dramTouch s a n).chan k).queue = (s.chan k).queue :=
  (congrArg Chan.queue (dramTouch_chan s a n k) :
    ((dramTouch s a n).chan k).sansErrors.queue = (s.chan k).sansErrors.queue)

/-! ### Writes of local DRAM -/

@[simp] theorem dramPut_sansMem (s : State) (a : Nat) (l : List PWord) : (dramPut s a l).sansMem = s.sansMem := rfl

@[simp] theorem dramPut_chan (s : State) (a : Nat) (l : List PWord) (k : Nat) : (dramPut s a l).chan k = s.chan k := rfl

/-- A word of local DRAM after a write of words, by the places of the list. -/
theorem dramPut_word_getD (s : State) (a : Nat) (l : List PWord) (j : Nat) : (dramPut s a l).dram.word j =
    if a / 8 ≤ j ∧ j < a / 8 + l.length then
      (if (l.getD (j - a / 8) PWord.bad).poison then .bad else .good (l.getD (j - a / 8) PWord.bad).data)
    else s.dram.word j := by
  rw [dramPut_word]
  split
  · rw [List.getD_eq_getElem _ _ (by omega)]
  · rfl

/-- A word of local DRAM after a write of good words. -/
theorem dramPut_good_word (s : State) (a : Nat) (l : List Word) (j : Nat) : (dramPut s a (l.map .good)).dram.word j =
    if a / 8 ≤ j ∧ j < a / 8 + l.length then .good (l.getD (j - a / 8) 0) else s.dram.word j := by
  rw [dramPut_word_getD, List.length_map]
  refine if_ctx_congr Iff.rfl (fun h => ?_) fun _ => rfl
  rw [List.getD_eq_getElem _ _ (by simp; omega), List.getD_eq_getElem _ _ (by omega), List.getElem_map]
  rfl

/-- A word of local DRAM after words are spoilt. -/
theorem dramPut_bad_word (s : State) (a n j : Nat) : (dramPut s a (List.replicate n PWord.bad)).dram.word j =
    if a / 8 ≤ j ∧ j < a / 8 + n then .bad else s.dram.word j := by
  rw [dramPut_word_getD, List.length_replicate]
  refine if_ctx_congr Iff.rfl (fun h => ?_) fun _ => rfl
  rw [List.getD_eq_getElem _ _ (by simp; omega), List.getElem_replicate]
  rfl

@[simp] theorem spoilLines_sansMem (s : State) (l : List Nat) : (spoilLines s l).sansMem = s.sansMem :=
  forL_induct (P := fun t => t.sansMem = s.sansMem) (fun _ _ h => (dramPut_sansMem ..).trans h) rfl

@[simp] theorem spoilLines_chan (s : State) (l : List Nat) (k : Nat) : (spoilLines s l).chan k = s.chan k :=
  forL_induct (P := fun t => t.chan k = s.chan k) (fun _ _ h => (dramPut_chan ..).trans h) rfl

/-- R77: the words of spoilt lines are poison, every other word is as it was. -/
theorem spoilLines_word (l : List Nat) : ∀ (s : State) (j : Nat), (spoilLines s l).dram.word j =
    if ∃ a ∈ l, a / 8 ≤ j ∧ j < a / 8 + 8 then .bad else s.dram.word j := by
  induction l with
  | nil => intro s j; simp [spoilLines, forL_nil]
  | cons a l ih =>
    intro s j
    show (spoilLines (dramPut s a (List.replicate 8 PWord.bad)) l).dram.word j = _
    rw [ih, dramPut_bad_word]
    simp only [List.mem_cons, exists_eq_or_imp]
    by_cases h : ∃ b ∈ l, b / 8 ≤ j ∧ j < b / 8 + 8
    · rw [if_pos h, if_pos (.inr h)]
    · simp only [h, or_false, if_false]

/-! ### Words as they are read -/

@[simp] theorem length_dramWords (s : State) (i n : Nat) : (s.dramWords i n).length = n := by
  unfold State.dramWords Mem.words
  split <;> simp

/-- Each word of a range as a reader gets it, whether or not some are left undefined (R331). -/
theorem getD_dramWords (s : State) (i : Nat) {n k : Nat} (hk : k < n) :
    (s.dramWords i n).getD k PWord.bad = s.dramWord (i + k) := by
  rw [List.getD_eq_getElem _ _ (by simpa using hk)]
  unfold State.dramWords
  split
  · rename_i h
    simp [Mem.words, State.dramWord, State.looseAt, h]
  · simp

/-- Good words are their data. -/
theorem pdata_of_good {l : List PWord} (h : anyPoison l = false) : pdata l = l.map (·.data) := by
  refine List.map_congr_left fun p hp => ?_
  have : p.poison = false := by
    simp only [anyPoison, List.any_eq_false] at h
    simpa using h p hp
  simp [this]

@[simp] theorem length_pdata (l : List PWord) : (pdata l).length = l.length := by simp [pdata]

/-! ### The queue and its responses -/

/-- The state in which the request at a place of a channel's queue has left it. -/
def State.dequeued (s : State) (c i : Nat) : State := upChan s c (fun x => { x with queue := x.queue.eraseIdx i })

@[simp] theorem dequeued_queue (s : State) (c i : Nat) : ((s.dequeued c i).chan c).queue = (s.chan c).queue.eraseIdx i := by
  simp [State.dequeued]

/-- With nothing in the routers, what they do is nothing. -/
theorem runRouters_of_empty {s : State} (h : s.hrow.flits = []) : runRouters s = s := by simp [runRouters, h]

/-- With nothing in the routers, a channel serves the request it picks and does no more. -/
theorem serveNext_of_pick {s : State} {c : Nat} {p : ChReq → Bool} {f : ChReq → State → State} {r : ChReq} {i : Nat}
    (hp : s.powered = true) (hpick : (s.chan c).pick p = some (r, i)) (hf : (f r (s.dequeued c i)).hrow.flits = []) :
    serveNext c p f s = .next (f r (s.dequeued c i)) := by
  have hserve : serve s c p f = f r (s.dequeued c i) := by
    rw [serve, whenPowered_of_powered hp]
    simp only [hpick]
    rfl
  rw [serveNext, hserve, runRouters_of_empty hf]

@[simp] theorem reply_still (s : State) (c : Nat) (r : ChReq) (l : List PWord) : (reply s c r l).still = s.still := by
  unfold reply
  split <;> rfl

@[simp] theorem reply_dram (s : State) (c : Nat) (r : ChReq) (l : List PWord) : (reply s c r l).dram = s.dram := by
  unfold reply
  split <;> rfl

@[simp] theorem reply_chan (s : State) (c : Nat) (r : ChReq) (l : List PWord) (k : Nat) :
    (reply s c r l).chan k = s.chan k := chan_of_still (reply_still ..) k

/-- The response to a packet is the last thing sent. -/
theorem reply_getLast? {r : ChReq} {src txn : Nat} (s : State) (c : Nat) (l : List PWord) (h : r.reply = .packet src txn) :
    (reply s c r l).out.getLast? = some (responsePacket c r src txn l) := by
  simp [reply, h, emit]

theorem countUe_sansChans (s : State) (c : Nat) : (countUe s c).sansChans = s.sansChans := rfl

@[simp] theorem countUe_ueCount (s : State) (c : Nat) : ((countUe s c).chan c).ueCount = (s.chan c).ueCount + 1 := by
  simp [countUe]

@[simp] theorem countUe_queue (s : State) (c k : Nat) : ((countUe s c).chan k).queue = (s.chan k).queue := by
  simp only [countUe, upChan_chan]
  split
  · rename_i h
    rw [h]
  · rfl

@[simp] theorem dequeued_ueCount (s : State) (c i : Nat) : ((s.dequeued c i).chan c).ueCount = (s.chan c).ueCount := by
  simp [State.dequeued]

/-! ### The request to serve (R65, R66) -/

/-- A request that can be served: it is queued, and no earlier one shares a line with it. -/
theorem mem_servable_iff {q : List ChReq} {r : ChReq} {i : Nat} : (r, i) ∈ servable q ↔
    q[i]? = some r ∧ ∀ j, j < i → ∀ d, q[j]? = some d → d.shares r = false := by
  have htake : (q.take i).any (fun d => d.shares r) = false ↔ ∀ j, j < i → ∀ d, q[j]? = some d → d.shares r = false := by
    simp only [List.any_eq_false, Bool.not_eq_true, List.mem_iff_getElem?, List.getElem?_take,
      Option.ite_none_right_eq_some]
    constructor
    · exact fun h j hj d hd => h d ⟨j, hj, hd⟩
    · rintro h d ⟨j, hj, hd⟩
      exact h j hj d hd
  simp only [servable, List.mem_filter, List.mk_mem_zipIdx_iff_getElem?, Bool.not_eq_true', htake]

/-- The requests that can be served stand in the queue's order. -/
theorem pairwise_servable (q : List ChReq) : (servable q).Pairwise (fun a b => a.2 < b.2) := by
  refine List.Pairwise.filter _ ?_
  have h : (q.zipIdx.map Prod.snd).Pairwise (· < ·) := by
    rw [List.zipIdx_map_snd]
    exact List.pairwise_lt_range'
  exact List.pairwise_map.mp h

theorem Chan.urgent_iff (x : Chan) : x.urgent = true ↔ ∃ e ∈ servable x.queue, e.1.urgent = true := by
  simp [Chan.urgent]

/-- What a channel serves: a request it can serve, an urgent one while it owes one service, and of equals the oldest. -/
theorem Chan.pick_spec {x : Chan} {p : ChReq → Bool} {r : ChReq} {i : Nat} (h : x.pick p = some (r, i)) :
    (r, i) ∈ servable x.queue ∧ p r = true ∧ (x.urgent = true → r.urgent = true) ∧
    ∀ e ∈ servable x.queue, p e.1 = true → e.1.urgent = r.urgent → i ≤ e.2 := by
  obtain ⟨hok, l, k, hl, hskip⟩ := List.find?_eq_some_iff_append.mp h
  simp only [Bool.and_eq_true, Bool.or_eq_true, Bool.not_eq_true'] at hok
  obtain ⟨hpr, hur⟩ := hok
  refine ⟨List.mem_of_find?_eq_some h, hpr, fun hx => by simpa [hx] using hur, fun e he hpe heq => ?_⟩
  have horder := pairwise_servable x.queue
  rw [hl] at he horder
  rcases List.mem_append.mp he with he | he
  · have := hskip e he
    rcases hur with hur | hur <;> simp [hpe, heq, hur] at this
  · rcases List.mem_cons.mp he with rfl | he
    · exact Nat.le_refl _
    · have := (List.pairwise_append.mp horder).2.1
      exact Nat.le_of_lt ((List.pairwise_cons.mp this).1 e he)

end Sys2Proof.Machine
end

section
/-!
Reads and writes that a channel serves, and a write that it refuses (R64 to R67, R75, R77, R353, R405).
-/
namespace Sys2Proof.Machine

theorem exec_channelRead (c : ChanId) (ca : CaParity) (s : State) :
    exec (.channelRead c ca) s = serveNext c (fun r => r.kind == .read) (readReq c ca) s := rfl

theorem exec_channelWrite (c : ChanId) (ca : CaParity) (s : State) :
    exec (.channelWrite c ca) s = serveNext c (fun r => r.kind == .write) (writeReq c ca) s := rfl

/-! ### A job fault ends its owner's job with the owner's status (R405) -/

theorem job_of_jobs {s t : State} (h : t.jobs = s.jobs) (k : Nat) : t.job k = s.job k := by
  unfold State.job
  rw [h]

/-- The end of every live job leaves one that has ended as it is. -/
theorem endAll_job_of_ended {s : State} {id : Nat} (st : Status) (h : s.lives id = false) :
    (endAll s st).job id = s.job id := by
  refine forL_induct (P := fun t => t.job id = s.job id) (fun x t ht => ?_) rfl
  have hl : t.lives id = false := by
    rw [← h]
    unfold State.lives
    rw [ht]
  rw [endJob_job, if_neg, ht]
  rintro ⟨rfl, hx⟩
  simp [hl] at hx

/-- R405: a live owner's job ends with the status of the fault. -/
theorem jobFault_job_of_live {s : State} {o : Owner} {j : Job} (st : Status) (pa : Word) (ch : Nat)
    (hj : s.job o.job = some j) (hs : j.status = none) :
    ∃ j', (jobFault s o st pa ch).job o.job = some j' ∧ j'.status = some st := by
  have hlive : s.lives o.job = true := by simp [State.lives, hj, hs]
  have hend : (endJob s o.job st (BitVec.ofNat 16 o.idx)).lives o.job = false := by simp [endJob_lives]
  have hjobs : (jobFault s o st pa ch).jobs = (endAll (endJob s o.job st (BitVec.ofNat 16 o.idx)) stLost).jobs :=
    raiseEvent_jobs ..
  refine ⟨{ j with status := some st, failIdx := BitVec.ofNat 16 o.idx, endSeq := s.sched.ends + 1 }, ?_, rfl⟩
  rw [job_of_jobs hjobs, endAll_job_of_ended stLost hend, endJob_job, if_pos ⟨rfl, hlive⟩, hj]
  rfl

theorem jobFault_dram (s : State) (o : Owner) (st : Status) (pa : Word) (ch : Nat) : (jobFault s o st pa ch).dram = s.dram :=
  (congrArg State.dram (jobFault_base s o st pa ch) : (jobFault s o st pa ch).base.dram = s.base.dram)

theorem jobFault_lives (s : State) (o : Owner) (st : Status) (pa : Word) (ch k : Nat) :
    (jobFault s o st pa ch).lives k = false := jobFaultWith_lives ..

/-- R353, R405: a refused access leaves local DRAM and ends every job, its owner's with ST_PROTECTION. -/
theorem privetFail_spec (s : State) (o : Owner) (pa : Nat) : (privetFail s o pa).dram = s.dram ∧
    (privetFail s o pa).hrow = s.hrow ∧ (∀ k, (privetFail s o pa).lives k = false) ∧
    ∀ j, s.job o.job = some j → j.status = none →
      ∃ j', (privetFail s o pa).job o.job = some j' ∧ j'.status = some stProtection :=
  ⟨jobFault_dram .., jobFault_hrow .., fun k => jobFault_lives _ _ _ _ _ k,
    fun _ hj hs => jobFault_job_of_live _ _ _ hj hs⟩

/-! ### A read (R67, R75, R77) -/

/-- A read that the Privet check admits: the words of its range, or poison where its retry failed. -/
theorem readReq_of_privetOk {c : Nat} {ca : CaParity} {r : ChReq} {s : State} (h : s.privetOk r.cid 0 r.pa false = true) :
    readReq c ca r s = reply (if ca = .failed then countUe s c else dramTouch s r.pa r.len) c r
      (if ca = .failed then List.replicate (r.len / 8) PWord.bad else s.dramWords (r.pa / 8) (r.len / 8)) := by
  rw [readReq, if_neg (by simp [h])]
  split <;> rfl

/-- A read changes nothing but counts and what has been sent. -/
theorem readReq_frame {c : Nat} {ca : CaParity} {r : ChReq} {s : State} (h : s.privetOk r.cid 0 r.pa false = true) :
    (readReq c ca r s).sansChans = s.sansChans ∧ ∀ k, ((readReq c ca r s).chan k).queue = (s.chan k).queue := by
  rw [readReq_of_privetOk h]
  refine ⟨(sansChans_of_still (reply_still ..)).trans ?_, fun k => ?_⟩
  · split
    · exact countUe_sansChans ..
    · exact dramTouch_sansChans ..
  · rw [reply_chan]
    split
    · exact countUe_queue ..
    · exact dramTouch_queue ..

/-! ### A write (R67, R77) -/

/-- A write that the Privet check admits: its data, or poison in its lines where its retry failed. -/
theorem writeReq_of_privetOk {c : Nat} {ca : CaParity} {r : ChReq} {s : State} (h : s.privetOk r.cid 0 r.pa true = true) :
    writeReq c ca r s = reply (if ca = .failed then spoilLines (countUe s c) r.lines else dramPut s r.pa r.data) c r [] := by
  rw [writeReq, if_neg (by simp [h])]
  split <;> rfl

/-- A write changes nothing but local DRAM, the hedges' copies of it, counts and what has been sent. -/
theorem writeReq_sansMem {c : Nat} {ca : CaParity} {r : ChReq} {s : State} (h : s.privetOk r.cid 0 r.pa true = true) :
    (writeReq c ca r s).sansMem = s.sansMem := by
  rw [writeReq_of_privetOk h]
  refine (sansMem_of_sansChans (sansChans_of_still (reply_still ..))).trans ?_
  split
  · exact (spoilLines_sansMem ..).trans (sansMem_of_sansChans (countUe_sansChans ..))
  · exact dramPut_sansMem ..

/-- R353: a write that the Privet check refuses is a job fault of its owner. -/
theorem writeReq_of_refused {c : Nat} {ca : CaParity} {r : ChReq} {s : State} {o : Owner}
    (h : s.privetOk r.cid 0 r.pa true = false) (ho : reqOwner s r = some o) :
    writeReq c ca r s = privetFail s o (mkPa s.moduleNo 0 r.pa) := by
  rw [writeReq, if_pos (by simp [h]), reqPrivet, ho]

section
variable {s : State} {c : ChanId} {r : ChReq} {i : Nat} (hp : s.powered = true) (hflits : s.hrow.flits = [])
include hp hflits

/-- What a read does that a channel picks and admits. -/
theorem exec_channelRead_spec {src txn : Nat} (hr : r.reply = .packet src txn)
    (hpick : (s.chan c).pick (fun r => r.kind == .read) = some (r, i)) (hok : s.privetOk r.cid 0 r.pa false = true)
    (ca : CaParity) : ∃ t, exec (.channelRead c ca) s = .next t ∧
      t.out.getLast? = some (responsePacket c r src txn (if ca = .failed then List.replicate (r.len / 8) PWord.bad
        else s.dramWords (r.pa / 8) (r.len / 8))) ∧
      (t.chan c).queue = (s.chan c).queue.eraseIdx i ∧ t.sansChans = s.sansChans := by
  have hok' : (s.dequeued c i).privetOk r.cid 0 r.pa false = true := hok
  obtain ⟨hframe, hqueue⟩ := readReq_frame (c := c) (ca := ca) hok'
  refine ⟨_, serveNext_of_pick hp hpick ?_, ?_, (hqueue c).trans (dequeued_queue ..), hframe⟩
  · rw [hrow_of_sansMem (sansMem_of_sansChans hframe)]
    exact hflits
  · rw [readReq_of_privetOk hok', reply_getLast? _ _ _ hr]
    rfl

/-- What a write does that a channel picks and admits, its retry passed. -/
theorem exec_channelWrite_spec {src txn : Nat} (hr : r.reply = .packet src txn)
    (hpick : (s.chan c).pick (fun r => r.kind == .write) = some (r, i)) (hok : s.privetOk r.cid 0 r.pa true = true)
    {ca : CaParity} (hca : ca ≠ .failed) :
    exec (.channelWrite c ca) s = .next (reply (dramPut (s.dequeued c i) r.pa r.data) c r []) ∧
    (reply (dramPut (s.dequeued c i) r.pa r.data) c r []).out.getLast? = some (responsePacket c r src txn []) := by
  have hok' : (s.dequeued c i).privetOk r.cid 0 r.pa true = true := hok
  have hflits' : (writeReq c ca r (s.dequeued c i)).hrow.flits = [] := by
    rw [hrow_of_sansMem (writeReq_sansMem hok')]
    exact hflits
  refine ⟨(serveNext_of_pick hp hpick hflits').trans ?_, reply_getLast? _ _ _ hr⟩
  rw [writeReq_of_privetOk hok', if_neg hca]

/-- R77: a write whose retry failed leaves its lines poison, and is counted. -/
theorem exec_channelWrite_failed (hpick : (s.chan c).pick (fun r => r.kind == .write) = some (r, i))
    (hok : s.privetOk r.cid 0 r.pa true = true) : ∃ t, exec (.channelWrite c .failed) s = .next t ∧
      (t.chan c).ueCount = (s.chan c).ueCount + 1 ∧
      ∀ j, t.dram.word j = if ∃ l ∈ r.lines, l / 8 ≤ j ∧ j < l / 8 + 8 then .bad else s.dram.word j := by
  have hok' : (s.dequeued c i).privetOk r.cid 0 r.pa true = true := hok
  have hflits' : (writeReq c .failed r (s.dequeued c i)).hrow.flits = [] := by
    rw [hrow_of_sansMem (writeReq_sansMem hok')]
    exact hflits
  refine ⟨_, serveNext_of_pick hp hpick hflits', ?_, fun j => ?_⟩
  · simp [writeReq_of_privetOk hok']
  · rw [writeReq_of_privetOk hok', if_pos rfl, reply_dram, spoilLines_word]
    rfl

/-- R353, R405: a write that the Privet check refuses. -/
theorem exec_channelWrite_refused {o : Owner} (ca : CaParity)
    (hpick : (s.chan c).pick (fun r => r.kind == .write) = some (r, i)) (hno : s.privetOk r.cid 0 r.pa true = false)
    (ho : reqOwner s r = some o) : ∃ t, exec (.channelWrite c ca) s = .next t ∧ t.dram = s.dram ∧
      (∀ id, t.lives id = false) ∧
      ∀ j, s.job o.job = some j → j.status = none → ∃ j', t.job o.job = some j' ∧ j'.status = some stProtection := by
  have hno' : (s.dequeued c i).privetOk r.cid 0 r.pa true = false := hno
  have ho' : reqOwner (s.dequeued c i) r = some o := ho
  have heq : writeReq c ca r (s.dequeued c i) = _ := writeReq_of_refused hno' ho'
  obtain ⟨hdram, hrow, hlives, hjob⟩ := privetFail_spec (s.dequeued c i) o (mkPa (s.dequeued c i).moduleNo 0 r.pa)
  refine ⟨_, serveNext_of_pick hp hpick ?_, ?_⟩
  · rw [heq, hrow]
    exact hflits
  · rw [heq]
    exact ⟨hdram, hlives, hjob⟩

end

/-- Settles O18: the choice of a request, a read, a write, and a refused write, each by its own lemma. -/
theorem channelAccess : Obligations.ChannelAccess := by
  refine ⟨fun x p r i h => ?_, fun s c r i src txn hp hflits hr => ⟨fun hpick hok ca => ?_, fun hpick hok => ?_,
    fun hpick hok => exec_channelWrite_failed hp hflits hpick hok⟩,
    fun s c ca r i o hp hflits hpick hno ho => exec_channelWrite_refused hp hflits ca hpick hno ho⟩
  · obtain ⟨hmem, hpr, hurgent, holdest⟩ := Chan.pick_spec h
    obtain ⟨hat, hfree⟩ := mem_servable_iff.mp hmem
    exact ⟨hat, hpr, hfree, fun hu => hurgent (x.urgent_iff.mpr hu), holdest⟩
  · obtain ⟨t, hexec, hout, hqueue, hframe⟩ := exec_channelRead_spec hp hflits hr hpick hok ca
    have hmem := sansMem_of_sansChans hframe
    exact ⟨t, hexec, hout, hqueue, dram_of_sansChans hframe, jobs_of_sansMem hmem, cores_of_sansMem hmem,
      hedges_of_sansChans hframe⟩
  · obtain ⟨hclean, hout⟩ := exec_channelWrite_spec hp hflits hr hpick hok (ca := .clean) (by decide)
    obtain ⟨hretried, -⟩ := exec_channelWrite_spec hp hflits hr hpick hok (ca := .retried) (by decide)
    have hmem : (reply (dramPut (s.dequeued c i) r.pa r.data) c r []).sansMem = s.sansMem :=
      (sansMem_of_sansChans (sansChans_of_still (reply_still ..))).trans (dramPut_sansMem ..)
    refine ⟨_, hclean, hretried, hout, ?_, fun j => ?_, jobs_of_sansMem hmem, cores_of_sansMem hmem⟩
    · rw [reply_chan, dramPut_chan, dequeued_queue]
    · rw [reply_dram, dramPut_word_getD]
      rfl

end Sys2Proof.Machine
end

section
/-!
Residues modulo 7 of two's complement sums (R225, R398): the right sum of any width carries the residue that a unit
predicts, and one wrong bit changes it.
-/
namespace Sys2Proof.Machine

/-- No power of two is a multiple of 7. -/
theorem two_pow_mod_seven_ne_zero (k : Nat) : 2 ^ k % 7 ≠ 0 := by
  have h7 : Nat.Coprime 7 (2 ^ k) := Nat.Coprime.pow_right k (by decide)
  intro h
  have := Nat.eq_one_of_dvd_coprimes h7 (dvd_refl 7) (Nat.dvd_of_mod_eq_zero h)
  omega

/-- Turning a clear bit on adds its power of two. -/
theorem toNat_xor_twoPow_of_clear {w k : Nat} {x : BitVec w} (hk : k < w) (hx : x.getLsbD k = false) :
    (x ^^^ BitVec.twoPow w k).toNat = x.toNat + 2 ^ k := by
  have hand : x &&& BitVec.twoPow w k = 0#w := by simp [BitVec.and_twoPow, hx]
  have hxor : x ^^^ BitVec.twoPow w k = x + BitVec.twoPow w k := by
    rw [BitVec.add_eq_or_of_and_eq_zero _ _ hand]
    ext i hi
    rw [BitVec.getElem_xor, BitVec.getElem_or, BitVec.getElem_twoPow]
    by_cases hik : i = k
    · subst hik
      simp [← BitVec.getLsbD_eq_getElem, hx]
    · simp [hik]
  rw [hxor, BitVec.toNat_add_of_and_eq_zero hand, BitVec.toNat_twoPow_of_lt hk]

/-- Turning a clear bit on moves the signed value by its power of two, downwards for the sign bit. -/
theorem toInt_xor_twoPow_of_clear {w k : Nat} {x : BitVec w} (hk : k < w) (hx : x.getLsbD k = false) :
    (x ^^^ BitVec.twoPow w k).toInt = x.toInt + 2 ^ k ∨ (x ^^^ BitVec.twoPow w k).toInt = x.toInt - 2 ^ k := by
  have hn := toNat_xor_twoPow_of_clear hk hx
  have hm : (x ^^^ BitVec.twoPow w k).msb = (x.msb ^^ (BitVec.twoPow w k).msb) := BitVec.msb_xor
  rw [BitVec.msb_twoPow] at hm
  simp only [BitVec.toInt_eq_msb_cond, hn, hm]
  by_cases hw : k = w - 1
  · have hclear : x.msb = false := by rw [BitVec.msb_eq_getLsbD_last, ← hw, hx]
    have hp : (2 : Int) ^ w = 2 * 2 ^ k := by rw [← pow_succ', show k + 1 = w by omega]
    simp only [hclear, hw, decide_true, Bool.false_xor, Bool.false_eq_true, if_false]
    rw [← hw]
    push_cast
    omega
  · simp only [hw, decide_false, Bool.and_false, Bool.xor_false]
    push_cast
    split <;> omega

/-- One bit of a word turned over changes its residue. -/
theorem res7_xor_ne {w k : Nat} (x : BitVec w) (hk : k < w) :
    res7 (x ^^^ (1#w <<< k)).toInt ≠ res7 x.toInt := by
  rw [← BitVec.twoPow_eq]
  have key : ∀ y : BitVec w, y.getLsbD k = false → res7 (y ^^^ BitVec.twoPow w k).toInt ≠ res7 y.toInt := by
    intro y hy
    have h7 : (2 : Int) ^ k % 7 ≠ 0 := by exact_mod_cast two_pow_mod_seven_ne_zero k
    simp only [res7]
    rcases toInt_xor_twoPow_of_clear hk hy with h | h <;> rw [h] <;> omega
  by_cases hx : x.getLsbD k = false
  · exact key x hx
  · have hback : x ^^^ BitVec.twoPow w k ^^^ BitVec.twoPow w k = x := by
      rw [BitVec.xor_assoc, BitVec.xor_self, BitVec.xor_zero]
    have := key (x ^^^ BitVec.twoPow w k) (by simp [hk, hx])
    rw [hback] at this
    exact this.symm

/-- The signed sum of two words wraps at most once. -/
theorem toInt_add_cases {w : Nat} (hw : 0 < w) (a b : BitVec w) : (a + b).toInt =
    if (2 : Int) ^ (w - 1) ≤ a.toInt + b.toInt then a.toInt + b.toInt - 2 ^ w
    else if a.toInt + b.toInt < -(2 : Int) ^ (w - 1) then a.toInt + b.toInt + 2 ^ w
    else a.toInt + b.toInt := by
  have hp : (2 : Int) ^ w = 2 * 2 ^ (w - 1) := by rw [← pow_succ', show w - 1 + 1 = w by omega]
  have ha := BitVec.toInt_lt (x := a)
  have hb := BitVec.toInt_lt (x := b)
  have ha' := BitVec.le_toInt a
  have hb' := BitVec.le_toInt b
  rw [BitVec.toInt_add, Int.bmod_eq_iff (Nat.two_pow_pos w)]
  push_cast
  split
  · exact ⟨by omega, by omega, -1, by ring⟩
  · split
    · exact ⟨by omega, by omega, 1, by ring⟩
    · exact ⟨by omega, by omega, 0, by ring⟩

/-- R398: a right sum carries the residue that the unit predicts. -/
theorem addResidue_add {w : Nat} (hw : 0 < w) (a b : BitVec w) :
    addResidue w a.toInt b.toInt = res7 (a + b).toInt := by
  rw [toInt_add_cases hw]
  have h2 : ((2 : Int) ^ w) % 7 = ((2 ^ w % 7 : Nat) : Int) := by push_cast; rfl
  simp only [addResidue, res7Sum, List.foldl_cons, List.foldl_nil, res7, wrapUnit]
  split
  · omega
  · split <;> omega

/-- R398: a right sum passes its check, and a sum with one bit wrong never does. -/
theorem wrongInt_add {w : Nat} (hw : 0 < w) (a b : BitVec w) :
    wrongInt w a.toInt b.toInt (a + b).toInt = some (a + b) ∧
    ∀ k, k < w → wrongInt w a.toInt b.toInt ((a + b) ^^^ (1#w <<< k)).toInt = none := by
  simp only [wrongInt, BitVec.ofInt_toInt, addResidue_add hw]
  exact ⟨if_pos trivial, fun k hk => if_neg (res7_xor_ne _ hk)⟩

end Sys2Proof.Machine
end

section
/-!
The channel adder (R63, R77, R86, R87, R90, R91, R397 to R399): what each operation leaves at its target, what a failed retry
spoils, what a POOL answers, and what a failed residue check does.
-/
namespace Sys2Proof.Machine

theorem exec_adderAdd (c : ChanId) (ca : CaParity) (bad : Option WrongSum) (s : State) :
    exec (.adderAdd c ca bad) s = serveNext c (isOp opAdd) (adderReq c ca bad) s := rfl

theorem exec_adderAddFx (c : ChanId) (ca : CaParity) (bad : Option WrongSum) (s : State) :
    exec (.adderAddFx c ca bad) s = serveNext c (isOp opAddFx) (adderReq c ca bad) s := rfl

theorem exec_adderFetchAdd (c : ChanId) (ca : CaParity) (bad : Option WrongSum) (s : State) :
    exec (.adderFetchAdd c ca bad) s = serveNext c (isOp opFetchAdd) (adderReq c ca bad) s := rfl

theorem exec_adderSwap (c : ChanId) (ca : CaParity) (s : State) :
    exec (.adderSwap c ca) s = serveNext c (isOp opSwap) (adderReq c ca none) s := rfl

theorem exec_adderCas (c : ChanId) (ca : CaParity) (bad : Bool) (s : State) :
    exec (.adderCas c ca bad) s = serveNext c (isOp opCas) (casReq c ca bad) s := rfl

theorem exec_adderZero (c : ChanId) (ca : CaParity) (s : State) :
    exec (.adderZero c ca) s = serveNext c (isOp opZero) (adderReq c ca none) s := rfl

theorem exec_adderPool (c : ChanId) (ca : CaParity) (bad : Option WrongSum) (s : State) :
    exec (.adderPool c ca bad) s = serveNext c (isOp opPool) (poolReq c ca bad) s := rfl

/-- A CAS whose two compares agree is served as every operation with a target. -/
theorem casReq_false (c : Nat) (ca : CaParity) : casReq c ca false = adderReq c ca none := rfl

/-! ### What an operation may change -/

/-- The states that differ from `s` at most in local DRAM, the hedges, events and what a channel keeps beside its queue. -/
def State.sameButMem (s t : State) : Prop := t.sansMem = s.sansMem ∧ ∀ k, (t.chan k).queue = (s.chan k).queue

section
variable {s t : State}

theorem State.sameButMem.refl (s : State) : s.sameButMem s := ⟨rfl, fun _ => rfl⟩

theorem State.sameButMem.dramPut (h : s.sameButMem t) (a : Nat) (l : List PWord) : s.sameButMem (dramPut t a l) :=
  ⟨(dramPut_sansMem ..).trans h.1, fun k => (congrArg Chan.queue (dramPut_chan ..)).trans (h.2 k)⟩

theorem State.sameButMem.dramTouch (h : s.sameButMem t) (a n : Nat) : s.sameButMem (dramTouch t a n) :=
  ⟨(sansMem_of_sansChans (dramTouch_sansChans ..)).trans h.1, fun k => (dramTouch_queue ..).trans (h.2 k)⟩

theorem State.sameButMem.upChan (h : s.sameButMem t) (c : Nat) {f : Chan → Chan} (hf : ∀ x, (f x).queue = x.queue) :
    s.sameButMem (upChan t c f) := by
  refine ⟨h.1, fun k => ?_⟩
  rw [upChan_chan, ← h.2 k]
  split
  · rename_i hk
    rw [hf, hk]
  · rfl

theorem State.sameButMem.ite {p : Prop} [Decidable p] {a b : State} (ha : s.sameButMem a) (hb : s.sameButMem b) :
    s.sameButMem (if p then a else b) := by
  split
  · exact ha
  · exact hb

theorem State.sameButMem.spoilLines (h : s.sameButMem t) (l : List Nat) : s.sameButMem (spoilLines t l) :=
  ⟨(spoilLines_sansMem ..).trans h.1, fun k => (congrArg Chan.queue (spoilLines_chan ..)).trans (h.2 k)⟩

theorem State.sameButMem.reply (h : s.sameButMem t) (c : Nat) (r : ChReq) (l : List PWord) :
    s.sameButMem (reply t c r l) :=
  ⟨(sansMem_of_sansChans (sansChans_of_still (reply_still ..))).trans h.1,
    fun k => (congrArg Chan.queue (reply_chan ..)).trans (h.2 k)⟩

end

/-- An operation changes nothing but its target, the hedges' copies of it, and counts. -/
theorem adderDo_sameButMem (s : State) (p : AdderPkt) (off : Nat) (x : List PWord) :
    s.sameButMem (adderDo s p off x).1 := by
  have htouch := fun n => (State.sameButMem.refl s).dramTouch off n
  unfold adderDo
  simp only
  split
  · split <;> exact (htouch _).dramPut ..
  · have hcount := (htouch p.len).upChan ((dramTouch s off p.len).channel off)
      (f := fun c => { c with fxSat := c.fxSat + (addFixed p.exp (pdata (s.dramWords (off / 8) (p.len / 8))) (pdata x)).2 })
      fun _ => rfl
    split <;> exact hcount.dramPut ..
  · split <;> exact (htouch _).dramPut ..
  · exact (htouch _).dramPut ..
  · exact .ite ((htouch _).dramPut ..) (htouch _)
  · exact (State.sameButMem.refl s).dramPut ..
  · exact .refl s

/-! ### What an operation leaves at its target (R86, R87) -/

@[simp] theorem dramTouch_dram (s : State) (a n : Nat) : (dramTouch s a n).dram = s.dram :=
  dram_of_sansChans (dramTouch_sansChans ..)

/-- A word of local DRAM after a write of one word. -/
theorem dramPut_one_word (s : State) (a : Nat) (p : PWord) (j : Nat) : (dramPut s a [p]).dram.word j =
    if j = a / 8 then (if p.poison then .bad else .good p.data) else s.dram.word j := by
  rw [dramPut_word_getD]
  refine if_ctx_congr ?_ (fun h => ?_) fun _ => rfl
  · rw [List.length_singleton]
    omega
  · simp [h]

/-- The words of one list with those of another, where both hold a word. -/
theorem getD_zipWith {α β : Type} {f : Word → β → Word} {g : α → Word} {l : List α} {m : List β} {k : Nat} {d : α} {e : β}
    (hl : k < l.length) (hm : k < m.length) :
    (List.zipWith f (l.map g) m).getD k 0 = f (g (l.getD k d)) (m.getD k e) := by
  rw [List.getD_eq_getElem _ _ (by simp; omega), List.getElem_zipWith, List.getElem_map,
    List.getD_eq_getElem _ _ hl, List.getD_eq_getElem _ _ hm]

@[simp] theorem length_f32s (l : List Word) : (f32s l).length = 2 * l.length := by
  simp [f32s, List.length_flatMap, Nat.mul_comm]

section
variable {s : State} {p : AdderPkt} {off : Nat}

/-- ADD: the sum of each word, or poison in the whole target. -/
theorem adderDo_add_word {x : List PWord} (hop : p.op = opAdd) (hx : x.length = p.len / 8) (j : Nat) :
    (adderDo s p off x).1.dram.word j = if off / 8 ≤ j ∧ j < off / 8 + p.len / 8 then
      (if (anyPoison x || anyPoison (s.dramWords (off / 8) (p.len / 8))) = true then .bad
        else .good (addWord p.acc (s.dramWord j).data (x.getD (j - off / 8) PWord.bad).data))
      else s.dram.word j := by
  have hdo : (adderDo s p off x).1 = dramPut (dramTouch s off p.len) off
      (if (anyPoison x || anyPoison (s.dramWords (off / 8) (p.len / 8))) = true then List.replicate (p.len / 8) PWord.bad
        else (List.zipWith (addWord p.acc) (pdata (s.dramWords (off / 8) (p.len / 8))) (pdata x)).map .good) := by
    unfold adderDo
    simp only [hop, opAdd]
    split <;> rfl
  rw [hdo]
  split
  · rw [dramPut_bad_word, dramTouch_dram]
  · rename_i hgood
    simp only [Bool.not_eq_true, Bool.or_eq_false_iff] at hgood
    obtain ⟨hgx, hgo⟩ := hgood
    rw [dramPut_good_word, dramTouch_dram]
    simp only [List.length_zipWith, length_pdata, length_dramWords, hx, Nat.min_self]
    refine if_ctx_congr Iff.rfl (fun h => ?_) fun _ => rfl
    have hk : j - off / 8 < p.len / 8 := by omega
    rw [pdata_of_good hgo, getD_zipWith (d := PWord.bad) (e := 0) (by simpa using hk) (by simpa [hx] using hk),
      getD_dramWords s _ hk, pdata_of_good hgx, Nat.add_sub_cancel' h.1]
    simp [hx, hk]

/-- ADD_FX: each word plus its element in fixed point, or poison in the whole target. -/
theorem adderDo_addFx_word {x : List PWord} (hop : p.op = opAddFx) (hx : 2 * x.length = p.len / 8) (j : Nat) :
    (adderDo s p off x).1.dram.word j = if off / 8 ≤ j ∧ j < off / 8 + p.len / 8 then
      (if (anyPoison x || anyPoison (s.dramWords (off / 8) (p.len / 8))) = true then .bad
        else .good ((s.dramWord j).data +
          BitVec.ofInt 64 (toFixed p.exp ((f32s (pdata x)).getD (j - off / 8) 0)).1))
      else s.dram.word j := by
  have hdo : ∃ c f, (adderDo s p off x).1 = dramPut (upChan (dramTouch s off p.len) c f) off
      (if (anyPoison x || anyPoison (s.dramWords (off / 8) (p.len / 8))) = true then List.replicate (p.len / 8) PWord.bad
        else (addFixed p.exp (pdata (s.dramWords (off / 8) (p.len / 8))) (pdata x)).1.map .good) := by
    unfold adderDo
    simp only [hop, opAddFx]
    split <;> exact ⟨_, _, rfl⟩
  obtain ⟨c, f, hdo⟩ := hdo
  rw [hdo]
  split
  · rw [dramPut_bad_word, upChan_dram, dramTouch_dram]
  · rename_i hgood
    simp only [Bool.not_eq_true, Bool.or_eq_false_iff] at hgood
    rw [dramPut_good_word, upChan_dram, dramTouch_dram]
    simp only [addFixed, List.length_zipWith, List.length_map, length_f32s, length_pdata, length_dramWords, hx, Nat.min_self]
    refine if_ctx_congr Iff.rfl (fun h => ?_) fun _ => rfl
    have hk : j - off / 8 < p.len / 8 := by omega
    rw [pdata_of_good hgood.2, getD_zipWith (d := PWord.bad) (e := toFixed p.exp 0) (by simpa using hk)
      (by simpa [hx] using hk), getD_dramWords s _ hk, List.getD_map, Nat.add_sub_cancel' h.1]

/-- FETCH_ADD: the sum in its one word, or poison there. -/
theorem adderDo_fetchAdd_word {x : PWord} (hop : p.op = opFetchAdd) (j : Nat) :
    (adderDo s p off [x]).1.dram.word j = if j = off / 8 then
      (if ((s.dramWord (off / 8)).poison || x.poison) = true then .bad
        else .good (fetchAdd p.acc (off % 8 == 4) (s.dramWord (off / 8)).data x.data).1)
      else s.dram.word j := by
  have hplace : off / 8 * 8 / 8 = off / 8 := by omega
  have hdo : (adderDo s p off [x]).1 = dramPut (dramTouch s off 8) (off / 8 * 8)
      [if ((s.dramWord (off / 8)).poison || x.poison) = true then PWord.bad
        else .good (fetchAdd p.acc (off % 8 == 4) (s.dramWord (off / 8)).data x.data).1] := by
    unfold adderDo
    simp only [hop, opFetchAdd]
    cases ho : (s.dramWord (off / 8)).poison <;> cases hx : x.poison <;>
      simp [anyPoison, pdata, wd, hx]
  rw [hdo, dramPut_one_word, dramTouch_dram, hplace]
  split
  · split <;> rfl
  · rfl

/-- SWAP: its one word takes the operand, and the old word goes back. -/
theorem adderDo_swap {x : PWord} (hop : p.op = opSwap) :
    (adderDo s p off [x]).2 = [s.dramWord (off / 8)] ∧
    ∀ j, (adderDo s p off [x]).1.dram.word j =
      if j = off / 8 then (if x.poison then .bad else .good x.data) else s.dram.word j := by
  have hdo : adderDo s p off [x] = (dramPut (dramTouch s off 8) off [x], [s.dramWord (off / 8)]) := by
    unfold adderDo
    simp only [hop, opSwap]
    rfl
  rw [hdo]
  exact ⟨rfl, fun j => by rw [dramPut_one_word, dramTouch_dram]⟩

/-- CAS: where its one word is the compare operand it takes the other operand, and the old word goes back. -/
theorem adderDo_cas {x y : PWord} (hop : p.op = opCas) :
    (adderDo s p off [x, y]).2 = [s.dramWord (off / 8)] ∧
    ∀ j, (adderDo s p off [x, y]).1.dram.word j =
      if j = off / 8 ∧ (s.dramWord (off / 8)).poison = false ∧ x.poison = false ∧ (s.dramWord (off / 8)).data = x.data then
        (if y.poison then .bad else .good y.data) else s.dram.word j := by
  have hdo : adderDo s p off [x, y] = (if (s.dramWord (off / 8)).poison = false ∧ x.poison = false ∧
      (s.dramWord (off / 8)).data = x.data then dramPut (dramTouch s off 8) off [y] else dramTouch s off 8,
      [s.dramWord (off / 8)]) := by
    unfold adderDo
    simp only [hop, opCas]
    cases ho : (s.dramWord (off / 8)).poison <;> cases hx : x.poison <;> simp [pdata, wd, hx]
  rw [hdo]
  refine ⟨rfl, fun j => ?_⟩
  by_cases hhit : (s.dramWord (off / 8)).poison = false ∧ x.poison = false ∧ (s.dramWord (off / 8)).data = x.data
  · simp only [hhit, and_self, and_true, if_true, dramPut_one_word, dramTouch_dram]
  · simp only [hhit, and_false, if_false, dramTouch_dram]

/-- ZERO: every word of its target is a good 0. -/
theorem adderDo_zero_word {x : List PWord} (hop : p.op = opZero) (j : Nat) : (adderDo s p off x).1.dram.word j =
    if off / 8 ≤ j ∧ j < off / 8 + p.len / 8 then .good 0 else s.dram.word j := by
  have hdo : (adderDo s p off x).1 = dramPut s off ((List.replicate (p.len / 8) 0).map .good) := by
    unfold adderDo
    simp only [hop, opZero, List.map_replicate]
  rw [hdo, dramPut_good_word, List.length_replicate]
  refine if_ctx_congr Iff.rfl (fun h => ?_) fun _ => rfl
  rw [List.getD_eq_getElem _ _ (by simp; omega), List.getElem_replicate]

end

/-! ### Serving an operation -/

/-- What a request that a channel picks as operation `op` is. -/
theorem op_of_pick {x : Chan} {op : Nat} {r : ChReq} {i : Nat} (h : x.pick (isOp op) = some (r, i)) :
    (parseAdder r.hdr0 r.hdr1).op = op := by
  have := (Chan.pick_spec h).2.1
  simp only [isOp, Bool.and_eq_true, beq_iff_eq] at this
  exact this.2

section
variable {s : State} {c : ChanId} {r : ChReq} {i op : Nat} (hp : s.powered = true) (hflits : s.hrow.flits = [])
  (hpick : (s.chan c).pick (isOp op) = some (r, i)) (hok : s.privetOk r.cid 0 r.pa true = true)
include hp hflits hpick hok

/-- An operation that a channel picks and admits is performed, and answered. -/
theorem serveNext_adderReq {ca : CaParity} (hca : ca ≠ .failed) :
    ∃ t, serveNext c (isOp op) (adderReq c ca none) s = .next t ∧ (s.dequeued c i).sameButMem t ∧
      t.dram = (adderDo (s.dequeued c i) (parseAdder r.hdr0 r.hdr1) r.pa r.data).1.dram ∧
      ∀ src txn, r.reply = .packet src txn → t.out.getLast? = some (responsePacket c r src txn
        (adderDo (s.dequeued c i) (parseAdder r.hdr0 r.hdr1) r.pa r.data).2) := by
  have hok' : (s.dequeued c i).privetOk r.cid 0 r.pa true = true := hok
  have hreq : adderReq c ca none r (s.dequeued c i) =
      reply (adderDo (s.dequeued c i) (parseAdder r.hdr0 r.hdr1) r.pa r.data).1 c r
        (adderDo (s.dequeued c i) (parseAdder r.hdr0 r.hdr1) r.pa r.data).2 := by
    unfold adderReq
    simp only [hok', Bool.not_true, Bool.false_eq_true, if_false, hca]
    rfl
  have hframe := (adderDo_sameButMem (s.dequeued c i) (parseAdder r.hdr0 r.hdr1) r.pa r.data).reply c r
    (adderDo (s.dequeued c i) (parseAdder r.hdr0 r.hdr1) r.pa r.data).2
  rw [← hreq] at hframe
  refine ⟨_, serveNext_of_pick hp hpick ?_, hframe, ?_, fun src txn hr => ?_⟩
  · rw [hrow_of_sansMem hframe.1]
    exact hflits
  · rw [hreq, reply_dram]
  · rw [hreq, reply_getLast? _ _ _ hr]

/-- R77: an operation whose command/address retry failed leaves its lines poison, and is counted. -/
theorem serveNext_adderReq_failed : ∃ t, serveNext c (isOp op) (adderReq c .failed none) s = .next t ∧
    (t.chan c).ueCount = (s.chan c).ueCount + 1 ∧
    ∀ j, t.dram.word j = if ∃ l ∈ r.lines, l / 8 ≤ j ∧ j < l / 8 + 8 then .bad else s.dram.word j := by
  have hok' : (s.dequeued c i).privetOk r.cid 0 r.pa true = true := hok
  have hreq : ∃ l, adderReq c .failed none r (s.dequeued c i) =
      reply (spoilLines (countUe (s.dequeued c i) c) r.lines) c r l := by
    unfold adderReq
    simp only [hok', Bool.not_true, Bool.false_eq_true, if_false, if_true]
    exact ⟨_, rfl⟩
  obtain ⟨l, hreq⟩ := hreq
  have hframe : (adderReq c .failed none r (s.dequeued c i)).sansMem = (s.dequeued c i).sansMem := by
    rw [hreq]
    exact (sansMem_of_sansChans (sansChans_of_still (reply_still ..))).trans
      ((spoilLines_sansMem ..).trans (sansMem_of_sansChans (countUe_sansChans ..)))
  refine ⟨_, serveNext_of_pick hp hpick ?_, ?_, fun j => ?_⟩
  · rw [hrow_of_sansMem hframe]
    exact hflits
  · simp [hreq]
  · rw [hreq, reply_dram, spoilLines_word]
    rfl

end

end Sys2Proof.Machine
end

section
/-!
POOLs (R90, R91), failed residue checks (R397, R399), and the operations of the adder together.
-/
namespace Sys2Proof.Machine

/-! ### A residue mismatch (R397, R399) -/

theorem endJob_evSeq (s : State) (id : Nat) (st : Status) (idx : BitVec 16) : (endJob s id st idx).evSeq = s.evSeq := by
  have hstop : ∀ t : State, (tidyCores (stopUnits t id)).evSeq = t.evSeq := fun _ => rfl
  unfold endJob
  split
  · exact (hstop _).trans rfl
  · rfl

theorem endAll_evSeq (s : State) (st : Status) : (endAll s st).evSeq = s.evSeq :=
  forL_induct (P := fun t => t.evSeq = s.evSeq) (fun x t h => (endJob_evSeq t x st 0xFFFF).trans h) rfl

/-- A job fault posts one event. -/
theorem jobFault_evSeq (s : State) (o : Owner) (st : Status) (pa : Word) (ch : Nat) :
    (jobFault s o st pa ch).evSeq = s.evSeq + 1 := by
  have h : (enterFaulted (endAll (endJob s o.job st (BitVec.ofNat 16 o.idx)) stLost)).evSeq = s.evSeq :=
    (endAll_evSeq ..).trans (endJob_evSeq ..)
  rw [← h]
  exact raiseEvent_evSeq ..

/-- Naming a suspect posts one event. -/
theorem nameSuspect_evSeq (s : State) (cid : BitVec 12) (u c src : Nat) :
    (nameSuspect s cid u c src).evSeq = s.evSeq + 1 := by
  refine (raiseEvent_evSeq ..).trans (congrArg (· + 1) ?_)
  split <;> rfl

theorem nameSuspect_jobs (s : State) (cid : BitVec 12) (u c src : Nat) : (nameSuspect s cid u c src).jobs = s.jobs := by
  refine (raiseEvent_jobs ..).trans ?_
  split <;> rfl

/-- R397, R399: a mismatch leaves local DRAM, ends every job and posts three events. -/
theorem arithFault_spec (s : State) (o : Owner) (u c lane : Nat) (a : Word) :
    (arithFault s o u c lane a).dram = s.dram ∧ (arithFault s o u c lane a).hrow = s.hrow ∧
    (∀ k, (arithFault s o u c lane a).lives k = false) ∧ (arithFault s o u c lane a).evSeq = s.evSeq + 3 := by
  have hbase := arithFault_base s o u c lane a
  refine ⟨(congrArg State.dram hbase : (arithFault s o u c lane a).base.dram = s.base.dram),
    (congrArg State.hrow hbase : (arithFault s o u c lane a).base.hrow = s.base.hrow), fun k => ?_, ?_⟩
  · have hjobs : (arithFault s o u c lane a).jobs = (jobFault s o stArith 0 0xFFFF).jobs :=
      (nameSuspect_jobs ..).trans (raiseEvent_jobs ..)
    rw [lives_of_jobs hjobs]
    exact jobFault_lives ..
  · refine (nameSuspect_evSeq ..).trans ?_
    rw [raiseEvent_evSeq, jobFault_evSeq]
    ring

/-- A request that ends in a mismatch writes nothing. -/
theorem serveNext_arithFault {s : State} {c : ChanId} {p : ChReq → Bool} {f : ChReq → State → State} {r : ChReq} {i : Nat}
    {o : Owner} {u ch lane : Nat} {a : Word} (hp : s.powered = true) (hflits : s.hrow.flits = [])
    (hpick : (s.chan c).pick p = some (r, i)) (hf : f r (s.dequeued c i) = arithFault (s.dequeued c i) o u ch lane a) :
    ∃ t, serveNext c p f s = .next t ∧ t.dram = s.dram ∧ (∀ id, t.lives id = false) ∧ t.evSeq = s.evSeq + 3 := by
  obtain ⟨hdram, hrow, hlives, hev⟩ := arithFault_spec (s.dequeued c i) o u ch lane a
  refine ⟨_, serveNext_of_pick hp hpick ?_, ?_⟩
  · rw [hf, hrow]
    exact hflits
  · rw [hf]
    exact ⟨hdram, hlives, hev⟩

/-- A sum that its residue shows to be wrong is a mismatch. -/
theorem adderReq_of_wrong {c : Nat} {r : ChReq} {s : State} {b : WrongSum} (hok : s.privetOk r.cid 0 r.pa true = true)
    (hb : adderWrong s (parseAdder r.hdr0 r.hdr1) r.pa r.data b = none) : adderReq c .clean (some b) r s =
      arithFault s (reqOwnerD s r) unitAdder (c / 64) b.lane (BitVec.ofNat 64 (mkPa s.moduleNo 0 r.pa)) := by
  unfold adderReq
  simp only [hok, Bool.not_true, Bool.false_eq_true, if_false, hb]
  rfl

/-- Two compares of a CAS that differ are a mismatch. -/
theorem casReq_of_wrong {c : Nat} {r : ChReq} {s : State} (hok : s.privetOk r.cid 0 r.pa true = true) :
    casReq c .clean true r s =
      arithFault s (reqOwnerD s r) unitAdder (c / 64) 0 (BitVec.ofNat 64 (mkPa s.moduleNo 0 r.pa)) := by
  rw [casReq, if_pos]
  simp [hok]

/-! ### POOL (R90, R91) -/

/-- Every row that a POOL lists lies in regions open to its requester. -/
theorem poolStop_eq_none {s : State} {cid : BitVec 12} {n : Nat} {rows : List Nat}
    (h : ∀ off ∈ rows, s.privetOk cid 0 off false = true ∧ s.privetOk cid 0 (off + n - 1) false = true) :
    s.poolStop cid n rows = none := by
  refine List.findSome?_eq_none_iff.mpr fun off hoff => ?_
  obtain ⟨hfirst, hlast⟩ := h off hoff
  simp [hfirst, hlast]

/-- Reading a POOL's rows changes nothing but counts and events. -/
theorem poolDo_frame (s : State) (p : AdderPkt) (l : List PWord) (order : Nat) :
    (poolDo s p l order).1.sansChans = s.sansChans ∧
    ∀ k, ((poolDo s p l order).1.chan k).queue = (s.chan k).queue :=
  ⟨forL_induct (P := fun t => t.sansChans = s.sansChans) (fun _ _ h => (dramTouch_sansChans ..).trans h) rfl,
    fun k => forL_induct (P := fun t => (t.chan k).queue = (s.chan k).queue)
      (fun _ _ h => (dramTouch_queue ..).trans h) rfl⟩

/-- Responses sent one after another. -/
theorem forL_emit_out {α : Type} (f : α → Output) (l : List α) : ∀ s : State,
    (forL l (fun d s => emit s (f d)) s).out = s.out ++ l.map f := by
  induction l with
  | nil => intro s; simp [forL_nil]
  | cons d l ih => intro s; rw [forL_cons, ih]; simp [emit]

theorem forL_emit_still {α : Type} (f : α → Output) (l : List α) (s : State) :
    (forL l (fun d s => emit s (f d)) s).still = s.still :=
  forL_induct (P := fun t => t.still = s.still) (fun _ _ h => (emit_still ..).trans h) rfl

/-- The state without what a POOL changes: counts, events, the number taken for its order, and contributions to pieces. -/
def State.sansPool (s : State) : State := { s.sansChans with freeCtr := 0, pieces := [] }

theorem sansPool_of_sansChans {s t : State} (h : t.sansChans = s.sansChans) : t.sansPool = s.sansPool := by
  unfold State.sansPool
  rw [h]

/-- The contribution that a POOL makes to a piece. -/
def poolContrib (c seq : Nat) (a : PoolSum) : Contrib := ⟨(c, seq, 0), a.part, a.pooled, a.mismatched, a.poison⟩

/-- The pieces once one of them has a further contribution. -/
def contributed (piece seq : Nat) (k : Contrib) (l : List Piece) : List Piece :=
  updFirst (fun q => q.id == piece) (fun q => { q with got := q.got ++ [(seq, k)] }) l

/-- R91: a POOL's answer is a contribution to its piece, or the packets of its partial and trailer, and nothing else. -/
theorem poolAnswer_spec (c : Nat) (r : ChReq) (p : AdderPkt) (a : PoolSum) (s : State) :
    (poolAnswer c r p a s).sansPool = s.sansPool ∧ (∀ k, (poolAnswer c r p a s).chan k = s.chan k) ∧
    (∀ piece seq, r.reply = .pool piece seq →
      (poolAnswer c r p a s).pieces = contributed piece seq (poolContrib c seq a) s.pieces) ∧
    ∀ src txn, r.reply = .packet src txn → (poolAnswer c r p a s).out = s.out ++
      (packets 4 (partialWords p.acc a.part a.poison ++ [.good (poolTrailer a)])).map (responsePacket c r src txn) := by
  cases hr : r.reply with
  | packet src txn =>
    have hans : poolAnswer c r p a s = forL (packets 4 (partialWords p.acc a.part a.poison ++ [.good (poolTrailer a)]))
        (fun d s => emit s (responsePacket c r src txn d)) s := by
      simp only [poolAnswer, hr]
    have hstill := forL_emit_still (responsePacket c r src txn)
      (packets 4 (partialWords p.acc a.part a.poison ++ [.good (poolTrailer a)])) s
    rw [hans]
    refine ⟨sansPool_of_sansChans (sansChans_of_still hstill), chan_of_still hstill, nofun, fun src' txn' h => ?_⟩
    cases h
    exact forL_emit_out ..
  | pool piece seq =>
    have hans : poolAnswer c r p a s = { s with pieces := contributed piece seq (poolContrib c seq a) s.pieces } := by
      simp only [poolAnswer, hr]
      rfl
    rw [hans]
    refine ⟨rfl, fun _ => rfl, fun piece' seq' h => ?_, nofun⟩
    cases h
    rfl
  | nobody =>
    have hans : poolAnswer c r p a s = s := by simp only [poolAnswer, hr]
    rw [hans]
    exact ⟨rfl, fun _ => rfl, nofun, nofun⟩

/-- The state with the number taken that orders a POOL's reads, where its packet gives no order (R90). -/
def State.ordering (s : State) (p : AdderPkt) : State := if p.ordered then s else { s with freeCtr := s.freeCtr + 1 }

/-- That number. -/
def State.poolOrder (s : State) (p : AdderPkt) : Nat := if p.ordered then 0 else Config.freeValue s.freeCtr

/-- A POOL whose rows are open to it reads and sums them, and answers. -/
theorem poolReq_of_open {c : Nat} {ca : CaParity} {r : ChReq} {s : State} (hca : ca ≠ .failed)
    (hopen : s.poolStop r.cid (8 * rowWords (parseAdder r.hdr0 r.hdr1).src (parseAdder r.hdr0 r.hdr1).elems)
      (poolRows (parseAdder r.hdr0 r.hdr1) r.data) = none) :
    poolReq c ca none r s = poolAnswer c r (parseAdder r.hdr0 r.hdr1)
      (poolDo s (parseAdder r.hdr0 r.hdr1) r.data (s.poolOrder (parseAdder r.hdr0 r.hdr1))).2
      (poolDo (s.ordering (parseAdder r.hdr0 r.hdr1)) (parseAdder r.hdr0 r.hdr1) r.data
        (s.poolOrder (parseAdder r.hdr0 r.hdr1))).1 := by
  unfold poolReq State.ordering State.poolOrder
  simp only [hopen, hca, if_false]
  cases (parseAdder r.hdr0 r.hdr1).ordered <;> rfl

/-- R90, R91: what a POOL does that a channel picks and whose rows are open to it. -/
theorem exec_adderPool_spec {s : State} {c : ChanId} {r : ChReq} {i : Nat} {ca : CaParity} (hp : s.powered = true)
    (hflits : s.hrow.flits = []) (hca : ca ≠ .failed) (hpick : (s.chan c).pick (isOp opPool) = some (r, i))
    (hopen : s.poolStop r.cid (8 * rowWords (parseAdder r.hdr0 r.hdr1).src (parseAdder r.hdr0 r.hdr1).elems)
      (poolRows (parseAdder r.hdr0 r.hdr1) r.data) = none) :
    ∃ t u, exec (.adderPool c ca none) s = .next t ∧ t.sansPool = s.sansPool ∧
      (t.chan c).queue = (s.chan c).queue.eraseIdx i ∧ u.pieces = s.pieces ∧
      t = poolAnswer c r (parseAdder r.hdr0 r.hdr1)
        (poolDo s (parseAdder r.hdr0 r.hdr1) r.data (s.poolOrder (parseAdder r.hdr0 r.hdr1))).2 u := by
  have hopen' : (s.dequeued c i).poolStop r.cid
      (8 * rowWords (parseAdder r.hdr0 r.hdr1).src (parseAdder r.hdr0 r.hdr1).elems)
      (poolRows (parseAdder r.hdr0 r.hdr1) r.data) = none := hopen
  generalize hpkt : parseAdder r.hdr0 r.hdr1 = p at *
  have hreq : poolReq c ca none r (s.dequeued c i) = poolAnswer c r p (poolDo s p r.data (s.poolOrder p)).2
      (poolDo ((s.dequeued c i).ordering p) p r.data (s.poolOrder p)).1 := by
    subst hpkt
    exact poolReq_of_open hca hopen'
  obtain ⟨hrows, hqueue⟩ := poolDo_frame ((s.dequeued c i).ordering p) p r.data (s.poolOrder p)
  generalize (poolDo ((s.dequeued c i).ordering p) p r.data (s.poolOrder p)).1 = u at hreq hrows hqueue
  obtain ⟨hpool, hchan, -, -⟩ := poolAnswer_spec c r p (poolDo s p r.data (s.poolOrder p)).2 u
  have hord : ((s.dequeued c i).ordering p).sansPool = s.sansPool ∧
      ((s.dequeued c i).ordering p).pieces = s.pieces ∧
      (((s.dequeued c i).ordering p).chan c).queue = (s.chan c).queue.eraseIdx i := by
    unfold State.ordering
    split <;> exact ⟨rfl, rfl, dequeued_queue ..⟩
  obtain ⟨hopool, hopieces, hoqueue⟩ := hord
  have hall := hpool.trans ((sansPool_of_sansChans hrows).trans hopool)
  refine ⟨_, u, (exec_adderPool ..).trans (serveNext_of_pick hp hpick ?_), ?_, ?_, ?_, hreq⟩
  · rw [hreq]
    exact (congrArg (fun t => t.hrow.flits) hall).trans hflits
  · rw [hreq]
    exact hall
  · rw [hreq, hchan, hqueue, hoqueue]
  · exact (congrArg State.pieces hrows : u.sansChans.pieces = State.pieces (State.sansChans _)).trans hopieces

end Sys2Proof.Machine
end

section
/-!
The operations of the adder together.
-/
namespace Sys2Proof.Machine

/-- The operand of an operation on one word. -/
theorem data_of_length_one {l : List PWord} (h : l.length = 1) : l = [l.getD 0 PWord.bad] := by
  obtain ⟨x, rfl⟩ := List.length_eq_one_iff.mp h
  rfl

/-- The two operands of a CAS. -/
theorem data_of_length_two {l : List PWord} (h : l.length = 2) : l = [l.getD 0 PWord.bad, l.getD 1 PWord.bad] := by
  obtain ⟨x, y, rfl⟩ := List.length_eq_two.mp h
  rfl

theorem kept_of_sansPool {s t : State} (h : t.sansPool = s.sansPool) :
    t.dram = s.dram ∧ t.jobs = s.jobs ∧ t.cores = s.cores :=
  ⟨(congrArg State.dram h : t.sansPool.dram = s.sansPool.dram), (congrArg State.jobs h : t.sansPool.jobs = s.sansPool.jobs),
    (congrArg State.cores h : t.sansPool.cores = s.sansPool.cores)⟩

/-- Settles O19: a picked and admitted operation leaves what `adderDo` computes; a POOL's reads and its answer change no word;
a failed residue check is an arithmetic fault; and the checksum modulo 7 of a sum sees every flipped bit. -/
theorem adderOps : Obligations.AdderOps := by
  unfold Obligations.AdderOps
  refine ⟨fun s c r i ca hp hflits hca hok => ⟨?add, ?addFx, ?fetchAdd, ?swap, ?cas, ?zero⟩, ?pool, ?residue,
    wrongInt_add (by decide), wrongInt_add (by decide)⟩
  case add =>
    intro hpick hlen
    obtain ⟨t, ht, hsame, hdram, -⟩ := serveNext_adderReq hp hflits hpick hok hca
    refine ⟨t, (exec_adderAdd ..).trans ht, (hsame.2 c).trans (dequeued_queue ..), fun j => ?_⟩
    rw [hdram]
    exact adderDo_add_word (op_of_pick hpick) hlen j
  case addFx =>
    intro hpick hlen
    obtain ⟨t, ht, -, hdram, -⟩ := serveNext_adderReq hp hflits hpick hok hca
    refine ⟨t, (exec_adderAddFx ..).trans ht, fun j => ?_⟩
    rw [hdram]
    exact adderDo_addFx_word (op_of_pick hpick) hlen j
  case fetchAdd =>
    intro hpick hlen
    obtain ⟨t, ht, -, hdram, -⟩ := serveNext_adderReq hp hflits hpick hok hca
    refine ⟨t, (exec_adderFetchAdd ..).trans ht, fun j => ?_⟩
    rw [hdram, data_of_length_one hlen]
    exact adderDo_fetchAdd_word (op_of_pick hpick) j
  case swap =>
    intro hpick hlen
    obtain ⟨t, ht, -, hdram, hreply⟩ := serveNext_adderReq hp hflits hpick hok hca
    rw [data_of_length_one hlen] at hdram hreply
    obtain ⟨hold, hword⟩ := adderDo_swap (s := s.dequeued c i) (off := r.pa) (x := r.data.getD 0 PWord.bad)
      (op_of_pick hpick)
    refine ⟨t, (exec_adderSwap ..).trans ht, fun src txn hr => ?_, fun j => ?_⟩
    · rw [hreply src txn hr, hold]
      rfl
    · rw [hdram]
      exact hword j
  case cas =>
    intro hpick hlen
    obtain ⟨t, ht, -, hdram, hreply⟩ := serveNext_adderReq hp hflits hpick hok hca
    rw [data_of_length_two hlen] at hdram hreply
    obtain ⟨hold, hword⟩ := adderDo_cas (s := s.dequeued c i) (off := r.pa) (x := r.data.getD 0 PWord.bad)
      (y := r.data.getD 1 PWord.bad) (op_of_pick hpick)
    refine ⟨t, (exec_adderCas ..).trans (casReq_false c ca ▸ ht), fun src txn hr => ?_, fun j => ?_⟩
    · rw [hreply src txn hr, hold]
      rfl
    · rw [hdram]
      exact hword j
  case zero =>
    intro hpick
    obtain ⟨t, ht, -, hdram, -⟩ := serveNext_adderReq hp hflits hpick hok hca
    refine ⟨t, (exec_adderZero ..).trans ht, fun j => ?_⟩
    rw [hdram]
    exact adderDo_zero_word (op_of_pick hpick) j
  case pool =>
    intro s c r i ca hp hflits hca hpick p a hopen
    obtain ⟨t, u, ht, hstill, hqueue, hpieces, hans⟩ := exec_adderPool_spec hp hflits hca hpick (poolStop_eq_none hopen)
    obtain ⟨hdram, hjobs, hcores⟩ := kept_of_sansPool hstill
    obtain ⟨-, -, hcontrib, hpackets⟩ := poolAnswer_spec c r p a u
    refine ⟨t, ht, hdram, hjobs, hcores, hqueue,
      fun piece seq hr => ?_, fun src txn hr => ⟨u.out, ?_⟩⟩
    · rw [hans, ← hpieces]
      exact hcontrib piece seq hr
    · rw [hans]
      exact hpackets src txn hr
  case residue =>
    intro s c r i hp hflits hok
    refine ⟨fun hpick b hb => ?_, fun hpick => ?_, fun op k hmem hpick => ?_⟩
    · exact serveNext_arithFault hp hflits hpick (adderReq_of_wrong hok hb)
    · exact serveNext_arithFault hp hflits hpick (casReq_of_wrong hok)
    · have hexec : exec k s = serveNext c (isOp op) (adderReq c .failed none) s := by
        simp only [List.mem_cons, Prod.mk.injEq, List.not_mem_nil, or_false] at hmem
        obtain ⟨rfl, rfl⟩ | ⟨rfl, rfl⟩ | ⟨rfl, rfl⟩ | ⟨rfl, rfl⟩ | ⟨rfl, rfl⟩ | ⟨rfl, rfl⟩ := hmem
        exacts [exec_adderAdd .., exec_adderAddFx .., exec_adderFetchAdd .., exec_adderSwap .., exec_adderCas ..,
          exec_adderZero ..]
      rw [hexec]
      exact serveNext_adderReq_failed hp hflits hpick hok

end Sys2Proof.Machine
end

section
/-!
Stack temperatures (R71, R72), refresh windows (R70) and scrubbing (R65, R76, R77).
-/
namespace Sys2Proof.Machine

theorem exec_stackTempSample (temps : List (List Int)) (s : State) :
    exec (.stackTempSample temps) s = execStackTempSample temps s := rfl

theorem exec_stackThermalEvent (h : HedgeId) (temp : Int) (s : State) :
    exec (.stackThermalEvent h temp) s = execStackThermalEvent h temp s := rfl

theorem exec_refreshWindow (c : ChanId) (s : State) : exec (.refreshWindow c) s = execRefreshWindow c s := rfl

theorem exec_scrubLine (c : ChanId) (ca : CaParity) (s : State) : exec (.scrubLine c ca) s = execScrubLine c ca s := rfl

/-! ### Temperatures -/

theorem thermalEvent_cores (s : State) (stack hedge : Nat) (temp : Int) : (thermalEvent s stack hedge temp).cores = s.cores :=
  (congrArg State.cores (thermalEvent_still s stack hedge temp) : State.cores (State.still _) = State.cores (State.still _))

theorem thermalEvent_chans (s : State) (stack hedge : Nat) (temp : Int) : (thermalEvent s stack hedge temp).chans = s.chans :=
  (congrArg State.chans (thermalEvent_still s stack hedge temp) : State.chans (State.still _) = State.chans (State.still _))

/-- The hottest of the readings is one of them, and none is above it. -/
theorem hottestDie_spec {l : List Int} (h : l ≠ []) : hottestDie l ∈ l ∧ ∀ y ∈ l, y ≤ hottestDie l := by
  refine List.max?_eq_some_iff.mp ?_
  cases l with
  | nil => exact absurd rfl h
  | cons x l => rw [List.max?_cons', hottestDie, List.foldl_cons, List.headD_cons, max_self]

/-- A list of twelve rows has twelve readings in each. -/
theorem row_ne_nil {temps : List (List Int)} (hw : (Instr.stackTempSample temps).wf = true) {h : Nat} (hh : h < 12) :
    temps.getD h [] ≠ [] := by
  simp only [Instr.wf, twelve, Bool.and_eq_true, beq_iff_eq, List.all_eq_true] at hw
  obtain ⟨hrows, hdies⟩ := hw
  have hlt : h < temps.length := by omega
  rw [List.getD_eq_getElem _ _ hlt]
  refine List.ne_nil_of_length_pos ?_
  rw [hdies _ (List.getElem_mem hlt)]
  decide

theorem exec_stackTempSample_eq {s : State} {temps : List (List Int)} (hp : s.powered = true)
    (hw : (Instr.stackTempSample temps).wf = true) (hd : due s mkStackTemp 10000 = true) :
    exec (.stackTempSample temps) s = .next (mark
      (forN 12 (fun h s' => upHedge s' h (sampleStack s.ticker (hottestDie (temps.getD h [])))) s) mkStackTemp 10000) := by
  rw [exec_stackTempSample, execStackTempSample, guardWf_of_wf _ _ hw, whenPowered_of_powered hp, if_pos hd]

theorem exec_stackThermalEvent_eq {s : State} {h : HedgeId} {temp : Int} (hf : s.fwRuns = true)
    (hd : due s (mkStack h) 10000000 = true) (ht : 950 < temp) : exec (.stackThermalEvent h temp) s = .next
      (mark (thermalEvent (upHedge s h (fun x => { x with tstack := temp })) h 0xFF temp) (mkStack h) 10000000) := by
  rw [exec_stackThermalEvent, execStackThermalEvent, whenFw_of_fwRuns hf, if_pos (by simp [hd, ht])]

/-! ### Scrubbing -/

theorem slots_of_sansMem {s t : State} (h : t.sansMem = s.sansMem) : t.slots = s.slots :=
  (congrArg State.slots h : t.sansMem.slots = s.sansMem.slots)

theorem xl_of_sansMem {s t : State} (h : t.sansMem = s.sansMem) : t.xl = s.xl :=
  (congrArg State.xl h : t.sansMem.xl = s.sansMem.xl)

theorem scrubPos_of_sansErrors {x y : Chan} (h : x.sansErrors = y.sansErrors) : x.scrubPos = y.scrubPos :=
  (congrArg Chan.scrubPos h : x.sansErrors.scrubPos = y.sansErrors.scrubPos)

theorem scrubPasses_of_sansErrors {x y : Chan} (h : x.sansErrors = y.sansErrors) : x.scrubPasses = y.scrubPasses :=
  (congrArg Chan.scrubPasses h : x.sansErrors.scrubPasses = y.sansErrors.scrubPasses)

/-- A word written back reads as it did. -/
theorem Mem.word_settle (m : Mem) (i j : Nat) : (m.settle i).word j = m.word j := by
  unfold Mem.settle
  split
  · rfl
  · rw [Mem.word_putWord, Mem.word_canonical]
    split
    · rename_i hj
      rw [hj]
    · rfl

theorem Mem.word_foldl_settle {α : Type} (f : α → Nat) (l : List α) (m : Mem) (j : Nat) :
    (l.foldl (fun m e => m.settle (f e)) m).word j = m.word j := by
  induction l generalizing m with
  | nil => rfl
  | cons e l ih => rw [List.foldl_cons, ih, Mem.word_settle]

/-- The states that a scrubber may leave: every word reads as before, and only error counts and hedges change beside it. -/
def State.scrubbed (s t : State) : Prop :=
  t.sansMem = s.sansMem ∧ (∀ k, (t.chan k).sansErrors = (s.chan k).sansErrors) ∧ ∀ i, t.dram.word i = s.dram.word i

theorem State.scrubbed.trans {s t u : State} (h : s.scrubbed t) (h' : t.scrubbed u) : s.scrubbed u :=
  ⟨h'.1.trans h.1, fun k => (h'.2.1 k).trans (h.2.1 k), fun i => (h'.2.2 i).trans (h.2.2 i)⟩

theorem scrubHalf_scrubbed (a : Nat) (s : State) : s.scrubbed (scrubHalf a s) := by
  have htouch : s.scrubbed (dramTouch s a 32) :=
    ⟨sansMem_of_sansChans (dramTouch_sansChans ..), dramTouch_chan s a 32,
      fun i => by rw [dram_of_sansChans (dramTouch_sansChans s a 32)]⟩
  unfold scrubHalf
  simp only
  split
  · exact htouch
  · refine htouch.trans ⟨rfl, fun _ => rfl, fun i => ?_⟩
    rw [dram_of_sansChans (dramTouch_sansChans s a 32)]
    exact Mem.word_foldl_settle Prod.fst _ _ i

theorem countUe_scrubbed (s : State) (c : Nat) : s.scrubbed (countUe s c) := by
  refine ⟨rfl, fun k => ?_, fun _ => rfl⟩
  rw [countUe, upChan_chan]
  split
  · rename_i hk
    rw [hk]
    rfl
  · rfl

/-- What the read of a line, with its command/address parity, does. -/
def scrubRead (c : Nat) (ca : CaParity) (s : State) : State :=
  if ca = .failed then countUe s c else forL (s.scrubHalves c (s.chan c).scrubPos) scrubHalf s

theorem scrubRead_scrubbed (c : Nat) (ca : CaParity) (s : State) : s.scrubbed (scrubRead c ca s) := by
  unfold scrubRead
  split
  · exact countUe_scrubbed s c
  · exact forL_induct (P := s.scrubbed) (fun a _ h => h.trans (scrubHalf_scrubbed a _)) ⟨rfl, fun _ => rfl, fun _ => rfl⟩

/-- The scrubber's step to its next line. -/
def Chan.scrubNext (x : Chan) : Chan := { x with
  scrubPos := (x.scrubPos + 1) % channelLines
  scrubPasses := x.scrubPasses + b2n (x.scrubPos + 1 == channelLines) }

theorem mark_chan (s : State) (k p c : Nat) : (mark s k p).chan c = s.chan c := rfl

/-- The scrubber's step: the line at its place is read, and its place moves on. -/
def scrubStep (c : Nat) (ca : CaParity) (s : State) : State := upChan (scrubRead c ca s) c Chan.scrubNext

theorem scrubStep_spec (s : State) (c : Nat) (ca : CaParity) : (scrubStep c ca s).sansMem = s.sansMem ∧
    ((scrubStep c ca s).chan c).scrubPos = ((s.chan c).scrubPos + 1) % channelLines ∧
    ((scrubStep c ca s).chan c).scrubPasses =
      (s.chan c).scrubPasses + b2n ((s.chan c).scrubPos + 1 == channelLines) ∧
    (∀ i, (scrubStep c ca s).dram.word i = s.dram.word i) ∧
    (ca = .failed → (scrubStep c ca s).dram = s.dram ∧
      ((scrubStep c ca s).chan c).ueCount = (s.chan c).ueCount + 1) := by
  obtain ⟨hmem, hchan, hword⟩ := scrubRead_scrubbed c ca s
  have hnext : (scrubStep c ca s).chan c = ((scrubRead c ca s).chan c).scrubNext := by
    rw [scrubStep, upChan_chan, if_pos rfl]
  rw [hnext, Chan.scrubNext, scrubPos_of_sansErrors (hchan c), scrubPasses_of_sansErrors (hchan c)]
  refine ⟨hmem, rfl, rfl, hword, fun hca => ?_⟩
  rw [scrubStep, scrubRead, if_pos hca]
  exact ⟨rfl, countUe_ueCount s c⟩

theorem exec_scrubLine_eq {s : State} {c : ChanId} {ca : CaParity} (hp : s.powered = true) (hon : s.scrubOn = true)
    (href : s.time.refLoss = false) (hu : (s.chan c).urgent = false) (hd : due s (mkScrub c) (s.scrubPeriod c) = true) :
    exec (.scrubLine c ca) s = .next (scrubStep c ca (mark s (mkScrub c) (s.scrubPeriod c))) := by
  rw [exec_scrubLine, execScrubLine, whenPowered_of_powered hp, if_pos (by simp [hon, href, hu, hd])]
  rfl

/-- R65: a channel that owes an LC request service is not scrubbed. -/
theorem exec_scrubLine_of_urgent {s : State} {c : ChanId} {ca : CaParity} (hp : s.powered = true)
    (hu : (s.chan c).urgent = true) : exec (.scrubLine c ca) s = .next s := by
  rw [exec_scrubLine, execScrubLine, whenPowered_of_powered hp, if_neg (by simp [hu])]

/-- Settles O17: samples and events hedge by hedge; a line that is scrubbed is read, and what is written back reads the same. -/
theorem stackUpkeep : Obligations.StackUpkeep := by
  unfold Obligations.StackUpkeep
  refine ⟨fun s temps hp hw hd => ?sample, fun s h temp hf hd ht => ?event, fun s c hp ho => ?refresh,
    fun s c ca hp hon href hu hd => ?scrub, fun s c ca hp hu => exec_scrubLine_of_urgent hp hu⟩
  case sample =>
    obtain ⟨hs, heq, hget⟩ := forN_upHedge 12 (fun h => sampleStack s.ticker (hottestDie (temps.getD h []))) s
    refine ⟨_, exec_stackTempSample_eq hp hw hd, fun h hh => ?_, ?_⟩
    · obtain ⟨hmem, hmax⟩ := hottestDie_spec (row_ne_nil hw hh)
      refine ⟨_, hmem, hmax, ?_⟩
      rw [heq]
      exact (hget h).trans (if_pos hh)
    · rw [heq]
      rfl
  case event =>
    refine ⟨_, exec_stackThermalEvent_eq hf hd ht, ?_, raiseEvent_evSeq .., fun k => ?_, thermalEvent_dram ..,
      thermalEvent_jobs .., thermalEvent_cores .., thermalEvent_chans ..⟩
    · rw [mark_pwr, thermalEvent_pwr]
      rfl
    · refine (thermalEvent_hedge _ _ _ _ k).trans ?_
      rw [upHedge_hedge]
      split
      · rename_i hk
        rw [hk]
      · rfl
  case refresh =>
    rw [exec_refreshWindow, execRefreshWindow, whenPowered_of_powered hp, if_pos ho]
    rfl
  case scrub =>
    obtain ⟨hmem, hpos, hpasses, hword, hfailed⟩ := scrubStep_spec (mark s (mkScrub c) (s.scrubPeriod c)) c ca
    rw [mark_chan] at hpos hpasses hfailed
    rw [mark_dram] at hword hfailed
    exact ⟨_, exec_scrubLine_eq hp hon href hu hd, hpos, hpasses, hword, (jobs_of_sansMem hmem).trans (mark_jobs ..),
      (cores_of_sansMem hmem).trans (mark_cores ..), (slots_of_sansMem hmem).trans (mark_slots ..),
      (xl_of_sansMem hmem).trans (mark_xl ..), hfailed⟩

end Sys2Proof.Machine
end

section
/-!
Admin commands that start: SET_MODE row by row (R494), SET_POWER_CAP (R617) and SET_GROOM_POLICY (R400).
-/
namespace Sys2Proof.Machine

/-! ### The request of a command that starts -/

section
variable (s : State) (f : FnId) (k : SlotId)

/-- The command's slot once it executes. -/
theorem begun_mail : (s.begun f k).mail (mailKey f k) = { s.mail (mailKey f k) with state := 2, started := true } := by
  simp [State.begun]

@[simp] theorem begun_req (n : Nat) : (s.begun f k).req (mailKey f k) n = s.req (mailKey f k) n := by
  simp only [State.req, begun_mail]

@[simp] theorem begun_reqF (n hi lo : Nat) : (s.begun f k).reqF (mailKey f k) n hi lo = s.reqF (mailKey f k) n hi lo := by
  simp only [State.reqF, begun_req]

/-- The command's slot once firmware has taken it (R480). -/
def State.taken : State := upMail s (mailKey f k) (fun m => { m with state := 2 })

theorem taken_mail : (s.taken f k).mail (mailKey f k) = { s.mail (mailKey f k) with state := 2 } := by
  simp [State.taken]

theorem taken_req (n : Nat) : (s.taken f k).req (mailKey f k) n = s.req (mailKey f k) n := by
  simp only [State.req, taken_mail]

theorem taken_reqF (n hi lo : Nat) : (s.taken f k).reqF (mailKey f k) n hi lo = s.reqF (mailKey f k) n hi lo := by
  simp only [State.reqF, taken_req]

theorem taken_modeReserved : modeReserved (s.taken f k) (mailKey f k) = modeReserved s (mailKey f k) := by
  simp only [modeReserved, State.tailZero, taken_reqF, taken_mail]

theorem taken_modeOk : modeOk (s.taken f k) (mailKey f k) = modeOk s (mailKey f k) := by
  simp only [modeOk, taken_req, taken_reqF]

end

/-! ### Starting -/

section
variable {s : State} {f : FnId} {k : SlotId}

/-- A command that may start executes. -/
theorem admin_of_starts {op : Nat} (h : s.starts f k op) (body : State → State) :
    admin s f k op false body = body (s.begun f k) := by
  obtain ⟨hfw, hopen, hnew, hop, hturn, href, hready⟩ := h
  have href' : (s.taken f k).refusal f (s.mail (mailKey f k)) false = none := href
  have hready' : (s.taken f k).waitsReady (s.mail (mailKey f k)) = false := hready
  rw [admin, whenFw_of_fwRuns hfw]
  simp only [hopen, hnew, hop, Bool.not_false, Bool.and_self, beq_self_eq_true, if_true, hturn]
  rw [← State.taken, href']
  simp only [hready', Bool.false_eq_true, if_false]
  rfl

/-- A field that holds a set bit is not 0. -/
theorem fld_four_ne_zero {w : Word} (h : bit w 0 = true) : fld w 4 0 ≠ 0 := by
  have hodd : w.toNat % 2 = 1 := by simpa [bit, BitVec.getLsbD, Nat.testBit_zero] using h
  simp only [fld, nbits, Nat.shiftRight_zero]
  omega

/-- A row of a SET_MODE that may start, whose fields and values are right and which is still to be applied, is applied. -/
theorem setMode_of_starts (h : s.starts f k 0x30) (hres : modeReserved s (mailKey f k) = false)
    (hok : modeOk s (mailKey f k) = true) (happ : (s.mail (mailKey f k)).applied = 0)
    (hwait : ∀ w ∈ s.adminWaits, ∀ l b, w ≠ .wardens f k l (.mode b)) (b : Nat)
    (hb : bit (s.req (mailKey f k) 0) b = true) (act : State → State) :
    setMode s f k b act = act (modeApply (s.begun f k) (mailKey f k) b) := by
  obtain ⟨hfw, hopen, hnew, hop, hturn, href, hready⟩ := h
  have href' : (s.taken f k).refusal f (s.mail (mailKey f k)) false = none := href
  have hready' : (s.taken f k).waitsReady (s.mail (mailKey f k)) = false := hready
  have hop' : (s.mail (mailKey f k)).opcode = 0x30 := BitVec.eq_of_toNat_eq hop
  have hidle : (s.begun f k).modeWaits f k b = false := by
    refine List.any_eq_false.mpr fun w hw => ?_
    split
    · rename_i g j l x
      simp only [Bool.and_eq_true, beq_iff_eq]
      rintro ⟨⟨rfl, rfl⟩, -⟩
      exact hwait _ hw l x rfl
    · exact Bool.false_ne_true
  have hdue : (s.begun f k).modeDue f k b = true := by
    simp [State.modeDue, begun_mail, hb, happ, hidle]
  have hsome : ¬(b = 0 ∧ (s.begun f k).reqF (mailKey f k) 0 4 0 = 0) := by
    rintro ⟨rfl, hnone⟩
    rw [begun_reqF] at hnone
    exact fld_four_ne_zero hb hnone
  rw [setMode, whenFw_of_fwRuns hfw]
  simp only [hopen, hnew, hop', Bool.and_self, beq_self_eq_true, if_true, hturn, Bool.false_eq_true, if_false]
  rw [← State.taken, taken_modeReserved, hres, href']
  simp only [hready', Bool.false_eq_true, if_false, taken_modeOk, hok, if_true]
  exact (if_neg hsome).trans (if_pos hdue)

end

/-- Settles O29: a command that may start executes its body on the state in which it has started. -/
theorem adminModesAndPolicies : Obligations.AdminModesAndPolicies := by
  unfold Obligations.AdminModesAndPolicies
  refine ⟨fun s f k hs hres hok happ hwait => ?modes, fun s f k => ⟨fun hs hfld htail => ?cap, fun hs hfld htail => ?groom⟩⟩
  case modes =>
    have hset := setMode_of_starts hs hres hok happ hwait
    refine ⟨fun hb => ?_, fun hb => ?_, fun hb => ?_, fun hb => ?_, fun hb => ?_⟩
    · refine congrArg Host.Outcome.next ((hset 0 hb _).trans ?_)
      simp only [modeApply, begun_req]
      rfl
    · refine congrArg Host.Outcome.next ((hset 1 hb _).trans ?_)
      simp only [modeApply, begun_req]
      rfl
    · refine congrArg Host.Outcome.next ((hset 2 hb _).trans ?_)
      simp only [modeApply, begun_reqF]
      rfl
    · refine congrArg Host.Outcome.next ((hset 3 hb _).trans ?_)
      simp only [modeApply, begun_reqF]
    · refine congrArg Host.Outcome.next ((hset 4 hb _).trans ?_)
      simp only [modeApply, begun_req]
      rfl
  case cap =>
    have hexec : exec (.setPowerCap f k) s = execSetPowerCap f k s := rfl
    rw [hexec, execSetPowerCap]
    simp only [hfld, htail, ne_eq, not_true_eq_false, decide_false, Bool.not_true, Bool.or_self, admin_of_starts hs, begun_reqF]
    rfl
  case groom =>
    have hexec : exec (.setGroomPolicy f k) s = execSetGroomPolicy f k s := rfl
    rw [hexec, execSetGroomPolicy]
    simp only [hfld, htail, ne_eq, not_true_eq_false, decide_false, Bool.not_true, Bool.or_self, admin_of_starts hs,
      begun_reqF, begun_req]
    rfl

end Sys2Proof.Machine
end

section
/-!
The movers: the descriptor at the head of a MOVE queue (R81, R266, R268), its completion (R84), and a plain tile that lands in a
scratchpad.
-/
namespace Sys2Proof.Machine

theorem exec_moveDescriptor (c : CoreId) (ext : List PWord) (s : State) :
    exec (.moveDescriptor c ext) s = execMoveDescriptor c ext s := rfl

theorem exec_moveComplete (c : CoreId) (s : State) : exec (.moveComplete c) s = execMoveComplete c s := rfl

/-! ### The head of a MOVE queue -/

section
variable {s : State} {c : CoreId} {e : QEntry} {l : List QEntry} {ext : List PWord} (hp : s.powered = true)
  (hq : (s.core c).qMove = e :: l)
include hp hq

/-- A descriptor whose turn has not come stays where it is. -/
theorem exec_moveDescriptor_of_not_turn (hturn : s.moveTurn c e = false) : exec (.moveDescriptor c ext) s = .next s := by
  rw [exec_moveDescriptor, execMoveDescriptor, whenPowered_of_powered hp]
  simp only [hq, hturn, or_true, if_true]

/-- A descriptor whose turn has come is taken, and refused or run. -/
theorem exec_moveDescriptor_of_turn (hwait : s.tileWaits e.owner (some c) none = false) (hturn : s.moveTurn c e = true) :
    exec (.moveDescriptor c ext) s = .next (
      if anyPoison e.desc = true then failJob (takeMove s c e) e.owner stPoisoned
      else match moveRefusal (pdata e.desc) with
        | some st => failJob (takeMove s c e) e.owner st
        | none => moveTiles c e.owner (parseMove (pdata e.desc)) ext
            ((parseMove (pdata e.desc)).tiles - e.tilesDone) e.tilesDone (takeMove s c e)) := by
  rw [exec_moveDescriptor, execMoveDescriptor, whenPowered_of_powered hp]
  simp only [hq, hwait, hturn, Bool.false_eq_true, Bool.true_eq_false, or_self, if_false] <;> rfl

/-- A descriptor all of whose tiles are copied and whose writes are acknowledged leaves. -/
theorem exec_moveComplete_of_quiet (hb : e.begun = true) (hdone : (parseMove (pdata e.desc)).tiles ≤ e.tilesDone)
    (hquiet : s.quiet e.owner = true) :
    exec (.moveComplete c) s = .next (upCore s c (fun k => { k with qMove := l })) := by
  rw [exec_moveComplete, execMoveComplete, whenPowered_of_powered hp]
  simp only [hq, hb, hdone, hquiet, and_self, if_true]

/-- A descriptor with writes still to be acknowledged stays. -/
theorem exec_moveComplete_of_not_quiet (hquiet : s.quiet e.owner = false) : exec (.moveComplete c) s = .next s := by
  rw [exec_moveComplete, execMoveComplete, whenPowered_of_powered hp]
  simp only [hq, hquiet, Bool.false_eq_true, and_false, if_false]

end

/-- A core is one of the three of its mover. -/
theorem eq_mover_core (k : Nat) : k = 3 * moverOf k + k % 3 := by
  unfold moverOf b2n
  split <;> rename_i h <;> simp only [decide_eq_true_eq] at h <;> omega

/-- R266: while an LC descriptor waits for the mover, no BE one has its turn. -/
theorem moveTurn_of_lc_waits {s : State} {c k : Nat} {e : QEntry} (hlc : e.owner.lc = false) (hb : e.begun = false)
    (hk : moverOf k = moverOf c) (hw : s.moveWaits k true = true) : s.moveTurn c e = false := by
  have hany : (List.range 3).any (fun i => s.moveWaits (3 * moverOf c + i % 3) true) = true := by
    refine List.any_eq_true.mpr ⟨k % 3, List.mem_range.mpr (Nat.mod_lt _ (by decide)), ?_⟩
    rw [Nat.mod_mod, ← hk, ← eq_mover_core]
    exact hw
  unfold State.moveTurn
  simp only [hb, hlc, hany, Bool.not_true, Bool.or_self, Bool.false_and]

/-! ### A plain tile into a scratchpad -/

theorem digestAdd_cores (s : State) (o : Owner) (tag : Word) (data : List Byte) : (digestAdd s o tag data).cores = s.cores := by
  unfold digestAdd
  split
  · rfl
  · split <;> rfl

/-- A digest leaves the cores alone. -/
theorem spDigest_cores (s : State) (c : Nat) (o : Owner) (a n : Nat) : (spDigest s c o a n).cores = s.cores := by
  unfold spDigest
  split
  · exact forL_induct (P := fun t => t.cores = s.cores) (fun x t h => (digestAdd_cores ..).trans h) rfl
  · rfl

/-- A word of the scratchpad after a job's write. -/
theorem spPut_scratch_word (s : State) (c : Nat) (o : Owner) (a : Nat) (l : List PWord) (i : Nat) :
    ((spPut s c o a l).core c).scratch.word i = if a / 8 ≤ i ∧ i < a / 8 + l.length then
      (if (l.getD (i - a / 8) PWord.bad).poison then .bad else .good (l.getD (i - a / 8) PWord.bad).data)
    else (s.core c).scratch.word i := by
  have hcore : (spPut s c o a l).core c = { s.core c with scratch := (s.core c).scratch.putWords (a / 8) l } := by
    rw [State.core, spPut, spDigest_cores]
    exact (upCore_core ..).trans (if_pos rfl)
  rw [hcore]
  simp only
  rw [Mem.word_putWords]
  split
  · rw [List.getD_eq_getElem _ _ (by omega)]
  · rfl

theorem upMoveHead_scratch (s : State) (c : Nat) (f : QEntry → QEntry) :
    ((upMoveHead s c f).core c).scratch = (s.core c).scratch := by
  rw [upMoveHead, upCore_core, if_pos rfl]

/-- Verification counts, and leaves the cores alone. -/
theorem verifyTile_cores (s : State) (u : Nat) (cid : BitVec 12) (src len a n : Nat) :
    (verifyTile s u cid src len a n).1.cores = s.cores := by
  unfold verifyTile
  simp only
  split <;> rfl

/-- A plain tile whose source is a virtual range, whose words have come and which verifies is written to the scratchpad. -/
theorem moveTile_into_scratch {s s' u : State} {c : Nat} {o : Owner} {m : MoveD} {ext w : List PWord} {t : Nat}
    (htr : m.transp = false) (hsrc : m.srcSp = false) (hdst : m.dstSp = true)
    (hwalk : tileWalk s (uMover (moverOf c)) o.cid [(m.src + 4096 * t, min 4096 (m.len - 4096 * t), false)] [] = (s', .ok))
    (hgather : gather s' o ext
      (spans s' (uMover (moverOf c)) o.cid (m.src + 4096 * t) (min 4096 (m.len - 4096 * t)) false) = (u, some w))
    (hlen : min 4096 (m.len - 4096 * t) = 8 * w.length)
    (hver : (verifyTile u (uMover (moverOf c)) o.cid m.src m.len (m.src + 4096 * t) (min 4096 (m.len - 4096 * t))).2 = none) :
    (moveTile c o m ext t s).1 = upMoveHead (spPut
      (verifyTile u (uMover (moverOf c)) o.cid m.src m.len (m.src + 4096 * t) (min 4096 (m.len - 4096 * t))).1
      c o (m.dst + 4096 * t) w) c (fun e => { e with tilesDone := t + 1 }) := by
  have hread : moveRead s' c (uMover (moverOf c)) o false ext [(m.src + 4096 * t, min 4096 (m.len - 4096 * t))] =
      (u, some [w]) := by
    rw [hlen] at hgather ⊢
    simp [moveRead, hgather]
  unfold moveTile MoveD.tile
  simp [htr, hsrc, hdst, hwalk, hread, hver, moveWrite]

end Sys2Proof.Machine
end

section
/-!
Transposition of a tile (R82, R83): what packing elements into a word keeps of each, and the element of a transposed row.
-/
namespace Sys2Proof.Machine

/-! ### Elements of a word -/

/-- A bit of a value placed in the low `n` bits of a word. -/
theorem getLsbD_at_zero {n : Nat} (hn : 0 < n) (v i : Nat) :
    (at_ (n - 1) 0 v).getLsbD i = (decide (i < 64) && (decide (i < n) && v.testBit i)) := by
  rw [at_, Nat.sub_zero, Nat.sub_add_cancel hn, Nat.shiftLeft_zero, BitVec.getLsbD_ofNat, Nat.testBit_mod_two_pow]

/-- A bit of an element of a row. -/
theorem rowElem_getLsbD {n : Nat} (hn : 0 < n) (row : List PWord) (x i : Nat) : (rowElem n row x).data.getLsbD i =
    (decide (i < 64) && (decide (i < n) && (row.getD (x * n / 64) PWord.bad).data.getLsbD (x * n % 64 + i))) := by
  simp only [rowElem, getLsbD_at_zero hn, Nat.testBit_shiftRight, BitVec.testBit_toNat]

/-- An element has no bit past its size. -/
theorem rowElem_getLsbD_of_le {n : Nat} (hn : 0 < n) (row : List PWord) (x i : Nat) (hi : n ≤ i) :
    (rowElem n row x).data.getLsbD i = false := by
  rw [rowElem_getLsbD hn, decide_eq_false (Nat.not_lt.mpr hi), Bool.false_and, Bool.and_false]

/-- A bit at place `q` of `n` bits, of a value of `n` bits shifted to place `j`. -/
theorem getLsbD_shiftLeft_place {n : Nat} {w : Word} (hw : ∀ i, n ≤ i → w.getLsbD i = false) {q i : Nat} (hi : i < n)
    (hq : q * n + i < 64) (j : Nat) :
    (BitVec.shiftLeft w (j * n)).getLsbD (q * n + i) = (decide (j = q) && w.getLsbD i) := by
  have hshift : (BitVec.shiftLeft w (j * n)).getLsbD (q * n + i) =
      (!decide (q * n + i < j * n) && w.getLsbD (q * n + i - j * n)) := by
    rw [BitVec.shiftLeft_eq, BitVec.getLsbD_shiftLeft, decide_eq_true hq, Bool.true_and]
  rw [hshift]
  rcases Nat.lt_trichotomy j q with hlt | rfl | hgt
  · have hge : (j + 1) * n ≤ q * n := Nat.mul_le_mul_right n hlt
    rw [Nat.add_mul, Nat.one_mul] at hge
    rw [hw (q * n + i - j * n) (by omega), decide_eq_false (Nat.ne_of_lt hlt), Bool.and_false, Bool.false_and]
  · simp
  · have hge : (q + 1) * n ≤ j * n := Nat.mul_le_mul_right n hgt
    rw [Nat.add_mul, Nat.one_mul] at hge
    rw [decide_eq_true (by omega : q * n + i < j * n), decide_eq_false (Nat.ne_of_gt hgt), Bool.not_true,
      Bool.false_and, Bool.false_and]

/-- Elements of `n` bits put side by side from place `j` on, on top of the bits of `a`. -/
def packFrom (n : Nat) (l : List PWord) (j : Nat) (a : Word) : Word :=
  (l.zipIdx j).foldl (fun (a : Word) (e : PWord × Nat) => a ||| BitVec.shiftLeft e.1.data (e.2 * n)) a

theorem packFrom_cons (n : Nat) (x : PWord) (l : List PWord) (j : Nat) (a : Word) :
    packFrom n (x :: l) j a = packFrom n l (j + 1) (a ||| BitVec.shiftLeft x.data (j * n)) := rfl

/-- Elements without poison are packed from place 0 on. -/
theorem packRow_of_clean (n : Nat) {l : List PWord} (h : anyPoison l = false) : packRow n l = .good (packFrom n l 0 0) := by
  rw [packRow, h]
  rfl

/-- The bit `i` at place `q` of values of `n` bits put side by side. -/
theorem packFrom_getLsbD {n : Nat} {l : List PWord} (hl : ∀ x ∈ l, ∀ i, n ≤ i → x.data.getLsbD i = false) {q i : Nat}
    (hi : i < n) (hq : q * n + i < 64) (j : Nat) (a : Word) :
    (packFrom n l j a).getLsbD (q * n + i) =
      (a.getLsbD (q * n + i) || (decide (j ≤ q ∧ q < j + l.length) && (l.getD (q - j) PWord.bad).data.getLsbD i)) := by
  induction l generalizing j a with
  | nil => simp [packFrom]
  | cons x l ih =>
    obtain ⟨hx, hrest⟩ := List.forall_mem_cons.mp hl
    rw [packFrom_cons, ih hrest, BitVec.getLsbD_or, getLsbD_shiftLeft_place hx hi hq, Bool.or_assoc]
    congr 1
    rcases Nat.lt_trichotomy j q with hlt | rfl | hgt
    · obtain ⟨d, rfl⟩ : ∃ d, q = j + 1 + d := ⟨q - (j + 1), by omega⟩
      have hcut : j + 1 + d - j = d + 1 := by omega
      have hin : (j + 1 ≤ j + 1 + d ∧ j + 1 + d < j + 1 + l.length) ↔ j ≤ j + 1 + d ∧ j + 1 + d < j + (l.length + 1) := by
        omega
      rw [decide_eq_false (Nat.ne_of_lt hlt), Bool.false_and, Bool.false_or, Nat.add_sub_cancel_left, hcut,
        List.getD_cons_succ, List.length_cons, decide_eq_decide.mpr hin]
    · simp
    · rw [decide_eq_false (Nat.ne_of_gt hgt), decide_eq_false (by omega), decide_eq_false (by omega)]
      simp only [Bool.false_and, Bool.or_self]

/-- A word with its poison is known by its fields. -/
theorem PWord.eq_of_fields {x y : PWord} (hdata : x.data = y.data) (hpoison : x.poison = y.poison) : x = y := by
  cases x
  cases y
  cases hdata
  cases hpoison
  rfl

/-- What packing keeps: each of the elements, where none is poison. -/
theorem rowElem_packRow {n per : Nat} (hn : 0 < n) (hper : per * n = 64) {l : List PWord} (hlen : l.length = per)
    (hl : ∀ x ∈ l, x.poison = false ∧ ∀ i, n ≤ i → x.data.getLsbD i = false) {row : List PWord} {r : Nat}
    (hrow : row.getD (r / per) PWord.bad = packRow n l) : rowElem n row r = l.getD (r % per) PWord.bad := by
  have hpos : 0 < per := Nat.pos_of_ne_zero (by rintro rfl; omega)
  have hword : r * n / 64 = r / per := by rw [← hper, Nat.mul_div_mul_right _ _ hn]
  have hplace : r * n % 64 = r % per * n := by rw [← hper, Nat.mul_mod_mul_right]
  have hr : r % per < l.length := hlen.symm ▸ Nat.mod_lt _ hpos
  obtain ⟨hgood, hhigh⟩ := hl _ (List.getElem_mem hr)
  have hclean : anyPoison l = false := by
    refine List.any_eq_false.mpr fun x hx => ?_
    rw [(hl x hx).1]
    exact Bool.false_ne_true
  have hpack := packRow_of_clean n hclean
  rw [List.getD_eq_getElem _ _ hr]
  have hdata : (rowElem n row r).data = l[r % per].data := by
    refine BitVec.eq_of_getLsbD_eq fun i hi64 => ?_
    rw [rowElem_getLsbD hn, hword, hplace, hrow, hpack, decide_eq_true hi64, Bool.true_and]
    by_cases hi : i < n
    · have hfit : (r % per) * n + i < 64 := by
        have := Nat.mul_le_mul_right n (Nat.mod_lt r hpos)
        rw [Nat.succ_mul] at this
        omega
      rw [decide_eq_true hi, Bool.true_and, PWord.good, packFrom_getLsbD (fun x hx => (hl x hx).2) hi hfit,
        decide_eq_true (by omega), Nat.sub_zero, List.getD_eq_getElem _ _ hr]
      simp
    · rw [decide_eq_false hi, hhigh i (Nat.le_of_not_lt hi), Bool.false_and]
  have hpoison : (rowElem n row r).poison = l[r % per].poison := by
    rw [hgood, rowElem, hword, hrow, hpack]
    rfl
  exact PWord.eq_of_fields hdata hpoison

/-! ### A transposed tile -/

theorem getD_map_range {α : Type} (f : Nat → α) {n i : Nat} (h : i < n) (d : α) : ((List.range n).map f).getD i d = f i := by
  rw [List.getD_eq_getElem _ _ (by simpa using h), List.getElem_map, List.getElem_range]

/-- An element of a row of 32 elements without poison is not poison. -/
theorem rowElem_poison {h : Nat} (hh : 0 < h) {row : List PWord} (hlen : row.length = h) (hgood : anyPoison row = false)
    {c : Nat} (hc : c < 32) : (rowElem (2 * h) row c).poison = false := by
  have hplace : c * (2 * h) / 64 < row.length := by
    rw [hlen]
    refine Nat.div_lt_of_lt_mul ?_
    have := Nat.mul_lt_mul_of_pos_right hc (by omega : 0 < 2 * h)
    omega
  have hclean := List.any_eq_false.mp hgood _ (List.getElem_mem hplace)
  rw [rowElem, List.getD_eq_getElem _ _ hplace]
  exact Bool.eq_false_iff.mpr hclean

/-- R83: element `r` of row `c` of the transposed tile is element `c` of the source's row `r`. -/
theorem rowElem_transposeTile {h per : Nat} (hper : per * (2 * h) = 64) {rows : List (List PWord)} (hlen : rows.length = 32)
    (hrows : ∀ row ∈ rows, row.length = h ∧ anyPoison row = false) {r c : Nat} (hr : r < 32) (hc : c < 32) :
    rowElem (2 * h) ((transposeTile (2 * h) rows).getD c []) r = rowElem (2 * h) (rows.getD r []) c := by
  have hh : 0 < h := Nat.pos_of_ne_zero (by rintro rfl; omega)
  have hpos : 0 < per := Nat.pos_of_ne_zero (by rintro rfl; omega)
  have hdiv : 64 / (2 * h) = per := Nat.div_eq_of_eq_mul_left (by omega) hper.symm
  have hhalf : per * h = 32 := by
    rw [Nat.mul_left_comm] at hper
    omega
  have hword : r / per < h := Nat.div_lt_of_lt_mul (hhalf ▸ hr)
  have hrow : ((transposeTile (2 * h) rows).getD c []).getD (r / per) PWord.bad =
      packRow (2 * h) ((List.range per).map (fun k => rowElem (2 * h) (rows.getD (r / per * per + k) []) c)) := by
    rw [transposeTile, getD_map_range _ hc, hdiv, getD_map_range _ (by omega)]
  rw [rowElem_packRow (by omega) hper (by simp) ?_ hrow, getD_map_range _ (Nat.mod_lt _ hpos), Nat.div_add_mod']
  intro x hx
  obtain ⟨k, hk, rfl⟩ := List.mem_map.mp hx
  have hk : r / per * per + k < rows.length := by
    have := Nat.mul_le_mul_right per (Nat.succ_le_of_lt hword)
    rw [Nat.succ_mul, Nat.mul_comm h per, hhalf] at this
    have := List.mem_range.mp hk
    omega
  rw [List.getD_eq_getElem _ _ hk]
  obtain ⟨hl, hg⟩ := hrows _ (List.getElem_mem hk)
  exact ⟨rowElem_poison hh hl hg hc, fun i hi => rowElem_getLsbD_of_le (by omega) _ _ _ hi⟩

/-- Settles O34: the head of the queue by its turn and its fields, the write of a plain tile, and the elements of a transposed
one. -/
theorem movesAndTranspositions : Obligations.MovesAndTranspositions := by
  unfold Obligations.MovesAndTranspositions
  refine ⟨⟨fun s c ext e l hp hq hwait => ?head, fun s s' u c o m ext w t htr hsrc hdst => ?tile⟩,
    fun k rows hk hlen => ?transposed⟩
  case head =>
    refine ⟨exec_moveDescriptor_of_not_turn hp hq, fun hturn hbad => ?_, fun hturn hgood st hst => ?_,
      fun hturn hgood hrun => ?_, fun hlc hb ⟨k, hk, hw⟩ => ?_, exec_moveComplete_of_quiet hp hq,
      exec_moveComplete_of_not_quiet hp hq⟩
    · rw [exec_moveDescriptor_of_turn hp hq hwait hturn, if_pos hbad]
    · rw [exec_moveDescriptor_of_turn hp hq hwait hturn, hgood, hst]
      rfl
    · rw [exec_moveDescriptor_of_turn hp hq hwait hturn, hgood, hrun]
      rfl
    · exact exec_moveDescriptor_of_not_turn hp hq (moveTurn_of_lc_waits hlc hb hk hw)
  case tile =>
    intro a n hwalk hgather hn hver i
    rw [moveTile_into_scratch htr hsrc hdst hwalk hgather hn hver, upMoveHead_scratch, spPut_scratch_word, State.core,
      verifyTile_cores]
    rfl
  case transposed =>
    intro esize hrows r c hr hc
    have hesize : esize = 2 * (2 * 2 ^ k) := by simp only [esize]; ring
    have hdvd : esize ∣ 64 := Nat.mul_dvd_mul_left 4 (Nat.pow_dvd_pow 2 (by omega : k ≤ 4))
    have hper : 64 / esize * esize = 64 := Nat.div_mul_cancel hdvd
    rw [hesize] at hper hrows ⊢
    exact rowElem_transposeTile hper hlen (fun row hrow => by simpa using hrows row hrow) hr hc

end Sys2Proof.Machine
end

section
/-!
What lookups read of the state and what they leave: the elements of a list that carry a number, and the view of the state
that reads of tables, translations and messages to other modules leave as it was.
-/
namespace Sys2Proof.Machine

/-! ### Elements that carry a number -/

/-- The first element of a number after a change of the first element of a number. -/
theorem find?_updFirst {α : Type} (key : α → Nat) {f : α → α} (hf : ∀ x, key (f x) = key x) (id k : Nat) (l : List α) :
    (updFirst (fun x => key x == id) f l).find? (fun x => key x == k) =
      if k = id then (l.find? (fun x => key x == id)).map f else l.find? (fun x => key x == k) := by
  induction l with
  | nil => simp [updFirst]
  | cons x l ih =>
    rw [updFirst]
    by_cases hx : key x = id
    · rw [if_pos (beq_iff_eq.2 hx)]
      by_cases hk : k = id
      · simp [hf, hx, hk]
      · have hne : (id == k) = false := beq_false_of_ne fun e => hk e.symm
        simp [hf, hx, hk, hne]
    · rw [if_neg (by simpa using hx), List.find?_cons, ih]
      by_cases hk : k = id
      · subst hk
        simp [beq_false_of_ne hx]
      · simp [hk, List.find?_cons]

/-- What a change of one element does not show. -/
theorem map_updFirst {α β : Type} {p : α → Bool} {f : α → α} {g : α → β} (hf : ∀ x, g (f x) = g x) (l : List α) :
    (updFirst p f l).map g = l.map g := by
  induction l with
  | nil => rfl
  | cons x l ih =>
    rw [updFirst]
    split
    · rw [List.map_cons, hf, List.map_cons]
    · rw [List.map_cons, ih, List.map_cons]

theorem upBag_bag (s : State) (id k : Nat) {f : Bag → Bag} (hf : ∀ b, (f b).id = b.id) :
    (upBag s id f).bag k = if k = id then (s.bag id).map f else s.bag k :=
  find?_updFirst Bag.id hf id k s.bags

theorem upBag_bag_same {s : State} {id : Nat} {b : Bag} {f : Bag → Bag} (hf : ∀ b, (f b).id = b.id)
    (hb : s.bag id = some b) : (upBag s id f).bag id = some (f b) := by
  rw [upBag_bag s id id hf, if_pos rfl, hb]
  rfl

theorem bag_of_bags {s t : State} (h : t.bags = s.bags) (id : Nat) : t.bag id = s.bag id := by
  rw [State.bag, h]
  rfl

theorem id_of_bag {s : State} {id : Nat} {b : Bag} (h : s.bag id = some b) : b.id = id := by
  simpa using List.find?_some h

/-! ### What reads leave as it was -/

/-- The state without what reads of tables may change: channels, hedges, translation, access counters, integrity counts, the
fabric, the numbers given to pieces and fills, and what `State.still` leaves out. -/
def State.sansReads (s : State) : State :=
  { s.sansChans with
    hedges := [], xl := {}, fq := none, freeCtr := 0, counters := [], hq := none, hotPosted := false, slots := [],
    ig := {}, fab := {}, nextPiece := 0 }

section
variable {s t : State}

theorem sansReads_of_sansChans (h : t.sansChans = s.sansChans) : t.sansReads = s.sansReads := by
  unfold State.sansReads
  rw [h]

theorem sansReads_of_still (h : t.still = s.still) : t.sansReads = s.sansReads :=
  sansReads_of_sansChans (sansChans_of_still h)

theorem dram_of_sansReads (h : t.sansReads = s.sansReads) : t.dram = s.dram :=
  (congrArg State.dram h : t.sansReads.dram = s.sansReads.dram)

theorem cores_of_sansReads (h : t.sansReads = s.sansReads) : t.cores = s.cores :=
  (congrArg State.cores h : t.sansReads.cores = s.sansReads.cores)

theorem jobs_of_sansReads (h : t.sansReads = s.sansReads) : t.jobs = s.jobs :=
  (congrArg State.jobs h : t.sansReads.jobs = s.sansReads.jobs)

theorem bags_of_sansReads (h : t.sansReads = s.sansReads) : t.bags = s.bags :=
  (congrArg State.bags h : t.sansReads.bags = s.sansReads.bags)

theorem pieces_of_sansReads (h : t.sansReads = s.sansReads) : t.pieces = s.pieces :=
  (congrArg State.pieces h : t.sansReads.pieces = s.sansReads.pieces)

theorem lookups_of_sansReads (h : t.sansReads = s.sansReads) : t.lookups = s.lookups :=
  (congrArg State.lookups h : t.sansReads.lookups = s.sansReads.lookups)

theorem lookRec_of_sansReads (h : t.sansReads = s.sansReads) : t.lookRec = s.lookRec :=
  (congrArg State.lookRec h : t.sansReads.lookRec = s.sansReads.lookRec)

theorem sched_of_sansReads (h : t.sansReads = s.sansReads) : t.sched = s.sched :=
  (congrArg State.sched h : t.sansReads.sched = s.sansReads.sched)

end

@[simp] theorem upHedge_sansReads (s : State) (h : Nat) (f : Hedge → Hedge) : (upHedge s h f).sansReads = s.sansReads := rfl

@[simp] theorem upIg_sansReads (s : State) (f : Integrity → Integrity) : (upIg s f).sansReads = s.sansReads := rfl

/-- The engines of a hedge take up a codebook, and change no version, no core and no lookup. -/
theorem hedgeCb_frame (h id : Nat) (s : State) :
    (hedgeCb h id s).1.sansReads = s.sansReads ∧ (hedgeCb h id s).1.slots = s.slots := by
  have htouch := dramTouch_sansChans s (codebookAt id) 288
  have hframe : (dramTouch s (codebookAt id) 288).sansReads = s.sansReads ∧ (dramTouch s (codebookAt id) 288).slots = s.slots :=
    ⟨sansReads_of_sansChans htouch, slots_of_sansMem (sansMem_of_sansChans htouch)⟩
  unfold hedgeCb
  split
  · exact ⟨rfl, rfl⟩
  · dsimp only
    split <;> exact hframe

/-- Lines of a slice are read: errors are counted and told, and nothing but the slice changes beside. -/
theorem thicketRead_sansReads (h : Nat) (l : List TLine) (s : State) : (thicketRead h l s).sansReads = s.sansReads := by
  unfold thicketRead
  dsimp only
  rw [upHedge_sansReads]
  exact forL_induct (P := fun t => t.sansReads = s.sansReads)
    (fun _ _ ht => (sansReads_of_still (uePoison_still ..)).trans ht) (upIg_sansReads ..)

end Sys2Proof.Machine
end

section
/-!
POOLs cut from a piece (R107, R153), and the sums of their partials (R112).
-/
namespace Sys2Proof.Machine

theorem exec_gatherPiece (piece : Nat) (s : State) : exec (.gatherPiece piece) s = execGatherPiece piece s := rfl

theorem exec_hedgePartial (piece : Nat) (bad : Option Nat) (s : State) :
    exec (.hedgePartial piece bad) s = execHedgePartial piece bad s := rfl

/-! ### Runs and groups of a list -/

theorem flatten_cutRuns {α : Type} {n : Nat} (hn : 0 < n) (fuel : Nat) (l : List α) (h : l.length ≤ fuel) :
    (cutRuns n fuel l).flatten = l := by
  induction fuel generalizing l with
  | zero => rw [List.eq_nil_of_length_eq_zero (Nat.le_zero.1 h)]; rfl
  | succ fuel ih =>
    rw [cutRuns]
    split
    next hl => rw [List.isEmpty_iff.1 hl]; rfl
    next hl =>
      rw [List.flatten_cons, ih _ (by rw [List.length_drop]; omega), List.take_append_drop]

theorem mem_cutRuns {α : Type} {n : Nat} (hn : 0 < n) {fuel : Nat} {l x : List α} (h : x ∈ cutRuns n fuel l) :
    x.length ≤ n ∧ x ≠ [] ∧ x ⊆ l := by
  induction fuel generalizing l with
  | zero => cases h
  | succ fuel ih =>
    rw [cutRuns] at h
    split at h
    · cases h
    next hl =>
      rcases List.mem_cons.1 h with rfl | h
      · refine ⟨List.length_take_le .., fun e => hl ?_, List.take_subset ..⟩
        rcases List.take_eq_nil_iff.1 e with e | e
        · omega
        · rw [e]; rfl
      · obtain ⟨hlen, hne, hsub⟩ := ih h
        exact ⟨hlen, hne, List.Subset.trans hsub (List.drop_subset ..)⟩

/-- The groups of a list by the value of a function are a permutation of it. -/
theorem perm_flatMap_filter {α β : Type} [DecidableEq β] (f : α → β) {ks : List β} (hd : ks.Nodup) {l : List α}
    (h : ∀ a ∈ l, f a ∈ ks) : (ks.flatMap (fun k => l.filter (fun a => f a == k))).Perm l := by
  induction ks generalizing l with
  | nil => rw [List.eq_nil_iff_forall_not_mem.2 fun a ha => List.not_mem_nil (h a ha)]; rfl
  | cons k ks ih =>
    obtain ⟨hk, hd⟩ := List.nodup_cons.1 hd
    have hrest : ∀ k' ∈ ks, l.filter (fun a => f a == k') = (l.filter (fun a => !(f a == k))).filter (fun a => f a == k') := by
      intro k' hk'
      rw [List.filter_filter]
      refine List.filter_congr fun a _ => ?_
      by_cases ha : f a = k'
      · have : k' ≠ k := fun e => hk (e ▸ hk')
        simp [ha, this]
      · simp [ha]
    rw [List.flatMap_cons, List.flatMap_congr hrest]
    refine (List.Perm.append_left _ (ih hd fun a ha => ?_)).trans (List.filter_append_perm (fun a => f a == k) l)
    obtain ⟨hmem, hne⟩ := List.mem_filter.1 ha
    exact (List.mem_cons.1 (h a hmem)).resolve_left (by simpa using hne)

theorem perm_insertBy {α : Type} (le : α → α → Bool) (x : α) (l : List α) : (insertBy le x l).Perm (x :: l) := by
  induction l with
  | nil => rfl
  | cons y l ih =>
    rw [insertBy]
    split
    · rfl
    · exact (ih.cons y).trans (.swap x y l)

theorem perm_sortBy {α : Type} (le : α → α → Bool) (l : List α) : (sortBy le l).Perm l := by
  induction l with
  | nil => rfl
  | cons x l ih => exact (perm_insertBy le x _).trans (ih.cons x)

/-! ### The POOLs of a piece -/

theorem nbits_lt {w : Nat} (hi lo : Nat) : nbits w hi lo < 2 ^ (hi + 1 - lo) := Nat.mod_lt _ (Nat.two_pow_pos _)

theorem channel_lt (s : State) (off : Nat) : s.channel off < 768 := by
  unfold State.channel channelOf
  split
  · decide
  · rename_i e _
    have hchan : (locate e off).chan < 64 := nbits_lt 5 0
    have hstack : (locate e off).stack < 12 := Nat.mod_lt _ (by decide)
    dsimp only
    omega

/-- The rows of the POOLs, channel by channel and run by run. -/
theorem flatMap_poolsOf (s : State) (offs : List Nat) : (poolsOf s offs).flatMap (fun e => e.2.2) =
    (List.range 768).flatMap (fun c => offs.filter (fun a => s.channel a == c)) := by
  have hidx : ∀ l : List (Nat × List Nat),
      (l.zipIdx.map (fun e => (e.2, e.1.1, e.1.2))).flatMap (fun e => e.2.2) = l.flatMap (·.2) := by
    intro l
    rw [List.flatMap_map]
    conv_rhs => rw [← List.zipIdx_map_fst 0 l]
    rw [List.flatMap_map]
  unfold poolsOf
  rw [hidx, List.flatMap_assoc]
  refine List.flatMap_congr fun c _ => ?_
  dsimp only
  rw [List.flatMap_map, List.flatMap_id']
  exact flatten_cutRuns (by decide) _ _ (Nat.le_refl _)

theorem mem_poolsOf {s : State} {offs : List Nat} {e : Nat × Nat × List Nat} (h : e ∈ poolsOf s offs) :
    e.2.2.length ≤ 64 ∧ e.2.2 ≠ [] ∧ ∀ a ∈ e.2.2, s.channel a = e.2.1 := by
  obtain ⟨⟨⟨k, x⟩, i⟩, hx, rfl⟩ := List.mem_map.1 h
  obtain ⟨c, -, hc⟩ := List.mem_flatMap.1 (List.fst_mem_of_mem_zipIdx hx)
  obtain ⟨l, hl, he⟩ := List.mem_map.1 hc
  obtain ⟨rfl, rfl⟩ := Prod.mk.inj he
  obtain ⟨hlen, hne, hsub⟩ := mem_cutRuns (by decide) hl
  exact ⟨hlen, hne, fun a ha => by simpa using (List.mem_filter.1 (hsub ha)).2⟩

/-! ### Cutting a piece and sending its POOLs (R107) -/

theorem withCb_eq (s : State) (h : Nat) (b : Bag) (f : State → State) : withCb s h b f =
    if isCb (s.slot b.key).entry.format then
      if (hedgeCb h (s.slot b.key).entry.codebookId s).2 then f (hedgeCb h (s.slot b.key).entry.codebookId s).1
      else homeFail (hedgeCb h (s.slot b.key).entry.codebookId s).1 b stPoisoned
    else f s := by
  unfold withCb
  dsimp only
  refine ite_congr rfl (fun _ => ?_) fun _ => rfl
  split <;> next heq => rw [heq]; rfl

/-- The state in which a unit goes on with the codebook of a bag's table. -/
def State.withBook (s : State) (h : Nat) (b : Bag) : State :=
  if isCb (s.slot b.key).entry.format then (hedgeCb h (s.slot b.key).entry.codebookId s).1 else s

section
variable {s : State} {h : Nat} {b : Bag}

theorem withBook_frame (s : State) (h : Nat) (b : Bag) :
    (s.withBook h b).sansReads = s.sansReads ∧ (s.withBook h b).slots = s.slots := by
  unfold State.withBook
  split
  · exact hedgeCb_frame ..
  · exact ⟨rfl, rfl⟩

theorem withCb_of_good (f : State → State) (hgood : isCb (s.slot b.key).entry.format = true →
    (hedgeCb h (s.slot b.key).entry.codebookId s).2 = true) : withCb s h b f = f (s.withBook h b) := by
  rw [withCb_eq, State.withBook]
  split
  next hcb => rw [if_pos (hgood hcb)]
  next => rfl

theorem withCb_of_poison (f : State → State) (hcb : isCb (s.slot b.key).entry.format = true)
    (hbad : (hedgeCb h (s.slot b.key).entry.codebookId s).2 = false) :
    withCb s h b f = homeFail (s.withBook h b) b stPoisoned := by
  rw [withCb_eq, State.withBook, if_pos hcb, if_neg (by simp [hbad]), if_pos hcb]

end

theorem upPiece_find {s : State} {p : Piece} {f : Piece → Piece} (hf : ∀ q, (f q).id = q.id)
    (hp : s.pieces.find? (fun q => q.id == p.id) = some p) :
    (upPiece s p.id f).pieces.find? (fun q => q.id == p.id) = some (f p) := by
  rw [upPiece, find?_updFirst Piece.id hf, if_pos rfl, hp]
  rfl

/-- Cutting lists the POOLs of a piece; its rows stay, and no memory and no bag changes. -/
theorem cutPiece_spec {s : State} (b : Bag) {p : Piece} (hp : s.pieces.find? (fun q => q.id == p.id) = some p) :
    (∃ q, (cutPiece s b p).pieces.find? (fun x => x.id == p.id) = some q ∧ q.cut = true ∧ q.rows = p.rows) ∧
      (cutPiece s b p).dram = s.dram ∧ (cutPiece s b p).bags = s.bags := by
  unfold cutPiece
  dsimp only
  generalize ht : thicketRead p.stack _ _ = t
  have hreads : t.sansReads = s.sansReads := by rw [← ht, thicketRead_sansReads, upHedge_sansReads]
  have hpt : t.pieces.find? (fun q => q.id == p.id) = some p := by rw [pieces_of_sansReads hreads, hp]
  have hdram := dram_of_sansReads hreads
  have hbags := bags_of_sansReads hreads
  exact ⟨⟨_, upPiece_find (fun _ => rfl) hpt, rfl, rfl⟩, hdram, hbags⟩

section
variable {s : State} {p : Piece} {b : Bag} (hpow : s.powered = true)
  (hp : s.pieces.find? (fun q => q.id == p.id) = some p) (hb : s.bag p.bag = some b)
include hpow hp hb

theorem exec_gatherPiece_of_held (hmay : s.mayPool p = false) : exec (.gatherPiece p.id) s = .next s := by
  rw [exec_gatherPiece, execGatherPiece, whenPowered_of_powered hpow]
  simp only [hp, hb, hmay, Bool.false_eq_true, if_false]

theorem exec_gatherPiece_of_refused {off : Nat} (hmay : s.mayPool p = true) (hstop : s.pieceStop b p = some off) :
    exec (.gatherPiece p.id) s = .next (bagPrivet s b (mkPa s.moduleNo 0 off)) := by
  rw [exec_gatherPiece, execGatherPiece, whenPowered_of_powered hpow]
  simp only [hp, hb, hmay, if_true, hstop]

theorem exec_gatherPiece_of_poison (hmay : s.mayPool p = true) (hopen : s.pieceStop b p = none)
    (hcb : isCb (s.slot b.key).entry.format = true) (hbad : (hedgeCb p.stack (s.slot b.key).entry.codebookId s).2 = false) :
    exec (.gatherPiece p.id) s = .next (homeFail (s.withBook p.stack b) b stPoisoned) := by
  rw [exec_gatherPiece, execGatherPiece, whenPowered_of_powered hpow]
  simp only [hp, hb, hmay, if_true, hopen, withCb_of_poison _ hcb hbad]

/-- What a piece that may go on does, once its hedge holds the codebook. -/
theorem exec_gatherPiece_of_book (hmay : s.mayPool p = true) (hopen : s.pieceStop b p = none)
    (hgood : isCb (s.slot b.key).entry.format = true → (hedgeCb p.stack (s.slot b.key).entry.codebookId s).2 = true) :
    (p.cut = true → exec (.gatherPiece p.id) s = .next (sendPools (s.withBook p.stack b) b p)) ∧
    (p.cut = false → ∃ q, (cutPiece (s.withBook p.stack b) b p).pieces.find? (fun x => x.id == p.id) = some q ∧ q.cut = true ∧
      q.rows = p.rows ∧
      exec (.gatherPiece p.id) s = .next (sendPools (cutPiece (s.withBook p.stack b) b p) b q) ∧
      (cutPiece (s.withBook p.stack b) b p).dram = (s.withBook p.stack b).dram ∧
      (cutPiece (s.withBook p.stack b) b p).bags = s.bags) := by
  obtain ⟨hreads, -⟩ := withBook_frame s p.stack b
  have hpu : (s.withBook p.stack b).pieces.find? (fun q => q.id == p.id) = some p := by
    rw [pieces_of_sansReads hreads, hp]
  rw [exec_gatherPiece, execGatherPiece, whenPowered_of_powered hpow]
  simp only [hp, hb, hmay, if_true, hopen, withCb_of_good _ hgood]
  constructor
  · intro hcut
    simp only [hcut, if_true, hpu]
  · intro hcut
    obtain ⟨⟨q, hq, hqcut, hrows⟩, hdram, hbags⟩ := cutPiece_spec b hpu
    refine ⟨q, hq, hqcut, hrows, ?_, hdram, hbags.trans (bags_of_sansReads hreads)⟩
    simp only [hcut, Bool.false_eq_true, if_false, hq]

end

/-! ### The sum of a piece's partials (R112) -/

/-- Sending pieces marks them as sent, and changes nothing else. -/
theorem issuePieces_spec (e fuel : Nat) (s : State) : ∃ l, issuePieces e fuel s = { s with pieces := l } ∧
    l.map (fun q => { q with sent := false }) = s.pieces.map (fun q => { q with sent := false }) := by
  induction fuel generalizing s with
  | zero => exact ⟨s.pieces, rfl, rfl⟩
  | succ fuel ih =>
    rw [issuePieces]
    dsimp only
    split
    · exact ⟨s.pieces, rfl, rfl⟩
    · obtain ⟨l, he, hl⟩ := ih (upPiece s _ (fun q => { q with sent := true }))
      exact ⟨l, he, hl.trans (map_updFirst (f := fun q : Piece => { q with sent := true }) (fun _ => rfl) s.pieces)⟩

theorem issueFor_spec (b : Bag) (s : State) : ∃ l, issueFor b s = { s with pieces := l } ∧
    l.map (fun q => { q with sent := false }) = s.pieces.map (fun q => { q with sent := false }) := by
  unfold issueFor
  split
  · exact ⟨s.pieces, rfl, rfl⟩
  · exact issuePieces_spec ..

/-- The contributions of a piece, channel by channel, are a permutation of what it got. -/
theorem perm_byChannel (p : Piece) : ∃ gs : List (Nat × List Contrib), (gs.flatMap (·.2)).Perm (p.got.map (·.2)) ∧
    p.byChannel = gs.map (fun g => joinContribs (g.1, 0, 0) (.fps []) g.2) := by
  let got := (sortBy (fun x y => decide (x.1 ≤ y.1)) p.got).map (·.2)
  refine ⟨((got.map (·.order.1)).dedup).map (fun c => (c, got.filter (fun k => k.order.1 == c))), ?_, ?_⟩
  · rw [List.flatMap_map]
    refine (perm_flatMap_filter (fun k : Contrib => k.order.1) (List.nodup_dedup _) fun k hk => ?_).trans
      ((perm_sortBy _ p.got).map _)
    exact List.mem_dedup.2 (List.mem_map_of_mem hk)
  · rw [List.map_map]
    rfl

/-- A count of a piece is the same by channels as by contributions. -/
theorem sum_byChannel (p : Piece) {f : Contrib → Nat} (hf : ∀ c z l, f (joinContribs c z l) = (l.map f).sum) :
    (p.byChannel.map f).sum = (p.got.map (fun e => f e.2)).sum := by
  obtain ⟨gs, hperm, he⟩ := perm_byChannel p
  rw [he, List.map_map]
  have hsum := (hperm.map f).sum_eq
  rw [List.map_map, List.map_flatMap, List.flatMap_def, List.sum_flatten, List.map_map] at hsum
  exact (congrArg List.sum (List.map_congr_left fun g _ => hf ..)).trans hsum

theorem any_byChannel (p : Piece) : p.byChannel.any (·.poison) = p.got.any (fun e => e.2.poison) := by
  obtain ⟨gs, hperm, he⟩ := perm_byChannel p
  have hany := hperm.any_eq (f := (·.poison))
  rw [List.any_map, List.any_flatMap] at hany
  rw [he, List.any_map]
  exact hany

/-- The contributions that a piece sums: in fixed order those of its channels, else as they came (R112). -/
def Piece.summed (p : Piece) (b : Bag) : List Contrib := if b.ordered then p.byChannel else p.got.map (·.2)

section
variable {s : State} {p : Piece} {b : Bag} (hpow : s.powered = true)
  (hp : s.pieces.find? (fun q => q.id == p.id) = some p) (hb : s.bag p.bag = some b)
include hpow hp hb

theorem exec_hedgePartial_of_waiting (bad : Option Nat) (h : ¬(p.cut = true ∧ p.pools = [] ∧ p.got.length = p.total)) :
    exec (.hedgePartial p.id bad) s = .next s := by
  rw [exec_hedgePartial, execHedgePartial, whenPowered_of_powered hpow]
  simp only [hp, hb, List.isEmpty_iff, if_neg h]

theorem exec_hedgePartial_of_wrong (lane : Nat) (h : p.cut = true ∧ p.pools = [] ∧ p.got.length = p.total) :
    exec (.hedgePartial p.id (some lane)) s = .next (arithFault s b.owner unitSlalom p.stack lane 0) := by
  rw [exec_hedgePartial, execHedgePartial, whenPowered_of_powered hpow]
  simp only [hp, hb, List.isEmpty_iff, if_pos h]

/-- The sum of a piece goes to its bag. -/
theorem exec_hedgePartial_of_ready (hid : b.id = p.bag) (hready : p.cut = true ∧ p.pools = [] ∧ p.got.length = p.total) :
    ∃ t k, exec (.hedgePartial p.id none) s = .next t ∧
      t.pieces.map (fun q => { q with sent := false }) =
        (dropFirst (fun q => q.id == p.id) s.pieces).map (fun q => { q with sent := false }) ∧
      t.bag p.bag = some { b with left := b.left - 1, got := b.got ++ [k] } ∧ k.order = (0, p.stack, p.seqNo) ∧
      k.pooled = (p.got.map (fun e => e.2.pooled)).sum ∧ k.mismatched = (p.got.map (fun e => e.2.mismatched)).sum ∧
      (k.poison = true ↔ ∃ e ∈ p.got, e.2.poison = true) ∧ t = { s with pieces := t.pieces, bags := t.bags } := by
  let k := joinContribs (0, p.stack, p.seqNo) (emptyPartial b.acc (s.slot b.key).entry.elems) (p.summed b)
  let u : State := upBag { s with pieces := dropFirst (fun q => q.id == p.id) s.pieces } b.id
    (fun x => { x with left := x.left - 1, got := x.got ++ [k] })
  have hbag : u.bag p.bag = some { b with left := b.left - 1, got := b.got ++ [k] } := by
    rw [← hid] at hb ⊢
    exact upBag_bag_same (fun _ => rfl) hb
  have hsum : ∀ f : Contrib → Nat, (∀ c z l, f (joinContribs c z l) = (l.map f).sum) →
      ((p.summed b).map f).sum = (p.got.map (fun e => f e.2)).sum := by
    intro f hf
    unfold Piece.summed
    split
    · exact sum_byChannel p hf
    · rw [List.map_map]
      rfl
  have hany : (p.summed b).any (·.poison) = p.got.any (fun e => e.2.poison) := by
    unfold Piece.summed
    split
    · exact any_byChannel p
    · exact List.any_map
  obtain ⟨l, he, hl⟩ := issueFor_spec b u
  refine ⟨issueFor b u, k, ?_, ?_, ?_, rfl, hsum _ fun _ _ _ => rfl, hsum _ fun _ _ _ => rfl, ?_, ?_⟩
  · rw [exec_hedgePartial, execHedgePartial, whenPowered_of_powered hpow]
    simp only [hp, hb, List.isEmpty_iff, if_pos hready]
    rfl
  · rw [he]
    exact hl
  · rw [he]
    exact hbag
  · exact (Bool.eq_iff_iff.1 hany).trans List.any_eq_true
  · rw [he]
    rfl

end

/-! ### The sum of an integer bag (R112) -/

theorem Partial.add_ints_comm (a b : List Int) : Partial.add (.ints a) (.ints b) = .ints (List.zipWith (· + ·) b a) := by
  rw [Partial.add, List.zipWith_comm_of_comm Int.add_comm]

/-- Integer partials may be added in any order. -/
theorem Partial.add_right_comm_ints (p : Partial) (a b : List Int) :
    (p.add (.ints a)).add (.ints b) = (p.add (.ints b)).add (.ints a) := by
  cases p with
  | fps l => rfl
  | ints l =>
    simp only [Partial.add]
    congr 1
    induction l generalizing a b with
    | nil => simp
    | cons x l ih => cases a <;> cases b <;> simp [ih, Int.add_right_comm]

/-- The sum of integer partials does not depend on their order. -/
theorem sumParts_perm {l m : List Partial} (h : l.Perm m) (hint : ∀ p ∈ l, ∃ a, p = .ints a) : sumParts l = sumParts m := by
  induction h with
  | nil => rfl
  | cons x h ih =>
    refine congrArg some (h.foldl_eq' (fun y hy z hz p => ?_) x)
    obtain ⟨a, rfl⟩ := hint y (List.mem_cons_of_mem _ hy)
    obtain ⟨c, rfl⟩ := hint z (List.mem_cons_of_mem _ hz)
    exact Partial.add_right_comm_ints ..
  | swap x y l =>
    obtain ⟨a, rfl⟩ := hint x (by simp)
    obtain ⟨c, rfl⟩ := hint y (by simp)
    rw [sumParts, sumParts, List.foldl_cons, List.foldl_cons, Partial.add_ints_comm]
    rfl
  | trans h₁ h₂ ih₁ ih₂ => exact (ih₁ hint).trans (ih₂ fun p hp => hint p (h₁.mem_iff.2 hp))

theorem Bag.total_of_int {b : Bag} (n : Nat) (h : b.intPath = true) : b.total n =
    joinContribs (0, 0, 0) (emptyPartial b.acc n) b.got := by
  rw [Bag.total, h, Bool.not_true, Bool.and_false, if_neg Bool.false_ne_true]
  rfl

theorem Bag.total_perm {b b' : Bag} (n : Nat) (h : b.intPath = true) (h' : b'.intPath = true) (hw : b.wide = b'.wide)
    (hperm : b.got.Perm b'.got) (hint : ∀ k ∈ b.got, ∃ l, k.part = .ints l) :
    (b.total n).part = (b'.total n).part ∧ (b.total n).pooled = (b'.total n).pooled ∧
      (b.total n).mismatched = (b'.total n).mismatched := by
  have hacc : b.acc = b'.acc := by rw [Bag.acc, Bag.acc, h, h', hw]
  have hsum : sumParts (b.got.map (·.part)) = sumParts (b'.got.map (·.part)) := by
    refine sumParts_perm (hperm.map _) fun p hp => ?_
    obtain ⟨k, hk, rfl⟩ := List.mem_map.1 hp
    exact hint k hk
  rw [Bag.total_of_int n h, Bag.total_of_int n h', hacc]
  exact ⟨congrArg (Option.getD · _) hsum, (hperm.map _).sum_eq, (hperm.map _).sum_eq⟩

/-- Settles O43: the POOLs cut from a piece, the cut itself and what goes out, the sum of the partials, and the order of
integer contributions, each by its own lemma. -/
theorem pooling : Obligations.Pooling := by
  unfold Obligations.Pooling
  refine ⟨fun s offs => ⟨?cut, fun e he => mem_poolsOf he⟩, fun s p b hpow hp hb => ⟨?held, fun hmay => ⟨?refused, ?go⟩⟩,
    fun s p b hpow hp hb hid => ⟨fun hready => ⟨?sum, ?wrong⟩, ?waiting⟩, ?order⟩
  case cut =>
    rw [flatMap_poolsOf]
    exact perm_flatMap_filter s.channel List.nodup_range fun a _ => List.mem_range.2 (channel_lt s a)
  case held => exact exec_gatherPiece_of_held hpow hp hb
  case refused => exact fun off => exec_gatherPiece_of_refused hpow hp hb hmay
  case go =>
    exact fun hopen => ⟨exec_gatherPiece_of_poison hpow hp hb hmay hopen, exec_gatherPiece_of_book hpow hp hb hmay hopen⟩
  case sum => exact exec_hedgePartial_of_ready hpow hp hb hid hready
  case wrong => exact fun lane => exec_hedgePartial_of_wrong hpow hp hb lane hready
  case waiting => exact fun hnot bad => exec_hedgePartial_of_waiting hpow hp hb bad hnot
  case order => exact fun b b' n => Bag.total_perm n

end Sys2Proof.Machine
end

section
/-!
The frame of what a lookup does beside its bags: translating rows and counting their accesses (R157, R346), waiting for a page
(R358), and sending requests to other modules and to the host change no bag, no job, no core, no memory and no table entry.
-/
namespace Sys2Proof.Machine

/-- The state `t` differs from `s` only in what reads of tables may change, and holds the same table entries. -/
def State.sameReads (s t : State) : Prop := t.sansReads = s.sansReads ∧ ∀ k, (t.slot k).entry = (s.slot k).entry

section
variable {s t u : State}

theorem State.sameReads.refl (s : State) : s.sameReads s := ⟨rfl, fun _ => rfl⟩

theorem State.sameReads.trans (h : s.sameReads t) (h' : t.sameReads u) : s.sameReads u :=
  ⟨h'.1.trans h.1, fun k => (h'.2 k).trans (h.2 k)⟩

theorem sameReads_of_sansChans (h : t.sansChans = s.sansChans) : s.sameReads t :=
  ⟨sansReads_of_sansChans h, fun k => congrArg VSlot.entry
    (congrArg (fun u => State.slot u k) h : t.sansChans.slot k = s.sansChans.slot k)⟩

theorem sameReads_of_still (h : t.still = s.still) : s.sameReads t := sameReads_of_sansChans (sansChans_of_still h)

end

/-! ### Access counters (R157 to R162) -/

/-- The state without what a counted access may change: counters, versions' records, the hot-page queue, the free values, and
what `State.still` leaves out. -/
def State.sansCounts (s : State) : State :=
  { s.still with freeCtr := 0, counters := [], hq := none, hotPosted := false, slots := [] }

/-- The state `t` differs from `s` only in what counted accesses may change, and holds the same table entries. -/
def State.sameButCounts (s t : State) : Prop :=
  t.sansCounts = s.sansCounts ∧ ∀ k, (t.slot k).entry = (s.slot k).entry

section
variable {s t u : State}

theorem State.sameButCounts.refl (s : State) : s.sameButCounts s := ⟨rfl, fun _ => rfl⟩

theorem State.sameButCounts.trans (h : s.sameButCounts t) (h' : t.sameButCounts u) : s.sameButCounts u :=
  ⟨h'.1.trans h.1, fun k => (h'.2 k).trans (h.2 k)⟩

theorem sameButCounts_of_still (h : t.still = s.still) : s.sameButCounts t :=
  ⟨by unfold State.sansCounts; rw [h], (sameReads_of_still h).2⟩

theorem State.sameButCounts.setPosted (h : s.sameButCounts t) (x : Bool) : s.sameButCounts { t with hotPosted := x } := h

theorem State.sameButCounts.sameReads (h : s.sameButCounts t) : s.sameReads t :=
  ⟨(congrArg State.sansReads h.1 : t.sansCounts.sansReads = s.sansCounts.sansReads), h.2⟩

theorem State.sameButCounts.hedges (h : s.sameButCounts t) : t.hedges = s.hedges :=
  (congrArg State.hedges h.1 : t.sansCounts.hedges = s.sansCounts.hedges)

theorem State.sameButCounts.chans (h : s.sameButCounts t) : t.chans = s.chans :=
  (congrArg State.chans h.1 : t.sansCounts.chans = s.sansCounts.chans)

theorem State.sameButCounts.imap (h : s.sameButCounts t) : t.imap = s.imap :=
  (congrArg State.imap h.1 : t.sansCounts.imap = s.sansCounts.imap)

end

theorem upSlot_sameButCounts (s : State) (k : Nat) {f : VSlot → VSlot} (hf : ∀ v, (f v).entry = v.entry) :
    s.sameButCounts (upSlot s k f) := by
  refine ⟨rfl, fun j => ?_⟩
  rw [upSlot_slot]
  split
  next hj => rw [hf, hj]
  next => rfl

theorem hotEntry_sameButCounts (s : State) (slot page pa count : Nat) : s.sameButCounts (hotEntry s slot page pa count) := by
  have hdrop := upSlot_sameButCounts s slot (f := fun v => { v with hotDropped := v.hotDropped + 1 }) fun _ => rfl
  have hpost : ∀ a l q, s.sameButCounts (upSlot { dmaBytes s 0 a false l with hq := q } slot
      (fun v => { v with hotPosted := v.hotPosted + 1 })) := fun a l q =>
    .trans (t := { dmaBytes s 0 a false l with hq := q }) (sameButCounts_of_still (t := dmaBytes s 0 a false l) (dmaBytes_still ..))
      (upSlot_sameButCounts _ slot fun _ => rfl)
  unfold hotEntry
  split
  · split
    · exact .refl s
    · exact hdrop
  · split
    · exact hdrop
    · refine .trans ?_ (sameButCounts_of_still (msix_still ..))
      split
      · exact hpost ..
      · refine .trans ?_ (sameButCounts_of_still (raiseEvent_still ..))
        exact (hpost ..).setPosted true

theorem countAccess_sameButCounts (s : State) (slot page pa : Nat) : s.sameButCounts (countAccess s slot page pa) := by
  unfold countAccess takeFree
  dsimp only
  split
  · exact ⟨rfl, fun _ => rfl⟩
  · split
    · exact .trans ⟨rfl, fun _ => rfl⟩ (hotEntry_sameButCounts ..)
    · exact ⟨rfl, fun _ => rfl⟩

theorem countRow_sameButCounts (key u : Nat) (cid : BitVec 12) (t : TableEntry) (i : Nat) (s : State) :
    s.sameButCounts (countRow key u cid t i s) :=
  forL_induct (P := s.sameButCounts) (fun _ _ h => h.trans (countAccess_sameButCounts ..)) (.refl s)

/-! ### Translation (R346, R358 to R361) -/

section
variable {s t : State}

theorem State.sameReads.dramTouch (h : s.sameReads t) (a n : Nat) : s.sameReads (dramTouch t a n) :=
  h.trans (sameReads_of_sansChans (dramTouch_sansChans ..))

theorem State.sameReads.still {u : State} (h : s.sameReads t) (hu : u.still = t.still) : s.sameReads u :=
  h.trans (sameReads_of_still hu)

theorem State.sameReads.ite {c : Prop} [Decidable c] {a b : State} (ha : s.sameReads a) (hb : s.sameReads b) :
    s.sameReads (if c then a else b) := by
  split
  · exact ha
  · exact hb

/-- An update of what translation, the hedges and the fabric keep. -/
theorem State.sameReads.set (h : s.sameReads t) (hedges : Tbl Hedge) (xl : Xlate) (fq : Option PfQ) (fab : Fabric) :
    s.sameReads { t with hedges := hedges, xl := xl, fq := fq, fab := fab } := h

theorem State.sameReads.upHedge (h : s.sameReads t) (k : Nat) (f : Hedge → Hedge) : s.sameReads (upHedge t k f) := h

theorem walkUnit_sameReads (h : s.sameReads t) (u : Nat) (cid : BitVec 12) (va : Nat) : s.sameReads (walkUnit t u cid va) := by
  have hread : ∀ l x, s.sameReads (forL l (fun a s => dramTouch s a 8) { t with hedges := x }) := fun l x =>
    forL_induct (P := s.sameReads) (fun _ _ hs => hs.dramTouch ..) (h.set ..)
  unfold walkUnit
  split
  dsimp only
  refine State.sameReads.set ?_ _ _ _ _
  split
  · exact .ite (State.sameReads.set (hread ..) _ _ _ _) (hread ..)
  · exact hread ..

theorem walkPages_sameReads (s : State) (u : Nat) (cid : BitVec 12) (l : List (Nat × Nat × Bool)) :
    s.sameReads (walkPages s u cid l) := by
  unfold walkPages
  refine .ite (.refl s) (forL_induct (P := s.sameReads) (fun page t h => ?_) (.refl s))
  unfold useTlb
  split
  · exact h.set ..
  · exact walkUnit_sameReads h ..

theorem postFault_sameReads (h : s.sameReads t) : s.sameReads (postFault t) := by
  unfold postFault
  split
  · refine .ite h (State.sameReads.still ?_ (msix_still ..))
    exact State.sameReads.set (h.still (dmaBytes_still ..)) _ _ _ _
  · exact h

theorem joinFault_sameReads (h : s.sameReads t) (w : WaitTile) : s.sameReads (joinFault t w) := by
  unfold joinFault
  dsimp only
  refine .ite (h.set ..) (.ite (h.set ..) (.ite (.ite (postFault_sameReads (h.set ..)) (h.set ..)) (h.set ..)))

theorem waitTile_sameReads (s : State) (o : Owner) (core : Option Nat) (bag : Option (Nat × Nat)) (h leaf page : Nat) :
    s.sameReads (waitTile s o core bag h leaf page) := by
  unfold waitTile
  dsimp only
  refine .ite (State.sameReads.set (joinFault_sameReads ?_ _) _ _ _ _) (joinFault_sameReads ?_ _)
  · exact State.sameReads.set (.refl s) _ _ _ _
  · exact State.sameReads.set (.refl s) _ _ _ _

/-! ### Requests to other modules (R541, R548) -/

theorem portGo_sameReads (h : s.sameReads t) (p : Nat) : s.sameReads (portGo t p) := by
  unfold portGo
  dsimp only
  split
  · exact h
  · exact h.set ..

theorem wire_sameReads (h : s.sameReads t) (m : Nat) (w0 w1 w2 w3 : Word) (payload : List PWord) :
    s.sameReads (wire t m w0 w1 w2 w3 payload) := by
  unfold wire
  refine .ite h (portGo_sameReads ?_ _)
  exact h.set ..

theorem request_sameReads (s : State) (m : Nat) (lc : Bool) (kind : Nat) (cid : BitVec 12) (w2 w3 : Word) (payload : List PWord)
    (o : Option Owner) (bag core : Option Nat) (dst : Nat) :
    s.sameReads (request s m lc kind cid w2 w3 payload o bag core dst) := by
  unfold request sendReq
  refine .ite ?_ (wire_sameReads ?_ ..)
  · exact State.sameReads.set (.refl s) _ _ _ _
  · exact State.sameReads.set (.refl s) _ _ _ _

/-! ### Reads of host memory (R519) -/

theorem startRead_still (s : State) (fn : Nat) (o : Option Owner) (addr len : Nat) :
    (startRead s fn o addr len).2.still = s.still :=
  forL_induct (P := fun t => t.still = s.still) (fun _ _ h => (sendAs_still ..).trans h) rfl

end

end Sys2Proof.Machine
end

section
/-!
Tail rows (R117, R119), run-ahead reads and their fills (R154 to R156), and tiles that go on (R365).
-/
namespace Sys2Proof.Machine

theorem exec_tailRowFetch (bag : Nat) (s : State) : exec (.tailRowFetch bag) s = execTailRowFetch bag s := rfl

theorem exec_tailRowArrival (bag pos : Nat) (s : State) :
    exec (.tailRowArrival bag pos) s = execTailRowArrival bag pos s := rfl

theorem exec_runAheadRead (e : Fin 24) (bag row : Nat) (s : State) :
    exec (.runAheadRead e bag row) s = execRunAheadRead e bag row s := rfl

theorem exec_thicketFill (h : HedgeId) (fill : Nat) (s : State) : exec (.thicketFill h fill) s = execThicketFill h fill s := rfl

theorem exec_tileResume (tile : Nat) (s : State) : exec (.tileResume tile) s = execTileResume tile s := rfl

/-! ### Asking for tail rows -/

/-- The state without lookups, their bags and records, and what `State.still` leaves out. -/
def State.sansTails (s : State) : State := { s.still with lookRec := [], lookups := [], bags := [] }

theorem fetchTail_sansTails (id : Nat) (b : Bag) (n : Nat) (r : TailRow) (s : State) :
    (fetchTail id b n r s).sansTails = s.sansTails := by
  have hstart : ∀ (t : State) o a, t.sansTails = s.sansTails → (startRead t 0 o a n).2.sansTails = s.sansTails := by
    intro t o a h
    rw [← h, State.sansTails, startRead_still]
    rfl
  unfold fetchTail
  dsimp only
  split
  · split <;> rfl
  · refine (?_ : State.sansTails _ = _)
    split
    · exact hstart _ _ _ rfl
    · exact hstart _ _ _ rfl

/-- A fetch is counted by where the row lies (R124). -/
theorem fetchTail_lookRec (id : Nat) (b : Bag) (n : Nat) (r : TailRow) (s : State) :
    Tbl.get {} (fetchTail id b n r s).lookRec (b.key / 4) = { Tbl.get {} s.lookRec (b.key / 4) with
      flashFetches := (Tbl.get {} s.lookRec (b.key / 4)).flashFetches + b2n (r.space == 2)
      hostFetches := (Tbl.get {} s.lookRec (b.key / 4)).hostFetches + b2n (!(r.space == 2)) } := by
  have hstart : ∀ (t : State) o a, (startRead t 0 o a n).2.lookRec = t.lookRec := fun t o a =>
    (congrArg State.lookRec (startRead_still t 0 o a n) : State.lookRec (State.still _) = State.lookRec (State.still _))
  have hcount : ∀ t : State, t.lookRec = (upLook s (b.key / 4) (fun x => { x with
      flashFetches := x.flashFetches + b2n (r.space == 2), hostFetches := x.hostFetches + b2n (!(r.space == 2)) })).lookRec →
      Tbl.get {} t.lookRec (b.key / 4) = { Tbl.get {} s.lookRec (b.key / 4) with
        flashFetches := (Tbl.get {} s.lookRec (b.key / 4)).flashFetches + b2n (r.space == 2)
        hostFetches := (Tbl.get {} s.lookRec (b.key / 4)).hostFetches + b2n (!(r.space == 2)) } := by
    intro t h
    rw [h, upLook, Tbl.get_upd, if_pos rfl]
  refine hcount _ ?_
  unfold fetchTail
  dsimp only
  split
  · split <;> rfl
  · refine (hstart ..).trans ?_
    split <;> rfl

section
variable {s t : State}

theorem dram_of_sansTails (h : t.sansTails = s.sansTails) : t.dram = s.dram :=
  (congrArg State.dram h : t.sansTails.dram = s.sansTails.dram)

theorem jobs_of_sansTails (h : t.sansTails = s.sansTails) : t.jobs = s.jobs :=
  (congrArg State.jobs h : t.sansTails.jobs = s.sansTails.jobs)

theorem cores_of_sansTails (h : t.sansTails = s.sansTails) : t.cores = s.cores :=
  (congrArg State.cores h : t.sansTails.cores = s.sansTails.cores)

theorem hedges_of_sansTails (h : t.sansTails = s.sansTails) : t.hedges = s.hedges :=
  (congrArg State.hedges h : t.sansTails.hedges = s.sansTails.hedges)

end

/-- The fetches of a list of tail rows, counted by where they lie. -/
theorem fetchTails_spec (id : Nat) (b : Bag) (n : Nat) (rows : List TailRow) (s : State) :
    (forL rows (fetchTail id b n) s).sansTails = s.sansTails ∧
    (Tbl.get {} (forL rows (fetchTail id b n) s).lookRec (b.key / 4)).flashFetches =
      (Tbl.get {} s.lookRec (b.key / 4)).flashFetches + rows.countP (fun r => r.space == 2) ∧
    (Tbl.get {} (forL rows (fetchTail id b n) s).lookRec (b.key / 4)).hostFetches =
      (Tbl.get {} s.lookRec (b.key / 4)).hostFetches + rows.countP (fun r => r.space != 2) := by
  induction rows generalizing s with
  | nil => exact ⟨rfl, rfl, rfl⟩
  | cons r rows ih =>
    obtain ⟨hrest, hflash, hhost⟩ := ih (fetchTail id b n r s)
    rw [forL_cons]
    refine ⟨hrest.trans (fetchTail_sansTails ..), ?_, ?_⟩
    · rw [hflash, fetchTail_lookRec, List.countP_cons]
      simp only [b2n]
      omega
    · rw [hhost, fetchTail_lookRec, List.countP_cons]
      simp only [b2n, bne]
      omega

/-! ### The arrival of a tail row -/

section
variable {s : State} {id pos : Nat} {b : Bag} {r : TailRow} (hpow : s.powered = true) (hb : s.bag id = some b)
  (hr : b.tails.find? (fun q => q.pos == pos) = some r)
include hpow hb hr

theorem exec_tailRowArrival_of_missing
    (hw : tailWords s b r (8 * rowWords (s.slot b.key).entry.format (s.slot b.key).entry.elems) = none) :
    exec (.tailRowArrival id pos) s = .next s := by
  rw [exec_tailRowArrival, execTailRowArrival, whenPowered_of_powered hpow]
  simp only [hb, hr, hw]

variable {w : List PWord}
  (hw : tailWords s b r (8 * rowWords (s.slot b.key).entry.format (s.slot b.key).entry.elems) = some w)
include hw

theorem exec_tailRowArrival_of_poison (hcb : isCb (s.slot b.key).entry.format = true)
    (hbad : (hedgeCb (b.engine / 2) (s.slot b.key).entry.codebookId s).2 = false) :
    exec (.tailRowArrival id pos) s =
      .next (homeFail (hedgeCb (b.engine / 2) (s.slot b.key).entry.codebookId s).1 b stPoisoned) := by
  rw [exec_tailRowArrival, execTailRowArrival, whenPowered_of_powered hpow]
  simp only [hb, hr, hw, withCb_of_poison _ hcb hbad, State.withBook, if_pos hcb]

/-- A tail row that has come is pooled into its bag, and no longer awaited. -/
theorem exec_tailRowArrival_of_book (hgood : isCb (s.slot b.key).entry.format = true →
      (hedgeCb (b.engine / 2) (s.slot b.key).entry.codebookId s).2 = true) :
    ∃ t k, exec (.tailRowArrival id pos) s = .next t ∧
      t.bag id = some { b with tails := dropFirst (fun q => q.pos == pos) b.tails, got := b.got ++ [k] } ∧
      k.order = (2, pos, 0) ∧ (∀ i, t.dram.word i = s.dram.word i) ∧ t.jobs = s.jobs ∧ t.cores = s.cores := by
  obtain ⟨hreads, -⟩ := withBook_frame s (b.engine / 2) b
  have hbags := bags_of_sansReads hreads
  have hdram := dram_of_sansReads hreads
  have hjobs := jobs_of_sansReads hreads
  have hcores := cores_of_sansReads hreads
  rw [exec_tailRowArrival, execTailRowArrival, whenPowered_of_powered hpow]
  simp only [hb, hr, hw, withCb_of_good _ hgood]
  refine ⟨_, _, rfl, upBag_bag_same (fun _ => rfl) ((bag_of_bags ?_ id).trans hb), rfl, fun i => ?_, ?_, ?_⟩
  · split <;> exact hbags
  · refine congrArg (Mem.word · i) (?_ : State.dram _ = _)
    split <;> exact hdram
  · refine (?_ : State.jobs _ = _)
    split <;> exact hjobs
  · refine (?_ : State.cores _ = _)
    split <;> exact hcores

end

/-! ### Reading ahead (R154, R155) -/

/-- A read ahead changes no memory, no job and no lookup, whatever it meets. -/
theorem exec_runAheadRead_sameReads {s t : State} {e : Fin 24} {bag row : Nat} (hpow : s.powered = true)
    (h : exec (.runAheadRead e bag row) s = .next t) : s.sameReads t := by
  rw [exec_runAheadRead, execRunAheadRead, whenPowered_of_powered hpow] at h
  injection h with h
  subst h
  have hcount : ∀ key u cid x i, s.sameReads (countRow key u cid x i s) := fun _ _ _ _ _ =>
    (countRow_sameButCounts ..).sameReads
  split
  · exact .refl s
  dsimp only
  split
  · split
    · exact .refl s
    · split
      · exact .refl s
      · split
        · split
          · exact (hcount ..).upHedge ..
          · split
            · exact State.sameReads.dramTouch (hcount ..) ..
            · exact hcount ..
        · exact .refl s
  · exact .refl s

section
variable {s t : State} (hh : t.hedges = s.hedges) (hc : t.chans = s.chans) (hi : t.imap = s.imap)

include hi in
theorem stack_congr (off : Nat) : t.stack off = s.stack off := by rw [State.stack, State.channel, hi]; rfl

include hh in
theorem hedge_congr (k : Nat) : t.hedge k = s.hedge k := by rw [State.hedge, hh]; rfl

include hc hi in
theorem chan_channel_congr (off : Nat) : t.chan (t.channel off) = s.chan (s.channel off) := by
  rw [State.chan, State.channel, hc, hi]
  rfl

include hh hi in
theorem poolStop_congr (cid : BitVec 12) (n : Nat) (l : List Nat) : t.poolStop cid n l = s.poolStop cid n l := by
  have hok : ∀ a, t.privetOk cid 0 a false = s.privetOk cid 0 a false := fun a => by
    simp only [State.privetOk, State.privetEntry, hedge_congr hh, stack_congr hi]
  simp only [State.poolStop, hok]

include hc hi in
theorem busyLines_congr (l : List Nat) : t.busyLines l = s.busyLines l := by
  simp only [State.busyLines, chan_channel_congr hc hi]

end

/-- A read ahead of a row that nothing stops fills lines of the slice of its stack. -/
theorem exec_runAheadRead_fills {s : State} {e : Fin 24} {bag row i off : Nat} {l : Lookup} (hpow : s.powered = true)
    (hl : s.lookups.find? (fun x => x.engine == e.val && decide (x.nextBag < (parseLook x.desc).nbags)) = some l)
    (hbag : l.nextBag ≤ bag ∧ bag < l.nextBag + 256 ∧ bag < (parseLook l.desc).nbags) (hpeek : peekIndex s l bag row = some i)
    (hrow : i < (s.slot l.key).entry.rowCount)
    (hat : rowAt s (uSlalom e.val) l.owner.cid (s.slot l.key).entry false i = .dram off)
    (hopen : s.poolStop l.owner.cid (8 * rowWords (s.slot l.key).entry.format (s.slot l.key).entry.elems) [off] = none)
    (hroom : (s.chan (s.channel off)).room false = true)
    (hfree : s.busyLines (linesOf off (8 * rowWords (s.slot l.key).entry.format (s.slot l.key).entry.elems)) = false) :
    ∃ t f, exec (.runAheadRead e bag row) s = .next t ∧
      (t.hedge (s.stack off)).fills = (s.hedge (s.stack off)).fills ++ [f] ∧ f.table = l.key / 4 ∧
      f.vslot = l.key % 4 ∧ f.pa = off / 64 * 64 ∧ f.cancelled = false := by
  have hcount := countRow_sameButCounts l.key (uSlalom e.val) l.owner.cid (s.slot l.key).entry i s
  have hh := hcount.hedges
  have hi := hcount.imap
  rw [exec_runAheadRead, execRunAheadRead, whenPowered_of_powered hpow]
  generalize hu : countRow l.key (uSlalom e.val) l.owner.cid (s.slot l.key).entry i s = u at hcount hh hi
  have hfills : ∀ a n m (f : TFill), ((upHedge { dramTouch u a n with nextPiece := m } (s.stack off)
      (fun x => { x with fills := x.fills ++ [f] })).hedge (s.stack off)).fills = (s.hedge (s.stack off)).fills ++ [f] := by
    intro a n m f
    rw [upHedge_hedge, if_pos rfl]
    refine congrArg (fun h : Hedge => h.fills ++ [f]) (?_ : State.hedge _ _ = _)
    exact hedge_congr ((hedges_of_sansChans (dramTouch_sansChans ..)).trans hh) _
  simp only [hl, if_pos hbag, hpeek, if_neg (Nat.not_le.2 hrow), hat, hu, stack_congr hi, poolStop_congr hh hi, hopen,
    Option.isSome_none, Bool.false_eq_true, if_false, chan_channel_congr hcount.chans hi, hroom,
    busyLines_congr hcount.chans hi, hfree, Bool.not_false, Bool.and_self, if_true]
  exact ⟨_, _, rfl, hfills .., rfl, rfl, rfl, rfl⟩

/-! ### Fills (R150, R156) -/

@[simp] theorem Hedge.fill_fills (h : Hedge) (x : TLine) : (h.fill x).fills = h.fills := rfl

theorem Hedge.mem_fill (h : Hedge) (x : TLine) : x ∈ (h.fill x).thicket := List.mem_append_right _ (List.mem_singleton_self x)

/-- A fill takes no line of another set out of a slice. -/
theorem Hedge.mem_fill_of_mem {h : Hedge} {x y : TLine} (hy : y ∈ h.thicket) (hset : thicketSet y.pa ≠ thicketSet x.pa) :
    y ∈ (h.fill x).thicket := by
  have hrest : y ∈ h.thicket.filter (fun y => !(y.pa == x.pa && y.tag == x.tag)) := by
    refine List.mem_filter.2 ⟨hy, ?_⟩
    have hpa : y.pa ≠ x.pa := fun e => hset (congrArg thicketSet e)
    simp [hpa]
  refine List.mem_append_left _ ?_
  split
  · exact hrest
  · exact mem_dropFirst_of_not hrest (by simpa using hset)

theorem fillAll_fills (h : Hedge) (line : Nat → TLine) (l : List Nat) :
    (l.foldl (fun x i => x.fill (line i)) h).fills = h.fills := by
  induction l generalizing h with
  | nil => rfl
  | cons i l ih => exact ih _

/-- Filling lines of different sets leaves them all in the slice. -/
theorem mem_fillAll (h : Hedge) (line : Nat → TLine) (n : Nat)
    (hset : ∀ i j, i < j → j < n → thicketSet (line i).pa ≠ thicketSet (line j).pa) {i : Nat} (hi : i < n) :
    line i ∈ ((List.range n).foldl (fun x i => x.fill (line i)) h).thicket := by
  induction n with
  | zero => exact absurd hi (Nat.not_lt_zero i)
  | succ n ih =>
    rw [List.range_succ, List.foldl_append, List.foldl_cons, List.foldl_nil]
    rcases Nat.lt_succ_iff_lt_or_eq.1 hi with hlt | rfl
    · exact Hedge.mem_fill_of_mem (ih (fun i j hij hj => hset i j hij (Nat.lt_succ_of_lt hj)) hlt)
        (hset i n hlt (Nat.lt_succ_self n))
    · exact Hedge.mem_fill ..

/-- Line i of a fill. -/
def TFill.line (f : TFill) (i : Nat) : TLine :=
  { tag := some (f.table, f.vslot), pa := f.pa + 64 * i, data := ((f.data.drop (8 * i)).take 8).map codeWord }

theorem TFill.thicketSet_line_ne (f : TFill) {i j : Nat} (hij : i < j) (hj : j < f.lines) (hlines : f.lines ≤ 24576) :
    thicketSet (f.line i).pa ≠ thicketSet (f.line j).pa := by
  unfold TFill.line thicketSet thicketSets
  dsimp only
  omega

section
variable {s : State} {h : HedgeId} {f : TFill} (hpow : s.powered = true)
  (hf : (s.hedge h).fills.find? (fun g => g.id == f.id) = some f)
include hpow hf

theorem exec_thicketFill_eq : exec (.thicketFill h f.id) s = .next
    (if f.cancelled then upHedge s h (fun x => { x with fills := dropFirst (fun g => g.id == f.id) x.fills })
    else upHedge (upHedge s h (fun x => { x with fills := dropFirst (fun g => g.id == f.id) x.fills })) h
      (fun x => (List.range f.lines).foldl (fun x i => x.fill (f.line i)) x)) := by
  rw [exec_thicketFill, execThicketFill, whenPowered_of_powered hpow]
  simp only [hf]
  rfl

/-- A fill leaves those in flight; a cancelled one is dropped, another puts its lines into the slice. -/
theorem exec_thicketFill_spec : ∃ t, exec (.thicketFill h f.id) s = .next t ∧
      (t.hedge h).fills = dropFirst (fun g => g.id == f.id) (s.hedge h).fills ∧
      (f.cancelled = true → (t.hedge h).thicket = (s.hedge h).thicket) ∧
      (f.cancelled = false → f.lines ≤ 24576 → ∀ i, i < f.lines → f.line i ∈ (t.hedge h).thicket) ∧
      (∀ k, k ≠ h.val → t.hedge k = s.hedge k) ∧ t = { s with hedges := t.hedges } := by
  rw [exec_thicketFill_eq hpow hf]
  cases hcan : f.cancelled
  case true =>
    refine ⟨_, rfl, ?_, fun _ => ?_, nofun, fun k hk => ?_, rfl⟩
    · simp
    · simp
    · simp [hk]
  case false =>
    refine ⟨_, rfl, ?_, nofun, fun _ hlines i hi => ?_, fun k hk => ?_, rfl⟩
    · simp [fillAll_fills]
    · simpa using mem_fillAll _ f.line f.lines (fun i j hij hj => f.thicketSet_line_ne hij hj hlines) hi
    · simp [hk]

end

/-! ### Tiles that go on (R365) -/

/-- The state without the waiting tile. -/
def State.freed (s : State) (t : WaitTile) : State :=
  { s with xl := { s.xl with waiting := dropFirst (fun x => x.id == t.id) s.xl.waiting } }

section
variable {s : State} {t : WaitTile} (hpow : s.powered = true) (ht : s.xl.waiting.find? (fun x => x.id == t.id) = some t)
include hpow ht

theorem exec_tileResume_of_valid (hvalid : pteState (s.node t.leaf) = stValid)
    (hgone : (s.freed t).xl.waiting.any (fun x => x.id == t.id) = false) :
    (∀ p, t.bag = some p → exec (.tileResume t.id) s = .next (classify (s.freed t) p.1)) ∧
    (t.bag = none → exec (.tileResume t.id) s = .next (runGrads (s.freed t))) := by
  have hst : decide (pteState (s.node t.leaf) = stInvalid) = false := by rw [hvalid]; rfl
  have hres : resumeTile s t = s.freed t := by rw [resumeTile, if_pos hvalid]; rfl
  rw [exec_tileResume, execTileResume, whenPowered_of_powered hpow]
  simp only [ht, hst, hres, hgone, Bool.false_eq_true, if_false]
  constructor
  · intro p hp
    simp [hp]
  · intro hp
    simp [hp]

theorem exec_tileResume_of_invalid (hinvalid : pteState (s.node t.leaf) = stInvalid) (hbag : t.bag = none)
    (hjob : t.owner.job ≠ 0)
    (hgone : (failJob (s.freed t) t.owner stUnmapped).xl.waiting.any (fun x => x.id == t.id) = false) :
    exec (.tileResume t.id) s = .next (runGrads (failJob (s.freed t) t.owner stUnmapped)) := by
  have hres : resumeTile s t = failJob (s.freed t) t.owner stUnmapped := by
    rw [resumeTile, hinvalid, if_neg (by decide), if_pos rfl, if_neg hjob]
    rfl
  rw [exec_tileResume, execTileResume, whenPowered_of_powered hpow]
  simp [ht, hres, hgone, hbag]

end

/-- Settles O45: what a fetch counts, what an arrival pools, what a read ahead may change and where it fills, what a fill
leaves, and how a tile goes on, each by its own lemma. -/
theorem tailsAndRunAhead : Obligations.TailsAndRunAhead := by
  unfold Obligations.TailsAndRunAhead
  refine ⟨fun s id b hpow hb => ?fetch, fun s id pos b r w hpow hb hr => ?arrival, fun s e bag row hpow => ?ahead,
    fun s h f hpow hf => ?fill, fun s t hpow ht => ?resume⟩
  case fetch =>
    dsimp only
    rw [exec_tailRowFetch, execTailRowFetch, whenPowered_of_powered hpow]
    refine ⟨fun pa hpa => ?_, fun hopen => ?_⟩
    · simp only [hb, hpa]
    · obtain ⟨hsans, hflash, hhost⟩ := fetchTails_spec id b (8 * rowWords (s.slot b.key).entry.format (s.slot b.key).entry.elems)
        (b.tails.filter (fun r => r.state == .wanted)) s
      simp only [hb, hopen]
      exact ⟨_, rfl, hflash, hhost, dram_of_sansTails hsans, jobs_of_sansTails hsans, cores_of_sansTails hsans,
        hedges_of_sansTails hsans⟩
  case arrival =>
    exact ⟨exec_tailRowArrival_of_missing hpow hb hr, exec_tailRowArrival_of_poison hpow hb hr,
      exec_tailRowArrival_of_book hpow hb hr⟩
  case ahead =>
    obtain ⟨t, ht⟩ : ∃ t, exec (.runAheadRead e bag row) s = .next t := ⟨_, exec_runAheadRead ..⟩
    obtain ⟨hreads, -⟩ := exec_runAheadRead_sameReads hpow ht
    refine ⟨t, ht, fun i => by rw [dram_of_sansReads hreads], jobs_of_sansReads hreads, cores_of_sansReads hreads,
      bags_of_sansReads hreads, lookups_of_sansReads hreads, sched_of_sansReads hreads,
      fun l i off hl hlo hwin hbags hpeek hrow hat hopen hroom hfree => ?_⟩
    obtain ⟨t', f, ht', hf⟩ := exec_runAheadRead_fills hpow hl ⟨hlo, hwin, hbags⟩ hpeek hrow hat hopen hroom hfree
    cases ht.symm.trans ht'
    exact ⟨f, hf⟩
  case fill =>
    obtain ⟨t, ht, hfills, hcan, hlines, hrest⟩ := exec_thicketFill_spec hpow hf
    exact ⟨t, ht, hfills, hcan, fun hc hn i hi => ⟨f.line i, hlines hc hn i hi, rfl, rfl, rfl⟩, hrest⟩
  case resume =>
    refine ⟨fun hvalid hgone => ?_, exec_tileResume_of_invalid hpow ht⟩
    obtain ⟨hbag, hgrad⟩ := exec_tileResume_of_valid hpow ht hvalid hgone
    cases hb : t.bag with
    | none => exact hgrad hb
    | some p => exact hbag p hb

end Sys2Proof.Machine
end

section
/-!
Bytes of a protected memory that are written and read back (R271, R374).
-/
namespace Sys2Proof.Machine

/-! ### Bytes of words -/

theorem leNat_lt (l : List Byte) : leNat l < 256 ^ l.length := by
  induction l with
  | nil => exact Nat.one_pos
  | cons b l ih =>
    have := b.isLt
    rw [leNat, List.length_cons, Nat.pow_succ]
    omega

theorem leBytes_leNat (l : List Byte) : leBytes l.length (leNat l) = l := by
  induction l with
  | nil => rfl
  | cons b l ih =>
    have hlt := b.isLt
    have hdiv : (b.toNat + 256 * leNat l) / 256 = leNat l := by omega
    rw [List.length_cons, leBytes, leNat, hdiv, ih]
    congr 1
    apply BitVec.eq_of_toNat_eq
    rw [BitVec.toNat_ofNat]
    omega

/-- The bytes of a word made of eight bytes. -/
theorem wordBytes_ofNat_leNat {l : List Byte} (h : l.length = 8) : wordBytes (BitVec.ofNat 64 (leNat l)) = l := by
  have hlt := leNat_lt l
  have hbytes := leBytes_leNat l
  rw [h] at hlt hbytes
  rwa [wordBytes, BitVec.toNat_ofNat, Nat.mod_eq_of_lt (by simpa using hlt)]

theorem leNat_shiftRight (l : List Byte) {j : Nat} {b : Byte} (h : l[j]? = some b) :
    BitVec.ofNat 8 ((leNat l >>> (8 * j)) % 256) = b := by
  induction l generalizing j with
  | nil => cases h
  | cons x l ih =>
    have hlt := x.isLt
    cases j with
    | zero =>
      obtain rfl : x = b := by simpa using h
      apply BitVec.eq_of_toNat_eq
      rw [BitVec.toNat_ofNat, leNat, Nat.mul_zero, Nat.shiftRight_zero]
      omega
    | succ j =>
      have hdiv : (x.toNat + 256 * leNat l) / 2 ^ 8 = leNat l := by omega
      rw [leNat, Nat.mul_succ, Nat.add_comm (8 * j), Nat.shiftRight_add, Nat.shiftRight_eq_div_pow _ 8, hdiv]
      exact ih (by simpa using h)

/-! ### Bytes that are held -/

/-- Byte x lies in a word with a valid code, and is v. -/
def Mem.holds (m : Mem) (x : Nat) (v : Byte) : Prop :=
  m.syndrome (x / 8) = 0 ∧ Tbl.get (m.dfltByte x) m.bytes x = v

/-- A byte that a memory holds is what a reader gets. -/
theorem Mem.byte_of_holds {m : Mem} {x : Nat} {v : Byte} (h : m.holds x v) : m.byte x = v := by
  obtain ⟨hsyn, rfl⟩ := h
  unfold Mem.byte
  split
  next hclean =>
    have hlost : m.lost = none := by simpa using (Bool.and_eq_true_iff.1 hclean).2
    rw [Mem.dfltByte, hlost]
  next =>
    have hlt : x % 8 < 8 := Nat.mod_lt _ (by decide)
    rw [Mem.word_eq, hsyn]
    show BitVec.ofNat 8 (((m.raw (x / 8)).toNat >>> (8 * (x % 8))) % 256) = _
    rw [Mem.raw, BitVec.toNat_ofNat, Nat.mod_eq_of_lt ((leNat_lt _).trans_eq (by simp))]
    refine leNat_shiftRight _ ?_
    rw [List.getElem?_map, List.getElem?_range hlt, Option.map_some, Nat.div_add_mod]

theorem Mem.syndrome_putByte (m : Mem) (a i : Nat) (b : Byte) : (m.putByte a b).syndrome i = m.syndrome i := rfl

theorem Mem.holds_putByte {m : Mem} {x : Nat} {v : Byte} (h : m.holds x v) {a : Nat} (hx : x ≠ a) (b : Byte) :
    (m.putByte a b).holds x v := by
  obtain ⟨hsyn, hv⟩ := h
  exact ⟨hsyn, by rw [Mem.dfltByte_putByte, Mem.get_putByte, if_neg hx, hv]⟩

theorem Mem.putByte_holds {m : Mem} {a : Nat} (h : m.syndrome (a / 8) = 0) (b : Byte) : (m.putByte a b).holds a b :=
  ⟨h, by rw [Mem.dfltByte_putByte, Mem.get_putByte, if_pos rfl]⟩

/-- A write of a word leaves the bytes of the others. -/
theorem Mem.holds_putWord {m : Mem} {x : Nat} {v : Byte} (h : m.holds x v) {i : Nat} (hx : x / 8 ≠ i) (p : PWord) :
    (m.putWord i p).holds x v := by
  obtain ⟨hsyn, hv⟩ := h
  refine ⟨by rw [Mem.syndrome_putWord, if_neg hx, hsyn], ?_⟩
  rw [Mem.putWord_dfltByte, Mem.putWord_bytes, Mem.get_putBytes, dif_neg, hv]
  rw [wordBytes_length]
  omega

theorem Mem.putWord_holds (m : Mem) (i : Nat) (w : Word) {j : Nat} {v : Byte} (h : (wordBytes w)[j]? = some v) :
    (m.putWord i (.good w)).holds (8 * i + j) v := by
  obtain ⟨hj, hv⟩ := List.getElem?_eq_some_iff.1 h
  have hlen := wordBytes_length w
  have hdiv : (8 * i + j) / 8 = i := by omega
  refine ⟨by rw [Mem.syndrome_putWord, if_pos hdiv]; rfl, ?_⟩
  rw [Mem.putWord_dfltByte, Mem.putWord_bytes, Mem.get_putBytes, dif_pos ⟨Nat.le_add_right .., Nat.add_lt_add_left hj _⟩, ← hv]
  exact getElem_congr_idx (Nat.add_sub_cancel_left ..)

theorem Mem.holds_settle {m : Mem} {x : Nat} {v : Byte} (h : m.holds x v) (i : Nat) : (m.settle i).holds x v := by
  unfold Mem.settle
  split
  · exact h
  next hi =>
    refine Mem.holds_putWord h (fun e => hi ?_) _
    rw [← e]
    exact h.1

/-- A word that reads as good has a valid code once it has been settled. -/
theorem Mem.syndrome_settle {m : Mem} {i : Nat} (h : (m.word i).poison = false) : (m.settle i).syndrome i = 0 := by
  unfold Mem.settle
  split
  next hi => exact hi
  next => rw [Mem.syndrome_putWord, if_pos rfl, h]; rfl

theorem Mem.word_poison_of_syndrome {m : Mem} {i : Nat} (h : m.syndrome i = 0) : (m.word i).poison = false := by
  rw [Mem.word_eq, h]
  rfl

/-! ### Writes of words and of bytes -/

theorem Mem.holds_putWords {x : Nat} {v : Byte} (l : List PWord) {m : Mem} (h : m.holds x v) {i : Nat}
    (hx : x / 8 < i ∨ i + l.length ≤ x / 8) : (m.putWords i l).holds x v := by
  induction l generalizing m i with
  | nil => exact h
  | cons p l ih =>
    rw [List.length_cons] at hx
    exact ih (Mem.holds_putWord h (by omega) p) (by omega)

theorem Mem.putWords_holds (n : Nat) (m : Mem) (i : Nat) {l : List Byte} (hl : l.length = 8 * n) {j : Nat} {v : Byte}
    (h : l[j]? = some v) : (m.putWords i ((bytesWords l n).map .good)).holds (8 * i + j) v := by
  induction n generalizing m i l j with
  | zero =>
    rw [List.eq_nil_of_length_eq_zero hl] at h
    cases h
  | succ n ih =>
    rw [bytesWords, List.map_cons, Mem.putWords]
    by_cases hj : j < 8
    · refine Mem.holds_putWords _ (Mem.putWord_holds m i _ ?_) (.inl (by omega))
      rw [wordBytes_ofNat_leNat (by rw [List.length_take]; omega), List.getElem?_take_of_lt hj, h]
    · have hrest := ih (m.putWord i (.good (BitVec.ofNat 64 (leNat (l.take 8))))) (i + 1) (l := l.drop 8)
        (by rw [List.length_drop]; omega) (j := j - 8) (by rw [List.getElem?_drop, ← h]; congr 1; omega)
      rwa [show 8 * (i + 1) + (j - 8) = 8 * i + j by omega] at hrest

/-- The memory in which a part of word i can be written. -/
def Mem.opened (m : Mem) (i : Nat) : Mem := if m.clean then m else m.settle i

/-- What a write of one byte does. -/
def Mem.setByte (m : Mem) (a : Nat) (b : Byte) : Mem :=
  if (m.opened (a / 8)).syndrome (a / 8) = 0xFE then m.opened (a / 8) else (m.opened (a / 8)).putByte a b

theorem Mem.writeBytes_cons (m : Mem) (a : Nat) (b : Byte) (l : List Byte) :
    m.writeBytes a (b :: l) = (m.setByte a b).writeBytes (a + 1) l := rfl

/-- In a memory whose words are all clean, none has a syndrome. -/
theorem Mem.syndrome_of_clean {m : Mem} (h : m.clean = true) (i : Nat) : m.syndrome i = 0 := by
  obtain ⟨hsyn, hlost⟩ := Bool.and_eq_true_iff.1 h
  have hlost : m.lost = none := by simpa using hlost
  rw [Mem.syndrome, List.isEmpty_iff.1 hsyn, Mem.dfltSyn, hlost]
  rfl

theorem Mem.syndrome_opened {m : Mem} {i : Nat} (h : (m.word i).poison = false) : (m.opened i).syndrome i = 0 := by
  unfold Mem.opened
  split
  next hc => exact Mem.syndrome_of_clean hc i
  next => exact Mem.syndrome_settle h

theorem Mem.word_opened (m : Mem) (i j : Nat) : (m.opened i).word j = m.word j := by
  unfold Mem.opened
  split
  · rfl
  · exact Mem.word_settle ..

theorem Mem.holds_opened {m : Mem} {x : Nat} {v : Byte} (h : m.holds x v) (i : Nat) : (m.opened i).holds x v := by
  unfold Mem.opened
  split
  · exact h
  · exact Mem.holds_settle h i

theorem Mem.word_putByte_ne (m : Mem) {a i : Nat} (h : a / 8 ≠ i) (b : Byte) : (m.putByte a b).word i = m.word i :=
  Mem.word_congr (fun j _ => by rw [Mem.dfltByte_putByte, Mem.get_putByte, if_neg (by omega)]) rfl

theorem Mem.holds_setByte {m : Mem} {x : Nat} {v : Byte} (h : m.holds x v) {a : Nat} (hx : x ≠ a) (b : Byte) :
    (m.setByte a b).holds x v := by
  unfold Mem.setByte
  split
  · exact Mem.holds_opened h _
  · exact Mem.holds_putByte (Mem.holds_opened h _) hx b

theorem Mem.setByte_holds {m : Mem} {a : Nat} (h : (m.word (a / 8)).poison = false) (b : Byte) : (m.setByte a b).holds a b := by
  have hs := Mem.syndrome_opened h
  rw [Mem.setByte, if_neg (by rw [hs]; decide)]
  exact Mem.putByte_holds hs b

/-- A word that reads as good does so after a write of one byte. -/
theorem Mem.word_setByte_good {m : Mem} {a i : Nat} (h : (m.word i).poison = false) (b : Byte) :
    ((m.setByte a b).word i).poison = false := by
  by_cases hi : a / 8 = i
  · subst hi
    exact Mem.word_poison_of_syndrome (Mem.setByte_holds h b).1
  · unfold Mem.setByte
    split
    · rwa [Mem.word_opened]
    · rwa [Mem.word_putByte_ne _ hi, Mem.word_opened]

theorem Mem.holds_writeBytes {x : Nat} {v : Byte} (l : List Byte) {m : Mem} (h : m.holds x v) {a : Nat}
    (hx : x < a ∨ a + l.length ≤ x) : (m.writeBytes a l).holds x v := by
  induction l generalizing m a with
  | nil => exact h
  | cons b l ih =>
    rw [List.length_cons] at hx
    exact ih (Mem.holds_setByte h (by omega) b) (by omega)

theorem Mem.writeBytes_holds (l : List Byte) {m : Mem} {a : Nat} (hgood : ∀ j < l.length, (m.word ((a + j) / 8)).poison = false)
    {j : Nat} {v : Byte} (h : l[j]? = some v) : (m.writeBytes a l).holds (a + j) v := by
  induction l generalizing m a j with
  | nil => cases h
  | cons b l ih =>
    rw [Mem.writeBytes_cons]
    cases j with
    | zero =>
      obtain rfl : b = v := by simpa using h
      exact Mem.holds_writeBytes l (Mem.setByte_holds (hgood 0 (Nat.succ_pos _)) b) (.inl (Nat.lt_succ_self a))
    | succ j =>
      have hrest : ∀ k < l.length, (((m.setByte a b).word ((a + 1 + k) / 8))).poison = false := by
        intro k hk
        rw [Nat.add_assoc, Nat.add_comm 1]
        exact Mem.word_setByte_good (hgood (k + 1) (Nat.succ_lt_succ hk)) b
      have hheld := ih hrest (j := j) (by simpa using h)
      rwa [Nat.add_assoc, Nat.add_comm 1] at hheld

theorem Mem.word_putWords_below (l : List PWord) (m : Mem) {i j : Nat} (h : i + l.length ≤ j) :
    (m.putWords i l).word j = m.word j := by
  rw [Mem.word_putWords, dif_neg (by omega)]

@[simp] theorem length_bytesWords (l : List Byte) (n : Nat) : (bytesWords l n).length = n := by
  induction n generalizing l with
  | zero => rfl
  | succ n ih => rw [bytesWords, List.length_cons, ih]

/-- What has been written from a word's start over words that read as good is read back (R271). -/
theorem Mem.read_write {m : Mem} {a : Nat} {l : List Byte} (ha : a % 8 = 0)
    (hgood : ∀ j < l.length, (m.word ((a + j) / 8)).poison = false) : (m.write a l).read a l.length = l := by
  have hhead : headBytes a l.length = 0 := by rw [headBytes, ha]; exact Nat.min_zero _
  have hwhole : wholeWords a l.length = l.length / 8 := by rw [wholeWords, hhead, Nat.sub_zero]
  have hn : 8 * (l.length / 8) ≤ l.length := Nat.mul_div_le ..
  have hwrite : m.write a l = (m.putWords (a / 8) ((bytesWords (l.take (8 * (l.length / 8))) (l.length / 8)).map .good)).writeBytes
      (a + 8 * (l.length / 8)) (l.drop (8 * (l.length / 8))) := by
    unfold Mem.write
    simp only [hhead, hwhole, List.take_zero, List.drop_zero, Mem.writeBytes, Nat.add_zero, Nat.zero_add]
  have hheld : ∀ j v, l[j]? = some v → (m.write a l).holds (a + j) v := by
    intro j v hj
    rw [hwrite]
    by_cases hlt : j < 8 * (l.length / 8)
    · refine Mem.holds_writeBytes _ ?_ (.inl (by omega))
      have hput := Mem.putWords_holds (l.length / 8) m (a / 8) (l := l.take (8 * (l.length / 8)))
        (by rw [List.length_take]; omega) (j := j) (v := v) (by rw [List.getElem?_take_of_lt hlt, hj])
      rwa [show 8 * (a / 8) + j = a + j by omega] at hput
    · have hput := Mem.writeBytes_holds (l.drop (8 * (l.length / 8)))
        (m := m.putWords (a / 8) ((bytesWords (l.take (8 * (l.length / 8))) (l.length / 8)).map .good))
        (a := a + 8 * (l.length / 8)) (fun k hk => ?_) (j := j - 8 * (l.length / 8)) (v := v)
        (by rw [List.getElem?_drop, ← hj]; congr 1; omega)
      · rwa [show a + 8 * (l.length / 8) + (j - 8 * (l.length / 8)) = a + j by omega] at hput
      · rw [List.length_drop] at hk
        rw [Mem.word_putWords_below _ _ (by rw [List.length_map, length_bytesWords]; omega), Nat.add_assoc]
        exact hgood _ (by omega)
  refine List.ext_getElem? fun j => ?_
  unfold Mem.read
  by_cases hj : j < l.length
  · rw [List.getElem?_map, List.getElem?_range hj, Option.map_some, List.getElem?_eq_getElem hj,
      Mem.byte_of_holds (hheld j _ (List.getElem?_eq_getElem hj))]
  · rw [List.getElem?_eq_none (by simpa using hj), List.getElem?_eq_none (by simpa using hj)]

/-! ### Ranges without poison -/

/-- The syndrome decides whether a word reads as poison. -/
theorem readCode_poison_congr (v w : Word) (y : BitVec 8) : (readCode v y).poison = (readCode w y).poison := by
  unfold readCode
  cases synKind y <;> rfl

theorem Tbl.mem_of_get_ne {α : Type} {d : α} {t : Tbl α} {k : Nat} (h : Tbl.get d t k ≠ d) : (k, Tbl.get d t k) ∈ t := by
  induction t with
  | nil => exact absurd rfl h
  | cons e t ih =>
    rw [Tbl.get_cons] at h ⊢
    split at h
    next hk => rw [if_pos hk, hk]; exact List.mem_cons_self ..
    next hk => rw [if_neg hk]; exact List.mem_cons_of_mem _ (ih h)

theorem Mem.mem_listed {m : Mem} {a n j : Nat} (hj : j < n) (h : m.syndrome ((a + j) / 8) ≠ 0) :
    ((a + j) / 8, m.syndrome ((a + j) / 8)) ∈ m.listed a n := by
  have hlo : a / 8 ≤ (a + j) / 8 := by omega
  have hhi : (a + j) / 8 ≤ (a + n - 1) / 8 := by omega
  unfold Mem.listed
  split
  next hl =>
    have hl : m.lost = none := by simpa using hl
    have hd : m.dfltSyn ((a + j) / 8) = 0 := by rw [Mem.dfltSyn, hl]
    refine List.mem_filter.2 ⟨?_, by simpa using ⟨by omega, hlo, hhi⟩⟩
    rw [Mem.syndrome, hd] at h ⊢
    exact Tbl.mem_of_get_ne h
  next =>
    rw [if_neg (by omega)]
    refine List.mem_map.2 ⟨(a + j) / 8 - a / 8, List.mem_range.2 (by omega), ?_⟩
    rw [Nat.add_sub_cancel' hlo]

/-- In a range without poison every word reads as good. -/
theorem Mem.word_of_not_poisoned {m : Mem} {a n j : Nat} (h : m.poisoned a n = false) (hj : j < n) :
    (m.word ((a + j) / 8)).poison = false := by
  by_cases hs : m.syndrome ((a + j) / 8) = 0
  · exact Mem.word_poison_of_syndrome hs
  · rw [Mem.word_eq, readCode_poison_congr _ 0]
    exact Bool.eq_false_iff.2 fun hp => Bool.eq_false_iff.1 h (List.any_eq_true.2 ⟨_, Mem.mem_listed hj hs, hp⟩)

end Sys2Proof.Machine
end

section
/-!
Writes of a job's results into a scratchpad (R271), and the end of a bag (R106, R111, R114).
-/
namespace Sys2Proof.Machine

theorem exec_bagFinish (bag : Nat) (bad : Option Nat) (s : State) : exec (.bagFinish bag bad) s = execBagFinish bag bad s := rfl

/-! ### Scratchpads -/

/-- The state without cores, jobs and what `State.still` leaves out: what a write into a scratchpad leaves as it was. -/
def State.sansPads (s : State) : State := { s.still with cores := [], jobs := [] }

/-- The state `t` differs from `s` only in core c, in jobs, and in what `State.still` leaves out. -/
def State.sameButPad (c : Nat) (s t : State) : Prop := t.sansPads = s.sansPads ∧ ∀ n, n ≠ c → t.core n = s.core n

section
variable {s t u : State} {c : Nat}

theorem State.sameButPad.refl (c : Nat) (s : State) : s.sameButPad c s := ⟨rfl, fun _ _ => rfl⟩

theorem State.sameButPad.trans (h : s.sameButPad c t) (h' : t.sameButPad c u) : s.sameButPad c u :=
  ⟨h'.1.trans h.1, fun n hn => (h'.2 n hn).trans (h.2 n hn)⟩

theorem sameButPad_of_still (c : Nat) (h : t.still = s.still) : s.sameButPad c t :=
  ⟨by unfold State.sansPads; rw [h], fun n _ => (congrArg (fun u => State.core u n) h : t.still.core n = s.still.core n)⟩

theorem upCore_sameButPad (s : State) (c : Nat) (f : Core → Core) : s.sameButPad c (upCore s c f) :=
  ⟨rfl, fun n hn => by rw [upCore_core, if_neg hn]⟩

theorem upJob_sameButPad (s : State) (c k : Nat) (f : Job → Job) : s.sameButPad c (upJob s k f) := ⟨rfl, fun _ _ => rfl⟩

end

theorem digestAdd_sameButPad (s : State) (c : Nat) (o : Owner) (tag : Word) (l : List Byte) :
    s.sameButPad c (digestAdd s o tag l) := by
  unfold digestAdd
  split
  · exact .refl c s
  · split
    · exact upJob_sameButPad ..
    · exact .refl c s

theorem spDigest_sameButPad (s : State) (c : Nat) (o : Owner) (a n : Nat) : s.sameButPad c (spDigest s c o a n) := by
  unfold spDigest
  split
  · exact forL_induct (P := s.sameButPad c) (fun _ _ h => h.trans (digestAdd_sameButPad ..)) (.refl c s)
  · exact .refl c s

theorem spTouch_sameButPad (s : State) (c a n : Nat) : s.sameButPad c (spTouch s c a n) := by
  unfold spTouch
  refine forL_induct (P := s.sameButPad c) (fun e t h => ?_) (.refl c s)
  dsimp only
  split
  · exact h.trans (upCore_sameButPad ..)
  · split
    · exact h.trans ((upCore_sameButPad ..).trans (sameButPad_of_still c (uePoison_still ..)))
    · exact h

theorem spPut_sameButPad (s : State) (c : Nat) (o : Owner) (a : Nat) (l : List PWord) : s.sameButPad c (spPut s c o a l) :=
  (upCore_sameButPad ..).trans (spDigest_sameButPad ..)

theorem spWrite_sameButPad (s : State) (c : Nat) (o : Owner) (a : Nat) (l : List Byte) : s.sameButPad c (spWrite s c o a l) :=
  (spTouch_sameButPad ..).trans ((spTouch_sameButPad ..).trans ((upCore_sameButPad ..).trans (spDigest_sameButPad ..)))

/-- A read that corrects words and writes them back leaves each as it reads. -/
theorem spTouch_scratch_word (s : State) (c a n i : Nat) :
    ((spTouch s c a n).core c).scratch.word i = (s.core c).scratch.word i := by
  have hsettle : ∀ (t : State) (f : SeqRec → SeqRec) (j : Nat),
      ((upCore t c (fun k => { k with scratch := k.scratch.settle j, sq := f k.sq })).core c).scratch.word i =
        (t.core c).scratch.word i := by
    intro t f j
    rw [upCore_core, if_pos rfl, Mem.word_settle]
  unfold spTouch
  refine forL_induct (P := fun t => (t.core c).scratch.word i = (s.core c).scratch.word i) (fun e t h => ?_) rfl
  dsimp only
  split
  · exact (hsettle t (fun q => { q with spCe := q.spCe + 1 }) e.1).trans h
  · split
    · have hcore : ∀ v w x y z, (uePoison v w x y z).core c = v.core c := fun v w x y z =>
        (congrArg (fun u => State.core u c) (uePoison_still v w x y z) : State.core (State.still _) c = State.core (State.still _) c)
      rw [hcore]
      exact (hsettle t (fun q => { q with spUe := q.spUe + 1 }) e.1).trans h
    · exact h

/-- What a job has written from a word's start over a range without poison is read back (R271). -/
theorem spWrite_sp {s : State} {c a : Nat} {l : List Byte} (o : Owner) (ha : a % 8 = 0)
    (h : s.spPoison c a l.length = false) : (spWrite s c o a l).sp c a l.length = l := by
  unfold spWrite State.sp
  dsimp only
  rw [State.core, spDigest_cores]
  refine (congrArg (fun k : Core => k.scratch.read a l.length) ((upCore_core ..).trans (if_pos rfl))).trans ?_
  refine Mem.read_write ha fun j hj => ?_
  rw [spTouch_scratch_word, spTouch_scratch_word]
  exact Mem.word_of_not_poisoned h hj

/-! ### The end of a lookup (R106) -/

section
variable {s t : State}

theorem dram_of_sansPads (h : t.sansPads = s.sansPads) : t.dram = s.dram :=
  (congrArg State.dram h : t.sansPads.dram = s.sansPads.dram)

theorem slots_of_sansPads (h : t.sansPads = s.sansPads) : t.slots = s.slots :=
  (congrArg State.slots h : t.sansPads.slots = s.sansPads.slots)

theorem bags_of_sansPads (h : t.sansPads = s.sansPads) : t.bags = s.bags :=
  (congrArg State.bags h : t.sansPads.bags = s.sansPads.bags)

theorem lookRec_of_sansPads (h : t.sansPads = s.sansPads) : t.lookRec = s.lookRec :=
  (congrArg State.lookRec h : t.sansPads.lookRec = s.sansPads.lookRec)

theorem lookups_of_sansPads (h : t.sansPads = s.sansPads) : t.lookups = s.lookups :=
  (congrArg State.lookups h : t.sansPads.lookups = s.sansPads.lookups)

end

theorem State.sameButPad.setLookups {s t : State} {c : Nat} (h : s.sameButPad c t) (l : List Lookup) :
    ({ s with lookups := l } : State).sameButPad c { t with lookups := l } :=
  ⟨congrArg (fun u : State => { u with lookups := l }) h.1, h.2⟩

/-- A lookup that ends changes its core, its job and the list of lookups alone; one with open bags does not end. -/
theorem finishLookup_spec {s : State} {id : Nat} {l : Lookup} (hl : s.lookups.find? (fun x => x.id == id) = some l) :
    (∃ ls, ({ s with lookups := ls } : State).sameButPad l.core (finishLookup s id)) ∧
      (l.bagsOpen ≠ 0 → finishLookup s id = s) := by
  unfold finishLookup
  simp only [hl]
  split
  next h =>
    have hpad : s.sameButPad l.core (upJob (spWrite s l.core l.owner (parseLook l.desc).sumAt (wordsBytes l.sum.words)) l.owner.job
        fun j => { j with sums := j.sums.add l.sum }) := (spWrite_sameButPad ..).trans (upJob_sameButPad ..)
    exact ⟨⟨_, (hpad.setLookups _).trans (upCore_sameButPad _ _ _)⟩, fun hn => absurd h.2 hn⟩
  next => exact ⟨⟨s.lookups, .refl ..⟩, fun _ => rfl⟩

/-! ### Writing a bag (R111, R114) -/

/-- The state in which the owner has stored a bag and its count. -/
def State.bagStored (s : State) (b : Bag) (d : LookD) (t : TableEntry) (k : Contrib) : State :=
  let a := d.out + b.bagNo * d.stride
  let u := if k.poison then spPut s b.core b.owner a (List.replicate (t.elems * outElem d.ofmt / 8) PWord.bad)
    else spWrite s b.core b.owner a (bagBytes (s.cbIn (b.engine / 2) t.codebookId).scale d t k)
  if d.counts then spWrite u b.core b.owner (d.countAt + 4 * b.bagNo) (leBytes 4 k.pooled) else u

/-- What a bag adds to the record of its table (R124). -/
def Contrib.recorded (k : Contrib) (r : LookRec) : LookRec :=
  { r with
    mismatched := r.mismatched + k.mismatched, emptyBags := r.emptyBags + b2n (k.pooled == 0),
    poisonedBags := r.poisonedBags + b2n k.poison }

/-- What a bag adds to its lookup (R106). -/
def Contrib.closes (k : Contrib) (x : Lookup) : Lookup :=
  { x with
    bagsOpen := x.bagsOpen - 1
    sum := { x.sum with
      mismatched := x.sum.mismatched + k.mismatched, empty := x.sum.empty + b2n (k.pooled == 0),
      poisoned := x.sum.poisoned + b2n k.poison } }

section
variable {s : State} {b : Bag} {d : LookD} {t : TableEntry} {k : Contrib}

theorem bagStored_sameButPad (s : State) (b : Bag) (d : LookD) (t : TableEntry) (k : Contrib) :
    s.sameButPad b.core (s.bagStored b d t k) := by
  have hbytes : s.sameButPad b.core (if k.poison then
      spPut s b.core b.owner (d.out + b.bagNo * d.stride) (List.replicate (t.elems * outElem d.ofmt / 8) PWord.bad)
      else spWrite s b.core b.owner (d.out + b.bagNo * d.stride)
        (bagBytes (s.cbIn (b.engine / 2) t.codebookId).scale d t k)) := by
    split
    · exact spPut_sameButPad ..
    · exact spWrite_sameButPad ..
  unfold State.bagStored
  dsimp only
  split
  · exact hbytes.trans (spWrite_sameButPad ..)
  · exact hbytes

/-- A poisoned bag is stored as poison. -/
theorem bagStored_word_of_poison (hcounts : d.counts = false) (hk : k.poison = true) {i : Nat}
    (hi : i < t.elems * outElem d.ofmt / 8) :
    ((s.bagStored b d t k).core b.core).scratch.word ((d.out + b.bagNo * d.stride) / 8 + i) = .bad := by
  unfold State.bagStored
  simp only [hcounts, hk, Bool.false_eq_true, if_false, if_true]
  rw [spPut_scratch_word, List.length_replicate, if_pos ⟨by omega, by omega⟩, Nat.add_sub_cancel_left,
    List.getD_eq_getElem _ _ (by simpa using hi), List.getElem_replicate]
  rfl

/-- A bag without poison is stored as its bytes. -/
theorem bagStored_sp (hcounts : d.counts = false) (hk : k.poison = false) (ha : (d.out + b.bagNo * d.stride) % 8 = 0)
    (h : s.spPoison b.core (d.out + b.bagNo * d.stride)
      (bagBytes (s.cbIn (b.engine / 2) t.codebookId).scale d t k).length = false) :
    (s.bagStored b d t k).sp b.core (d.out + b.bagNo * d.stride)
      (bagBytes (s.cbIn (b.engine / 2) t.codebookId).scale d t k).length =
        bagBytes (s.cbIn (b.engine / 2) t.codebookId).scale d t k := by
  unfold State.bagStored
  simp only [hcounts, hk, Bool.false_eq_true, if_false]
  exact spWrite_sp b.owner ha h

end

/-- What writing a bag leaves before its lookup may end: the bag is gone, and its counts are recorded. -/
def State.bagClosed (s : State) (b : Bag) (l : Lookup) (k : Contrib) : State :=
  dropBag (upLookup (upLook s (b.key / 4) k.recorded) l.id k.closes) b.id

theorem writeBag_eq (s : State) (b : Bag) (l : Lookup) (t : TableEntry) (k : Contrib) : writeBag s b l t k =
    finishLookup ((s.bagStored b (parseLook l.desc) t k).bagClosed b l k) l.id := rfl

theorem bagClosed_frame (s : State) (b : Bag) (l : Lookup) (k : Contrib) :
    (s.bagClosed b l k).dram = s.dram ∧ (s.bagClosed b l k).slots = s.slots ∧ (s.bagClosed b l k).cores = s.cores ∧
      (s.bagClosed b l k).bags = dropFirst (fun x => x.id == b.id) s.bags := ⟨rfl, rfl, rfl, rfl⟩

theorem bagClosed_lookRec (s : State) (b : Bag) (l : Lookup) (k : Contrib) :
    Tbl.get {} (s.bagClosed b l k).lookRec (b.key / 4) = k.recorded (Tbl.get {} s.lookRec (b.key / 4)) :=
  (Tbl.get_upd ..).trans (if_pos rfl)

theorem bagClosed_lookup {s : State} (b : Bag) {l : Lookup} (k : Contrib)
    (hl : s.lookups.find? (fun x => x.id == l.id) = some l) :
    (s.bagClosed b l k).lookups.find? (fun x => x.id == l.id) = some (k.closes l) := by
  refine (find?_updFirst Lookup.id (f := k.closes) (fun _ => rfl) l.id l.id s.lookups).trans ?_
  rw [if_pos rfl, hl]
  rfl

/-- What writing a bag leaves: the bag is gone and its counts are in the record of its table; beside, only the cores that
hold its output and its lookup change. -/
theorem writeBag_spec {s : State} {b : Bag} {l : Lookup} (t : TableEntry) (k : Contrib)
    (hl : s.lookups.find? (fun x => x.id == l.id) = some l) :
    (writeBag s b l t k).dram = s.dram ∧ (writeBag s b l t k).slots = s.slots ∧
      (writeBag s b l t k).bags = dropFirst (fun x => x.id == b.id) s.bags ∧
      (∀ n, n ≠ b.core → n ≠ l.core → (writeBag s b l t k).core n = s.core n) ∧
      (1 < l.bagsOpen → (writeBag s b l t k).cores = (s.bagStored b (parseLook l.desc) t k).cores) ∧
      Tbl.get {} (writeBag s b l t k).lookRec (b.key / 4) = k.recorded (Tbl.get {} s.lookRec (b.key / 4)) := by
  obtain ⟨hpads, hcore⟩ := bagStored_sameButPad s b (parseLook l.desc) t k
  rw [writeBag_eq]
  generalize s.bagStored b (parseLook l.desc) t k = u at hpads hcore
  obtain ⟨hdram, hslots, hcores, hbags⟩ := bagClosed_frame u b l k
  have hrec := bagClosed_lookRec u b l k
  have hfind := bagClosed_lookup b k ((congrArg (List.find? fun x => x.id == l.id) (lookups_of_sansPads hpads)).trans hl)
  generalize u.bagClosed b l k = w at hdram hslots hcores hbags hrec hfind
  obtain ⟨⟨ls, hpads', hcore'⟩, hopen⟩ := finishLookup_spec hfind
  refine ⟨(dram_of_sansPads hpads').trans (hdram.trans (dram_of_sansPads hpads)),
    (slots_of_sansPads hpads').trans (hslots.trans (slots_of_sansPads hpads)), (bags_of_sansPads hpads').trans (hbags.trans ?_),
    fun n hb hn => (hcore' n hn).trans (.trans ?_ (hcore n hb)), fun h => ?_,
    (congrArg (Tbl.get {} · (b.key / 4)) (lookRec_of_sansPads hpads')).trans (hrec.trans ?_)⟩
  · rw [bags_of_sansPads hpads]
  · simp only [State.core, hcores]
  · rw [hopen (Nat.sub_ne_zero_of_lt h), hcores]
  · rw [lookRec_of_sansPads hpads]

/-! ### The command -/

/-- Every contribution of a bag is in. -/
def Bag.whole (b : Bag) : Prop := b.indices = none ∧ b.left = 0 ∧ b.remote = [] ∧ b.tails = []

section
variable {s : State} {id : Nat} {b : Bag} (hpow : s.powered = true) (hb : s.bag id = some b)
include hpow hb

theorem exec_bagFinish_of_waiting (hwait : ¬b.whole) (bad : Option Nat) : exec (.bagFinish id bad) s = .next s := by
  rw [exec_bagFinish, execBagFinish, whenPowered_of_powered hpow]
  simp only [hb, Option.isNone_iff_eq_none, List.isEmpty_iff]
  exact congrArg _ (if_neg hwait)

theorem exec_bagFinish_of_wrong (hwhole : b.whole) (lane : Nat) :
    exec (.bagFinish id (some lane)) s = .next (arithFault s b.owner unitSlalom (b.engine / 2) lane 0) := by
  rw [exec_bagFinish, execBagFinish, whenPowered_of_powered hpow]
  simp only [hb, Option.isNone_iff_eq_none, List.isEmpty_iff]
  exact congrArg _ (if_pos hwhole)

theorem exec_bagFinish_of_home (hwhole : b.whole) {m : Nat} {txn : BitVec 16} {lc : Bool} (hhome : b.home = some (m, txn, lc)) :
    exec (.bagFinish id none) s = .next (answerGather s b m txn lc (b.total (s.slot b.key).entry.elems)) := by
  rw [exec_bagFinish, execBagFinish, whenPowered_of_powered hpow]
  simp only [hb, Option.isNone_iff_eq_none, List.isEmpty_iff, hhome]
  exact congrArg _ (if_pos hwhole)

variable {l : Lookup} (hwhole : b.whole) (hhome : b.home = none) (hl : s.lookups.find? (fun x => x.id == b.lookup) = some l)
include hwhole hhome hl

theorem exec_bagFinish_of_owner : exec (.bagFinish id none) s = .next (withCb s (b.engine / 2) b fun u =>
    writeBag u b l (s.slot b.key).entry (b.total (s.slot b.key).entry.elems)) := by
  rw [exec_bagFinish, execBagFinish, whenPowered_of_powered hpow]
  simp only [hb, Option.isNone_iff_eq_none, List.isEmpty_iff, hhome, hl]
  exact congrArg _ (if_pos hwhole)

theorem exec_bagFinish_of_poison (hcb : isCb (s.slot b.key).entry.format = true)
    (hbad : (hedgeCb (b.engine / 2) (s.slot b.key).entry.codebookId s).2 = false) :
    exec (.bagFinish id none) s = .next (failJob (s.withBook (b.engine / 2) b) b.owner stPoisoned) := by
  rw [exec_bagFinish_of_owner hpow hb hwhole hhome hl, withCb_of_poison _ hcb hbad, homeFail, hhome]

end

/-- Settles O44: a bag that waits, one whose sum is wrong, one of a peer's request, and one of this module's lookups, which is
stored and recorded (`writeBag_spec`). -/
theorem bags : Obligations.Bags := by
  unfold Obligations.Bags
  intro s id b hpow hb
  refine ⟨exec_bagFinish_of_waiting hpow hb, exec_bagFinish_of_wrong hpow hb, fun hwhole m txn lc hhome =>
    exec_bagFinish_of_home hpow hb hwhole hhome, fun hwhole hhome l hl => exec_bagFinish_of_poison hpow hb hwhole hhome hl,
    fun hwhole hhome l hl hgood => ?owner, fun hk d x => if_pos hk⟩
  case owner =>
    intro d a
    obtain ⟨hreads, hslots⟩ := withBook_frame s (b.engine / 2) b
    have hid : l.id = b.lookup := by simpa using List.find?_some hl
    have hlu : (s.withBook (b.engine / 2) b).lookups.find? (fun x => x.id == l.id) = some l := by
      rw [lookups_of_sansReads hreads, hid, hl]
    have hcore : ∀ n, (s.withBook (b.engine / 2) b).core n = s.core n := fun n => by
      rw [State.core, cores_of_sansReads hreads]
      rfl
    obtain ⟨hdram, hslots', hbags, hcores, hstored, hrec⟩ := writeBag_spec (b := b) (s.slot b.key).entry
      (b.total (s.slot b.key).entry.elems) hlu
    refine ⟨_, (exec_bagFinish_of_owner hpow hb hwhole hhome hl).trans (congrArg _ (withCb_of_good _ hgood)), hdram,
      hslots'.trans hslots, hbags.trans (congrArg _ (bags_of_sansReads hreads)), fun n h₁ h₂ => (hcores n h₁ h₂).trans (hcore n),
      fun hcounts hopen ha => ⟨fun hk i hi => ?_, fun hk hgood' => ?_⟩, hrec.trans ?_⟩
    · rw [State.core, hstored hopen]
      exact bagStored_word_of_poison hcounts hk hi
    · rw [State.sp, State.core, hstored hopen]
      refine bagStored_sp hcounts hk ha ?_
      rw [State.spPoison, hcore]
      exact hgood'
    · rw [lookRec_of_sansReads hreads]
      simp only [Contrib.recorded, b2n, beq_iff_eq]

end Sys2Proof.Machine
end

section
/-!
Lookup descriptors (R103 to R107), and the classification of a bag's rows (R113, R125, R358, R359).
-/
namespace Sys2Proof.Machine

theorem exec_lookupDescriptor (c : CoreId) (ext : List PWord) (s : State) :
    exec (.lookupDescriptor c ext) s = execLookupDescriptor c ext s := rfl

/-! ### The lookups of a job that ends (R212) -/

theorem endJob_lookups_subset (s : State) (id : Nat) (st : Status) (idx : BitVec 16) :
    (endJob s id st idx).lookups ⊆ s.lookups := by
  unfold endJob
  split
  · exact fun _ hx => List.mem_of_mem_filter (l := s.lookups) hx
  · exact List.Subset.refl _

theorem endAll_lookups_subset (s : State) (st : Status) : (endAll s st).lookups ⊆ s.lookups :=
  forL_induct (P := fun t => t.lookups ⊆ s.lookups) (fun _ _ h => List.Subset.trans (endJob_lookups_subset ..) h)
    (List.Subset.refl _)

theorem failJob_lookups_subset (s : State) (o : Owner) (st : Status) : (failJob s o st).lookups ⊆ s.lookups := by
  unfold failJob
  split
  · exact endJob_lookups_subset ..
  · unfold jobFault jobFaultWith
    rw [lookups_of_sansReads (sansReads_of_still (raiseEvent_still ..))]
    exact List.Subset.trans (endAll_lookups_subset ..) (endJob_lookups_subset ..)

/-- A failure gives no core a lookup to open. -/
theorem opening_failJob {s : State} {c : Nat} (o : Owner) (st : Status) (h : s.opening c = none) :
    (failJob s o st).opening c = none :=
  List.find?_eq_none.2 fun l hl => List.find?_eq_none.1 h l (failJob_lookups_subset s o st hl)

theorem failJob_lives_owner (s : State) (o : Owner) (st : Status) : (failJob s o st).lives o.job = false := by
  unfold failJob
  split
  · simp [endJob_lives]
  · exact jobFault_lives ..

theorem failJob_lookRec (s : State) (o : Owner) (st : Status) : (failJob s o st).lookRec = s.lookRec :=
  (congrArg State.lookRec (failJob_base s o st) : (failJob s o st).base.lookRec = s.base.lookRec)

/-! ### The next descriptor of a core (R103) -/

/-- The lookup of a descriptor that is not refused. -/
def State.nextLookup (s : State) (c : CoreId) (e : QEntry) (key : Nat) : Lookup :=
  { id := s.nextBag, core := c, engine := slalomOf c, owner := e.owner, desc := pdata e.desc, key := key }

@[simp] theorem nextLookup_desc (s : State) (c : CoreId) (e : QEntry) (key : Nat) :
    (s.nextLookup c e key).desc = pdata e.desc := rfl

/-- A core whose next lookup descriptor is marked as begun. -/
def Core.lookupMarked (k : Core) : Core :=
  { k with qLookup := updFirst (fun e => !e.begun) (fun e => { e with begun := true }) k.qLookup }

/-- The state in which a lookup has begun: its queue entry is marked, and its version is in the hedge's cache of entries. -/
def State.lookupBegun (s : State) (l : Lookup) : State :=
  let u := upCore s l.core Core.lookupMarked
  let u := upHedge u (l.engine / 2) (fun h => { h with entryCache := l.key :: h.entryCache.filter (· != l.key) })
  { u with lookups := u.lookups ++ [l], nextBag := u.nextBag + 1 }

theorem nbags_ne_zero_of_accepted {s : State} {k : Nat} {w : List Word} (h : lookRefusal s (some k) w = none) :
    (parseLook w).nbags ≠ 0 := by
  intro hn
  unfold lookRefusal at h
  simp only [hn, true_or, decide_true, Bool.or_true, Bool.true_or, if_true] at h
  split at h <;> cases h

section
variable {s : State} {c : CoreId} {e : QEntry}

theorem beginLookup_of_poison (he : (s.core c).qLookup.find? (fun x => !x.begun) = some e) (hp : anyPoison e.desc = true) :
    beginLookup c s = failJob s e.owner stPoisoned := by
  unfold beginLookup
  simp only [he, hp, if_true]

variable (he : (s.core c).qLookup.find? (fun x => !x.begun) = some e) (hp : anyPoison e.desc = false)
include he hp

theorem beginLookup_of_refused {st : Status}
    (h : lookRefusal s (s.bound e.owner.job (fld (wd (pdata e.desc) 0) 63 52)) (pdata e.desc) = some st) :
    beginLookup c s = failJob s e.owner st := by
  unfold beginLookup
  simp only [he, hp, h, Bool.false_eq_true, if_false]

theorem beginLookup_of_accepted {k : Nat} (hk : s.bound e.owner.job (fld (wd (pdata e.desc) 0) 63 52) = some k)
    (h : lookRefusal s (some k) (pdata e.desc) = none) : beginLookup c s = s.lookupBegun (s.nextLookup c e k) := by
  unfold beginLookup
  simp only [he, hp, hk, h, Bool.false_eq_true, if_false]
  rfl

end

/-- A lookup that begins is the one its core opens next, where no other had bags to open. -/
theorem opening_lookupBegun {s : State} {l : Lookup} (h : s.opening l.core = none) (hn : l.nextBag < (parseLook l.desc).nbags) :
    (s.lookupBegun l).opening l.core = some l := by
  refine List.find?_append.trans ((congrArg (Option.or · _) h).trans ?_)
  simp [hn]

theorem lookupBegun_frame (s : State) (l : Lookup) : (s.lookupBegun l).lookups = s.lookups ++ [l] ∧
    (s.lookupBegun l).nextBag = s.nextBag + 1 ∧ (s.lookupBegun l).dram = s.dram ∧ (s.lookupBegun l).jobs = s.jobs ∧
    (s.lookupBegun l).bags = s.bags := ⟨rfl, rfl, rfl, rfl, rfl⟩

theorem lookupBegun_qLookup (s : State) (l : Lookup) : ((s.lookupBegun l).core l.core).qLookup =
    updFirst (fun x => !x.begun) (fun x => { x with begun := true }) (s.core l.core).qLookup := by
  have hcore : (s.lookupBegun l).core l.core = (upCore s l.core Core.lookupMarked).core l.core := rfl
  rw [hcore, upCore_core, if_pos rfl]
  rfl

section
variable {s : State} {c : CoreId} (ext : List PWord) (hpow : s.powered = true)
include hpow

theorem exec_lookupDescriptor_of_none (h : s.opening c = none) (h' : (beginLookup c s).opening c = none) :
    exec (.lookupDescriptor c ext) s = .next (beginLookup c s) := by
  rw [exec_lookupDescriptor, execLookupDescriptor, whenPowered_of_powered hpow]
  simp only [h, Option.isNone_none, if_true, h']

theorem exec_lookupDescriptor_of_begun {l : Lookup} (h : s.opening c = none) (h' : (beginLookup c s).opening c = some l) :
    exec (.lookupDescriptor c ext) s = .next (openBags c (2 * (parseLook l.desc).nbags) ext (beginLookup c s)) := by
  rw [exec_lookupDescriptor, execLookupDescriptor, whenPowered_of_powered hpow]
  simp only [h, Option.isNone_none, if_true, h']

theorem exec_lookupDescriptor_of_opening {l : Lookup} (h : s.opening c = some l) :
    exec (.lookupDescriptor c ext) s = .next (openBags c (2 * (parseLook l.desc).nbags) ext s) := by
  rw [exec_lookupDescriptor, execLookupDescriptor, whenPowered_of_powered hpow]
  simp only [h, Option.isNone_some, Bool.false_eq_true, if_false]

end

/-- No bag opens while the lookup waits for a tile, or its engine has no room. -/
theorem openBags_of_held {s : State} {c : Nat} {l : Lookup} (h : s.opening c = some l)
    (hheld : s.tileWaits l.owner (some c) none = true ∨ s.bagRoom l.engine l.owner.lc = false) (fuel : Nat) (ext : List PWord) :
    openBags c fuel ext s = s := by
  cases fuel with
  | zero => rfl
  | succ fuel =>
    rw [openBags]
    simp only [h]
    exact if_pos (by simpa using hheld)

/-! ### Where a row lies (R113) -/

theorem rowAt_ne_pad_invalid (s : State) (u : Nat) (cid : BitVec 12) (t : TableEntry) (home : Bool) (i : Nat) :
    rowAt s u cid t home i ≠ .pad ∧ rowAt s u cid t home i ≠ .invalid := by
  unfold rowAt
  dsimp only
  repeat' split
  all_goals exact ⟨nofun, nofun⟩

/-- The index of a bag whose every bit is 1. -/
def Bag.padIndex (b : Bag) : Nat := 2 ^ (if b.idx64 then 64 else 32) - 1

section
variable {b : Bag} {s : State} {i : Nat}

theorem place_of_pad (h : i = b.padIndex) : b.place s i = (.pad, false) := if_pos h

theorem place_of_invalid (h : i ≠ b.padIndex) (hi : (s.slot b.key).entry.rowCount ≤ i) : b.place s i = (.invalid, false) :=
  (if_neg h).trans (if_pos hi)

theorem place_of_row (h : i ≠ b.padIndex) (hi : i < (s.slot b.key).entry.rowCount) :
    (b.place s i).1 ≠ .pad ∧ (b.place s i).1 ≠ .invalid := by
  have hrow := rowAt_ne_pad_invalid s b.unit b.owner.cid (s.slot b.key).entry b.home.isSome
  unfold Bag.place
  dsimp only
  rw [if_neg (show ¬ i = 2 ^ (if b.idx64 then 64 else 32) - 1 from h), if_neg (by omega)]
  have hi := hrow i
  split
  · split
    · exact hrow _
    · exact ⟨nofun, nofun⟩
  · split
    · exact hrow _
    · exact ⟨nofun, nofun⟩
  · exact hi

end

end Sys2Proof.Machine
end

section
/-!
The classification of a bag's rows, one by one (R113, R125, R358, R359).
-/
namespace Sys2Proof.Machine

/-! ### What the rows of a bag change -/

/-- A bag without its rows: what they fill in as they are delivered and sent. -/
def Bag.sansRows (b : Bag) : Bag := { b with near := [], far := [], runs := [], left := 0, remote := [], tails := [] }

/-- The state `t` has the jobs, the lookup records and the table entries of `s`, and in its bag differs by rows alone. -/
def State.sameButRows (id : Nat) (s t : State) : Prop :=
  t.jobs = s.jobs ∧ t.lookRec = s.lookRec ∧ (∀ k, (t.slot k).entry = (s.slot k).entry) ∧
    (t.bag id).map Bag.sansRows = (s.bag id).map Bag.sansRows

section
variable {id : Nat} {s t u : State}

theorem State.sameButRows.refl (id : Nat) (s : State) : s.sameButRows id s := ⟨rfl, rfl, fun _ => rfl, rfl⟩

theorem State.sameButRows.trans (h : s.sameButRows id t) (h' : t.sameButRows id u) : s.sameButRows id u := by
  obtain ⟨hjobs, hrec, hentry, hbag⟩ := h
  obtain ⟨hjobs', hrec', hentry', hbag'⟩ := h'
  exact ⟨hjobs'.trans hjobs, hrec'.trans hrec, fun k => (hentry' k).trans (hentry k), hbag'.trans hbag⟩

/-- The bag in a state that differs by rows. -/
theorem State.sameButRows.exists_bag {b : Bag} (h : s.sameButRows id t) (hb : s.bag id = some b) :
    ∃ b', t.bag id = some b' ∧ b'.sansRows = b.sansRows := by
  obtain ⟨-, -, -, hbag⟩ := h
  rw [hb] at hbag
  exact Option.map_eq_some_iff.1 hbag

theorem State.sameReads.sameButRows (h : s.sameReads t) (id : Nat) : s.sameButRows id t :=
  ⟨jobs_of_sansReads h.1, lookRec_of_sansReads h.1, h.2, by rw [bag_of_bags (bags_of_sansReads h.1)]⟩

/-- Rows that come and go in any bag. -/
theorem upBag_sameButRows (s : State) (id k : Nat) {f : Bag → Bag} (hf : ∀ b, (f b).sansRows = b.sansRows) :
    s.sameButRows id (upBag s k f) := by
  refine ⟨rfl, rfl, fun _ => rfl, ?_⟩
  rw [upBag_bag s k id (f := f) fun b => (congrArg Bag.id (hf b) : (f b).sansRows.id = b.sansRows.id)]
  split
  next h =>
    rw [h, Option.map_map]
    exact congrArg (Option.map · (s.bag k)) (funext hf)
  next => rfl

/-- Changes of lists that hold no bag, no job and no entry. -/
theorem State.sameButRows.setPieces (h : s.sameButRows id t) (l : List Piece) (n : Nat) :
    s.sameButRows id { t with pieces := l, nextPiece := n } := h

theorem addPiece_sameButRows (s : State) (id k h : Nat) (rows : List (Nat × Nat)) : s.sameButRows id (addPiece k h rows s) := by
  unfold addPiece
  split
  · exact .refl id s
  · exact .trans ((State.sameButRows.refl id s).setPieces _ _) (upBag_sameButRows _ id k fun _ => rfl)

theorem addGather_sameButRows (s : State) (id k m : Nat) (l : List Nat) : s.sameButRows id (addGather k m l s) := by
  unfold addGather
  split
  · exact .refl id s
  · exact .trans ((request_sameReads ..).sameButRows id) (upBag_sameButRows _ id k fun _ => rfl)

theorem State.sameButRows.upBag (h : s.sameButRows id t) (k : Nat) {f : Bag → Bag} (hf : ∀ b, (f b).sansRows = b.sansRows) :
    s.sameButRows id (upBag t k f) := h.trans (upBag_sameButRows t id k hf)

theorem State.sameButRows.issueFor (h : s.sameButRows id t) (b : Bag) : s.sameButRows id (issueFor b t) := by
  obtain ⟨l, he, -⟩ := issueFor_spec b t
  rw [he]
  exact h.setPieces l t.nextPiece

theorem flushRows_sameButRows (s : State) (id k : Nat) (all : Bool) : s.sameButRows id (flushRows k all s) := by
  unfold flushRows
  split
  · exact .refl id s
  · refine .issueFor (.upBag ?_ k ?rows) _
    case rows => exact fun _ => rfl
    refine forN_induct (P := s.sameButRows id) (forN_induct (P := s.sameButRows id) (.refl id s) ?_) ?_
    · exact fun h t _ ht => forL_induct (P := s.sameButRows id) (fun _ _ h => h.trans (addPiece_sameButRows ..)) ht
    · exact fun m t _ ht => forL_induct (P := s.sameButRows id) (fun _ _ h => h.trans (addGather_sameButRows ..)) ht

end

/-! ### One row -/

/-- The state in which the row of an index is placed: its pages are translated. -/
def State.walked (s : State) (b : Bag) (i : Nat) : State :=
  if i < (s.slot b.key).entry.rowCount then
    walkPages s b.unit b.owner.cid [((s.slot b.key).entry.rowVa i, (s.slot b.key).entry.stride, false)]
  else s

theorem walked_sameReads (s : State) (b : Bag) (i : Nat) : s.sameReads (s.walked b i) :=
  .ite (walkPages_sameReads ..) (.refl s)

/-- The classification goes on past a row of this place. -/
def RowAt.goesOn (x : RowAt) (s : State) : Prop :=
  (∀ st, x ≠ .bad st) ∧ (∀ k p, x ≠ .wait k p) ∧ ∀ m, x = .remote m → s.hasPath m = true

theorem RowAt.stops_or_goesOn (x : RowAt) (s : State) :
    (∃ st, x = .bad st) ∨ (∃ k p, x = .wait k p) ∨ (∃ m, x = .remote m ∧ s.hasPath m = false) ∨ x.goesOn s := by
  cases x with
  | bad st => exact .inl ⟨st, rfl⟩
  | wait k p => exact .inr (.inl ⟨k, p, rfl⟩)
  | remote m =>
    cases h : s.hasPath m with
    | false => exact .inr (.inr (.inl ⟨m, rfl, h⟩))
    | true => exact .inr (.inr (.inr ⟨nofun, nofun, fun n hn => by rw [← RowAt.remote.inj hn, h]⟩))
  | pad | invalid | dram off | tail space off => exact .inr (.inr (.inr ⟨nofun, nofun, nofun⟩))

section
variable {s : State} {id : Nat} {b : Bag} (hb : s.bag id = some b) (pos i : Nat) (l : List Nat) {d : Bool}
include hb

theorem classifyFrom_of_bad {st : Status} (h : b.place (s.walked b i) i = (.bad st, d)) :
    classifyFrom id pos (i :: l) s = homeFail (s.walked b i) b st := by
  rw [classifyFrom]
  unfold State.walked at h ⊢
  simp only [hb, h]

theorem classifyFrom_of_wait {k p : Nat} (h : b.place (s.walked b i) i = (.wait k p, d)) :
    classifyFrom id pos (i :: l) s = waitTile
      (flushRows id b.mayCut (upBag (s.walked b i) id (fun x => { x with indices := some (i :: l), next := pos })))
      b.owner none (some (id, pos)) (unitHedge b.unit) k p := by
  rw [classifyFrom]
  unfold State.walked at h ⊢
  simp only [hb, h]

theorem classifyFrom_of_noPath {m : Nat} (h : b.place (s.walked b i) i = (.remote m, d)) (hm : (s.walked b i).hasPath m = false) :
    classifyFrom id pos (i :: l) s = homeFail (s.walked b i) b stUnmapped := by
  rw [classifyFrom]
  unfold State.walked at h hm ⊢
  simp only [hb, h, hm, Bool.false_eq_true, if_false]

theorem classifyFrom_of_goesOn {x : RowAt} (h : b.place (s.walked b i) i = (x, d)) (hx : x.goesOn (s.walked b i)) :
    classifyFrom id pos (i :: l) s = classifyFrom id (pos + 1) l (deliverRow (s.walked b i) b pos i x d) := by
  obtain ⟨hbad, hwait, hpath⟩ := hx
  rw [classifyFrom]
  unfold State.walked at h hpath ⊢
  cases x with
  | bad st => exact absurd rfl (hbad st)
  | wait k p => exact absurd rfl (hwait k p)
  | remote m => simp only [hb, h, hpath m rfl, if_true]
  | pad | invalid | dram off | tail space off => simp only [hb, h]

end

/-- The indices of one row in the record of its table (R113, R124, R125). -/
def LookRec.counting (r : LookRec) (x : RowAt) (dflt : Bool) : LookRec :=
  { r with
    indices := r.indices + 1, invalid := r.invalid + b2n (x == .invalid), pad := r.pad + b2n (x == .pad),
    tailDef := r.tailDef + b2n dflt }

/-- A row that is delivered is counted in the record of its table, and changes no more than rows. -/
theorem deliverRow_spec (s : State) {b : Bag} (hhome : b.home = none) (pos i : Nat) (x : RowAt) (dflt : Bool) :
    ∃ r, ({ s with lookRec := r } : State).sameButRows b.id (deliverRow s b pos i x dflt) ∧
      Tbl.get {} r (b.key / 4) = (Tbl.get {} s.lookRec (b.key / 4)).counting x dflt := by
  refine ⟨Tbl.upd {} s.lookRec (b.key / 4) (·.counting x dflt), ?_, (Tbl.get_upd ..).trans (if_pos rfl)⟩
  have hcount : ({ s with lookRec := Tbl.upd {} s.lookRec (b.key / 4) (·.counting x dflt) } : State).sameButRows b.id
      (countIndex s b x dflt) := by
    unfold countIndex
    simp only [hhome]
    exact ⟨rfl, rfl, fun _ => rfl, rfl⟩
  unfold deliverRow
  have hrow : ∀ (t : State) (f : Bag → Bag), (∀ b, (f b).sansRows = b.sansRows) →
      t.sameButRows b.id (upBag (countRow b.key b.unit b.owner.cid (t.slot b.key).entry i t) b.id f) := fun t f hf =>
    .trans ((countRow_sameButCounts ..).sameReads.sameButRows b.id) (upBag_sameButRows _ _ _ hf)
  cases x with
  | dram off => exact hcount.trans (hrow _ _ fun _ => rfl)
  | tail space off => exact hcount.trans (hrow _ _ fun _ => rfl)
  | remote m => exact hcount.trans (upBag_sameButRows _ _ _ fun _ => rfl)
  | pad | invalid | wait k p | bad st => exact hcount

/-! ### The rows of a bag, up to the one that stops them -/

/-- The index leads past the last row of a table of so many rows (R113). -/
def Bag.pastRows (b : Bag) (rows i : Nat) : Bool := !(i == b.padIndex) && decide (rows ≤ i)

theorem place_isPad (b : Bag) (s : State) (i : Nat) : ((b.place s i).1 == RowAt.pad) = (i == b.padIndex) := by
  by_cases hpad : i = b.padIndex
  · rw [place_of_pad hpad, beq_iff_eq.2 hpad]
    rfl
  · rw [beq_false_of_ne hpad]
    by_cases hrow : i < (s.slot b.key).entry.rowCount
    · exact beq_false_of_ne (place_of_row hpad hrow).1
    · rw [place_of_invalid hpad (Nat.le_of_not_lt hrow)]
      rfl

theorem place_isInvalid (b : Bag) (s : State) (i : Nat) :
    ((b.place s i).1 == RowAt.invalid) = b.pastRows (s.slot b.key).entry.rowCount i := by
  unfold Bag.pastRows
  by_cases hpad : i = b.padIndex
  · rw [place_of_pad hpad, beq_iff_eq.2 hpad]
    rfl
  · rw [beq_false_of_ne hpad, Bool.not_false, Bool.true_and]
    by_cases hrow : i < (s.slot b.key).entry.rowCount
    · rw [decide_eq_false (Nat.not_le_of_lt hrow)]
      exact beq_false_of_ne (place_of_row hpad hrow).2
    · rw [place_of_invalid hpad (Nat.le_of_not_lt hrow), decide_eq_true (Nat.le_of_not_lt hrow)]
      rfl

/-- From `s` to `t`, a number of the indices `l` of bag `b`, which begin at position `pos`, are counted in the record of its
table; then the job has ended, or all are counted, or the bag waits with the rest. -/
def Bag.Classified (b : Bag) (id pos : Nat) (l : List Nat) (s t : State) : Prop :=
  ∃ n, n ≤ l.length ∧
    (Tbl.get {} t.lookRec (b.key / 4)).indices = (Tbl.get {} s.lookRec (b.key / 4)).indices + n ∧
    (Tbl.get {} t.lookRec (b.key / 4)).pad = (Tbl.get {} s.lookRec (b.key / 4)).pad + (l.take n).countP (· == b.padIndex) ∧
    (Tbl.get {} t.lookRec (b.key / 4)).invalid =
      (Tbl.get {} s.lookRec (b.key / 4)).invalid + (l.take n).countP (b.pastRows (s.slot b.key).entry.rowCount) ∧
    (t.lives b.owner.job = false ∨ ∃ b', t.bag id = some b' ∧
      ((n = l.length ∧ b'.indices = none) ∨ (n < l.length ∧ b'.indices = some (l.drop n) ∧ b'.next = pos + n)))

section
variable {b b' : Bag} {id pos i : Nat} {l : List Nat} {s t u : State}

theorem Bag.Classified.of_sansRows (h : b'.Classified id pos l s t) (hb : b'.sansRows = b.sansRows) :
    b.Classified id pos l s t := by
  have hsame : b'.sansRows.Classified id pos l s t = b.sansRows.Classified id pos l s t := by rw [hb]
  exact hsame.mp h

/-- Nothing is counted where the job ends at once. -/
theorem classified_of_ended (hrec : t.lookRec = s.lookRec) (hend : t.lives b.owner.job = false) :
    b.Classified id pos l s t := by
  refine ⟨0, Nat.zero_le _, ?_, ?_, ?_, .inl hend⟩ <;> rw [hrec] <;> rfl

/-- Nothing is counted where the bag has no index left, or holds those it had. -/
theorem classified_of_held (hrec : t.lookRec = s.lookRec) (hbag : t.bag id = some b')
    (h : (l = [] ∧ b'.indices = none) ∨ (l ≠ [] ∧ b'.indices = some l ∧ b'.next = pos)) : b.Classified id pos l s t := by
  refine ⟨0, Nat.zero_le _, ?_, ?_, ?_, .inr ⟨b', hbag, ?_⟩⟩
  case refine_4 =>
    exact h.imp (fun ⟨hl, hi⟩ => ⟨by rw [hl]; rfl, hi⟩) fun ⟨hl, hi, hn⟩ => ⟨List.length_pos_iff.2 hl, hi, hn⟩
  all_goals rw [hrec]; rfl

/-- An index that is counted comes before those counted after it. -/
theorem Bag.Classified.cons {x : RowAt} {d : Bool} (h : b.Classified id (pos + 1) l u t)
    (hrec : Tbl.get {} u.lookRec (b.key / 4) = (Tbl.get {} s.lookRec (b.key / 4)).counting x d)
    (hentry : (u.slot b.key).entry = (s.slot b.key).entry) (hpad : (x == .pad) = (i == b.padIndex))
    (hinv : (x == .invalid) = b.pastRows (s.slot b.key).entry.rowCount i) : b.Classified id pos (i :: l) s t := by
  obtain ⟨n, hn, hidx, hpads, hinvs, hend⟩ := h
  rw [hrec] at hidx hpads hinvs
  rw [hentry] at hinvs
  refine ⟨n + 1, Nat.succ_le_succ hn, hidx.trans ?_, hpads.trans ?_, hinvs.trans ?_, ?_⟩
  · exact Nat.add_right_comm ..
  · rw [List.take_succ_cons, List.countP_cons, LookRec.counting, hpad]
    exact (Nat.add_right_comm ..).trans (Nat.add_assoc ..)
  · rw [List.take_succ_cons, List.countP_cons, LookRec.counting, hinv]
    exact (Nat.add_right_comm ..).trans (Nat.add_assoc ..)
  · refine hend.imp_right fun ⟨c, hc, h⟩ => ⟨c, hc, h.imp (fun ⟨hl, hi⟩ => ⟨congrArg (· + 1) hl, hi⟩) ?_⟩
    exact fun ⟨hl, hi, hnext⟩ => ⟨Nat.succ_lt_succ hl, hi, hnext.trans (Nat.add_right_comm ..)⟩

theorem homeFail_classified (hhome : b.home = none) (hrec : u.lookRec = s.lookRec) (st : Status) :
    b.Classified id pos l s (homeFail u b st) := by
  have hfail : homeFail u b st = failJob u b.owner st := by
    unfold homeFail
    rw [hhome]
  rw [hfail]
  exact classified_of_ended ((failJob_lookRec ..).trans hrec) (failJob_lives_owner ..)

/-- The rows of a bag are counted one by one (R113, R125, R358, R359). -/
theorem classifyFrom_classified (hb : s.bag id = some b) (hhome : b.home = none) :
    b.Classified id pos l s (classifyFrom id pos l s) := by
  induction l generalizing s b pos with
  | nil =>
    have hend : (upBag s id fun x => { x with indices := none }).bag id = some { b with indices := none } :=
      upBag_bag_same (fun _ => rfl) hb
    have hflush := flushRows_sameButRows (upBag s id fun x => { x with indices := none }) id id true
    obtain ⟨b', hb', hsame⟩ := hflush.exists_bag hend
    exact classified_of_held hflush.2.1 hb' (.inl ⟨rfl, (congrArg Bag.indices hsame : b'.sansRows.indices = _)⟩)
  | cons i l ih =>
    obtain ⟨-, hrec, hentry, -⟩ := (walked_sameReads s b i).sameButRows id
    have hbw : (s.walked b i).bag id = some b := (bag_of_bags (bags_of_sansReads (walked_sameReads s b i).1) id).trans hb
    obtain ⟨⟨x, d⟩, hplace⟩ : ∃ p, b.place (s.walked b i) i = p := ⟨_, rfl⟩
    rcases x.stops_or_goesOn (s.walked b i) with ⟨st, rfl⟩ | ⟨k, p, rfl⟩ | ⟨m, rfl, hpath⟩ | hx
    · rw [classifyFrom_of_bad hb pos i l hplace]
      exact homeFail_classified hhome hrec st
    · rw [classifyFrom_of_wait hb pos i l hplace]
      have hheld : (upBag (s.walked b i) id fun x => { x with indices := some (i :: l), next := pos }).bag id =
          some { b with indices := some (i :: l), next := pos } := upBag_bag_same (fun _ => rfl) hbw
      have hwait := (flushRows_sameButRows (upBag (s.walked b i) id fun x => { x with indices := some (i :: l), next := pos })
        id id b.mayCut).trans
          ((waitTile_sameReads _ b.owner none (some (id, pos)) (unitHedge b.unit) k p).sameButRows id)
      obtain ⟨b', hb', hsame⟩ := hwait.exists_bag hheld
      exact classified_of_held (hwait.2.1.trans hrec) hb' (.inr ⟨List.cons_ne_nil i l,
        (congrArg Bag.indices hsame : b'.sansRows.indices = _), (congrArg Bag.next hsame : b'.sansRows.next = _)⟩)
    · rw [classifyFrom_of_noPath hb pos i l hplace hpath]
      exact homeFail_classified hhome hrec stUnmapped
    · rw [classifyFrom_of_goesOn hb pos i l hplace hx]
      obtain ⟨r, hrow, hcount⟩ := deliverRow_spec (s.walked b i) hhome pos i x d
      rw [id_of_bag hb] at hrow
      obtain ⟨b', hb', hsame⟩ := hrow.exists_bag hbw
      have hplaced : x = (b.place (s.walked b i) i).1 := (congrArg Prod.fst hplace).symm
      refine ((ih hb' ((congrArg Bag.home hsame : b'.sansRows.home = b.sansRows.home).trans hhome)).of_sansRows hsame).cons
        (x := x) (d := d) ?_ ?_ ?_ ?_
      · rw [hrow.2.1, ← hrec]
        exact hcount
      · exact (hrow.2.2.1 b.key).trans (hentry b.key)
      · rw [hplaced]
        exact place_isPad ..
      · rw [hplaced, ← hentry]
        exact place_isInvalid ..

/-- A bag is classified from the index at which it stopped. -/
theorem classify_classified (hb : s.bag id = some b) (hidx : b.indices = some l) (hhome : b.home = none) :
    b.Classified id b.next l s (classify s id) := by
  unfold classify
  simp only [hb, hidx]
  exact classifyFrom_classified hb hhome

end

/-- Settles O42: the next descriptor of a core, which begins or is refused; a lookup that is held; where an index leads; one
row; and the rows of a bag, one by one (`classifyFrom_classified`). -/
theorem lookupDescriptors : Obligations.LookupDescriptors := by
  unfold Obligations.LookupDescriptors
  refine ⟨fun s c ext e hpow hop he => ⟨fun hp => ?poison, fun hp => ⟨fun st href => ?refused, fun k hacc hk => ?begun⟩⟩,
    fun s c ext l hpow hop => ⟨exec_lookupDescriptor_of_opening ext hpow hop, fun hheld => ?held⟩,
    fun b s i => ⟨place_of_pad, place_of_invalid, place_of_row⟩,
    fun s id pos i l b hb => ⟨fun st d h => classifyFrom_of_bad hb pos i l h,
      fun x d h hbad hwait hpath => classifyFrom_of_goesOn hb pos i l h ⟨hbad, hwait, hpath⟩⟩,
    fun s id b idx hb hidx hhome _ => classify_classified hb hidx hhome⟩
  case poison =>
    have hbegin := beginLookup_of_poison he hp
    rw [exec_lookupDescriptor_of_none ext hpow hop (by rw [hbegin]; exact opening_failJob _ _ hop), hbegin]
  case refused =>
    have hbegin := beginLookup_of_refused he hp href
    rw [exec_lookupDescriptor_of_none ext hpow hop (by rw [hbegin]; exact opening_failJob _ _ hop), hbegin]
  case begun =>
    rw [hk] at hacc
    have hbegin := beginLookup_of_accepted he hp hk hacc
    have hopen := opening_lookupBegun (l := s.nextLookup c e k) hop (Nat.pos_of_ne_zero (nbags_ne_zero_of_accepted hacc))
    rw [← hbegin] at hopen
    obtain ⟨hlookups, hnext, hdram, hjobs, hbags⟩ := lookupBegun_frame s (s.nextLookup c e k)
    have hqueue := lookupBegun_qLookup s (s.nextLookup c e k)
    rw [← hbegin] at hlookups hnext hdram hjobs hbags hqueue
    have hexec := exec_lookupDescriptor_of_begun ext hpow hop hopen
    rw [nextLookup_desc] at hexec
    exact ⟨_, hlookups, hnext, hdram, hjobs, hbags, hqueue, hexec⟩
  case held => rw [exec_lookupDescriptor_of_opening ext hpow hop, openBags_of_held hop hheld]

end Sys2Proof.Machine
end

section
/-!
Access counters, events and management memory (R158, R160, R380, R502).
-/
namespace Sys2Proof.Machine

theorem exec_eventPost (s : State) : exec .eventPost s = execEventPost s := rfl

/-! ### Epochs of the access counters (R158) -/

/-- A change of every entry changes what each key reads, where the default changes to the default. -/
theorem Tbl.get_map_of_default {α β : Type} {d : α} {e : β} {f : α → β} (hf : f d = e) (t : Tbl α) (k : Nat) :
    Tbl.get e (t.map fun x => (x.1, f x.2)) k = f (Tbl.get d t k) := by
  induction t with
  | nil => exact hf.symm
  | cons x t ih =>
    obtain ⟨j, v⟩ := x
    rw [List.map_cons, Tbl.get_cons, Tbl.get_cons, ih]
    split <;> rfl

/-- The keys of a table with rising keys lie above its bound. -/
theorem Tbl.lt_of_rising {α : Type} {t : Tbl α} {a : Nat} (h : Tbl.rising (some a) t = true) : ∀ e ∈ t, a < e.1 := by
  induction t generalizing a with
  | nil => exact fun e he => absurd he List.not_mem_nil
  | cons x t ih =>
    simp only [Tbl.rising, Bool.and_eq_true, decide_eq_true_eq] at h
    intro e he
    rcases List.mem_cons.mp he with rfl | he
    · exact h.1
    · exact h.1.trans (ih h.2 e he)

/-- Entries that hold the default may be left out of a table with rising keys. -/
theorem Tbl.get_filter_default {α : Type} [DecidableEq α] (d : α) (t : Tbl α) (k : Nat) :
    ∀ {lo : Option Nat}, Tbl.rising lo t = true → Tbl.get d (t.filter fun e => e.2 != d) k = Tbl.get d t k := by
  induction t with
  | nil => exact fun _ => rfl
  | cons x t ih =>
    obtain ⟨j, v⟩ := x
    intro lo h
    have hrest : Tbl.rising (some j) t = true := by
      simp only [Tbl.rising, Bool.and_eq_true] at h
      exact h.2
    rw [Tbl.get_cons]
    by_cases hv : v = d
    · rw [List.filter_cons_of_neg (by simp [hv]), ih hrest]
      split
      · rename_i hk
        rw [hv, hk, Tbl.get_of_not_mem]
        exact fun e he => (Tbl.lt_of_rising hrest e he).ne'
      · rfl
    · rw [List.filter_cons_of_pos (by simp [hv]), Tbl.get_cons, ih hrest]

/-- The keys of a table rise still once every entry has changed. -/
theorem Tbl.rising_map {α β : Type} (f : α → β) (t : Tbl α) : ∀ lo : Option Nat,
    Tbl.rising lo (t.map fun x => (x.1, f x.2)) = Tbl.rising lo t := by
  induction t with
  | nil => exact fun _ => rfl
  | cons x t ih =>
    exact fun lo => congrArg (_ && ·) (ih (some x.1))

/-- R158: a counter after the halving pass. -/
def PageCtr.halved (c : PageCtr) : PageCtr := { count := c.count / 2 }

/-- The access counters after the halving pass. -/
def State.halvedCounters (s : State) : Tbl PageCtr :=
  (s.counters.map fun e => (e.1, e.2.halved)).filter fun e => e.2 != {}

theorem halvedCounters_get {s : State} (h : Tbl.rising none s.counters = true) (k : Nat) :
    Tbl.get {} s.halvedCounters k = (Tbl.get {} s.counters k).halved := by
  rw [State.halvedCounters, Tbl.get_filter_default {} _ k ((Tbl.rising_map PageCtr.halved s.counters none).trans h)]
  exact Tbl.get_map_of_default (d := ({} : PageCtr)) (f := PageCtr.halved) rfl s.counters k

theorem execCounterEpoch_of_due {s : State} (hp : s.powered = true)
    (hd : due s mkEpoch (s.policy.epochMs * 1000000) = true) :
    execCounterEpoch s = .next (mark
      { s with counters := s.halvedCounters, policy := s.policyNext, hotPosted := false } mkEpoch
      (s.policyNext.epochMs * 1000000)) := by
  rw [execCounterEpoch, whenPowered_of_powered hp, if_pos hd]
  rfl

theorem execCounterEpoch_of_not_due {s : State} (hp : s.powered = true)
    (hd : due s mkEpoch (s.policy.epochMs * 1000000) = false) : execCounterEpoch s = .next s := by
  rw [execCounterEpoch, whenPowered_of_powered hp, if_neg (by rw [hd]; exact Bool.false_ne_true)]

/-! ### The oldest event is posted (R502) -/

theorem wordsBytes_length (l : List Word) : (wordsBytes l).length = 8 * l.length := by
  simp [wordsBytes, List.length_flatMap, Nat.mul_comm]

/-- R510: a write of no more than Max_Payload_Size bytes is one TLP. -/
theorem tlps_of_length_le {m a : Nat} {l : List Byte} (h0 : 0 < l.length) (h : l.length ≤ m) : tlps m a l = [(a, l)] := by
  have hone : ceilDiv l.length m = 1 := by
    unfold ceilDiv
    exact Nat.div_eq_of_lt_le (by omega) (by omega)
  simp [tlps, hone, List.take_of_length_le h]

theorem le_maxPayload (s : State) : 128 ≤ s.maxPayload := by
  unfold State.maxPayload
  exact Nat.le_mul_of_pos_right _ (Nat.two_pow_pos _)

/-- R519, R521: a short write of a function whose DMA is not blocked goes out in one piece. -/
theorem dmaBytes_of_short {s : State} {f a : Nat} {relaxed : Bool} {l : List Byte} (hb : s.blocked f = false)
    (h0 : 0 < l.length) (h : l.length ≤ 128) :
    dmaBytes s f a relaxed l = { s with out := s.out ++ [.dma f a l relaxed false] } := by
  rw [dmaBytes, dmaSend, tlps_of_length_le h0 (h.trans (le_maxPayload s)), forL_cons, forL_nil, sendAs, hb]
  rfl

section
variable {s : State} {q : PfQ} {e : Event} {rest : List Event}

theorem postEvent_of_room (hq : s.eq = some q) (he : s.evHeld = e :: rest) (hroom : q.full = false)
    (hopen : s.blocked 0 = false) : postEvent s = msix
      { s with evHeld := rest, eq := some q.advance,
               out := s.out ++ [.dma 0 (q.ring.toNat + 64 * q.tail) (wordsBytes e.words) false false] } 0 q.vector := by
  have hlen : (wordsBytes e.words).length = 64 := wordsBytes_length e.words
  have hcan : canPostEvent s = true := by simp [canPostEvent, hq, hroom, hopen]
  unfold postEvent
  rw [hq, he]
  simp only [hcan, if_true, dmaBytes_of_short hopen (by omega : 0 < (wordsBytes e.words).length) (by omega)]

theorem postEvent_of_no_room (hq : s.eq = some q) (he : s.evHeld = e :: rest) (h : q.full = true ∨ s.blocked 0 = true) :
    postEvent s = s := by
  have hcan : canPostEvent s = false := by
    rcases h with h | h <;> simp [canPostEvent, hq, h]
  unfold postEvent
  rw [hq, he]
  simp only [hcan, Bool.false_eq_true, if_false]

end

/-! ### An uncorrectable word of management memory (R380) -/

/-- A live job ends with the status with which all jobs end. -/
theorem endAll_job_of_live {s : State} {id : Nat} {j : Job} (st : Status) (hj : s.job id = some j) (hs : j.status = none) :
    ∃ j', (endAll s st).job id = some j' ∧ j'.status = some st := by
  have hkeep : ∀ j', (endAll s st).job id = some j' → j'.status = none ∨ j'.status = some st := by
    refine forL_induct (P := fun t => ∀ j', t.job id = some j' → j'.status = none ∨ j'.status = some st) (fun x t h j' hj' => ?_)
      fun j' hj' => .inl ?_
    · rw [endJob_job] at hj'
      split at hj'
      · obtain ⟨i, -, rfl⟩ := Option.map_eq_some_iff.mp hj'
        exact .inr rfl
      · exact h j' hj'
    · rw [hj] at hj'
      cases hj'
      exact hs
  have hsome : ((endAll s st).job id).isSome = true := by
    refine forL_induct (P := fun t => (t.job id).isSome = true) (fun x t h => ?_) (by rw [hj]; rfl)
    rw [endJob_job]
    split
    · rename_i hx
      rw [← hx.1, Option.isSome_map]
      exact h
    · exact h
  obtain ⟨j', hj'⟩ := Option.isSome_iff_exists.mp hsome
  have hended := endAll_lives s st id
  rw [State.lives, hj'] at hended
  refine ⟨j', hj', (hkeep j' hj').resolve_left fun hn => ?_⟩
  simp [hn] at hended

theorem jobFaultAll_job_of_live {s : State} {id : Nat} {j : Job} (cause : Nat) (hj : s.job id = some j)
    (hs : j.status = none) : ∃ j', (jobFaultAll s cause).job id = some j' ∧ j'.status = some stJobFault := by
  have hjobs : (jobFaultAll s cause).jobs = (endAll s stJobFault).jobs := raiseEvent_jobs ..
  rw [job_of_jobs hjobs]
  exact endAll_job_of_live stJobFault hj hs

/-- A job fault of unknown owner posts one event. -/
theorem jobFaultAll_evSeq (s : State) (cause : Nat) : (jobFaultAll s cause).evSeq = s.evSeq + 1 := by
  have h : (enterFaulted (endAll s stJobFault)).evSeq = s.evSeq := endAll_evSeq s stJobFault
  rw [← h]
  exact raiseEvent_evSeq ..

/-- Firmware notes that Ulizor core u is to be reloaded from the active image (R380). -/
def State.noteReload (s : State) (u : Nat) : State :=
  { s with sec := { s.sec with reload := if s.sec.reload.contains u then s.sec.reload else s.sec.reload ++ [u] } }

theorem mem_noteReload (s : State) (u : Nat) : u ∈ (s.noteReload u).sec.reload := by
  unfold State.noteReload
  simp only
  split
  · rename_i h
    exact List.contains_iff_mem.mp h
  · exact List.mem_append_right _ (List.mem_singleton_self u)

theorem noteReload_base (s : State) (u : Nat) : (s.noteReload u).base = { s.base with sec := (s.noteReload u).sec } := rfl

/-- R380: management memory. -/
theorem execUlizorSramUncorrectable_eq {s : State} (u : SlotId) (hfw : s.fwRuns = true) :
    execUlizorSramUncorrectable u s = .next ((jobFaultAll s causeMgmtMemory).noteReload u.val) := by
  rw [execUlizorSramUncorrectable, whenFw_of_fwRuns hfw]
  rfl

/-- Settles O54: the epoch, the event and the end of all jobs, each by its own lemmas. -/
theorem countersAndEvents : Obligations.CountersAndEvents := by
  unfold Obligations.CountersAndEvents
  refine ⟨fun s hp hd => ⟨_, execCounterEpoch_of_due hp hd, rfl, rfl, halvedCounters_get, rfl⟩,
    fun s hp hd => execCounterEpoch_of_not_due hp hd, fun s q e rest hfw hq he => ⟨fun hroom hopen => ?posted, fun h => ?kept⟩,
    fun s u hfw => ?memory⟩
  case posted =>
    rw [exec_eventPost, execEventPost, whenFw_of_fwRuns hfw, postEvent_of_room hq he hroom hopen]
  case kept => rw [exec_eventPost, execEventPost, whenFw_of_fwRuns hfw, postEvent_of_no_room hq he h]
  case memory =>
    refine ⟨_, execUlizorSramUncorrectable_eq u hfw, ?_, mem_noteReload _ _, jobFaultAll_lives s causeMgmtMemory,
      fun id j hj hs => jobFaultAll_job_of_live causeMgmtMemory hj hs, fun h => ?_, jobFaultAll_jobFaults s causeMgmtMemory,
      jobFaultAll_evSeq s causeMgmtMemory⟩
    · rw [noteReload_base, jobFaultAll_base]
    · exact (jobFaultAll_schedState s causeMgmtMemory).trans (if_neg h)

end Sys2Proof.Machine
end

section
/-!
What the operations on table versions may change: responses, the leaves of page tables, tensor records, and the creation of a
version. Each lemma writes out the state that is left.
-/
namespace Sys2Proof.Machine

/-! ### Responses (R480) -/

theorem sendAs_eq (s : State) (f : Nat) (o : Output) : ∃ l w, sendAs s f o = { s with link := l, out := w } := by
  unfold sendAs
  split <;> exact ⟨_, _, rfl⟩

theorem msix_eq (s : State) (f v : Nat) : ∃ l w, msix s f v = { s with link := l, out := w } := by
  unfold msix
  split
  · exact ⟨_, _, rfl⟩
  · split
    · exact ⟨_, _, rfl⟩
    · exact sendAs_eq ..

theorem respond_eq (s : State) (f k : Nat) (st : Status) (r : List Word) :
    ∃ b l w, respond s f k st r = { s with mbox := b, link := l, out := w } := by
  unfold respond
  split
  · obtain ⟨l, w, h⟩ := msix_eq (upMail s (mailKey f k) fun m => { m with
      payload := putPayload m.payload 0 (wordsBytes r), respLen := BitVec.ofNat 12 (8 * r.length),
      ticker := s.tickerW, wallValid := s.time.wallValid, powerUps := s.time.powerUps,
      state := 3, status := st, started := false, applied := 0 }) f 0
    exact ⟨_, l, w, h⟩
  · exact ⟨_, _, _, rfl⟩

@[simp] theorem respond_slot (s : State) (f k : Nat) (st : Status) (r : List Word) (n : Nat) :
    (respond s f k st r).slot n = s.slot n := by
  obtain ⟨b, l, w, h⟩ := respond_eq s f k st r
  rw [h]
  rfl

@[simp] theorem respond_jobs (s : State) (f k : Nat) (st : Status) (r : List Word) : (respond s f k st r).jobs = s.jobs := by
  obtain ⟨b, l, w, h⟩ := respond_eq s f k st r
  rw [h]

@[simp] theorem respond_cores (s : State) (f k : Nat) (st : Status) (r : List Word) : (respond s f k st r).cores = s.cores := by
  obtain ⟨b, l, w, h⟩ := respond_eq s f k st r
  rw [h]

@[simp] theorem respond_dram (s : State) (f k : Nat) (st : Status) (r : List Word) : (respond s f k st r).dram = s.dram := by
  obtain ⟨b, l, w, h⟩ := respond_eq s f k st r
  rw [h]

/-! ### Leaves and translations (R137, R165, R350) -/

theorem upLeaves_eq (s : State) (vpage : Nat) (f : Word → Word) : ∃ d, upLeaves s vpage f = { s with dram := d } := by
  unfold upLeaves
  refine forL_induct (P := fun t => ∃ d, t = { s with dram := d }) ?_ ⟨_, rfl⟩
  rintro c t ⟨d, rfl⟩
  split <;> exact ⟨_, rfl⟩

theorem clearContig_eq (s : State) (vpage : Nat) : ∃ d, clearContig s vpage = { s with dram := d } := by
  refine forN_induct (P := fun t => ∃ d, t = { s with dram := d }) ⟨_, rfl⟩ ?_
  rintro i t - ⟨d, rfl⟩
  exact upLeaves_eq { s with dram := d } ..

theorem unmapPage_eq (r : PageRange) (s : State) : ∃ d x, unmapPage r s = { s with dram := d, xl := x } := by
  obtain ⟨d, h⟩ := upLeaves_eq s r.vpage fun _ => 0
  unfold unmapPage
  rw [h]
  exact ⟨_, _, rfl⟩

theorem unmapPages_eq (l : List PageRange) (s : State) : ∃ d x, forL l unmapPage s = { s with dram := d, xl := x } := by
  refine forL_induct (P := fun t => ∃ d x, t = { s with dram := d, xl := x }) ?_ ⟨_, _, rfl⟩
  rintro r t ⟨d, x, rfl⟩
  exact unmapPage_eq r { s with dram := d, xl := x }

theorem childNode_eq (s : State) (node idx : Nat) : ∃ d x, (childNode s node idx).2 = { s with dram := d, xl := x } := by
  unfold childNode
  simp only
  split <;> exact ⟨_, _, rfl⟩

theorem mapLeaf_eq (s : State) (root va level : Nat) (w : Word) :
    ∃ d x, mapLeaf s root va level w = { s with dram := d, xl := x } := by
  unfold mapLeaf
  simp only
  obtain ⟨d3, x3, h3⟩ := childNode_eq s root (vaIndex va 4)
  rw [h3]
  split
  · exact ⟨_, _, rfl⟩
  · obtain ⟨d2, x2, h2⟩ := childNode_eq { s with dram := d3, xl := x3 } (childNode s root (vaIndex va 4)).1 (vaIndex va 3)
    rw [h2]
    split
    · exact ⟨_, _, rfl⟩
    · obtain ⟨d1, x1, h1⟩ := childNode_eq { s with dram := d2, xl := x2 }
        (childNode { s with dram := d3, xl := x3 } (childNode s root (vaIndex va 4)).1 (vaIndex va 3)).1 (vaIndex va 2)
      rw [h1]
      exact ⟨_, _, rfl⟩

theorem mapRun_eq (root : Nat) (write : Bool) (r : PageRun) (s : State) :
    ∃ d x, mapRun root write r s = { s with dram := d, xl := x } := by
  refine forN_induct (P := fun t => ∃ d x, t = { s with dram := d, xl := x }) ⟨_, _, rfl⟩ ?_
  rintro i t - ⟨d, x, rfl⟩
  exact mapLeaf_eq { s with dram := d, xl := x } ..

theorem mapRuns_eq (root : Nat) (write : Bool) (l : List PageRun) (s : State) :
    ∃ d x, forL l (mapRun root write) s = { s with dram := d, xl := x } := by
  refine forL_induct (P := fun t => ∃ d x, t = { s with dram := d, xl := x }) ?_ ⟨_, _, rfl⟩
  rintro r t ⟨d, x, rfl⟩
  exact mapRun_eq root write r { s with dram := d, xl := x }

/-! ### Tensor records and checksums (R384 to R386) -/

theorem addRecord_eq {s t : State} {id version n i : Nat} {key : Option Nat} (h : addRecord s id version n key = some (i, t)) :
    ∃ g, t = { s with ig := g } := by
  obtain ⟨r, -, hr⟩ := Option.map_eq_some_iff.mp h
  exact ⟨_, (congrArg Prod.snd hr).symm⟩

theorem mapTensor_eq (s : State) (l : List PageRange) (trec va n : Nat) : ∃ g, mapTensor s l trec va n = { s with ig := g } := by
  refine forL_induct (P := fun t => ∃ g, t = { s with ig := g }) ?_ ⟨_, rfl⟩
  rintro e t ⟨g, rfl⟩
  split <;> exact ⟨_, rfl⟩

theorem sumTier_eq (s : State) (l : List PageRange) (trec va n : Nat) (tier : List (Nat × List PWord)) :
    ∃ g a, sumTier s l trec va n tier = { s with ig := g, fab := a } := by
  unfold sumTier
  split
  · exact ⟨_, _, rfl⟩
  · refine forL_induct (P := fun t => ∃ g a, t = { s with ig := g, fab := a }) ?_ ⟨_, _, rfl⟩
    rintro e t ⟨g, a, rfl⟩
    refine forN_induct (P := fun t => ∃ g a, t = { s with ig := g, fab := a }) ⟨_, _, rfl⟩ ?_
    rintro i t - ⟨g, a, rfl⟩
    simp only
    split
    · split <;> exact ⟨_, _, rfl⟩
    · exact ⟨_, _, rfl⟩

theorem addTensor_eq {q : MapReq} {key : Nat} {tier : List (Nat × List PWord)} {x : Nat × Nat × Nat} {s t : State}
    (h : addTensor q key tier x s = some t) : ∃ g a, t = { s with ig := g, fab := a } := by
  unfold addTensor at h
  split at h
  · cases h
  · obtain ⟨⟨i, u⟩, hu, rfl⟩ := Option.map_eq_some_iff.mp h
    obtain ⟨g, rfl⟩ := addRecord_eq hu
    obtain ⟨g', h'⟩ := mapTensor_eq { s with ig := g } q.pages i x.2.1 x.2.2
    simp only [h']
    exact sumTier_eq { s with ig := g' } ..

theorem addTensors_eq {q : MapReq} {key : Nat} {tier : List (Nat × List PWord)} (l : List (Nat × Nat × Nat)) :
    ∀ {s t : State}, addTensors q key tier l s = some t → ∃ g a, t = { s with ig := g, fab := a } := by
  induction l with
  | nil =>
    intro s t h
    cases h
    exact ⟨_, _, rfl⟩
  | cons x l ih =>
    intro s t h
    rw [addTensors] at h
    split at h
    · cases h
    · rename_i u hu
      obtain ⟨g, a, rfl⟩ := addTensor_eq hu
      obtain ⟨g', a', rfl⟩ := ih h
      exact ⟨_, _, rfl⟩

theorem makeStore_eq {s t : State} (h : makeStore s = some t) : ∃ g, t = { s with ig := g } := by
  unfold makeStore at h
  split at h
  · cases h
    exact ⟨_, rfl⟩
  · obtain ⟨⟨i, u⟩, hu, rfl⟩ := Option.map_eq_some_iff.mp h
    obtain ⟨g, rfl⟩ := addRecord_eq hu
    refine forN_induct (P := fun t => ∃ g, t = { s with ig := g }) ⟨_, rfl⟩ ?_
    rintro i t - ⟨g, rfl⟩
    exact ⟨_, rfl⟩

theorem dramPut_slots (s : State) (a : Nat) (l : List PWord) : (dramPut s a l).slots = s.slots := rfl

theorem dramPut_jobs (s : State) (a : Nat) (l : List PWord) : (dramPut s a l).jobs = s.jobs := rfl

/-- Dropping the cached copies of a codebook changes no version and no job. -/
theorem dropCb_frame (s : State) (id : Nat) : (dropCb s id).slots = s.slots ∧ (dropCb s id).jobs = s.jobs :=
  forN_induct (P := fun t => t.slots = s.slots ∧ t.jobs = s.jobs) ⟨rfl, rfl⟩ fun _ _ _ h => h

theorem resum_frame (s : State) (off : Nat) : (resum s off).slots = s.slots ∧ (resum s off).jobs = s.jobs := by
  unfold resum
  split <;> exact ⟨rfl, rfl⟩

/-- Installing a codebook record changes no version and no job (R178, R386). -/
theorem installCb_frame (s : State) (id : Nat) (c : Codebook) :
    (installCb s id c).slots = s.slots ∧ (installCb s id c).jobs = s.jobs := by
  unfold installCb
  obtain ⟨hslots, hjobs⟩ := dropCb_frame { s with codebooks := Tbl.set none s.codebooks id (some c.cb256) } id
  refine forN_induct (P := fun t => t.slots = s.slots ∧ t.jobs = s.jobs) ?_ fun i t _ h => ?_
  · exact ⟨(dramPut_slots ..).trans hslots, (dramPut_jobs ..).trans hjobs⟩
  · obtain ⟨hs, hj⟩ := resum_frame t (codebookAt 0 + 4096 * i)
    exact ⟨hs.trans h.1, hj.trans h.2⟩

end Sys2Proof.Machine
end

section
/-!
TABLE_MAP, TABLE_SWAP and retirement (R127, R130 to R139).
-/
namespace Sys2Proof.Machine

theorem exec_tableSwap (f : FnId) (k : SlotId) (s : State) : exec (.tableSwap f k) s = execTableSwap f k s := rfl

theorem exec_tableSwapApply (s : State) : exec .tableSwapApply s = execTableSwapApply s := rfl

theorem exec_retirement (table : Fin 4096) (v : SlotId) (s : State) :
    exec (.retirement table v) s = execRetirement table v s := rfl

/-! ### Retirement (R137 to R139) -/

/-- Answering the swaps that waited changes no version (R136). -/
theorem swapsRetired_eq (s : State) (key : Nat) :
    ∃ h b l w, swapsRetired s key = { s with heldSwaps := h, mbox := b, link := l, out := w } := by
  refine forL_induct (P := fun t => ∃ h b l w, t = { s with heldSwaps := h, mbox := b, link := l, out := w }) ?_
    ⟨_, _, _, _, rfl⟩
  rintro e t ⟨h, b, l, w, rfl⟩
  obtain ⟨b', l', w', hr⟩ := respond_eq { s with heldSwaps := h, mbox := b, link := l, out := w } e.fn e.slot stOk [e.ticker]
  exact ⟨h, b', l', w', hr⟩

/-- The hedges forget a version: its entry in every cache, and the lines with its tag (R137). -/
theorem forgetVersion_eq (s : State) (key : Nat) (tag : Option (Nat × Nat)) :
    ∃ hs, forN 12 (fun h s => upHedge s h (fun x => { x with
      entryCache := x.entryCache.filter (· != key)
      thicket := x.thicket.filter (fun l => l.tag != tag) })) s = { s with hedges := hs } := by
  obtain ⟨hs, h, -⟩ := forN_upHedge 12 (fun _ x => { x with
      entryCache := x.entryCache.filter (· != key)
      thicket := x.thicket.filter (fun l => l.tag != tag) }) s
  exact ⟨hs, h⟩

theorem retire_eq (s : State) (key : Nat) : ∃ hs d x g u h b l w, retire s key =
    { s with hedges := hs, dram := d, xl := x, ig := g, upd := u, heldSwaps := h, mbox := b, link := l, out := w,
             slots := Tbl.erase s.slots key } := by
  unfold retire
  simp only
  obtain ⟨hs, hforget⟩ := forgetVersion_eq s key (some (key / 4, key % 4))
  rw [hforget]
  obtain ⟨d, x, hunmap⟩ := unmapPages_eq (s.slot key).pages { s with hedges := hs }
  rw [hunmap]
  obtain ⟨h, b, l, w, hswaps⟩ := swapsRetired_eq _ key
  rw [hswaps]
  exact ⟨_, _, _, _, _, _, _, _, _, rfl⟩

theorem retire_slot (s : State) (key n : Nat) : (retire s key).slot n = if n = key then {} else s.slot n := by
  obtain ⟨hs, d, x, g, u, h, b, l, w, he⟩ := retire_eq s key
  rw [he]
  exact Tbl.get_erase ..

/-- Retirement changes no core, job or codebook (R139). -/
theorem retire_frame (s : State) (key : Nat) : (retire s key).cores = s.cores ∧ (retire s key).jobs = s.jobs ∧
    (retire s key).codebooks = s.codebooks := by
  obtain ⟨hs, d, x, g, u, h, b, l, w, he⟩ := retire_eq s key
  rw [he]
  exact ⟨rfl, rfl, rfl⟩

theorem execRetirement_eq {s : State} (table : Fin 4096) (v : SlotId) (hfw : s.fwRuns = true) :
    execRetirement table v s =
      .next (if s.mayRetire (4 * table.val + v.val) then retire s (4 * table.val + v.val) else s) := by
  rw [execRetirement, whenFw_of_fwRuns hfw]

/-! ### The actions of a TABLE_SWAP (R131 to R133) -/

theorem mem_slotKeys {table n : Nat} (h : n ∈ slotKeys table) : n / 4 = table := by
  simp only [slotKeys, List.mem_map, List.mem_range] at h
  omega

theorem table_of_slotIn {s : State} {table n : Nat} {st : VState} (h : s.slotIn table st = some n) : n / 4 = table :=
  mem_slotKeys (List.mem_of_find?_eq_some h)

theorem state_of_slotIn {s : State} {table n : Nat} {st : VState} (h : s.slotIn table st = some n) :
    (s.slot n).state = st := by
  simpa using List.find?_some h

/-- The slot of a table in a state depends on the table's slots alone. -/
theorem slotIn_congr {s t : State} {table : Nat} (h : ∀ n, n / 4 = table → t.slot n = s.slot n) (st : VState) :
    t.slotIn table st = s.slotIn table st :=
  List.find?_congr fun n hn => by rw [h n (mem_slotKeys hn)]

/-- Change the slot that is named, where one is. -/
def upSlot? (s : State) (o : Option Nat) (f : VSlot → VSlot) : State :=
  match o with
  | some k => upSlot s k f
  | none => s

theorem upSlot?_eq (s : State) (o : Option Nat) (f : VSlot → VSlot) : ∃ l, upSlot? s o f = { s with slots := l } := by
  cases o <;> exact ⟨_, rfl⟩

theorem upSlot?_slot (s : State) (o : Option Nat) (f : VSlot → VSlot) (n : Nat) :
    (upSlot? s o f).slot n = if o = some n then f (s.slot n) else s.slot n := by
  cases o with
  | none => rfl
  | some k =>
    refine (upSlot_slot s k n f).trans ?_
    by_cases h : n = k
    · rw [if_pos h, if_pos (congrArg some h.symm), h]
    · rw [if_neg h, if_neg fun hk => h (Option.some.inj hk).symm]

/-- One action first takes a version out, then makes the SHADOW version CURRENT where it is a FLIP. -/
theorem swapOne_eq_upSlot? (e : Nat × Nat) (s : State) : swapOne e s =
    upSlot? (upSlot? s (placedBy s e) fun v => { v with state := .retiring })
      (if e.2 = actFlip then s.slotIn e.1 .shadow else none)
      fun v => { v with state := .current, flipTicker := s.tickerW } := by
  unfold swapOne
  cases placedBy s e <;> rfl

/-- One action changes versions alone. -/
theorem swapOne_eq (e : Nat × Nat) (s : State) : ∃ l, swapOne e s = { s with slots := l } := by
  rw [swapOne_eq_upSlot?]
  obtain ⟨l, h⟩ := upSlot?_eq s (placedBy s e) fun v => { v with state := .retiring }
  rw [h]
  exact upSlot?_eq { s with slots := l } _ _

/-- The slots that an action changes are slots of its table. -/
theorem swapOne_slot_of_other {e : Nat × Nat} {n : Nat} (s : State) (h : n / 4 ≠ e.1) : (swapOne e s).slot n = s.slot n := by
  have hold : placedBy s e ≠ some n := fun hn => h (table_of_slotIn hn)
  have hnew : (if e.2 = actFlip then s.slotIn e.1 .shadow else none) ≠ some n := by
    split
    · exact fun hn => h (table_of_slotIn hn)
    · exact nofun
  rw [swapOne_eq_upSlot?, upSlot?_slot, if_neg hnew, upSlot?_slot, if_neg hold]

/-- What an action does to its table depends on the table's slots and the time. -/
theorem swapOne_slot_congr {e : Nat × Nat} {s t : State} {n : Nat} (h : ∀ n, n / 4 = e.1 → t.slot n = s.slot n)
    (ht : t.tickerW = s.tickerW) (hn : n / 4 = e.1) : (swapOne e t).slot n = (swapOne e s).slot n := by
  have hplaced : placedBy t e = placedBy s e := slotIn_congr h _
  simp only [swapOne_eq_upSlot?, upSlot?_slot, slotIn_congr h, hplaced, ht, h n hn]

/-- A FLIP takes a table's CURRENT version out, and its SHADOW version is another. -/
theorem placedBy_of_flip {e : Nat × Nat} (s : State) (he : e.2 = actFlip) : placedBy s e = s.slotIn e.1 .current := by
  rw [placedBy, he]
  rfl

theorem slotIn_ne {s : State} {table n : Nat} {a b : VState} (hab : a ≠ b) (h : s.slotIn table a = some n) :
    s.slotIn table b ≠ some n := fun h' => hab ((state_of_slotIn h).symm.trans (state_of_slotIn h'))

/-- A version that an action takes out of SHADOW or CURRENT is RETIRING (R131). -/
theorem swapOne_slot_of_placed {e : Nat × Nat} {s : State} {n : Nat} (h : placedBy s e = some n) :
    (swapOne e s).slot n = { s.slot n with state := .retiring } := by
  have hnew : (if e.2 = actFlip then s.slotIn e.1 .shadow else none) ≠ some n := by
    split
    · rename_i he
      rw [placedBy_of_flip s he] at h
      exact slotIn_ne (by decide) h
    · exact nofun
  rw [swapOne_eq_upSlot?, upSlot?_slot, if_neg hnew, upSlot?_slot, if_pos h]

/-- A FLIP makes the SHADOW version CURRENT (R131). -/
theorem swapOne_slot_of_flip {e : Nat × Nat} {s : State} {n : Nat} (he : e.2 = actFlip) (h : s.slotIn e.1 .shadow = some n) :
    (swapOne e s).slot n = { s.slot n with state := .current, flipTicker := s.tickerW } := by
  have hold : placedBy s e ≠ some n := by
    rw [placedBy_of_flip s he]
    exact slotIn_ne (by decide) h
  rw [swapOne_eq_upSlot?, if_pos he, upSlot?_slot, if_pos h, upSlot?_slot, if_neg hold]

/-! ### The actions of a whole TABLE_SWAP (R132) -/

theorem swapAll_eq (l : List (Nat × Nat)) (s : State) : ∃ v, forL l swapOne s = { s with slots := v } := by
  refine forL_induct (P := fun t => ∃ v, t = { s with slots := v }) ?_ ⟨_, rfl⟩
  rintro e t ⟨v, rfl⟩
  exact swapOne_eq e { s with slots := v }

/-- The versions of a table that no entry names stay as they are. -/
theorem swapAll_slot_of_none {l : List (Nat × Nat)} {n : Nat} (s : State) (h : ∀ e ∈ l, n / 4 ≠ e.1) :
    (forL l swapOne s).slot n = s.slot n := by
  induction l generalizing s with
  | nil => rfl
  | cons x l ih =>
    rw [forL_cons, ih _ fun e he => h e (List.mem_cons_of_mem x he)]
    exact swapOne_slot_of_other s (h x List.mem_cons_self)

/-- Where no table appears twice, each action acts as it would alone. -/
theorem swapAll_slot_of_mem {l : List (Nat × Nat)} {e : Nat × Nat} {n : Nat} (s : State) (hl : (l.map (·.1)).Nodup)
    (he : e ∈ l) (hn : n / 4 = e.1) : (forL l swapOne s).slot n = (swapOne e s).slot n := by
  induction l generalizing s with
  | nil => exact absurd he List.not_mem_nil
  | cons x l ih =>
    rw [List.map_cons, List.nodup_cons] at hl
    obtain ⟨hx, hrest⟩ := hl
    rw [forL_cons]
    rcases List.mem_cons.mp he with rfl | he
    · exact swapAll_slot_of_none _ fun y hy hyn => hx (List.mem_map.mpr ⟨y, hy, hyn.symm.trans hn⟩)
    · have hne : e.1 ≠ x.1 := fun h => hx (List.mem_map.mpr ⟨e, he, h⟩)
      rw [ih (swapOne x s) hrest he]
      refine swapOne_slot_congr (fun m hm => swapOne_slot_of_other s (hm ▸ hne)) ?_ hn
      obtain ⟨v, hv⟩ := swapOne_eq x s
      rw [hv]
      rfl

/-- R133: no table appears twice. -/
theorem nodup_of_swapOk {s : State} {l : List (Nat × Nat)} (h : swapOk s l = true) : (l.map (·.1)).Nodup := by
  simp only [swapOk, Bool.and_eq_true, beq_iff_eq] at h
  refine List.dedup_eq_self.mp ((List.dedup_sublist _).eq_of_length ?_)
  rw [h.2, List.length_map]

theorem swapApply_slot (s : State) (fn slot : Nat) (l : List (Nat × Nat)) (wait : Bool) (n : Nat) :
    (swapApply s fn slot l wait).slot n = (forL l swapOne s).slot n := by
  unfold swapApply
  simp only
  split
  · rfl
  · exact respond_slot ..

/-- A swap changes no word of local DRAM and no job. -/
theorem swapApply_frame (s : State) (fn slot : Nat) (l : List (Nat × Nat)) (wait : Bool) :
    (swapApply s fn slot l wait).dram = s.dram ∧ (swapApply s fn slot l wait).jobs = s.jobs := by
  obtain ⟨v, hv⟩ := swapAll_eq l s
  unfold swapApply
  simp only [hv]
  split
  · exact ⟨rfl, rfl⟩
  · exact ⟨respond_dram .., respond_jobs ..⟩

/-- R131: what each entry of a swap that is applied does to its table. -/
theorem swapApply_action {s : State} {l : List (Nat × Nat)} (fn slot : Nat) (wait : Bool) (hok : swapOk s l = true)
    {e : Nat × Nat} (he : e ∈ l) :
    (∀ n, placedBy s e = some n → (swapApply s fn slot l wait).slot n = { s.slot n with state := .retiring }) ∧
    (e.2 = actFlip → ∀ n, s.slotIn e.1 .shadow = some n →
      (swapApply s fn slot l wait).slot n = { s.slot n with state := .current, flipTicker := s.tickerW }) := by
  have hslot : ∀ n, n / 4 = e.1 → (swapApply s fn slot l wait).slot n = (swapOne e s).slot n := fun n hn =>
    (swapApply_slot ..).trans (swapAll_slot_of_mem s (nodup_of_swapOk hok) he hn)
  exact ⟨fun n hn => (hslot n (table_of_slotIn hn)).trans (swapOne_slot_of_placed hn),
    fun hf n hn => (hslot n (table_of_slotIn hn)).trans (swapOne_slot_of_flip hf hn)⟩

theorem swapEntries_begun (s : State) (f : FnId) (k : SlotId) :
    swapEntries (s.begun f k) (mailKey f k) = swapEntries s (mailKey f k) := by
  simp only [swapEntries, begun_reqF]

/-- A TABLE_SWAP that starts is refused, applied, or held (R133, R134). -/
theorem execTableSwap_of_starts {s : State} {f : FnId} {k : SlotId} (h : s.starts f k 0x13)
    (hres : swapReserved s (mailKey f k) = false) : execTableSwap f k s = .next (
      if swapOk s (swapEntries s (mailKey f k)) then
        if swapFits s (swapEntries s (mailKey f k)) then
          swapApply (s.begun f k) f k (swapEntries s (mailKey f k)) (bit (s.req (mailKey f k) 0) 63)
        else { s.begun f k with heldSwaps := s.heldSwaps ++
          [⟨f, k, swapEntries s (mailKey f k), bit (s.req (mailKey f k) 0) 63, false, 0, []⟩] }
      else respond (s.begun f k) f k stBadDescriptor []) := by
  rw [execTableSwap, hres, admin_of_starts h, tableSwapRun, swapEntries_begun, begun_req]
  rfl

/-- R134: the first held swap that fits is applied. -/
theorem execTableSwapApply_of_fits {s : State} {h : HeldSwap} (hfw : s.fwRuns = true)
    (hh : s.heldSwaps.find? (fun h => !h.applied && swapFits s h.entries) = some h) :
    execTableSwapApply s = .next (swapApply
      { s with heldSwaps := dropFirst (fun h => !h.applied && swapFits s h.entries) s.heldSwaps } h.fn h.slot h.entries
      h.wait) := by
  rw [execTableSwapApply, whenFw_of_fwRuns hfw]
  simp only [hh]

/-! ### TABLE_MAP (R127) -/

section
variable (s : State) (f : FnId) (k : SlotId) (ok : Bool)

theorem begunRead_req (n : Nat) : (s.begunRead f k ok).req (mailKey f k) n = s.req (mailKey f k) n := by
  cases ok <;> exact begun_req s f k n

theorem mapReq_begunRead (runs : HostRd) :
    mapReq (s.begunRead f k ok) (mailKey f k) runs = mapReq s (mailKey f k) runs := by
  simp only [mapReq, State.reqF, begunRead_req]

end

theorem begun_eq (s : State) (f : FnId) (k : SlotId) : ∃ b, s.begun f k = { s with mbox := b } := ⟨_, rfl⟩
theorem begunRead_eq (s : State) (f : FnId) (k : SlotId) (ok : Bool) :
    ∃ b x, s.begunRead f k ok = { s with mbox := b, link := x } := by
  obtain ⟨b, h⟩ := begun_eq s f k
  unfold State.begunRead
  rw [h]
  split <;> exact ⟨_, _, rfl⟩
section
/-! A mailbox and the host link are nothing that the checks of TABLE_MAP look at. -/

variable (s : State) (b : Tbl Mbox) (x : Link)

theorem leavesUnder_setMail (level : Nat) : ∀ node base : Nat,
    leavesUnder { s with mbox := b, link := x } level node base = leavesUnder s level node base := by
  induction level with
  | zero => exact fun _ _ => rfl
  | succ level ih =>
    intro node base
    have hentries : ({ s with mbox := b, link := x } : State).entriesOf node = s.entriesOf node := rfl
    have hnode : ∀ k, ({ s with mbox := b, link := x } : State).node k = s.node k := fun _ => rfl
    simp only [leavesUnder, ih, hentries, hnode]

theorem runsOk_setMail (q : MapReq) : q.runsOk { s with mbox := b, link := x } = q.runsOk s := by
  have hmapped : ∀ root, ({ s with mbox := b, link := x } : State).mapped root = s.mapped root := fun root =>
    leavesUnder_setMail s b x 4 root 0
  simp only [MapReq.runsOk, hmapped]
  rfl

theorem accepted_setMail (q : MapReq) (runs : HostRd) :
    q.accepted { s with mbox := b, link := x } runs = q.accepted s runs := by
  simp only [MapReq.accepted, runsOk_setMail]
  rfl

end

/-- TABLE_MAP that starts waits, is refused, or creates its version (R127). -/
theorem execTableMap_of_starts {s : State} {f : FnId} {k : SlotId} {runs : HostRd} (tier : List (Nat × List PWord))
    (h : s.starts f k 0x12) (hres : (mapReq s (mailKey f k) runs).reserved s (mailKey f k) = false) :
    execTableMap f k runs tier s = .next (
      if s.blocked f then s.begunWaits f k else mapTable f k runs tier (s.begunRead f k runs.ok)) := by
  rw [execTableMap, hres, admin_of_starts h, tableMapRun, withHost]
  rfl

theorem mapTable_begunRead (s : State) (f : FnId) (k : SlotId) (runs : HostRd) (tier : List (Nat × List PWord)) :
    mapTable f k runs tier (s.begunRead f k runs.ok) =
      (let u := s.begunRead f k runs.ok
       let q := mapReq s (mailKey f k) runs
       if q.absent s then respond u f k stAbsentUnit []
       else if q.accepted s runs then
         match s.freeSlot q.table with
         | none => respond u f k stBadDescriptor []
         | some key =>
           match (if q.hasCb then makeStore u else some u).bind (addTensors q key tier q.tensors) with
           | none => respond u f k stBadDescriptor []
           | some t => respond (createVersion q key t) f k stOk [at_ 33 32 (key % 4) ||| at_ 31 0 q.small]
       else respond u f k stBadDescriptor []) := by
  rw [mapTable, mapReq_begunRead]
  obtain ⟨b, x, hu⟩ := begunRead_eq s f k runs.ok
  simp only [hu, accepted_setMail] <;> rfl

theorem freeSlot_of_accepted {s : State} {q : MapReq} {runs : HostRd} (h : q.accepted s runs = true) :
    (s.freeSlot q.table).isSome = true := by
  simp only [MapReq.accepted, State.takesVersion, Bool.and_eq_true] at h
  tauto

/-! ### The version that is created -/

/-- The leaves of a version are written under every valid context. -/
theorem mapContexts_eq (q : MapReq) (s : State) : ∃ d x,
    forL s.contextList (fun c s => forL q.pageRuns (mapRun c.2 (q.writer != 0 && c.1 == q.writer)) s) s =
      { s with dram := d, xl := x } := by
  refine forL_induct (P := fun t => ∃ d x, t = { s with dram := d, xl := x }) ?_ ⟨_, _, rfl⟩
  rintro c t ⟨d, x, rfl⟩
  exact mapRuns_eq _ _ _ { s with dram := d, xl := x }

/-- The SHADOW version of a TABLE_MAP. -/
def MapReq.version (q : MapReq) : VSlot :=
  ⟨.shadow, BitVec.ofNat 16 q.tv, q.e, if q.train then some q.u else none, BitVec.ofNat 12 q.writer, q.pages, 0, 0, 0, 0, 0⟩

/-- Creating a version fills its slot and no other, and changes no job; without a codebook record it changes no core. -/
theorem createVersion_frame (q : MapReq) (key : Nat) (s : State) :
    (∀ n, (createVersion q key s).slot n = if n = key then q.version else s.slot n) ∧
    (createVersion q key s).jobs = s.jobs ∧ (q.hasCb = false → (createVersion q key s).cores = s.cores) := by
  obtain ⟨d, x, hmap⟩ := mapContexts_eq q s
  unfold createVersion
  rw [hmap]
  by_cases hcb : q.hasCb = true
  · obtain ⟨hslots, hjobs⟩ := installCb_frame { s with dram := d, xl := x } q.e.codebookId (cbOfWords q.cb)
    simp only [hcb, if_true]
    refine ⟨fun n => ?_, hjobs, nofun⟩
    rw [State.slot, Tbl.get_put, hslots]
    rfl
  · simp only [hcb]
    exact ⟨fun n => Tbl.get_put .., rfl, fun _ => rfl⟩

/-- Giving a version its tensor records changes no version, no job and no core. -/
theorem addTensors_frame {q : MapReq} {key : Nat} {tier : List (Nat × List PWord)} {s t : State}
    (h : (if q.hasCb then makeStore s else some s).bind (addTensors q key tier q.tensors) = some t) :
    t.slots = s.slots ∧ t.jobs = s.jobs ∧ t.cores = s.cores := by
  obtain ⟨u, hu, ht⟩ := Option.bind_eq_some_iff.mp h
  obtain ⟨g, a, rfl⟩ := addTensors_eq q.tensors ht
  split at hu
  · obtain ⟨g', rfl⟩ := makeStore_eq hu
    exact ⟨rfl, rfl, rfl⟩
  · cases hu
    exact ⟨rfl, rfl, rfl⟩

/-- What TABLE_MAP leaves of the state in which it executes, once its version is created. -/
theorem mappedVersion_frame {q : MapReq} {key : Nat} {tier : List (Nat × List PWord)} {s t : State} {f : FnId} {k : SlotId}
    {ok : Bool} (h : (if q.hasCb then makeStore (s.begunRead f k ok) else some (s.begunRead f k ok)).bind
      (addTensors q key tier q.tensors) = some t) :
    (∀ n, (createVersion q key t).slot n = if n = key then q.version else s.slot n) ∧
    (createVersion q key t).jobs = s.jobs ∧ (q.hasCb = false → (createVersion q key t).cores = s.cores) := by
  obtain ⟨hslots, hjobs, hcores⟩ := addTensors_frame h
  obtain ⟨hslot', hjobs', hcores'⟩ := createVersion_frame q key t
  obtain ⟨b, x, hu⟩ := begunRead_eq s f k ok
  rw [hu] at hslots hjobs hcores
  refine ⟨fun n => ?_, hjobs'.trans hjobs, fun hcb => (hcores' hcb).trans hcores⟩
  rw [hslot', State.slot, hslots]
  rfl

/-- Settles O50: TABLE_MAP by its checks and the version it creates; a swap by its checks and, table by table, by its
actions; a held swap; and retirement. -/
theorem tableVersions : Obligations.TableVersions := by
  unfold Obligations.TableVersions
  refine ⟨fun s f k runs tier hs hres => ⟨_, execTableMap_of_starts tier hs hres, ?map⟩,
    fun s f k hs hres => ⟨fun hno => ?refused, fun hok hfits => ?applied, fun hok hfull => ?held⟩,
    fun s fn slot l wait hok => ⟨fun e he => ?action, fun n hn => (swapApply_slot ..).trans (swapAll_slot_of_none s hn),
      swapApply_frame s fn slot l wait⟩,
    fun s h hfw hh => ?later, fun s table v hfw => ⟨fun hmay => ⟨_, ?retires, rfl, ?_⟩, fun hno => ?stays⟩⟩
  case map =>
    split
    · rfl
    · rw [mapTable_begunRead]
      simp only
      split
      · rfl
      · split
        · rename_i hacc
          obtain ⟨key, hkey⟩ := Option.isSome_iff_exists.mp (freeSlot_of_accepted hacc)
          simp only [hkey]
          cases hadd : (if (mapReq s (mailKey f k) runs).hasCb then makeStore (s.begunRead f k runs.ok)
              else some (s.begunRead f k runs.ok)).bind
            (addTensors (mapReq s (mailKey f k) runs) key tier (mapReq s (mailKey f k) runs).tensors) with
          | none => rfl
          | some v =>
            obtain ⟨hslot, hjobs, hcores⟩ := mappedVersion_frame hadd
            refine ⟨rfl, ?_, fun n hn => ?_, ?_, fun hcb => ?_⟩
            · rw [respond_slot, hslot, if_pos rfl]
              rfl
            · rw [respond_slot, hslot, if_neg hn]
            · rw [respond_jobs, hjobs]
            · rw [respond_cores, hcores hcb]
        · rfl
  case refused =>
    rw [exec_tableSwap, execTableSwap_of_starts hs hres, if_neg (by rw [hno]; exact Bool.false_ne_true)]
  case applied => rw [exec_tableSwap, execTableSwap_of_starts hs hres, if_pos hok, if_pos hfits]
  case held =>
    rw [exec_tableSwap, execTableSwap_of_starts hs hres, if_pos hok, if_neg (by rw [hfull]; exact Bool.false_ne_true)]
  case action =>
    obtain ⟨hplaced, hflip⟩ := swapApply_action fn slot wait hok he
    refine ⟨fun h0 => ⟨fun n hn => hplaced n ?_, hflip h0⟩, fun h1 n hn => hplaced n ?_, fun h2 n hn => hplaced n ?_⟩
    · rw [placedBy_of_flip s h0, hn]
    · rw [placedBy, h1, ← hn]
      rfl
    · rw [placedBy, h2, ← hn]
      rfl
  case later => rw [exec_tableSwapApply, execTableSwapApply_of_fits hfw hh]
  case retires => rw [exec_retirement, execRetirement_eq table v hfw, if_pos hmay]
  case stays => rw [exec_retirement, execRetirement_eq table v hfw, if_neg (by rw [hno]; exact Bool.false_ne_true)]
  · exact ⟨(retire_slot ..).trans (if_pos rfl), fun n hn => (retire_slot ..).trans (if_neg hn), retire_frame ..⟩

end Sys2Proof.Machine
end

section
/-!
MIGRATE (R163 to R169, R391).
-/
namespace Sys2Proof.Machine

theorem exec_migrate (f : FnId) (k : SlotId) (s : State) : exec (.migrate f k) s = execMigrate f k s := rfl

/-! ### Marking the page under way (R165) -/

/-- Marking a page changes leaves, translations, and the count of its version. -/
theorem markPage_eq (m : Migration) (s : State) : ∃ d x, markPage m s =
    { s with dram := d, xl := x, slots := (upSlot s m.key fun v => { v with migrating := 1 }).slots } := by
  unfold markPage
  simp only
  obtain ⟨d, hcontig⟩ := clearContig_eq s (m.firstPage + m.moved)
  rw [hcontig]
  obtain ⟨d', hmark⟩ := upLeaves_eq { s with dram := d } (m.firstPage + m.moved) fun w => pteSetState w stMigrating
  rw [hmark]
  exact ⟨_, _, rfl⟩

theorem markPage_slot (m : Migration) (s : State) (n : Nat) :
    (markPage m s).slot n = if n = m.key then { s.slot m.key with migrating := 1 } else s.slot n := by
  obtain ⟨d, x, h⟩ := markPage_eq m s
  rw [h]
  exact upSlot_slot s m.key n fun v => { v with migrating := 1 }

theorem markPage_frame (m : Migration) (s : State) : (markPage m s).migrates = s.migrates ∧
    (markPage m s).jobs = s.jobs ∧ (markPage m s).mbox = s.mbox := by
  obtain ⟨d, x, h⟩ := markPage_eq m s
  rw [h]
  exact ⟨rfl, rfl, rfl⟩

theorem retirePends_eq (l : List Nat) (s : State) : ∃ x, forL l (fun k s => retirePend s k) s = { s with xl := x } := by
  refine forL_induct (P := fun t => ∃ x, t = { s with xl := x }) ?_ ⟨_, rfl⟩
  rintro k t ⟨x, rfl⟩
  exact ⟨_, rfl⟩

/-- Clearing the mark changes leaves, pending faults, and the count of its version. -/
theorem unmarkPage_eq (s : State) (m : Migration) (f : Word → Word) : ∃ d x, unmarkPage s m f =
    { s with dram := d, xl := x, slots := (upSlot s m.key fun v => { v with migrating := 0 }).slots } := by
  unfold unmarkPage
  simp only
  obtain ⟨d, hleaves⟩ := upLeaves_eq s (m.firstPage + m.moved) fun w => pteSetState (f w) stValid
  rw [hleaves]
  obtain ⟨x, hx⟩ := retirePends_eq ((State.contextList { s with dram := d }).filterMap fun c =>
    (leafKey { s with dram := d } (65536 * (m.firstPage + m.moved)) 4 c.2).map (·.1)) { s with dram := d }
  rw [hx]
  exact ⟨_, _, rfl⟩

theorem unmarkPage_slot (s : State) (m : Migration) (f : Word → Word) (n : Nat) :
    (unmarkPage s m f).slot n = if n = m.key then { s.slot m.key with migrating := 0 } else s.slot n := by
  obtain ⟨d, x, h⟩ := unmarkPage_eq s m f
  rw [h]
  exact upSlot_slot s m.key n fun v => { v with migrating := 0 }

/-! ### The command (R164) -/

/-- The migration that the request in a slot asks for, of version v. -/
def State.migration (s : State) (f : FnId) (k : SlotId) (v : Nat) : Migration :=
  ⟨f, k, v, s.reqF (mailKey f k) 0 35 0, s.reqF (mailKey f k) 1 63 52 + 1, 0, s.reqF (mailKey f k) 1 45 44,
    s.reqF (mailKey f k) 1 43 0, false, none, none⟩

/-- A mailbox is nothing that the checks of MIGRATE look at. -/
theorem migrateOk_begun (s : State) (f : FnId) (k : SlotId) (v first n space off : Nat) :
    migrateOk (s.begun f k) ((s.begun f k).slot v) first n space off = migrateOk s (s.slot v) first n space off := by
  have hmail : ∀ b, migrateOk { s with mbox := b } (s.slot v) first n space off =
    migrateOk s (s.slot v) first n space off := fun _ => rfl
  obtain ⟨b, hb⟩ := begun_eq s f k
  rw [hb]
  exact hmail b

/-- The versions once the first page of a MIGRATE is marked. -/
theorem markPage_begun_slot (s : State) (f : FnId) (k : SlotId) (v n : Nat) (l : List Migration) :
    (markPage (s.migration f k v) { s.begun f k with migrates := l }).slot n =
      if n = v then { s.slot v with migrating := 1 } else s.slot n := by
  have hkey : (s.migration f k v).key = v := rfl
  obtain ⟨b, hb⟩ := begun_eq s f k
  rw [hb, markPage_slot, hkey]
  rfl

/-- A MIGRATE that starts is refused, or marks its first page. -/
theorem execMigrate_of_starts {s : State} {f : FnId} {k : SlotId} (h : s.starts f k 0x38)
    (hfld : s.reqF (mailKey f k) 1 51 46 = 0) (htail : s.tailZero (mailKey f k) 2 = true) :
    execMigrate f k s = .next (
      let r := s.reqF (mailKey f k)
      if !s.fGrade && r 1 45 44 == 2 then respond (s.begun f k) f k stAbsentUnit []
      else
        match s.versionOf (r 0 63 52) (r 0 51 36) with
        | none => respond (s.begun f k) f k stBadDescriptor []
        | some v =>
          if migrateOk s (s.slot v) (r 0 35 0) (r 1 63 52 + 1) (r 1 45 44) (r 1 43 0) then
            markPage (s.migration f k v) { s.begun f k with migrates := s.migrates ++ [s.migration f k v] }
          else respond (s.begun f k) f k stBadDescriptor []) := by
  have hgrade : (s.begun f k).fGrade = s.fGrade := rfl
  have hversion : (s.begun f k).versionOf = s.versionOf := rfl
  have hreserved : (s.reqF (mailKey f k) 1 51 46 != 0 || !s.tailZero (mailKey f k) 2) = false := by simp [hfld, htail]
  rw [execMigrate, hreserved, admin_of_starts h, migrateRun]
  simp only [begun_reqF, hgrade, hversion, migrateOk_begun] <;> rfl

/-! ### The end of a migration (R168) -/

/-- A migration that stops leaves its page at its source. -/
theorem stopMigration_eq (s : State) (m : Migration) (st : Status) : ∃ d x b l w, stopMigration s m st =
    { s with dram := d, xl := x, mbox := b, link := l, out := w, migrates := s.migrates.drop 1,
             slots := (upSlot s m.key fun v => { v with migrating := 0 }).slots } := by
  unfold stopMigration endMigration
  obtain ⟨d, x, hun⟩ := unmarkPage_eq s m id
  rw [hun]
  obtain ⟨b, l, w, hr⟩ := respond_eq { s with
    dram := d, xl := x, slots := (upSlot s m.key fun v => { v with migrating := 0 }).slots
    migrates := s.migrates.drop 1 } m.fn m.slot st [at_ 12 0 m.moved]
  exact ⟨d, x, b, l, w, hr⟩

theorem stopMigration_slot (s : State) (m : Migration) (st : Status) (n : Nat) :
    (stopMigration s m st).slot n = if n = m.key then { s.slot m.key with migrating := 0 } else s.slot n := by
  obtain ⟨d, x, b, l, w, h⟩ := stopMigration_eq s m st
  rw [h]
  exact upSlot_slot s m.key n fun v => { v with migrating := 0 }

theorem stopMigration_frame (s : State) (m : Migration) (st : Status) :
    (stopMigration s m st).migrates = s.migrates.drop 1 ∧ (stopMigration s m st).ig = s.ig := by
  obtain ⟨d, x, b, l, w, h⟩ := stopMigration_eq s m st
  rw [h]
  exact ⟨rfl, rfl⟩

/-! ### The page under way is at its destination (R165) -/

theorem markPage_pages (m : Migration) (s : State) (n : Nat) : ((markPage m s).slot n).pages = (s.slot n).pages := by
  rw [markPage_slot]
  split
  · rename_i h
    rw [h]
  · rfl

theorem unmarkPage_pages (s : State) (m : Migration) (f : Word → Word) (n : Nat) :
    ((unmarkPage s m f).slot n).pages = (s.slot n).pages := by
  rw [unmarkPage_slot]
  split
  · rename_i h
    rw [h]
  · rfl

theorem endMigration_slot (s : State) (m : Migration) (st : Status) (n : Nat) : (endMigration s m st).slot n = s.slot n :=
  respond_slot ..

theorem takeFree_slot (s : State) (n : Nat) : (takeFree s).2.slot n = s.slot n := rfl

theorem upMigration_slot (s : State) (f : Migration → Migration) (n : Nat) : (upMigration s f).slot n = s.slot n := rfl

theorem movePageMap_eq (s : State) (v : VSlot) (vpage src dst : Nat) :
    ∃ g, movePageMap s v vpage src dst = { s with ig := g } := by
  have hmap : ∀ (l : List (Nat × Nat)) (t : State),
      ∃ g, forL l (fun e u => mapPage e.1 vpage e.2 (paOff dst) u) t = { t with ig := g } := by
    intro l t
    refine forL_induct (P := fun u => ∃ g, u = { t with ig := g }) ?_ ⟨_, rfl⟩
    rintro e u ⟨g, rfl⟩
    exact ⟨_, rfl⟩
  unfold movePageMap
  simp only
  split
  · split <;> exact hmap _ _
  · split <;> exact ⟨_, rfl⟩

/-- The page under way is remapped to its destination, and its mark cleared. -/
def State.pageRemapped (s : State) (m : Migration) : State :=
  let t := movePageMap s (s.slot m.key) (m.firstPage + m.moved) (m.src s) (m.dst s)
  unmarkPage (upSlot { t with bags := t.bags.map (Bag.follow t m) } m.key fun v =>
      { v with pages := movedPages v.pages (m.firstPage + m.moved) 1 (m.dst s) }) m
    fun w => mkLeaf stValid false (pteWrite w) (pteFw w) (m.dst s)

theorem pageRemapped_pages (s : State) (m : Migration) : ((s.pageRemapped m).slot m.key).pages =
    movedPages (s.slot m.key).pages (m.firstPage + m.moved) 1 (m.dst s) := by
  obtain ⟨g, hmap⟩ := movePageMap_eq s (s.slot m.key) (m.firstPage + m.moved) (m.src s) (m.dst s)
  unfold State.pageRemapped
  simp only [hmap]
  rw [unmarkPage_pages, upSlot_slot, if_pos rfl]
  rfl

/-- The migration with one more page moved. -/
def Migration.next (m : Migration) : Migration := { m with moved := m.moved + 1, got := none, put := none }

/-- After a page the migration ends, stops for FAULTED, or marks the next page (R165, R169). -/
theorem pageMoved_eq (s : State) (m : Migration) : pageMoved s m =
    if m.next.moved = m.next.count then endMigration (s.pageRemapped m) m.next stOk
    else if m.next.faulted then
      endMigration (takeFree (s.pageRemapped m)).2 m.next (BitVec.ofNat 16 (takeFree (s.pageRemapped m)).1)
    else markPage m.next (upMigration (s.pageRemapped m) fun _ => m.next) := rfl

/-- A page that has moved lies at its destination in its version's pages. -/
theorem pageMoved_pages (s : State) (m : Migration) : ((pageMoved s m).slot m.key).pages =
    movedPages (s.slot m.key).pages (m.firstPage + m.moved) 1 (m.dst s) := by
  rw [pageMoved_eq, ← pageRemapped_pages]
  split
  · rw [endMigration_slot]
  · split
    · rw [endMigration_slot, takeFree_slot]
    · rw [markPage_pages, upMigration_slot]

/-! ### One page (R165, R168) -/

/-- The state once the words `l` of the page under way have been read. -/
def State.pageRead (s : State) (m : Migration) (l : List PWord) : State :=
  if s.route (m.src s) = .dram then dramTouch s (paOff (m.src s)) 65536
  else if s.route (m.src s) = .host ∧ anyPoison l = true then rxFailed s else s

theorem pageRead_sansChans (s : State) (m : Migration) (l : List PWord) : (s.pageRead m l).sansChans = s.sansChans := by
  unfold State.pageRead
  split
  · exact dramTouch_sansChans ..
  · split <;> rfl

/-- The page under way, its words read, is verified and then copied (R165, R168). -/
theorem copyPage_eq (s : State) (m : Migration) (l : List PWord) :
    copyPage m l (if s.route (m.src s) == .host && anyPoison l then rxFailed s else s) =
      (let u := s.pageRead m l
       if !m.verifies u l then
         stopMigration (upIg u (fun g => { g with verifyFailed := g.verifyFailed + 1 })) m stChecksum
       else if s.route (m.src s) == .dram && m.space != 0 && anyPoison l then stopMigration u m stPoisoned
       else
         match m.space with
         | 0 => pageMoved (dramPut u (paOff (m.dst u)) l) m
         | 1 => pageMoved (dmaWords u 0 true (u.hwinAddr (paOff (m.dst u))) l) m
         | _ => upMigration u (fun m => { m with put := some l })) := by
  have hroute : (rxFailed s).route (m.src (rxFailed s)) = s.route (m.src s) := rfl
  unfold copyPage State.pageRead
  by_cases hd : s.route (m.src s) = .dram
  · simp only [hd, beq_self_eq_true, if_true, Bool.true_and, show (Route.dram == Route.host) = false from rfl, Bool.false_and,
      Bool.false_eq_true, if_false] <;> rfl
  · by_cases hh : s.route (m.src s) = .host ∧ anyPoison l = true
    · obtain ⟨hhost, hpoison⟩ := hh
      simp only [hhost, hpoison, hroute, beq_self_eq_true, Bool.and_self, if_true, and_self, reduceCtorEq, if_false] <;> rfl
    · have hkeep : (s.route (m.src s) == .host && anyPoison l) = false := by simpa using hh
      simp only [hkeep, hd, hh, Bool.false_eq_true, if_false] <;> rfl

/-- A page whose words are at hand is copied where every block verifies, and else stops its migration. -/
theorem execMigratePage_of_words {s : State} {m : Migration} {rest : List Migration} {source l : List PWord}
    (hfw : s.fwRuns = true) (hm : s.migrates = m :: rest) (hput : m.put = none) (hbusy : s.sourceBusy m = false)
    (hopen : ¬(s.route (m.src s) = .host ∧ s.blocked 0 = true)) (hl : m.words s source = some l) :
    ∃ t, execMigratePage source s = .next t ∧
      (m.verifies (s.pageRead m l) l = true → m.space = 0 →
        t = pageMoved (dramPut (s.pageRead m l) (paOff (m.dst (s.pageRead m l))) l) m) ∧
      (m.verifies (s.pageRead m l) l = false →
        t = stopMigration (upIg (s.pageRead m l) (fun g => { g with verifyFailed := g.verifyFailed + 1 })) m stChecksum) := by
  have hgo : (m.put.isSome || s.sourceBusy m || (s.route (m.src s) == .host && s.blocked 0)) = false := by
    simpa [hput, hbusy] using hopen
  refine ⟨copyPage m l (if s.route (m.src s) == .host && anyPoison l then rxFailed s else s), ?_, fun hok hspace => ?_,
    fun hbad => ?_⟩
  · rw [execMigratePage, whenFw_of_fwRuns hfw]
    simp only [hm, hgo, hl, Bool.false_eq_true, if_false]
  · rw [copyPage_eq]
    simp [hok, hspace]
  · rw [copyPage_eq]
    simp only [hbad, Bool.not_false, if_true]

/-- A page that waits, or whose words are not at hand, leaves everything as it is. -/
theorem execMigratePage_of_waits {s : State} {m : Migration} {rest : List Migration} {source : List PWord}
    (hfw : s.fwRuns = true) (hm : s.migrates = m :: rest)
    (h : m.put.isSome = true ∨ s.sourceBusy m = true ∨ (s.route (m.src s) = .host ∧ s.blocked 0 = true) ∨
      m.words s source = none) : execMigratePage source s = .next s := by
  rw [execMigratePage, whenFw_of_fwRuns hfw]
  simp only [hm]
  split
  · rfl
  · rename_i hgo
    have hnone : m.words s source = none := by
      simp only [Bool.or_eq_true, Bool.and_eq_true, beq_iff_eq] at hgo
      tauto
    rw [hnone]

section
variable {s t : State}

theorem slot_of_sansChans (h : t.sansChans = s.sansChans) (n : Nat) : t.slot n = s.slot n :=
  (congrArg (fun u => State.slot u n) h : t.sansChans.slot n = s.sansChans.slot n)

theorem ig_of_sansChans (h : t.sansChans = s.sansChans) : t.ig = s.ig :=
  (congrArg State.ig h : t.sansChans.ig = s.sansChans.ig)

theorem migrates_of_sansChans (h : t.sansChans = s.sansChans) : t.migrates = s.migrates :=
  (congrArg State.migrates h : t.sansChans.migrates = s.sansChans.migrates)

theorem dst_of_sansChans (h : t.sansChans = s.sansChans) (m : Migration) : m.dst t = m.dst s :=
  (congrArg (fun u => Migration.dst u m) h : m.dst t.sansChans = m.dst s.sansChans)

end

/-- Where a page that is copied into local DRAM lies in its version's pages. -/
theorem pageMoved_copied_pages (s : State) (m : Migration) (l : List PWord) (a : Nat) :
    ((pageMoved (dramPut (s.pageRead m l) a l) m).slot m.key).pages =
      movedPages (s.slot m.key).pages (m.firstPage + m.moved) 1 (m.dst s) := by
  have hdst : m.dst (dramPut (s.pageRead m l) a l) = m.dst (s.pageRead m l) := rfl
  rw [pageMoved_pages, hdst, dst_of_sansChans (pageRead_sansChans s m l), State.slot, dramPut_slots, ← State.slot,
    slot_of_sansChans (pageRead_sansChans s m l)]

/-- The words of local DRAM once a page has been copied into it (R374). -/
theorem pageRead_dramPut_word (s : State) (m : Migration) (l : List PWord) (a i : Nat) :
    (dramPut (s.pageRead m l) a l).dram.word i =
      if h : a / 8 ≤ i ∧ i < a / 8 + l.length then
        (if (l[i - a / 8]'(by omega)).poison then .bad else .good (l[i - a / 8]'(by omega)).data)
      else s.dram.word i := by
  rw [dramPut_word, dram_of_sansChans (pageRead_sansChans s m l)]

/-- What a page that does not verify leaves: the failure is counted, the migration ends, and no page has moved. -/
theorem stopMigration_pageRead_frame {s : State} {m : Migration} {rest : List Migration} (l : List PWord) (st : Status)
    (hm : s.migrates = m :: rest) :
    (let t := stopMigration (upIg (s.pageRead m l) (fun g => { g with verifyFailed := g.verifyFailed + 1 })) m st
     t.migrates = rest ∧ t.ig.verifyFailed = s.ig.verifyFailed + 1 ∧ (t.slot m.key).pages = (s.slot m.key).pages) := by
  have hread := pageRead_sansChans s m l
  obtain ⟨hmigrates, hig⟩ :=
    stopMigration_frame (upIg (s.pageRead m l) (fun g => { g with verifyFailed := g.verifyFailed + 1 })) m st
  refine ⟨?_, ?_, ?_⟩
  · rw [hmigrates, upIg_migrates, migrates_of_sansChans hread, hm]
    rfl
  · rw [hig, upIg_ig, ig_of_sansChans hread]
  · rw [stopMigration_slot, if_pos rfl, ← slot_of_sansChans hread]
    rfl

/-- Settles O52: the command by its checks and the page it marks; a page that waits, is copied, or fails. -/
theorem migrations : Obligations.Migrations := by
  unfold Obligations.Migrations
  refine ⟨fun s f k hs hfld htail => ⟨fun hg h2 => ?absent, fun hfit => ?fits⟩,
    fun s source m rest hfw hm => ⟨execMigratePage_of_waits hfw hm, fun l hput hbusy hopen hl => ?page⟩⟩
  case absent =>
    rw [exec_migrate, execMigrate_of_starts hs hfld htail]
    simp only [hg, h2, Bool.not_false, beq_self_eq_true, Bool.and_self, if_true]
  case fits =>
    have hpresent : (!s.fGrade && s.reqF (mailKey f k) 1 45 44 == 2) = false := by simpa using hfit
    rw [exec_migrate, execMigrate_of_starts hs hfld htail]
    simp only [hpresent, Bool.false_eq_true, if_false]
    refine ⟨fun hnone => ?missing, fun v hv => ⟨fun hno => ?refused, fun hok => ?accepted⟩⟩
    case missing => simp only [hnone]
    case refused => simp only [hv, hno, Bool.false_eq_true, if_false]
    case accepted =>
      simp only [hv, hok, if_true]
      obtain ⟨hmigrates, hjobs, hmbox⟩ := markPage_frame (s.migration f k v)
        { s.begun f k with migrates := s.migrates ++ [s.migration f k v] }
      refine ⟨_, rfl, rfl, hmigrates, ?_, fun n hn => ?_, hjobs, hmbox⟩
      · rw [markPage_begun_slot, if_pos rfl]
      · rw [markPage_begun_slot, if_neg hn]
  case page =>
    obtain ⟨t, ht, hcopied, hstopped⟩ := execMigratePage_of_words hfw hm hput hbusy hopen hl
    refine ⟨t, ht, ?_⟩
    change if m.verifies (s.pageRead m l) l = true then _ else _
    split
    · rename_i hok
      intro hspace
      rw [hcopied hok hspace]
      exact ⟨rfl, pageMoved_copied_pages .., fun i => pageRead_dramPut_word s m l _ i⟩
    · rename_i hbad
      rw [hstopped (by simpa using hbad)]
      exact ⟨rfl, stopMigration_pageRead_frame l stChecksum hm⟩

end Sys2Proof.Machine
end

section
/-!
Accesses of a job to a scratchpad (R271): what a read and a write leave, word by word, and what of the core stays.
-/
namespace Sys2Proof.Machine

/-! ### Words of a memory -/

theorem Tbl.mem_set {α : Type} [DecidableEq α] {d : α} {t : Tbl α} {k : Nat} {v : α} {e : Nat × α}
    (h : e ∈ Tbl.set d t k v) : e = (k, v) ∨ e ∈ t := by
  unfold Tbl.set at h
  split at h
  · exact .inr (Tbl.mem_erase h)
  · exact Tbl.mem_put h

/-- What a write of a word adds to the words that may read with a syndrome. -/
theorem Mem.mem_listed_putWord {m : Mem} {i a n : Nat} {p : PWord} {e : Nat × BitVec 8}
    (h : e ∈ (m.putWord i p).listed a n) : e = (i, if p.poison then 0xFE else 0) ∨ e ∈ m.listed a n := by
  unfold Mem.listed at h ⊢
  rw [Mem.putWord_lost] at h
  split at h
  next hl =>
    rw [if_pos hl]
    obtain ⟨he, hr⟩ := List.mem_filter.1 h
    refine (Tbl.mem_set he).imp id fun he => List.mem_filter.2 ⟨?_, hr⟩
    rwa [Mem.putBytes_syn] at he
  next hl =>
    rw [if_neg hl]
    split at h
    next => exact absurd h List.not_mem_nil
    next hn =>
      rw [if_neg hn]
      obtain ⟨j, hj, rfl⟩ := List.mem_map.1 h
      simp only [Mem.syndrome_putWord]
      split
      next hi => exact .inl (by rw [hi])
      next => exact .inr (List.mem_map.2 ⟨j, hj, rfl⟩)

theorem Mem.mem_listed_bounds {m : Mem} {a n : Nat} {e : Nat × BitVec 8} (h : e ∈ m.listed a n) :
    ∃ j < n, e.1 = (a + j) / 8 := by
  have hbounds : 0 < n ∧ a / 8 ≤ e.1 ∧ e.1 ≤ (a + n - 1) / 8 := by
    unfold Mem.listed at h
    split at h
    next => simpa using (List.mem_filter.1 h).2
    next =>
      split at h
      next => exact absurd h List.not_mem_nil
      next =>
        obtain ⟨j, hj, rfl⟩ := List.mem_map.1 h
        have := List.mem_range.1 hj
        exact ⟨by omega, by simp, by simp only; omega⟩
  obtain ⟨hn, hlo, hhi⟩ := hbounds
  exact ⟨8 * e.1 - a, by omega, by omega⟩

/-- Settling a word turns no range without poison into one with poison. -/
theorem Mem.poisoned_settle {m : Mem} {a n : Nat} (h : m.poisoned a n = false) (i : Nat) :
    (m.settle i).poisoned a n = false := by
  unfold Mem.settle
  split
  next => exact h
  next =>
    refine Bool.eq_false_iff.2 fun hp => ?_
    obtain ⟨e, he, hbad⟩ := List.any_eq_true.1 hp
    rcases Mem.mem_listed_putWord he with rfl | hold
    · obtain ⟨j, hj, hi⟩ := Mem.mem_listed_bounds he
      obtain rfl : i = (a + j) / 8 := hi
      rw [Mem.word_of_not_poisoned h hj] at hbad
      exact Bool.false_ne_true hbad
    · exact Bool.eq_false_iff.1 h (List.any_eq_true.2 ⟨e, hold, hbad⟩)

/-- A byte is the part of its word. -/
theorem Mem.byte_eq_word (m : Mem) (a : Nat) :
    m.byte a = BitVec.ofNat 8 (((m.word (a / 8)).data.toNat >>> (8 * (a % 8))) % 256) := by
  by_cases hc : m.clean = true
  · have hsyn := Mem.syndrome_of_clean hc (a / 8)
    have hlt : a % 8 < 8 := Nat.mod_lt _ (by decide)
    rw [Mem.byte_of_holds ⟨hsyn, rfl⟩, Mem.word_eq, hsyn]
    change _ = BitVec.ofNat 8 (((m.raw (a / 8)).toNat >>> (8 * (a % 8))) % 256)
    rw [Mem.raw, BitVec.toNat_ofNat, Nat.mod_eq_of_lt ((leNat_lt _).trans_eq (by simp))]
    refine (leNat_shiftRight _ ?_).symm
    rw [List.getElem?_map, List.getElem?_range hlt, Option.map_some, Nat.div_add_mod]
  · exact if_neg hc

/-- A range reads the same where its words do. -/
theorem Mem.read_congr {m k : Mem} {a n : Nat} (h : ∀ j < n, m.word ((a + j) / 8) = k.word ((a + j) / 8)) :
    m.read a n = k.read a n :=
  List.map_congr_left fun j hj => by rw [Mem.byte_eq_word, Mem.byte_eq_word, h j (List.mem_range.1 hj)]

theorem Mem.length_read (m : Mem) (a n : Nat) : (m.read a n).length = n := (List.length_map _).trans List.length_range

theorem Mem.getElem_read {m : Mem} {a n j : Nat} (h : j < (m.read a n).length) : (m.read a n)[j] = m.byte (a + j) :=
  (List.getElem_map _).trans (congrArg (fun i => m.byte (a + i)) (List.getElem_range _))

/-- A part of a range that is read. -/
theorem Mem.read_part (m : Mem) (a : Nat) {p k n : Nat} (h : p + k ≤ n) :
    m.read (a + p) k = ((m.read a n).drop p).take k := by
  refine List.ext_getElem ?_ fun j _ _ => ?_
  · rw [List.length_take, List.length_drop, Mem.length_read, Mem.length_read]
    omega
  · rw [List.getElem_take, List.getElem_drop, Mem.getElem_read, Mem.getElem_read, Nat.add_assoc]

theorem Mem.word_setByte_ne (m : Mem) {a i : Nat} (h : a / 8 ≠ i) (b : Byte) : (m.setByte a b).word i = m.word i := by
  unfold Mem.setByte
  split
  · exact Mem.word_opened ..
  · rw [Mem.word_putByte_ne _ h, Mem.word_opened]

theorem Mem.word_writeBytes_of_outside (l : List Byte) (m : Mem) {a i : Nat} (h : 8 * i + 8 ≤ a ∨ a + l.length ≤ 8 * i) :
    (m.writeBytes a l).word i = m.word i := by
  induction l generalizing m a with
  | nil => rfl
  | cons b l ih =>
    rw [List.length_cons] at h
    rw [Mem.writeBytes_cons, ih _ (by omega), Mem.word_setByte_ne _ (by omega)]

/-- A write leaves the words that share no byte with it. -/
theorem Mem.word_write_of_outside (m : Mem) {a i : Nat} {l : List Byte} (h : 8 * i + 8 ≤ a ∨ a + l.length ≤ 8 * i) :
    (m.write a l).word i = m.word i := by
  have hhead : headBytes a l.length ≤ l.length := Nat.min_le_left ..
  have hwhole : headBytes a l.length + 8 * wholeWords a l.length ≤ l.length := by unfold wholeWords; omega
  have halign : wholeWords a l.length = 0 ∨ (a + headBytes a l.length) % 8 = 0 := by
    unfold wholeWords headBytes; omega
  unfold Mem.write
  dsimp only
  rw [Mem.word_writeBytes_of_outside _ _ (by rw [List.length_drop]; omega), Mem.word_putWords,
    dif_neg (by rw [List.length_map, length_bytesWords]; omega),
    Mem.word_writeBytes_of_outside _ _ (by rw [List.length_take]; omega)]

/-! ### Bytes written one after another -/

/-- The memory `k` is `m` after a write of `l` at `a`: the words outside are as they were, and over words that read as good
the bytes are read back (R271). -/
def Mem.took (m k : Mem) (a : Nat) (l : List Byte) : Prop :=
  (∀ i, 8 * i + 8 ≤ a ∨ a + l.length ≤ 8 * i → k.word i = m.word i) ∧
    ((∀ j < l.length, (m.word ((a + j) / 8)).poison = false) → k.read a l.length = l)

theorem Mem.took_write (m : Mem) {a : Nat} {l : List Byte} (ha : a % 8 = 0) : m.took (m.write a l) a l :=
  ⟨fun _ h => Mem.word_write_of_outside m h, fun h => Mem.read_write ha h⟩

/-- Writes one after another into parts that share no word are all read back at the end. -/
theorem Mem.read_of_took {M : Nat → Mem} {a : Nat → Nat} {l : Nat → List Byte} {n : Nat}
    (hstep : ∀ m < n, (M m).took (M (m + 1)) (a m) (l m)) (halign : ∀ m, a m % 8 = 0)
    (hapart : ∀ i j, i < j → a i + (l i).length ≤ a j)
    (hgood : ∀ m < n, ∀ j < (l m).length, ((M 0).word ((a m + j) / 8)).poison = false) :
    ∀ m < n, (M n).read (a m) (l m).length = l m := by
  have hlater : ∀ k ≤ n, ∀ m, k ≤ m → ∀ j < (l m).length,
      (M k).word ((a m + j) / 8) = (M 0).word ((a m + j) / 8) := by
    intro k
    induction k with
    | zero => exact fun _ _ _ _ _ => rfl
    | succ k ih =>
      intro hk m hm j hj
      have hp := hapart k m (by omega)
      have ha := halign m
      rw [(hstep k (by omega)).1 _ (.inr (by omega)), ih (by omega) m (by omega) j hj]
  have hkept : ∀ k ≤ n, ∀ m < k, (M k).read (a m) (l m).length = l m := by
    intro k
    induction k with
    | zero => exact fun _ _ hm => absurd hm (Nat.not_lt_zero _)
    | succ k ih =>
      intro hk m hm
      obtain ⟨hout, hin⟩ := hstep k (by omega)
      rcases Nat.lt_succ_iff_lt_or_eq.1 hm with hlt | rfl
      · have hp := hapart m k hlt
        have ha := halign k
        refine (Mem.read_congr fun j hj => hout _ (.inl ?_)).trans (ih (by omega) m hlt)
        omega
      · exact hin fun j hj => by rw [hlater m (by omega) m le_rfl j hj]; exact hgood m (by omega) j hj
  exact hkept n le_rfl

end Sys2Proof.Machine
end

section
/-!
What the array's steps leave of the state and of their core: frames, and reads of a scratchpad without poison.
-/
namespace Sys2Proof.Machine

/-! ### Frames of one core -/

theorem core_of_cores {s t : State} (h : t.cores = s.cores) (k : Nat) : t.core k = s.core k := by
  unfold State.core
  rw [h]

/-- The state `t` differs from `s` in what `State.base` leaves out alone; of the cores only `c` has changed, and that not under
the view `v`; the same jobs live. -/
structure State.SameUnder (v : Core → Core) (c : Nat) (s t : State) : Prop where
  base : t.base = s.base
  others : ∀ k, k ≠ c → t.core k = s.core k
  core : v (t.core c) = v (s.core c)
  lives : ∀ id, t.lives id = s.lives id

/-- The core without its scratchpad, and without the record in which errors of the scratchpad count (R303). -/
def Core.sansPad (k : Core) : Core := { k with scratch := {}, sq := {} }

/-- The core without what an arrival and a scaled output change: the accumulator store and the counts of the array (R232). -/
def Core.sansAcc (k : Core) : Core :=
  { k with acc := [], accRes := [], requantSat := 0, nonfinite := 0, mx := { k.mx with fpNonfinite := 0, accSat := 0 } }

/-- The core without what a pass changes. -/
def Core.sansPass (k : Core) : Core := k.sansAcc.sansPad

namespace State.SameUnder
variable {v w : Core → Core} {c : Nat} {s t u : State}

theorem refl (v : Core → Core) (c : Nat) (s : State) : SameUnder v c s s := ⟨rfl, fun _ _ => rfl, rfl, fun _ => rfl⟩

theorem trans (h : SameUnder v c s t) (h' : SameUnder v c t u) : SameUnder v c s u :=
  ⟨h'.base.trans h.base, fun k hk => (h'.others k hk).trans (h.others k hk), h'.core.trans h.core,
    fun id => (h'.lives id).trans (h.lives id)⟩

/-- What is the same under a view is the same under one that sees less. -/
theorem mono (h : SameUnder v c s t) (hw : v (t.core c) = v (s.core c) → w (t.core c) = w (s.core c)) : SameUnder w c s t :=
  ⟨h.base, h.others, hw h.core, h.lives⟩

theorem of_still (h : t.still = s.still) : SameUnder v c s t :=
  have hcore : ∀ k, t.core k = s.core k := fun k => (congrArg (fun u => State.core u k) h : t.still.core k = s.still.core k)
  ⟨base_of_still h, fun k _ => hcore k, congrArg v (hcore c),
    lives_of_jobs (congrArg State.jobs h : t.still.jobs = s.still.jobs)⟩

theorem upCore {f : Core → Core} (h : v (f (s.core c)) = v (s.core c)) : SameUnder v c s (upCore s c f) :=
  ⟨upCore_base s c f, fun k hk => by rw [upCore_core, if_neg hk], by rw [upCore_core, if_pos rfl, h], fun _ => rfl⟩

theorem passed_of_pad (h : SameUnder Core.sansPad c s t) : SameUnder Core.sansPass c s t :=
  h.mono (congrArg Core.sansAcc : (t.core c).sansPad = (s.core c).sansPad → _)

theorem passed_of_acc (h : SameUnder Core.sansAcc c s t) : SameUnder Core.sansPass c s t :=
  h.mono (congrArg Core.sansPad)

theorem acc (h : SameUnder Core.sansPad c s t) : (t.core c).acc = (s.core c).acc :=
  (congrArg Core.acc h.core : (t.core c).sansPad.acc = (s.core c).sansPad.acc)

theorem accRes (h : SameUnder Core.sansPad c s t) : (t.core c).accRes = (s.core c).accRes :=
  (congrArg Core.accRes h.core : (t.core c).sansPad.accRes = (s.core c).sansPad.accRes)

theorem cbUnit (h : SameUnder Core.sansPad c s t) : (t.core c).cbUnit = (s.core c).cbUnit :=
  (congrArg Core.cbUnit h.core : (t.core c).sansPad.cbUnit = (s.core c).sansPad.cbUnit)

theorem mx (h : SameUnder Core.sansPad c s t) : (t.core c).mx = (s.core c).mx :=
  (congrArg Core.mx h.core : (t.core c).sansPad.mx = (s.core c).sansPad.mx)

/-- The counts that no arrival changes. -/
theorem mx_of_passed (h : SameUnder Core.sansPass c s t) : (t.core c).mx.vectors = (s.core c).mx.vectors ∧
    (t.core c).mx.loads = (s.core c).mx.loads ∧ (t.core c).mx.descriptors = (s.core c).mx.descriptors ∧
    (t.core c).mx.residue = (s.core c).mx.residue :=
  ⟨congrArg (fun k => k.mx.vectors) h.core, congrArg (fun k => k.mx.loads) h.core, congrArg (fun k => k.mx.descriptors) h.core,
    congrArg (fun k => k.mx.residue) h.core⟩

theorem scratch (h : SameUnder Core.sansAcc c s t) : (t.core c).scratch = (s.core c).scratch :=
  (congrArg Core.scratch h.core : (t.core c).sansAcc.scratch = (s.core c).sansAcc.scratch)

theorem forN {n : Nat} {f : Nat → State → State} (h : ∀ i t, SameUnder v c t (f i t)) (s : State) :
    SameUnder v c s (forN n f s) := forN_induct (refl v c s) fun i t _ ht => ht.trans (h i t)

theorem forL {α : Type} {l : List α} {f : α → State → State} (h : ∀ x t, SameUnder v c t (f x t)) (s : State) :
    SameUnder v c s (forL l f s) := forL_induct (P := SameUnder v c s) (fun x t ht => ht.trans (h x t)) (refl v c s)

end State.SameUnder

/-! ### Reads and writes of a scratchpad -/

theorem spTouch_sameUnder (s : State) (c a n : Nat) : s.SameUnder Core.sansPad c (spTouch s c a n) := by
  unfold spTouch
  refine .forL (fun e t => ?_) s
  dsimp only
  split
  · exact .upCore rfl
  · split
    · exact .trans (.upCore (f := fun k =>
        { k with scratch := k.scratch.settle e.1, sq := { k.sq with spUe := k.sq.spUe + 1 } }) rfl)
        (.of_still (uePoison_still ..))
    · exact .refl ..

theorem upJob_lives (s : State) (id : Nat) {f : Job → Job} (hid : ∀ j, (f j).id = j.id) (hst : ∀ j, (f j).status = j.status)
    (k : Nat) : (upJob s id f).lives k = s.lives k := by
  unfold State.lives
  rw [upJob_job s id k f hid]
  by_cases hk : k = id
  · subst hk
    rw [if_pos rfl]
    cases s.job k with
    | none => rfl
    | some j => exact congrArg Option.isNone (hst j)
  · rw [if_neg hk]

theorem digestAdd_lives (s : State) (o : Owner) (tag : Word) (l : List Byte) (id : Nat) :
    (digestAdd s o tag l).lives id = s.lives id := by
  unfold digestAdd
  split
  · rfl
  · split
    · refine upJob_lives s o.job (fun _ => ?_) (fun _ => ?_) id <;> rfl
    · rfl

theorem digestAdd_sameUnder (v : Core → Core) (s : State) (c : Nat) (o : Owner) (tag : Word) (l : List Byte) :
    s.SameUnder v c (digestAdd s o tag l) :=
  have hcore : ∀ k, (digestAdd s o tag l).core k = s.core k := core_of_cores (digestAdd_cores s o tag l)
  ⟨digestAdd_base .., fun k _ => hcore k, congrArg v (hcore c), digestAdd_lives s o tag l⟩

theorem spDigest_sameUnder (v : Core → Core) (s : State) (c : Nat) (o : Owner) (a n : Nat) :
    s.SameUnder v c (spDigest s c o a n) := by
  unfold spDigest
  split
  · exact .forL (fun _ _ => digestAdd_sameUnder ..) s
  · exact .refl ..

theorem spWrite_sameUnder (s : State) (c : Nat) (o : Owner) (a : Nat) (l : List Byte) :
    s.SameUnder Core.sansPad c (spWrite s c o a l) :=
  (spTouch_sameUnder ..).trans ((spTouch_sameUnder ..).trans
    ((State.SameUnder.upCore (f := fun k => { k with scratch := k.scratch.write a l }) rfl).trans (spDigest_sameUnder ..)))

/-- A job's write into a scratchpad is a write into the memory. -/
theorem spWrite_took (s : State) (c : Nat) (o : Owner) {a : Nat} (l : List Byte) (ha : a % 8 = 0) :
    (s.core c).scratch.took ((spWrite s c o a l).core c).scratch a l := by
  have hscratch : ∀ t : State, ((spDigest (upCore t c fun k => { k with scratch := k.scratch.write a l }) c o a l.length).core
      c).scratch = (t.core c).scratch.write a l := fun t => by
    rw [State.core, spDigest_cores]
    exact congrArg Core.scratch ((upCore_core t c c fun k => { k with scratch := k.scratch.write a l }).trans (if_pos rfl))
  unfold spWrite
  dsimp only
  rw [hscratch]
  obtain ⟨hout, hin⟩ := Mem.took_write (l := l) ((spTouch (spTouch s c a (headBytes a l.length)) c
    (a + (headBytes a l.length + 8 * wholeWords a l.length))
    (l.length - (headBytes a l.length + 8 * wholeWords a l.length))).core c).scratch ha
  refine ⟨fun i hi => ?_, fun hgood => hin fun j hj => ?_⟩
  · rw [hout i hi, spTouch_scratch_word, spTouch_scratch_word]
  · rw [spTouch_scratch_word, spTouch_scratch_word]
    exact hgood j hj

/-- What reads of core c's scratchpad leave: every word reads as before, and no range has come to hold poison. -/
structure State.Reads (c : Nat) (s t : State) : Prop where
  same : s.SameUnder Core.sansPad c t
  word : ∀ i, (t.core c).scratch.word i = (s.core c).scratch.word i
  good : ∀ a n, s.spPoison c a n = false → t.spPoison c a n = false

namespace State.Reads
variable {c : Nat} {s t u : State}

theorem refl (c : Nat) (s : State) : Reads c s s := ⟨.refl .., fun _ => rfl, fun _ _ h => h⟩

theorem trans (h : Reads c s t) (h' : Reads c t u) : Reads c s u :=
  ⟨h.same.trans h'.same, fun i => (h'.word i).trans (h.word i), fun a n hs => h'.good a n (h.good a n hs)⟩

theorem sp (h : Reads c s t) (a n : Nat) : t.sp c a n = s.sp c a n := Mem.read_congr fun _ _ => h.word _

end State.Reads

theorem spTouch_spPoison {s : State} {c a n : Nat} (b k : Nat) (h : s.spPoison c a n = false) :
    (spTouch s c b k).spPoison c a n = false := by
  have hsettle : ∀ (t : State) (f : SeqRec → SeqRec) (j : Nat), t.spPoison c a n = false →
      (upCore t c (fun k => { k with scratch := k.scratch.settle j, sq := f k.sq })).spPoison c a n = false := by
    intro t f j ht
    rw [State.spPoison, upCore_core, if_pos rfl]
    exact Mem.poisoned_settle ht j
  unfold spTouch
  refine forL_induct (P := fun t => t.spPoison c a n = false) (fun e t ht => ?_) h
  dsimp only
  split
  · exact hsettle t (fun q => { q with spCe := q.spCe + 1 }) e.1 ht
  · split
    · exact (congrArg (fun u => State.spPoison u c a n) (uePoison_still ..) :
        State.spPoison (State.still _) c a n = State.spPoison (State.still _) c a n).trans
          (hsettle t (fun q => { q with spUe := q.spUe + 1 }) e.1 ht)
    · exact ht

theorem spTouch_reads (s : State) (c a n : Nat) : s.Reads c (spTouch s c a n) :=
  ⟨spTouch_sameUnder .., spTouch_scratch_word s c a n, fun _ _ h => spTouch_spPoison a n h⟩

/-- A read of a range without poison returns its bytes. -/
theorem arrRead_of_good {s : State} {c a n : Nat} (h : s.spPoison c a n = false) :
    arrRead s c a n = (spTouch s c a n, some (s.sp c a n)) := by
  have hread := spTouch_reads s c a n
  unfold arrRead
  dsimp only
  rw [if_neg (by rw [hread.good a n h]; exact Bool.false_ne_true), hread.sp]

/-! ### The codebooks of a core (R173, R376) -/

/-- The core without its codebook unit. -/
def Core.sansBooks (k : Core) : Core := { k with cbUnit := [] }

/-- The states that the taking up of codebooks into core c may leave. -/
structure State.Booked (c : Nat) (s t : State) : Prop where
  jobs : t.jobs = s.jobs
  others : ∀ k, k ≠ c → t.core k = s.core k
  core : (t.core c).sansBooks = (s.core c).sansBooks

namespace State.Booked
variable {c : Nat} {s t u : State}

theorem refl (c : Nat) (s : State) : Booked c s s := ⟨rfl, fun _ _ => rfl, rfl⟩

theorem trans (h : Booked c s t) (h' : Booked c t u) : Booked c s u :=
  ⟨h'.jobs.trans h.jobs, fun k hk => (h'.others k hk).trans (h.others k hk), h'.core.trans h.core⟩

theorem scratch (h : Booked c s t) : (t.core c).scratch = (s.core c).scratch :=
  (congrArg Core.scratch h.core : (t.core c).sansBooks.scratch = (s.core c).sansBooks.scratch)

theorem acc (h : Booked c s t) : (t.core c).acc = (s.core c).acc :=
  (congrArg Core.acc h.core : (t.core c).sansBooks.acc = (s.core c).sansBooks.acc)

theorem accRes (h : Booked c s t) : (t.core c).accRes = (s.core c).accRes :=
  (congrArg Core.accRes h.core : (t.core c).sansBooks.accRes = (s.core c).sansBooks.accRes)

theorem mx (h : Booked c s t) : (t.core c).mx = (s.core c).mx :=
  (congrArg Core.mx h.core : (t.core c).sansBooks.mx = (s.core c).sansBooks.mx)

theorem dramTouch (s : State) (c a n : Nat) : Booked c s (dramTouch s a n) :=
  have hmem := sansMem_of_sansChans (dramTouch_sansChans s a n)
  have hcore : ∀ k, (Machine.dramTouch s a n).core k = s.core k := core_of_cores (cores_of_sansMem hmem)
  ⟨jobs_of_sansMem hmem, fun k _ => hcore k, congrArg Core.sansBooks (hcore c)⟩

theorem keep (s : State) (c : Nat) (f : List (Nat × Codebook) → List (Nat × Codebook)) :
    Booked c s (upCore s c fun k => { k with cbUnit := f k.cbUnit }) :=
  ⟨rfl, fun k hk => by rw [upCore_core, if_neg hk], by rw [upCore_core, if_pos rfl]; rfl⟩

end State.Booked

theorem coreCb_booked (c id : Nat) (s : State) : s.Booked c (coreCb c id s).1 := by
  unfold coreCb
  dsimp only
  split
  next b _ => exact .keep s c fun l => cacheCb 64 l (id, b)
  next =>
    split
    · split
      next b _ => exact (State.Booked.dramTouch ..).trans (.keep _ c fun l => cacheCb 64 l (id, b))
      next => exact .dramTouch ..
    · exact .refl ..

theorem coreCbs_booked (c : Nat) (l : List Nat) (s : State) : s.Booked c (coreCbs c l s).1 := by
  unfold coreCbs
  generalize true = b
  induction l generalizing s b with
  | nil => exact .refl ..
  | cons id l ih => exact (coreCb_booked c id s).trans (ih _ _)

/-! ### A mismatch (R228, R399) -/

/-- Entries that hold the default may be left out of a table where a key reads as something else. -/
theorem Tbl.get_filter_of_ne_default {α : Type} [DecidableEq α] {d : α} {t : Tbl α} {k : Nat} (h : Tbl.get d t k ≠ d) :
    Tbl.get d (t.filter fun e => e.2 != d) k = Tbl.get d t k := by
  induction t with
  | nil => rfl
  | cons x t ih =>
    obtain ⟨j, v⟩ := x
    rw [Tbl.get_cons] at h ⊢
    split at h
    next hk =>
      rw [List.filter_cons_of_pos (by simpa using h), Tbl.get_cons, if_pos hk, if_pos hk]
    next hk =>
      rw [if_neg hk]
      by_cases hv : v = d
      · rw [List.filter_cons_of_neg (by simp [hv]), ih h]
      · rw [List.filter_cons_of_pos (by simpa using hv), Tbl.get_cons, if_neg hk, ih h]

/-- The end of a job leaves the array record of a core that has counted something. -/
theorem endJob_mx {s : State} {c : Nat} (h : (s.core c).mx ≠ {}) (id : Nat) (st : Status) (idx : BitVec 16) :
    ((endJob s id st idx).core c).mx = (s.core c).mx := by
  have hstop : ∀ t : State, t.cores = s.cores → ((tidyCores (stopUnits t id)).core c).mx = (s.core c).mx := by
    intro t ht
    have hmap : Tbl.get {} (t.cores.map fun e => (e.1, stopCore id e.2)) c = stopCore id (s.core c) := by
      rw [ht]
      exact Tbl.get_map_of_default (d := ({} : Core)) (f := stopCore id) rfl s.cores c
    have hne : Tbl.get {} (t.cores.map fun e => (e.1, stopCore id e.2)) c ≠ {} := by
      rw [hmap]
      exact fun e => h (congrArg Core.mx e)
    exact (congrArg Core.mx ((Tbl.get_filter_of_ne_default hne).trans hmap) : _ = (stopCore id (s.core c)).mx)
  unfold endJob
  split
  · exact hstop _ rfl
  · rfl

theorem endAll_mx {s : State} {c : Nat} (h : (s.core c).mx ≠ {}) (st : Status) :
    ((endAll s st).core c).mx = (s.core c).mx :=
  forL_induct (P := fun t => (t.core c).mx = (s.core c).mx)
    (fun id _ ht => (endJob_mx (ht.trans_ne h) id st 0xFFFF).trans ht) rfl

theorem raiseEvent_core (s : State) (code : BitVec 16) (cid : BitVec 12) (w3 w4 w5 : Word) (k : Nat) :
    (raiseEvent s code cid w3 w4 w5).core k = s.core k :=
  (congrArg (fun u => State.core u k) (raiseEvent_still s code cid w3 w4 w5) :
    (raiseEvent s code cid w3 w4 w5).still.core k = s.still.core k)

theorem arithFault_mx {s : State} {c : Nat} (h : (s.core c).mx ≠ {}) (o : Owner) (u ch lane : Nat) (a : Word) :
    ((arithFault s o u ch lane a).core c).mx = (s.core c).mx := by
  have hsuspect : ∀ t : State, (nameSuspect t o.cid u ch 0).core c = t.core c := by
    intro t
    refine (raiseEvent_core ..).trans ?_
    split <;> rfl
  have hend := endJob_mx h o.job stArith (BitVec.ofNat 16 o.idx)
  unfold arithFault
  dsimp only
  rw [hsuspect, raiseEvent_core]
  unfold jobFault jobFaultWith
  dsimp only
  rw [raiseEvent_core]
  exact (endAll_mx (hend.trans_ne h) stLost).trans hend

/-- A mismatch ends the job that it strikes with ST_ARITH. -/
theorem arithFault_job {s : State} {o : Owner} (h : s.lives o.job = true) (u ch lane : Nat) (a : Word) :
    ∃ j, (arithFault s o u ch lane a).job o.job = some j ∧ j.status = some stArith := by
  have hjobs : (arithFault s o u ch lane a).jobs = (jobFault s o stArith 0 0xFFFF).jobs :=
    (nameSuspect_jobs ..).trans (raiseEvent_jobs ..)
  rw [job_of_jobs hjobs]
  unfold State.lives at h
  split at h
  next => exact absurd h Bool.false_ne_true
  next j hj => exact jobFault_job_of_live _ _ _ hj (Option.isNone_iff_eq_none.1 h)

end Sys2Proof.Machine
end

section
/-!
A pass of the array (R199 to R212): the checks, the tile and the vectors that enter, the arrivals at the accumulator
store, and the outputs.
-/
namespace Sys2Proof.Machine

theorem exec_arrayDescriptor (c : CoreId) (bad : Option ArrFault) (s : State) :
    exec (.arrayDescriptor c bad) s = .next (arrRun c false bad s) := rfl

theorem exec_arrayOtherAxisRead (c : CoreId) (bad : Option ArrFault) (s : State) :
    exec (.arrayOtherAxisRead c bad) s = .next (arrRun c true bad s) := rfl

/-! ### What an accepted descriptor says (R214, R231) -/

section
variable {s : State} {c : Nat} {o : Owner} {w : List Word} (h : arrRefusal s c o w = none)
include h

/-- The geometry of an accepted descriptor, and what its output format and its axis exclude. -/
theorem parseArr_of_accepted : (parseArr w).oAddr % 64 = 0 ∧ (parseArr w).oSize ≤ (parseArr w).oStride ∧
    (parseArr w).base + (parseArr w).m ≤ 512 ∧ ((parseArr w).ofmt = 5 → (parseArr w).oScales = false) ∧
    ((parseArr w).axis = true → (parseArr w).last = true) := by
  have hpassed : ∀ {p : Prop} [Decidable p] {a : Status} {x : Option Status},
      (if p then some a else x) = none → ¬p ∧ x = none := by
    intro p _ a x hx
    split at hx
    next => cases hx
    next hp => exact ⟨hp, hx⟩
  have hok := (hpassed (hpassed h).2).1
  simp only [Bool.or_eq_true, not_or, Bool.and_eq_true, not_and, decide_eq_true_eq, bne_iff_ne, ne_eq, not_lt,
    Decidable.not_not, Bool.not_eq_true, and_assoc] at hok
  obtain ⟨-, -, hscales, -, -, haddr, -, -, -, -, -, hstride, -, -, hentries, -, -, -, -, -, haxis⟩ := hok
  refine ⟨haddr, hstride, hentries, fun h5 => Bool.eq_false_iff.2 fun ho => ?_, fun ha => ?_⟩
  · exact absurd (h5.symm.trans (hscales ho)) (by decide)
  · obtain ⟨-, -, -, -, -, hlast, -⟩ := haxis ha
    simpa using hlast

end

/-- Activation and output vectors lie a multiple of 64 bytes apart. -/
theorem oVec_aligned {w : List Word} (h : (parseArr w).oAddr % 64 = 0) (m : Nat) : (parseArr w).oVec m % 8 = 0 := by
  have hstride : (parseArr w).oStride = 64 * fld (wd w 5) 63 48 := rfl
  unfold ArrD.oVec
  rw [hstride, Nat.mul_left_comm]
  omega

/-! ### What enters -/

/-- The rows of a tile without poison. -/
theorem tileRows_of_good {c : Nat} {d : ArrD} {l : List Nat} {s : State}
    (h : ∀ r ∈ l, s.spPoison c (d.tileRow r).1 (d.tileRow r).2 = false) :
    ∃ t, tileRows c d l s = (t, some (l.map fun r => s.sp c (d.tileRow r).1 (d.tileRow r).2)) ∧ s.Reads c t := by
  induction l generalizing s with
  | nil => exact ⟨s, rfl, .refl ..⟩
  | cons r l ih =>
    have hfirst := spTouch_reads s c (d.tileRow r).1 (d.tileRow r).2
    obtain ⟨t, ht, hread⟩ := ih fun r' hr' => hfirst.good _ _ (h r' (List.mem_cons_of_mem _ hr'))
    refine ⟨t, ?_, hfirst.trans hread⟩
    unfold tileRows
    simp only [arrRead_of_good (h r List.mem_cons_self), ht, hfirst.sp, List.map_cons]

/-- Activation vector m as it enters without a scale stream. -/
def ArrD.entered (d : ArrD) (s : State) (c m : Nat) : ArrVec := (s.sp c (d.aVec m) d.aSize, f32one)

/-- Vectors without poison and without a scale stream all enter. -/
theorem enterVectors_of_good {c : Nat} {d : ArrD} (hs : d.aScaled = false) (w : ScaleWalk) {n m : Nat} {s : State}
    (h : ∀ i < n, s.spPoison c (d.aVec (m + i)) d.aSize = false) :
    ∃ t, enterVectors c d n m w s = (t, (List.range' m n).map (d.entered s c), none) ∧ s.Reads c t := by
  induction n generalizing m s with
  | zero => exact ⟨s, rfl, .refl ..⟩
  | succ n ih =>
    have hfirst := spTouch_reads s c (d.aVec m) d.aSize
    have hone : enterVector s c d m w = (spTouch s c (d.aVec m) d.aSize, .ok (w, d.entered s c m)) := by
      unfold enterVector
      have hm : s.spPoison c (d.aVec m) d.aSize = false := h 0 n.succ_pos
      simp only [hs, Bool.false_eq_true, if_false, arrRead_of_good hm]
      rfl
    obtain ⟨t, ht, hread⟩ := ih (m := m + 1) fun i hi => hfirst.good _ _ (by
      rw [Nat.add_assoc, Nat.add_comm 1]
      exact h (i + 1) (Nat.succ_lt_succ hi))
    have hentered : d.entered (spTouch s c (d.aVec m) d.aSize) c = d.entered s c :=
      funext fun k => congrArg (·, f32one) (hfirst.sp ..)
    refine ⟨t, ?_, hfirst.trans hread⟩
    unfold enterVectors
    simp only [hone, ht, hentered, List.range'_succ, List.map_cons]

/-- Units that hold the same codebooks decode alike. -/
theorem unitVals_congr {s t : State} {c : Nat} (h : (t.core c).cbUnit = (s.core c).cbUnit) : unitVals t c = unitVals s c := by
  unfold unitVals State.cbOn
  rw [h]

/-! ### Arrivals (R208, R209) -/

/-- What an arriving sum makes of an accumulator entry. -/
def ArrD.merged (d : ArrD) (old sum : BitVec 32) : BitVec 32 := if d.first then sum else (accAdd d.isInt old sum).1

theorem putAcc_sameUnder (c k : Nat) (isInt : Bool) (v : BitVec 32) (s : State) :
    s.SameUnder Core.sansAcc c (putAcc c k isInt v s) := .upCore rfl

theorem arrive_sameUnder (c : Nat) (d : ArrD) (m j : Nat) (sum : BitVec 32) (f : Option ArrFault) (s : State) :
    s.SameUnder Core.sansAcc c (arrive c d m j sum f s) := by
  have hcount : ∀ t : State, t.SameUnder Core.sansAcc c (if !d.isInt && !(d32 sum).isFinite then
      upMx t c (fun x => { x with fpNonfinite := x.fpNonfinite + 1 }) else t) := by
    intro t
    split
    · exact .upCore rfl
    · exact .refl ..
  unfold arrive
  dsimp only
  split
  · exact (hcount s).trans (putAcc_sameUnder ..)
  · exact (hcount s).trans ((putAcc_sameUnder ..).trans (.upCore rfl))

theorem putAcc_acc (c k : Nat) (isInt : Bool) (v : BitVec 32) (s : State) (i : Nat) :
    Tbl.get 0 ((putAcc c k isInt v s).core c).acc i = if i = k then v else Tbl.get 0 (s.core c).acc i := by
  rw [putAcc, upCore_core, if_pos rfl]
  exact Tbl.get_set ..

theorem upMx_acc (s : State) (c : Nat) (f : ArrayRec → ArrayRec) : ((upMx s c f).core c).acc = (s.core c).acc := by
  rw [upMx, upCore_core, if_pos rfl]

/-- An arrival changes its own entry. -/
theorem arrive_acc (c : Nat) (d : ArrD) (m j : Nat) (sum : BitVec 32) (s : State) (i : Nat) :
    Tbl.get 0 ((arrive c d m j sum none s).core c).acc i =
      if i = accKey j (d.base + m) then d.merged (Tbl.get 0 (s.core c).acc i) sum else Tbl.get 0 (s.core c).acc i := by
  have hcount : ((if !d.isInt && !(d32 sum).isFinite then
      upMx s c (fun x => { x with fpNonfinite := x.fpNonfinite + 1 }) else s).core c).acc = (s.core c).acc := by
    split
    · exact upMx_acc ..
    · rfl
  unfold arrive ArrD.merged
  dsimp only
  split
  · rw [putAcc_acc, hcount]
  · rw [upMx_acc, putAcc_acc, hcount]
    split
    next h => rw [h]
    next => rfl

theorem accKey_inj {j j' e e' : Nat} (h : e < 512) (h' : e' < 512) : accKey j e = accKey j' e' ↔ j = j' ∧ e = e' := by
  unfold accKey
  omega

/-- The arrivals of one vector, a column each. -/
theorem arrivals_acc (c : Nat) (d : ArrD) {m m' : Nat} (hm : d.base + m < 512) (hm' : d.base + m' < 512)
    (sum : Nat → BitVec 32) (s : State) (n j : Nat) :
    Tbl.get 0 ((forN n (fun j s => arrive c d m j (sum j) none s) s).core c).acc (accKey j (d.base + m')) =
      if m' = m ∧ j < n then d.merged (Tbl.get 0 (s.core c).acc (accKey j (d.base + m'))) (sum j)
      else Tbl.get 0 (s.core c).acc (accKey j (d.base + m')) := by
  induction n with
  | zero => simp [forN_zero]
  | succ n ih =>
    rw [forN_succ, arrive_acc, ih]
    simp only [accKey_inj hm' hm, Nat.add_left_cancel_iff]
    by_cases hj : j = n
    · subst hj
      simp [and_comm]
    · have hlt : j < n + 1 ↔ j < n := by omega
      simp [hj, hlt]

/-! ### Vectors through the tile -/

/-- A vector of a descriptor streams through the tile. -/
def streamVec (c : Nat) (o : Owner) (d : ArrD) (tile : TileVals) (scol : List (BitVec 32)) (stop : Option Nat)
    (v : ArrVec × Nat) (s : State) : State :=
  if d.axis then axisVector c o d tile stop none v s else passVector c o d tile scol stop none v s

theorem writeOutput_sameUnder (s : State) (c : Nat) (o : Owner) (d : ArrD) (m : Nat) (l : List Byte) :
    s.SameUnder Core.sansPad c (writeOutput s c o d m l) := by
  unfold writeOutput
  dsimp only
  split
  · exact (spWrite_sameUnder ..).trans (.forL (fun _ _ => spWrite_sameUnder ..) _)
  · exact spWrite_sameUnder ..

theorem axisVector_sameUnder (c : Nat) (o : Owner) (d : ArrD) (tile : TileVals) (stop : Option Nat) (f : Option ArrFault)
    (v : ArrVec × Nat) (s : State) : s.SameUnder Core.sansPad c (axisVector c o d tile stop f v s) := by
  unfold axisVector
  dsimp only
  split
  · exact spWrite_sameUnder ..
  · exact .refl ..

/-- The sums of a vector that reach the bottom stage. -/
def arrivals (c : Nat) (d : ArrD) (tile : TileVals) (stop : Option Nat) (v : ArrVec × Nat) (s : State) : State :=
  forN d.cols (fun j s => if d.reaches stop v.2 j then
    arrive c d v.2 j (columnSum d tile j (vectorVals d (32 * d.rows) v.1.1) none) none s else s) s

theorem arrivals_sameUnder (c : Nat) (d : ArrD) (tile : TileVals) (stop : Option Nat) (v : ArrVec × Nat) (s : State) :
    s.SameUnder Core.sansAcc c (arrivals c d tile stop v s) := by
  refine .forN (fun j t => ?_) s
  split
  · exact arrive_sameUnder ..
  · exact .refl ..

theorem passVector_sameUnder (c : Nat) (o : Owner) (d : ArrD) (tile : TileVals) (scol : List (BitVec 32))
    (stop : Option Nat) (v : ArrVec × Nat) (s : State) :
    s.SameUnder Core.sansPass c (passVector c o d tile scol stop none v s) := by
  have harrive := (arrivals_sameUnder c d tile stop v s).passed_of_acc
  unfold passVector
  dsimp only
  split
  · exact harrive.trans (.trans (State.SameUnder.upCore rfl).passed_of_acc (writeOutput_sameUnder ..).passed_of_pad)
  · exact harrive

theorem streamVec_sameUnder (c : Nat) (o : Owner) (d : ArrD) (tile : TileVals) (scol : List (BitVec 32))
    (stop : Option Nat) (v : ArrVec × Nat) (s : State) :
    s.SameUnder Core.sansPass c (streamVec c o d tile scol stop v s) := by
  unfold streamVec
  split
  · exact (axisVector_sameUnder ..).passed_of_pad
  · exact passVector_sameUnder ..

end Sys2Proof.Machine
end

section
/-!
The array descriptor from its checks to its end: what a loaded tile and its vectors leave (R199 to R217), the other axis
(R230), and a mismatch (R226 to R228).
-/
namespace Sys2Proof.Machine

/-! ### Accumulators and outputs of a pass -/

section
variable (c : Nat) (o : Owner) (d : ArrD) (tile : TileVals) (scol : List (BitVec 32))

/-- The arrivals make the accumulator store of a vector; its output reads them. -/
theorem passVector_acc_eq (v : ArrVec × Nat) (s : State) :
    ((passVector c o d tile scol none none v s).core c).acc = ((arrivals c d tile none v s).core c).acc := by
  unfold passVector
  dsimp only
  split
  · refine (writeOutput_sameUnder ..).acc.trans ?_
    rw [upCore_core, if_pos rfl]
    rfl
  · rfl

theorem passVector_acc {m m' : Nat} (hm : d.base + m < 512) (hm' : d.base + m' < 512) (v : ArrVec) (s : State) {j : Nat}
    (hj : j < d.cols) :
    Tbl.get 0 ((passVector c o d tile scol none none (v, m) s).core c).acc (accKey j (d.base + m')) =
      if m' = m then d.merged (Tbl.get 0 (s.core c).acc (accKey j (d.base + m')))
        (columnSum d tile j (vectorVals d (32 * d.rows) v.1) none)
      else Tbl.get 0 (s.core c).acc (accKey j (d.base + m')) := by
  rw [passVector_acc_eq]
  have h := arrivals_acc c d hm hm' (fun j => columnSum d tile j (vectorVals d (32 * d.rows) v.1) none) s d.cols j
  simp only [hj, and_true] at h
  exact h

/-- After the first n vectors their entries hold their results; the others are as they were. -/
theorem passVectors_acc (g : Nat → ArrVec) (s : State) {n m : Nat} (hn : d.base + n ≤ 512) (hm : d.base + m < 512) {j : Nat}
    (hj : j < d.cols) :
    Tbl.get 0 ((forN n (fun m => passVector c o d tile scol none none (g m, m)) s).core c).acc (accKey j (d.base + m)) =
      if m < n then d.merged (Tbl.get 0 (s.core c).acc (accKey j (d.base + m)))
        (columnSum d tile j (vectorVals d (32 * d.rows) (g m).1) none)
      else Tbl.get 0 (s.core c).acc (accKey j (d.base + m)) := by
  induction n with
  | zero => simp [forN_zero]
  | succ n ih =>
    rw [forN_succ, passVector_acc c o d tile scol (by omega) hm _ _ hj, ih (by omega)]
    by_cases h : m = n
    · subst h
      simp
    · have hlt : m < n + 1 ↔ m < n := by omega
      simp [h, hlt]

/-- Without LAST a vector leaves the scratchpad. -/
theorem passVector_scratch (hlast : d.last = false) (v : ArrVec × Nat) (s : State) :
    ((passVector c o d tile scol none none v s).core c).scratch = (s.core c).scratch := by
  unfold passVector
  dsimp only
  rw [if_neg (by rw [hlast]; exact Bool.false_ne_true)]
  exact (arrivals_sameUnder c d tile none v s).scratch

/-- An INT32 output is the final sum. -/
theorem outBytes_of_int32 {d : ArrD} (h : d.ofmt = 5) (s : State) (c j : Nat) (sact scol sum : BitVec 32) :
    outBytes s c d j sact scol sum = (leBytes 4 sum.toNat, 0, 0) := by
  simp only [outBytes, h]

theorem writeOutput_took (hscales : d.oScales = false) {m : Nat} (ha : d.oVec m % 8 = 0) (s : State)
    (l : List Byte) : (s.core c).scratch.took ((writeOutput s c o d m l).core c).scratch (d.oVec m) l := by
  unfold writeOutput
  dsimp only
  rw [if_neg (by rw [hscales]; exact Bool.false_ne_true)]
  exact spWrite_took s c o l ha

/-- The INT32 output of a vector: its entries, column by column. -/
def ArrD.entryBytes (d : ArrD) (c m : Nat) (s : State) : List Byte :=
  (List.range d.cols).flatMap fun j => leBytes 4 (Tbl.get 0 (s.core c).acc (accKey j (d.base + m))).toNat

/-- The outputs of a vector, with their counts. -/
def ArrD.outs (d : ArrD) (c : Nat) (scol : List (BitVec 32)) (v : ArrVec × Nat) (s : State) : List (List Byte × Nat × Nat) :=
  (List.range d.cols).map fun j =>
    outBytes s c d j v.1.2 (scol.getD j f32one) (Tbl.get 0 (s.core c).acc (accKey j (d.base + v.2)))

theorem outs_bytes_of_int32 {d : ArrD} (h : d.ofmt = 5) (c : Nat) (scol : List (BitVec 32)) (v : ArrVec × Nat) (s : State) :
    (d.outs c scol v s).flatMap (·.1) = d.entryBytes c v.2 s := by
  simp only [ArrD.outs, outBytes_of_int32 h, List.flatMap_map, ArrD.entryBytes]

/-- The state in which a vector's sums have arrived and what its outputs saturate has been counted. -/
def countedOuts (c : Nat) (d : ArrD) (tile : TileVals) (scol : List (BitVec 32)) (v : ArrVec × Nat) (s : State) : State :=
  let t := arrivals c d tile none v s
  upCore t c fun k => { k with
    requantSat := k.requantSat + ((d.outs c scol v t).map (fun r => r.2.1)).sum
    nonfinite := k.nonfinite + ((d.outs c scol v t).map (fun r => r.2.2)).sum }

theorem countedOuts_sameUnder (v : ArrVec × Nat) (s : State) :
    s.SameUnder Core.sansAcc c (countedOuts c d tile scol v s) := (arrivals_sameUnder ..).trans (.upCore rfl)

/-- On LAST a vector's output is written once its sums have arrived. -/
theorem passVector_of_last {d : ArrD} (hlast : d.last = true) (v : ArrVec × Nat) (s : State) :
    passVector c o d tile scol none none v s = writeOutput (countedOuts c d tile scol v s) c o d v.2
      ((d.outs c scol v (arrivals c d tile none v s)).flatMap (·.1)) := by
  unfold passVector
  dsimp only
  rw [if_pos (by rw [hlast]; rfl)]
  rfl

/-- On LAST the INT32 output of vector m is in its place. -/
theorem passVector_took (hlast : d.last = true) (hfmt : d.ofmt = 5) (hscales : d.oScales = false) {m : Nat}
    (ha : d.oVec m % 8 = 0) (v : ArrVec) (s : State) :
    (s.core c).scratch.took ((passVector c o d tile scol none none (v, m) s).core c).scratch (d.oVec m)
      (d.entryBytes c m (passVector c o d tile scol none none (v, m) s)) := by
  have hbytes : d.entryBytes c m (passVector c o d tile scol none none (v, m) s) =
      d.entryBytes c m (arrivals c d tile none (v, m) s) := by
    unfold ArrD.entryBytes
    rw [passVector_acc_eq]
  rw [hbytes]
  rw [passVector_of_last c o tile scol hlast, outs_bytes_of_int32 hfmt,
    ← (countedOuts_sameUnder c d tile scol (v, m) s).scratch]
  exact writeOutput_took c o d hscales ha ..

end

/-! ### The other axis (R230) -/

/-- The INT32 results of an other-axis vector: 32 of each row of the tile. -/
def axisSums (tile : TileVals) (x : List Ev) : List (BitVec 32) :=
  tile.flatMap fun row => (List.range 32).map fun i =>
    BitVec.ofInt 32 ((row.zip x).map fun p => (p.1.getD i .nan).rne * p.2.rne).sum

theorem axisVector_eq (c : Nat) (o : Owner) (d : ArrD) (tile : TileVals) (v : ArrVec × Nat) (s : State) :
    axisVector c o d tile none none v s =
      spWrite s c o (d.oVec v.2) ((axisSums tile (vectorVals d d.cols v.1.1)).flatMap fun y => leBytes 4 y.toNat) := rfl

/-- A product of two lists, by their places. -/
theorem zip_eq_map_range {α β : Type} (a : α) (b : β) {l : List α} {k : List β} {n : Nat} (hl : l.length = n)
    (hk : k.length = n) : l.zip k = (List.range n).map fun j => (l.getD j a, k.getD j b) := by
  refine List.ext_getElem (by simp [hl, hk]) fun j hj _ => ?_
  have hjn : j < n := by simpa [hl, hk] using hj
  simp [hl, hk, hjn]

/-! ### Pieces of equal length -/

/-- A piece of a list put together from pieces of one length. -/
theorem take_drop_flatMap {α β : Type} {f : α → List β} {w : Nat} {l : List α} (hw : ∀ x ∈ l, (f x).length = w)
    {j : Nat} {x : α} (hx : l[j]? = some x) : ((l.flatMap f).drop (w * j)).take w = f x := by
  induction l generalizing j with
  | nil => cases hx
  | cons y l ih =>
    have hy := hw y List.mem_cons_self
    rw [List.flatMap_cons]
    cases j with
    | zero =>
      obtain rfl : y = x := by simpa using hx
      simp [hy]
    | succ j =>
      have hrest := ih (fun z hz => hw z (List.mem_cons_of_mem _ hz)) (j := j) (by simpa using hx)
      rw [← hrest, Nat.mul_succ, Nat.add_comm, ← List.drop_drop, List.drop_left' hy]

theorem length_flatMap_of_length {α β : Type} {f : α → List β} {w : Nat} {l : List α}
    (hw : ∀ x ∈ l, (f x).length = w) : (l.flatMap f).length = w * l.length := by
  induction l with
  | nil => rfl
  | cons y l ih =>
    rw [List.flatMap_cons, List.length_append, hw y List.mem_cons_self, ih fun z hz => hw z (List.mem_cons_of_mem _ hz),
      List.length_cons, Nat.mul_succ, Nat.add_comm]

/-! ### The tile streams -/

theorem forL_zipIdx_map_range' {α : Type} (g : Nat → α) (f : α × Nat → State → State) (n : Nat) (s : State) :
    forL ((List.range' 0 n).map g).zipIdx f s = forN n (fun m => f (g m, m)) s := by
  have hlist : ((List.range' 0 n).map g).zipIdx = (List.range n).map fun m => (g m, m) := by
    refine List.ext_getElem (by simp) fun m _ _ => ?_
    simp
  rw [hlist]
  exact List.foldl_map

/-- The vectors that a pass has taken are counted, and nothing else (R232). -/
def countVectors (c n : Nat) (s : State) : State := upMx s c fun x => { x with vectors := x.vectors + n }

theorem countVectors_core (c n : Nat) (s : State) : (countVectors c n s).core c =
    { s.core c with mx := { (s.core c).mx with vectors := (s.core c).mx.vectors + n } } := by
  rw [countVectors, upMx, upCore_core, if_pos rfl]

/-- The descriptor counts and leaves its queue; its chain goes on, or ends with LAST (R210). -/
def endPass (c : Nat) (e : QEntry) (l : List QEntry) (d : ArrD) (s : State) : State :=
  upCore s c fun k => { k with
    qArray := l
    mx := { k.mx with descriptors := k.mx.descriptors + 1 }
    chain := if d.last then none else some (d.chain e.owner.job) }

section
variable {s t : State} {c : Nat} {e : QEntry} {l : List QEntry} {d : ArrD} {tile : TileVals} {scol : List (BitVec 32)}
  {g : Nat → ArrVec}
  (he : enterVectors c d d.m 0 { next := d.aBlk, addr := d.aScale } s = (t, (List.range' 0 d.m).map g, none))
include he

/-- The vectors of a pass that all enter stream through the tile, and the descriptor leaves its queue (R264). -/
theorem streamTile_of_entered : streamTile s c e l d tile scol none =
    endPass c e l d (forN d.m (fun m => streamVec c e.owner d tile scol none (g m, m))
      (countVectors c d.m t)) := by
  rw [← forL_zipIdx_map_range']
  unfold streamTile
  simp only [he]
  rfl

/-- R226 to R228: a wrong value that a check shows ends the job, whatever the pass has done before. -/
theorem streamTile_of_caught {f : ArrFault} (hstrikes : ArrFault.strikes f d d.m = true)
    (hcaught : ArrFault.caught f d tile (vectorVals d (if d.axis then d.cols else 32 * d.rows) (g f.vec).1)
      (Tbl.get 0 (t.core c).accRes (accKey f.lane (d.base + f.vec))) = true) :
    ∃ n u, (countVectors c n t).SameUnder Core.sansPass c u ∧
      streamTile s c e l d tile scol (some f) = arrMismatch u c e f := by
  have hvec : f.vec < d.m := by
    unfold ArrFault.strikes at hstrikes
    exact (of_decide_eq_true (Bool.and_eq_true_iff.1 hstrikes).1).1
  have hget : ((List.range' 0 d.m).map g).getD f.vec ([], f32one) = g f.vec := by
    simp [List.getD_eq_getElem?_getD, hvec]
  unfold streamTile
  simp only [he, List.length_map, List.length_range', Option.filter_some, hstrikes, if_true, hget, hcaught, Bool.not_true,
    Bool.false_eq_true, if_false]
  exact ⟨_, _, .forL (fun v u => streamVec_sameUnder c e.owner d tile scol (some (ArrFault.step f d)) v u) _, rfl⟩

end

end Sys2Proof.Machine
end

section
/-!
The head of the ARRAY queue (R199 to R231): its refusals, its run, and its end.
-/
namespace Sys2Proof.Machine

/-! ### The head of the queue -/

/-- The state in which the codebooks of a descriptor are taken up. -/
def State.withCodebooks (s : State) (c : Nat) (d : ArrD) : State :=
  if isCb d.wf then (coreCbs c ((List.range d.cols).map d.cbAt).dedup s).1 else s

theorem withCodebooks_booked (s : State) (c : Nat) (d : ArrD) : s.Booked c (s.withCodebooks c d) := by
  unfold State.withCodebooks
  split
  · exact coreCbs_booked ..
  · exact .refl ..

/-- The tile of a descriptor, from its records in the scratchpad of `s` and the codebooks of `u`. -/
def ArrD.tileOf (d : ArrD) (u s : State) (c : Nat) : TileVals :=
  (List.range d.rows).map fun r => (List.range d.cols).map fun j =>
    unitVals u c d j (slice (s.sp c (d.tileRow r).1 (d.tileRow r).2) (j * d.recBytes) d.recBytes)

/-- The elements of activation vector m, as the descriptor uses them. -/
def ArrD.vector (d : ArrD) (s : State) (c m : Nat) : List Ev :=
  vectorVals d (if d.axis then d.cols else 32 * d.rows) (s.sp c (d.aVec m) d.aSize)

/-- The state `v` in which the vectors stream, from the state `u` in which the codebooks have been taken up: of `s`, the words
of the scratchpad, the accumulator store and the live jobs are as they were, and the load has been counted. -/
structure State.Loaded (c : Nat) (s u v : State) : Prop where
  base : v.base = u.base
  others : ∀ k, k ≠ c → v.core k = s.core k
  word : ∀ i, (v.core c).scratch.word i = (s.core c).scratch.word i
  acc : (v.core c).acc = (s.core c).acc
  accRes : (v.core c).accRes = (s.core c).accRes
  mx : (v.core c).mx = { (s.core c).mx with loads := (s.core c).mx.loads + 1 }
  lives : ∀ id, v.lives id = s.lives id

/-- The tile is held by the units. -/
def loadTile (c : Nat) (d : ArrD) (rows : List (List Byte)) (tile : TileVals) (s : State) : State :=
  upCore s c fun k => { k with tile := some (loadedTile d rows tile), mx := { k.mx with loads := k.mx.loads + 1 } }

theorem loadTile_core (c : Nat) (d : ArrD) (rows : List (List Byte)) (tile : TileVals) (s : State) :
    (loadTile c d rows tile s).core c = { s.core c with
      tile := some (loadedTile d rows tile), mx := { (s.core c).mx with loads := (s.core c).mx.loads + 1 } } := by
  rw [loadTile, upCore_core, if_pos rfl]

/-- Books, reads and the load leave a loaded state. -/
theorem loadTile_loaded {c : Nat} {s u t : State} (d : ArrD) (rows : List (List Byte)) (tile : TileVals)
    (hbook : s.Booked c u) (hrows : u.Reads c t) : s.Loaded c u (loadTile c d rows tile t) := by
  refine ⟨hrows.same.base, fun k hk => ?_, fun i => ?_, ?_, ?_, ?_, fun id => ?_⟩
  · rw [loadTile, upCore_core, if_neg hk, hrows.same.others k hk, hbook.others k hk]
  · rw [loadTile_core, hrows.word, hbook.scratch]
  · rw [loadTile_core, hrows.same.acc, hbook.acc]
  · rw [loadTile_core, hrows.same.accRes, hbook.accRes]
  · rw [loadTile_core, hrows.same.mx, hbook.mx]
  · exact (hrows.same.lives id).trans (lives_of_jobs hbook.jobs id)

/-- Further reads keep a state loaded. -/
theorem State.Loaded.reads {c : Nat} {s u v w : State} (h : s.Loaded c u v) (hr : v.Reads c w) : s.Loaded c u w :=
  ⟨hr.same.base.trans h.base, fun k hk => (hr.same.others k hk).trans (h.others k hk), fun i => (hr.word i).trans (h.word i),
    hr.same.acc.trans h.acc, hr.same.accRes.trans h.accRes, hr.same.mx.trans h.mx,
    fun id => (hr.same.lives id).trans (h.lives id)⟩

/-- Every vector of a descriptor streams through the tile. -/
def streamAll (c : Nat) (o : Owner) (d : ArrD) (tile : TileVals) (s u : State) : State :=
  forN d.m (fun m => streamVec c o d tile (List.replicate d.cols f32one) none (d.entered s c m, m)) (countVectors c d.m u)

theorem streamAll_sameUnder (c : Nat) (o : Owner) (d : ArrD) (tile : TileVals) (s u : State) :
    (countVectors c d.m u).SameUnder Core.sansPass c (streamAll c o d tile s u) :=
  .forN (fun _ _ => streamVec_sameUnder ..) _

section
variable {s : State} {c : Nat} {e : QEntry} {l : List QEntry} (hp : s.powered = true) (hq : (s.core c).qArray = e :: l)
include hp hq

theorem arrRun_of_poison (h : anyPoison e.desc = true) (axis : Bool) (bad : Option ArrFault) :
    arrRun c axis bad s = failJob s e.owner stPoisoned := by
  rw [arrRun, whenPowered_of_powered hp]
  simp only [hq, h, if_true]

variable (hdesc : anyPoison e.desc = false) {d : ArrD} (hd : parseArr (pdata e.desc) = d)
include hdesc hd

theorem arrRun_of_other_axis {axis : Bool} (h : d.axis ≠ axis) (bad : Option ArrFault) : arrRun c axis bad s = s := by
  rw [arrRun, whenPowered_of_powered hp]
  simp only [hq, hdesc, hd, Bool.false_eq_true, if_false, bne_iff_ne.2 h, if_true]

theorem arrRun_of_refused {st : Status} (h : arrRefusal s c e.owner (pdata e.desc) = some st) (bad : Option ArrFault) :
    arrRun c d.axis bad s = failJob s e.owner st := by
  rw [arrRun, whenPowered_of_powered hp]
  simp only [hq, hdesc, hd, bne_self_eq_false, Bool.false_eq_true, if_false, h]

variable (hok : arrRefusal s c e.owner (pdata e.desc) = none)
include hok

/-- R376: a codebook whose record is poison ends the job. -/
theorem arrRun_of_bad_book (hcb : isCb d.wf = true) (hbad : (coreCbs c ((List.range d.cols).map d.cbAt).dedup s).2 = false)
    (bad : Option ArrFault) : arrRun c d.axis bad s =
      failJob (coreCbs c ((List.range d.cols).map d.cbAt).dedup s).1 e.owner stPoisoned := by
  rw [arrRun, whenPowered_of_powered hp]
  simp only [hq, hdesc, hd, bne_self_eq_false, Bool.false_eq_true, if_false, hok, hcb, if_true]
  rw [← Prod.mk.eta (p := coreCbs c _ s), hbad]

variable (hbooks : isCb d.wf = true → (coreCbs c ((List.range d.cols).map d.cbAt).dedup s).2 = true)
  (hw : d.wScaled = false)
include hbooks hw

/-- With its books and without a weight scale stream a descriptor reads its tile. -/
theorem arrRun_of_books {t : State} {rows : List (List Byte)}
    (ht : tileRows c d (List.range d.rows) (s.withCodebooks c d) = (t, some rows)) (bad : Option ArrFault) :
    (let tile := rows.map fun r => (List.range d.cols).map fun j => unitVals t c d j (slice r (j * d.recBytes) d.recBytes)
     arrRun c d.axis bad s = streamTile (loadTile c d rows tile t) c e l d tile (List.replicate d.cols f32one) bad) := by
  have hpair : (if isCb d.wf then coreCbs c ((List.range d.cols).map d.cbAt).dedup s else (s, true)) =
      (s.withCodebooks c d, true) := by
    unfold State.withCodebooks
    split
    next hcb => rw [← hbooks hcb]
    next => rfl
  rw [arrRun, whenPowered_of_powered hp]
  simp only [hq, hdesc, hd, bne_self_eq_false, Bool.false_eq_true, if_false, hok, hpair, weightScales, hw, ht]
  rfl

/-- A tile without poison is loaded. -/
theorem arrRun_loads (htile : ∀ r, r < d.rows → s.spPoison c (d.tileRow r).1 (d.tileRow r).2 = false) :
    ∃ v, s.Loaded c (s.withCodebooks c d) v ∧ (∀ a n, s.spPoison c a n = false → v.spPoison c a n = false) ∧
      ∀ bad, arrRun c d.axis bad s =
        streamTile v c e l d (d.tileOf (s.withCodebooks c d) s c) (List.replicate d.cols f32one) bad := by
  have hbook := withCodebooks_booked s c d
  have hpad : ∀ a n, (s.withCodebooks c d).spPoison c a n = s.spPoison c a n := fun a n =>
    congrArg (Mem.poisoned · a n) hbook.scratch
  have hbytes : ∀ a n, (s.withCodebooks c d).sp c a n = s.sp c a n := fun a n => congrArg (Mem.read · a n) hbook.scratch
  obtain ⟨t, ht, hrows⟩ := tileRows_of_good (c := c) (d := d) (l := List.range d.rows) (s := s.withCodebooks c d)
    fun r hr => by rw [hpad]; exact htile r (List.mem_range.1 hr)
  have hvals : ((List.range d.rows).map fun r => (s.withCodebooks c d).sp c (d.tileRow r).1 (d.tileRow r).2).map
      (fun r => (List.range d.cols).map fun j => unitVals t c d j (slice r (j * d.recBytes) d.recBytes)) =
      d.tileOf (s.withCodebooks c d) s c := by
    simp only [unitVals_congr hrows.same.cbUnit, hbytes, List.map_map]
    rfl
  refine ⟨loadTile c d ((List.range d.rows).map fun r => (s.withCodebooks c d).sp c (d.tileRow r).1 (d.tileRow r).2) _ t,
    loadTile_loaded d _ (d.tileOf (s.withCodebooks c d) s c) hbook hrows, fun a n h => ?_, fun bad => ?_⟩
  · rw [State.spPoison, loadTile_core]
    exact hrows.good a n ((hpad a n).trans h)
  · rw [arrRun_of_books hp hq hdesc hd hok hbooks hw ht bad, hvals]

variable (ha : d.aScaled = false) (htile : ∀ r, r < d.rows → s.spPoison c (d.tileRow r).1 (d.tileRow r).2 = false)
  (hvecs : ∀ m, m < d.m → s.spPoison c (d.aVec m) d.aSize = false)
include ha htile hvecs

/-- A descriptor that passes its checks and reads no poison loads its tile and streams its vectors, up to its end or to the
end that a mismatch makes. -/
theorem arrRun_of_good : ∃ v, s.Loaded c (s.withCodebooks c d) v ∧
    arrRun c d.axis none s = endPass c e l d (streamAll c e.owner d (d.tileOf (s.withCodebooks c d) s c) s v) ∧
    ∀ f, ArrFault.strikes f d d.m = true →
      ArrFault.caught f d (d.tileOf (s.withCodebooks c d) s c) (d.vector s c f.vec)
        (Tbl.get 0 (s.core c).accRes (accKey f.lane (d.base + f.vec))) = true →
      ∃ n w, (countVectors c n v).SameUnder Core.sansPass c w ∧
        arrRun c d.axis (some f) s = arrMismatch w c e f := by
  obtain ⟨v, hv, hgood, hrun⟩ := arrRun_loads hp hq hdesc hd hok hbooks hw htile
  obtain ⟨w, henter, hread⟩ := enterVectors_of_good (c := c) ha { next := d.aBlk, addr := d.aScale } (n := d.m) (m := 0)
    (s := v) fun i hi => by rw [Nat.zero_add]; exact hgood _ _ (hvecs i hi)
  have hentered : d.entered v c = d.entered s c := funext fun m =>
    congrArg (·, f32one) (Mem.read_congr fun _ _ => hv.word _)
  rw [hentered] at henter
  refine ⟨w, hv.reads hread, (hrun none).trans (streamTile_of_entered henter), fun f hstrikes hcaught => ?_⟩
  rw [← (hv.reads hread).accRes] at hcaught
  obtain ⟨n, x, hx, hend⟩ := streamTile_of_caught (e := e) (l := l) (scol := List.replicate d.cols f32one) henter hstrikes
    hcaught
  exact ⟨n, x, hx, (hrun (some f)).trans hend⟩

end

/-! ### What a mismatch leaves (R228) -/

/-- The state in which a mismatch has been counted, with its lane. -/
def countMismatch (s : State) (c : Nat) (f : ArrFault) : State :=
  upMx s c fun x => { x with residue := x.residue + 1, lastColumn := BitVec.ofNat 8 f.lane }

theorem countMismatch_mx (s : State) (c : Nat) (f : ArrFault) : ((countMismatch s c f).core c).mx =
    { (s.core c).mx with residue := (s.core c).mx.residue + 1, lastColumn := BitVec.ofNat 8 f.lane } := by
  rw [countMismatch, upMx, upCore_core, if_pos rfl]

/-- R228, R399: a mismatch counts, names its lane and ends the job with ST_ARITH. -/
theorem arrMismatch_spec (s : State) (c : Nat) (e : QEntry) (f : ArrFault) (h : s.lives e.owner.job = true) :
    (arrMismatch s c e f).base = s.base ∧ ((arrMismatch s c e f).core c).mx.residue = (s.core c).mx.residue + 1 ∧
      ((arrMismatch s c e f).core c).mx.lastColumn = BitVec.ofNat 8 f.lane ∧
      ∃ j, (arrMismatch s c e f).job e.owner.job = some j ∧ j.status = some stArith := by
  have hne : ((countMismatch s c f).core c).mx ≠ {} := by
    rw [countMismatch_mx]
    exact fun h0 => Nat.succ_ne_zero _ (congrArg ArrayRec.residue h0)
  have hmx := (arithFault_mx hne e.owner (if f.check = .scaler then unitScaler else unitArray) c f.lane
    (BitVec.ofNat 64 e.addr)).trans (countMismatch_mx s c f)
  exact ⟨(arithFault_base ..).trans (upCore_base ..), congrArg ArrayRec.residue hmx, congrArg ArrayRec.lastColumn hmx,
    arithFault_job (s := countMismatch s c f) h _ _ _ _⟩

/-- R228: the same, from the state whose tile is loaded, whatever the pass has done before. -/
theorem arrMismatch_of_loaded {s u v w : State} {c n : Nat} {e : QEntry} (h : s.Loaded c u v)
    (hw : (countVectors c n v).SameUnder Core.sansPass c w) (hlive : s.lives e.owner.job = true) (f : ArrFault) :
    (arrMismatch w c e f).base = u.base ∧ ((arrMismatch w c e f).core c).mx.residue = (s.core c).mx.residue + 1 ∧
      ((arrMismatch w c e f).core c).mx.lastColumn = BitVec.ofNat 8 f.lane ∧
      ∃ j, (arrMismatch w c e f).job e.owner.job = some j ∧ j.status = some stArith := by
  obtain ⟨-, -, -, hresidue⟩ := hw.mx_of_passed
  rw [countVectors_core, h.mx] at hresidue
  obtain ⟨hbase, hcount, hlane, hjob⟩ :=
    arrMismatch_spec w c e f ((hw.lives _).trans ((h.lives _).trans hlive))
  exact ⟨hbase.trans (hw.base.trans h.base), hcount.trans (congrArg (· + 1) hresidue), hlane, hjob⟩

end Sys2Proof.Machine
end

section
/-!
What a pass leaves (R208 to R217), what an other-axis read leaves (R230), and the array unit's descriptors together.
-/
namespace Sys2Proof.Machine

/-! ### The outputs of a descriptor -/

/-- Output vectors lie apart. -/
theorem oVec_apart {d : ArrD} {n i j : Nat} (hn : n ≤ d.oStride) (h : i < j) : d.oVec i + n ≤ d.oVec j := by
  have hstride : (i + 1) * d.oStride ≤ j * d.oStride := Nat.mul_le_mul_right _ h
  unfold ArrD.oVec
  rw [Nat.succ_mul] at hstride
  omega

/-- Output vector m lies in the output range. -/
theorem oVec_mem_range {d : ArrD} {m j : Nat} (hm : m < d.m) (hj : j < d.oSize) :
    ∃ k < (d.m - 1) * d.oStride + d.oSize, d.oVec m + j = d.oAddr + k := by
  have hle : m * d.oStride ≤ (d.m - 1) * d.oStride := Nat.mul_le_mul_right _ (by omega)
  exact ⟨m * d.oStride + j, by omega, by unfold ArrD.oVec; omega⟩

/-- Outputs that are written vector by vector over a range without poison are all read back at the end (R217). -/
theorem outputs_read {c : Nat} {d : ArrD} {s u : State} {f : Nat → State → State} {b : Nat → List Byte}
    (halign : ∀ m, d.oVec m % 8 = 0) (hstride : d.oSize ≤ d.oStride) (hlen : ∀ m, (b m).length = d.oSize)
    (hword : ∀ i, (u.core c).scratch.word i = (s.core c).scratch.word i)
    (hgood : s.spPoison c d.oAddr ((d.m - 1) * d.oStride + d.oSize) = false)
    (hstep : ∀ m < d.m, ((forN m f u).core c).scratch.took ((forN (m + 1) f u).core c).scratch (d.oVec m) (b m))
    {m : Nat} (hm : m < d.m) : (forN d.m f u).sp c (d.oVec m) d.oSize = b m := by
  have h := Mem.read_of_took (M := fun m => ((forN m f u).core c).scratch) hstep halign
    (fun i j hij => by rw [hlen]; exact oVec_apart hstride hij)
    (fun i hi j hj => by
      obtain ⟨k, hk, hplace⟩ := oVec_mem_range hi (by rw [← hlen i]; exact hj)
      rw [forN_zero, hword, hplace]
      exact Mem.word_of_not_poisoned hgood hk) m hm
  rwa [hlen] at h

/-- One INT32 of an output. -/
theorem sp_of_int32 {t : State} {c a n : Nat} {α : Type} {l : List α} {y : α → BitVec 32}
    (h : t.sp c a n = l.flatMap fun x => leBytes 4 (y x).toNat) (hn : n = 4 * l.length) {j : Nat} {x : α} (hx : l[j]? = some x) :
    t.sp c (a + 4 * j) 4 = leBytes 4 (y x).toNat := by
  have hj : j < l.length := (List.getElem?_eq_some_iff.1 hx).1
  rw [← take_drop_flatMap (f := fun x => leBytes 4 (y x).toNat) (fun _ _ => leBytes_length ..) hx, ← h]
  exact Mem.read_part _ _ (by omega)

/-! ### The end of the descriptor -/

section
variable {s u v w : State} {c : Nat} {e : QEntry} {l : List QEntry} {d : ArrD}

theorem endPass_core (c : Nat) (e : QEntry) (l : List QEntry) (d : ArrD) (s : State) : (endPass c e l d s).core c =
    { s.core c with
      qArray := l
      mx := { (s.core c).mx with descriptors := (s.core c).mx.descriptors + 1 }
      chain := if d.last then none else some (d.chain e.owner.job) } := by
  rw [endPass, upCore_core, if_pos rfl]

/-- The end of a descriptor and its counts, whatever its vectors have done. -/
theorem endPass_spec (h : s.Loaded c u v) (hrun : (countVectors c d.m v).SameUnder Core.sansPass c w) :
    (let t := endPass c e l d w
     t.base = u.base ∧ (t.core c).qArray = l ∧ (t.core c).chain = (if d.last then none else some (d.chain e.owner.job)) ∧
       (t.core c).mx.vectors = (s.core c).mx.vectors + d.m ∧ (t.core c).mx.loads = (s.core c).mx.loads + 1 ∧
       (t.core c).mx.descriptors = (s.core c).mx.descriptors + 1 ∧ ∀ k, k ≠ c → t.core k = s.core k) := by
  obtain ⟨hvectors, hloads, hdescs, -⟩ := hrun.mx_of_passed
  rw [countVectors_core, h.mx] at hvectors hloads hdescs
  dsimp only
  rw [endPass_core]
  refine ⟨hrun.base.trans h.base, rfl, rfl, hvectors, hloads, congrArg (· + 1) hdescs, fun k hk => ?_⟩
  rw [endPass, upCore_core, if_neg hk, hrun.others k hk, countVectors, upMx, upCore_core, if_neg hk, h.others k hk]

/-! ### A pass (R208 to R217) -/

/-- What column j makes of the accumulator entry of vector m. -/
def ArrD.result (d : ArrD) (tile : TileVals) (s : State) (c m j : Nat) : BitVec 32 :=
  d.merged (Tbl.get 0 (s.core c).acc (accKey j (d.base + m)))
    (columnSum d tile j (d.vector s c m) none)

/-- The INT32 output of vector m. -/
def ArrD.resultBytes (d : ArrD) (tile : TileVals) (s : State) (c m : Nat) : List Byte :=
  (List.range d.cols).flatMap fun j => leBytes 4 (d.result tile s c m j).toNat

/-- The first n vectors of a descriptor pass through the tile. -/
def passFirst (c : Nat) (o : Owner) (d : ArrD) (tile : TileVals) (s u : State) (n : Nat) : State :=
  forN n (fun m => passVector c o d tile (List.replicate d.cols f32one) none none (d.entered s c m, m)) (countVectors c d.m u)

theorem streamAll_of_pass (o : Owner) (tile : TileVals) (haxis : d.axis = false) :
    streamAll c o d tile s v = passFirst c o d tile s v d.m := by
  unfold streamAll streamVec
  simp only [haxis, Bool.false_eq_true, if_false]
  rfl

/-- Without LAST no word of the scratchpad changes. -/
theorem passFirst_word (o : Owner) (tile : TileVals) (h : s.Loaded c u v) (hlast : d.last = false) (n i : Nat) :
    ((passFirst c o d tile s v n).core c).scratch.word i = (s.core c).scratch.word i := by
  refine forN_induct (P := fun t => (t.core c).scratch.word i = (s.core c).scratch.word i) ?_ fun m t _ ht => ?_
  · rw [countVectors_core, h.word]
  · rw [passVector_scratch c o d tile _ hlast, ht]

section
variable (o : Owner) (tile : TileVals) (haxis : d.axis = false) (h : s.Loaded c u v)
include haxis h

/-- R208, R209: the entries of the vectors that have passed hold their results. -/
theorem passFirst_acc {n m j : Nat} (hn : d.base + n ≤ 512) (hm : m < n) (hj : j < d.cols) :
    Tbl.get 0 ((passFirst c o d tile s v n).core c).acc (accKey j (d.base + m)) = d.result tile s c m j := by
  rw [passFirst, passVectors_acc c o d tile _ _ _ hn (by omega) hj, if_pos hm, countVectors_core, h.acc, ArrD.result,
    ArrD.vector, haxis]
  rfl

/-- R217: on LAST each vector's INT32 output is its results. -/
theorem passFirst_took (hlast : d.last = true) (hfmt : d.ofmt = 5) (hscales : d.oScales = false) {m : Nat}
    (ha : d.oVec m % 8 = 0) (hbase : d.base + m < 512) :
    ((passFirst c o d tile s v m).core c).scratch.took ((passFirst c o d tile s v (m + 1)).core c).scratch (d.oVec m)
      (d.resultBytes tile s c m) := by
  have htook := passVector_took c o d tile (List.replicate d.cols f32one) hlast hfmt hscales ha (d.entered s c m)
    (passFirst c o d tile s v m)
  have hnext : passVector c o d tile (List.replicate d.cols f32one) none none (d.entered s c m, m)
      (passFirst c o d tile s v m) = passFirst c o d tile s v (m + 1) := (forN_succ ..).symm
  have hbytes : d.entryBytes c m (passFirst c o d tile s v (m + 1)) = d.resultBytes tile s c m :=
    List.flatMap_congr fun j hj => by rw [passFirst_acc o tile haxis h hbase (Nat.lt_succ_self m) (List.mem_range.1 hj)]
  rwa [hnext, hbytes] at htook

/-- R217: at the end of the pass the INT32 outputs are the results. -/
theorem passFirst_int32 (hlast : d.last = true) (hfmt : d.ofmt = 5) (hscales : d.oScales = false)
    (hbase : d.base + d.m ≤ 512) (halign : ∀ m, d.oVec m % 8 = 0) (hstride : d.oSize ≤ d.oStride)
    (hgood : s.spPoison c d.oAddr ((d.m - 1) * d.oStride + d.oSize) = false) {m j : Nat} (hm : m < d.m) (hj : j < d.cols) :
    (passFirst c o d tile s v d.m).sp c (d.oVec m + 4 * j) 4 = leBytes 4 (d.result tile s c m j).toNat := by
  have hsize : d.oSize = 4 * d.cols := by
    rw [ArrD.oSize, haxis, if_neg Bool.false_ne_true, hfmt]
    exact Nat.mul_comm ..
  have hread : (passFirst c o d tile s v d.m).sp c (d.oVec m) d.oSize = d.resultBytes tile s c m := by
    refine outputs_read halign hstride (fun m => ?_) (fun i => ?_) hgood
      (fun m hm => passFirst_took o tile haxis h hlast hfmt hscales (halign m) (by omega)) hm
    · rw [ArrD.resultBytes, length_flatMap_of_length fun _ _ => leBytes_length .., List.length_range, hsize]
    · rw [countVectors_core, h.word]
  exact sp_of_int32 hread (by rw [List.length_range, hsize]) (List.getElem?_range hj)

end

end

/-! ### The other axis (R230) -/

theorem length_axisSums (tile : TileVals) (x : List Ev) : (axisSums tile x).length = 32 * tile.length :=
  length_flatMap_of_length fun _ _ => by rw [List.length_map, List.length_range]

/-- A sum along the other axis, of the places of a row of the tile and of the vector. -/
theorem getElem?_axisSums {tile : TileVals} {x : List Ev} {n r i : Nat} (hr : r < tile.length)
    (hrow : (tile.getD r []).length = n) (hx : x.length = n) (hi : i < 32) :
    (axisSums tile x)[32 * r + i]? = some (BitVec.ofInt 32 (((List.range n).map fun j =>
      (((tile.getD r []).getD j []).getD i .nan).rne * (x.getD j .nan).rne).sum)) := by
  have hget : tile[r]? = some (tile.getD r []) := by
    rw [List.getD_eq_getElem _ _ hr, List.getElem?_eq_getElem hr]
  have hpiece := congrArg (·[i]?) (take_drop_flatMap (f := fun row : List (List Ev) => (List.range 32).map fun i =>
    BitVec.ofInt 32 ((row.zip x).map fun p => (p.1.getD i .nan).rne * p.2.rne).sum)
    (fun _ _ => by rw [List.length_map, List.length_range]) hget)
  simp only [List.getElem?_take_of_lt hi, List.getElem?_drop, List.getElem?_map, List.getElem?_range hi, Option.map_some,
    zip_eq_map_range [] Ev.nan hrow hx, List.map_map] at hpiece
  exact hpiece

theorem length_tileOf (d : ArrD) (u s : State) (c : Nat) : (d.tileOf u s c).length = d.rows :=
  (List.length_map _).trans List.length_range

theorem length_tileOf_row (d : ArrD) (u s : State) (c : Nat) {r : Nat} (hr : r < d.rows) :
    ((d.tileOf u s c).getD r []).length = d.cols := by
  rw [List.getD_eq_getElem _ _ (by rwa [length_tileOf])]
  simp [ArrD.tileOf]

section
variable {s u v : State} {c : Nat} {d : ArrD} (o : Owner) (tile : TileVals) (haxis : d.axis = true) (h : s.Loaded c u v)
include haxis

theorem length_vector (s : State) (c m : Nat) : (d.vector s c m).length = d.cols := by
  rw [ArrD.vector, haxis, vectorVals, List.length_map, List.length_range]
  rfl

theorem streamAll_of_axis : streamAll c o d tile s v = forN d.m
    (fun m => axisVector c o d tile none none (d.entered s c m, m)) (countVectors c d.m v) := by
  unfold streamAll streamVec
  simp only [haxis, if_true]

include h

/-- R230: an other-axis read leaves the accumulator store. -/
theorem streamAll_acc_of_axis : ((streamAll c o d tile s v).core c).acc = (s.core c).acc := by
  rw [streamAll_of_axis o tile haxis]
  refine (State.SameUnder.forN (fun _ _ => axisVector_sameUnder ..) _).acc.trans ?_
  rw [countVectors_core, h.acc]

/-- R230: the outputs of an other-axis read are its sums. -/
theorem streamAll_int32_of_axis (hrows : tile.length = d.rows) (halign : ∀ m, d.oVec m % 8 = 0)
    (hstride : d.oSize ≤ d.oStride) (hgood : s.spPoison c d.oAddr ((d.m - 1) * d.oStride + d.oSize) = false) {m k : Nat} (hm : m < d.m) {y : BitVec 32}
    (hy : (axisSums tile (d.vector s c m))[k]? = some y) :
    (streamAll c o d tile s v).sp c (d.oVec m + 4 * k) 4 = leBytes 4 y.toNat := by
  have hsize : d.oSize = 4 * (32 * d.rows) := by
    rw [ArrD.oSize, haxis, if_pos rfl, ← Nat.mul_assoc]
  have hread : (streamAll c o d tile s v).sp c (d.oVec m) d.oSize =
      (axisSums tile (d.vector s c m)).flatMap fun y => leBytes 4 y.toNat := by
    rw [streamAll_of_axis o tile haxis]
    refine outputs_read (b := fun m => (axisSums tile (d.vector s c m)).flatMap
      fun y => leBytes 4 y.toNat) halign hstride (fun _ => ?_) (fun i => ?_) hgood (fun m hm => ?_) hm
    · rw [length_flatMap_of_length fun _ _ => leBytes_length .., length_axisSums, hrows, hsize]
    · rw [countVectors_core, h.word]
    · rw [forN_succ, axisVector_eq, ArrD.vector, haxis]
      exact spWrite_took _ _ _ _ (halign m)
  exact sp_of_int32 (y := id) hread (by rw [length_axisSums, hrows, hsize]) hy

end

/-! ### The descriptors together -/

theorem endPass_sp (c : Nat) (e : QEntry) (l : List QEntry) (d : ArrD) (s : State) (a n : Nat) :
    (endPass c e l d s).sp c a n = s.sp c a n := by
  rw [State.sp, endPass_core]
  rfl

/-- Settles O39: the head of the queue by its refusals; its pass, its other-axis read and its mismatch by what they leave of a
loaded state. -/
theorem arrayUnit : Obligations.ArrayUnit := by
  unfold Obligations.ArrayUnit
  intro s c e l hp hq
  refine ⟨fun hpoison bad => ?poison, fun hdesc => ⟨fun bad haxis => ?notPass, fun bad haxis => ?notAxis,
    fun st bad hst => ⟨fun haxis => ?refused, fun haxis => ?refusedAxis⟩, fun hok hcb hbad haxis bad => ?badBook,
    fun hok hbooks ha hw htile hvecs => ?runs⟩⟩
  case poison => rw [exec_arrayDescriptor, arrRun_of_poison hp hq hpoison]
  case notPass => rw [exec_arrayDescriptor, arrRun_of_other_axis hp hq hdesc rfl (by simp [haxis])]
  case notAxis => rw [exec_arrayOtherAxisRead, arrRun_of_other_axis hp hq hdesc rfl (by simp [haxis])]
  case refused => rw [exec_arrayDescriptor, ← haxis, arrRun_of_refused hp hq hdesc rfl hst]
  case refusedAxis => rw [exec_arrayOtherAxisRead, ← haxis, arrRun_of_refused hp hq hdesc rfl hst]
  case badBook => rw [exec_arrayDescriptor, ← haxis, arrRun_of_bad_book hp hq hdesc rfl hok hcb hbad]
  case runs =>
    obtain ⟨v, hv, hrun, hcaught⟩ := arrRun_of_good hp hq hdesc rfl hok hbooks hw ha htile hvecs
    obtain ⟨haddr, hstride, hentries, hscales, hlast⟩ := parseArr_of_accepted hok
    have halign := oVec_aligned haddr
    obtain ⟨hbase, hqueue, hchain, hvectors, hloads, hdescs, hothers⟩ := endPass_spec (e := e) (l := l) hv
      (streamAll_sameUnder c e.owner _ ((parseArr (pdata e.desc)).tileOf (s.withCodebooks c (parseArr (pdata e.desc))) s c) s v)
    refine ⟨fun haxis => ⟨_, ?pass, hbase, hqueue, hchain, hvectors, hloads, hdescs, hothers, fun m j hm hj => ?entries,
      fun hl i => ?kept, fun hl hfmt hgood m j hm hj => ?outputs⟩,
      fun haxis => ⟨_, ?sums, hbase, hqueue, ?ends, ?store, hothers, fun hgood m r i hm hr hi => ?axisOutputs⟩,
      fun f hstrikes hshows j hj hlive => ?mismatch⟩
    case pass => rw [exec_arrayDescriptor, ← haxis, hrun]
    case entries =>
      rw [endPass_core, streamAll_of_pass _ _ haxis]
      exact passFirst_acc _ _ haxis hv hentries hm hj
    case kept =>
      rw [endPass_core, streamAll_of_pass _ _ haxis]
      exact passFirst_word _ _ hv hl _ i
    case outputs =>
      rw [endPass_sp, streamAll_of_pass _ _ haxis]
      exact passFirst_int32 _ _ haxis hv hl hfmt (hscales hfmt) hentries halign hstride hgood hm hj
    case sums => rw [exec_arrayOtherAxisRead, ← haxis, hrun]
    case ends => rw [hchain, hlast haxis, if_pos rfl]
    case store =>
      rw [endPass_core]
      exact streamAll_acc_of_axis _ _ haxis hv
    case axisOutputs =>
      rw [endPass_sp]
      have hrows := length_tileOf (parseArr (pdata e.desc)) (s.withCodebooks c (parseArr (pdata e.desc))) s c
      exact streamAll_int32_of_axis _ _ haxis hv hrows halign hstride hgood hm
        (getElem?_axisSums (hrows ▸ hr) (length_tileOf_row _ _ _ _ hr) (length_vector haxis s c m) hi)
    case mismatch =>
      obtain ⟨n, w, hw, hend⟩ := hcaught f hstrikes hshows
      refine ⟨arrMismatch w c e f, ?_, arrMismatch_of_loaded hv hw (by simp [State.lives, hj, hlive]) f⟩
      dsimp only
      split
      next haxis => rw [exec_arrayOtherAxisRead, ← haxis, hend]
      next haxis => rw [exec_arrayDescriptor, ← Bool.eq_false_iff.2 haxis, hend]

end Sys2Proof.Machine
end

section
/-!
A row of a vector descriptor (R234, R242 to R254): the reads of its streams, and what it leaves of the state and of its core.
-/
namespace Sys2Proof.Machine

/-! ### Writes into ranges without poison (R271) -/

/-- A good word that is written turns no range without poison into one with poison. -/
theorem Mem.poisoned_putWord_good {m : Mem} {a n : Nat} (h : m.poisoned a n = false) (i : Nat) (w : Word) :
    (m.putWord i (.good w)).poisoned a n = false := by
  refine Bool.eq_false_iff.2 fun hp => ?_
  obtain ⟨e, he, hbad⟩ := List.any_eq_true.1 hp
  rcases Mem.mem_listed_putWord he with rfl | hold
  · exact Bool.false_ne_true hbad
  · exact Bool.eq_false_iff.1 h (List.any_eq_true.2 ⟨e, hold, hbad⟩)

theorem Mem.poisoned_putWords_good (l : List Word) {m : Mem} {a n : Nat} (h : m.poisoned a n = false) (i : Nat) :
    (m.putWords i (l.map .good)).poisoned a n = false := by
  induction l generalizing m i with
  | nil => exact h
  | cons w l ih => exact ih (Mem.poisoned_putWord_good h i w) (i + 1)

theorem Mem.poisoned_opened {m : Mem} {a n : Nat} (h : m.poisoned a n = false) (i : Nat) :
    (m.opened i).poisoned a n = false := by
  unfold Mem.opened
  split
  · exact h
  · exact Mem.poisoned_settle h i

theorem Mem.poisoned_putByte (m : Mem) (x : Nat) (b : Byte) (a n : Nat) :
    (m.putByte x b).poisoned a n = m.poisoned a n := rfl

theorem Mem.poisoned_writeBytes (l : List Byte) {m : Mem} {a n : Nat} (h : m.poisoned a n = false) (x : Nat) :
    (m.writeBytes x l).poisoned a n = false := by
  induction l generalizing m x with
  | nil => exact h
  | cons b l ih =>
    rw [Mem.writeBytes_cons]
    refine ih ?_ (x + 1)
    unfold Mem.setByte
    split
    · exact Mem.poisoned_opened h _
    · rw [Mem.poisoned_putByte]
      exact Mem.poisoned_opened h _

theorem Mem.poisoned_write {m : Mem} {a n : Nat} (h : m.poisoned a n = false) (x : Nat) (l : List Byte) :
    (m.write x l).poisoned a n = false :=
  Mem.poisoned_writeBytes _ (Mem.poisoned_putWords_good _ (Mem.poisoned_writeBytes _ h _) _) _

/-- A shorter range from the same byte holds no poison either. -/
theorem Mem.poisoned_of_le {m : Mem} {a n k : Nat} (h : m.poisoned a n = false) (hk : k ≤ n) : m.poisoned a k = false := by
  refine Bool.eq_false_iff.2 fun hp => ?_
  obtain ⟨e, he, hbad⟩ := List.any_eq_true.1 hp
  refine Bool.eq_false_iff.1 h (List.any_eq_true.2 ⟨e, ?_, hbad⟩)
  unfold Mem.listed at he ⊢
  split
  next hl =>
    rw [if_pos hl] at he
    obtain ⟨hmem, hrange⟩ := List.mem_filter.1 he
    simp only [decide_eq_true_eq] at hrange
    exact List.mem_filter.2 ⟨hmem, decide_eq_true (by omega)⟩
  next hl =>
    rw [if_neg hl] at he
    split at he
    next => exact absurd he List.not_mem_nil
    next =>
      rw [if_neg (by omega)]
      obtain ⟨i, hi, rfl⟩ := List.mem_map.1 he
      have hi := List.mem_range.1 hi
      exact List.mem_map.2 ⟨i, List.mem_range.2 (by omega), rfl⟩

theorem spWrite_spPoison {s : State} {c a n : Nat} (h : s.spPoison c a n = false) (o : Owner) (x : Nat) (l : List Byte) :
    (spWrite s c o x l).spPoison c a n = false := by
  unfold spWrite
  dsimp only
  rw [State.spPoison, State.core, spDigest_cores]
  change Mem.poisoned (((upCore _ c _).core c).scratch) a n = false
  rw [upCore_core, if_pos rfl]
  exact Mem.poisoned_write (spTouch_spPoison _ _ (spTouch_spPoison _ _ h)) x l

/-! ### The frame of a row -/

/-- The core without the counts that a row of a vector descriptor makes (R182, R190, R262). -/
def Core.sansCounts (k : Core) : Core :=
  { k with
    vx := { descriptors := k.vx.descriptors, residue := k.vx.residue }
    clipped := [], clipTotal := [], clipSat := 0, degenerate := 0, nonfinite := 0 }

/-- The core without what a row changes. -/
def Core.sansRow (k : Core) : Core := k.sansPad.sansCounts

/-- What a row of a vector descriptor leaves: its core but for the scratchpad and the counts, and no range has come to hold
poison. -/
structure State.RowDone (c : Nat) (s t : State) : Prop where
  same : s.SameUnder Core.sansRow c t
  good : ∀ a n, s.spPoison c a n = false → t.spPoison c a n = false

namespace State.RowDone
variable {c : Nat} {s t u : State}

theorem refl (c : Nat) (s : State) : RowDone c s s := ⟨.refl .., fun _ _ h => h⟩

theorem trans (h : RowDone c s t) (h' : RowDone c t u) : RowDone c s u :=
  ⟨h.same.trans h'.same, fun a n hs => h'.good a n (h.good a n hs)⟩

theorem of_reads (h : s.Reads c t) : RowDone c s t :=
  ⟨h.same.mono (congrArg Core.sansCounts : (t.core c).sansPad = (s.core c).sansPad → _), h.good⟩

theorem count {f : Core → Core} (hview : (f (s.core c)).sansRow = (s.core c).sansRow)
    (hpad : (f (s.core c)).scratch = (s.core c).scratch) : RowDone c s (upCore s c f) :=
  ⟨.upCore hview, fun a n h => by rw [State.spPoison, upCore_core, if_pos rfl, hpad]; exact h⟩

theorem write (s : State) (c : Nat) (o : Owner) (a : Nat) (l : List Byte) : RowDone c s (spWrite s c o a l) :=
  ⟨(spWrite_sameUnder ..).mono (congrArg Core.sansCounts : (_ : Core).sansPad = (_ : Core).sansPad → _),
    fun _ _ h => spWrite_spPoison h o a l⟩

theorem forL {α : Type} {l : List α} {f : α → State → State} (h : ∀ x t, RowDone c t (f x t)) (s : State) :
    RowDone c s (forL l f s) := forL_induct (P := RowDone c s) (fun x t ht => ht.trans (h x t)) (refl c s)

theorem acc (h : RowDone c s t) : (t.core c).acc = (s.core c).acc :=
  (congrArg Core.acc h.same.core : (t.core c).sansRow.acc = (s.core c).sansRow.acc)

theorem seq (h : RowDone c s t) : (t.core c).seq = (s.core c).seq :=
  (congrArg Core.seq h.same.core : (t.core c).sansRow.seq = (s.core c).sansRow.seq)

theorem mx (h : RowDone c s t) : (t.core c).mx = (s.core c).mx :=
  (congrArg Core.mx h.same.core : (t.core c).sansRow.mx = (s.core c).sansRow.mx)

theorem descriptors (h : RowDone c s t) : (t.core c).vx.descriptors = (s.core c).vx.descriptors :=
  (congrArg (fun k => k.vx.descriptors) h.same.core : (t.core c).sansRow.vx.descriptors = (s.core c).sansRow.vx.descriptors)

theorem residue (h : RowDone c s t) : (t.core c).vx.residue = (s.core c).vx.residue :=
  (congrArg (fun k => k.vx.residue) h.same.core : (t.core c).sansRow.vx.residue = (s.core c).sansRow.vx.residue)

end State.RowDone

/-! ### Counts and results -/

theorem upVx_elements_done (s : State) (c n : Nat) :
    s.RowDone c (upVx s c fun v => { v with elements := v.elements + n }) := .count rfl rfl

theorem upVx_convSat_done (s : State) (c n : Nat) :
    s.RowDone c (upVx s c fun v => { v with convSat := v.convSat + n }) := .count rfl rfl

theorem upVx_topkRows_done (s : State) (c n : Nat) :
    s.RowDone c (upVx s c fun v => { v with topkRows := v.topkRows + n }) := .count rfl rfl

theorem countIn_done (s : State) (c fmt : Nat) (raw : List Nat) : s.RowDone c (countIn s c fmt raw) := by
  unfold countIn
  split
  · exact .count rfl rfl
  · exact .refl ..

theorem countOut_done (s : State) (c fmt : Nat) (raw : List Nat) : s.RowDone c (countOut s c fmt raw) := by
  unfold countOut
  split
  · exact .count rfl rfl
  · exact .refl ..

theorem vecCt_done (s : State) (c ct : Nat) (sat : Bool) (l : List Ev) : s.RowDone c (vecCt s c ct sat l).1 :=
  upVx_convSat_done ..

theorem clipAdd_sansRow (k : Core) (slot n m : Nat) :
    (k.clipAdd slot n m).sansRow = k.sansRow ∧ (k.clipAdd slot n m).scratch = k.scratch := by
  unfold Core.clipAdd
  split <;> exact ⟨rfl, rfl⟩

theorem foldl_clipAdd_sansRow {α : Type} (slot : Nat) (f : α → Nat) (l : List α) (k : Core) :
    (l.foldl (fun k x => k.clipAdd slot 1 (f x)) k).sansRow = k.sansRow ∧
      (l.foldl (fun k x => k.clipAdd slot 1 (f x)) k).scratch = k.scratch := by
  induction l generalizing k with
  | nil => exact ⟨rfl, rfl⟩
  | cons x l ih =>
    obtain ⟨hview, hpad⟩ := clipAdd_sansRow k slot 1 (f x)
    exact ⟨(ih _).1.trans hview, (ih _).2.trans hpad⟩

theorem upCore_quantCounts_done (s : State) (c degenerate nonfinite : Nat) : s.RowDone c (upCore s c fun k =>
    { k with degenerate := k.degenerate + degenerate, nonfinite := k.nonfinite + nonfinite }) := .count rfl rfl

theorem vecOutputs_done (s : State) (c : Nat) (d : VecD) (fp : Bool) (l : List Ev) :
    s.RowDone c (vecOutputs s c d fp l).1 := by
  unfold vecOutputs
  split
  · obtain ⟨hview, hpad⟩ := foldl_clipAdd_sansRow d.slot (fun p => b2n ((s.cbOn c d.ocb).clips p)) (l.map r32) (s.core c)
    exact .count hview hpad
  · exact (upVx_convSat_done ..).trans (countOut_done ..)

theorem strmWrite_done (s : State) (c : Nat) (o : Owner) (m : Strm) (r : Nat) (l : List (Nat × Nat)) :
    s.RowDone c (strmWrite s c o m r l) := .forL (fun _ _ => .write ..) s

theorem vecStore_done (s : State) (c : Nat) (o : Owner) (d : VecD) (r : Nat) (l : List Nat) :
    s.RowDone c (vecStore s c o d r l) := (strmWrite_done ..).trans (upVx_elements_done ..)

theorem vecAux_done (s : State) (c : Nat) (o : Owner) (d : VecD) (off : Nat) (l : List Nat) :
    s.RowDone c (vecAux s c o d off l) := (State.RowDone.write ..).trans (upVx_elements_done ..)

theorem vecScales_done (s : State) (c : Nat) (o : Owner) (d : VecD) (r : Nat) (x : VecRun) :
    s.RowDone c (vecScales s c o d r x) := .forL (fun _ _ => .write ..) s

/-! ### Reads of a stream -/

/-- The elements that row r of a stream gives to core c lie in ranges without poison. -/
def Strm.readable (m : Strm) (s : State) (c r n : Nat) : Prop := ∀ p ∈ m.parts r n, s.spPoison c p.1 p.2 = false

theorem Strm.readable_of_done {m : Strm} {s t : State} {c r n : Nat} (h : m.readable s c r n) (ht : s.RowDone c t) :
    m.readable t c r n := fun p hp => ht.good _ _ (h p hp)

theorem Strm.extent_mono (m : Strm) {k n : Nat} (h : k ≤ n) : m.extent k ≤ m.extent n := by
  unfold Strm.extent ceilDiv
  split
  · exact Nat.zero_le _
  · rw [if_neg (by omega)]
    gcongr

/-- The first elements of a row. -/
theorem Strm.readable_of_le {m : Strm} {s : State} {c r k n : Nat} (h : m.readable s c r n) (hk : k ≤ n) :
    m.readable s c r k := by
  unfold Strm.readable Strm.parts at h ⊢
  split
  next => exact fun _ hp => absurd hp List.not_mem_nil
  next hk0 =>
    rw [if_neg (by omega)] at h
    split at h
    next hs =>
      rw [if_pos hs]
      intro p hp
      rw [List.mem_singleton.1 hp]
      exact Mem.poisoned_of_le (h (m.row r, m.extent n) List.mem_cons_self) (m.extent_mono hk)
    next hs =>
      rw [if_neg hs]
      intro p hp
      obtain ⟨i, hi, rfl⟩ := List.mem_map.1 hp
      exact h _ (List.mem_map.2 ⟨i, List.mem_range.2 ((List.mem_range.1 hi).trans_le hk), rfl⟩)

theorem Strm.length_elems (m : Strm) (s : State) (c r n : Nat) : (m.elems s c r n).length = n := by
  unfold Strm.elems
  split <;> simp

theorem spTouches_reads (c : Nat) (l : List (Nat × Nat)) (s : State) :
    s.Reads c (forL l (fun p s => spTouch s c p.1 p.2) s) :=
  forL_induct (P := s.Reads c) (fun _ _ h => h.trans (spTouch_reads ..)) (.refl c s)

/-- A row without poison is read. -/
theorem strmRead_of_readable {m : Strm} {s : State} {c r n : Nat} (h : m.readable s c r n) :
    ∃ t l, strmRead s c m r n = (t, some l) ∧ l.length = n ∧ s.RowDone c t := by
  have hread := spTouches_reads c (m.parts r n) s
  have hgood : (m.parts r n).any (fun p =>
      (forL (m.parts r n) (fun p s => spTouch s c p.1 p.2) s).spPoison c p.1 p.2) = false :=
    List.any_eq_false.2 fun p hp => by rw [hread.good _ _ (h p hp)]; exact Bool.false_ne_true
  refine ⟨_, _, ?_, m.length_elems (forL (m.parts r n) (fun p s => spTouch s c p.1 p.2) s) c r n, .of_reads hread⟩
  rw [strmRead, hgood]
  rfl

/-! ### The rows of each kind -/

/-- Row r of a vector descriptor reads no poison. -/
def VecD.rowReadable (d : VecD) (k : VKind) (s : State) (c r : Nat) : Prop :=
  d.a.readable s c r d.cols ∧ (d.usesB k = true → d.b.readable s c r d.cols)

theorem VecD.rowReadable_of_done {d : VecD} {k : VKind} {s t : State} {c r : Nat} (h : d.rowReadable k s c r)
    (ht : s.RowDone c t) : d.rowReadable k t c r :=
  ⟨Strm.readable_of_done h.1 ht, fun hb => Strm.readable_of_done (h.2 hb) ht⟩

/-- A row runs through. -/
def RowOut.Through (y : RowOut) (s : State) (c : Nat) : Prop := ∃ t x, y = (t, .ok x) ∧ s.RowDone c t

section
variable {s : State} {c : Nat} (o : Owner) {d : VecD} {r : Nat} (x : VecRun)

theorem rowCompute_through {k : VKind} (h : d.rowReadable k s c r) : RowOut.Through (rowCompute s c o d k r x) s c := by
  obtain ⟨t, ra, ht, -, hread⟩ := strmRead_of_readable h.1
  have hb : ∃ u rb, (if d.usesB k then strmRead t c d.b r d.cols else (t, some ra)) = (u, some rb) ∧ t.RowDone c u := by
    split
    next hb =>
      obtain ⟨u, rb, hu, -, hread'⟩ := strmRead_of_readable (Strm.readable_of_done (h.2 hb) hread)
      exact ⟨u, rb, hu, hread'⟩
    next => exact ⟨t, ra, rfl, .refl ..⟩
  obtain ⟨u, rb, hu, hread'⟩ := hb
  unfold rowCompute
  simp only [ht, hu]
  refine ⟨_, _, rfl, hread.trans (hread'.trans (.trans ?_
    ((upVx_convSat_done ..).trans ((vecOutputs_done ..).trans (vecStore_done ..)))))⟩
  have hin : ∀ (v : State) (fmt : Nat) (cb : CbView) (raw : List Nat) (sat : Bool), v.RowDone c
      (vecCt (vecInputs v c fmt cb raw).1 c d.ct sat (vecInputs v c fmt cb raw).2).1 := fun _ _ _ _ _ =>
    (countIn_done ..).trans (vecCt_done ..)
  split
  · exact (hin ..).trans (hin ..)
  · exact hin ..

theorem rowSelect_through (h : d.rowReadable .select s c r) : RowOut.Through (rowSelect s c o d r x) s c := by
  obtain ⟨t, ra, ht, -, hread⟩ := strmRead_of_readable h.1
  obtain ⟨u, rb, hu, -, hread'⟩ := strmRead_of_readable (Strm.readable_of_done (h.2 rfl) hread)
  unfold rowSelect
  simp only [ht, hu]
  exact ⟨_, _, rfl, hread.trans (hread'.trans ((countIn_done ..).trans ((countOut_done ..).trans
    ((strmWrite_done ..).trans (upVx_elements_done ..)))))⟩

theorem rowCompress_through (h : d.rowReadable .compress s c r) : RowOut.Through (rowCompress s c o d r x) s c := by
  obtain ⟨t, ra, ht, -, hread⟩ := strmRead_of_readable h.1
  obtain ⟨u, rb, hu, -, hread'⟩ := strmRead_of_readable (Strm.readable_of_done (h.2 rfl) hread)
  unfold rowCompress
  simp only [ht, hu]
  exact ⟨_, _, rfl, hread.trans (hread'.trans ((countIn_done ..).trans ((countOut_done ..).trans
    ((vecStore_done ..).trans (vecAux_done ..)))))⟩

theorem rowExpand_through (h : d.rowReadable .expand s c r) : RowOut.Through (rowExpand s c o d r x) s c := by
  obtain ⟨t, rb, ht, hlen, hread⟩ := strmRead_of_readable (h.2 rfl)
  obtain ⟨u, ra, hu, -, hread'⟩ := strmRead_of_readable (Strm.readable_of_done
    (Strm.readable_of_le h.1 ((List.countP_le_length (p := (· != 0))).trans_eq hlen)) hread)
  unfold rowExpand
  simp only [ht, hu]
  exact ⟨_, _, rfl, hread.trans (hread'.trans ((countIn_done ..).trans ((countOut_done ..).trans
    ((strmWrite_done ..).trans ((upVx_elements_done ..).trans (vecAux_done ..))))))⟩

theorem rowTopk_through (h : d.rowReadable .topk s c r) : RowOut.Through (rowTopk s c o d r x) s c := by
  obtain ⟨t, ra, ht, -, hread⟩ := strmRead_of_readable h.1
  have hb : ∃ u ids, (if d.bIdx then strmRead t c d.b r d.cols else (t, some (List.range d.cols))) = (u, some ids) ∧
      t.RowDone c u := by
    split
    next hb =>
      obtain ⟨u, ids, hu, -, hread'⟩ := strmRead_of_readable (Strm.readable_of_done (h.2 hb) hread)
      exact ⟨u, ids, hu, hread'⟩
    next => exact ⟨t, _, rfl, .refl ..⟩
  obtain ⟨u, ids, hu, hread'⟩ := hb
  unfold rowTopk
  simp only [ht, hu]
  exact ⟨_, _, rfl, hread.trans (hread'.trans ((countIn_done ..).trans ((vecCt_done ..).trans ((vecOutputs_done ..).trans
    ((vecStore_done ..).trans ((vecAux_done ..).trans (upVx_topkRows_done ..)))))))⟩

/-- Stream A of CONVERT and QUANT without a scale stream. -/
theorem vecSource_of_readable (hs : d.scaled = false) (h : d.a.readable s c r d.cols) :
    ∃ t l, vecSource s c d r x = (t, .ok (x, l)) ∧ s.RowDone c t := by
  obtain ⟨t, ra, ht, -, hread⟩ := strmRead_of_readable h
  unfold vecSource
  simp only [hs, Bool.false_eq_true, if_false, ht]
  exact ⟨_, _, rfl, hread.trans (countIn_done ..)⟩

theorem rowConvert_through (hs : d.scaled = false) (h : d.rowReadable .convert s c r) :
    RowOut.Through (rowConvert s c o d r x) s c := by
  obtain ⟨t, l, ht, hread⟩ := vecSource_of_readable x hs h.1
  unfold rowConvert
  simp only [ht]
  exact ⟨_, _, rfl, hread.trans ((vecOutputs_done ..).trans (vecStore_done ..))⟩

theorem rowQuant_through (hs : d.scaled = false) (h : d.rowReadable .quant s c r) :
    RowOut.Through (rowQuant s c o d r x) s c := by
  obtain ⟨t, l, ht, hread⟩ := vecSource_of_readable x hs h.1
  unfold rowQuant
  simp only [ht]
  obtain ⟨scale, codes, kind⟩ := quantise (l.map r32)
  exact ⟨_, _, rfl, hread.trans ((upCore_quantCounts_done ..).trans ((vecStore_done ..).trans (vecScales_done ..)))⟩


/-- R259: a row that reads no poison and no scale stream runs through. -/
theorem vecRow_through (hs : d.scaled = false) {k : VKind} (h : d.rowReadable k s c r) :
    RowOut.Through (vecRow s c o d k r x) s c := by
  unfold vecRow
  split
  · exact rowSelect_through o x h
  · exact rowCompress_through o x h
  · exact rowExpand_through o x h
  · exact rowTopk_through o x h
  · exact rowConvert_through o x hs h
  · exact rowQuant_through o x hs h
  · exact rowCompute_through o x h

end
end Sys2Proof.Machine
end

section
/-!
The head of a VECTOR queue (R234 to R260): its refusals, its rows, its end, and a mismatch (R258).
-/
namespace Sys2Proof.Machine

/-! ### What a mismatch leaves (R228, R258) -/

/-- What the end of a job leaves of a core: the scratchpad and the records of the array and of the vector engine. -/
def Core.stopView (k : Core) : Mem × ArrayRec × VectorRec := (k.scratch, k.mx, k.vx)

theorem mx_ne_of_stopView {k k' : Core} (h : k.mx ≠ {}) (hv : k'.stopView = k.stopView) : k'.mx ≠ {} :=
  fun h0 => h ((congrArg (·.2.1) hv).symm.trans h0)

/-- The end of a job, on a core that has counted something for its array. -/
theorem endJob_stopView {s : State} {c : Nat} (h : (s.core c).mx ≠ {}) (id : Nat) (st : Status) (idx : BitVec 16) :
    ((endJob s id st idx).core c).stopView = (s.core c).stopView := by
  have hmap : Tbl.get {} (s.cores.map fun e => (e.1, stopCore id e.2)) c = stopCore id (s.core c) :=
    Tbl.get_map_of_default (d := ({} : Core)) (f := stopCore id) rfl s.cores c
  have hne : Tbl.get {} (s.cores.map fun e => (e.1, stopCore id e.2)) c ≠ {} := by
    rw [hmap]
    exact fun h0 => h (congrArg Core.mx h0)
  unfold endJob
  split
  · exact (congrArg Core.stopView ((Tbl.get_filter_of_ne_default hne).trans hmap) : _ = (stopCore id (s.core c)).stopView)
  · rfl

theorem endAll_stopView {s : State} {c : Nat} (h : (s.core c).mx ≠ {}) (st : Status) :
    ((endAll s st).core c).stopView = (s.core c).stopView :=
  forL_induct (P := fun t => (t.core c).stopView = (s.core c).stopView)
    (fun id _ ht => (endJob_stopView (mx_ne_of_stopView h ht) id st 0xFFFF).trans ht) rfl

theorem arithFault_stopView {s : State} {c : Nat} (h : (s.core c).mx ≠ {}) (o : Owner) (u ch lane : Nat) (a : Word) :
    ((arithFault s o u ch lane a).core c).stopView = (s.core c).stopView := by
  have hsuspect : ∀ t : State, (nameSuspect t o.cid u ch 0).core c = t.core c := by
    intro t
    refine (raiseEvent_core ..).trans ?_
    split <;> rfl
  have hend := endJob_stopView h o.job stArith (BitVec.ofNat 16 o.idx)
  unfold arithFault
  dsimp only
  rw [hsuspect, raiseEvent_core]
  unfold jobFault jobFaultWith
  dsimp only
  rw [raiseEvent_core]
  exact (endAll_stopView (mx_ne_of_stopView h hend) stLost).trans hend

/-- The state in which a mismatch of the vector engine has been counted, in its own record and in the array's. -/
def countVecMismatch (s : State) (c : Nat) : State :=
  upVx (upCore s c fun k => { k with mx := { k.mx with residue := k.mx.residue + 1 } }) c
    fun v => { v with residue := v.residue + 1 }

theorem countVecMismatch_stopView (s : State) (c : Nat) : ((countVecMismatch s c).core c).stopView =
    ((s.core c).scratch, { (s.core c).mx with residue := (s.core c).mx.residue + 1 },
      { (s.core c).vx with residue := (s.core c).vx.residue + 1 }) := by
  rw [countVecMismatch, upVx, upCore_core, if_pos rfl, upCore_core, if_pos rfl]
  rfl

theorem vecMismatch_eq (s : State) (c : Nat) (e : QEntry) (lane : Nat) : vecMismatch s c e lane =
    arithFault (countVecMismatch s c) e.owner unitVector c lane (BitVec.ofNat 64 e.addr) := rfl

/-- R228, R258: a mismatch counts in both records, leaves the scratchpad and ends the job with ST_ARITH. -/
theorem vecMismatch_spec (s : State) (c : Nat) (e : QEntry) (lane : Nat) (h : s.lives e.owner.job = true) :
    (vecMismatch s c e lane).base = s.base ∧
      ((vecMismatch s c e lane).core c).scratch = (s.core c).scratch ∧
      ((vecMismatch s c e lane).core c).mx.residue = (s.core c).mx.residue + 1 ∧
      ((vecMismatch s c e lane).core c).vx.residue = (s.core c).vx.residue + 1 ∧
      ∃ j, (vecMismatch s c e lane).job e.owner.job = some j ∧ j.status = some stArith := by
  have hcount := countVecMismatch_stopView s c
  have hne : ((countVecMismatch s c).core c).mx ≠ {} := fun h0 =>
    Nat.succ_ne_zero _ (congrArg ArrayRec.residue ((congrArg (·.2.1) hcount).symm.trans h0))
  have hview := (arithFault_stopView hne e.owner unitVector c lane (BitVec.ofNat 64 e.addr)).trans hcount
  rw [vecMismatch_eq]
  exact ⟨(arithFault_base ..).trans ((upCore_base ..).trans (upCore_base ..)), congrArg (·.1) hview,
    congrArg (·.2.1.residue) hview, congrArg (·.2.2.residue) hview, arithFault_job (s := countVecMismatch s c) h _ _ _ _⟩

/-! ### The rows of a descriptor -/

section
variable {c : Nat} (e : QEntry) {d : VecD} {k : VKind} (hs : d.scaled = false)
include hs

/-- R259: a row that reads no poison and meets no mismatch leads to the next. -/
theorem vecRows_succ {bad : Option (Nat × Nat)} {r : Nat} (x : VecRun) (n : Nat) {s : State}
    (hbad : ∀ b ∈ bad, b.1 ≠ r) (h : d.rowReadable k s c r) :
    ∃ t y, vecRows c e d k bad (n + 1) r x s = vecRows c e d k bad n (r + 1) y t ∧ s.RowDone c t := by
  obtain ⟨t, y, hrow, ht⟩ := vecRow_through e.owner x hs h
  have hnone : bad.filter (fun b => b.1 == r && decide (b.2 < min d.cols (d.rate k))) = none := by
    cases bad with
    | none => rfl
    | some b => simp [Option.filter, hbad b rfl]
  refine ⟨t, y, ?_, ht⟩
  rw [vecRows, hnone]
  simp only [hrow]

/-- Rows that read no poison all run. -/
theorem vecRows_of_readable {n r : Nat} (x : VecRun) {s : State} (h : ∀ i < n, d.rowReadable k s c (r + i)) :
    ∃ t, vecRows c e d k none n r x s = (t, true) ∧ s.RowDone c t := by
  induction n generalizing r x s with
  | zero => exact ⟨s, rfl, .refl ..⟩
  | succ n ih =>
    obtain ⟨t, y, hrow, ht⟩ := vecRows_succ e hs x n (bad := none) nofun (h 0 n.succ_pos)
    obtain ⟨u, hrows, hu⟩ := ih (r := r + 1) y fun i hi => VecD.rowReadable_of_done (by
      rw [Nat.add_right_comm]
      exact h (i + 1) (Nat.succ_lt_succ hi)) ht
    exact ⟨u, hrow.trans hrows, ht.trans hu⟩

/-- R258: the row of a mismatch is not run, those before it are. -/
theorem vecRows_of_mismatch {n r m lane : Nat} (hm : m < n) (hlane : lane < min d.cols (d.rate k)) (x : VecRun) {s : State}
    (h : ∀ i < n, d.rowReadable k s c (r + i)) :
    ∃ t, vecRows c e d k (some (r + m, lane)) n r x s = (vecMismatch t c e lane, false) ∧ s.RowDone c t ∧
      (m = 0 → t = s) := by
  induction m generalizing n r x s with
  | zero =>
    obtain ⟨n, rfl⟩ := Nat.exists_eq_succ_of_ne_zero (Nat.ne_of_gt hm)
    refine ⟨s, ?_, .refl .., fun _ => rfl⟩
    rw [vecRows]
    simp only [Option.filter, Nat.add_zero, beq_self_eq_true, hlane, decide_true, Bool.and_self, if_true]
  | succ m ih =>
    obtain ⟨n, rfl⟩ := Nat.exists_eq_succ_of_ne_zero (Nat.ne_of_gt (Nat.zero_lt_of_lt hm))
    obtain ⟨t, y, hrow, ht⟩ := vecRows_succ e hs x n (bad := some (r + (m + 1), lane))
      (by rintro b ⟨⟩; simp only; omega) (h 0 n.succ_pos)
    obtain ⟨u, hrows, hu, -⟩ := ih (n := n) (r := r + 1) (Nat.lt_of_succ_lt_succ hm) y fun i hi =>
      VecD.rowReadable_of_done (by
        rw [Nat.add_right_comm]
        exact h (i + 1) (Nat.succ_lt_succ hi)) ht
    rw [Nat.add_right_comm] at hrows
    exact ⟨u, hrow.trans hrows, ht.trans hu, nofun⟩

end

/-! ### The head of the queue (R236, R260, R282) -/

/-- The run of a descriptor's rows from the state in which its codebooks have been taken up. -/
def headRows (s : State) (c : Nat) (e : QEntry) (k : VKind) (bad : Option (Nat × Nat)) : State × Bool :=
  let d := parseVec (pdata e.desc)
  vecRows c e d k bad d.rows 0 { walk := { next := d.aBlk, addr := d.b.addr }, scales := [] } (coreCbs c (d.cbs k) s).1

/-- A descriptor whose rows have run leaves its queue. -/
def leaveVector (s : State) (c : Nat) (l : List QEntry) : State :=
  upCore s c fun x => { x with qVector := l, vx := { x.vx with descriptors := x.vx.descriptors + 1 } }

section
variable {s : State} {c : Nat} {e : QEntry} {l : List QEntry} (hp : s.powered = true) (hq : (s.core c).qVector = e :: l)
  (hdesc : anyPoison e.desc = false) {op : Nat}
include hp hq hdesc

theorem vecRun_of_other_op (hop : (parseVec (pdata e.desc)).op ≠ op) (hk : (vKind (parseVec (pdata e.desc)).op).isSome = true)
    (bad : Option (Nat × Nat)) : vecRun c op bad s = s := by
  rw [vecRun, whenPowered_of_powered hp]
  simp only [hq, hdesc, hop, hk, ne_eq, not_false_eq_true, and_self, Bool.false_eq_true, if_false, if_true]

variable (hop : (parseVec (pdata e.desc)).op = op)
include hop

theorem vecRun_of_refused {st : Status} (h : vecRefusal s (pdata e.desc) = some st) (bad : Option (Nat × Nat)) :
    vecRun c op bad s = failJob s e.owner st := by
  rw [vecRun, whenPowered_of_powered hp]
  simp only [hq, hdesc, hop, ne_eq, not_true_eq_false, false_and, Bool.false_eq_true, if_false, h]

variable (hok : vecRefusal s (pdata e.desc) = none) {k : VKind} (hk : vKind op = some k)
include hok hk

theorem vecRun_of_bad_book (h : (coreCbs c ((parseVec (pdata e.desc)).cbs k) s).2 = false) (bad : Option (Nat × Nat)) :
    vecRun c op bad s = failJob (coreCbs c ((parseVec (pdata e.desc)).cbs k) s).1 e.owner stPoisoned := by
  rw [vecRun, whenPowered_of_powered hp]
  simp only [hq, hdesc, hop, ne_eq, not_true_eq_false, false_and, Bool.false_eq_true, if_false, hok, hk]
  rw [← Prod.mk.eta (p := coreCbs c _ s), h]

variable (hbooks : (coreCbs c ((parseVec (pdata e.desc)).cbs k) s).2 = true) {bad : Option (Nat × Nat)} {t : State}
include hbooks

/-- An accepted descriptor with its codebooks runs its rows. -/
theorem vecRun_of_books : vecRun c op bad s =
    match headRows s c e k bad with
    | (s, false) => s
    | (s, true) => leaveVector s c l := by
  rw [vecRun, whenPowered_of_powered hp]
  simp only [hq, hdesc, hop, ne_eq, not_true_eq_false, false_and, Bool.false_eq_true, if_false, hok, hk]
  rw [← Prod.mk.eta (p := coreCbs c _ s), hbooks]
  rfl

theorem vecRun_of_all_rows (h : headRows s c e k bad = (t, true)) : vecRun c op bad s = leaveVector t c l := by
  rw [vecRun_of_books hp hq hdesc hop hok hk hbooks, h]

theorem vecRun_of_stopped (h : headRows s c e k bad = (t, false)) : vecRun c op bad s = t := by
  rw [vecRun_of_books hp hq hdesc hop hok hk hbooks, h]

end

/-! ### A descriptor that reads no poison -/

/-- Taking up codebooks leaves the scratchpad. -/
theorem rowReadable_of_booked {d : VecD} {k : VKind} {s t : State} {c r : Nat} (h : d.rowReadable k s c r)
    (ht : s.Booked c t) : d.rowReadable k t c r := by
  have hpad : ∀ a n, t.spPoison c a n = s.spPoison c a n := fun a n => congrArg (Mem.poisoned · a n) ht.scratch
  exact ⟨fun p hp => (hpad ..).trans (h.1 p hp), fun hb p hp => (hpad ..).trans (h.2 hb p hp)⟩

section
variable {s : State} {c : Nat} {e : QEntry} {k : VKind} (hs : (parseVec (pdata e.desc)).scaled = false)
  (hrows : ∀ r < (parseVec (pdata e.desc)).rows, (parseVec (pdata e.desc)).rowReadable k s c r)
include hs hrows

theorem headRows_of_readable : ∃ t, headRows s c e k none = (t, true) ∧
    (coreCbs c ((parseVec (pdata e.desc)).cbs k) s).1.RowDone c t :=
  vecRows_of_readable e hs _ fun i hi => rowReadable_of_booked (by rw [Nat.zero_add]; exact hrows i hi) (coreCbs_booked ..)

theorem headRows_of_mismatch {row lane : Nat} (hrow : row < (parseVec (pdata e.desc)).rows)
    (hlane : lane < min (parseVec (pdata e.desc)).cols ((parseVec (pdata e.desc)).rate k)) :
    ∃ t, headRows s c e k (some (row, lane)) = (vecMismatch t c e lane, false) ∧
      (coreCbs c ((parseVec (pdata e.desc)).cbs k) s).1.RowDone c t ∧
      (row = 0 → t = (coreCbs c ((parseVec (pdata e.desc)).cbs k) s).1) := by
  have h := vecRows_of_mismatch e hs (r := 0) hrow hlane
    { walk := { next := (parseVec (pdata e.desc)).aBlk, addr := (parseVec (pdata e.desc)).b.addr }, scales := [] }
    fun i hi => rowReadable_of_booked (by rw [Nat.zero_add]; exact hrows i hi)
      (coreCbs_booked c ((parseVec (pdata e.desc)).cbs k) s)
  rwa [Nat.zero_add] at h

end

section
variable {s u t : State} {c : Nat} (hbook : s.Booked c u) (hdone : u.RowDone c t)
include hbook hdone

/-- What a descriptor leaves that has run all its rows. -/
theorem leaveVector_spec (l : List QEntry) :
    (leaveVector t c l).base = u.base ∧ ((leaveVector t c l).core c).qVector = l ∧
      ((leaveVector t c l).core c).vx.descriptors = (s.core c).vx.descriptors + 1 ∧
      (∀ n, n ≠ c → (leaveVector t c l).core n = s.core n) ∧
      ((leaveVector t c l).core c).acc = (s.core c).acc ∧ ((leaveVector t c l).core c).seq = (s.core c).seq := by
  have hseq : (u.core c).seq = (s.core c).seq :=
    (congrArg Core.seq hbook.core : (u.core c).sansBooks.seq = (s.core c).sansBooks.seq)
  have hvx : (u.core c).vx = (s.core c).vx :=
    (congrArg Core.vx hbook.core : (u.core c).sansBooks.vx = (s.core c).sansBooks.vx)
  refine ⟨(upCore_base ..).trans hdone.same.base, ?_, ?_, fun n hn => ?_, ?_, ?_⟩
  · rw [leaveVector, upCore_core, if_pos rfl]
  · rw [leaveVector, upCore_core, if_pos rfl, ← hvx, ← hdone.descriptors]
  · rw [leaveVector, upCore_core, if_neg hn, hdone.same.others n hn, hbook.others n hn]
  · rw [leaveVector, upCore_core, if_pos rfl, ← hbook.acc, ← hdone.acc]
  · rw [leaveVector, upCore_core, if_pos rfl, ← hseq, ← hdone.seq]

/-- R258: what a mismatch leaves after the rows before it. -/
theorem vecMismatch_of_done (e : QEntry) (lane : Nat) (hlive : s.lives e.owner.job = true) :
    (vecMismatch t c e lane).base = u.base ∧
      ((vecMismatch t c e lane).core c).vx.residue = (s.core c).vx.residue + 1 ∧
      ((vecMismatch t c e lane).core c).mx.residue = (s.core c).mx.residue + 1 ∧
      (t = u → ∀ n, ((vecMismatch t c e lane).core c).scratch.word n = (s.core c).scratch.word n) ∧
      ∃ j, (vecMismatch t c e lane).job e.owner.job = some j ∧ j.status = some stArith := by
  have hvx : (u.core c).vx = (s.core c).vx :=
    (congrArg Core.vx hbook.core : (u.core c).sansBooks.vx = (s.core c).sansBooks.vx)
  obtain ⟨hbase, hpad, hmx, hres, hjob⟩ := vecMismatch_spec t c e lane
    ((hdone.same.lives _).trans ((lives_of_jobs hbook.jobs _).trans hlive))
  refine ⟨hbase.trans hdone.same.base, ?_, ?_, fun htu n => ?_, hjob⟩
  · rw [hres, hdone.residue, hvx]
  · rw [hmx, hdone.mx, hbook.mx]
  · rw [hpad, htu, hbook.scratch]

end

/-! ### The ops of the table -/

/-- The ops of the vector engine with their commands, which name the row and the lane of a mismatch where residues check the
op (R258). -/
def vecOps (c : CoreId) : List (Nat × (Option (Nat × Nat) → Instr)) := [
  (0x01, fun b => .vecAdd c b), (0x02, fun b => .vecSub c b), (0x03, fun b => .vecMul c b), (0x04, fun b => .vecAxpy c b),
  (0x05, fun _ => .vecMax c), (0x06, fun _ => .vecMin c), (0x07, fun b => .vecAbs c b), (0x08, fun b => .vecNeg c b),
  (0x09, fun _ => .vecRelu c), (0x0A, fun _ => .vecClamp c), (0x0B, fun b => .vecRecip c b),
  (0x10, fun _ => .vecCmpEq c), (0x11, fun _ => .vecCmpNe c), (0x12, fun _ => .vecCmpLt c), (0x13, fun _ => .vecCmpLe c),
  (0x14, fun _ => .vecSelect c), (0x20, fun b => .vecExp c b), (0x21, fun b => .vecLog c b),
  (0x22, fun b => .vecSigmoid c b), (0x23, fun b => .vecTanh c b), (0x24, fun b => .vecRsqrt c b),
  (0x30, fun b => .vecRsum c b), (0x31, fun _ => .vecRmax c), (0x32, fun _ => .vecRmin c),
  (0x40, fun b => .vecConvert c b), (0x41, fun b => .vecQuant c b), (0x50, fun _ => .vecCompress c),
  (0x51, fun _ => .vecExpand c), (0x60, fun _ => .vecTopk c)]

/-- A command runs the head of the queue under its op, with the mismatch that it names. -/
def RunsOp (c : CoreId) (p : Nat × (Option (Nat × Nat) → Instr)) : Prop :=
  ∀ bad s, p.2 bad = p.2 none ∧ bad ≠ none ∨ exec (p.2 bad) s = .next (vecRun c p.1 bad s)

theorem runsOp_of_exec {c : CoreId} {op : Nat} {f : Option (Nat × Nat) → Instr}
    (h : ∀ bad s, exec (f bad) s = .next (vecRun c op bad s)) : RunsOp c (op, f) := fun bad s => .inr (h bad s)

theorem runsOp_of_unchecked {c : CoreId} {op : Nat} {i : Instr} (h : ∀ s, exec i s = .next (vecRun c op none s)) :
    RunsOp c (op, fun _ => i)
  | none, s => .inr (h s)
  | some _, _ => .inl ⟨rfl, nofun⟩

theorem vecOps_run (c : CoreId) : ∀ p ∈ vecOps c, RunsOp c p := by
  have checked {op f} := @runsOp_of_exec c op f
  have free {op i} := @runsOp_of_unchecked c op i
  simp only [vecOps, List.forall_mem_cons]
  exact ⟨checked fun _ _ => rfl, checked fun _ _ => rfl, checked fun _ _ => rfl, checked fun _ _ => rfl,
    free fun _ => rfl, free fun _ => rfl, checked fun _ _ => rfl, checked fun _ _ => rfl,
    free fun _ => rfl, free fun _ => rfl, checked fun _ _ => rfl,
    free fun _ => rfl, free fun _ => rfl, free fun _ => rfl, free fun _ => rfl,
    free fun _ => rfl, checked fun _ _ => rfl, checked fun _ _ => rfl,
    checked fun _ _ => rfl, checked fun _ _ => rfl, checked fun _ _ => rfl,
    checked fun _ _ => rfl, free fun _ => rfl, free fun _ => rfl,
    checked fun _ _ => rfl, checked fun _ _ => rfl, free fun _ => rfl,
    free fun _ => rfl, free fun _ => rfl, nofun⟩

section
variable {c : CoreId} {op : Nat} {i : Option (Nat × Nat) → Instr} (h : (op, i) ∈ vecOps c)
include h

theorem exec_vecOp (s : State) : exec (i none) s = .next (vecRun c op none s) :=
  (vecOps_run c _ h none s).resolve_left fun h0 => h0.2 rfl

theorem exec_vecOp_of_checked {bad : Option (Nat × Nat)} (hbad : i bad ≠ i none) (s : State) :
    exec (i bad) s = .next (vecRun c op bad s) :=
  (vecOps_run c _ h bad s).resolve_left fun h0 => hbad h0.1

end

/-- Settles O40: each op's command runs the head of the queue, by its refusals and its rows; a descriptor that reads no poison
by what its rows leave up to its end or to its mismatch. -/
theorem vectorOps : Obligations.VectorOps := by
  unfold Obligations.VectorOps
  intro s c e l hp hq hdesc
  dsimp only
  intro op i hmem
  have hrun := exec_vecOp hmem s
  refine ⟨fun hop hk => ?other, fun st hop hst => ?refused, fun k hop hok hk hbad => ?badBook, fun k hop hok hk hbooks =>
    ⟨fun hall => ?all, fun hstop => ?stopped, fun hs ha hb => ?readable⟩⟩
  case other => rw [hrun, vecRun_of_other_op hp hq hdesc hop hk]
  case refused => rw [hrun, vecRun_of_refused hp hq hdesc hop hst]
  case badBook => rw [hrun, vecRun_of_bad_book hp hq hdesc hop hok hk hbad]
  case all =>
    exact hrun.trans (congrArg _ (vecRun_of_all_rows hp hq hdesc hop hok hk hbooks (Prod.ext rfl hall)))
  case stopped =>
    exact hrun.trans (congrArg _ (vecRun_of_stopped hp hq hdesc hop hok hk hbooks (Prod.ext rfl hstop)))
  case readable =>
    have hrows : ∀ r < (parseVec (pdata e.desc)).rows, (parseVec (pdata e.desc)).rowReadable k s c r :=
      fun r hr => ⟨fun p hp => ha r p hr hp, fun hB p hp => hb hB r p hr hp⟩
    have hbook := coreCbs_booked c ((parseVec (pdata e.desc)).cbs k) s
    refine ⟨?ends, fun row lane j hbad hrow hlane hj hlive => ?mismatch⟩
    case ends =>
      obtain ⟨t, ht, hdone⟩ := headRows_of_readable hs hrows
      exact ⟨leaveVector t c l,
        hrun.trans (congrArg _ (vecRun_of_all_rows hp hq hdesc hop hok hk hbooks ht)), leaveVector_spec hbook hdone l⟩
    case mismatch =>
      obtain ⟨t, ht, hdone, hfirst⟩ := headRows_of_mismatch hs hrows hrow hlane
      obtain ⟨hbase, hvx, hmx, hword, hjob⟩ :=
        vecMismatch_of_done hbook hdone e lane (by simp [State.lives, hj, hlive])
      exact ⟨vecMismatch t c e lane, (exec_vecOp_of_checked hmem hbad s).trans
        (congrArg _ (vecRun_of_stopped hp hq hdesc hop hok hk hbooks ht)), hbase, hvx, hmx, fun h0 => hword (hfirst h0), hjob⟩

end Sys2Proof.Machine
end

section
/-!
A row over a scratchpad whose list of syndromes names a word twice (R259, R271, R373).
-/
namespace Sys2Proof.Machine

/-- A scratchpad that lists word 0 twice: with a syndrome that a read corrects, and with one that it cannot (R373).  The list is
not in the canonical form that writes keep. -/
def twiceListed : Mem := { syn := [(0, 0x01), (0, 0x03)] }

theorem twiceListed_wf : twiceListed.wf = false := by decide

/-- The range holds poison by its second entry, until the read of word 0 by its first entry removes both. -/
theorem twiceListed_poisoned : twiceListed.poisoned 0 4 = true ∧ (twiceListed.settle 0).poisoned 0 4 = false := by decide

/-- Core 0 holds that scratchpad. -/
def twiceListedState : State := { cores := [(0, { scratch := twiceListed })] }

/-- SELECT of one row of one FP32 element, from streams at 0 and 4096 to 8192 (R234, R235). -/
def selectOne : VecD :=
  parseVec [0x1400000000000000, 0x0000100010000000, 0x0000100010001000, 0x0000100010002000, 0, 0, 0, 0]

/-- The row of a descriptor that has not begun to walk scale blocks. -/
def freshRun : VecRun := { walk := { next := 0, addr := 0 }, scales := [] }

def jobZero : Owner := ⟨0, 0, 0, true, false⟩

theorem selectOne_parts : selectOne.a.parts 0 selectOne.cols = [(0, 4)] := by decide

/-- The row reads both streams and runs through. -/
theorem rowSelect_twiceListed :
    (rowSelect twiceListedState 0 jobZero selectOne 0 freshRun).2.toOption = some freshRun := by decide

/-- Refutes O41: in a state whose scratchpad lists word 0 twice, a row of SELECT begins over a range with poison and runs through
all the same.  The statement asks no canonical form of the state; reading word 0 corrects it by its first entry, and with
that removes the entry that made the range poisoned. -/
theorem not_vectorRows : ¬ Obligations.VectorRows := by
  unfold Obligations.VectorRows
  intro h
  obtain ⟨⟨-, -, -, -, hpoison⟩, -⟩ := h twiceListedState 0 jobZero selectOne 0 freshRun
  obtain ⟨t, -, hselect, -⟩ := hpoison (0, 4) (by rw [selectOne_parts]; exact List.mem_cons_self) twiceListed_poisoned.1
  have hthrough := rowSelect_twiceListed
  rw [hselect] at hthrough
  cases hthrough

end Sys2Proof.Machine
end

section
/-!
Ops of a core's sequencer (R276 to R279, R285): the fetch of an op, what a scalar op writes, and a failed residue check
(R397, R399).
-/
namespace Sys2Proof.Machine

/-! ### Fetch (R276) -/

theorem running_eq_some {s : State} {c : Nat} {v : Invocation} :
    s.running c = some v ↔ (s.core c).seq = some v ∧ v.wait = .running := by
  unfold State.running
  cases (s.core c).seq with
  | none => simp
  | some u => by_cases hu : u.wait = .running <;> simp [hu] <;> rintro rfl <;> simp [hu]

/-- A word of the store with syndrome 0 is fetched as it stands. -/
theorem fetchStore_of_clean {s : State} {c bank n : Nat} (o : Owner)
    (h : Tbl.get 0 (s.core c).storeSyn (32768 * bank + n) = 0) :
    fetchStore s c bank n o = (s, some (Tbl.get 0 s.routines.words (32768 * bank + n))) := by
  have hfix : synFixes 0#8 = false := by decide
  have hbad : synBad 0#8 = false := by decide
  have h0 : Tbl.get (0#8) (s.core c).storeSyn (32768 * bank + n) = 0#8 := h
  simp [fetchStore, h0, hfix, hbad]

/-- The state once core c's sequencer has counted an op (R303). -/
def State.opCounted (s : State) (c : Nat) : State := upCore s c (fun k => { k with sq := { k.sq with ops := k.sq.ops + 1 } })

theorem opCounted_core (s : State) (c k : Nat) : (s.opCounted c).core k =
    if k = c then { s.core c with sq := { (s.core c).sq with ops := (s.core c).sq.ops + 1 } } else s.core k := upCore_core ..

theorem upSeq_core (s : State) (c k : Nat) (f : Invocation → Invocation) : (upSeq s c f).core k =
    if k = c then { s.core c with seq := (s.core c).seq.map f } else s.core k := upCore_core ..

/-- Core c's sequencer has an op in hand: its invocation goes on with `f`, and nothing else of it changes. -/
theorem upSeq_core_self {s : State} {c : Nat} {v : Invocation} (h : (s.core c).seq = some v) (f : Invocation → Invocation) :
    (upSeq s c f).core c = { s.core c with seq := some (f v) } := by
  rw [upSeq_core, if_pos rfl, h]
  rfl

theorem upSeq_core_ne {s : State} {c k : Nat} (h : k ≠ c) (f : Invocation → Invocation) :
    (upSeq s c f).core k = s.core k := by
  rw [upSeq_core, if_neg h]

section
variable {s : State} {c : CoreId} {v : Invocation} {w : Word} (h : s.atOp c v w)
include h

theorem seq_of_atOp : (s.core c).seq = some v := (running_eq_some.1 h.2.1).1

/-- The op that a sequencer stands at is counted and performed. -/
theorem seqOp_of_atOp {code : Nat} (hcode : opCode w = code) (f : Invocation → Word → State → State) :
    seqOp s c code f = f v w (s.opCounted c) := by
  obtain ⟨hpow, hrun, hword, hsyn, hholds⟩ := h
  have hop : (s.opAt c v).1 = code := by rw [State.opAt, hword, hcode]
  unfold seqOp
  rw [whenPowered_of_powered hpow]
  simp only [hrun, hop, true_or, if_true, fetchStore_of_clean v.owner hsyn, hword, hholds]
  rfl

theorem opCounted_seq : ((s.opCounted c).core c).seq = some v := by
  rw [opCounted_core, if_pos rfl]
  exact seq_of_atOp h

/-! ### Scalar ops (R277 to R279) -/

/-- A scalar op whose result is right writes it to DST and goes on. -/
theorem scalar_of_atOp {i : Instr} {code : Nat} {g : Invocation → Word → Word}
    (hexec : exec i s = .next (scalar s c code false g)) (hcode : opCode w = code) :
    ∃ t, exec i s = .next t ∧ t.core c = (s.core c).ran ((v.setReg (Invocation.dst w) (g v w)).after v.pc) ∧
      (∀ k, k ≠ c.val → t.core k = s.core k) ∧ t = { s with cores := t.cores } := by
  have hpc : (v.setReg (Invocation.dst w) (g v w)).pc = v.pc := by
    unfold Invocation.setReg
    split <;> rfl
  have hset := upSeq_core_self (opCounted_seq h) (fun x => x.setReg (Invocation.dst w) (g v w))
  refine ⟨seqNext (upSeq (s.opCounted c) c (fun x => x.setReg (Invocation.dst w) (g v w))) c, ?_, ?_, fun k hk => ?_, rfl⟩
  · rw [hexec, scalar, seqOp_of_atOp h hcode]
    rfl
  · rw [seqNext, upSeq_core_self (congrArg Core.seq hset), hset, opCounted_core, if_pos rfl, hpc]
    rfl
  · rw [seqNext, upSeq_core_ne hk, upSeq_core_ne hk, opCounted_core, if_neg hk]

/-- R397, R399: a scalar op whose result its residue shows to be wrong ends its job with ST_ARITH, and no job lives. -/
theorem scalar_of_mismatch {i : Instr} {code : Nat} {g : Invocation → Word → Word} {j : Job}
    (hj : s.job v.owner.job = some j) (hlive : j.status = none)
    (hexec : exec i s = .next (scalar s c code true g)) (hcode : opCode w = code) :
    ∃ t, exec i s = .next t ∧ t.base = s.base ∧ t.evSeq = s.evSeq + 3 ∧ (∀ id, t.lives id = false) ∧
      ∃ j', t.job v.owner.job = some j' ∧ j'.status = some stArith := by
  have hlives : (s.opCounted c).lives v.owner.job = true := by
    have : s.lives v.owner.job = true := by simp [State.lives, hj, hlive]
    exact this
  obtain ⟨-, -, hnone, hev⟩ := arithFault_spec (s.opCounted c) v.owner unitSequencer c 0 0
  refine ⟨arithFault (s.opCounted c) v.owner unitSequencer c 0 0, ?_, arithFault_base .., hev, hnone,
    arithFault_job hlives ..⟩
  rw [hexec, scalar, seqOp_of_atOp h hcode]
  rfl

end

/-- What DST can name: an S register takes the value, any other code leaves every register. -/
theorem setReg_reg (v : Invocation) (code k : Nat) (x : Word) : (v.setReg code x).reg k =
    if k = code ∧ 16 ≤ code ∧ code < 31 then x else v.reg k := by
  unfold Invocation.setReg
  split
  next hs =>
    simp only [Invocation.reg, Invocation.level, Tbl.get_set, hs, and_self, and_true]
    by_cases hk : k = code
    · rw [if_neg (by omega), if_neg (by omega), if_pos (by omega), if_pos hk, if_pos hk]
    · rw [if_neg hk, if_neg hk]
  next hs => rw [if_neg (fun h => hs h.2)]

/-- A scalar op of the table of R279: whether residues check it (R397), its command, its code and its result. -/
structure ScalarOp where
  checked : Bool
  instr   : Instr
  code    : Nat
  result  : Invocation → Word → Word

/-- The scalar ops, with the mismatch that the commands name of those that residues check. -/
def scalarOps (c : CoreId) (bad : Bool) : List ScalarOp := [
  ⟨false, .seqMovi c, 0x10, fun _ w => immS w⟩,
  ⟨false, .seqMovhi c, 0x11, fun v w => (w.extractLsb' 0 32).zeroExtend 64 <<< 32 |||
    ((v.reg (Invocation.dst w)).extractLsb' 0 32).zeroExtend 64⟩,
  ⟨false, .seqMov c, 0x12, fun v w => v.src1 w⟩,
  ⟨true, .seqAdd c bad, 0x13, fun v w => v.src1 w + v.src2 w⟩,
  ⟨true, .seqSub c bad, 0x14, fun v w => v.src1 w - v.src2 w⟩,
  ⟨true, .seqMul c bad, 0x15, fun v w => v.src1 w * v.src2 w⟩,
  ⟨true, .seqAnd c bad, 0x16, fun v w => v.src1 w &&& v.src2 w⟩,
  ⟨true, .seqOr c bad, 0x17, fun v w => v.src1 w ||| v.src2 w⟩,
  ⟨true, .seqXor c bad, 0x18, fun v w => v.src1 w ^^^ v.src2 w⟩,
  ⟨true, .seqShl c bad, 0x19, fun v w => v.src1 w <<< shamt (v.src2 w)⟩,
  ⟨true, .seqShr c bad, 0x1A, fun v w => v.src1 w >>> shamt (v.src2 w)⟩,
  ⟨true, .seqSra c bad, 0x1B, fun v w => (v.src1 w).sshiftRight (shamt (v.src2 w))⟩,
  ⟨false, .seqMin c, 0x1C, fun v w => sminW (v.src1 w) (v.src2 w)⟩,
  ⟨false, .seqMax c, 0x1D, fun v w => smaxW (v.src1 w) (v.src2 w)⟩,
  ⟨true, .seqAddi c bad, 0x1E, fun v w => v.src1 w + immS w⟩,
  ⟨true, .seqMuli c bad, 0x1F, fun v w => v.src1 w * immS w⟩,
  ⟨true, .seqMadi c bad, 0x20, fun v w => v.src1 w + v.src2 w * immS w⟩,
  ⟨true, .seqShli c bad, 0x21, fun v w => v.src1 w <<< shamt (immS w)⟩,
  ⟨true, .seqShri c bad, 0x22, fun v w => v.src1 w >>> shamt (immS w)⟩,
  ⟨true, .seqAndi c bad, 0x23, fun v w => v.src1 w &&& (w.extractLsb' 0 32).zeroExtend 64⟩]

/-- Each command of the table runs the scalar op that the table gives it. -/
theorem exec_scalarOp (c : CoreId) (bad : Bool) (s : State) :
    ∀ p ∈ scalarOps c bad, exec p.instr s = .next (scalar s c p.code (p.checked && bad) p.result) := by
  simp only [scalarOps, List.forall_mem_cons]
  exact ⟨rfl, rfl, rfl, rfl, rfl, rfl, rfl, rfl, rfl, rfl, rfl, rfl, rfl, rfl, rfl, rfl, rfl, rfl, rfl, rfl, nofun⟩

/-- Settles O35: each op of the statement's lists is a scalar op of the table, with its result there. -/
theorem seqScalar : Obligations.SeqScalar := by
  unfold Obligations.SeqScalar
  refine ⟨fun s c v w h => ?right, setReg_reg, fun s c v w j h hj hlive i code hmem hcode => ?wrong⟩
  case right =>
    intro a b imm table i code x hmem hcode
    have htable : table = (scalarOps c false).map fun p => (p.instr, p.code, p.result v w) := rfl
    rw [htable] at hmem
    obtain ⟨p, hp, hpx⟩ := List.mem_map.1 hmem
    obtain ⟨rfl, rfl, rfl⟩ : p.instr = i ∧ p.code = code ∧ p.result v w = x := by simpa using hpx
    refine scalar_of_atOp h ?_ hcode
    rw [exec_scalarOp c false s p hp, Bool.and_false]
  case wrong =>
    have hmem' : (i, code) ∈ ((scalarOps c true).filter ScalarOp.checked).map fun p => (p.instr, p.code) := hmem
    obtain ⟨p, hp, hpx⟩ := List.mem_map.1 hmem'
    obtain ⟨rfl, rfl⟩ : p.instr = i ∧ p.code = code := by simpa using hpx
    obtain ⟨hp, hchecked⟩ := List.mem_filter.1 hp
    refine scalar_of_mismatch h (g := p.result) hj hlive ?_ hcode
    rw [exec_scalarOp c true s p hp, hchecked, Bool.and_true]

end Sys2Proof.Machine
end

section
/-!
Descriptors that a sequencer issues (R264, R265, R286): an ISSUE op, and one that waited.
-/
namespace Sys2Proof.Machine

/-! ### What a read of the scratchpad leaves -/

/-- The state without its cores and what `State.still` leaves out: what a read of a scratchpad leaves as it was. -/
def State.sansCores (s : State) : State := { s.still with cores := [] }

section
variable {s t : State}

theorem sansCores_of_still (h : t.still = s.still) : t.sansCores = s.sansCores := by
  unfold State.sansCores
  rw [h]

theorem freeCtr_of_sansCores (h : t.sansCores = s.sansCores) : t.freeCtr = s.freeCtr :=
  (congrArg State.freeCtr h : t.sansCores.freeCtr = s.sansCores.freeCtr)

theorem dram_of_sansCores (h : t.sansCores = s.sansCores) : t.dram = s.dram :=
  (congrArg State.dram h : t.sansCores.dram = s.sansCores.dram)

theorem jobs_of_sansCores (h : t.sansCores = s.sansCores) : t.jobs = s.jobs :=
  (congrArg State.jobs h : t.sansCores.jobs = s.sansCores.jobs)

theorem base_of_sansCores (h : t.sansCores = s.sansCores) : t.base = s.base :=
  (congrArg State.base h : t.sansCores.base = s.sansCores.base)

theorem sched_of_sansCores (h : t.sansCores = s.sansCores) : t.sched = s.sched :=
  (congrArg State.sched h : t.sansCores.sched = s.sansCores.sched)

end

theorem upCore_sansCores (s : State) (c : Nat) (f : Core → Core) : (upCore s c f).sansCores = s.sansCores := rfl

theorem spTouch_sansCores (s : State) (c a n : Nat) : (spTouch s c a n).sansCores = s.sansCores := by
  unfold spTouch
  refine forL_induct (P := fun t => t.sansCores = s.sansCores) (fun e t h => ?_) rfl
  dsimp only
  split
  · exact h
  · split
    · exact (sansCores_of_still (uePoison_still ..)).trans h
    · exact h

/-- A read of the scratchpad leaves its core but for the scratchpad and the record of its errors. -/
theorem spTouch_sansPad (s : State) (c a n : Nat) : ((spTouch s c a n).core c).sansPad = (s.core c).sansPad :=
  (spTouch_sameUnder s c a n).core

theorem queue_of_sansPad {k l : Core} (h : k.sansPad = l.sansPad) (q : Nat) : k.queue q = l.queue q :=
  (congrArg (fun x => Core.queue x q) h : k.sansPad.queue q = l.sansPad.queue q)

theorem seq_of_sansPad {k l : Core} (h : k.sansPad = l.sansPad) : k.seq = l.seq :=
  (congrArg Core.seq h : k.sansPad.seq = l.sansPad.seq)

/-! ### Capture (R265, R286) -/

theorem setQueue_queue (k : Core) (q : Nat) (l : List QEntry) : (k.setQueue q l).queue q = l := by
  match q with
  | 0 | 1 | 2 | 3 | _ + 4 => rfl

theorem setQueue_seq (k : Core) (q : Nat) (l : List QEntry) : (k.setQueue q l).seq = k.seq := by
  unfold Core.setQueue
  split <;> rfl

theorem setQueue_scratch (k : Core) (q : Nat) (l : List QEntry) : (k.setQueue q l).scratch = k.scratch := by
  unfold Core.setQueue
  split <;> rfl

/-- A queue's copy of the descriptor at `a` in core c's scratchpad. -/
def State.copyOf (s : State) (c a : Nat) (o : Owner) : QEntry := ⟨(s.core c).scratch.words (a / 8) 8, a, o, false, 0⟩

/-- What an invocation `v` leaves when queue q of core c takes a copy of the descriptor at `a`. -/
structure State.Captured (c q a : Nat) (v : Invocation) (s t : State) : Prop where
  sansCores : t.sansCores = s.sansCores
  others : ∀ k, k ≠ c → t.core k = s.core k
  word : ∀ n, (t.core c).scratch.word n = (s.core c).scratch.word n
  queue : (t.core c).queue q = (s.core c).queue q ++ [s.copyOf c a v.owner]
  seq : (t.core c).seq = some (v.after v.pc)

/-- A capture reads the descriptor, and the sequencer goes on. -/
theorem capture_eq (s : State) (c q a : Nat) (v : Invocation) : capture s c q a v =
    seqNext (upCore (spTouch s c a 64) c fun k => k.setQueue q (k.queue q ++ [s.copyOf c a v.owner])) c := by
  have hdesc : (spTouch s c a 64).spW c a 8 = (s.core c).scratch.words (a / 8) 8 :=
    List.map_congr_left fun _ _ => spTouch_scratch_word ..
  unfold capture
  dsimp only
  rw [hdesc]
  rfl

theorem capture_captured {s : State} {c : Nat} {v : Invocation} (q a : Nat) (h : (s.core c).seq = some v) :
    s.Captured c q a v (capture s c q a v) := by
  have hsame := spTouch_sameUnder s c a 64
  have hput := (upCore_core (spTouch s c a 64) c c fun k =>
    k.setQueue q (k.queue q ++ [s.copyOf c a v.owner])).trans (if_pos rfl)
  have hseq := (congrArg Core.seq hput).trans ((setQueue_seq ..).trans ((seq_of_sansPad hsame.core).trans h))
  have hcore := upSeq_core_self hseq fun x => x.after x.pc
  rw [hput] at hcore
  rw [capture_eq]
  refine ⟨(upCore_sansCores ..).trans ((upCore_sansCores ..).trans (spTouch_sansCores s c a 64)), fun k hk => ?_,
    fun n => ?_, ?_, congrArg Core.seq hcore⟩
  · rw [seqNext, upSeq_core_ne hk, upCore_core, if_neg hk, hsame.others k hk]
  · refine (congrArg (fun k => Mem.word (Core.scratch k) n) hcore).trans ?_
    exact (congrArg (fun m => Mem.word m n) (setQueue_scratch ..)).trans (spTouch_scratch_word ..)
  · refine (congrArg (fun k => Core.queue k q) hcore).trans ((setQueue_queue ..).trans ?_)
    rw [queue_of_sansPad hsame.core]

/-! ### ISSUE -/

/-- An ISSUE op whose range lies in the scratchpad captures its descriptor, or waits while its queue is full. -/
theorem issueOp_of_atOp {s : State} {c : CoreId} {v : Invocation} {w : Word} (h : s.atOp c v w)
    (hrange : spRange (v.addr w) 64 64 = true) {code : Nat} (hcode : opCode w = code) (q : Nat) :
    issueOp s c code q = if ((s.core c).queue q).length < queueDepth q then capture (s.opCounted c) c q (v.addr w) v
      else upSeq (s.opCounted c) c (fun x => { x with wait := .issue q (v.addr w) }) := by
  have hqueue : ((s.opCounted c).core c).queue q = (s.core c).queue q := by
    rw [opCounted_core, if_pos rfl]
    rfl
  rw [issueOp, seqOp_of_atOp h hcode]
  dsimp only
  rw [hrange, Bool.not_true, if_neg Bool.false_ne_true, hqueue]

theorem issueOp_spec {s : State} {c : CoreId} {v : Invocation} {w : Word} (h : s.atOp c v w)
    (hrange : spRange (v.addr w) 64 64 = true) {code : Nat} (hcode : opCode w = code) {q : Nat} {i : Instr}
    (hexec : exec i s = .next (issueOp s c code q)) :
    ∃ t, exec i s = .next t ∧ t.base = s.base ∧ (∀ k, k ≠ c.val → t.core k = s.core k) ∧
      (∀ n, (t.core c).scratch.word n = (s.core c).scratch.word n) ∧
      (((s.core c).queue q).length < queueDepth q →
        (t.core c).queue q = (s.core c).queue q ++ [s.copyOf c (v.addr w) v.owner] ∧ (t.core c).seq = some (v.after v.pc)) ∧
      (queueDepth q ≤ ((s.core c).queue q).length →
        (t.core c).queue q = (s.core c).queue q ∧ (t.core c).seq = some { v with wait := .issue q (v.addr w) }) := by
  have hself := (opCounted_core s c c).trans (if_pos rfl)
  have hother : ∀ k, k ≠ c.val → (s.opCounted c).core k = s.core k := fun k hk => (opCounted_core s c k).trans (if_neg hk)
  refine ⟨_, hexec, ?_⟩
  rw [issueOp_of_atOp h hrange hcode]
  split
  next hroom =>
    obtain ⟨hcores, hothers, hword, hqueue, hseq⟩ := capture_captured q (v.addr w) (opCounted_seq h)
    rw [State.copyOf, hself] at hqueue
    rw [hself] at hword
    exact ⟨base_of_sansCores hcores, fun k hk => (hothers k hk).trans (hother k hk), hword,
      fun _ => ⟨hqueue, hseq⟩, fun hfull => absurd hroom (by omega)⟩
  next hfull =>
    have hwait := upSeq_core_self (opCounted_seq h) fun x => { x with wait := .issue q (v.addr w) }
    rw [hself] at hwait
    refine ⟨rfl, fun k hk => (upSeq_core_ne hk _).trans (hother k hk), fun n => ?_, fun hroom => absurd hroom hfull,
      fun _ => ⟨?_, ?_⟩⟩
    · rw [hwait]
    · rw [hwait]
      rfl
    · rw [hwait]

/-! ### An ISSUE that waited (R286) -/

/-- The steps that an op waited are counted, and nothing else of the state or of a core changes. -/
theorem stalled_core (s : State) (c k : Nat) : (stalled s c).core k = if k = c then
    { s.core c with sq := { (s.core c).sq with stall := (s.core c).sq.stall + Config.freeValue s.freeCtr } } else s.core k :=
  upCore_core ..

theorem stalled_core_ne {s : State} {c k : Nat} (h : k ≠ c) : (stalled s c).core k = s.core k :=
  (stalled_core s c k).trans (if_neg h)

theorem stalled_sansCores (s : State) (c : Nat) : (stalled s c).sansCores = { s.sansCores with freeCtr := s.freeCtr + 1 } := rfl

/-- An ISSUE that waited captures its descriptor once its queue has room. -/
theorem issueCapture_of_room {s : State} {c : CoreId} {v : Invocation} {q a : Nat} (hpow : s.powered = true)
    (hseq : (s.core c).seq = some v) (hwait : v.wait = .issue q a) (hroom : ((s.core c).queue q).length < queueDepth q) :
    exec (.issueCapture c) s = .next (capture (stalled s c) c q a v) := by
  have hexec : exec (.issueCapture c) s = execIssueCapture c s := rfl
  rw [hexec, execIssueCapture, whenPowered_of_powered hpow]
  simp only [hseq, hwait, if_pos hroom]

end Sys2Proof.Machine
end

section
/-!
Invocations of a core's sequencer from CALL to RET (R290, R291, R448 to R456), and the live regions of jobs (R449 to R454).
-/
namespace Sys2Proof.Machine

/-! ### The start of a CALL (R290, R291) -/

/-- The invocation that a CALL starts, by its directory entry. -/
def PendCall.start (p : PendCall) (entry : Word) : Invocation :=
  ⟨p.owner, p.bank, p.routine, fld entry 62 48, p.args, [], [], .running⟩

theorem settleOn_eq (s : State) (c id : Nat) : ∃ cs, settleOn s c id = { s with cores := cs } ∧
    ∀ k, ∃ r, Tbl.get {} cs k = { s.core k with resident := r } ∧ (k ≠ c → r = (s.core k).resident) := by
  unfold settleOn
  split
  · exact ⟨s.cores, rfl, fun k => ⟨(s.core k).resident, rfl, fun _ => rfl⟩⟩
  · refine ⟨_, rfl, fun k => ?_⟩
    rw [Tbl.get_upd]
    split
    next hk => exact ⟨some id, by rw [hk]; rfl, fun h => absurd hk h⟩
    next => exact ⟨(s.core k).resident, rfl, fun _ => rfl⟩

/-- A CALL whose directory entry is fetched without error starts at its routine's first op; of its core only the invocation and
the resident job change, and of the rest only the jobs. -/
theorem beginCall_of_clean {s : State} {c : Nat} {p : PendCall}
    (h : Tbl.get 0 (s.core c).storeSyn (32768 * p.bank + p.routine) = 0) :
    ∃ cs js, beginCall s c p = { s with cores := cs, jobs := js } ∧ (∀ k, k ≠ c → Tbl.get {} cs k = s.core k) ∧
      ∃ r, Tbl.get {} cs c = { s.core c with
        seq := some (p.start (Tbl.get 0 s.routines.words (32768 * p.bank + p.routine))), resident := r } := by
  obtain ⟨cs, hcs, hcore⟩ := settleOn_eq (upCore s c fun k => { k with
    seq := some (p.start (Tbl.get 0 s.routines.words (32768 * p.bank + p.routine))) }) c p.owner.job
  have hbegin : beginCall s c p = cmdMark (settleOn (upCore s c fun k => { k with
      seq := some (p.start (Tbl.get 0 s.routines.words (32768 * p.bank + p.routine))) }) c p.owner.job) p.owner .running := by
    rw [beginCall, fetchStore_of_clean p.owner h]
    rfl
  rw [hbegin, hcs]
  refine ⟨cs, _, rfl, fun k hk => ?_, ?_⟩
  · obtain ⟨r, hr, hsame⟩ := hcore k
    rw [hr, hsame hk, upCore_core, if_neg hk]
  · obtain ⟨r, hr, -⟩ := hcore c
    refine ⟨r, ?_⟩
    rw [hr, upCore_core, if_pos rfl]

theorem forL_preempt_eq (l : List Nat) (s : State) :
    ∃ js sc, forL l (fun id s => preempt s id) s = { s with jobs := js, sched := sc } :=
  forL_induct (P := fun t => ∃ js sc, t = { s with jobs := js, sched := sc })
    (fun _ _ ⟨_, _, ht⟩ => ht ▸ ⟨_, _, rfl⟩) ⟨s.jobs, s.sched, rfl⟩

section
variable {s : State} {c : CoreId} {p : PendCall} {rest : List PendCall} (hpow : s.powered = true)
  (hseq : (s.core c).seq = none) (hmay : s.mayBegin c p.owner.job = true)
  (hsyn : Tbl.get 0 (s.core c).storeSyn (32768 * p.bank + p.routine) = 0)
include hpow hseq

/-- R456: a BE CALL does not start while its hedge holds BE work. -/
theorem callStart_of_held (hlc : (s.core c).callsLc = [])
    (hbe : (s.core c).callsBe = p :: rest) (hheld : (s.hedge (c / 6)).beHeld = true) :
    exec (.sequencerCallStart c) s = .next (delayStart s c) := by
  have hexec : exec (.sequencerCallStart c) s = execSequencerCallStart c s := rfl
  rw [hexec, execSequencerCallStart, whenPowered_of_powered hpow]
  simp only [hseq, hlc, hbe, hheld, Option.isSome_none, Bool.false_eq_true, if_false, if_true]

include hmay

theorem callStart_lc_eq (hlc : (s.core c).callsLc = p :: rest) :
    exec (.sequencerCallStart c) s = .next (beginCall (forL (s.core c).waitingJobs (fun id s => preempt s id)
      (upCore s c fun k => { k with callsLc := rest })) c p) := by
  have hexec : exec (.sequencerCallStart c) s = execSequencerCallStart c s := rfl
  rw [hexec, execSequencerCallStart, whenPowered_of_powered hpow]
  simp only [hseq, hlc, hmay, Option.isSome_none, Bool.false_eq_true, if_false, if_true]

theorem callStart_be_eq (hlc : (s.core c).callsLc = [])
    (hbe : (s.core c).callsBe = p :: rest) (hheld : (s.hedge (c / 6)).beHeld = false) :
    exec (.sequencerCallStart c) s = .next (beginCall (upCore s c fun k => { k with callsBe := rest }) c p) := by
  have hexec : exec (.sequencerCallStart c) s = execSequencerCallStart c s := rfl
  rw [hexec, execSequencerCallStart, whenPowered_of_powered hpow]
  simp only [hseq, hlc, hbe, hheld, hmay, Option.isSome_none, Bool.false_eq_true, if_false, if_true]

include hsyn

/-- R291, R448: the oldest LC CALL starts; the BE jobs that wait there count as pre-empted. -/
theorem callStart_lc (hlc : (s.core c).callsLc = p :: rest) :
    ∃ t, exec (.sequencerCallStart c) s = .next t ∧ (t.core c).callsLc = rest ∧
      (t.core c).seq = some (p.start (Tbl.get 0 s.routines.words (32768 * p.bank + p.routine))) ∧
      (∀ k, k ≠ c.val → t.core k = s.core k) ∧ t.dram = s.dram ∧ t.hedges = s.hedges := by
  have htake := (upCore_core s c c fun k => { k with callsLc := rest }).trans (if_pos rfl)
  obtain ⟨js, sc, hpre⟩ := forL_preempt_eq (s.core c).waitingJobs (upCore s c fun k => { k with callsLc := rest })
  obtain ⟨cs, js', hbegin, hother, r, hcore⟩ := beginCall_of_clean (c := c) (p := p)
    (s := { upCore s c (fun k => { k with callsLc := rest }) with jobs := js, sched := sc })
    ((congrArg (fun k => Tbl.get 0 (Core.storeSyn k) (32768 * p.bank + p.routine)) htake).trans hsyn)
  have hcore' := hcore.trans (congrArg (fun k => ({ k with seq := some (p.start
    (Tbl.get 0 s.routines.words (32768 * p.bank + p.routine))), resident := r } : Core)) htake)
  refine ⟨_, callStart_lc_eq hpow hseq hmay hlc, ?_⟩
  rw [hpre, hbegin]
  refine ⟨congrArg Core.callsLc hcore', congrArg Core.seq hcore', fun k hk => (hother k hk).trans ?_, rfl, rfl⟩
  exact (upCore_core s c k fun k => { k with callsLc := rest }).trans (if_neg hk)

/-- R291: with no LC CALL pending, the oldest BE CALL starts. -/
theorem callStart_be (hlc : (s.core c).callsLc = []) (hbe : (s.core c).callsBe = p :: rest)
    (hheld : (s.hedge (c / 6)).beHeld = false) :
    ∃ t, exec (.sequencerCallStart c) s = .next t ∧ (t.core c).callsBe = rest ∧
      (t.core c).seq = some (p.start (Tbl.get 0 s.routines.words (32768 * p.bank + p.routine))) ∧
      (∀ k, k ≠ c.val → t.core k = s.core k) ∧ t.dram = s.dram ∧ t.hedges = s.hedges ∧ t.sched = s.sched := by
  have htake := (upCore_core s c c fun k => { k with callsBe := rest }).trans (if_pos rfl)
  obtain ⟨cs, js, hbegin, hother, r, hcore⟩ := beginCall_of_clean (c := c) (p := p)
    (s := upCore s c fun k => { k with callsBe := rest })
    ((congrArg (fun k => Tbl.get 0 (Core.storeSyn k) (32768 * p.bank + p.routine)) htake).trans hsyn)
  rw [htake] at hcore
  refine ⟨_, callStart_be_eq hpow hseq hmay hlc hbe hheld, ?_⟩
  rw [hbegin]
  refine ⟨congrArg Core.callsBe hcore, congrArg Core.seq hcore, fun k hk => (hother k hk).trans ?_, rfl, rfl, rfl⟩
  exact (upCore_core ..).trans (if_neg hk)

end

/-! ### RET (R291) -/

/-- The state once core c's invocation has ended, with its waiting counted (R303). -/
def invocationEnded (s : State) (c : Nat) : State :=
  upCore (stalled s c) c fun k => { k with seq := none, sq := { k.sq with calls := k.sq.calls + 1 } }

theorem invocationEnded_core (s : State) (c : Nat) : ((invocationEnded s c).core c).seq = none ∧
    ((invocationEnded s c).core c).sq.calls = (s.core c).sq.calls + 1 := by
  unfold invocationEnded
  rw [upCore_core, if_pos rfl, stalled_core, if_pos rfl]
  exact ⟨rfl, rfl⟩

theorem invocationEnded_core_ne {s : State} {c k : Nat} (h : k ≠ c) : (invocationEnded s c).core k = s.core k :=
  (upCore_core ..).trans ((if_neg h).trans (stalled_core_ne h))

theorem cmdMark_core (s : State) (o : Owner) (st : CmdState) (k : Nat) : (cmdMark s o st).core k = s.core k := rfl

/-- A RET whose descriptors have all completed ends the invocation, and its command is done. -/
theorem invocationComplete_of_idle {s : State} {c : CoreId} {v : Invocation} (hpow : s.powered = true)
    (hseq : (s.core c).seq = some v) (hret : v.wait = .ret) (hidle : (s.core c).waitHolds v.owner 31 0 = true) :
    ∃ t, exec (.invocationComplete c) s = .next t ∧ (t.core c).seq = none ∧
      (t.core c).sq.calls = (s.core c).sq.calls + 1 ∧ t.jobs = (cmdMark s v.owner .done).jobs ∧
      t.freeCtr = s.freeCtr + 1 ∧ t.dram = s.dram ∧ (∀ k, k ≠ c.val → t.core k = s.core k) := by
  have hrun : exec (.invocationComplete c) s = .next (cmdMark (invocationEnded s c) v.owner .done) := by
    have hexec : exec (.invocationComplete c) s = execInvocationComplete c s := rfl
    rw [hexec, execInvocationComplete, whenPowered_of_powered hpow]
    simp only [hseq, hret, hidle, and_self, if_true]
    rfl
  obtain ⟨hended, hcalls⟩ := invocationEnded_core s c
  exact ⟨_, hrun, hended, hcalls, rfl, rfl, rfl, fun k hk => (cmdMark_core ..).trans (invocationEnded_core_ne hk)⟩

theorem invocationComplete_of_busy {s : State} {c : CoreId} {v : Invocation} (hpow : s.powered = true)
    (hseq : (s.core c).seq = some v) (hbusy : (s.core c).waitHolds v.owner 31 0 = false) :
    exec (.invocationComplete c) s = .next s := by
  have hexec : exec (.invocationComplete c) s = execInvocationComplete c s := rfl
  rw [hexec, execInvocationComplete, whenPowered_of_powered hpow]
  simp only [hseq, hbusy, Bool.false_eq_true, and_false, if_false]

/-! ### Live regions (R449 to R454) -/

theorem liveBase_mod (l : Nat) : liveBase l % 8 = 0 := by
  unfold liveBase scratchBytes
  omega

theorem saveByte_mod (c p l : Nat) : saveByte c p l % 8 = 0 := by
  unfold saveByte saveAt reserveAt dramBytes
  split <;> omega

/-- The state once core c's live region of l blocks lies at place p of its save area. -/
def regionSaved (s : State) (c id l p : Nat) : State :=
  upCore (dramCopy (spTouch s c (liveBase l) (65536 * l)) ((spTouch s c (liveBase l) (65536 * l)).core c).scratch (liveBase l)
    (65536 * l) (saveByte c p l)) c fun k => { k with resident := none, liveKept := k.liveKept ++ [(id, p)] }

theorem regionSaved_core (s : State) (c id l p : Nat) : (regionSaved s c id l p).core c =
    { (spTouch s c (liveBase l) (65536 * l)).core c with
      resident := none, liveKept := (s.core c).liveKept ++ [(id, p)] } := by
  have hkept : ((spTouch s c (liveBase l) (65536 * l)).core c).liveKept = (s.core c).liveKept :=
    (congrArg Core.liveKept (spTouch_sansPad s c (liveBase l) (65536 * l)) :
      ((spTouch s c (liveBase l) (65536 * l)).core c).sansPad.liveKept = (s.core c).sansPad.liveKept)
  rw [← hkept]
  exact (upCore_core ..).trans (if_pos rfl)

theorem regionSaved_core_ne (s : State) {c k : Nat} (id l p : Nat) (h : k ≠ c) : (regionSaved s c id l p).core k = s.core k :=
  (upCore_core ..).trans ((if_neg h).trans ((spTouch_sameUnder ..).others k h))

theorem regionSaved_word (s : State) (c id l p i : Nat) : (regionSaved s c id l p).dram.word i =
    if saveByte c p l / 8 ≤ i ∧ i < saveByte c p l / 8 + 8192 * l then
      (s.core c).scratch.word (liveBase l / 8 + (i - saveByte c p l / 8)) else s.dram.word i := by
  have hlen : 65536 * l / 8 = 8192 * l := by omega
  have hcopy := Mem.word_copyRange ((spTouch s c (liveBase l) (65536 * l)).core c).scratch
    (spTouch s c (liveBase l) (65536 * l)).dram (a := liveBase l) (show 65536 * l % 8 = 0 by omega) (saveByte_mod c p l) i
  rw [hlen, spTouch_scratch_word, dram_of_sansCores (spTouch_sansCores ..)] at hcopy
  refine Eq.trans ?_ hcopy
  rw [← dram_of_sansCores (spTouch_sansCores s c (liveBase l) (65536 * l))]
  rfl

/-- A save counts in LIVE_SAVES. -/
def countSave (s : State) : State := { s with sched := { s.sched with liveSaves := s.sched.liveSaves + 1 } }

theorem dramCopy_sched (s : State) (src : Mem) (a n b : Nat) : (dramCopy s src a n b).sched = s.sched := rfl

theorem regionSaved_sched (s : State) (c id l p : Nat) : (regionSaved s c id l p).sched = s.sched :=
  (upCore_sched ..).trans ((dramCopy_sched ..).trans (sched_of_sansCores (spTouch_sansCores ..)))

/-- At the boundary of the resident job its live region goes to the save area; LC work pre-empts the job. -/
theorem liveRegionSave_eq {s : State} {c : CoreId} {id : Nat} {lc : Bool} (hpow : s.powered = true)
    (hres : (s.core c).resident = some id) (hbegin : s.beginner c id = some lc)
    (hbound : ∀ v, (s.core c).seq = some v → v.owner.job ≠ id) :
    exec (.liveRegionSave c) s = .next (if lc then preempt (countSave (regionSaved s c id (s.liveK id)
      (s.savePlace c (s.liveK id)))) id else countSave (regionSaved s c id (s.liveK id) (s.savePlace c (s.liveK id)))) := by
  have hexec : exec (.liveRegionSave c) s = execLiveRegionSave c s := rfl
  rw [hexec, execLiveRegionSave, whenPowered_of_powered hpow]
  cases hseq : (s.core c).seq with
  | none =>
    simp only [hres, hbegin, hseq, Bool.false_eq_true, if_false]
    rfl
  | some v =>
    have hmine : v.owner.of id = false := beq_false_of_ne (hbound v hseq)
    simp only [hres, hbegin, hseq, hmine, Bool.false_eq_true, if_false]
    rfl

/-- What the counts of a save leave. -/
theorem countSave_frame (s : State) (id : Nat) (lc : Bool) : ∃ t,
    (if lc then preempt (countSave s) id else countSave s) = t ∧ t.cores = s.cores ∧ t.dram = s.dram ∧
      t.sched.liveSaves = s.sched.liveSaves + 1 := by
  cases lc <;> exact ⟨_, rfl, rfl, rfl, rfl⟩

/-- R451: what a save leaves in the core, in local DRAM and in the count of saves. -/
theorem liveRegionSave_spec {s : State} {c : CoreId} {id : Nat} {lc : Bool} (hpow : s.powered = true)
    (hres : (s.core c).resident = some id) (hbegin : s.beginner c id = some lc)
    (hbound : ∀ v, (s.core c).seq = some v → v.owner.job ≠ id) {l p : Nat} (hl : l = s.liveK id)
    (hp : p = s.savePlace c l) :
    ∃ t, exec (.liveRegionSave c) s = .next t ∧ (t.core c).resident = none ∧
      (t.core c).liveKept = (s.core c).liveKept ++ [(id, p)] ∧ t.sched.liveSaves = s.sched.liveSaves + 1 ∧
      (∀ i, t.dram.word i = if saveByte c p l / 8 ≤ i ∧ i < saveByte c p l / 8 + 8192 * l then
        (s.core c).scratch.word (liveBase l / 8 + (i - saveByte c p l / 8)) else s.dram.word i) ∧
      (∀ i, (t.core c).scratch.word i = (s.core c).scratch.word i) ∧ (∀ k, k ≠ c.val → t.core k = s.core k) := by
  subst hl hp
  obtain ⟨t, ht, hcores, hdram, hcount⟩ :=
    countSave_frame (regionSaved s c id (s.liveK id) (s.savePlace c (s.liveK id))) id lc
  have hcore := (core_of_cores hcores c).trans (regionSaved_core s c id (s.liveK id) (s.savePlace c (s.liveK id)))
  rw [regionSaved_sched] at hcount
  refine ⟨t, (liveRegionSave_eq hpow hres hbegin hbound).trans (congrArg _ ht), congrArg Core.resident hcore,
    congrArg Core.liveKept hcore, hcount, fun i => ?_, fun i => ?_, fun k hk => ?_⟩
  · rw [hdram, regionSaved_word]
  · exact (congrArg (fun k => Mem.word (Core.scratch k) i) hcore).trans (spTouch_scratch_word ..)
  · rw [core_of_cores hcores, regionSaved_core_ne s _ _ _ hk]

/-- The state once the live region of job `id`, l blocks from byte a of local DRAM, is back in core c. -/
def regionRestored (s : State) (c id l a : Nat) : State :=
  upCore (dramTouch s a (65536 * l)) c fun k => { k with
    scratch := s.dram.copyRange a (65536 * l) k.scratch (liveBase l), resident := some id
    liveKept := k.liveKept.filter (fun e => e.1 != id) }

theorem dramTouch_core (s : State) (a n k : Nat) : (dramTouch s a n).core k = s.core k :=
  core_of_cores (cores_of_sansMem (sansMem_of_sansChans (dramTouch_sansChans s a n))) k

theorem regionRestored_core (s : State) (c id l a : Nat) : (regionRestored s c id l a).core c = { s.core c with
    scratch := s.dram.copyRange a (65536 * l) (s.core c).scratch (liveBase l), resident := some id
    liveKept := (s.core c).liveKept.filter (fun e => e.1 != id) } := by
  unfold regionRestored
  rw [upCore_core, if_pos rfl, dramTouch_core]

theorem regionRestored_core_ne {s : State} {c k : Nat} (id l a : Nat) (h : k ≠ c) :
    (regionRestored s c id l a).core k = s.core k :=
  (upCore_core ..).trans ((if_neg h).trans (dramTouch_core ..))

theorem regionRestored_dram (s : State) (c id l a : Nat) : (regionRestored s c id l a).dram = s.dram :=
  (upCore_dram ..).trans (dramTouch_dram ..)

theorem regionRestored_jobs (s : State) (c id l a : Nat) : (regionRestored s c id l a).jobs = s.jobs :=
  (upCore_jobs ..).trans (jobs_of_sansMem (sansMem_of_sansChans (dramTouch_sansChans ..)))

/-- R452: a saved live region comes back while its core is free, and its job is resident there again. -/
theorem liveRegionRestore_spec {s : State} {c : CoreId} {id : Nat} (hpow : s.powered = true)
    (hres : (s.core c).resident = none) (hseq : (s.core c).seq = none) (hnext : s.toRestore c = some id) {l a : Nat}
    (hl : l = s.liveK id) (ha : a = saveByte c (Tbl.get 0 (s.core c).liveKept id) l) :
    ∃ t, exec (.liveRegionRestore c) s = .next t ∧ (t.core c).resident = some id ∧
      (t.core c).liveKept = (s.core c).liveKept.filter (fun e => e.1 != id) ∧ (∀ i, t.dram.word i = s.dram.word i) ∧
      t.jobs = s.jobs ∧ (∀ k, k ≠ c.val → t.core k = s.core k) ∧
      ∀ i, (t.core c).scratch.word i = if liveBase l / 8 ≤ i ∧ i < liveBase l / 8 + 8192 * l then
        s.dram.word (a / 8 + (i - liveBase l / 8)) else (s.core c).scratch.word i := by
  have hrun : exec (.liveRegionRestore c) s = .next (regionRestored s c id l a) := by
    have hexec : exec (.liveRegionRestore c) s = execLiveRegionRestore c s := rfl
    subst hl ha
    rw [hexec, execLiveRegionRestore, whenPowered_of_powered hpow]
    simp only [hres, hseq, hnext, dramTouch_dram]
    rfl
  refine ⟨_, hrun, ?_⟩
  rw [regionRestored_core, regionRestored_dram, regionRestored_jobs]
  refine ⟨rfl, rfl, fun _ => rfl, rfl, fun k hk => regionRestored_core_ne id l a hk, fun i => ?_⟩
  have hlen : 65536 * l / 8 = 8192 * l := by omega
  rw [Mem.word_copyRange _ _ (by omega) (liveBase_mod l), hlen]

/-! ### ISSUE, invocations and live regions together -/

/-- The ISSUE ops: command, code and queue. -/
def issueOps (c : CoreId) : List (Instr × Nat × Nat) := [(.issueArray c, 0x40, 0), (.issueVector c, 0x41, 1),
  (.issueLookup c, 0x42, 2), (.issueMove c, 0x43, 3), (.issueScatter c, 0x44, 4)]

theorem exec_issueOp (c : CoreId) (s : State) : ∀ p ∈ issueOps c, exec p.1 s = .next (issueOp s c p.2.1 p.2.2) := by
  simp only [issueOps, List.forall_mem_cons]
  exact ⟨rfl, rfl, rfl, rfl, rfl, nofun⟩

/-- Settles O38: each clause is the rule of its command. -/
theorem issueAndInvocations : Obligations.IssueAndInvocations := by
  unfold Obligations.IssueAndInvocations
  refine ⟨⟨fun s c v w h hrange i code q hmem hcode => ?issue, fun s c v q a hpow hseq hwait _ hroom => ?capture⟩,
    fun s c p rest w hpow hseq hmay hword hsyn => ?start, fun s c v hpow hseq hret => ?ret,
    fun s c id lc hpow hres hbegin hbound => ?save, fun s c id hpow hres hseq hnext => ?restore⟩
  case issue => exact issueOp_spec h hrange hcode (exec_issueOp c s _ hmem)
  case capture =>
    have hself := (stalled_core s c c).trans (if_pos rfl)
    obtain ⟨hcores, hothers, hpad, hqueue, hgo⟩ := capture_captured q a ((congrArg Core.seq hself).trans hseq)
    rw [State.copyOf, hself] at hqueue
    rw [hself] at hpad
    exact ⟨_, issueCapture_of_room hpow hseq hwait hroom, hqueue, hgo, freeCtr_of_sansCores hcores,
      (dram_of_sansCores hcores).trans rfl, (jobs_of_sansCores hcores).trans rfl,
      fun k hk => (hothers k hk).trans (stalled_core_ne hk), hpad⟩
  case start =>
    subst hword
    exact ⟨callStart_lc hpow hseq hmay hsyn, callStart_be hpow hseq hmay hsyn, callStart_of_held hpow hseq⟩
  case ret => exact ⟨invocationComplete_of_idle hpow hseq hret, invocationComplete_of_busy hpow hseq⟩
  case save => exact liveRegionSave_spec hpow hres hbegin hbound rfl rfl
  case restore => exact liveRegionRestore_spec hpow hres hseq hnext rfl rfl

end Sys2Proof.Machine
end

section
/-!
Routine banks (R295 to R298): what a piece of a library image writes, ROUTINE_LOAD at once and once its bank is free, and
ROUTINE_COMMIT.
-/
namespace Sys2Proof.Machine

/-! ### Pieces of a library image (R295) -/

theorem getElem_bytesWords (l : List Byte) (n i : Nat) (h : i < (bytesWords l n).length) :
    (bytesWords l n)[i] = BitVec.ofNat 64 (leNat ((l.drop (8 * i)).take 8)) := by
  induction n generalizing l i with
  | zero => exact absurd h (Nat.not_lt_zero _)
  | succ n ih =>
    cases i with
    | zero => rfl
    | succ i =>
      have hdrop : (l.drop 8).drop (8 * i) = l.drop (8 * (i + 1)) := by rw [List.drop_drop]; congr 1; omega
      rw [← hdrop]
      exact ih (l.drop 8) i (Nat.lt_of_succ_lt_succ h)

/-- A bank's word after one word of an image is put into bank b: the words of two banks never meet. -/
theorem putWord_words (b d : Nat) (r : Routines) (e : Nat × Word) {i : Nat} (hi : i < 32768) :
    Tbl.get 0 (Routines.putWord b r e).words (32768 * d + i) =
      if d = b ∧ i = e.1 then e.2 else Tbl.get 0 r.words (32768 * d + i) := by
  unfold Routines.putWord
  split
  next he =>
    rw [Tbl.get_set]
    have hkey : 32768 * d + i = 32768 * b + e.1 ↔ d = b ∧ i = e.1 := by omega
    simp only [hkey]
  next he => rw [if_neg (fun h : d = b ∧ i = e.1 => he (h.2 ▸ hi))]

/-- A bank's words after a list of words is put into bank b from place o on. -/
theorem putWords_words (b d o : Nat) (l : List Word) (n : Nat) (r : Routines) {i : Nat} (hi : i < 32768) :
    Tbl.get 0 (((l.zipIdx n).map fun e => (o + e.2, e.1)).foldl (Routines.putWord b) r).words (32768 * d + i) =
      if h : d = b ∧ o + n ≤ i ∧ i < o + n + l.length then l[i - (o + n)]'(by omega)
      else Tbl.get 0 r.words (32768 * d + i) := by
  induction l generalizing n r with
  | nil => rw [dif_neg (by rw [List.length_nil]; omega)]; rfl
  | cons x l ih =>
    rw [List.zipIdx_cons, List.map_cons, List.foldl_cons, ih, putWord_words _ _ _ _ hi]
    dsimp only
    by_cases hx : d = b ∧ i = o + n
    · obtain ⟨rfl, rfl⟩ := hx
      rw [dif_neg (by omega), if_pos ⟨rfl, rfl⟩, dif_pos (by simp)]
      simp
    · rw [if_neg hx]
      by_cases hl : d = b ∧ o + (n + 1) ≤ i ∧ i < o + (n + 1) + l.length
      · have hj : i - (o + n) = i - (o + (n + 1)) + 1 := by omega
        rw [dif_pos hl, dif_pos (by rw [List.length_cons]; omega)]
        simp only [hj, List.getElem_cons_succ]
      · rw [dif_neg hl, dif_neg (by rw [List.length_cons]; omega)]

/-- Words put into a bank leave the banks' states. -/
theorem putWords_frame (b : Nat) (l : List (Nat × Word)) (r : Routines) :
    ∃ w c, l.foldl (Routines.putWord b) r = { r with words := w, cost := c } := by
  induction l generalizing r with
  | nil => exact ⟨_, _, rfl⟩
  | cons e l ih =>
    obtain ⟨w, c, h⟩ := ih (Routines.putWord b r e)
    rw [List.foldl_cons, h]
    unfold Routines.putWord
    split <;> exact ⟨_, _, rfl⟩

/-- Bank b is in the VALID state. -/
def Routines.isValid (r : Routines) (b : Nat) : Bool := if b = 0 then r.valid0 else r.valid1

theorem setValid_isValid (r : Routines) (b : Nat) (x : Bool) : (r.setValid b x).isValid b = x := by
  unfold Routines.setValid Routines.isValid
  by_cases hb : b = 0 <;> simp only [hb, if_true, if_false]

theorem setValid_frame (r : Routines) (b : Nat) (x : Bool) :
    (r.setValid b x).words = r.words ∧ (r.setValid b x).active = r.active := by
  unfold Routines.setValid
  split <;> exact ⟨rfl, rfl⟩

theorem loadPiece_words (s : State) (off : Nat) (l : List Byte) (d : Nat) {i : Nat} (hi : i < 32768) :
    Tbl.get 0 (loadPiece s off l).routines.words (32768 * d + i) =
      if d = s.otherBank ∧ off / 8 ≤ i ∧ i < off / 8 + l.length / 8 then
        BitVec.ofNat 64 (leNat ((l.drop (8 * (i - off / 8))).take 8))
      else Tbl.get 0 s.routines.words (32768 * d + i) := by
  refine (putWords_words s.otherBank d (off / 8) (bytesWords l (l.length / 8)) 0 _ hi).trans ?_
  simp only [Nat.add_zero, length_bytesWords, getElem_bytesWords, (setValid_frame ..).1, dite_eq_ite]

/-- A piece leaves its bank not VALID, the active bank and the rest of the base state as they were. -/
theorem loadPiece_frame (s : State) (off : Nat) (l : List Byte) :
    (loadPiece s off l).routines.isValid s.otherBank = false ∧ (loadPiece s off l).routines.active = s.routines.active ∧
      (loadPiece s off l).dram = s.dram ∧ (loadPiece s off l).jobs = s.jobs := by
  obtain ⟨w, c, h⟩ := putWords_frame s.otherBank
    ((bytesWords l (l.length / 8)).zipIdx.map fun e => (off / 8 + e.2, e.1)) (s.routines.setValid s.otherBank false)
  have hload : (loadPiece s off l).routines =
      { s.routines.setValid s.otherBank false with words := w, cost := c, held := none } :=
    congrArg (fun r : Routines => { r with held := none }) h
  rw [hload]
  exact ⟨setValid_isValid .., (setValid_frame ..).2, rfl, rfl⟩

/-! ### ROUTINE_LOAD (R295) -/

/-- The checks of ROUTINE_LOAD on its own operands. -/
@[reducible] def State.pieceOk (s : State) (f : FnId) (k : SlotId) : Prop :=
  s.reqF (mailKey f k) 1 63 32 % 8 = 0 ∧ s.reqF (mailKey f k) 1 31 0 % 8 = 0 ∧
    s.reqF (mailKey f k) 1 63 32 + s.reqF (mailKey f k) 1 31 0 ≤ 294912 ∧ bit (s.req (mailKey f k) 2) 0 = false

section
variable {s : State} {f : FnId} {k : SlotId} (piece : HostRd) (h : s.starts f k 0x18)
  (hfld : s.reqF (mailKey f k) 2 63 1 = 0) (htail : s.tailZero (mailKey f k) 3 = true)
include h hfld htail

theorem routineLoad_of_starts : exec (.routineLoad f k piece) s = .next (routineLoadRun f k piece (s.begun f k)) := by
  have hexec : exec (.routineLoad f k piece) s = execRoutineLoad f k piece s := rfl
  rw [hexec, execRoutineLoad]
  simp only [hfld, htail, ne_eq, not_true_eq_false, decide_false, Bool.not_true, Bool.or_self, admin_of_starts h]

theorem routineLoad_of_bad (hbad : ¬s.pieceOk f k) :
    exec (.routineLoad f k piece) s = .next (respond (s.begun f k) f k stBadDescriptor []) := by
  rw [routineLoad_of_starts piece h hfld htail, routineLoadRun]
  simp only [begun_reqF, begun_req, Bool.not_eq_true']
  rw [if_neg hbad]
  rfl

theorem routineLoad_of_busy (hok : s.pieceOk f k) (hbusy : s.bankBusy s.otherBank = true) :
    exec (.routineLoad f k piece) s = .next { s.begun f k with routines := { s.routines with
      held := some (f, k, s.reqF (mailKey f k) 1 63 32, s.reqF (mailKey f k) 1 31 0) } } := by
  have hbusy' : (s.begun f k).bankBusy (s.begun f k).otherBank = true := hbusy
  rw [routineLoad_of_starts piece h hfld htail, routineLoadRun]
  simp only [begun_reqF, begun_req, Bool.not_eq_true']
  rw [if_pos hok, if_pos hbusy']
  rfl

theorem routineLoad_of_idle (hok : s.pieceOk f k) (hidle : s.bankBusy s.otherBank = false) :
    exec (.routineLoad f k piece) s = .next (if s.blocked f then s.begunWaits f k
      else if piece.ok then respond (loadPiece (s.begun f k) (s.reqF (mailKey f k) 1 63 32)
        (slice piece.bytes 0 (s.reqF (mailKey f k) 1 31 0))) f k stOk []
      else respond (s.begunRead f k false) f k stBadDescriptor []) := by
  have hidle' : ¬(s.begun f k).bankBusy (s.begun f k).otherBank = true := Bool.eq_false_iff.1 hidle
  rw [routineLoad_of_starts piece h hfld htail, routineLoadRun]
  simp only [begun_reqF, begun_req, Bool.not_eq_true']
  have hblocked : (s.begun f k).blocked f = s.blocked f := rfl
  rw [if_pos hok, if_neg hidle', withHost, hblocked]
  refine congrArg Host.Outcome.next (congrArg (ite _ _) ?_)
  cases piece.ok with
  | false => simp only [Bool.false_eq_true, if_false]; rfl
  | true => simp only [if_true]

end

section
variable {s : State} (piece : HostRd) {f k off len : Nat} (hfw : s.fwRuns = true)
  (hheld : s.routines.held = some (f, k, off, len))
include hfw hheld

theorem routineLoadApply_of_held : exec (.routineLoadApply piece) s = .next
    (if s.bankBusy s.otherBank || s.blocked 0 then s
      else if piece.ok then respond (loadPiece s off (slice piece.bytes 0 len)) f k stOk []
      else respond (rxFailed { s with routines := { s.routines with held := none } }) f k stBadDescriptor []) := by
  have hexec : exec (.routineLoadApply piece) s = execRoutineLoadApply piece s := rfl
  rw [hexec, execRoutineLoadApply, whenFw_of_fwRuns hfw]
  simp only [hheld]

theorem routineLoadApply_of_waiting (hwait : s.bankBusy s.otherBank = true ∨ s.blocked 0 = true) :
    exec (.routineLoadApply piece) s = .next s := by
  rw [routineLoadApply_of_held piece hfw hheld, if_pos (by simpa using hwait)]

theorem routineLoadApply_of_idle (hidle : s.bankBusy s.otherBank = false) (hopen : s.blocked 0 = false) :
    exec (.routineLoadApply piece) s = .next
      (if piece.ok then respond (loadPiece s off (slice piece.bytes 0 len)) f k stOk []
        else respond (rxFailed { s with routines := { s.routines with held := none } }) f k stBadDescriptor []) := by
  rw [routineLoadApply_of_held piece hfw hheld, if_neg (by simp [hidle, hopen])]

end

/-! ### ROUTINE_COMMIT (R296 to R298) -/

/-- The checks of a bank look at the routines alone. -/
theorem commitFails_congr {s t : State} (h : t.routines = s.routines) (b : Nat) : t.commitFails b = s.commitFails b := by
  have hword : t.bankWord = s.bankWord := by unfold State.bankWord; rw [h]
  have hops : t.routineOps = s.routineOps := by unfold State.routineOps; rw [hword]
  have hcost : t.costReserved = s.costReserved := by unfold State.costReserved; rw [h]
  have hreserved : t.failReserved = s.failReserved := by unfold State.failReserved; rw [hword, hops, hcost]
  have hmalformed : t.failMalformed = s.failMalformed := by unfold State.failMalformed; rw [hword, hops]
  unfold State.commitFails
  rw [h, hreserved, hmalformed]

theorem commitRun_of_fails {s : State} {f : FnId} {k : SlotId} {st : Status} {rid w : Nat}
    (h : s.commitFails s.otherBank = some (st, rid, w)) :
    commitRun f k s = respond s f k st (commitWords rid w s.routines.active) := by
  unfold commitRun
  simp only [h]

/-- A bank that passes its checks becomes the active one and VALID; its words, local DRAM, the jobs and flash stay. -/
theorem commitRun_of_passes {s : State} (f : FnId) (k : SlotId) (h : s.commitFails s.otherBank = none) :
    (commitRun f k s).routines.active = s.otherBank ∧ (commitRun f k s).routines.isValid s.otherBank = true ∧
      (commitRun f k s).routines.words = s.routines.words ∧ (commitRun f k s).dram = s.dram ∧
      (commitRun f k s).jobs = s.jobs ∧ (commitRun f k s).flash = s.flash := by
  have hrun : commitRun f k s = respond { measureBank s s.otherBank with
      routines := { (s.routines.setValid s.otherBank true) with active := s.otherBank } } f k stOk
        (commitWords 0xFFFF 0 s.otherBank) := by
    unfold commitRun
    simp only [h]
    rfl
  obtain ⟨b, l, o, hrespond⟩ := respond_eq { measureBank s s.otherBank with
    routines := { (s.routines.setValid s.otherBank true) with active := s.otherBank } } f k stOk
      (commitWords 0xFFFF 0 s.otherBank)
  rw [hrun, hrespond]
  exact ⟨rfl, setValid_isValid .., (setValid_frame ..).1, rfl, rfl, rfl⟩

theorem routineCommit_of_starts {s : State} {f : FnId} {k : SlotId} (h : s.starts f k 0x19)
    (htail : s.tailZero (mailKey f k) 0 = true) : exec (.routineCommit f k) s = .next (commitRun f k (s.begun f k)) := by
  have hexec : exec (.routineCommit f k) s = execRoutineCommit f k s := rfl
  rw [hexec, execRoutineCommit, htail, Bool.not_true, admin_of_starts h]

/-- Settles O51: the cases of ROUTINE_LOAD, of a load that was held, of a piece that is written, and of ROUTINE_COMMIT. -/
theorem routineBanks : Obligations.RoutineBanks := by
  unfold Obligations.RoutineBanks
  refine ⟨fun s f k piece h hfld htail => ⟨routineLoad_of_bad piece h hfld htail, routineLoad_of_busy piece h hfld htail,
      routineLoad_of_idle piece h hfld htail⟩,
    fun s piece f k off len hfw hheld => ⟨routineLoadApply_of_waiting piece hfw hheld, fun hidle hopen hok => ?good,
      fun hidle hopen hok => ?failed⟩,
    fun s off l _ _ hactive => ?piece, fun s f k h htail => ?commit⟩
  case good => rw [routineLoadApply_of_idle piece hfw hheld hidle hopen, if_pos hok]
  case failed => rw [routineLoadApply_of_idle piece hfw hheld hidle hopen, hok, if_neg Bool.false_ne_true]
  case piece =>
    have hother : s.routines.active ≠ s.otherBank := by
      unfold State.otherBank
      omega
    refine ⟨fun i hi => ?_, fun i hi => ?_, loadPiece_frame s off l⟩
    · simpa using loadPiece_words s off l s.otherBank hi
    · rw [loadPiece_words s off l _ hi, if_neg (fun h => hother h.1)]
  case commit =>
    have hbegun : (s.begun f k).commitFails s.otherBank = s.commitFails s.otherBank :=
      commitFails_congr (s := s) (t := s.begun f k) rfl _
    refine ⟨_, routineCommit_of_starts h htail, ?_⟩
    cases hfails : s.commitFails s.otherBank with
    | none => exact commitRun_of_passes f k (hbegun.trans hfails)
    | some x => exact commitRun_of_fails (hbegun.trans hfails)

end Sys2Proof.Machine
end

section
/-!
The learning rate's powers (R310), the recurrence of one row (R311), and the ends of a staged slot on which the recurrence does
not run (R327, R328, R330).
-/
namespace Sys2Proof.Machine

/-! ### Powers (R310) -/

/-- One more bit at the low end is one more squaring, and one more product where the bit is set. -/
theorem powfGo_bit (c : BitVec 32) (b : Bool) (d n : Nat) (r : BitVec 32) : powfGo c (Nat.bit b d) (n + 1) r =
    bif b then f32mul (f32mul (powfGo c d n r) (powfGo c d n r)) c else f32mul (powfGo c d n r) (powfGo c d n r) := by
  induction n generalizing r with
  | zero => cases b <;> simp [powfGo]
  | succ n ih =>
    rw [powfGo, ih, Nat.testBit_bit_succ]
    rfl

/-- A power of the double, or of its successor, by the power of the half. -/
theorem powf_bit (c : BitVec 32) (b : Bool) {d : Nat} (hd : 0 < d) : powf c (Nat.bit b d) =
    bif b then f32mul (f32mul (powf c d) (powf c d)) c else f32mul (powf c d) (powf c d) := by
  have hlog : Nat.log2 (Nat.bit b d) = Nat.log2 d + 1 := by
    rw [Nat.log2_def, if_pos (by rw [Nat.bit_val]; omega), Nat.bit_div_two]
  rw [powf, if_neg (Nat.bit_ne_zero b hd.ne'), hlog, powfGo_bit, powf, if_neg hd.ne']

/-! ### The recurrence of a row (R311) -/

/-- The adaptive denominator of an element whose second moment is `m` (R311). -/
def Coef.denom (c : Coef) (b2 m : BitVec 32) : BitVec 32 :=
  if c.s2Mode = 0 then f32one else f32add (f32sqrt (f32mul b2 m)) c.eps

/-- The correction of a decay after t steps, where the group corrects its bias (R311). -/
def Coef.correction (c : Coef) (k : BitVec 32) (t : Nat) : BitVec 32 := if c.biasCorr then biasOf k t else f32one

section
variable (c : Coef) (g : Word) (eta : Nat → BitVec 32) (staged : List (BitVec 32)) (r : RowCalc)

theorem Coef.update_t : (c.update g eta staged r).t = if c.keeps then min (r.t + 1) (2 ^ 32 - 1) else 1 := rfl

theorem Coef.length_update_w : (c.update g eta staged r).w.length = staged.length := by simp [Coef.update]

section
variable {i : Nat} (hi : i < staged.length)
include hi

theorem Coef.update_s1_getD (h1 : r.s1.length = staged.length) : (c.update g eta staged r).s1.getD i 0 =
    f32dot2 (c.k 1) (r.s1.getD i 0) (c.k 2) (c.grad (staged.getD i 0)) := by
  simp [Coef.update, hi, h1]

theorem Coef.update_s2_getD (h2 : r.s2.length = staged.length) : (c.update g eta staged r).s2.getD i 0 =
    f32dot2 (c.k 3) (r.s2.getD i 0) (c.k 4) (f32mul (c.grad (staged.getD i 0)) (c.grad (staged.getD i 0))) := by
  simp [Coef.update, hi, h2]

/-- The new value of an element: its denominator takes the element's own second moment where the group keeps one for each. -/
theorem Coef.update_w_getD (h2 : r.s2.length = staged.length) :
    let n := c.update g eta staged r
    n.w.getD i 0 = c.move (eta (if c.etaIndex then n.t else g.toNat)) (c.correction (c.k 1) n.t)
      (c.denom (c.correction (c.k 3) n.t) (if c.s2Mode = 1 then n.s2.getD i 0 else n.s2row))
      (c.grad (staged.getD i 0)) (n.s1.getD i 0) (r.w.getD i 0) := by
  by_cases h : c.s2Mode = 1 <;> simp [Coef.update, Coef.denom, Coef.correction, hi, h2, h]

end
end

/-! ### The ends of a slot (R327, R328, R330) -/

/-- Where the staging row and the key of a slot lie, before its row is known. -/
def State.slotVas (s : State) (key x : Nat) : SlotVa :=
  slotVa (s.slot key).entry ((s.slot key).upd.getD {}) (s.coef ((s.slot key).upd.getD {}).group) x 0

/-- The state in which hedge h's update engine has looked up the pages of a slot's key and staging row. -/
def State.slotWalked (s : State) (o : Owner) (h key x : Nat) : State :=
  walkPages s (uUpdate h) o.cid
    [((s.slotVas key x).key, 8, true), ((s.slotVas key x).stage.1, (s.slotVas key x).stage.2, true)]

/-- What stops the key and the staging row of a slot. -/
def State.slotHalt (s : State) (o : Owner) (h key x : Nat) : Option GradEnd :=
  partsStop (s.slotWalked o h key x) (uUpdate h) o.cid [((s.slotVas key x).key, 8), (s.slotVas key x).stage]

/-- The pieces of a slot's staging row. -/
def State.slotStage (s : State) (o : Owner) (h key x : Nat) : List Span :=
  spans (s.slotWalked o h key x) (uUpdate h) o.cid (s.slotVas key x).stage.1 (s.slotVas key x).stage.2 true

section
variable {s : State} {o : Owner} {h key x keyAt : Nat} {c : Close}
variable (hkey : wordOff (s.slotWalked o h key x) (uUpdate h) o.cid (s.slotVas key x).key = some keyAt)
include hkey

/-- What stops the staging of a frozen slot stops the slot. -/
theorem closeSlot_of_frozen_halted (bad : Option Nat) (vi pos : Nat) {z : GradEnd} (hz : s.slotHalt o h key x = some z)
    (hf : c.freeze.getLsbD ((s.slot key).upd.getD {}).group = true) :
    closeSlot o h bad c vi key pos x s = slotStop (s.slotWalked o h key x) o h z := by
  unfold State.slotHalt at hz
  unfold State.slotWalked State.slotVas at *
  simp only [closeSlot, hkey, hf, if_true, hz]

/-- A frozen slot loses its staging and its key, and counts (R328). -/
theorem closeSlot_of_frozen (bad : Option Nat) (vi pos : Nat) (hz : s.slotHalt o h key x = none)
    (hf : c.freeze.getLsbD ((s.slot key).upd.getD {}).group = true) :
    closeSlot o h bad c vi key pos x s = nextSlot c.job h vi pos
      (upHedge (freeSlot o (s.slotStage o h key x) (s.slotVas key x).key keyAt (s.slotWalked o h key x)) h
        (fun y => { y with up := { y.up with frozenSkipped := y.up.frozenSkipped + 1 } })) := by
  unfold State.slotHalt at hz
  unfold State.slotStage
  unfold State.slotWalked State.slotVas at *
  simp only [closeSlot, hkey, hf, if_true, hz]

/-- A slot whose key names no row is freed. -/
theorem closeSlot_of_no_row (bad : Option Nat) (vi pos : Nat) (hz : s.slotHalt o h key x = none)
    (hf : c.freeze.getLsbD ((s.slot key).upd.getD {}).group = false)
    (hw : ((s.slotWalked o h key x).dramWord (keyAt / 8)).poison = false)
    (hrow : ((s.slotWalked o h key x).dramWord (keyAt / 8)).data = 0 ∨
      (s.slot key).entry.rowCount ≤ ((s.slotWalked o h key x).dramWord (keyAt / 8)).data.toNat - 1) :
    closeSlot o h bad c vi key pos x s = nextSlot c.job h vi pos
      (freeSlot o (s.slotStage o h key x) (s.slotVas key x).key keyAt (dramTouch (s.slotWalked o h key x) keyAt 8)) := by
  unfold State.slotHalt at hz
  unfold State.slotStage
  unfold State.slotWalked State.slotVas at *
  simp only [closeSlot, hkey, hf, hw, if_pos hrow, hz, Bool.false_eq_true, if_false]

/-- A poisoned key ends the job. -/
theorem closeSlot_of_poisoned_key (bad : Option Nat) (vi pos : Nat)
    (hf : c.freeze.getLsbD ((s.slot key).upd.getD {}).group = false)
    (hw : ((s.slotWalked o h key x).dramWord (keyAt / 8)).poison = true) :
    closeSlot o h bad c vi key pos x s = failJob (dramTouch (s.slotWalked o h key x) keyAt 8) o stPoisoned := by
  unfold State.slotWalked State.slotVas at *
  simp only [closeSlot, hkey, hf, hw, if_true, Bool.false_eq_true, if_false]

end

/-- Settles O47: the ends of a slot on which the recurrence does not run, the recurrence element by element, and the powers of
its rate.  That a key of no row and a frozen slot are only freed, and that a poisoned key ends the job, is the model's choice
(log entry 22). -/
theorem updateRecurrence : Obligations.UpdateRecurrence := by
  unfold Obligations.UpdateRecurrence
  refine ⟨fun s o h bad c vi key pos x keyAt hkey => ⟨fun z hz hf => ?halted, fun hz => ⟨fun hf => ?frozen,
    fun hf hw hrow => ?noRow⟩, fun hf hw => ?poisoned⟩, fun c g eta staged r i hi h1 h2 _ => ?row, fun c d hd => ?powers⟩
  case halted => exact closeSlot_of_frozen_halted hkey bad vi pos hz hf
  case frozen => exact closeSlot_of_frozen hkey bad vi pos hz hf
  case noRow => exact closeSlot_of_no_row hkey bad vi pos hz hf hw (hrow.imp_right Nat.le_sub_one_of_lt)
  case poisoned => exact closeSlot_of_poisoned_key hkey bad vi pos hf hw
  case row => exact ⟨rfl, c.update_s1_getD g eta staged r hi h1, c.update_s2_getD g eta staged r hi h2,
    c.length_update_w g eta staged r, c.update_w_getD g eta staged r hi h2⟩
  case powers => exact ⟨powf_bit c false hd, powf_bit c true hd⟩

end Sys2Proof.Machine
end

section
/-!
Messages to peers (R541, R543, R548): what a request changes, and that it leaves the paths of the fabric edge as they were.
-/
namespace Sys2Proof.Machine

/-- The applied record, the reach of every peer and the state of every port, on which the paths rest (R538), are the same. -/
def Fabric.samePaths (f g : Fabric) : Prop :=
  g.applied = f.applied ∧ (∀ m, (Tbl.get {} g.peers m).reachable = (Tbl.get {} f.peers m).reachable) ∧
    ∀ p, (Tbl.get {} g.ports p).up = (Tbl.get {} f.ports p).up

/-- The states that differ from `s` at most in what has left the module and in the fabric edge, with the same paths. -/
def State.sent (s t : State) : Prop := ∃ q f, t = { s with out := q, fab := f } ∧ s.fab.samePaths f

section
variable {s t u : State}

theorem State.sent.refl (s : State) : s.sent s := ⟨s.out, s.fab, rfl, rfl, fun _ => rfl, fun _ => rfl⟩

theorem State.sent.trans (h : s.sent t) (h' : t.sent u) : s.sent u := by
  obtain ⟨_, _, rfl, happ, hpeer, hport⟩ := h
  obtain ⟨q, f, rfl, happ', hpeer', hport'⟩ := h'
  exact ⟨q, f, rfl, happ'.trans happ, fun m => (hpeer' m).trans (hpeer m), fun p => (hport' p).trans (hport p)⟩

theorem State.sent.ite {p : Prop} [Decidable p] {a b : State} (ha : s.sent a) (hb : s.sent b) :
    s.sent (if p then a else b) := by
  split
  · exact ha
  · exact hb

/-- A change of the channels, the requests and the transaction numbers. -/
theorem State.sent.setFab (h : s.sent t) (chans : Tbl LChan) (reqs : List LReq) (n : BitVec 16) :
    s.sent { t with fab := { t.fab with chans := chans, reqs := reqs, nextTxn := n } } :=
  h.trans ⟨t.out, _, rfl, rfl, fun _ => rfl, fun _ => rfl⟩

theorem State.sent.emit (h : s.sent t) (x : Output) : s.sent (emit t x) :=
  h.trans ⟨_, t.fab, rfl, rfl, fun _ => rfl, fun _ => rfl⟩

theorem State.sent.upPort (h : s.sent t) (p : Nat) {f : Port → Port} (hf : ∀ q, (f q).up = q.up) :
    s.sent (upPort t p f) := by
  refine h.trans ⟨t.out, _, rfl, rfl, fun _ => rfl, fun k => ?_⟩
  rw [Tbl.get_upd]
  split
  next hk => rw [hf, hk]
  next => rfl

theorem State.sent.upPeer (h : s.sent t) (m : Nat) {f : Peer → Peer} (hf : ∀ q, (f q).reachable = q.reachable) :
    s.sent (upPeer t m f) := by
  refine h.trans ⟨t.out, _, rfl, rfl, fun k => ?_, fun _ => rfl⟩
  rw [Tbl.get_upd]
  split
  next hk => rw [hf, hk]
  next => rfl

theorem portPut_sent (h : s.sent t) (p : Nat) (f : TxFrame) : s.sent (portPut t p f) := by
  have hjoin := h.upPort p (f := fun q => { q with tx := joinTx f q.tx }) fun _ => rfl
  unfold portPut portGo
  dsimp only
  split
  · exact hjoin
  · refine State.sent.emit (hjoin.upPort p ?_) _
    exact fun _ => rfl

theorem wire_sent (h : s.sent t) (m : Nat) (w0 w1 w2 w3 : Word) (payload : List PWord) :
    s.sent (wire t m w0 w1 w2 w3 payload) := by
  refine .ite h (portPut_sent (h.upPeer m ?_) ..)
  exact fun _ => rfl

/-- A request to a peer leaves the module or waits for a credit, and the paths stay. -/
theorem request_sent (s : State) (m : Nat) (lc : Bool) (kind : Nat) (cid : BitVec 12) (w2 w3 : Word) (payload : List PWord)
    (o : Option Owner) (bag core : Option Nat) (dst : Nat) :
    s.sent (request s m lc kind cid w2 w3 payload o bag core dst) :=
  .ite ((State.sent.refl s).setFab ..) (wire_sent ((State.sent.refl s).setFab ..) ..)

theorem moduleNo_of_sent (h : s.sent t) : t.moduleNo = s.moduleNo := by
  obtain ⟨_, f, rfl, happ, -⟩ := h
  exact congrArg (fun l => leAt l 4 1 % 64) happ

theorem hasPath_of_sent (h : s.sent t) (m : Nat) : t.hasPath m = s.hasPath m := by
  obtain ⟨_, f, rfl, happ, hpeer, hport⟩ := h
  simp only [State.hasPath, State.upPorts, State.domainMask, State.moduleNo, State.peer, State.port, happ, hpeer, hport]

theorem lives_of_sent (h : s.sent t) (k : Nat) : t.lives k = s.lives k := by
  obtain ⟨_, _, rfl, -⟩ := h
  rfl

end

end Sys2Proof.Machine
end

section
/-!
The frame of a step close's slots (R326 to R330): translation, waiting for pages, reads and writes of memory, adder operations
and the ends of jobs leave every version's record, the clocks, the flash and the mailboxes as they were.
-/
namespace Sys2Proof.Machine

/-! ### The view -/

/-- The base of the state without local DRAM, its channels, the hedges, the fabric edge, the fault queue and the free values:
what no unit changes as it works on memory for a job. -/
def State.sansUnits (s : State) : State :=
  { s.base with freeCtr := 0, dram := {}, chans := [], hedges := [], fab := {}, fq := none }

/-- The states that differ from `s` at most in what units change as they work on memory for a job. -/
def State.sameTables (s t : State) : Prop := t.sansUnits = s.sansUnits

section
variable {s t u : State}

theorem State.sameTables.refl (s : State) : s.sameTables s := rfl

theorem State.sameTables.trans (h : s.sameTables t) (h' : t.sameTables u) : s.sameTables u := Eq.trans h' h

theorem sameTables_of_base (h : t.base = s.base) : s.sameTables t := by
  unfold State.sameTables State.sansUnits
  rw [h]

theorem sameTables_of_sansMem (h : t.sansMem = s.sansMem) : s.sameTables t :=
  (congrArg State.sansUnits h : t.sansMem.sansUnits = s.sansMem.sansUnits)

theorem sameTables_of_sent (h : s.sent t) : s.sameTables t := by
  obtain ⟨_, _, rfl, -⟩ := h
  rfl

theorem State.sameTables.base (h : s.sameTables t) (hu : u.base = t.base) : s.sameTables u := h.trans (sameTables_of_base hu)

theorem State.sameTables.still (h : s.sameTables t) (hu : u.still = t.still) : s.sameTables u := h.base (base_of_still hu)

theorem State.sameTables.ite {p : Prop} [Decidable p] {a b : State} (ha : s.sameTables a) (hb : s.sameTables b) :
    s.sameTables (if p then a else b) := by
  split
  · exact ha
  · exact hb

/-- A change of the parts that the view leaves out. -/
theorem State.sameTables.set (h : s.sameTables t) {freeCtr : Nat} {chans : Tbl Chan} {hedges : Tbl Hedge} {upd : Updates}
    {xl : Xlate} {jobs : List Job} {fq : Option PfQ} :
    s.sameTables { t with
      freeCtr := freeCtr, chans := chans, hedges := hedges, upd := upd, xl := xl, jobs := jobs, fq := fq } := h

theorem forL_sameTables {α : Type} {l : List α} {f : α → State → State}
    (hf : ∀ {x t}, s.sameTables t → s.sameTables (f x t)) (h : s.sameTables t) : s.sameTables (forL l f t) :=
  forL_induct (P := s.sameTables) (fun _ _ => hf) h

theorem forN_sameTables {n : Nat} {f : Nat → State → State}
    (hf : ∀ {i t}, s.sameTables t → s.sameTables (f i t)) (h : s.sameTables t) : s.sameTables (forN n f t) :=
  forN_induct (P := s.sameTables) h fun _ _ _ => hf

/-! ### What the view shows -/

theorem slots_of_sameTables (h : s.sameTables t) : t.slots = s.slots :=
  (congrArg State.slots h : t.sansUnits.slots = s.sansUnits.slots)

theorem flash_of_sameTables (h : s.sameTables t) : t.flash = s.flash :=
  (congrArg State.flash h : t.sansUnits.flash = s.sansUnits.flash)

theorem time_of_sameTables (h : s.sameTables t) : t.time = s.time :=
  (congrArg State.time h : t.sansUnits.time = s.sansUnits.time)

theorem codebooks_of_sameTables (h : s.sameTables t) : t.codebooks = s.codebooks :=
  (congrArg State.codebooks h : t.sansUnits.codebooks = s.sansUnits.codebooks)

theorem sec_of_sameTables (h : s.sameTables t) : t.sec = s.sec :=
  (congrArg State.sec h : t.sansUnits.sec = s.sansUnits.sec)

theorem mbox_of_sameTables (h : s.sameTables t) : t.mbox = s.mbox :=
  (congrArg State.mbox h : t.sansUnits.mbox = s.sansUnits.mbox)

theorem sqs_of_sameTables (h : s.sameTables t) : t.sqs = s.sqs :=
  (congrArg State.sqs h : t.sansUnits.sqs = s.sansUnits.sqs)

/-! ### Ends of jobs, local DRAM and adder operations -/

theorem failJob_sameTables {o : Owner} {st : Status} (h : s.sameTables t) : s.sameTables (failJob t o st) :=
  h.base (failJob_base ..)

theorem privetFail_sameTables {o : Owner} {pa : Nat} (h : s.sameTables t) : s.sameTables (privetFail t o pa) :=
  State.sameTables.base (h.set (hedges := _)) (jobFault_base ..)

theorem digestAdd_sameTables {o : Owner} {tag : Word} {l : List Byte} (h : s.sameTables t) :
    s.sameTables (digestAdd t o tag l) := h.base (digestAdd_base ..)

theorem dramTouch_sameTables {a n : Nat} (h : s.sameTables t) : s.sameTables (dramTouch t a n) :=
  h.trans (sameTables_of_sansMem (sansMem_of_sansChans (dramTouch_sansChans ..)))

theorem dramPut_sameTables {a : Nat} {l : List PWord} (h : s.sameTables t) : s.sameTables (dramPut t a l) :=
  h.trans (sameTables_of_sansMem (dramPut_sansMem ..))

theorem raiseLines_sameTables {lc : Bool} {l : List Nat} (h : s.sameTables t) : s.sameTables (raiseLines t lc l) :=
  .ite (forL_sameTables (fun h => h.set) h) h

theorem adderDo_sameTables {p : AdderPkt} {off : Nat} {x : List PWord} (h : s.sameTables t) :
    s.sameTables (adderDo t p off x).1 := h.trans (sameTables_of_sansMem (adderDo_sameButMem t p off x).1)

theorem adderSplit_sameTables {p : AdderPkt} {off : Nat} {x : List PWord} (h : s.sameTables t) :
    s.sameTables (adderSplit t p off x) :=
  List.foldlRecOn (motive := fun q : State × List PWord => s.sameTables q.1) _ _ h fun _ hq _ _ => adderDo_sameTables hq

theorem adderAt_sameTables {o : Owner} {va : Nat} {p : AdderPkt} {x : List PWord} (h : s.sameTables t) :
    s.sameTables (adderAt o va p x t).1 := by
  unfold adderAt
  dsimp only
  split
  · exact adderDo_sameTables (digestAdd_sameTables h)
  · exact adderSplit_sameTables (digestAdd_sameTables h)

/-! ### Translation (R346, R358 to R361) -/

theorem walkUnit_sameTables {v : Nat} {cid : BitVec 12} {va : Nat} (h : s.sameTables t) :
    s.sameTables (walkUnit t v cid va) := by
  have hread : ∀ l x, s.sameTables (forL l (fun a s => dramTouch s a 8) { t with hedges := x }) := fun l x =>
    forL_sameTables dramTouch_sameTables h.set
  unfold walkUnit
  split
  dsimp only
  refine State.sameTables.set ?_
  split
  · exact .ite (State.sameTables.set (hread ..)) (hread ..)
  · exact hread ..

theorem walkPages_sameTables {v : Nat} {cid : BitVec 12} {l : List (Nat × Nat × Bool)} (h : s.sameTables t) :
    s.sameTables (walkPages t v cid l) := by
  refine .ite h (forL_sameTables (fun h => ?_) h)
  unfold useTlb
  split
  · exact h.set
  · exact walkUnit_sameTables h

theorem postFault_sameTables (h : s.sameTables t) : s.sameTables (postFault t) := by
  unfold postFault
  split
  · refine .ite h (State.sameTables.still ?_ (msix_still ..))
    exact State.sameTables.set (h.still (dmaBytes_still ..))
  · exact h

theorem joinFault_sameTables {w : WaitTile} (h : s.sameTables t) : s.sameTables (joinFault t w) :=
  .ite h.set (.ite h.set (.ite (.ite (postFault_sameTables h.set) h.set) h.set))

theorem waitTile_sameTables {o : Owner} {core : Option Nat} {bag : Option (Nat × Nat)}
    {k leaf page : Nat} (h : s.sameTables t) : s.sameTables (waitTile t o core bag k leaf page) :=
  .ite (State.sameTables.set (joinFault_sameTables h.set)) (joinFault_sameTables h.set)

/-! ### Writes at virtual addresses -/

theorem digestVa_sameTables {o : Owner} {va : Nat} {l : List PWord} {pa : Nat} (h : s.sameTables t) :
    s.sameTables (digestVa t o va l pa) :=
  .ite (forL_sameTables (fun h => .ite (digestAdd_sameTables h)
    (.ite (digestAdd_sameTables h) (digestAdd_sameTables h.set))) h) h

theorem writeSpan_sameTables {o : Owner} {x : Span} {l : List PWord} (h : s.sameTables t) :
    s.sameTables (writeSpan o x l t) := by
  have hput : s.sameTables (match t.route x.pa with
      | .dram => afterWrite (dramPut t (paOff x.pa) l) (paOff x.pa) x.n
      | .host => upJob (dmaWords t 0 true (t.hwinAddr (paOff x.pa)) l) o.job (fun j => { j with hostWin := true })
      | .remote => request t (paModule x.pa) o.lc 2 o.cid (BitVec.ofNat 64 x.pa) 0 l (some o) none none x.va
      | .flash => t) := by
    cases t.route x.pa with
    | dram => exact (dramPut_sameTables h).base (afterWrite_base ..)
    | host => exact State.sameTables.set (h.still (dmaWords_still ..))
    | remote => exact h.trans (sameTables_of_sent (request_sent ..))
    | flash => exact h
  exact .ite (failJob_sameTables (digestVa_sameTables hput)) (digestVa_sameTables hput)

theorem writeSpans_sameTables {o : Owner} {xs : List Span} {l : List PWord} (h : s.sameTables t) :
    s.sameTables (writeSpans t o xs l) := by
  induction xs generalizing t l with
  | nil => exact h
  | cons x xs ih => exact ih (writeSpan_sameTables h)

theorem putVa_sameTables {v : Nat} {o : Owner} {va : Nat} {l : List PWord} (h : s.sameTables t) :
    s.sameTables (putVa v o va l t) := by
  unfold putVa writeVa
  dsimp only
  split
  · exact privetFail_sameTables h
  · exact .ite (failJob_sameTables h) (writeSpans_sameTables h)

/-! ### One slot (R327 to R330) -/

theorem spanTouch_sameTables {l : List Span} (h : s.sameTables t) : s.sameTables (spanTouch l t) :=
  forL_sameTables dramTouch_sameTables h

theorem freeSlot_sameTables {o : Owner} {stage : List Span} {keyVa key : Nat} (h : s.sameTables t) :
    s.sameTables (freeSlot o stage keyVa key t) :=
  adderAt_sameTables (forL_sameTables (fun h => forN_sameTables adderAt_sameTables h) h)

theorem slotStop_sameTables {o : Owner} {k : Nat} {z : GradEnd} (h : s.sameTables t) : s.sameTables (slotStop t o k z) := by
  cases z with
  | wait leaf page => exact waitTile_sameTables h
  | fail st => exact failJob_sameTables h
  | privet pa => exact privetFail_sameTables h
  | busy l => exact raiseLines_sameTables h
  | done => exact h
  | overflow => exact h

theorem nextSlot_sameTables {job k vi pos : Nat} (h : s.sameTables t) : s.sameTables (nextSlot job k vi pos t) := h.set

theorem poisonSlot_sameTables {o : Owner} {k : Nat} {a : SlotVa} {rowPa : Nat} (h : s.sameTables t) :
    s.sameTables (poisonSlot o k a rowPa t) :=
  State.sameTables.still (State.sameTables.set (forL_sameTables putVa_sameTables h)) (uePoison_still ..)

/-- A part of a slot is written where the group has it. -/
theorem putVa_option_sameTables {v : Nat} {o : Owner} {r : Option (Nat × Nat)} {l : List PWord} (h : s.sameTables t) :
    s.sameTables (match r with
      | some x => putVa v o x.1 l t
      | none => t) := by
  cases r with
  | none => exact h
  | some x => exact putVa_sameTables h

theorem applySlot_sameTables {o : Owner} {k : Nat} {c : Close} {key : Nat} {a : SlotVa}
    {stage row master state : List Word} (h : s.sameTables t) : s.sameTables (applySlot o k c key a stage row master state t) :=
  .set (.set (putVa_sameTables (putVa_option_sameTables (putVa_option_sameTables h))))

theorem closeSlot_sameTables {o : Owner} {k : Nat} {bad : Option Nat} {c : Close} {vi key pos x : Nat} (h : s.sameTables t) :
    s.sameTables (closeSlot o k bad c vi key pos x t) := by
  unfold closeSlot
  dsimp only
  have hw {l} : s.sameTables (walkPages t (uUpdate k) o.cid l) := walkPages_sameTables h
  split
  · exact slotStop_sameTables hw
  · refine .ite ?frozen (.ite (failJob_sameTables (dramTouch_sameTables hw)) (.ite ?noRow ?row))
    case frozen =>
      split
      · exact slotStop_sameTables hw
      · exact nextSlot_sameTables (.set (freeSlot_sameTables hw))
    case noRow =>
      split
      · exact slotStop_sameTables hw
      · exact nextSlot_sameTables (freeSlot_sameTables (dramTouch_sameTables hw))
    case row =>
      split
      · exact slotStop_sameTables (walkPages_sameTables hw)
      · have ht {l l' a n} : s.sameTables
            (dramTouch (walkPages (walkPages t (uUpdate k) o.cid l) (uUpdate k) o.cid l') a n) :=
          dramTouch_sameTables (walkPages_sameTables hw)
        refine .ite (nextSlot_sameTables (freeSlot_sameTables (poisonSlot_sameTables (spanTouch_sameTables ht))))
          (.ite (failJob_sameTables (.ite (dramTouch_sameTables ht) ht)) ?_)
        split
        · exact State.sameTables.base (.ite (dramTouch_sameTables ht) ht) (arithFault_base ..)
        · exact nextSlot_sameTables (freeSlot_sameTables (applySlot_sameTables (spanTouch_sameTables
            (.ite (dramTouch_sameTables ht) ht))))

theorem engineDone_sameTables {o : Owner} {k : Nat} {c : Close} (h : s.sameTables t) : s.sameTables (engineDone o k c t) :=
  .set (forL_sameTables putVa_sameTables h)

end

end Sys2Proof.Machine
end

section
/-!
Step closes (R325 to R332): how one begins and sends its arrivals, how it starts to walk, what an engine does with a turn, and
how it ends.
-/
namespace Sys2Proof.Machine

theorem exec_stepClose (job idx : Nat) (s : State) : exec (.stepClose job idx) s = execStepClose job idx s := rfl

theorem exec_stepCloseArrivalsMet (job : Nat) (s : State) :
    exec (.stepCloseArrivalsMet job) s = execStepCloseArrivalsMet job s := rfl

theorem exec_updateEngineSlot (h : HedgeId) (bad : Option Nat) (s : State) :
    exec (.updateEngineSlot h bad) s = execUpdateEngineSlot h bad s := rfl

theorem exec_stepCloseFinish (job : Nat) (s : State) : exec (.stepCloseFinish job) s = execStepCloseFinish job s := rfl

/-! ### Commands of a job -/

theorem mayStart_iff {j : Job} {k : JobCmd} : j.mayStart k = true ↔
    j.status = none ∧ k.state = .waiting ∧ j.allows k.idx = true ∧ j.segOpen k.seg = true := by
  simp [Job.mayStart, and_assoc]

theorem id_of_job {s : State} {id : Nat} {j : Job} (h : s.job id = some j) : j.id = id := by
  simpa using List.find?_some h

theorem lives_of_job {s : State} {id : Nat} {j : Job} (h : s.job id = some j) : s.lives id = j.status.isNone := by
  rw [State.lives, h]

theorem cmdMark_lives (s : State) (o : Owner) (st : CmdState) (k : Nat) : (cmdMark s o st).lives k = s.lives k := by
  refine upJob_lives s o.job (fun _ => ?_) (fun _ => ?_) k <;> rfl

/-! ### Arrival words (R323, R326) -/

section
variable (s : State) (p : Nat) (x : Word)

theorem addArrival_eq : ∃ a b, s.addArrival p x = { s with upd := { s.upd with arrive0 := a, arrive1 := b } } := by
  unfold State.addArrival
  split
  · exact ⟨_, s.upd.arrive1, rfl⟩
  · exact ⟨s.upd.arrive0, _, rfl⟩

theorem addArrival_zero : s.addArrival p 0 = s := by
  unfold State.addArrival
  split <;> simp

theorem addArrival_arrive_same : (s.addArrival p x).arrive p = s.arrive p + x := by
  unfold State.addArrival State.arrive
  split <;> rfl

/-- The word of the other parity stays. -/
theorem addArrival_arrive_other : (s.addArrival p x).arrive (1 - p) = s.arrive (1 - p) := by
  unfold State.addArrival State.arrive
  by_cases hp : p = 0
  · subst hp
    rfl
  · rw [if_neg hp, if_pos (by omega), if_pos (by omega)]

theorem arrive_of_upd {s t : State} (h : t.upd = s.upd) (p : Nat) : t.arrive p = s.arrive p := by
  rw [State.arrive, h]
  rfl

theorem addArrival_frame : (s.addArrival p x).upd.closes = s.upd.closes ∧ (s.addArrival p x).jobs = s.jobs := by
  obtain ⟨_, _, h⟩ := addArrival_eq s p x
  rw [h]
  exact ⟨rfl, rfl⟩

theorem addArrival_lives (k : Nat) : (s.addArrival p x).lives k = s.lives k := lives_of_jobs (addArrival_frame s p x).2 k

theorem addArrival_hasPath (m : Nat) : (s.addArrival p x).hasPath m = s.hasPath m := by
  obtain ⟨_, _, h⟩ := addArrival_eq s p x
  rw [h]
  rfl

theorem addArrival_moduleNo : (s.addArrival p x).moduleNo = s.moduleNo := by
  obtain ⟨_, _, h⟩ := addArrival_eq s p x
  rw [h]
  rfl

end

theorem upd_jobs_of_sent {s t : State} (h : s.sent t) : t.upd = s.upd ∧ t.jobs = s.jobs := by
  obtain ⟨_, _, rfl, -⟩ := h
  exact ⟨rfl, rfl⟩

theorem addArrival_sent {s t : State} (h : s.sent t) (p : Nat) (x : Word) : (s.addArrival p x).sent (t.addArrival p x) := by
  obtain ⟨q, f, rfl, hf⟩ := h
  unfold State.addArrival
  split <;> exact ⟨q, f, rfl, hf⟩

/-! ### The end of a job, and the count of steps -/

theorem endJob_g (s : State) (id : Nat) (st : Status) (idx : BitVec 16) : (endJob s id st idx).upd.g = s.upd.g := by
  unfold endJob
  split <;> rfl

theorem endAll_g (s : State) (st : Status) : (endAll s st).upd.g = s.upd.g :=
  forL_induct (P := fun t => t.upd.g = s.upd.g) (fun _ _ h => (endJob_g ..).trans h) rfl

theorem raiseEvent_upd (s : State) (code : BitVec 16) (cid : BitVec 12) (w3 w4 w5 : Word) :
    (raiseEvent s code cid w3 w4 w5).upd = s.upd :=
  (congrArg State.upd (raiseEvent_still s code cid w3 w4 w5) : (raiseEvent s code cid w3 w4 w5).still.upd = s.still.upd)

/-- The end of a job takes no step. -/
theorem failJob_g (s : State) (o : Owner) (st : Status) : (failJob s o st).upd.g = s.upd.g := by
  unfold failJob
  split
  · exact endJob_g ..
  · exact (congrArg Updates.g (raiseEvent_upd ..)).trans ((endAll_g ..).trans (endJob_g ..))

/-! ### Arrivals (R326, R340) -/

/-- An arrival that is sent, or fails its job, changes no version's record, no clock and no step. -/
theorem sendArrival_frame (o : Owner) (p m : Nat) (s : State) :
    s.sameTables (sendArrival o p m s) ∧ (sendArrival o p m s).upd.g = s.upd.g := by
  unfold sendArrival
  split
  · exact ⟨.refl s, rfl⟩
  · split
    · obtain ⟨_, _, h⟩ := addArrival_eq s p 1
      rw [h]
      exact ⟨rfl, rfl⟩
    · split
      · have hsent := request_sent s m false 3 0 0 0 (arrivalPacket m p) (some o) none none 0
        refine ⟨sameTables_of_sent hsent, ?_⟩
        obtain ⟨_, _, h, -⟩ := hsent
        rw [h]
      · exact ⟨failJob_sameTables (.refl s), failJob_g ..⟩

theorem forL_sendArrival_frame (o : Owner) (p : Nat) (l : List Nat) (s : State) :
    s.sameTables (forL l (sendArrival o p) s) ∧ (forL l (sendArrival o p) s).upd.g = s.upd.g :=
  forL_induct (P := fun t => s.sameTables t ∧ t.upd.g = s.upd.g)
    (fun _ _ h => ⟨h.1.trans (sendArrival_frame ..).1, (sendArrival_frame ..).2.trans h.2⟩) ⟨.refl s, rfl⟩

/-- Arrivals to modules with paths: this module's own word counts them once if it is among them, and the rest leaves. -/
theorem forL_sendArrival_sent (o : Owner) (p : Nat) (l : List Nat) (hl : l.Nodup) : ∀ s : State, s.lives o.job = true →
    (∀ m ∈ l, m = s.moduleNo ∨ s.hasPath m = true) →
    (s.addArrival p (if s.moduleNo ∈ l then 1 else 0)).sent (forL l (sendArrival o p) s) := by
  induction l with
  | nil =>
    intro s _ _
    rw [if_neg List.not_mem_nil, addArrival_zero]
    exact .refl s
  | cons m l ih =>
    intro s hlives hpath
    obtain ⟨hm, hnodup⟩ := List.nodup_cons.mp hl
    have hrest := fun k hk => hpath k (List.mem_cons_of_mem m hk)
    rw [forL_cons, sendArrival, hlives, Bool.not_true, if_neg Bool.false_ne_true]
    by_cases hown : m = s.moduleNo
    · have ht := ih hnodup (s.addArrival p 1) (by rw [addArrival_lives, hlives])
        (fun k hk => by rw [addArrival_moduleNo, addArrival_hasPath]; exact hrest k hk)
      rw [addArrival_moduleNo, if_neg (hown ▸ hm), addArrival_zero] at ht
      rw [if_pos hown, if_pos (hown ▸ List.mem_cons_self)]
      exact ht
    · have hgo := (hpath m List.mem_cons_self).resolve_left hown
      have hsent := request_sent s m false 3 0 0 0 (arrivalPacket m p) (some o) none none 0
      have ht := ih hnodup _ (by rw [lives_of_sent hsent, hlives])
        (fun k hk => by rw [moduleNo_of_sent hsent, hasPath_of_sent hsent]; exact hrest k hk)
      rw [moduleNo_of_sent hsent] at ht
      rw [if_neg hown, if_pos hgo]
      simp only [List.mem_cons, Ne.symm hown, false_or]
      exact (addArrival_sent hsent p _).trans ht

/-! ### Staging left undefined (R331) -/

theorem afterWrite_eq (s : State) (a n : Nat) : ∃ g, afterWrite s a n = { s with ig := g } := by
  unfold afterWrite
  split
  · exact ⟨_, rfl⟩
  · refine forN_induct (P := fun t => ∃ g, t = { s with ig := g })
      (forN_induct (P := fun t => ∃ g, t = { s with ig := g }) ⟨_, rfl⟩ ?_) ?_
    · rintro i t - ⟨g, rfl⟩
      unfold resum
      split <;> exact ⟨_, rfl⟩
    · rintro i t - ⟨g, rfl⟩
      dsimp only
      split <;> exact ⟨_, rfl⟩

/-- The states that differ from `s` at most in local DRAM, the copies and checksums of what it holds, and the list of the
versions whose staging is undefined. -/
def State.cleaned (s t : State) : Prop :=
  ∃ d l hs g x, t = { s with dram := d, loose := l, hedges := hs, ig := g, upd := { s.upd with dirty := x } }

theorem State.cleaned.refl (s : State) : s.cleaned s := ⟨_, _, _, _, _, rfl⟩

theorem State.cleaned.trans {s t u : State} (h : s.cleaned t) (h' : t.cleaned u) : s.cleaned u := by
  obtain ⟨_, _, _, _, _, rfl⟩ := h
  obtain ⟨_, _, _, _, _, rfl⟩ := h'
  exact ⟨_, _, _, _, _, rfl⟩

theorem zeroVa_cleaned (s : State) (v : VSlot) (va n : Nat) : s.cleaned (zeroVa s v va n) := by
  refine forL_induct (P := s.cleaned) (fun e t h => ?_) (.refl s)
  dsimp only
  split
  · refine h.trans ?_
    obtain ⟨g, hg⟩ := afterWrite_eq (thicketInvalidate (settleLoose (paOff e.1) e.2
      { t with dram := t.dram.zero (paOff e.1) e.2 }) (paOff e.1) e.2) (paOff e.1) e.2
    exact ⟨_, _, _, g, t.upd.dirty, hg⟩
  · exact h

theorem cleanStaging_cleaned (s : State) (key : Nat) : s.cleaned (cleanStaging s key) := by
  unfold cleanStaging zeroStaging
  split
  · dsimp only
    split
    next => exact .refl s
    next u _ =>
      have hzero : s.cleaned (forL (u.structures (s.slot key).entry.elems) (fun x t => zeroVa t (s.slot key) x.1 x.2) s) :=
        forL_induct (P := s.cleaned) (fun x t h => h.trans (zeroVa_cleaned ..)) (.refl s)
      exact hzero.trans ⟨_, _, _, _, _, rfl⟩
  · exact .refl s

/-! ### A close begins (R325, R326) -/

/-- The close that a command of a job begins. -/
def State.newClose (s : State) (j : Job) (k : JobCmd) (job idx : Nat) : Close :=
  ⟨job, idx, s.closesOf j, fld (wd k.words 0) 48 48, fld (wd k.words 0) 55 49, BitVec.ofNat 16 (fld (wd k.words 0) 47 32),
    fld (wd k.words 0) 31 25, fld (wd k.words 0) 24 22, .arriving, 0, 0, [], [], [], [], []⟩

/-- The modules to which a step close sends its arrival. -/
def JobCmd.arrivalsTo (k : JobCmd) : List Nat := (List.range 64).filter (fun m => (wd k.words 1).getLsbD m)

theorem mem_arrivalsTo {k : JobCmd} {m : Nat} : m ∈ k.arrivalsTo ↔ m < 64 ∧ (wd k.words 1).getLsbD m = true := by
  simp [JobCmd.arrivalsTo]

theorem zeroCloseRows_eq (s : State) : ∃ hs, zeroCloseRows s = { s with hedges := hs } ∧ ∀ k, k < 12 →
    Tbl.get {} hs k = { (s.hedge k) with up := { (s.hedge k).up with lastCloseRows := 0 } } := by
  obtain ⟨hs, heq, hget⟩ := forN_upHedge 12 (fun _ x => { x with up := { x.up with lastCloseRows := 0 } }) s
  exact ⟨hs, heq, fun k hk => (hget k).trans (if_pos hk)⟩

/-- The state with a close listed and the command of its owner running, after staging has been defined. -/
def State.closeListed (s : State) (o : Owner) (c : Close) (d : Mem) (l : List (Nat × Nat × Nat)) (hs : Tbl Hedge)
    (g : Integrity) (x : List Nat) : State :=
  { s with dram := d, loose := l, hedges := hs, ig := g, jobs := (cmdMark s o .running).jobs,
           upd := { s.upd with dirty := x, closes := s.upd.closes ++ [c] } }

/-- A close that may begin is listed, its staging defined and its command running; then its arrivals go out. -/
theorem exec_stepClose_begins {s : State} {job idx : Nat} {j : Job} {k : JobCmd} (hfw : s.fwRuns = true)
    (hj : s.job job = some j) (hk : j.cmd? idx = some k) (ht : k.type = 7) (hm : j.mayStart k = true)
    (hw : s.mustFollow j k 6 = false) : ∃ d l hs g x,
    exec (.stepClose job idx) s = .next (forL k.arrivalsTo (sendArrival (ownerOf j idx) (s.newClose j k job idx).parity)
      (s.closeListed (ownerOf j idx) (s.newClose j k job idx) d l hs g x)) := by
  obtain ⟨hp, -⟩ := Bool.and_eq_true_iff.mp hfw
  obtain ⟨d, l, hs, g, x, hclean⟩ : s.cleaned (forL (s.closesOf j) (fun k s => cleanStaging s k) s) :=
    forL_induct (P := s.cleaned) (fun _ _ h => h.trans (cleanStaging_cleaned ..)) (.refl s)
  rw [exec_stepClose, execStepClose, onCmd_of_live hp hj hk (mayStart_iff.mp hm).1 ht]
  simp only [hfw, hm, hw, Bool.not_false, and_self, if_true, hclean]
  split
  · obtain ⟨hs', heq, -⟩ := zeroCloseRows_eq (cmdMark
      { s with dram := d, loose := l, hedges := hs, ig := g, upd := { s.upd with dirty := x } } (ownerOf j idx) .running)
    rw [heq]
    exact ⟨d, l, hs', g, x, rfl⟩
  · exact ⟨d, l, hs, g, x, rfl⟩

/-- Arrivals to modules with paths change no close and no job, and count once here if this module is among them. -/
theorem arrivals_of_paths {s : State} {o : Owner} {p : Nat} {k : JobCmd} (hlives : s.lives o.job = true)
    (hpath : ∀ m, m < 64 → (wd k.words 1).getLsbD m = true → m = s.moduleNo ∨ s.hasPath m = true) :
    (forL k.arrivalsTo (sendArrival o p) s).upd.closes = s.upd.closes ∧
      (forL k.arrivalsTo (sendArrival o p) s).jobs = s.jobs ∧
      (forL k.arrivalsTo (sendArrival o p) s).arrive p =
        s.arrive p + (if (wd k.words 1).getLsbD s.moduleNo then 1 else 0) ∧
      (forL k.arrivalsTo (sendArrival o p) s).arrive (1 - p) = s.arrive (1 - p) := by
  have hsent := forL_sendArrival_sent o p k.arrivalsTo (List.nodup_range.filter _) s hlives
    fun m hm => hpath m (mem_arrivalsTo.mp hm).1 (mem_arrivalsTo.mp hm).2
  have hown : s.moduleNo ∈ k.arrivalsTo ↔ (wd k.words 1).getLsbD s.moduleNo = true :=
    mem_arrivalsTo.trans (and_iff_right (Nat.mod_lt _ (by decide)))
  rw [if_congr hown rfl rfl] at hsent
  obtain ⟨hupd, hjobs⟩ := upd_jobs_of_sent hsent
  rw [arrive_of_upd hupd, arrive_of_upd hupd, addArrival_arrive_same, addArrival_arrive_other]
  exact ⟨(congrArg Updates.closes hupd).trans (addArrival_frame ..).1, hjobs.trans (addArrival_frame ..).2, rfl, rfl⟩

/-! ### Every peer has arrived (R326) -/

/-- A close as it starts to walk: with the next G and the freeze mask of the module's update state. -/
def Close.walks (u : Updates) (c : Close) : Close := { c with phase := .walking, g := u.g + 1, freeze := u.freeze }

/-- With its peers' arrivals there, a close takes them off its word and starts to walk. -/
theorem exec_stepCloseArrivalsMet_met {s : State} {job : Nat} {c : Close} (hfw : s.fwRuns = true)
    (hc : s.closeOf job = some c) (hph : c.phase = .arriving) (hmet : (c.peers : Int) ≤ (s.arrive c.parity).toInt) :
    ∃ t, exec (.stepCloseArrivalsMet job) s = .next t ∧
      t.arrive c.parity = s.arrive c.parity - BitVec.ofNat 64 c.peers ∧ t.upd.g = s.upd.g + 1 ∧
      t.closeOf job = some { c with phase := .walking, g := s.upd.g + 1, freeze := s.upd.freeze } ∧
      t.dram = s.dram ∧ t.jobs = s.jobs ∧ t.cores = s.cores ∧
      ∀ h, h < 12 → t.hedge h = { s.hedge h with up := { (s.hedge h).up with lastCloseRows := 0 } } := by
  have harr := addArrival_arrive_same s c.parity (-(BitVec.ofNat 64 c.peers))
  rw [← BitVec.sub_eq_add_neg] at harr
  obtain ⟨a, b, hadd⟩ := addArrival_eq s c.parity (-(BitVec.ofNat 64 c.peers))
  rw [hadd] at harr
  rw [exec_stepCloseArrivalsMet, execStepCloseArrivalsMet, whenFw_of_fwRuns hfw]
  simp only [hc, hph, hmet, and_self, if_true, hadd]
  obtain ⟨hs, heq, hget⟩ := zeroCloseRows_eq (upClose
    { s with upd := { s.upd with arrive0 := a, arrive1 := b, g := s.upd.g + 1 } } job (Close.walks s.upd))
  refine ⟨_, congrArg _ heq, harr, rfl, ?_, rfl, rfl, rfl, hget⟩
  refine (find?_updFirst Close.job (f := Close.walks s.upd) (fun _ => rfl) job job s.upd.closes).trans ?_
  rw [if_pos rfl]
  exact congrArg (Option.map _) hc

theorem exec_stepCloseArrivalsMet_waits {s : State} {job : Nat} {c : Close} (hfw : s.fwRuns = true)
    (hc : s.closeOf job = some c) (hwait : (s.arrive c.parity).toInt < c.peers) :
    exec (.stepCloseArrivalsMet job) s = .next s := by
  rw [exec_stepCloseArrivalsMet, execStepCloseArrivalsMet, whenFw_of_fwRuns hfw]
  simp only [hc, Int.not_le.mpr hwait, and_false, if_false]

/-! ### A turn of an engine (R326, steps 5 and 6) -/

/-- What hedge h's engine does with a turn: it works on the next slot of its lists, or ends its part, or is stopped. -/
def engineTurn (o : Owner) (h : Nat) (bad : Option Nat) (c : Close) (s : State) : State :=
  match nextPlace s o h c (c.versions.length + 1) (Tbl.get (0, 0) c.doneAt h).1 (Tbl.get (0, 0) c.doneAt h).2 with
  | .error z => slotStop s o h z
  | .ok none =>
    match partsStop s (uUpdate h) o.cid ((c.counts s h).map (fun va => (va, 8))) with
    | some z => slotStop s o h z
    | none => engineDone o h c s
  | .ok (some (vi, key, pos, x)) => closeSlot o h bad c vi key pos x s

/-- An engine with a walking close that it has not finished, and with no tile waiting, takes its turn. -/
theorem exec_updateEngineSlot_turns {s : State} {h : HedgeId} {c : Close} {j : Job} (bad : Option Nat) (hp : s.powered = true)
    (hc : s.upd.closes.find? (fun c => c.phase == .walking && !c.engines.contains h.val) = some c)
    (hj : s.job c.job = some j) (hw : s.tileWaits (ownerOf j c.idx) (some (uUpdate h.val)) none = false) :
    exec (.updateEngineSlot h bad) s = .next (engineTurn (ownerOf j c.idx) h.val bad c s) := by
  rw [exec_updateEngineSlot, execUpdateEngineSlot, whenPowered_of_powered hp]
  simp only [hc, hj, hw, Bool.false_eq_true, if_false]
  rfl

theorem engineTurn_sameTables (o : Owner) (h : Nat) (bad : Option Nat) (c : Close) (s : State) :
    s.sameTables (engineTurn o h bad c s) := by
  unfold engineTurn
  split
  · exact slotStop_sameTables (.refl s)
  · split
    · exact slotStop_sameTables (.refl s)
    · exact engineDone_sameTables (.refl s)
  · exact closeSlot_sameTables (.refl s)

/-! ### The end of a close (R326, R329, R332) -/

/-- A hedge whose engine has closed once more. -/
def Hedge.closedAgain (x : Hedge) : Hedge := { x with up := { x.up with closes := x.up.closes + 1 } }

/-- What the end of a close takes from hedge h: its clip counts, which go to one core, and its count of closes. -/
def Close.endHedge (c : Close) (h : Nat) (s : State) : State :=
  upHedge (upCore s c.clipCore (fun k => k.clipAdd c.clipSlot (Tbl.get 0 c.totals h) (Tbl.get 0 c.clips h))) h
    Hedge.closedAgain

section
variable (c : Close) (s : State) (n : Nat)

theorem forN_endHedge_eq : ∃ cs hs, forN n c.endHedge s = { s with cores := cs, hedges := hs } := by
  refine forN_induct (P := fun t => ∃ cs hs, t = { s with cores := cs, hedges := hs }) ⟨_, _, rfl⟩ ?_
  rintro h t - ⟨_, _, rfl⟩
  exact ⟨_, _, rfl⟩

theorem forN_endHedge_core {k : Nat} (hk : k ≠ c.clipCore) : (forN n c.endHedge s).core k = s.core k :=
  forN_induct (P := fun t => t.core k = s.core k) rfl fun h t _ ht => by
    rw [Close.endHedge, upHedge_core, upCore_core, if_neg hk, ht]

theorem forN_endHedge_hedge (k : Nat) :
    (forN n c.endHedge s).hedge k = if k < n then (s.hedge k).closedAgain else s.hedge k := by
  induction n with
  | zero => rfl
  | succ n ih =>
    rw [forN_succ, Close.endHedge, upHedge_hedge, upCore_hedge, upCore_hedge]
    by_cases hk : k = n
    · subst hk
      rw [if_pos rfl, ih, if_neg (Nat.lt_irrefl k), if_pos (Nat.lt_succ_self k)]
    · have hlt : k < n + 1 ↔ k < n := by omega
      rw [if_neg hk, ih, if_congr hlt rfl rfl]

end

/-- A close that every engine has worked through ends: its command is done, and the response goes out. -/
theorem exec_stepCloseFinish_ends {s : State} {job : Nat} {c : Close} {j : Job} (hfw : s.fwRuns = true)
    (hc : s.closeOf job = some c) (hj : s.job job = some j) (hph : c.phase = .walking)
    (hall : ∀ h, h < 12 → h ∈ c.engines) (hheld : s.upd.heldGrads = []) :
    ∃ t, exec (.stepCloseFinish job) s = .next t ∧ t.closeOf job = none ∧
      t.jobs = (cmdMark s (ownerOf j c.idx) .done).jobs ∧
      t.out = s.out ++ [.stepClosed j.fn c.g (((List.range 12).map (fun h => Tbl.get 0 c.rows h)).sum) s.tickerW s.timeWord] ∧
      (∀ h, h < 12 → t.hedge h = { s.hedge h with up := { (s.hedge h).up with closes := (s.hedge h).up.closes + 1 } }) ∧
      (∀ k, k ≠ c.clipCore → t.core k = s.core k) ∧ t.dram = s.dram ∧ t.slots = s.slots := by
  have hdone : (List.range 12).all (fun h => c.engines.contains h) = true := by simpa using hall
  have hcore {k : Nat} := forN_endHedge_core c s 12 (k := k)
  have hhedge := forN_endHedge_hedge c s 12
  obtain ⟨cs, hs, heq⟩ := forN_endHedge_eq c s 12
  rw [heq] at hcore hhedge
  unfold Close.endHedge Hedge.closedAgain at heq
  rw [exec_stepCloseFinish, execStepCloseFinish, whenFw_of_fwRuns hfw]
  simp only [hc, hj, hph, hdone, and_self, if_true, heq, runGrads, emit, hheld, forL_nil]
  refine ⟨_, rfl, ?_, rfl, rfl, fun h hh => (hhedge h).trans (if_pos hh), fun _ => hcore, rfl, rfl⟩
  refine List.find?_eq_none.mpr fun x hx => ?_
  simpa using (List.mem_filter.mp hx).2

/-- Settles O46: the beginning, the arrivals, the turns of the engines and the end, each by what its command runs.  That this
module's own arrival counts at once and that the response is an output of its own are the model's choice (log entry 61); that
LAST_CLOSE_ROWS starts at 0 with the walk is deduced (log entry 60). -/
theorem stepCloses : Obligations.StepCloses := by
  unfold Obligations.StepCloses
  refine ⟨fun s job idx j k hfw hj hk ht hm hw => ?begins,
    fun s job c hfw hc hph => ⟨fun hmet => ?met, fun hwait => ?waits⟩,
    fun s h bad c j hp hc hj hw => ?turns, fun s job c j hfw hc hj hph hall hheld => ?ends⟩
  case begins =>
    obtain ⟨d, l, hs, g, x, hexec⟩ := exec_stepClose_begins hfw hj hk ht hm hw
    obtain ⟨htables, hg⟩ := forL_sendArrival_frame (ownerOf j idx) (s.newClose j k job idx).parity k.arrivalsTo
      (s.closeListed (ownerOf j idx) (s.newClose j k job idx) d l hs g x)
    have hlives : (s.closeListed (ownerOf j idx) (s.newClose j k job idx) d l hs g x).lives j.id = true := by
      refine (cmdMark_lives s (ownerOf j idx) .running j.id).trans ?_
      rw [id_of_job hj, lives_of_job hj, (mayStart_iff.mp hm).1]
      rfl
    exact ⟨_, hexec, slots_of_sameTables htables, flash_of_sameTables htables, hg,
      arrivals_of_paths (o := ownerOf j idx) (p := (s.newClose j k job idx).parity) hlives⟩
  case met => exact exec_stepCloseArrivalsMet_met hfw hc hph hmet
  case waits => exact exec_stepCloseArrivalsMet_waits hfw hc hwait
  case turns =>
    have hsame := engineTurn_sameTables (ownerOf j c.idx) h.val bad c s
    refine ⟨_, exec_updateEngineSlot_turns bad hp hc hj hw, slots_of_sameTables hsame, flash_of_sameTables hsame,
      time_of_sameTables hsame, codebooks_of_sameTables hsame, sec_of_sameTables hsame, mbox_of_sameTables hsame,
      sqs_of_sameTables hsame, fun z hz => ?_, fun hz => ?_, fun vi key pos x hz => ?_⟩
    · simp only [engineTurn, hz]
    · simp only [engineTurn, hz] <;> rfl
    · simp only [engineTurn, hz]
  case ends => exact exec_stepCloseFinish_ends hfw hc hj hph hall hheld

end Sys2Proof.Machine
end

section
/-!
The sending side of Lanea (R541 to R543, R547, R548): what a frame on the wire leaves as it was, and what a channel pair holds
after a request goes or waits, after credits come back, after an acknowledgement and after a slot is emptied.
-/
namespace Sys2Proof.Machine

/-! ### Channel pairs -/

/-- The channel pair with a peer after a change of that pair. -/
@[simp] theorem upLchan_lchan_same (s : State) (m : Nat) (lc : Bool) (f : LChan → LChan) :
    (upLchan s m lc f).lchan m lc = f (s.lchan m lc) := by
  simp [upLchan, State.lchan]

theorem lchan_of_chans {s t : State} (h : t.fab.chans = s.fab.chans) (m : Nat) (lc : Bool) : t.lchan m lc = s.lchan m lc := by
  rw [State.lchan, State.lchan, h]

/-! ### Frames on the wire (R543, R555) -/

/-- A frame given to a port changes nothing but the port, and what leaves the module. -/
theorem portPut_sameButPorts (s : State) (p : Nat) (f : TxFrame) : s.sameButPorts (portPut s p f) :=
  (upPort_sameButPorts ..).trans (portGo_sameButPorts ..)

/-- A frame on the wire touches no channel pair. -/
theorem wire_chans (s : State) (m : Nat) (w0 w1 w2 w3 : Word) (l : List PWord) :
    (wire s m w0 w1 w2 w3 l).fab.chans = s.fab.chans := by
  unfold wire
  split
  · rfl
  · obtain ⟨_, _, h⟩ := portPut_sameButPorts (pickPort s m).2 (pickPort s m).1 ⟨m, w0, w1, w2, w3, l⟩
    exact congrArg (fun t => t.fab.chans) h

theorem wire_lchan (s : State) (m : Nat) (w0 w1 w2 w3 : Word) (l : List PWord) (n : Nat) (lc : Bool) :
    (wire s m w0 w1 w2 w3 l).lchan n lc = s.lchan n lc := lchan_of_chans (wire_chans ..) ..

/-- A message as it is kept, under its PSN and with the time at which it goes out (R541, R543). -/
def Unacked.stamped (u : Unacked) (psn : BitVec 32) (now : Nat) : Unacked :=
  { u with psn := psn, w1 := (psn.zeroExtend 64 <<< 32) ||| (u.w1 &&& 0xFFFFFFFF), sentAt := now }

/-- R541, R543: a message goes out under the next PSN and is kept. -/
theorem transmit_lchan (s : State) (m : Nat) (lc : Bool) (u : Unacked) : (transmit s m lc u).lchan m lc =
    { s.lchan m lc with
      psnTx := (s.lchan m lc).psnTx + 1
      unacked := (s.lchan m lc).unacked ++ [u.stamped ((s.lchan m lc).psnTx + 1) s.ticker] } :=
  (wire_lchan ..).trans (upLchan_lchan_same ..)

/-- A message that goes out changes the fabric edge alone. -/
theorem transmit_sent {s t : State} (h : s.sent t) (m : Nat) (lc : Bool) (u : Unacked) : s.sent (transmit t m lc u) :=
  wire_sent (h.setFab ..) ..

theorem upLchan_sent {s t : State} (h : s.sent t) (m : Nat) (lc : Bool) (f : LChan → LChan) : s.sent (upLchan t m lc f) :=
  h.setFab ..

/-! ### Requests (R541, R543, R548) -/

/-- R548: without a credit a request waits. -/
theorem sendReq_of_no_credit {s : State} {m : Nat} {lc : Bool} (h : (s.lchan m lc).held = 0) (kind : Nat) (cid : BitVec 12)
    (txn : BitVec 16) (w2 w3 : Word) (l : List PWord) : ∃ u, sendReq s m lc kind cid txn w2 w3 l =
      upLchan s m lc (fun c => { c with waiting := c.waiting ++ [u] }) := ⟨_, if_pos h⟩

/-- R541, R543: with a credit a request goes out, and the credit is spent. -/
theorem sendReq_of_credit {s : State} {m : Nat} {lc : Bool} (h : 0 < (s.lchan m lc).held) (kind : Nat) (cid : BitVec 12)
    (txn : BitVec 16) (w2 w3 : Word) (l : List PWord) : ∃ u : Unacked, u.psn = (s.lchan m lc).psnTx + 1 ∧ u.w2 = w2 ∧
      u.w3 = w3 ∧ (sendReq s m lc kind cid txn w2 w3 l).lchan m lc = { s.lchan m lc with
        held := (s.lchan m lc).held - 1
        psnTx := (s.lchan m lc).psnTx + 1
        unacked := (s.lchan m lc).unacked ++ [u] } := by
  rw [sendReq, if_neg h.ne', transmit_lchan, upLchan_lchan_same]
  exact ⟨_, rfl, rfl, rfl, rfl⟩

/-! ### Credits (R547, R548) -/

/-- Messages that go out one after another change of their channel pair the PSN and the list of those kept. -/
theorem forL_transmit_lchan (s : State) (m : Nat) (lc : Bool) (l : List Unacked) :
    ∃ n x, (forL l (fun u t => transmit t m lc u) s).lchan m lc = { s.lchan m lc with psnTx := n, unacked := x } := by
  refine forL_induct (P := fun t => ∃ n x, t.lchan m lc = { s.lchan m lc with psnTx := n, unacked := x }) ?_ ⟨_, _, rfl⟩
  rintro u t ⟨n, x, h⟩
  rw [transmit_lchan, h]
  exact ⟨_, _, rfl⟩

/-- R548: what comes back with FREED; as many requests go as there are credits. -/
theorem creditChan_lchan {s : State} {m : Nat} {lc : Bool} {freed : BitVec 32}
    (h : seqLe (s.lchan m lc).returned freed = true) :
    (let c := s.lchan m lc
     let all := c.held + (freed - c.returned).toNat
     ∃ n x, (creditChan s m lc freed).lchan m lc = { c with
       returned := freed, held := all - min all c.waiting.length, waiting := c.waiting.drop all, psnTx := n, unacked := x }) := by
  intro c all
  obtain ⟨n, x, hgo⟩ := forL_transmit_lchan (upLchan s m lc fun c => { c with
      returned := freed
      held := all - (c.waiting.take all).length
      waiting := c.waiting.drop (c.waiting.take all).length }) m lc (c.waiting.take all)
  refine ⟨n, x, ?_⟩
  rw [creditChan, if_pos h]
  refine hgo.trans ?_
  rw [upLchan_lchan_same]
  simp [c, List.length_take]

/-! ### Acknowledgements and slots (R542, R548) -/

/-- R542: an acknowledgement drops what it covers. -/
theorem ackChan_lchan (s : State) (m : Nat) (lc : Bool) (ack : BitVec 32) : (ackChan s m lc ack).lchan m lc =
    { s.lchan m lc with unacked := (s.lchan m lc).unacked.filter fun u => !seqLe u.psn ack } :=
  upLchan_lchan_same s m lc fun c => { c with unacked := c.unacked.filter fun u => !seqLe u.psn ack }

/-- R548: a slot is emptied and counted. -/
theorem slotFreed_lchan (s : State) (m : Nat) (lc : Bool) (txn : BitVec 16) : (slotFreed s m lc txn).lchan m lc =
    { s.lchan m lc with
      freed := (s.lchan m lc).freed + 1
      slots := dropFirst (fun e => e.2 == txn) (s.lchan m lc).slots } :=
  (wire_lchan ..).trans (upLchan_lchan_same ..)

theorem slotFreed_sent {s t : State} (h : s.sent t) (m : Nat) (lc : Bool) (txn : BitVec 16) : s.sent (slotFreed t m lc txn) :=
  wire_sent (upLchan_sent h ..) ..

/-- R547: a module outside any domain is alone, and grants no credits. -/
theorem grant_of_no_record {s : State} (h : s.fab.applied = []) (lc : Bool) : s.grant lc = 0 := by
  have hmask : s.domainMask = 1 := if_pos h
  have hsize : s.domainSize = 1 := by
    rw [State.domainSize, hmask]
    decide
  exact if_pos hsize.le

end Sys2Proof.Machine
end

section
/-!
The receiving side of Lanea (R338 to R340, R539 to R545, R549, R550): frames and their checks, the order of a channel pair, the
home's execution of requests, and a census; then the messages together.
-/
namespace Sys2Proof.Machine

/-! ### Frames and their checks (R539, R540) -/

/-- The frame is for this module, from another module of its domain. -/
def State.hears (s : State) (m : LaneaMsg) : Prop := fld m.w0 45 40 = s.moduleNo ∧ laneaSrc m ∈ s.peerList

/-- The state once a frame that arrives on a port has been counted. -/
def State.received (s : State) (port : Nat) : State := upPort s port fun q => { q with rxFrames := q.rxFrames + 1 }

section
variable {s : State} {port : Nat} {m : LaneaMsg} (hp : s.powered = true) (hup : (s.port port).up = true)
include hp hup

theorem receive_of_malformed (h : laneaOk m = false) (f : State → State) : receive port m f s =
    upPort (s.received port) port fun q => { q with icrcErrors := q.icrcErrors + 1 } := by
  simp only [receive, whenPowered_of_powered hp, hup, h, Bool.not_true, Bool.false_eq_true, Bool.not_false, if_false, if_true]
  rfl

theorem receive_of_not_hears (h : laneaOk m = true) (hm : ¬ s.hears m) (f : State → State) :
    receive port m f s = s.received port := by
  have hno : fld m.w0 45 40 ≠ s.moduleNo ∨ !s.peerList.contains (laneaSrc m) := by
    simpa [State.hears, imp_iff_not_or] using hm
  simp only [receive, whenPowered_of_powered hp, hup, h, Bool.not_true, Bool.false_eq_true, if_false]
  exact if_pos hno

theorem receive_of_hears (h : laneaOk m = true) (hm : s.hears m) (f : State → State) :
    receive port m f s = f (s.received port) := by
  have hyes : ¬ (fld m.w0 45 40 ≠ s.moduleNo ∨ !s.peerList.contains (laneaSrc m)) := by simpa [State.hears] using hm
  simp only [receive, whenPowered_of_powered hp, hup, h, Bool.not_true, Bool.false_eq_true, if_false]
  exact if_neg hyes

end

/-- The requests of a channel, each with the kind that it takes. -/
def laneaRequests (port : Fin 32) (m : LaneaMsg) : List (Instr × Nat) :=
  [(.laneaRead port m, 1), (.laneaWrite port m, 2), (.laneaAddAddress port m, 3), (.laneaAddGradient port m, 4),
    (.gatherReq port m, 5)]

section
variable {port : Fin 32} {m : LaneaMsg} (hfit : m.payload.length ≤ 520) (s : State)
include hfit

theorem exec_laneaRequests {i : Instr} {k : Nat} (h : (i, k) ∈ laneaRequests port m) :
    exec i s = .next (requestOf k port m s) := by
  simp only [laneaRequests, List.mem_cons, Prod.mk.injEq, List.not_mem_nil, or_false] at h
  rcases h with ⟨rfl, rfl⟩ | ⟨rfl, rfl⟩ | ⟨rfl, rfl⟩ | ⟨rfl, rfl⟩ | ⟨rfl, rfl⟩ <;>
    exact guardWf_of_wf _ _ (decide_eq_true hfit)

theorem exec_laneaResponse : exec (.laneaResponse port m) s =
    .next (receive port m (fun s => if laneaResp m then channelMsg port m s else s) s) :=
  guardWf_of_wf _ _ (decide_eq_true hfit)

theorem exec_laneaCredit : exec (.laneaCredit port m) s = .next (receive port m (fun s =>
    if laneaKind m = 6 then
      creditChan (creditChan s (laneaSrc m) true (m.w2.extractLsb' 32 32)) (laneaSrc m) false (m.w2.extractLsb' 0 32)
    else s) s) :=
  guardWf_of_wf _ _ (decide_eq_true hfit)

theorem exec_laneaAck : exec (.laneaAck port m) s = .next (receive port m (fun s =>
    if laneaKind m = 8 then
      ackChan (ackChan s (laneaSrc m) true (m.w2.extractLsb' 32 32)) (laneaSrc m) false (m.w2.extractLsb' 0 32)
    else s) s) :=
  guardWf_of_wf _ _ (decide_eq_true hfit)

end

/-! ### Contacts with peers (R538, R550) -/

/-- What this module knows of a peer's reach and power: the record without the turn of its ports, the census count and the
audits. -/
def Peer.contact (q : Peer) : Peer := { q with nextPort := 0, censusSeq := 0, auditLc := none, auditBe := none }

/-- The states that hold the same local DRAM, jobs and contacts as `s`. -/
def State.sameContacts (s t : State) : Prop :=
  t.dram = s.dram ∧ t.jobs = s.jobs ∧ ∀ k, (t.peer k).contact = (s.peer k).contact

@[simp] theorem upPeer_peer (s : State) (m k : Nat) (f : Peer → Peer) :
    (upPeer s m f).peer k = if k = m then f (s.peer m) else s.peer k := Tbl.get_upd ..

section
variable {s t : State}

theorem State.sameContacts.refl (s : State) : s.sameContacts s := ⟨rfl, rfl, fun _ => rfl⟩

theorem State.sameContacts.ite {p : Prop} [Decidable p] {a b : State} (ha : s.sameContacts a) (hb : s.sameContacts b) :
    s.sameContacts (if p then a else b) := by
  split
  · exact ha
  · exact hb

theorem State.sameContacts.upPeer (h : s.sameContacts t) (m : Nat) {f : Peer → Peer} (hf : ∀ q, (f q).contact = q.contact) :
    s.sameContacts (upPeer t m f) := by
  refine ⟨h.1, h.2.1, fun k => (?_ : _ = (t.peer k).contact).trans (h.2.2 k)⟩
  rw [upPeer_peer]
  split
  next hk => rw [hf, hk]
  next => rfl

/-- A change of the channel pairs and the requests. -/
theorem State.sameContacts.set (h : s.sameContacts t) (chans : Tbl LChan) (reqs : List LReq) :
    s.sameContacts { t with fab := { t.fab with chans := chans, reqs := reqs } } := h

theorem State.sameContacts.ports {u : State} (h : s.sameContacts t) (hu : t.sameButPorts u) : s.sameContacts u := by
  obtain ⟨_, _, rfl⟩ := hu
  exact h

theorem State.sameContacts.still {u : State} (h : s.sameContacts t) (hu : u.still = t.still) : s.sameContacts u :=
  ⟨(congrArg State.dram hu : u.still.dram = t.still.dram).trans h.1,
    (congrArg State.jobs hu : u.still.jobs = t.still.jobs).trans h.2.1, fun k =>
    (congrArg (fun x => (State.peer x k).contact) hu : (u.still.peer k).contact = (t.still.peer k).contact).trans (h.2.2 k)⟩

theorem wire_sameContacts (h : s.sameContacts t) (m : Nat) (w0 w1 w2 w3 : Word) (l : List PWord) :
    s.sameContacts (wire t m w0 w1 w2 w3 l) := by
  have hturn := h.upPeer m (f := fun q => { q with nextPort := q.nextPort + 1 }) fun _ => rfl
  exact .ite h (hturn.ports (portPut_sameButPorts ..))

theorem transmit_sameContacts (h : s.sameContacts t) (m : Nat) (lc : Bool) (u : Unacked) :
    s.sameContacts (transmit t m lc u) := wire_sameContacts (h.set ..) ..

theorem ackChan_sameContacts (h : s.sameContacts t) (m : Nat) (lc : Bool) (ack : BitVec 32) :
    s.sameContacts (ackChan t m lc ack) := h.set ..

theorem creditChan_sameContacts (h : s.sameContacts t) (m : Nat) (lc : Bool) (freed : BitVec 32) :
    s.sameContacts (creditChan t m lc freed) :=
  .ite (forL_induct (P := s.sameContacts) (fun u _ h => transmit_sameContacts h m lc u) (h.set ..)) h

theorem setAudit_sameContacts (h : s.sameContacts t) (m : Nat) (lc : Bool) (a : Option Audit) :
    s.sameContacts (setAudit t m lc a) :=
  h.upPeer m fun q => by split <;> rfl

theorem snapAudit_sameContacts (h : s.sameContacts t) (m : Nat) (lc : Bool) : s.sameContacts (snapAudit t m lc) := by
  unfold snapAudit
  split
  · exact h
  · exact .ite (setAudit_sameContacts h ..) h

theorem censusClass_sameContacts (h : s.sameContacts t) (m : Nat) (lc : Bool) (last held returned freed ack : BitVec 32) :
    s.sameContacts (censusClass m lc last held returned freed ack t) :=
  snapAudit_sameContacts (creditChan_sameContacts (ackChan_sameContacts (setAudit_sameContacts h ..) ..) ..) ..

end

/-- A port that stays up serves the same peers. -/
theorem upPort_upPorts (s : State) (p m : Nat) {f : Port → Port} (hf : ∀ q, (f q).up = q.up) :
    (upPort s p f).upPorts m = s.upPorts m := by
  have hport : ∀ k, ((upPort s p f).port k).up = (s.port k).up := fun k => by
    rw [upPort_port]
    split
    next hk => rw [hf, hk]
    next => rfl
  simp only [State.upPorts, hport]
  rfl

/-- The state once a census of a peer, of its power-up `ups`, has been noted. -/
def State.censusNoted (s : State) (p : Nat) (ups : BitVec 32) : State :=
  upPeer s p fun q => { q with powerUps := some ups, lastCensus := s.ticker, reachable := !(s.upPorts p).isEmpty }

/-- R550, R553: a census of the power-up that this module knows renews the contact, and restarts nothing. -/
theorem exec_census_renews {s : State} {port : Fin 32} {m : LaneaMsg} (hp : s.powered = true)
    (hup : (s.port port).up = true) (hfit : m.payload.length ≤ 520) (hok : laneaOk m = true) (hm : s.hears m)
    (hk : laneaKind m = 7) (hpois : anyPoison m.payload = false)
    (hups : (s.peer (laneaSrc m)).powerUps = some ((wd (pdata m.payload) 0).extractLsb' 32 32)) :
    ∃ t, exec (.census port m) s = .next t ∧
      ((s.received port).censusNoted (laneaSrc m) ((wd (pdata m.payload) 0).extractLsb' 32 32)).sameContacts t := by
  have hknown : ((s.received port).peer (laneaSrc m)).powerUps = some ((wd (pdata m.payload) 0).extractLsb' 32 32) := hups
  refine ⟨_, (guardWf_of_wf (c := .census port m) "CENSUS" _ (decide_eq_true hfit)).trans
    (congrArg _ (receive_of_hears hp hup hok hm _)), ?_⟩
  simp only [hk, hpois, hknown, Bool.not_false, and_self, if_true]
  refine censusClass_sameContacts (censusClass_sameContacts (.ite ?_ ?_) ..) ..
  · exact .still (.refl _) (raiseEvent_still ..)
  · exact .refl _

/-! ### The order of a channel pair (R541 to R543, R549) -/

/-- An access that must wait changes the places of requests in the channels' queues alone (R66). -/
theorem raiseLines_eq (s : State) (lc : Bool) (l : List Nat) : ∃ cs, raiseLines s lc l = { s with chans := cs } := by
  unfold raiseLines
  split
  · refine forL_induct (P := fun t => ∃ cs, t = { s with chans := cs }) ?_ ⟨_, rfl⟩
    rintro c t ⟨cs, rfl⟩
    exact ⟨_, rfl⟩
  · exact ⟨_, rfl⟩

/-- The state in which a request has taken its receive slot. -/
def State.slotTaken (s : State) (m : LaneaMsg) : State :=
  upLchan s (laneaSrc m) (laneaLc m) fun c => { c with slots := c.slots ++ [(laneaPsn m, laneaTxn m)] }

/-- The state in which a message that came early is kept (R543). -/
def State.keptEarly (s : State) (m : LaneaMsg) : State :=
  upLchan s (laneaSrc m) (laneaLc m) fun c => { c with early := c.early ++ [(laneaPsn m, m)] }

theorem slotTaken_homeHeld (s : State) (m : LaneaMsg) : (s.slotTaken m).homeHeld m = s.homeHeld m := busyLines_congr rfl rfl _

section
variable {s : State} {m : LaneaMsg} (port : Nat)

theorem channelMsg_of_not_started (h : (s.lchan (laneaSrc m) (laneaLc m)).started = false) : channelMsg port m s = s := by
  simp [channelMsg, h]

variable (hs : (s.lchan (laneaSrc m) (laneaLc m)).started = true)
include hs

/-- R543: a message that has come before is counted and acknowledged again. -/
theorem channelMsg_of_known (h : seqLe (laneaPsn m) (s.lchan (laneaSrc m) (laneaLc m)).psnRx = true ∨
      ∃ e ∈ (s.lchan (laneaSrc m) (laneaLc m)).early, e.1 = laneaPsn m) : channelMsg port m s =
    sendAck (drainEarly (laneaSrc m) (laneaLc m) (s.lchan (laneaSrc m) (laneaLc m)).early.length
      (upPort s port fun q => { q with dupDrops := q.dupDrops + 1 })) (laneaSrc m) := by
  have hknown : (seqLe (laneaPsn m) (s.lchan (laneaSrc m) (laneaLc m)).psnRx ||
      (s.lchan (laneaSrc m) (laneaLc m)).early.any fun e => e.1 == laneaPsn m) = true := by
    simpa using h
  simp only [channelMsg, hs, hknown, Bool.not_true, Bool.false_eq_true, if_false, if_true]

variable (hnew : seqLe (laneaPsn m) (s.lchan (laneaSrc m) (laneaLc m)).psnRx = false)
  (hearly : (s.lchan (laneaSrc m) (laneaLc m)).early = []) (hreq : laneaResp m = false)
include hnew hearly hreq

/-- R549: a request without a slot is dropped and counted. -/
theorem channelMsg_of_no_slot (h : s.grant (laneaLc m) ≤ (s.lchan (laneaSrc m) (laneaLc m)).slots.length) :
    channelMsg port m s = upPort s port fun q => { q with overruns := q.overruns + 1 } := by
  simp only [channelMsg, hs, hnew, hearly, hreq, h, List.any_nil, Bool.or_false, Bool.not_true, Bool.not_false,
    Bool.false_eq_true, decide_true, Bool.and_self, if_false, if_true]

variable (hslot : (s.lchan (laneaSrc m) (laneaLc m)).slots.length < s.grant (laneaLc m))
include hslot

/-- A new request that finds a slot takes it, and executes or is kept. -/
theorem channelMsg_of_slot : channelMsg port m s =
    if laneaPsn m = (s.lchan (laneaSrc m) (laneaLc m)).psnRx + 1 ∧ !s.homeHeld m then
      sendAck (inOrder m (s.slotTaken m)) (laneaSrc m)
    else if laneaPsn m = (s.lchan (laneaSrc m) (laneaLc m)).psnRx + 1 then
      raiseLines ((s.slotTaken m).keptEarly m) (laneaLc m) (homeLines m)
    else (s.slotTaken m).keptEarly m := by
  rw [← slotTaken_homeHeld]
  simp only [channelMsg, hs, hnew, hearly, hreq, Nat.not_le.mpr hslot, List.any_nil, Bool.or_false, Bool.not_true,
    Bool.not_false, Bool.false_eq_true, decide_false, Bool.and_false, if_false, List.length_nil, drainEarly]
  rfl

/-- R543: in order and with its lines free, a request executes and is acknowledged. -/
theorem channelMsg_in_order (hpsn : laneaPsn m = (s.lchan (laneaSrc m) (laneaLc m)).psnRx + 1)
    (hfree : s.homeHeld m = false) : channelMsg port m s = sendAck (inOrder m (s.slotTaken m)) (laneaSrc m) := by
  rw [channelMsg_of_slot port hs hnew hearly hreq hslot, if_pos ⟨hpsn, by rw [hfree]; rfl⟩]

/-- R543: a request before its turn, or with lines that an earlier access holds, takes its slot and is kept. -/
theorem channelMsg_kept (h : laneaPsn m ≠ (s.lchan (laneaSrc m) (laneaLc m)).psnRx + 1 ∨ s.homeHeld m = true) :
    (channelMsg port m s).dram = s.dram ∧ (channelMsg port m s).lchan (laneaSrc m) (laneaLc m) =
      { s.lchan (laneaSrc m) (laneaLc m) with
        slots := (s.lchan (laneaSrc m) (laneaLc m)).slots ++ [(laneaPsn m, laneaTxn m)]
        early := [(laneaPsn m, m)] } := by
  have hkept : ((s.slotTaken m).keptEarly m).lchan (laneaSrc m) (laneaLc m) =
      { s.lchan (laneaSrc m) (laneaLc m) with
        slots := (s.lchan (laneaSrc m) (laneaLc m)).slots ++ [(laneaPsn m, laneaTxn m)]
        early := [(laneaPsn m, m)] } := by
    rw [State.keptEarly, upLchan_lchan_same, State.slotTaken, upLchan_lchan_same, hearly]
    rfl
  have hwaits : ¬ (laneaPsn m = (s.lchan (laneaSrc m) (laneaLc m)).psnRx + 1 ∧ !s.homeHeld m) := by
    rintro ⟨hpsn, hfree⟩
    rcases h with h | h
    · exact h hpsn
    · simp [h] at hfree
  rw [channelMsg_of_slot port hs hnew hearly hreq hslot, if_neg hwaits]
  split
  · obtain ⟨cs, hraise⟩ := raiseLines_eq ((s.slotTaken m).keptEarly m) (laneaLc m) (homeLines m)
    rw [hraise]
    exact ⟨rfl, hkept⟩
  · exact ⟨rfl, hkept⟩

end

/-! ### The home executes a request (R338, R340, R544) -/

/-- The end of a request at its home changes the fabric edge alone. -/
theorem homeAnswer_sent (m : LaneaMsg) (r : Option (Status × List PWord)) (s : State) : s.sent (homeAnswer m r s) := by
  unfold homeAnswer
  cases r with
  | none => exact slotFreed_sent (.refl s) ..
  | some x => exact slotFreed_sent (transmit_sent (.refl s) ..) ..

theorem homeAnswer_sansReads (m : LaneaMsg) (r : Option (Status × List PWord)) (s : State) :
    (homeAnswer m r s).sansReads = s.sansReads := by
  obtain ⟨_, _, h, -⟩ := homeAnswer_sent m r s
  rw [h]
  rfl

/-- A check counts at most a refusal in a hedge's record. -/
theorem homeCheck_sansReads (s : State) (cid : BitVec 12) (pa n : Nat) (write : Bool) :
    (homeCheck s cid pa n write).1.sansReads = s.sansReads := by
  unfold homeCheck
  dsimp only
  split
  · rfl
  · split
    · rfl
    · split <;> rfl

/-- R338, R340, R353: what the home's checks let through. -/
theorem of_homeCheck_none {s t : State} {cid : BitVec 12} {pa n : Nat} {write : Bool}
    (h : homeCheck s cid pa n write = (t, none)) : t = s ∧ paModule pa = s.moduleNo ∧ paSpace pa = 0 ∧ paOff pa % 8 = 0 ∧
      paOff pa + n ≤ dramBytes ∧ ∀ l ∈ linesOf (paOff pa) n, s.privetOk cid 0 l write = true := by
  unfold homeCheck at h
  dsimp only at h
  split at h
  · cases h
  · rename_i hplace
    split at h
    · cases h
    · rename_i halign
      split at h
      · rename_i hlines
        cases h
        simp only [not_or, not_not, not_lt] at hplace
        obtain ⟨hmod, hspace, hbound⟩ := hplace
        exact ⟨rfl, hmod, hspace, not_not.mp halign, hbound, List.all_eq_true.mp hlines⟩
      · cases h

/-- R544: a READ counts and answers, and changes nothing that it reads. -/
theorem homeRead_sansReads (m : LaneaMsg) (s : State) : (homeRead m s).sansReads = s.sansReads := by
  have hcheck := homeCheck_sansReads s (laneaCid m) (fld m.w2 55 0) (fld m.w3 12 0) false
  unfold homeRead
  dsimp only
  split
  · exact homeAnswer_sansReads ..
  · split
    · rename_i hc
      rw [hc] at hcheck
      exact (homeAnswer_sansReads ..).trans hcheck
    · rename_i hc
      rw [hc] at hcheck
      exact (homeAnswer_sansReads ..).trans ((sansReads_of_sansChans (dramTouch_sansChans ..)).trans hcheck)

/-- A WRITE that the home's checks forbid reaches no memory. -/
theorem homeWrite_of_refused {s t : State} {m : LaneaMsg} {st : Status}
    (h : homeCheck s (laneaCid m) (fld m.w2 55 0) (8 * m.payload.length) true = (t, some st)) :
    (homeWrite m s).dram = s.dram := by
  have hcheck := homeCheck_sansReads s (laneaCid m) (fld m.w2 55 0) (8 * m.payload.length) true
  rw [h] at hcheck
  simp only [homeWrite, h]
  exact dram_of_sansReads ((homeAnswer_sansReads ..).trans hcheck)

/-- R544: a WRITE stores its payload at its address, and no other word changes. -/
theorem homeWrite_word {s : State} {m : LaneaMsg}
    (h : homeCheck s (laneaCid m) (fld m.w2 55 0) (8 * m.payload.length) true = (s, none)) (i : Nat) :
    (homeWrite m s).dram.word i =
      if paOff (fld m.w2 55 0) / 8 ≤ i ∧ i < paOff (fld m.w2 55 0) / 8 + m.payload.length then
        (if (m.payload.getD (i - paOff (fld m.w2 55 0) / 8) PWord.bad).poison then .bad
          else .good (m.payload.getD (i - paOff (fld m.w2 55 0) / 8) PWord.bad).data)
      else s.dram.word i := by
  obtain ⟨g, hafter⟩ := afterWrite_eq (dramPut s (paOff (fld m.w2 55 0)) m.payload) (paOff (fld m.w2 55 0))
    (8 * m.payload.length)
  have hdram : (homeWrite m s).dram = (dramPut s (paOff (fld m.w2 55 0)) m.payload).dram := by
    simp only [homeWrite, h, hafter]
    exact dram_of_sansReads (homeAnswer_sansReads ..)
  rw [hdram, dramPut_word_getD]

/-! ### The messages together -/

/-- Settles O58: the frames by their checks, the order by what a channel pair holds, the requests by what the home executes, the
sending side by what a channel pair holds after each step.  That a request whose lines an earlier access holds counts as early
is deduced (log entry 104), and so is what makes a frame malformed (log entry 71). -/
theorem laneaMessages : Obligations.LaneaMessages := by
  unfold Obligations.LaneaMessages
  refine ⟨⟨fun s port m hp hup hfit => ⟨fun i k hi hok hm hresp hk => ?request, fun hok hm hresp => ?response,
      fun i k hi hbad => ?malformed, fun i k hi hok hm => ?stranger, fun hok hm hk => ?credit, fun hok hm hk => ?ack,
      fun hok hm hk hpois hups => ?census⟩,
    fun s port m => ⟨channelMsg_of_not_started port, channelMsg_of_known port, fun hs hnew hearly hreq =>
      ⟨channelMsg_of_no_slot port hs hnew hearly hreq, fun hslot =>
        ⟨fun hpsn => channelMsg_kept port hs hnew hearly hreq hslot (.inl hpsn),
          channelMsg_in_order port hs hnew hearly hreq hslot,
          fun _ hheld => channelMsg_kept port hs hnew hearly hreq hslot (.inr hheld)⟩⟩⟩,
    fun s m => ?home⟩, fun s m lc kind cid txn w2 w3 l => ⟨fun h => sendReq_of_no_credit h .., fun h => ?sends⟩,
    fun s m lc freed h => ?credits, fun s m lc ack => ⟨congrArg LChan.unacked (ackChan_lchan s m lc ack), rfl⟩,
    fun s m lc txn => ⟨congrArg LChan.freed (slotFreed_lchan s m lc txn), congrArg LChan.slots (slotFreed_lchan s m lc txn)⟩,
    fun s lc h => grant_of_no_record h lc⟩
  case request =>
    rw [exec_laneaRequests hfit s hi, requestOf, receive_of_hears hp hup hok hm, if_pos ⟨hk, by rw [hresp]; rfl⟩]
    rfl
  case response =>
    rw [exec_laneaResponse hfit, receive_of_hears hp hup hok hm, if_pos hresp]
    rfl
  case malformed =>
    rw [exec_laneaRequests hfit s hi, requestOf, receive_of_malformed hp hup hbad]
    rfl
  case stranger =>
    rw [exec_laneaRequests hfit s hi, requestOf, receive_of_not_hears hp hup hok hm]
    rfl
  case credit =>
    rw [exec_laneaCredit hfit, receive_of_hears hp hup hok hm, if_pos hk]
    rfl
  case ack =>
    rw [exec_laneaAck hfit, receive_of_hears hp hup hok hm, if_pos hk]
    rfl
  case census =>
    obtain ⟨t, hexec, hdram, hjobs, hcontact⟩ := exec_census_renews hp hup hfit hok hm hk hpois hups
    have hpeer := hcontact (laneaSrc m)
    rw [State.censusNoted, upPeer_peer, if_pos rfl] at hpeer
    refine ⟨t, hexec, congrArg Peer.lastCensus hpeer, (congrArg Peer.powerUps hpeer).trans hups.symm,
      (congrArg Peer.reachable hpeer).trans ?_, hdram, hjobs⟩
    have hports : (s.received port).upPorts (laneaSrc m) = s.upPorts (laneaSrc m) := upPort_upPorts s _ _ fun _ => rfl
    show (!((s.received port).upPorts (laneaSrc m)).isEmpty) = _
    rw [hports]
    cases s.upPorts (laneaSrc m) <;> rfl
  case home =>
    have hread := homeRead_sansReads m s
    exact ⟨fun i => by rw [dram_of_sansReads hread], jobs_of_sansReads hread, cores_of_sansReads hread,
      fun _ _ => homeWrite_of_refused, homeWrite_word,
      fun _ _ _ _ _ => of_homeCheck_none⟩
  case sends =>
    obtain ⟨u, hpsn, hw2, hw3, hchan⟩ := sendReq_of_credit h kind cid txn w2 w3 l
    rw [hchan]
    exact ⟨u, rfl, hpsn, hw2, hw3, rfl, rfl⟩
  case credits =>
    obtain ⟨n, x, hchan⟩ := creditChan_lchan h
    rw [hchan]
    refine ⟨rfl, ?_, rfl⟩
    dsimp only
    omega

end Sys2Proof.Machine
end

section
/-!
Walks and TLBs (R346 to R349, R397, R399): what a walk leaves, and that the entry that a unit's TLB takes from a VALID leaf
translates its addresses as the walk did.
-/
namespace Sys2Proof.Machine

theorem exec_pageWalk (u : XlUnit) (cid : BitVec 12) (va : BitVec 52) (bad : Bool) (s : State) :
    exec (.pageWalk u cid va bad) s = execPageWalk u cid va bad s := rfl

/-! ### Leaves (R343, R344) -/

/-- A leaf that a walk finds is one that its level allows. -/
theorem goodLeaf_of_walkFrom {s : State} {cache : List (Nat × Word)} {va key level : Nat} {w : Word} {r' : WalkReads} :
    ∀ {n node : Nat} {r : WalkReads}, walkFrom s cache va n node r = (.leaf key level w, r') → goodLeaf w level = true := by
  intro n
  induction n with
  | zero => intro node r h; cases h
  | succ n ih =>
    intro node r h
    unfold walkFrom at h
    dsimp only at h
    split at h
    · exact ih h
    · split at h
      · cases h
      · split at h
        next hleaf =>
          cases h
          exact hleaf
        next =>
          split at h
          · exact ih h
          · cases h

theorem goodLeaf_of_walk {s : State} {h va key level : Nat} {cid : BitVec 12} {w : Word} {r : WalkReads}
    (hw : walk s h cid va = (.leaf key level w, r)) : goodLeaf w level = true := by
  unfold walk at hw
  dsimp only at hw
  split at hw
  · cases hw
  · split at hw
    · cases hw
    · exact goodLeaf_of_walkFrom hw

/-- R344: a leaf lies at level 1 to 3, maps an address that is a multiple of its page, and has CONTIG at level 1 alone. -/
theorem of_goodLeaf {w : Word} {level : Nat} (h : goodLeaf w level = true) :
    level ≤ 3 ∧ pteOa w % pageBytes level = 0 ∧ (pteContig w = true → level = 1) := by
  simp only [goodLeaf, Bool.and_eq_true, Bool.or_eq_true, beq_iff_eq, decide_eq_true_eq, Bool.not_eq_true'] at h
  obtain ⟨⟨⟨⟨⟨-, hlevel⟩, -⟩, -⟩, hlow⟩, halign⟩ := h
  refine ⟨hlevel, halign, fun hc => hlow.resolve_right ?_⟩
  rw [hc]
  rintro ⟨-, hno⟩
  cases hno

/-! ### TLB entries (R346, R348) -/

/-- The entry translates an address under a context. -/
def TlbEntry.covers (e : TlbEntry) (cid : BitVec 12) (va : Nat) : Prop :=
  e.cid = cid ∧ e.vbase ≤ va / 65536 ∧ va / 65536 < e.vbase + e.pages

/-- R348: the entry of a leaf translates the address whose walk found it, to the address that the leaf gives. -/
theorem tlbOf_covers {cid : BitVec 12} {va level : Nat} {w : Word} (hleaf : goodLeaf w level = true)
    (hrun : pteContig w = true → pteOa w / 65536 % 32 = va / 65536 % 32) :
    (tlbOf cid va level w).covers cid va ∧ (tlbOf cid va level w).write = pteWrite w ∧
      (tlbOf cid va level w).fw = pteFw w ∧
      (tlbOf cid va level w).oa + (va - 65536 * (tlbOf cid va level w).vbase) = pteOa w + va % pageBytes level := by
  obtain ⟨hlevel, halign, hone⟩ := of_goodLeaf hleaf
  cases hc : pteContig w with
  | true =>
    have hoa := hrun hc
    obtain rfl := hone hc
    simp only [tlbOf, hc, if_true, TlbEntry.covers, pageBytes, true_and] at halign ⊢
    omega
  | false =>
    have hpage : pageBytes level = 65536 ∨ pageBytes level = 2 ^ 25 ∨ pageBytes level = 2 ^ 34 := by
      unfold pageBytes
      split <;> simp
    simp only [tlbOf, hc, Bool.false_eq_true, if_false, TlbEntry.covers, true_and]
    rcases hpage with h | h | h <;> rw [h] <;> omega

/-- The entry that a TLB without one for the address takes in is the one that translates it from then on. -/
theorem tlbHit_lruPush {l : List TlbEntry} {cid : BitVec 12} {va : Nat} (hmiss : tlbHit l cid va = none) (n : Nat)
    {e : TlbEntry} (he : e.covers cid va) : tlbHit (lruPush n l e) cid va = some e := by
  obtain ⟨hcid, hlo, hhi⟩ := he
  have hpush : ∀ x : List TlbEntry, (∀ y ∈ x, y ∈ l) → tlbHit (x ++ [e]) cid va = some e := fun x hx => by
    have hnone : tlbHit x cid va = none :=
      List.find?_eq_none.mpr fun y hy => List.find?_eq_none.mp hmiss y (hx y hy)
    unfold tlbHit at hnone ⊢
    rw [List.find?_append, hnone]
    simp [hcid, hlo, hhi]
  unfold lruPush
  split
  · exact hpush l fun _ hy => hy
  · exact hpush (l.drop 1) fun _ hy => List.mem_of_mem_drop hy

/-! ### Translation (R340, R345) -/

/-- Whether an address may be used rests on the state's fabric record alone. -/
theorem permit_congr {s t : State} (h : t.fab = s.fab) (cid : BitVec 12) (write wOk fw : Bool) (pa : Nat) :
    permit t cid write wOk fw pa = permit s cid write wOk fw pa := by
  have husable : paUsable t cid pa = paUsable s cid pa := by simp only [paUsable, State.moduleNo, h]
  rw [permit, permit, husable]

theorem translate_of_hit {s : State} {u va : Nat} {cid : BitVec 12} {e : TlbEntry} (hva : va < 2 ^ 52)
    (h : tlbHit (Tbl.get [] s.xl.tlbs u) cid va = some e) (write : Bool) :
    translate s u cid va write = permit s cid write e.write e.fw (e.oa + (va - 65536 * e.vbase)) := by
  simp only [translate, Nat.mod_eq_of_lt hva, h]

theorem translate_of_walk {s : State} {u va key level : Nat} {cid : BitVec 12} {w : Word} {r : WalkReads} (hva : va < 2 ^ 52)
    (hmiss : tlbHit (Tbl.get [] s.xl.tlbs u) cid va = none) (hw : walk s (s.walker u) cid va = (.leaf key level w, r))
    (hv : pteState w = stValid) (write : Bool) :
    translate s u cid va write = permit s cid write (pteWrite w) (pteFw w) (pteOa w + va % pageBytes level) := by
  simp only [translate, Nat.mod_eq_of_lt hva, hmiss, hw, hv, if_true]

/-! ### A walk (R347, R349) -/

/-- The state in which a unit's miss and walk have been counted, and what the walk reads has been read. -/
def State.walkRead (s : State) (u : Nat) (r : WalkReads) : State :=
  forL r.words (fun a s => dramTouch s a 8) (upTr s (unitHedge u) fun t => { t with
    tlbMisses := t.tlbMisses + 1, walks := t.walks + 1, walkCacheHits := t.walkCacheHits + r.hits })

theorem walkRead_sansChans (s : State) (u : Nat) (r : WalkReads) : (s.walkRead u r).sansChans =
    (upTr s (unitHedge u) fun t => { t with
      tlbMisses := t.tlbMisses + 1, walks := t.walks + 1, walkCacheHits := t.walkCacheHits + r.hits }).sansChans :=
  forL_induct (P := fun t => State.sansChans t = _) (fun _ _ h => (dramTouch_sansChans ..).trans h) rfl

theorem walkRead_xl (s : State) (u : Nat) (r : WalkReads) : (s.walkRead u r).xl = s.xl :=
  (congrArg State.xl (walkRead_sansChans s u r) :)

theorem walkRead_fab (s : State) (u : Nat) (r : WalkReads) : (s.walkRead u r).fab = s.fab :=
  (congrArg State.fab (walkRead_sansChans s u r) :)

/-- R369: the walk counts in the record of the unit's hedge. -/
theorem walkRead_tr (s : State) (u : Nat) (r : WalkReads) :
    ((s.walkRead u r).hedge (unitHedge u)).tr.walks = (s.hedge (unitHedge u)).tr.walks + 1 ∧
    ((s.walkRead u r).hedge (unitHedge u)).tr.tlbMisses = (s.hedge (unitHedge u)).tr.tlbMisses + 1 := by
  rw [hedge_congr (hedges_of_sansChans (walkRead_sansChans s u r)), upTr, upHedge_hedge, if_pos rfl]
  exact ⟨rfl, rfl⟩

/-- What a TLB takes in leaves every hedge's record. -/
theorem fillTlb_tr (s : State) (u : Nat) (e : TlbEntry) (r : WalkReads) (h : Nat) :
    ((fillTlb s u e r).hedge h).tr = (s.hedge h).tr := by
  simp only [fillTlb, State.hedge, upHedge, Tbl.get_upd]
  split
  next hh => rw [hh]
  next => rfl

theorem fillTlb_tlbs (s : State) (u : Nat) (e : TlbEntry) (r : WalkReads) :
    Tbl.get [] (fillTlb s u e r).xl.tlbs u = lruPush (tlbSize u) (Tbl.get [] s.xl.tlbs u) e := by
  simp [fillTlb]

/-- The state in which the fabric edge's turn of walkers has passed on, where the unit is that edge. -/
def State.edgeTurned (s : State) (u : Nat) : State :=
  { s with xl := { s.xl with edgeTurn := s.xl.edgeTurn + b2n (u == uFabric) } }

theorem edgeTurned_tlbs (s : State) (u : Nat) : (s.edgeTurned u).xl.tlbs = s.xl.tlbs := rfl

/-- A miss, by what its walk finds: only a VALID leaf goes into the TLB. -/
theorem walkUnit_cases (s : State) (u : Nat) (cid : BitVec 12) (va : Nat) :
    (∃ key level w r, walk s (s.walker u) cid va = (.leaf key level w, r) ∧ pteState w = stValid ∧
      walkUnit s u cid va = (fillTlb (s.walkRead u r) u (tlbOf cid va level w) r).edgeTurned u) ∨
    ((∀ key level w r, walk s (s.walker u) cid va = (.leaf key level w, r) → pteState w ≠ stValid) ∧
      ∃ r, walkUnit s u cid va = (s.walkRead u r).edgeTurned u) := by
  rcases hw : walk s (s.walker u) cid va with ⟨x, r⟩
  cases x with
  | leaf key level w =>
    by_cases hv : pteState w = stValid
    · refine .inl ⟨key, level, w, r, rfl, hv, ?_⟩
      simp only [walkUnit, hw, if_pos hv]
      rfl
    · refine .inr ⟨fun _ _ _ _ h => ?_, r, ?_⟩
      · cases h
        exact hv
      · simp only [walkUnit, hw, if_neg hv]
        rfl
  | invalid | noContext | poisoned =>
    refine .inr ⟨fun _ _ _ _ h => (by cases h), r, ?_⟩
    simp only [walkUnit, hw]
    rfl

theorem walkUnit_tr (s : State) (u : Nat) (cid : BitVec 12) (va : Nat) :
    ((walkUnit s u cid va).hedge (unitHedge u)).tr.walks = (s.hedge (unitHedge u)).tr.walks + 1 ∧
    ((walkUnit s u cid va).hedge (unitHedge u)).tr.tlbMisses = (s.hedge (unitHedge u)).tr.tlbMisses + 1 := by
  rcases walkUnit_cases s u cid va with ⟨key, level, w, r, -, -, h⟩ | ⟨-, r, h⟩
  · have htr := fillTlb_tr (s.walkRead u r) u (tlbOf cid va level w) r (unitHedge u)
    rw [h]
    exact ⟨(congrArg TransRec.walks htr).trans (walkRead_tr s u r).1,
      (congrArg TransRec.tlbMisses htr).trans (walkRead_tr s u r).2⟩
  · rw [h]
    exact walkRead_tr s u r

/-- A walk that finds no VALID leaf fills nothing. -/
theorem walkUnit_tlbs_of_no_leaf {s : State} {u : Nat} {cid : BitVec 12} {va : Nat}
    (hno : ∀ key level w r, walk s (s.walker u) cid va = (.leaf key level w, r) → pteState w ≠ stValid) :
    (walkUnit s u cid va).xl.tlbs = s.xl.tlbs := by
  rcases walkUnit_cases s u cid va with ⟨key, level, w, r, hw, hv, -⟩ | ⟨-, r, h⟩
  · exact absurd hv (hno key level w r hw)
  · rw [h]
    exact (congrArg Xlate.tlbs (walkRead_xl s u r) : (s.walkRead u r).xl.tlbs = s.xl.tlbs)

/-- R346, R348: after a walk that found a VALID leaf, the TLB translates the address as the walk did. -/
theorem translate_walkUnit {s : State} {u va key level : Nat} {cid : BitVec 12} {w : Word} {r : WalkReads} (hva : va < 2 ^ 52)
    (hmiss : tlbHit (Tbl.get [] s.xl.tlbs u) cid va = none) (hw : walk s (s.walker u) cid va = (.leaf key level w, r))
    (hv : pteState w = stValid) (hrun : pteContig w = true → pteOa w / 65536 % 32 = va / 65536 % 32) (write : Bool) :
    translate (walkUnit s u cid va) u cid va write = translate s u cid va write := by
  obtain ⟨hcover, hwrite, hfw, haddr⟩ := tlbOf_covers (cid := cid) (goodLeaf_of_walk hw) hrun
  rcases walkUnit_cases s u cid va with ⟨key', level', w', r', hw', -, h⟩ | ⟨hno, -⟩
  · rw [hw] at hw'
    cases hw'
    have hhit : tlbHit (Tbl.get [] (walkUnit s u cid va).xl.tlbs u) cid va = some (tlbOf cid va level w) := by
      rw [h, edgeTurned_tlbs, fillTlb_tlbs, walkRead_xl]
      exact tlbHit_lruPush hmiss _ hcover
    have hfab : (walkUnit s u cid va).fab = s.fab := by
      rw [h]
      exact walkRead_fab s u r
    rw [translate_of_hit hva hhit, translate_of_walk hva hmiss hw hv, permit_congr hfab, hwrite, hfw, haddr]
  · exact absurd hv (hno key level w r hw)

/-! ### The command -/

section
variable {s : State} {u : XlUnit} {cid : BitVec 12} {va : BitVec 52} (hp : s.powered = true)
include hp

theorem exec_pageWalk_of_hit (h : tlbHit (Tbl.get [] s.xl.tlbs (unitKey u)) cid va.toNat ≠ none) (bad : Bool) :
    exec (.pageWalk u cid va bad) s = .next s := by
  rw [exec_pageWalk, execPageWalk, whenPowered_of_powered hp]
  simp only [Option.isSome_iff_ne_none.mpr h, if_true]

variable (hmiss : tlbHit (Tbl.get [] s.xl.tlbs (unitKey u)) cid va.toNat = none)
include hmiss

/-- R397, R399: a walk whose two executions differ. -/
theorem exec_pageWalk_of_mismatch : exec (.pageWalk u cid va true) s =
    .next (arithFault s (s.cidOwner cid) unitHash (s.walker (unitKey u)) 0 0) := by
  rw [exec_pageWalk, execPageWalk, whenPowered_of_powered hp]
  simp only [hmiss, Option.isSome_none, Bool.false_eq_true, if_false, if_true]

theorem exec_pageWalk_of_miss : exec (.pageWalk u cid va false) s = .next (walkUnit s (unitKey u) cid va.toNat) := by
  rw [exec_pageWalk, execPageWalk, whenPowered_of_powered hp]
  simp only [hmiss, Option.isSome_none, Bool.false_eq_true, if_false]

end

end Sys2Proof.Machine
end

section
/-!
Pending faults (R358 to R361) and the fault queue (R363, R364): where a tile that meets a resolvable fault waits, and the entry
that is posted; then translation together.
-/
namespace Sys2Proof.Machine

theorem exec_faultEntryPost (s : State) : exec .faultEntryPost s = execFaultEntryPost s := rfl

/-! ### Posting an entry (R363, R364) -/

/-- R526: an MSI-X message leaves the module, or waits at the link. -/
theorem msix_out (s : State) (f v : Nat) : ∃ l o, msix s f v = { s with link := l, out := s.out ++ o } := by
  unfold msix
  split
  · exact ⟨s.link, [], by rw [List.append_nil]⟩
  · split
    · exact ⟨_, [], by rw [List.append_nil]⟩
    · unfold sendAs
      split
      · exact ⟨_, [], by rw [List.append_nil]⟩
      · exact ⟨s.link, _, rfl⟩

/-- What is known of translation once the oldest fault entry held has been named by the next tag (R363, R366). -/
def State.faultNamed (s : State) (e : FaultEntry) (rest : List FaultEntry) : Xlate :=
  { s.xl with
    faultHeld := rest
    faultTag := s.xl.faultTag + 1
    pend := updFirst (fun p => p.leaf == e.leaf) (fun p => { p with tag := some s.xl.faultTag }) s.xl.pend }

/-- The state in which the oldest fault entry held has been written at TAIL of the fault queue. -/
def State.faultPosted (s : State) (q : PfQ) (e : FaultEntry) (rest : List FaultEntry) : State :=
  { s with
    xl := s.faultNamed e rest
    fq := some q.advance
    out := s.out ++ [.dma 0 (q.ring.toNat + 32 * q.tail)
      (wordsBytes (faultWords s e s.xl.faultTag (s.waitersOn e.leaf))) false false] }

/-- R364: with room, and with nothing that blocks its DMA, the oldest entry held is written at TAIL. -/
theorem postFault_of_room {s : State} {q : PfQ} {e : FaultEntry} {rest : List FaultEntry} (hq : s.fq = some q)
    (he : s.xl.faultHeld = e :: rest) (hroom : q.full = false) (hopen : s.blocked 0 = false) :
    postFault s = msix (s.faultPosted q e rest) 0 q.vector := by
  have hlen : (wordsBytes (faultWords s e s.xl.faultTag (s.waitersOn e.leaf))).length = 32 := wordsBytes_length _
  have hwrite := fun a => dmaBytes_of_short (a := a) (relaxed := false) hopen
    (by omega : 0 < (wordsBytes (faultWords s e s.xl.faultTag (s.waitersOn e.leaf))).length) (by omega)
  have hgo : ¬ (q.full || s.blocked 0) = true := by simp [hroom, hopen]
  unfold postFault
  rw [hq, he]
  simp only [if_neg hgo, hwrite]
  rfl

/-- R364: without an entry held, without room or while its DMA is blocked, nothing is posted. -/
theorem postFault_stays {s : State} (h : ∀ q e rest, s.fq = some q → s.xl.faultHeld = e :: rest →
    q.full = true ∨ s.blocked 0 = true) : postFault s = s := by
  unfold postFault
  split
  next q e rest hq he => exact if_pos (Bool.or_eq_true_iff.mpr (h q e rest hq he))
  next => rfl

/-- Posting touches of translation the entries, the tag and the names of pending faults alone. -/
theorem postFault_eq (s : State) : ∃ q l o f t p, postFault s = { s with
    fq := q, link := l, out := o, xl := { s.xl with faultHeld := f, faultTag := t, pend := p } } := by
  by_cases hgo : ∃ q e rest, s.fq = some q ∧ s.xl.faultHeld = e :: rest ∧ q.full = false ∧ s.blocked 0 = false
  · obtain ⟨q, e, rest, hq, he, hroom, hopen⟩ := hgo
    obtain ⟨l, o, hmsix⟩ := msix_out (s.faultPosted q e rest) 0 q.vector
    exact ⟨_, l, _, _, _, _, (postFault_of_room hq he hroom hopen).trans hmsix⟩
  · refine ⟨s.fq, s.link, s.out, s.xl.faultHeld, s.xl.faultTag, s.xl.pend, postFault_stays fun q e rest hq he => ?_⟩
    by_contra hno
    simp only [not_or, Bool.not_eq_true] at hno
    exact hgo ⟨q, e, rest, hq, he, hno.1, hno.2⟩

theorem postFault_waiting (s : State) : (postFault s).xl.waiting = s.xl.waiting := by
  obtain ⟨_, _, _, _, _, _, h⟩ := postFault_eq s
  rw [h]

theorem postFault_hedge (s : State) (k : Nat) : (postFault s).hedge k = s.hedge k := by
  obtain ⟨_, _, _, _, _, _, h⟩ := postFault_eq s
  rw [h]
  rfl

/-- R363, R364: FAULT_ENTRY_POST where an entry is held and can be written. -/
theorem exec_faultEntryPost_posts {s : State} {q : PfQ} {e : FaultEntry} {rest : List FaultEntry} (hfw : s.fwRuns = true)
    (hq : s.fq = some q) (hroom : q.full = false) (hopen : s.blocked 0 = false) (he : s.xl.faultHeld = e :: rest) :
    ∃ k o, exec .faultEntryPost s = .next { s with
      link := k, fq := some q.advance, xl := s.faultNamed e rest
      out := s.out ++ Output.dma 0 (q.ring.toNat + 32 * q.tail)
        (wordsBytes (faultWords s e s.xl.faultTag (s.waitersOn e.leaf))) false false :: o } := by
  obtain ⟨k, o, hmsix⟩ := msix_out (s.faultPosted q e rest) 0 q.vector
  refine ⟨k, o, ?_⟩
  rw [exec_faultEntryPost, execFaultEntryPost, whenFw_of_fwRuns hfw, postFault_of_room hq he hroom hopen, hmsix]
  simp only [State.faultPosted, List.append_assoc, List.singleton_append]

/-! ### The place of a tile in the pending-fault table (R360, R361) -/

/-- The tiles that wait, with a tile as the last of them. -/
def State.tilesWith (s : State) (t : WaitTile) (held : Bool) : List WaitTile :=
  s.xl.waiting.filter (fun x => x.id != t.id) ++ [{ t with held := held }]

/-- The state in which a tile waits last. -/
def State.tileQueued (s : State) (t : WaitTile) (held : Bool) : State :=
  { s with xl := { s.xl with waiting := s.tilesWith t held } }

theorem any_held_tilesWith (s : State) (t : WaitTile) (held : Bool) :
    (s.tilesWith t held).any (fun x => x.id == t.id && x.held) = held := by
  have hnone : (s.xl.waiting.filter fun x => x.id != t.id).any (fun x => x.id == t.id && x.held) = false := by
    simp only [List.any_eq_false, List.mem_filter, bne_iff_ne, Bool.and_eq_true, beq_iff_eq]
    exact fun x hx hy => hx.2 hy.1
  rw [State.tilesWith, List.any_append, hnone]
  simp

/-- R361: a tile of a leaf that has an entry joins it. -/
theorem joinFault_of_pending {s : State} {t : WaitTile} (h : s.xl.pend.any (fun p => p.leaf == t.leaf) = true) :
    joinFault s t = State.tileQueued { upTr s t.hedge (fun r => { r with coalesced := r.coalesced + 1 }) with
      xl := { s.xl with
        pend := updFirst (fun p => p.leaf == t.leaf) (fun p => { p with waiters := p.waiters + 1 }) s.xl.pend } } t false := by
  simp only [joinFault, h, if_true]
  rfl

section
variable {s : State} {t : WaitTile} (hnew : s.xl.pend.any (fun p => p.leaf == t.leaf) = false)
include hnew

/-- R360: while all 256 entries are in use a tile is held. -/
theorem joinFault_of_full (h : 256 ≤ s.xl.pend.length) : joinFault s t = s.tileQueued t true := by
  simp only [joinFault, hnew, Bool.false_eq_true, h, if_false, if_true]
  rfl

/-- R360: the first tile of a leaf makes an entry. -/
theorem joinFault_of_room (h : s.xl.pend.length < 256) (hd : pteState (s.node t.leaf) ≠ stDemand) : joinFault s t =
    State.tileQueued { s with xl := { s.xl with
      pend := s.xl.pend ++ [{ leaf := t.leaf, tag := none, cid := t.owner.cid, page := t.page, waiters := 1 }] } } t false := by
  simp only [joinFault, hnew, Bool.false_eq_true, Nat.not_le.mpr h, if_false]
  exact if_neg hd

end

/-- Whatever its place, the tile waits, last of all, and no count of resolvable faults changes. -/
theorem joinFault_waits (s : State) (t : WaitTile) : ∃ held, (joinFault s t).xl.waiting = s.tilesWith t held ∧
    ∀ h, ((joinFault s t).hedge h).tr.resolvable = (s.hedge h).tr.resolvable := by
  have hup : ∀ h, ((upTr s t.hedge fun r => { r with coalesced := r.coalesced + 1 }).hedge h).tr.resolvable =
      (s.hedge h).tr.resolvable := fun h => by
    rw [upTr, upHedge_hedge]
    split
    next hh => rw [hh]
    next => rfl
  unfold joinFault
  dsimp only
  split
  · exact ⟨false, rfl, hup⟩
  · split
    · exact ⟨true, rfl, fun _ => rfl⟩
    · refine ⟨false, ?_⟩
      split
      · split
        · exact ⟨postFault_waiting _, fun h => congrArg (fun x => x.tr.resolvable) (postFault_hedge _ h)⟩
        · exact ⟨rfl, fun _ => rfl⟩
      · exact ⟨rfl, fun _ => rfl⟩

/-! ### A tile meets a resolvable fault (R358 to R360) -/

/-- The tile that a unit has next. -/
def State.newTile (s : State) (o : Owner) (core : Option Nat) (bag : Option (Nat × Nat)) (h leaf page : Nat) : WaitTile :=
  { id := s.xl.nextTile, hedge := h, leaf := leaf, owner := o, core := core, bag := bag, page := page, held := false }

/-- The state in which the fault has been counted and the tile has its number. -/
def State.faultMet (s : State) (h : Nat) : State :=
  { upTr s h (fun r => { r with resolvable := r.resolvable + 1 }) with xl := { s.xl with nextTile := s.xl.nextTile + 1 } }

/-- The state in which the tiles held for want of an entry count one more, if this one is. -/
def State.heldCounted (s : State) (held : Bool) : State :=
  { s with xl := { s.xl with heldFull := s.xl.heldFull + b2n held } }

theorem faultMet_resolvable (s : State) (h : Nat) :
    ((s.faultMet h).hedge h).tr.resolvable = (s.hedge h).tr.resolvable + 1 := by
  simp [State.faultMet, upTr, upHedge, State.hedge]

section
variable {s u : State} {o : Owner} {core : Option Nat} {bag : Option (Nat × Nat)} {h leaf page : Nat} {held : Bool}

/-- What a tile leaves as it waits: one that is held is counted besides. -/
theorem waitTile_of_join (hj : joinFault (s.faultMet h) (s.newTile o core bag h leaf page) = u)
    (hw : u.xl.waiting = s.tilesWith (s.newTile o core bag h leaf page) held) :
    waitTile s o core bag h leaf page = u.heldCounted held := by
  have hany : u.xl.waiting.any (fun x => x.id == s.xl.nextTile && x.held) = held := by
    rw [hw]
    exact any_held_tilesWith s (s.newTile o core bag h leaf page) held
  subst hj
  cases held with
  | true => exact if_pos hany
  | false => exact if_neg (Bool.eq_false_iff.mp hany)

/-- R358, R359: the fault is counted, memory and jobs stay, and the transfer has a tile waiting. -/
theorem waitTile_waits : ((waitTile s o core bag h leaf page).hedge h).tr.resolvable = (s.hedge h).tr.resolvable + 1 ∧
    (waitTile s o core bag h leaf page).dram = s.dram ∧ (waitTile s o core bag h leaf page).jobs = s.jobs ∧
    (waitTile s o core bag h leaf page).tileWaits o core bag = true := by
  obtain ⟨held, hw, hres⟩ := joinFault_waits (s.faultMet h) (s.newTile o core bag h leaf page)
  have hsame := (waitTile_sameReads s o core bag h leaf page).1
  have heq := waitTile_of_join rfl hw
  have hhedges := congrArg State.hedges heq
  have hwaiting := (congrArg (fun t => t.xl.waiting) heq).trans hw
  refine ⟨?_, dram_of_sansReads hsame, jobs_of_sansReads hsame, ?_⟩
  · exact (congrArg (fun x => x.tr.resolvable) (hedge_congr hhedges h)).trans ((hres h).trans (faultMet_resolvable s h))
  · simp only [State.tileWaits, hwaiting]
    simp [State.tilesWith, State.newTile]

/-- R361: the tile joins the entry of its leaf, and that is counted. -/
theorem waitTile_of_pending (hpend : s.xl.pend.any (fun p => p.leaf == leaf) = true) :
    (waitTile s o core bag h leaf page).fq = s.fq ∧ (waitTile s o core bag h leaf page).xl.faultHeld = s.xl.faultHeld ∧
    (waitTile s o core bag h leaf page).xl.heldFull = s.xl.heldFull ∧
    ((waitTile s o core bag h leaf page).hedge h).tr.coalesced = (s.hedge h).tr.coalesced + 1 ∧
    (waitTile s o core bag h leaf page).xl.pend =
      updFirst (fun p => p.leaf == leaf) (fun p => { p with waiters := p.waiters + 1 }) s.xl.pend := by
  rw [waitTile_of_join (held := false)
    (joinFault_of_pending (s := s.faultMet h) (t := s.newTile o core bag h leaf page) hpend) rfl]
  simp [State.heldCounted, State.tileQueued, State.newTile, State.faultMet, upTr, upHedge, State.hedge, b2n]

variable (hnew : s.xl.pend.any (fun p => p.leaf == leaf) = false)
include hnew

/-- R360: with all 256 entries in use the tile is held, and that is counted. -/
theorem waitTile_of_full (hfull : 256 ≤ s.xl.pend.length) :
    (waitTile s o core bag h leaf page).xl.pend = s.xl.pend ∧
    (waitTile s o core bag h leaf page).xl.heldFull = s.xl.heldFull + 1 ∧
    (waitTile s o core bag h leaf page).fq = s.fq ∧
    (waitTile s o core bag h leaf page).xl.faultHeld = s.xl.faultHeld := by
  rw [waitTile_of_join (held := true)
    (joinFault_of_full (s := s.faultMet h) (t := s.newTile o core bag h leaf page) hnew hfull) rfl]
  simp [State.heldCounted, State.tileQueued, State.faultMet, upTr, b2n]

/-- R360: the tile makes an entry of its leaf. -/
theorem waitTile_of_room (hroom : s.xl.pend.length < 256) (hd : pteState (s.node leaf) ≠ stDemand) :
    (waitTile s o core bag h leaf page).xl.pend =
      s.xl.pend ++ [{ leaf := leaf, tag := none, cid := o.cid, page := page, waiters := 1 }] ∧
    (waitTile s o core bag h leaf page).xl.heldFull = s.xl.heldFull ∧
    (waitTile s o core bag h leaf page).fq = s.fq ∧
    (waitTile s o core bag h leaf page).xl.faultHeld = s.xl.faultHeld := by
  rw [waitTile_of_join (held := false)
    (joinFault_of_room (s := s.faultMet h) (t := s.newTile o core bag h leaf page) hnew hroom hd) rfl]
  simp [State.heldCounted, State.tileQueued, State.newTile, State.faultMet, upTr, b2n]

end

/-! ### Translation together -/

/-- Settles O25: the walk by what it finds, the tile by its place in the pending-fault table, the entry by what posting it
writes. -/
theorem translation : Obligations.Translation := by
  unfold Obligations.Translation
  refine ⟨fun s u cid va hp => ⟨exec_pageWalk_of_hit hp, fun hmiss => ⟨?mismatch, ?miss⟩⟩,
    fun s o core bag h leaf page => ?tile, fun s q e rest hfw hq hroom hopen he => ?posts⟩
  case mismatch =>
    obtain ⟨-, -, hlives, hev⟩ := arithFault_spec s (s.cidOwner cid) unitHash (s.walker (unitKey u)) 0 0
    exact ⟨_, exec_pageWalk_of_mismatch hp hmiss, arithFault_base .., hev, hlives⟩
  case miss =>
    have hsame := (walkUnit_sameReads (.refl s) (unitKey u) cid va.toNat).1
    obtain ⟨hwalks, hmisses⟩ := walkUnit_tr s (unitKey u) cid va.toNat
    refine ⟨_, exec_pageWalk_of_miss hp hmiss,
      ⟨hwalks, hmisses, dram_of_sansReads hsame, jobs_of_sansReads hsame, cores_of_sansReads hsame⟩,
      fun hno => walkUnit_tlbs_of_no_leaf fun key level w r hw => ?_,
      fun key level w r hw hv hrun write => translate_walkUnit va.isLt hmiss hw hv hrun write⟩
    exact (hno key level w r).resolve_left (not_not.mpr hw)
  case tile =>
    obtain ⟨hres, hdram, hjobs, hwaits⟩ := waitTile_waits (s := s) (o := o) (core := core) (bag := bag) (h := h)
      (leaf := leaf) (page := page)
    exact ⟨hres, hdram, hjobs, hwaits, waitTile_of_pending, waitTile_of_full, waitTile_of_room⟩
  case posts =>
    obtain ⟨k, out, hexec⟩ := exec_faultEntryPost_posts hfw hq hroom hopen he
    exact ⟨_, hexec, rfl, rfl, rfl, rfl, rfl, _, out, rfl, wordsBytes_length _⟩

end Sys2Proof.Machine
end
